-- ==== Sys2Proof/Word.lean ====
section
/-!
DEFINITION. The word types of the FG-1280 and their plainest arithmetic: bytes, lanes, and the
little-endian reading and writing of multi-byte values (R9, R10).
-/

namespace Sys2Proof

/-- A byte, the unit of every memory of the part. -/
abbrev Byte := BitVec 8

/-- One 32-bit vector lane. -/
abbrev Lane := BitVec 32

/-- The value of a little-endian byte string (R10). -/
def leNat : List Byte → Nat
  | [] => 0
  | b :: bs => b.toNat + 256 * leNat bs

/-- The `n` little-endian bytes of a value, low byte first (R10). -/
def leBytes : Nat → Nat → List Byte
  | 0, _ => []
  | n + 1, v => BitVec.ofNat 8 v :: leBytes n (v / 256)

/-- The `n` bytes of `bs` from offset `off`, a byte beyond the end reading 0. -/
def slice (bs : List Byte) (off n : Nat) : List Byte :=
  (List.range n).map fun i => bs.getD (off + i) 0

/-- The unsigned little-endian field of `n` bytes at offset `off`. -/
def fieldLE (bs : List Byte) (off n : Nat) : Nat := leNat (slice bs off n)

/-- Bits `[hi:lo]` of a value (R9). -/
def bits (v hi lo : Nat) : Nat := v / 2 ^ lo % 2 ^ (hi + 1 - lo)

/-- Bit `n` of a value (R9). -/
def bit (v n : Nat) : Bool := v.testBit n

/-- A `w`-bit field read as two's complement. -/
def signed (w v : Nat) : Int := if v < 2 ^ (w - 1) then v else (v : Int) - 2 ^ w

end Sys2Proof
end

