-- ==== Sys2Proof/Syntax.lean ====
section
/-!
DEFINITION. The commands of the FG-1280 as syntax: one constructor of `Instr` per row of the table
of operations and events. The manual's table gives its rows no operands; the operands here are what
the environment must say for the step's rules to fix its effect (log 1): which cell, die, partition,
queue or session it concerns, the bytes of a descriptor, frame or packet, and those outcomes the
manual leaves to the world outside the part (a checksum that fails, a signature that verifies, a
temperature read, a picture decoded).
-/

namespace Sys2Proof

/-- Caller classes of dictionary requests (R381, R410); class P carries its partition. -/
inductive Cls where
  | S
  | O
  | P (p : Nat)
  | D
  deriving DecidableEq, Repr

/-- Who sends a dictionary request: its class, its transport code (Table 16.4) and its identity on
that transport: the mailbox page, the requester EID, or the source address and port of a datagram
(address × 2^16 + port). -/
structure Caller where
  cls : Cls
  transport : Nat
  ident : Nat
  deriving DecidableEq, Repr

/-- Contract-miss causes (Table 3.3). -/
inductive MissCause where
  | operand
  | unit
  | bank
  | stratus
  | farReserved
  | farBestEffort
  | host
  | crossDie
  | amax
  | writeBackpressure
  deriving DecidableEq, Repr

/-- A scratchpad bank request (R156, Table 6.2): its master code, its physical byte address, for
a write the 64 byte enables (bit i for byte i) and the 64 bytes, and whether the data is poisoned. -/
structure BankReq where
  master : Nat
  addr : Nat
  write : Option (BitVec 64 × List Byte)
  poison : Bool := false
  deriving DecidableEq, Repr

/-- Bits of stored data that have flipped since they were written (R155, R162, R172): the 64 B word of a
scratchpad or unit of Stratus by its physical number, the check group within it (4 B of a word, 8 B of a unit),
and whether two bits of the group differ or one. -/
structure Upset where
  word : Nat
  group : Nat
  double : Bool
  deriving DecidableEq, Repr

/-- An unscheduled Stratus access as it arrives at its die (R171): its logical offset there, and for a write its
bytes and their poison. -/
structure StratusAccess where
  offset : Nat
  write : Option (List Byte × Bool)
  deriving DecidableEq, Repr

/-- Bits that flip in the devices before a far-tier read: in the block `block` places after the read's first, in one of its
128 data symbols, its four check symbols (128 to 131) or its SEC bytes by pairs (132 to 135) (R181, Table 7.1). -/
structure SymErr where
  block : Nat
  symbol : Nat
  flip : BitVec 16
  deriving DecidableEq, Repr

/-- Data that deposits without a contract time (R73), and writes of other masters into a cell's
scratchpad (R93, R101). -/
inductive Deposit where
  /-- the next arrived unit of a read stream without contract time -/
  | unit (g stream : Nat)
  /-- a write of `data` into cell `g`'s scratchpad at a logical address, by another cell of the die
  (`some`), or by the control core, host or fabric (`none`) -/
  | write (writer : Option Nat) (g addr : Nat) (data : List Byte) (poison : Bool)
  deriving DecidableEq, Repr

/-- On whose behalf a far-tier write is made (R396 tells loads apart). -/
inductive Writer where
  | cell (g : Nat)
  | control
  | load
  | media
  | network
  deriving DecidableEq, Repr

/-- Where a queue entry lies: partition, queue and ring index (R363), so that its result fields can
be written in place (R366). -/
structure ReqRef where
  p : Nat
  q : Nat
  index : Nat
  deriving DecidableEq, Repr

/-- A sequence header as an engine parses it (R300): what the context limits are checked against. `supported`: its profile
is one of Table 10.1. -/
structure SeqHdr where
  width : Nat
  height : Nat
  depth : Nat
  chroma : Nat
  refs : Nat
  tiles : Nat
  supported : Bool
  interlaced : Bool
  discardPrior : Bool
  deriving DecidableEq, Repr

/-- What an engine finds when it starts its next picture: the context it serves, the sequence header met before it, the
parameter sets or sequence header parsed with the places in the store the part gives them (R263), the access unit's size
(for an encoder, the bytes its slices will take; 0 where the input begins no further unit), and for a field picture its
parity and whether the bitstream makes it the second field of the frame begun before (R251). -/
structure PicStart where
  p : Nat
  ctx : Nat
  header : Option SeqHdr
  psets : List (Nat × List Byte)
  auBytes : Nat
  field : Option Bool
  second : Bool
  deriving DecidableEq, Repr

/-- What an engine's decoding of a picture's syntax gives (R259, R271 to R274, R282). `isRef`: 0 no reference, 1 SHORT, 2
LONG; `unmark` and `toLong` the buffers the bitstream marks; `refs` the pictures it predicts from, none for one the context
never decoded, and `list0` the first list-0 reference; `waits` that it waits for output at place `order` of the output order,
`release` the buffers the output process now releases. `luma` and `chroma` are the reconstructed samples in raster order (Cb
and Cr interleaved), `units` the blocks of each slice or tile in decoding order with the place of its first syntax error,
`headerBad` an error that leaves no start point. `reads` are the far-tier reads made for a block (block, address, length),
`writes` the bytes of the buffer's other regions (block, offset, bytes), `vectors` the list-0 and list-1 vectors of each 8 × 8
block in the codec's units. `alone`: no second field follows. `last`: the request's last picture. -/
structure PicEnd where
  isRef : Nat
  unmark : List Nat
  toLong : List Nat
  refs : List (Option Nat)
  list0 : Option Nat
  waits : Bool
  order : Int
  release : List Nat
  luma : List Nat
  chroma : List Nat
  units : List (List Nat × Option Nat)
  headerBad : Bool
  reads : List (Nat × Nat × Nat)
  writes : List (Nat × Nat × List Byte)
  vectors : List (Option (Int × Int) × Option (Int × Int))
  grain : Bool
  key : Bool
  cycles : Nat
  avgQp : Nat
  interlaced : Bool
  bottomFirst : Bool
  alone : Bool
  last : Bool
  deriving DecidableEq, Repr

/-- The colour description a bitstream signals, for AUTO (R294): matrix 1 BT601, 2 BT709, 3 BT2020,
and whether the range is full. -/
structure ColourSignal where
  hasMatrix : Option Nat
  full : Option Bool
  deriving DecidableEq, Repr

/-- An NCT packet's header fields (Table 12.2) and payload, after authentication. `ce` is the ECN
mark it arrived with. `response` tells a GET response from a put's DATA, and `poison` lists the payload
bytes of a collective packet that are poisoned (R349): the header of Table 12.2 has a bit for neither
(log 31). -/
structure Pkt where
  type : Nat
  keyPhase : Bool
  retrans : Bool
  dst : Nat
  src : Nat
  psn : Nat
  msg : Nat
  msn : Nat
  index : Nat
  count : Nat
  rkey : Nat
  offset : Nat
  payload : List Byte
  ce : Bool
  response : Bool
  poison : List Nat
  deriving DecidableEq, Repr

/-- A received HELLO or REPLY: its payload (Table 15.3), and what published standards make of its chain and signature (R394):
whether they verify, and the firmware digest and debug state of the AK certificate. `p` is the partition addressed. -/
structure Shake where
  p : Nat
  peer : Nat
  src : Nat
  dst : Nat
  payload : List Byte
  chainOk : Bool
  sigOk : Bool
  fwDigest : Nat
  debugState : Nat
  deriving DecidableEq, Repr

/-- A received Ethernet frame, by what R312 to R316 sort it on, with the 48 B header of an NCT packet as bytes. -/
structure EthFrame where
  bytes : Nat
  vlan : Bool
  pause : Bool
  macOk : Bool
  dstPart : Option Nat
  icmp : Bool
  udpPort : Option Nat
  checksumOk : Bool
  tagOk : Bool
  header : List Byte
  payload : List Byte
  ce : Bool
  response : Bool
  poison : List Nat
  deriving DecidableEq, Repr

/-- A frame the OC transmits (R313, R314). -/
structure OcFrame where
  srcMacOk : Bool
  srcPrefixOk : Bool
  deriving DecidableEq, Repr

/-- An MCTP message on a binding (R422): transport 2 or 3, endpoint, requester EID and tag, and the
checks of its header. -/
structure Mctp where
  transport : Nat
  sc : Bool
  eid : Nat
  msgTag : Nat
  integrity : Bool
  subTypeOk : Bool
  ianaOk : Bool
  frame : List Byte
  deriving DecidableEq, Repr

/-- A UDP datagram to the management port (R423). -/
structure Datagram where
  addr : Nat
  port : Nat
  dstPort : Nat
  frame : List Byte
  deriving DecidableEq, Repr

/-- What the SC finds in a firmware image (R400): which image it names, its signature's outcome, its
security version, its firmware version and its digest. -/
structure FwImage where
  oc : Bool
  sigOk : Bool
  svn : Nat
  version : Nat
  digest : Nat
  deriving DecidableEq, Repr

/-- What the ROM finds as it starts (R457 to R459): whether the fuse array passes its check, and the images on
the recovery port, read when RECOVERY is high; and whether the dictionary store passes its CRC (R413). -/
structure BootIn where
  fusesOk : Bool
  storeOk : Bool
  images : List FwImage
  deriving DecidableEq, Repr

/-- The reference clocks (Table 19.3). -/
inductive RefClk where
  | ref100
  | ref156A
  | ref156B
  | ref25
  deriving DecidableEq, Repr

/-- A PCIe configuration request (R463): its register, and the value of a write. -/
structure ConfigReq where
  register : Nat
  write : Option Nat
  deriving DecidableEq, Repr

/-- The commands: one constructor per row of the table of operations and events. -/
inductive Instr where
  /-- `FABRIC_CRC_FAIL` (R25). A fabric transfer fails its CRC and is replayed from the sending port's replay buffer. -/
  | fabricCrcFail (src xfer : Nat)
  /-- `FABRIC_CREDIT_RETURN` (R24). A destination credit returns and the packet held at the source, with the traffic behind it in its class, proceeds. -/
  | fabricCreditReturn (src dst cls : Nat) (capped : List Nat)
  /-- `CCLK_WRITE` (R31). A write of CD_CCLK_MHZ is checked and sets the CCLK of the die, or of every die of its partition. -/
  | cclkWrite (c : Caller) (tag die mhz : Nat)
  /-- `CLOCK_HOLD` (R32). At the first bundle boundary after a CCLK change, the die halts issue and its PLL relocks. -/
  | clockHold (die : Nat)
  /-- `CLOCK_HOLD_END` (R32). The PLL relock completes and the die resumes issue. -/
  | clockHoldEnd (die : Nat)
  /-- `BUNDLE_ISSUE` (R40). A cell issues one bundle, starting every slot operation in the same CCLK, repeated under REPEAT. -/
  | bundleIssue (g : Nat) (hold : Option MissCause) (ecc : Nat) (upsets : List Upset) (others : List BankReq)
  /-- `ISSUE_RESUME` (R38). The stall condition clears and the held bundle issues. -/
  | issueResume (g cycles : Nat)
  /-- `NOP` (R40). An all-zero slot performs no operation. -/
  | nop (g : Nat)
  /-- `SEM_WAIT` (R87). Holds issue until the semaphore count is at least 1, then decrements it at the home. -/
  | semWait (g sem : Nat)
  /-- `SEM_SIGNAL` (R86). Adds its count to a semaphore, released after the cell's earlier writes are visible. -/
  | semSignal (g sem cnt : Nat)
  /-- `FENCE` (R89). Plain fence: holds issue until earlier writes are visible and started read streams have deposited. -/
  | fence (g : Nat)
  /-- `FENCE_PREDICATE` (R95). Commit-or-squash fence on a predicate semaphore. -/
  | fencePredicate (g sem : Nat)
  /-- `SETCNT` (R42). Sets a loop counter to a count. -/
  | setcnt (g ctr cnt : Nat)
  /-- `LOOP` (R42). After the bundle's last repetition, decrements a non-zero counter and branches, or falls through. -/
  | loop (g ctr target : Nat)
  /-- `AMAXFLUSH` (R66). Merges all amax entries of the cell into the partition's scale slots. -/
  | amaxflush (g : Nat)
  /-- `DONE` (R98). Stops issue, merges amax entries and raises the cell's done input. -/
  | done (g : Nat)
  /-- `MLOAD` (R46). Fills the inactive weight buffer from a read stream. -/
  | mload (g fmt rs : Nat)
  /-- `MLOAD_COMPLETE` (R46). The weight load finishes and the weight port frees. -/
  | mloadComplete (g : Nat)
  /-- `MSWAP` (R46). Makes the loaded weight buffer active for later MMACs. -/
  | mswap (g : Nat)
  /-- `MMAC` (R49). Multiplies one input row by the weight tile and accumulates into an accumulator row. -/
  | mmac (g fmt bank row rs : Nat)
  /-- `MMACZ` (R47). As MMAC but treating the old accumulator value as zero. -/
  | mmacz (g fmt bank row rs : Nat)
  /-- `VADD` (R486). Lane-wise floating-point addition. -/
  | vadd (g dst sa sb mask dt : Nat)
  /-- `VSUB` (R486). Lane-wise floating-point subtraction. -/
  | vsub (g dst sa sb mask dt : Nat)
  /-- `VMUL` (R486). Lane-wise floating-point multiplication. -/
  | vmul (g dst sa sb mask dt : Nat)
  /-- `VFMA` (R486). Lane-wise fused multiply-add, rounded once. -/
  | vfma (g dst sa sb sc mask dt : Nat)
  /-- `VMAX` (R486). Lane-wise maximum. -/
  | vmax (g dst sa sb mask dt : Nat)
  /-- `VMIN` (R486). Lane-wise minimum. -/
  | vmin (g dst sa sb mask dt : Nat)
  /-- `VIADD` (R486). Lane-wise INT32 addition. -/
  | viadd (g dst sa sb mask : Nat)
  /-- `VISUB` (R486). Lane-wise INT32 subtraction. -/
  | visub (g dst sa sb mask : Nat)
  /-- `VIMUL` (R486). Lane-wise INT32 multiplication, low 32 bits. -/
  | vimul (g dst sa sb mask : Nat)
  /-- `VAND` (R486). Lane-wise bitwise AND. -/
  | vand (g dst sa sb mask : Nat)
  /-- `VOR` (R486). Lane-wise bitwise OR. -/
  | vor (g dst sa sb mask : Nat)
  /-- `VXOR` (R486). Lane-wise bitwise XOR. -/
  | vxor (g dst sa sb mask : Nat)
  /-- `VSHL` (R486). Lane-wise left shift by the low 5 bits of SB. -/
  | vshl (g dst sa sb mask : Nat)
  /-- `VSHR` (R486). Lane-wise logical right shift by the low 5 bits of SB. -/
  | vshr (g dst sa sb mask : Nat)
  /-- `VBCAST` (R486). Writes the sign-extended immediate to every lane. -/
  | vbcast (g dst imm mask : Nat)
  /-- `VCMPLT` (R486). Sets mask bits where SA is less than SB. -/
  | vcmplt (g dst sa sb mask dt : Nat)
  /-- `VCMPEQ` (R486). Sets mask bits where SA equals SB. -/
  | vcmpeq (g dst sa sb mask dt : Nat)
  /-- `VSEL` (R486). Selects SA or SB per lane by a mask. -/
  | vsel (g dst sa sb sel mask : Nat)
  /-- `VRSUM` (R52). Sums unmasked lanes in a fixed binary tree. -/
  | vrsum (g dst sa mask dt : Nat)
  /-- `VRMAX` (R52). Takes the maximum of unmasked lanes in a fixed binary tree. -/
  | vrmax (g dst sa mask dt : Nat)
  /-- `VEXP2` (R53). Correctly rounded base-2 exponential on the special-function unit. -/
  | vexp2 (g dst sa mask dt : Nat)
  /-- `VLOG2` (R53). Correctly rounded base-2 logarithm. -/
  | vlog2 (g dst sa mask dt : Nat)
  /-- `VRSQRT` (R53). Correctly rounded reciprocal square root. -/
  | vrsqrt (g dst sa mask dt : Nat)
  /-- `VRCP` (R53). Correctly rounded reciprocal. -/
  | vrcp (g dst sa mask dt : Nat)
  /-- `VSIN` (R53). Correctly rounded sine of an argument in turns. -/
  | vsin (g dst sa mask dt : Nat)
  /-- `VCOS` (R53). Correctly rounded cosine of an argument in turns. -/
  | vcos (g dst sa mask dt : Nat)
  /-- `VCVT` (R57). Converts FP32 lanes to BF16, FP8 or INT8 through a scale slot. -/
  | vcvt (g dst sa mask dt rnd slot target : Nat)
  /-- `VCVTMX` (R57). Converts lanes to MX rows with computed block scales. -/
  | vcvtmx (g dst sa mask dt rnd slot target : Nat)
  /-- `AMAX_COUNT_MERGE` (R66). An entry's saturation count reaches 65,535 and forces a merge. -/
  | amaxCountMerge (g slot : Nat)
  /-- `VRAND` (R62). Writes the 32-bit random draw of each lane. -/
  | vrand (g dst mask : Nat)
  /-- `VRANDU` (R62). Writes a uniform FP32 value in (0, 1) from each lane's draw. -/
  | vrandu (g dst mask : Nat)
  /-- `VLD` (R486). Loads 512 B from scratchpad into a register. -/
  | vld (g dst imm mask : Nat)
  /-- `VST` (R486). Stores a register's 512 B to scratchpad with mask byte enables. -/
  | vst (g sa imm mask : Nat)
  /-- `SSTART_IN` (R59). Starts a read stream from its descriptor after the start checks. -/
  | sstartIn (g stream desc near addr : Nat)
  /-- `SSTOP_IN` (R60). Ends a read stream at the next element boundary. -/
  | sstopIn (g stream : Nat)
  /-- `SSTART_OUT` (R59). Starts a write stream from its descriptor after the start checks. -/
  | sstartOut (g stream desc near addr : Nat)
  /-- `SSTOP_OUT` (R60). Ends a write stream at the next element boundary. -/
  | sstopOut (g stream : Nat)
  /-- `STREAM_END` (R60). A stream reaches the end of its extents. -/
  | streamEnd (g : Nat) (out : Bool) (stream : Nat)
  /-- `FAR_REQUEST_ISSUE` (R72). The stream engine issues a far-tier request once landing-buffer space for its unit is free. -/
  | farRequestIssue (g stream : Nat)
  /-- `UNIT_ARRIVAL` (R71). A unit arrives early and waits in the cell's landing buffer. -/
  | unitArrival (g stream : Nat)
  /-- `CONTRACT_DEPOSIT` (R71). A unit is deposited into its near side in its contract cycle. -/
  | contractDeposit (g stream : Nat)
  /-- `UNCONTRACTED_DEPOSIT` (R73). Data with no contract time deposits in the first cycle its bank has a free port. -/
  | uncontractedDeposit (d : Deposit)
  /-- `PACING_WINDOW` (R77). A 1,024-CCLK pacing window ends and each stream's budget of reserved requests renews. -/
  | pacingWindow (die : Nat)
  /-- `RESERVED_WINDOW` (R490). A memory die's 1 µs reserved-admission window for each group ends and its share renews. -/
  | reservedWindow (md : Nat)
  /-- `SEM_INCREMENT_RELEASE` (R86). A semaphore increment is released after the signaller's earlier writes are visible and reaches its home. -/
  | semIncrementRelease (p sem : Nat)
  /-- `SEM_GRANT` (R87). The home grants a waiting SEM_WAIT in arrival order and decrements the count. -/
  | semGrant (p sem : Nat)
  /-- `SEM_TIMEOUT` (R90). A cell held in SEM_WAIT or FENCE longer than the timeout ends the job. -/
  | semTimeout (g : Nat)
  /-- `FENCE_COMPLETE` (R89). A plain fence's conditions are met and issue resumes after 2 CCLK. -/
  | fenceComplete (g cycles : Nat)
  /-- `PREDICATE_RESOLVE` (R95). A predicate fence's semaphore becomes non-zero and the fence commits, squashes or fails. -/
  | predicateResolve (g : Nat)
  /-- `SHADOW_OPEN` (R92). The control core opens a shadow frame for a logical page with a predicate. -/
  | shadowOpen (g space page pred : Nat)
  /-- `FRAME_FREED` (R95). An old frame becomes FREE once every in-flight read of it has completed. -/
  | frameFreed (g space frame : Nat)
  /-- `SHADOW_DRAINED` (R95). A DRAINING frame's last in-flight unit is discarded and the frame becomes FREE. -/
  | shadowDrained (g space frame : Nat)
  /-- `DIE_TREE_OUTPUT` (R98). A die's completion tree output rises 3 CCLK after its last cell's done. -/
  | dieTreeOutput (die : Nat)
  /-- `PARTITION_DONE` (R99). The die outputs merge, the partition is done, and ND0 writes the completion record and sends MSI-X. -/
  | partitionDone (p : Nat)
  /-- `BCAST_UNIT_ISSUE` (R115). Once every member has started and has space, the crossbar issues a group unit and delivers it to all members. -/
  | bcastUnitIssue (die grp : Nat)
  /-- `TILE_BCAST_TIMEOUT` (R116). A group's first unit waits longer than the timeout for its last member and the job ends. -/
  | tileBcastTimeout (die grp : Nat)
  /-- `WALK_START` (R145). The control core starts a page walk from a walk descriptor. -/
  | walkStart (p k : Nat) (desc : List Byte)
  /-- `WALK_ENTRY_FETCH` (R148). Page-table entries fetched ahead through the Drizzle path arrive for a walk. -/
  | walkEntryFetch (p w n : Nat)
  /-- `WALK_SLOT_FILL` (R145). The walk fills the next ring slot, after waiting on FREE where needed, and signals FULL. -/
  | walkSlotFill (p w : Nat)
  /-- `BANK_RETRY` (R158). Losing scratchpad requests are retried in the next CCLK at their own priority. -/
  | bankRetry (g : Nat)
  /-- `SCRATCH_SCRUB` (R163). Patrol scrub reads a scratchpad row in an idle bank cycle and writes back corrections. -/
  | scratchScrub (g bank : Nat) (upsets : List Upset)
  /-- `STRATUS_RETRY` (R168). Ungranted Stratus accesses are retried in later CCLKs ahead of unscheduled accesses. -/
  | stratusRetry (die idle : Nat) (upsets : List Upset)
  /-- `UNSCHEDULED_STRATUS_GRANT` (R171). A waiting unscheduled Stratus access is granted from capacity scheduled grants leave. -/
  | unscheduledStratusGrant (die idle chan : Nat) (arrived : List StratusAccess)
  /-- `STRATUS_SCRUB` (R172). Patrol scrub visits a Stratus unit from unscheduled capacity and writes back corrections. -/
  | stratusScrub (die chan : Nat) (upsets : List Upset)
  /-- `DIE_CLEAR` (R174). A compute die waking from off starts clearing its scratchpads and Stratus. -/
  | dieClear (die : Nat)
  /-- `DIE_CLEAR_DONE` (R174). Both clears finish and the die's CD_CLEAR_DONE bit is set, releasing waiting accesses. -/
  | dieClearDone (die : Nat)
  /-- `LINE_READ` (R182). A memory die serves a line-path read through its cache and inline ECC. -/
  | lineRead (p addr len hint : Nat) (reserved : Bool) (errs : List SymErr) (tagFail : Option Nat)
  /-- `LINE_WRITE` (R183). A memory die performs a whole or partial block write with new check symbols. -/
  | lineWrite (p addr hint : Nat) (src : Writer) (data : List Byte) (poison : Bool)
  /-- `STREAM_WRITE_MERGE` (R183). The 128-MCLK window for merging STREAM writes to one block closes and the merged write is made. -/
  | streamWriteMerge (p addr : Nat)
  /-- `MSC_CLEAN_RANGE` (R194). Writes back dirty lines of a range and keeps them valid. -/
  | mscCleanRange (p base size : Nat)
  /-- `MSC_DISCARD_RANGE` (R194). Invalidates the lines of a range without write-back. -/
  | mscDiscardRange (p base size : Nat)
  /-- `MSC_CLEAN_DISCARD_RANGE` (R194). Writes back then invalidates the lines of a range. -/
  | mscCleanDiscardRange (p base size : Nat)
  /-- `MSC_DISCARD_WAYS` (R194). Invalidates and zeroes every line of a partition's ways. -/
  | mscDiscardWays (p : Nat)
  /-- `MSC_CLEAN_WAYS` (R194). Writes back every dirty line of a partition's ways. -/
  | mscCleanWays (p : Nat)
  /-- `MSC_MAINT_DONE` (R194). A maintenance operation finishes at a die and requests waiting on its range proceed. -/
  | mscMaintDone (md p : Nat)
  /-- `DRIZZLE_READ` (R196). A 32 B Drizzle read is served from the cache or a sector burst with its check burst. -/
  | drizzleRead (p addr : Nat) (errs : List SymErr)
  /-- `DRIZZLE_WRITE` (R197). A Drizzle write updates a present line or performs a partial block write. -/
  | drizzleWrite (p addr : Nat) (data : List Byte) (poison : Bool)
  /-- `REFRESH` (R188). A channel refreshes a bank at its device-requested interval. -/
  | refresh (group ratePct : Nat)
  /-- `MEM_REQUEST_TIMEOUT` (R201). A far-tier request outstanding for 1 ms completes poisoned, its channel is declared faulty and its group retired. -/
  | memRequestTimeout (group channel : Nat)
  /-- `HOST_READ` (R203). The host port issues a host-tier memory read. -/
  | hostRead (p window offset len : Nat)
  /-- `HOST_READ_COMPLETE` (R204). A host read completes, or fails and returns poisoned data. -/
  | hostReadComplete (id : Nat) (ok : Bool) (data : List Byte)
  /-- `HOST_WRITE` (R203). The host port posts a host-tier write. -/
  | hostWrite (p window offset : Nat) (data : List Byte)
  /-- `MOVE` (R231). The control core requests a move of an object; the entry becomes MOVING and records are created. -/
  | move (p obj tier addr sem : Nat)
  /-- `MOVE_COMPLETE` (R234). The copy finishes; the entry becomes HOME at the destination, held writes redirect and the semaphore is released. -/
  | moveComplete (p obj : Nat)
  /-- `MOVE_ABORT` (R236). A MOVING record aborts and the object returns HOME at its source. -/
  | moveAbort (p obj : Nat)
  /-- `MOVE_RELEASE` (R235). The control core releases a VACATED record. -/
  | moveRelease (p obj : Nat)
  /-- `PREFETCH_RECORD` (R238). After its WAIT semaphore is decremented, a prefetch record requests its move. -/
  | prefetchRecord (p : Nat)
  /-- `PREFETCH_RETRY` (R238). A move refused MOVE_BUSY is retried each 1 µs. -/
  | prefetchRetry (p : Nat)
  /-- `SCALE_ADVANCE` (R242). Closes the step and recomputes every slot's history and exponent. -/
  | scaleAdvance (p sem : Nat)
  /-- `SCALE_ADVANCE_DONE` (R242). The advance reaches every die's copy, writes the mirror and releases its semaphore. -/
  | scaleAdvanceDone (p : Nat)
  /-- `DECODE` (R267). Media request that decodes every picture of its input. -/
  | decode (r : ReqRef) (raw : List Byte)
  /-- `FLUSH` (R267). Media request that outputs waiting pictures and clears reference marks. -/
  | flush (r : ReqRef) (raw : List Byte)
  /-- `RESET` (R267). Media request that clears marks and sequence state without output and sets FRAME_INDEX. -/
  | reset (r : ReqRef) (raw : List Byte)
  /-- `RELEASE` (R267). Media request that clears OUTPUT_PENDING on a buffer of the context. -/
  | release (r : ReqRef) (raw : List Byte)
  /-- `ENCODE` (R275). Media request that encodes one source frame. -/
  | encode (r : ReqRef) (raw : List Byte)
  /-- `ANALYSE` (R281). Media request that runs motion search and writes a motion tensor. -/
  | analyse (r : ReqRef) (raw : List Byte)
  /-- `KEY` (R277). Media request that asks the encoder for a key picture. -/
  | key (r : ReqRef) (raw : List Byte)
  /-- `PICTURE_START` (R280). An engine picks its next picture by deficit round robin, changes context if needed and takes a buffer. -/
  | pictureStart (e : Nat) (pic : PicStart)
  /-- `BUFFER_UNPARK` (R260). A buffer of the pool frees and the first context parked for it resumes. -/
  | bufferUnpark (p pool : Nat)
  /-- `PICTURE_END` (R259). A picture finishes; marks change and output records are written as the output process releases pictures. -/
  | pictureEnd (e : Nat) (fin : PicEnd)
  /-- `OUTPUT_UNPARK` (R269). The consumer frees ring space and the parked context resumes with its held record. -/
  | outputUnpark (p ctx : Nat)
  /-- `DECODE_BUDGET_ABORT` (R271). A picture reaches its cycle budget; parsing stops and remaining blocks are concealed.
  `rebuilt` of its blocks were reconstructed before. -/
  | decodeBudgetAbort (e rebuilt : Nat)
  /-- `DRAIN_END` (R264). A drain finishes and the context becomes REJECTED, RUNNING or READY. -/
  | drainEnd (p ctx : Nat)
  /-- `ENCODE_SLICE` (R276). A coded slice is written to the bitstream ring with its output record; `luma` and `chroma` are
  its reconstructed samples. -/
  | encodeSlice (e : Nat) (data : List Byte) (luma chroma : List Nat) (qp cycles : Nat)
  /-- `SAMPLE` (R287). Sample request that reads its operation list, checks itself and claims a cache way. -/
  | sample (r : ReqRef) (raw : List Byte)
  /-- `LOOKUP` (R306). Sample request that copies a cached sample on a hit, or completes CACHE_MISS. -/
  | lookup (r : ReqRef) (raw : List Byte)
  /-- `SAMPLE_RECORD_TAKE` (R288). The writer takes the next output record of the context's ring and fills, skips or overflows a slot. -/
  | sampleRecordTake (p ctx : Nat)
  /-- `WRITER_FRAME_DONE` (R298). A tensor writer finishes forming a slot's tokens and statistics. -/
  | writerFrameDone (p ctx : Nat) (sig : ColourSignal) (cycles : Nat)
  /-- `ETH_FRAME_RECEIVE` (R314). A frame is received on a logical port and sorted as NCT, handed to the OC or dropped. -/
  | ethFrameReceive (port : Nat) (f : EthFrame)
  /-- `OC_ICMP_REPLY` (R314). The OC answers a Neighbor Solicitation or Echo Request in firmware. -/
  | ocIcmpReply (port : Nat) (f : OcFrame)
  /-- `DATA` (R323). Received DATA packet checked against its region and placed. -/
  | data (k : Pkt)
  /-- `GET_REQ` (R324). Received GET request answered after lower-MSN messages, with response DATA. -/
  | getReq (k : Pkt)
  /-- `SIGNAL` (R324). Received SIGNAL increments a remote semaphore after lower-MSN messages. -/
  | signal (k : Pkt)
  /-- `ACK` (R326). Received ACK advances acknowledgement, loss detection and the congestion window. -/
  | ack (k : Pkt) (now : Nat)
  /-- `NAK` (R330). Received NAK ends its message, writes the error record and sets the session's error bit. -/
  | nak (k : Pkt)
  /-- `HELLO` (R318). Received handshake HELLO checked and answered with an accepting or refusing REPLY. -/
  | hello (h : Shake)
  /-- `REPLY` (R318). Received REPLY completes or refuses an OPEN. -/
  | reply (h : Shake)
  /-- `REKEY` (R393). Received REKEY answered with new key agreement. -/
  | rekey (k : Pkt)
  /-- `REKEY_REPLY` (R318). Received REKEY_REPLY switches KEY_PHASE. -/
  | rekeyReply (k : Pkt)
  /-- `CLOSE` (R318). Received CLOSE is acknowledged and the session fails its outstanding messages. -/
  | close (k : Pkt)
  /-- `NCT_PUT` (R322). NCT request that writes bytes into a remote region. -/
  | nctPut (r : ReqRef) (raw : List Byte)
  /-- `NCT_GET` (R322). NCT request that reads bytes from a remote region. -/
  | nctGet (r : ReqRef) (raw : List Byte)
  /-- `NCT_SIGNAL` (R324). NCT request that increments a remote semaphore. -/
  | nctSignal (r : ReqRef) (raw : List Byte)
  /-- `NCT_FENCE` (R331). NCT request that waits for earlier messages and reports the session's error bit. -/
  | nctFence (r : ReqRef) (raw : List Byte)
  /-- `NCT_OPEN` (R318). NCT request that sends HELLO to open a session. -/
  | nctOpen (r : ReqRef) (raw : List Byte)
  /-- `NCT_CLOSE` (R318). NCT request that closes a session. -/
  | nctClose (r : ReqRef) (raw : List Byte)
  /-- `NCT_CLEAR_ERROR` (R331). NCT request that clears a session's error bit. -/
  | nctClearError (r : ReqRef) (raw : List Byte)
  /-- `NCT_FENCE_COMPLETE` (R331). Every earlier message of the session is released and the fence reports its status. -/
  | nctFenceComplete (sess : Nat)
  /-- `PACKET_TRANSMIT` (R317). A packet leaves on a sprayed port when window and credit allow. -/
  | packetTransmit (sess now : Nat) (srcOk poison : Bool)
  /-- `NET_CREDIT_AVAILABLE` (R332). A packet-memory credit frees for a packet waiting to be sent. -/
  | netCreditAvailable (nd now : Nat)
  /-- `ACK_TIMER` (R326). 2 µs after the first unacknowledged packet, the responder sends an ACK. -/
  | ackTimer (sess : Nat)
  /-- `RETRANSMIT_TIMEOUT` (R328). The retransmission timer expires; lost packets are resent and the window halves. -/
  | retransmitTimeout (sess now : Nat)
  /-- `HELLO_TIMEOUT` (R318). An OPENING session's timer expires; HELLO is resent or the open fails. -/
  | helloTimeout (sess : Nat)
  /-- `SESSION_FAIL` (R328). A session makes no progress for PART_NCT_FAIL_MS and becomes FAILED. -/
  | sessionFail (sess : Nat)
  /-- `CLOSE_TIMEOUT` (R318). A CLOSING session's 4 ms expires and its entry and keys are freed. -/
  | closeTimeout (sess : Nat)
  /-- `OLD_KEY_EXPIRY` (R318). 10 ms after a key switch, the old keys are zeroised. -/
  | oldKeyExpiry (sess : Nat)
  /-- `REKEY_START` (R318). The reliable counter reaches 2^47 under one key and the session sends REKEY. -/
  | rekeyStart (sess : Nat)
  /-- `RNR_RESEND` (R334). The RNR back-off expires and unacknowledged packets are resent. -/
  | rnrResend (sess msg : Nat)
  /-- `ALL_REDUCE` (R341). Collective call reducing every member's buffer to every member. -/
  | allReduce (r : ReqRef) (raw : List Byte)
  /-- `REDUCE_SCATTER` (R341). Collective call leaving block r of the reduction at member r. -/
  | reduceScatter (r : ReqRef) (raw : List Byte)
  /-- `ALL_GATHER` (R341). Collective call gathering every member's block to every member. -/
  | allGather (r : ReqRef) (raw : List Byte)
  /-- `ALL_TO_ALL` (R341). Collective call exchanging block m with member m. -/
  | allToAll (r : ReqRef) (raw : List Byte)
  /-- `PERMUTE` (R352). Collective call that re-shards by entries and transitions to the next layout epoch. -/
  | permute (r : ReqRef) (raw : List Byte)
  /-- `BROADCAST` (R341). Collective call copying the root's buffer to every member. -/
  | broadcast (r : ReqRef) (raw : List Byte)
  /-- `COLL_CALL_START` (R343). A waiting call gains a slot, sends ANNOUNCE and begins its steps. -/
  | collCallStart (p comm : Nat)
  /-- `PERMUTE_START` (R352). After any earlier PERMUTE, a PERMUTE closes the old epoch on every communicator. -/
  | permuteStart (p : Nat)
  /-- `COLL_PACKET` (R345). A collective DATA packet is placed into its matching call or held. -/
  | collPacket (k : Pkt)
  /-- `ANNOUNCE` (R345). Received ANNOUNCE compared with the receiver's call, or held. -/
  | announce (k : Pkt)
  /-- `EPOCH_CLOSED` (R353). Received EPOCH_CLOSED completes the sender's call with EPOCH_CLOSED. -/
  | epochClosed (k : Pkt)
  /-- `MISMATCH` (R345). Received MISMATCH completes the call with COLL_MISMATCH. -/
  | mismatch (k : Pkt)
  /-- `COLL_ABORT` (R354). Received ABORT breaks the communicator and fails its calls. -/
  | collAbort (k : Pkt)
  /-- `PLACE` (R352). Received PLACE describes the PERMUTE entry whose data follows. -/
  | place (k : Pkt)
  /-- `COLL_CALL_COMPLETE` (R343). A call's RECV bytes are visible and sends acknowledged; its semaphore is released. -/
  | collCallComplete (p comm seq : Nat)
  /-- `FORM` (R359). PART_COMMAND FORM checks and forms a partition, then scrubs its resources. -/
  | form (c : Caller) (tag p : Nat)
  /-- `TEARDOWN` (R361). PART_COMMAND TEARDOWN aborts parked jobs, closes sessions, scrubs and frees the partition. -/
  | teardown (c : Caller) (tag p : Nat)
  /-- `REPLACE_DIE` (R362). PART_COMMAND REPLACE_DIE puts a new compute die in place of an old one. -/
  | replaceDie (c : Caller) (tag p : Nat)
  /-- `SCRUB_DONE` (R402). Every required scrub completes and the partition becomes IDLE or ABSENT, or the incoming job restores. -/
  | scrubDone (p item : Nat)
  /-- `QUEUE_ENABLE` (R363). A PART_QUEUE_CONFIG write setting ENABLE resets the queue's head and tail. -/
  | queueEnable (c : Caller) (tag p q cfg : Nat)
  /-- `DOORBELL` (R365). A queue doorbell makes entries pending, or faults the queue. -/
  | doorbell (p q tail : Nat)
  /-- `ENTRY_ISSUE` (R366). A pending non-job entry issues to its unit when the unit can accept it. -/
  | entryIssue (p q waitNs : Nat)
  /-- `JOB_START` (R368). A job entry issues into an IDLE partition and runs the start checks and loads. -/
  | jobStart (p q waitNs : Nat)
  /-- `COMPLETION_RING_SPACE` (R370). Space frees in a full completion ring and the held record is written. -/
  | completionRingSpace (p : Nat)
  /-- `PREEMPT` (R373). A PREEMPT write is judged and, when accepted, starts a switch. -/
  | preempt (p q : Nat)
  /-- `SWITCH_QUIESCED` (R374). The outgoing job has quiesced and its save begins. -/
  | switchQuiesced (p : Nat)
  /-- `SWITCH_SAVED` (R374). The context save completes with VALID written last. -/
  | switchSaved (p : Nat)
  /-- `JOB_RESUME` (R375). A parked job is restored with its pending semaphore increments and issues. -/
  | jobResume (p : Nat)
  /-- `PAGE_SEM_SIGNAL` (R367). A SEM_SIGNAL write on the partition page increments a job's semaphore. -/
  | pageSemSignal (p seq cnt sem : Nat)
  /-- `BLOCK_CLOCK_STOP` (R384). A write of BLOCK_CLOCK_STOP stops block clocks unless refused. -/
  | blockClockStop (c : Caller) (tag value : Nat)
  /-- `BLOCK_POWER_OFF` (R384). A write of BLOCK_POWER_OFF powers off blocks unless refused. -/
  | blockPowerOff (c : Caller) (tag value : Nat)
  /-- `SEC_BLOCK_OWNER_WRITE` (R382). Class S sets which blocks the secure world holds; bits 24-28 stay set. -/
  | secBlockOwnerWrite (c : Caller) (tag value : Nat)
  /-- `ENTROPY_HEALTH_FAIL` (R388). An entropy health test fails; no further keys are generated until reset. -/
  | entropyHealthFail
  /-- `DRBG_RESEED` (R388). The DRBG is reseeded after 65,536 generate requests. -/
  | drbgReseed
  /-- `LOAD_TARGET_WRITE` (R395). A write of PART_LOAD_TARGET begins a measured load. -/
  | loadTargetWrite (c : Caller) (tag p value : Nat)
  /-- `LOAD_WRITE` (R428). A host write to the load window stores, encrypts and hashes load bytes. -/
  | loadWrite (p offset : Nat) (data : List Byte)
  /-- `ATTEST_NONCE` (R398). A nonce write requests a signed attestation report. -/
  | attestNonce (c : Caller) (tag : Nat) (p : Option Nat) (nonce : List Byte)
  /-- `ATTEST_REPORT_SIGNED` (R398). The report over the latest nonce is signed and waiting reads are answered. -/
  | attestReportSigned (cls : Cls) (p : Option Nat)
  /-- `GET_VERSION` (R399). SPDM GET_VERSION answered by the SC. -/
  | getVersion
  /-- `GET_CAPABILITIES` (R399). SPDM GET_CAPABILITIES answered by the SC. -/
  | getCapabilities
  /-- `NEGOTIATE_ALGORITHMS` (R399). SPDM NEGOTIATE_ALGORITHMS answered with P-384 and SHA-384. -/
  | negotiateAlgorithms
  /-- `GET_DIGESTS` (R399). SPDM GET_DIGESTS answered for slot 0. -/
  | getDigests
  /-- `GET_CERTIFICATE` (R399). SPDM GET_CERTIFICATE returns the chain of slot 0. -/
  | getCertificate (slot offset len : Nat)
  /-- `GET_MEASUREMENTS` (R399). SPDM GET_MEASUREMENTS returns the measurement blocks, signed if asked. -/
  | getMeasurements (index : Nat) (signIt : Bool)
  /-- `SPDM_UNSUPPORTED` (R399). Any other SPDM request draws ERROR UnsupportedRequest. -/
  | spdmUnsupported (code : Nat)
  /-- `FW_IMAGE_WRITE` (R400). A segment of a firmware image is programmed into the inactive slot and verified at its end. -/
  | fwImageWrite (c : Caller) (frame : List Byte) (img : FwImage)
  /-- `FW_ACTIVATE_OC` (R400). FW_ACTIVATE 1 schedules the OC image for the next partition-idle point. -/
  | fwActivateOc (c : Caller) (tag : Nat)
  /-- `FW_ACTIVATE_AT_RESET` (R400). FW_ACTIVATE 2 activates both images at the next module reset. -/
  | fwActivateAtReset (c : Caller) (tag : Nat)
  /-- `FW_RAISE_SVN` (R400). FW_ACTIVATE 3 raises SEC_SVN to the running images' version. -/
  | fwRaiseSvn (c : Caller) (tag : Nat)
  /-- `OC_ACTIVATION` (R400). At the partition-idle point the OC restarts on its new image. -/
  | ocActivation
  /-- `OC_RESTART_TIMEOUT` (R458). A newly activated OC not ready within 2 s is replaced by the previous slot. -/
  | ocRestartTimeout
  /-- `DEBUG_TOKEN` (R404). A debug token is verified for the next reset or refused and recorded. -/
  | debugToken (c : Caller) (tag : Nat) (token : List Byte) (sigOk : Bool)
  /-- `READ` (R416). Dictionary READ returns a value or opens a DOM snapshot. -/
  | read (c : Caller) (frame : List Byte)
  /-- `READ_SEGMENT` (R416). Dictionary READ_SEGMENT returns bytes of an open snapshot. -/
  | readSegment (c : Caller) (frame : List Byte)
  /-- `ABORT` (R416). Dictionary ABORT ends the caller's transfer on an entry. -/
  | abort (c : Caller) (frame : List Byte)
  /-- `DOM_WRITE_SEGMENT` (R418). A WRITE segment to a DOM entry opens or extends a write transfer. -/
  | domWriteSegment (c : Caller) (frame : List Byte)
  /-- `REGISTER_WRITE` (R414). A dictionary WRITE to an entry with no row of its own is checked and stored for its applies-when event. -/
  | registerWrite (c : Caller) (frame : List Byte)
  /-- `STORE_COMMIT` (R413). A persistent value is committed to flash and the WRITE is answered, or fails. -/
  | storeCommit (ok : Bool)
  /-- `SNAPSHOT_EXPIRY` (R417). A DOM snapshot is released 1 s after its last segment. -/
  | snapshotExpiry (c : Caller) (index sub tag : Nat)
  /-- `WRITE_TRANSFER_EXPIRY` (R418). A DOM write transfer idle for 1 s ends. -/
  | writeTransferExpiry (c : Caller) (index sub tag : Nat)
  /-- `MAILBOX_DOORBELL` (R421). A mailbox doorbell submits the request frame or is ignored while BUSY. -/
  | mailboxDoorbell (page : Nat) (frame : List Byte) (vector : Nat)
  /-- `MCTP_MESSAGE` (R422). An MCTP vendor message carrying a frame is accepted or dropped. -/
  | mctpMessage (m : Mctp)
  /-- `MGMT_DATAGRAM` (R423). A management-port UDP datagram carrying a frame is accepted or dropped. -/
  | mgmtDatagram (d : Datagram)
  /-- `KEPT_RESPONSE_EXPIRY` (R424). A kept management-port response expires after 2 s. -/
  | keptResponseExpiry (addr port tag : Nat)
  /-- `MGMT_ARP_ICMP` (R423). The OC answers ARP or ICMP echo on the management port. -/
  | mgmtArpIcmp (arp : Bool) (target : Nat)
  /-- `ANEM_SELECT_WRITE` (R431). A selector write names a unit and event and zeroes its counter. -/
  | anemSelectWrite (c : Caller) (tag k value : Nat)
  /-- `COMM_RESTORE_DEFAULTS` (R432). Schedules erasure of every persistent value at the next module reset. -/
  | commRestoreDefaults (c : Caller) (tag value : Nat)
  /-- `CONTAINMENT` (R439). Recovery action ending the running job FAILED and reinitialising the partition. -/
  | containment (p : Nat)
  /-- `PARTITION_RESET` (R439). Recovery action ending the running and parked jobs and reinitialising the partition. -/
  | partitionReset (p : Nat)
  /-- `SPARE_SWAP` (R440). Recovery action fencing a faulty cell and enabling a spare in its place. -/
  | spareSwap (die cell : Nat)
  /-- `GROUP_RETIRE` (R441). Recovery action retiring a channel group and failing the owning partition's jobs. -/
  | groupRetire (group : Nat)
  /-- `ENGINE_RESET` (R442). Recovery action resetting one media engine, writer or collective engine. -/
  | engineReset (coll : Bool) (e : Nat)
  /-- `DIE_RESET` (R442). Recovery action resetting a media die, ND1 or the network half of ND0. -/
  | dieReset (unit : Nat)
  /-- `MODULE_RESET` (R443). Recovery action resetting the whole module after a fatal error. -/
  | moduleReset (boot : BootIn) (fatal : Nat)
  /-- `RECOVERY_DONE` (R438). A recovery action completes and the sequencer starts the next queued one. -/
  | recoveryDone
  /-- `RECOVERY_TIMEOUT` (R438). An action passes its bound and a fatal error is raised. -/
  | recoveryTimeout
  /-- `ERR_PART_RESET` (R452). A write naming a partition requests PARTITION_RESET. -/
  | errPartReset (c : Caller) (tag value : Nat)
  /-- `ERR_SPARE_SWAP` (R440). A write naming a die and cell requests SPARE_SWAP. -/
  | errSpareSwap (c : Caller) (tag value : Nat)
  /-- `ERR_GROUP_RETIRE` (R441). A write naming a group requests GROUP_RETIRE. -/
  | errGroupRetire (c : Caller) (tag value : Nat)
  /-- `ALMANAC_COMMIT` (R448). Staged records are committed to the flash ring. -/
  | almanacCommit (n : Nat)
  /-- `ALMANAC_WINDOW_READ` (R450). A READ of ALM_WINDOW snapshots records from the class cursor and advances it. -/
  | almanacWindowRead (c : Caller) (tag : Nat)
  /-- `ALM_CLEAR` (R451). Class S starts erasing the Almanac ring. -/
  | almClear (c : Caller) (tag value : Nat)
  /-- `ALMANAC_ERASE_DONE` (R451). The erase completes and an ALMANAC_CLEARED record starts the ring. -/
  | almanacEraseDone
  /-- `MOD_EN_RISE` (R457). MOD_EN rises with input in range and power-up step 1 starts. -/
  | modEnRise (lowMs : Nat)
  /-- `MOD_EN_FALL` (R453). MOD_EN falls and the power stages shut down after zeroise and Almanac commit. -/
  | modEnFall
  /-- `INPUT_OUT_OF_RANGE` (R477). The 54 V input leaves range for 5 µs and the module sheds rails under hold-up. -/
  | inputOutOfRange
  /-- `MOD_RESET_ASSERT` (R455). MOD_RESET_N held low gives a module reset. -/
  | modResetAssert
  /-- `MOD_RESET_RELEASE` (R455). MOD_RESET_N rises, straps latch and power-up restarts at step 2. -/
  | modResetRelease (straps : Nat) (boot : BootIn)
  /-- `PERST_ASSERT` (R456). PERST# assertion resets the PCIe core or, by strap, the module. -/
  | perstAssert
  /-- `PERST_RELEASE` (R463). PERST# rises and PCIe link training begins. -/
  | perstRelease (straps : Nat) (boot : BootIn)
  /-- `RAILS_GOOD` (R457). Rails and 25 MHz reference are good, straps latch and the ROM starts. -/
  | railsGood (straps holdupUf : Nat) (boot : BootIn)
  /-- `SLOT_START_TIMEOUT` (R458). An SC or OC slot not running after 500 ms is passed over for the other slot. -/
  | slotStartTimeout (oc : Bool)
  /-- `BOOT_STEP_TIMEOUT` (R457). A power-up step passes its timeout and fails with its outcome. -/
  | bootStepTimeout (cause : Nat)
  /-- `OC_READY` (R457). The OC becomes ready; mailboxes leave NOT_READY and training starts. -/
  | ocReady (level : Nat)
  /-- `TRAINING_ROUND_DONE` (R460). A round of group training finishes and the next round or READY follows. -/
  | trainingRoundDone (failed : List (Nat × Nat)) (absent : List Nat) (trainMs nowMs : Nat)
  /-- `RETRAIN_TRIGGER` (R461). A group's first in-service retrain starts after temperature settles, at latest 900 s. -/
  | retrainTrigger (group : Nat)
  /-- `RETRAIN_DRIFT` (R461). A channel's drift leaves its compensation range and its group retrains. -/
  | retrainDrift (group : Nat)
  /-- `MEM_GROUP_RETRAIN` (R461). A write naming an ONLINE group starts its retrain. -/
  | memGroupRetrain (c : Caller) (tag value : Nat)
  /-- `RETRAIN_DONE` (R461). A retrain finishes and the group returns ONLINE, or fails and is retired. -/
  | retrainDone (group : Nat) (ok : Bool)
  /-- `ETH_LINK_UP` (R462). A port passes link training and reads UP. -/
  | ethLinkUp (port : Nat)
  /-- `ETH_LINK_DOWN` (R462). A port loses its link and sessions stop spraying onto it. -/
  | ethLinkDown (port : Nat)
  /-- `PORT_RESTART` (R462). 1 s after failure or loss, a port restarts training and latches its mode. -/
  | portRestart (port : Nat)
  /-- `PCIE_LINK_UP` (R463). The PCIe link reaches L0. -/
  | pcieLinkUp (width rate : Nat) (flit : Bool)
  /-- `PCIE_LINK_DOWN` (R463). The PCIe link drops out of L0 and retrains. -/
  | pcieLinkDown
  /-- `MARGIN_EDGES` (R465). MARGIN_REQUEST starts an EDGES scan of an LPDDR5X channel. -/
  | marginEdges (c : Caller) (tag inst : Nat)
  /-- `MARGIN_MAP` (R465). MARGIN_REQUEST starts a MAP scan of an LPDDR5X channel. -/
  | marginMap (c : Caller) (tag inst : Nat)
  /-- `MARGIN_PCIE_LANE` (R467). MARGIN_REQUEST margins a PCIe lane. -/
  | marginPcieLane (c : Caller) (tag inst : Nat)
  /-- `MARGIN_DONE` (R464). A measurement ends and MARGIN_RESULT holds its result. -/
  | marginDone (result : List Byte) (nowMs : Nat)
  /-- `EYE_REFRESH` (R468). Each 100 ms the Ethernet lane eye figures refresh. -/
  | eyeRefresh (lane eye : Nat)
  /-- `PIN_FUNCTION_WRITE` (R471). A pin function write starts the switch with the pin undriven. -/
  | pinFunctionWrite (c : Caller) (tag pin fn : Nat)
  /-- `PIN_SWITCH_COMPLETE` (R471). At ACLK 2 the new function starts and held writes apply. -/
  | pinSwitchComplete (pin : Nat)
  /-- `POWER_AVERAGE_TICK` (R478). Each 1 ms power average is compared with the cap and throttle adjusted. -/
  | powerAverageTick (watts mv ma : Nat)
  /-- `DIE_TEMP_SAMPLE` (R483). Each 1 ms die sensors are read and hot dies throttle. -/
  | dieTempSample (temps : List Int) (plate : Int)
  /-- `POWER_LIMIT_FENCE` (R403). Input above the fuse limit lowers CCLK on every die. -/
  | powerLimitFence (watts : Nat)
  /-- `POWER_LIMIT_SHUTDOWN` (R403). Input still above the limit 10 ms later shuts the module down. -/
  | powerLimitShutdown (watts : Nat)
  /-- `THERMAL_TRIP` (R483). Junction or cold plate passes the trip and all rails but the management island are removed. -/
  | thermalTrip
  /-- `REFCLK_LOSS` (R481). A reference clock is absent or out of tolerance and its consumers go down. -/
  | refclkLoss (ref : RefClk)
  /-- `REFCLK_RETURN` (R481). A reference returns and its links retrain. -/
  | refclkReturn (ref : RefClk)
  /-- `INPUT_IN_RANGE` (R453). The 54 V input returns into range while MOD_EN is high, and power-up starts at step 1. -/
  | inputInRange (removed : Bool)
  /-- `KEY_STORE_HANDSHAKE` (R318). The key store takes the next queued handshake once its rate of 2,000 per second allows, and sends the HELLO or REPLY. -/
  | keyStoreHandshake
  /-- `EID_ASSIGNMENT` (R422). The bus owner assigns the EID of the OC or SC endpoint on an MCTP binding under DSP0236. -/
  | eidAssignment (binding : Nat) (sc : Bool) (eid : Nat)
  /-- `CONFIGURATION_REQUEST` (R463). A PCIe configuration request is answered by hardware from link-up onward, with no Request Retry Status. -/
  | configurationRequest (req : ConfigReq)
  /-- `LANE_MARGINING_REQUEST` (R467). The host issues a Lane Margining at the Receiver command, and the part margins the lane and reports error counts. -/
  | laneMarginingRequest (lane dir steps errors : Nat)
  deriving DecidableEq, Repr

end Sys2Proof
end

