-- ==== Sys2Proof/Machine/Float.lean ====
section
/-!
DEFINITION. Exact values of the number formats of Table 2.4 and of Haze (Table 8.4), and rounding into
them: the arithmetic of R45, R49 to R57. A finite value is a sign and m · 2^e, so every product and sum is
exact and each operation rounds once.
-/

namespace Sys2Proof.Machine

/-- A number format (R43, Table 8.4): mantissa bits, bias, the sign's bit number, the magnitude code of
the largest finite value, the code of infinity if it has one, the magnitude code above which codes are
NaN if it has NaN, and the canonical NaN (R45). -/
structure Fmt where
  mb : Nat
  bias : Int
  sgn : Nat
  max : Nat
  inf : Option Nat := none
  nanAbove : Option Nat := none
  nan : Nat := 0
  deriving DecidableEq, Repr

/-- IEEE 754 binary32. -/
def fp32 : Fmt := ⟨23, 127, 31, 0x7F7FFFFF, some 0x7F800000, some 0x7F800000, 0x7FC00000⟩

/-- BF16. -/
def bf16 : Fmt := ⟨7, 127, 15, 0x7F7F, some 0x7F80, some 0x7F80, 0x7FC0⟩

/-- FP8 E4M3: no infinity, NaN S.1111.111. -/
def e4m3 : Fmt := ⟨3, 7, 7, 0x7E, none, some 0x7E, 0x7F⟩

/-- FP8 E5M2. -/
def e5m2 : Fmt := ⟨2, 15, 7, 0x7B, some 0x7C, some 0x7C, 0x7E⟩

/-- MXFP6 E2M3. -/
def e2m3 : Fmt := ⟨3, 1, 5, 0x1F, none, none, 0⟩

/-- MXFP6 E3M2. -/
def e3m2 : Fmt := ⟨2, 3, 5, 0x1F, none, none, 0⟩

/-- MXFP4 E2M1. -/
def e2m1 : Fmt := ⟨1, 1, 3, 0x7, none, none, 0⟩

/-- Haze E3M3 (Table 8.4). -/
def e3m3 : Fmt := ⟨3, 3, 6, 0x3F, none, none, 0⟩

/-- Haze E1M1 (Table 8.4). -/
def e1m1 : Fmt := ⟨1, 1, 2, 0x3, none, none, 0⟩

/-- Haze E4M10 (Table 8.4). -/
def e4m10 : Fmt := ⟨10, 7, 14, 0x3FFF, none, none, 0⟩

/-- A value: NaN, an infinity, or ± m · 2^e. -/
inductive Val where
  | nan
  | inf (neg : Bool)
  | fin (neg : Bool) (m : Nat) (e : Int)
  deriving DecidableEq, Repr

/-- 2^n, 1 for a negative n. -/
def pow2 (n : Int) : Nat := 2 ^ n.toNat

/-- The value of a code of a format (R43). -/
def decodeVal (f : Fmt) (code : Nat) : Val :=
  let neg := code.testBit f.sgn
  let mag := code % 2 ^ f.sgn
  if f.nanAbove.any (· < mag) then .nan
  else if f.inf = some mag then .inf neg
  else if mag / 2 ^ f.mb = 0 then .fin neg mag (1 - f.bias - f.mb)
  else .fin neg (2 ^ f.mb + mag % 2 ^ f.mb) (((mag / 2 ^ f.mb : Nat) : Int) - f.bias - f.mb)

/-- The quotient `n / d` rounded to the nearest integer, ties to even (R54). -/
def rne (n d : Nat) : Nat :=
  if d < 2 * (n % d) ∨ (2 * (n % d) = d ∧ n / d % 2 = 1) then n / d + 1 else n / d

/-- ⌊log2 (n / d)⌋ for positive n and d. -/
def ilog2 (n d : Nat) : Int :=
  let t : Int := (Nat.log2 n : Int) - Nat.log2 d
  if n * pow2 (-t) < d * pow2 t then t - 1 else t

/-- The exponent of the spacing of a format at n / d · 2^x (R54: subnormal spacing below the smallest
normal). -/
def quantum (f : Fmt) (n d : Nat) (x : Int) : Int := max (ilog2 n d + x) (1 - f.bias) - f.mb

/-- How a conversion rounds: to nearest even, or stochastically with 16 random bits (R54, R55). -/
inductive Rounding where
  | nearest
  | stochastic (u : Nat)
  deriving DecidableEq, Repr

/-- n / d · 2^x counted in units of 2^q, rounded (R54, R55). -/
def roundTo (r : Rounding) (n d : Nat) (x q : Int) : Nat :=
  let num := n * pow2 (x - q)
  let den := d * pow2 (q - x)
  match r with
  | .nearest => rne num den
  | .stochastic u =>
    if num * 65536 / den % 65536 + u ≥ 65536 then num / den + 1 else num / den

/-- The magnitude code of n / d · 2^x in a format, rounded; above `f.max` it lies outside the range. -/
def codeOf (f : Fmt) (r : Rounding) (n d : Nat) (x : Int) : Nat :=
  if n = 0 then 0
  else
    let q := quantum f n d x
    (q + f.mb - (1 - f.bias)).toNat * 2 ^ f.mb + roundTo r n d x q

/-- A signed code. -/
def withSign (f : Fmt) (neg : Bool) (mag : Nat) : Nat := if neg then 2 ^ f.sgn + mag else mag

/-- The arithmetic result n / d · 2^x in a format with infinities: rounded once to nearest even, beyond
the maximum the infinity (R45, R49). -/
def encodeRat (f : Fmt) (neg : Bool) (n d : Nat) (x : Int) : Nat :=
  let c := codeOf f .nearest n d x
  withSign f neg (if f.max < c then f.inf.getD f.max else c)

/-- A value rounded into a format with infinities (R45, R51). -/
def encodeVal (f : Fmt) : Val → Nat
  | .nan => f.nan
  | .inf neg => withSign f neg (f.inf.getD f.max)
  | .fin neg m e => encodeRat f neg m 1 e

/-- ± m · 2^e as an integer count of 2^x, for x not above e. -/
def signedAt (neg : Bool) (m : Nat) (e x : Int) : Int :=
  let v : Int := (m * pow2 (e - x) : Nat)
  if neg then -v else v

/-- The exact sum (R45): infinities of both signs give NaN; a zero sum is −0 only of two −0. -/
def Val.add : Val → Val → Val
  | .nan, _ => .nan
  | _, .nan => .nan
  | .inf a, .inf b => if a = b then .inf a else .nan
  | .inf a, .fin _ _ _ => .inf a
  | .fin _ _ _, .inf b => .inf b
  | .fin na ma ea, .fin nb mb eb =>
    let x := min ea eb
    let v := signedAt na ma ea x + signedAt nb mb eb x
    if v = 0 then .fin (na && nb && decide (ma = 0) && decide (mb = 0)) 0 x
    else .fin (decide (v < 0)) v.natAbs x

/-- The value with its sign changed. -/
def Val.neg : Val → Val
  | .nan => .nan
  | .inf a => .inf (!a)
  | .fin n m e => .fin (!n) m e

/-- The exact product; zero times infinity is NaN. -/
def Val.mul : Val → Val → Val
  | .nan, _ => .nan
  | _, .nan => .nan
  | .inf a, .inf b => .inf (a != b)
  | .inf a, .fin n m _ => if m = 0 then .nan else .inf (a != n)
  | .fin n m _, .inf b => if m = 0 then .nan else .inf (n != b)
  | .fin na ma ea, .fin nb mb eb => .fin (na != nb) (ma * mb) (ea + eb)

/-- The value times 2^k. -/
def Val.shift (v : Val) (k : Int) : Val :=
  match v with
  | .nan => .nan
  | .inf n => .inf n
  | .fin n m e => .fin n m (e + k)

/-- The magnitude. -/
def Val.abs : Val → Val
  | .nan => .nan
  | .inf _ => .inf false
  | .fin _ m e => .fin false m e

/-- The exact value of an integer (R57). -/
def Val.ofInt (i : Int) : Val := .fin (decide (i < 0)) i.natAbs 0

/-- An FP32 code ordered as VMAX and VMIN rank it: +0 above −0 (R486). -/
def rank32 (c : Nat) : Int := if c < 2 ^ 31 then c else -((c - 2 ^ 31 : Nat) : Int) - 1

/-- An FP32 code ordered as the compares see it: +0 equals −0 (R486). -/
def order32 (c : Nat) : Int := if c < 2 ^ 31 then c else -((c - 2 ^ 31 : Nat) : Int)

/-- An FP32 code is a NaN. -/
def isNan32 (c : Nat) : Bool := decide (0x7F800000 < c % 2 ^ 31)

/-- The maximum (`true`) or minimum of two FP32 codes (R486). -/
def extremum32 (greater : Bool) (a b : Nat) : Nat :=
  if isNan32 a || isNan32 b then 0x7FC00000
  else if decide (rank32 a < rank32 b) = greater then b else a

/-! ## The special functions (R53) -/

/-- The fraction bits of the fixed-point evaluation of the special functions. -/
def fxp : Nat := 200

/-- ⌊ln 2 · 2^200⌋. -/
def ln2Fx : Nat := 0xb17217f7d1cf79abc9e3b39803f2f6af40f343267298b62d8a

/-- ⌊2π · 2^200⌋. -/
def twoPiFx : Nat := 0x6487ed5110b4611a62633145c06e0e68948127044533e63a010

/-- ⌊√n⌋ by its binary digits, from digit `k` down. -/
def isqrtFrom : Nat → Nat → Nat → Nat
  | 0, _, r => r
  | k + 1, n, r => isqrtFrom k n (if (r + 2 ^ k) * (r + 2 ^ k) ≤ n then r + 2 ^ k else r)

/-- ⌊√n⌋. -/
def isqrt (n : Nat) : Nat := isqrtFrom (Nat.log2 n / 2 + 1) n 0

/-- A positive irrational value enclosed in `(q, q + 1) · 2^x`, rounded: the half unit keeps it off every
rounding boundary. -/
def encodeOpen (f : Fmt) (neg : Bool) (q : Nat) (x : Int) : Nat := encodeRat f neg (2 * q + 1) 1 (x - 1)

/-- e^z by its Taylor sum, z in units of 2^−200 and below 1. -/
def expFx (z : Nat) : Nat :=
  ((List.range 60).foldl (fun (a : Nat × Nat) k =>
    let t := a.2 * z / 2 ^ fxp / (k + 1)
    (a.1 + t, t)) (2 ^ fxp, 2 ^ fxp)).1

/-- atanh z by its series, z in units of 2^−200 and at most 1/3. -/
def atanhFx (z : Nat) : Nat :=
  let z2 := z * z / 2 ^ fxp
  ((List.range 80).foldl (fun (a : Nat × Nat) k => (a.1 + a.2 / (2 * k + 1), a.2 * z2 / 2 ^ fxp))
    (0, z)).1

/-- The alternating Taylor sum of the sine (first term θ, divisors 2·3, 4·5, …) or the cosine (first
term 1, divisors 1·2, 3·4, …), θ in units of 2^−200. -/
def trigFx (t0 th first : Nat) : Nat :=
  let th2 := th * th / 2 ^ fxp
  ((List.range 45).foldl (fun (a : Int × Nat) k =>
    let t := a.2 * th2 / 2 ^ fxp / ((2 * k + first) * (2 * k + first + 1))
    (if k % 2 = 0 then a.1 - (t : Int) else a.1 + (t : Int), t)) ((t0 : Int), t0)).1.toNat

/-- sin θ. -/
def sinFx (th : Nat) : Nat := trigFx th th 2

/-- cos θ. -/
def cosFx (th : Nat) : Nat := trigFx (2 ^ fxp) th 1

/-- VRCP: 1 / x (R53). -/
def rcpCode (f : Fmt) : Val → Nat
  | .nan => f.nan
  | .inf n => withSign f n 0
  | .fin n m e => if m = 0 then withSign f n (f.inf.getD 0) else encodeRat f n 1 m (-e)

/-- VRSQRT: 1 / √x (R53); IEEE 754 gives ±infinity for ±0. -/
def rsqrtCode (f : Fmt) : Val → Nat
  | .nan => f.nan
  | .inf n => if n then f.nan else 0
  | .fin n m e =>
    if m = 0 then withSign f n (f.inf.getD 0)
    else if n then f.nan
    else
      let odd := decide (e % 2 = 1)
      let mm := if odd then 2 * m else m
      let t := (e - (if odd then 1 else 0)) / 2
      let k := 96 + Nat.log2 mm
      let q := isqrt (2 ^ (2 * k) / mm)
      if q * q * mm = 2 ^ (2 * k) then encodeRat f false q 1 (-(k : Int) - t)
      else encodeOpen f false q (-(k : Int) - t)

/-- VEXP2: 2^x (R53). -/
def exp2Code (f : Fmt) : Val → Nat
  | .nan => f.nan
  | .inf n => if n then 0 else f.inf.getD 0
  | .fin n m e =>
    if m ≠ 0 ∧ 8 ≤ ilog2 m 1 + e then (if n then 0 else f.inf.getD 0)
    else
      let v := signedAt n m e (-(fxp : Int))
      let i := v / ((2 ^ fxp : Nat) : Int)
      let fr := (v % ((2 ^ fxp : Nat) : Int)).toNat
      if fr = 0 then encodeRat f false 1 1 i
      else encodeOpen f false (expFx (fr * ln2Fx / 2 ^ fxp)) (i - fxp)

/-- VLOG2: log2 x (R53). -/
def log2Code (f : Fmt) : Val → Nat
  | .nan => f.nan
  | .inf n => if n then f.nan else f.inf.getD 0
  | .fin n m e =>
    if m = 0 then withSign f true (f.inf.getD 0)
    else if n then f.nan
    else
      let i := (Nat.log2 m : Int) + e
      let one := 2 ^ Nat.log2 m
      if m = one then encodeVal f (.ofInt i)
      else
        let l := 2 * atanhFx ((m - one) * 2 ^ fxp / (m + one)) * 2 ^ fxp / ln2Fx
        let v := i * ((2 ^ fxp : Nat) : Int) + l
        if v < 0 then encodeOpen f true (v.natAbs - 1) (-(fxp : Int))
        else encodeOpen f false v.natAbs (-(fxp : Int))

/-- sin (2πx) or cos (2πx) (R53): an exact zero of the sine takes the sign of x, one of the cosine is
+0, as IEEE 754's sinPi and cosPi. -/
def trigCode (f : Fmt) (cosine : Bool) : Val → Nat
  | .nan => f.nan
  | .inf _ => f.nan
  | .fin n m e =>
    let r := (m * pow2 (e + fxp)) % 2 ^ fxp
    let k := (4 * r / 2 ^ fxp + (if cosine then 1 else 0)) % 4
    let t := r % 2 ^ (fxp - 2)
    let neg := (decide (2 ≤ k)) != (n && !cosine)
    if t = 0 then
      if k % 2 = 1 then encodeRat f neg 1 1 0 else withSign f (n && !cosine) 0
    else
      let th := t * twoPiFx / 2 ^ fxp
      encodeOpen f neg (if k % 2 = 0 then sinFx th else cosFx th) (-(fxp : Int))

/-! ## FP32 operations on codes, each rounded once -/

/-- a + b. -/
def add32 (a b : Nat) : Nat := encodeVal fp32 ((decodeVal fp32 a).add (decodeVal fp32 b))

/-- a − b. -/
def sub32 (a b : Nat) : Nat := encodeVal fp32 ((decodeVal fp32 a).add (decodeVal fp32 b).neg)

/-- a × b. -/
def mul32 (a b : Nat) : Nat := encodeVal fp32 ((decodeVal fp32 a).mul (decodeVal fp32 b))

/-- a / b for finite values, b positive. -/
def div32 (a b : Nat) : Nat :=
  match decodeVal fp32 a, decodeVal fp32 b with
  | .fin n ma ea, .fin _ mb eb => if mb = 0 then fp32.nan else encodeRat fp32 n ma mb (ea - eb)
  | _, _ => fp32.nan

/-- The square root, correctly rounded. -/
def sqrt32 (a : Nat) : Nat :=
  match decodeVal fp32 a with
  | .nan => fp32.nan
  | .inf neg => if neg then fp32.nan else a
  | .fin neg m e =>
    if m = 0 then a
    else if neg then fp32.nan
    else
      let sh := 2 * fxp + (if e % 2 = 0 then 0 else 1)
      let n := m * 2 ^ sh
      let r := isqrt n
      let x := (e - sh) / 2
      if r * r = n then encodeRat fp32 false r 1 x else encodeOpen fp32 false r x

/-- The smaller of two positive codes. -/
def min32 (a b : Nat) : Nat := if order32 a ≤ order32 b then a else b

/-! ## Conversion (R54 to R57) -/

/-- What a value beyond the range becomes (R56): `inf` the slot's overflow mode INFINITY, `mx` an MX
element, which saturates in either mode. -/
def overCode (f : Fmt) (inf mx neg : Bool) : Nat :=
  if mx || !inf then withSign f neg f.max
  else match f.inf with
    | some c => withSign f neg c
    | none => f.nan

/-- A value converted into a format, and whether it counts as a saturation (R56). -/
def convertVal (f : Fmt) (inf mx : Bool) (r : Rounding) (v : Val) : Nat × Bool :=
  match v with
  | .nan => (if f.nanAbove.isSome then f.nan else 0, false)
  | .inf neg => (overCode f inf mx neg, mx || !inf)
  | .fin neg m e =>
    let c := codeOf f r m 1 e
    if f.max < c then (overCode f inf mx neg, true) else (withSign f neg c, false)

/-- A value converted to INT8, as its byte, and whether it counts as a saturation (R56). -/
def convertInt8 (r : Rounding) (v : Val) : Nat × Bool :=
  match v with
  | .nan => (0, false)
  | .inf neg => (if neg then 0x80 else 0x7F, true)
  | .fin neg m e =>
    let q := if m = 0 then 0 else roundTo r m 1 e 0
    if neg then (if 128 < q then (0x80, true) else ((256 - q) % 256, false))
    else (if 127 < q then (0x7F, true) else (q, false))

/-- The larger of two magnitudes, NaN when either is, infinity above all (R57, R66). -/
def Val.maxAbs : Val → Val → Val
  | .nan, _ => .nan
  | _, .nan => .nan
  | .inf _, _ => .inf false
  | _, .inf _ => .inf false
  | .fin _ ma ea, .fin _ mb eb =>
    if signedAt false ma ea (min ea eb) < signedAt false mb eb (min ea eb) then .fin false mb eb
    else .fin false ma ea

/-- The scale byte of a block whose largest magnitude is `a` (R57): none when the block is NaN. -/
def blockScale (emax : Int) (a : Val) : Option Nat :=
  match a with
  | .fin _ m e => if m = 0 then some 0 else some (min (max (ilog2 m 1 + e - emax + 127) 0) 254).toNat
  | _ => none

/-- The element format and emax of an MX target (R57), by its code of Table 2.4. -/
def mxFmt (code : Nat) : Fmt × Int :=
  match code with
  | 3 => (e4m3, 8)
  | 4 => (e5m2, 15)
  | 5 => (e2m3, 2)
  | 6 => (e3m2, 4)
  | _ => (e2m1, 2)

/-- A value is a finite zero. -/
def Val.isZero : Val → Bool
  | .fin _ 0 _ => true
  | _ => false

/-- A converted block (R57): its scale byte, its element codes and the saturations of unmasked elements.
`vs` holds each value, whether it is unmasked, and how it rounds. -/
def convertBlock (f : Fmt) (emax : Int) (vs : List (Val × Bool × Rounding)) : Nat × List Nat × Nat :=
  let a := (vs.filter (·.2.1)).foldl (fun m v => m.maxAbs v.1.abs) (.fin false 0 0)
  match blockScale emax a with
  | none => (0xFF, vs.map fun _ => 0, 0)
  | some x =>
    let rs := vs.map fun v =>
      if a.isZero && v.2.1 then (0, false)
      else
        let c := convertVal f false true v.2.2 (v.1.shift (127 - (x : Int)))
        (c.1, c.2 && v.2.1)
    (x, rs.map (·.1), (rs.filter (·.2)).length)

/-- Element codes of `w` bits packed from the low bits of a little-endian byte string (R44), as a
number. -/
def packBits (w : Nat) (cs : List Nat) : Nat :=
  cs.foldr (fun c acc => acc * 2 ^ w + c % 2 ^ w) 0

/-- Element `i` of `w` bits of a packed byte string (R44), as a number. -/
def unpackBits (w v i : Nat) : Nat := v / 2 ^ (w * i) % 2 ^ w

end Sys2Proof.Machine
end

