-- ==== Sys2Proof/Machine/Codec.lean ====
section
/-!
DEFINITION. The Calm and Haze block encodings and the codes of inline ECC: how a 256 B block is stored
under a region's ENC and read back by its metadata (R208 to R215, R223), and the Reed–Solomon and CRC-7
check symbols of R181.
-/

namespace Sys2Proof.Machine

/-- A block's metadata (Table 8.2). -/
structure Meta where
  format : Nat := 0
  dtype : Nat := 0
  sectors : Nat := 8
  check : Nat := 0
  deriving DecidableEq, Repr

/-- The metadata as its U32. -/
def Meta.word (m : Meta) : Nat := m.format * 2 ^ 28 + m.dtype * 2 ^ 26 + m.sectors * 2 ^ 20 + m.check

/-- The fields of a metadata U32. -/
def Meta.ofWord (w : Nat) : Meta := ⟨bits w 31 28, bits w 27 26, bits w 23 20, bits w 15 0⟩

/-- One byte into the CRC-16 of R210, most significant bit first. -/
def crc16Byte (c : Nat) (b : Byte) : Nat :=
  (List.range 8).foldl (fun v _ => if v.testBit 15 then (v * 2) % 65536 ^^^ 0x1021 else v * 2)
    (c ^^^ (b.toNat * 256))

/-- CHECK: the CRC-16 of the decoded bytes (R210). -/
def crc16 (bs : List Byte) : Nat := bs.foldl crc16Byte 0xFFFF

/-- Group `i` of 8 B of a block (R212). -/
def calmGroup (blk : List Byte) (i : Nat) : List Byte := slice blk (8 * i) 8

/-- The non-zero groups of a block (R212). -/
def calmGroups (blk : List Byte) : List Nat :=
  (List.range 32).filter fun i => (calmGroup blk i).any (· != 0)

/-- The Calm encoding: mask and non-zero groups (R212). -/
def calmBytes (blk : List Byte) : List Byte :=
  leBytes 4 ((calmGroups blk).foldl (fun m i => m + 2 ^ i) 0) ++ (calmGroups blk).flatMap (calmGroup blk)

/-- Bytes filled with zeros, or cut, to `n`. -/
def padTo (n : Nat) (bs : List Byte) : List Byte := slice bs 0 n

/-- The place of each group in the encoding of a mask. -/
def calmExpand (mask : Nat) (bs : List Byte) : List Byte :=
  ((List.range 32).foldl (fun (a : List Byte × Nat) i =>
    if mask.testBit i then (a.1 ++ slice bs a.2 8, a.2 + 8) else (a.1 ++ List.replicate 8 0, a.2))
    ([], 4)).1

/-- A row of Table 8.4: bytes per value, sub-blocks, bytes of each, the values' format, the element's
format and width, emax, and the sectors. -/
structure HazeRow where
  vbytes : Nat
  subs : Nat
  size : Nat
  value : Fmt
  elem : Fmt
  width : Nat
  emax : Int
  sectors : Nat
  deriving DecidableEq, Repr

/-- Table 8.4 by FORMAT and DTYPE. -/
def hazeRow (format dtype : Nat) : Option HazeRow :=
  match format, dtype with
  | 3, 0 => some ⟨2, 4, 32, bf16, e3m3, 7, 4, 4⟩
  | 4, 0 => some ⟨2, 4, 16, bf16, e1m1, 3, 0, 2⟩
  | 3, 1 => some ⟨4, 2, 64, fp32, e4m10, 15, 8, 4⟩
  | 4, 1 => some ⟨4, 2, 32, fp32, e3m3, 7, 4, 2⟩
  | 3, 2 => some ⟨1, 8, 16, e4m3, e1m1, 3, 0, 4⟩
  | _, _ => none

/-- A sub-block's encoding: scale byte, then the packed elements (R214). -/
def hazeSub (r : HazeRow) (blk : List Byte) (j : Nat) : List Byte :=
  let vs := (List.range 32).map fun i =>
    (decodeVal r.value (fieldLE blk ((32 * j + i) * r.vbytes) r.vbytes), true, Rounding.nearest)
  let c := convertBlock r.elem r.emax vs
  padTo r.size (leBytes 1 c.1 ++ leBytes (r.size - 1) (packBits r.width c.2.1))

/-- The Haze encoding of a block. -/
def hazeBytes (r : HazeRow) (blk : List Byte) : List Byte := (List.range r.subs).flatMap (hazeSub r blk)

/-- A sub-block decoded (R215): element × 2^(X − 127), rounded once to the values' format; a scale byte
of 0xFF gives the canonical NaN. -/
def hazeSubValues (r : HazeRow) (bs : List Byte) (j : Nat) : List Byte :=
  let x := fieldLE bs (j * r.size) 1
  let v := fieldLE bs (j * r.size + 1) (r.size - 1)
  (List.range 32).flatMap fun i =>
    leBytes r.vbytes (if x = 255 then r.value.nan
      else encodeVal r.value ((decodeVal r.elem (unpackBits r.width v i)).shift ((x : Int) - 127)))

/-- A Haze block decoded. -/
def hazeDecode (r : HazeRow) (bs : List Byte) : List Byte :=
  (List.range r.subs).flatMap (hazeSubValues r bs)

/-- How a block is stored: its metadata and its stored sectors. -/
structure Stored where
  info : Meta
  bytes : List Byte
  deriving DecidableEq, Repr

/-- A block stored RAW. -/
def storeRaw (blk : List Byte) : Stored := ⟨⟨0, 0, 8, 0⟩, padTo 256 blk⟩

/-- A block stored under a region's ENC and DTYPE (R213, R214). -/
def encodeBlock (enc dtype : Nat) (blk : List Byte) : Stored :=
  if enc = 1 then
    let k := (calmGroups blk).length
    if k = 0 then ⟨⟨1, 0, 0, 0⟩, []⟩
    else if 28 ≤ k then storeRaw blk
    else
      let n := (4 + 8 * k + 31) / 32
      ⟨⟨2, 0, n, crc16 blk⟩, padTo (32 * n) (calmBytes blk)⟩
  else
    match hazeRow (enc + 1) dtype with
    | some r =>
      if enc = 0 then storeRaw blk
      else
        let bs := hazeBytes r blk
        ⟨⟨enc + 1, dtype, r.sectors, crc16 (hazeDecode r bs)⟩, padTo (32 * r.sectors) bs⟩
    | none => storeRaw blk

/-- A block decoded by its metadata word (R210, R215); none where R223 finds it damaged. A word of zeros
declares its block RAW (R211). -/
def decodeBlock (w : Nat) (bs : List Byte) : Option (List Byte) :=
  let m := Meta.ofWord w
  if bits w 25 24 ≠ 0 ∨ bits w 19 16 ≠ 0 ∨ m.dtype = 3 then none
  else if m.format = 0 then (if m.sectors = 8 ∨ w = 0 then some (padTo 256 bs) else none)
  else if m.format = 1 then (if m.sectors = 0 then some (List.replicate 256 0) else none)
  else if m.format = 2 then
    let mask := fieldLE bs 0 4
    let k := ((List.range 32).filter mask.testBit).length
    let d := calmExpand mask bs
    if 1 ≤ k ∧ k ≤ 27 ∧ m.sectors = (4 + 8 * k + 31) / 32 ∧ crc16 d = m.check then some d else none
  else
    match hazeRow m.format m.dtype with
    | none => none
    | some r =>
      let d := hazeDecode r bs
      if m.sectors = r.sectors ∧ crc16 d = m.check then some d else none

/-! ## Inline ECC (R181) -/

/-- A symbol times α in GF(2^16) with x^16 + x^12 + x^3 + x + 1. -/
def gfDouble (a : Nat) : Nat := if a.testBit 15 then (a * 2) % 65536 ^^^ 0x100B else a * 2

/-- The product in GF(2^16). -/
def gfMul (a b : Nat) : Nat :=
  ((List.range 16).foldl (fun (s : Nat × Nat) i =>
    (if b.testBit i then s.1 ^^^ s.2 else s.1, gfDouble s.2)) (0, a)).1

/-- α^i. -/
def gfPow : Nat → Nat
  | 0 => 1
  | i + 1 => gfDouble (gfPow i)

/-- The generator's coefficients below x^4, lowest first: (x + 1)(x + α)(x + α²)(x + α³). -/
def rsGen : List Nat :=
  (List.range 4).foldl (fun p i =>
    let r := gfPow i
    (List.range (p.length + 1)).map fun j =>
      (if j = 0 then 0 else p.getD (j - 1) 0) ^^^ gfMul r (p.getD j 0)) [1]

/-- The four check symbols of 128 data symbols, C0 first: the remainder of the data polynomial times x^4,
symbol 127 the highest power. -/
def rsCheck (syms : List Nat) : List Nat :=
  syms.reverse.foldl (fun rem d =>
    let f := d ^^^ rem.getD 3 0
    (List.range 4).map fun j => (if j = 0 then 0 else rem.getD (j - 1) 0) ^^^ gfMul f (rsGen.getD j 0))
    [0, 0, 0, 0]

/-- The U16 symbols of a stored block. -/
def symbolsOf (blk : List Byte) : List Nat := (List.range 128).map fun i => fieldLE blk (2 * i) 2

/-- One byte into the sector CRC-7 (R181), most significant bit first. -/
def crc7Byte (c : Nat) (b : Byte) : Nat :=
  (List.range 8).foldl (fun v i =>
    if v.testBit 6 != b.toNat.testBit (7 - i) then (v * 2) % 128 ^^^ 0x09 else (v * 2) % 128) c

/-- The CRC-7 of a sector. -/
def crc7 (bs : List Byte) : Nat := bs.foldl crc7Byte 0x7F

/-- The check entry of a stored block with its sectors' poison bits (Table 7.1). -/
def checkEntry (blk : List Byte) (poison : Nat) : List Byte :=
  (rsCheck (symbolsOf blk)).flatMap (leBytes 2) ++
  (List.range 8).map fun i =>
    BitVec.ofNat 8 (crc7 (slice blk (32 * i) 32) + (if poison.testBit i then 128 else 0))

/-- What reading a block through inline ECC finds (R182). -/
inductive Ecc where
  | clean
  | corrected
  | detected
  deriving DecidableEq, Repr

/-- What the Reed–Solomon decoder answers: nothing to correct, one symbol with the bits to change, or two or more symbols
in error. -/
inductive RsResult where
  | clean
  | fixed (symbol flip : Nat)
  | failed
  deriving DecidableEq, Repr

/-- The syndrome of 132 received symbols at the root α^i (R181): data symbol j stands at power j + 4, check symbol Cj at
power j. -/
def syndrome (syms : List Nat) (i : Nat) : Nat :=
  ((List.range 128).reverse ++ [131, 130, 129, 128]).foldl (fun v j => gfMul v (gfPow i) ^^^ syms.getD j 0) 0

/-- The decoder of R181: one symbol in error answers syndromes in the ratio of its position; any other pattern with a
non-zero syndrome is more than one. -/
def rsDecode (syms : List Nat) : RsResult :=
  let z := (List.range 4).map (syndrome syms)
  let e := z.headD 0
  if z = [0, 0, 0, 0] then .clean
  else
    match (List.range 132).find? fun k => e ≠ 0 && z == (List.range 4).map fun i => gfMul e (gfPow (i * k)) with
    | some k => .fixed (if k < 4 then 128 + k else k - 4) e
    | none => .failed

end Sys2Proof.Machine
end

