-- ==== Sys2Proof/Machine/Catalogue.lean ====
section
/-!
DEFINITION. The object dictionary's catalogue (R408, R430): one row for each entry of the entry tables
of every chapter, with its type, access kind per class, default, persistence and applies-when rule; and
the address, index × 256 + subindex, each entry has for its instance.
-/

namespace Sys2Proof.Machine

/-- Entry types (Table 16.1). -/
inductive Ty where
  | u8 | u16 | u32 | u64 | s32 | bool | bits32 | vis | dom
  deriving DecidableEq, Repr

/-- The bytes of a value (Table 16.1); 0 for the types of no fixed size. -/
def Ty.bytes : Ty → Nat
  | .u8 => 1
  | .u16 => 2
  | .u32 => 4
  | .u64 => 8
  | .s32 => 4
  | .bool => 1
  | .bits32 => 4
  | .vis => 0
  | .dom => 0

/-- Access kinds (Table 16.2). -/
inductive Acc where
  | const | ro | rw | wo | rc | w1c
  deriving DecidableEq, Repr

/-- Persistence (Table 16.3). -/
inductive Persist where
  | volatile | persistent | fuse | derived
  deriving DecidableEq, Repr

/-- Applies-when rules (Table 16.5); `atWrite` stands for both rules that latch at the write. -/
inductive Applies where
  | atWrite | bundle | jobStart | formation | enable | replaceDie | loadTarget | sessionOpen
  | directory | linkRestart | moduleReset | label | none_
  deriving DecidableEq, Repr

/-- What class P reaches of an entry (R411): its own partition's index range, its own subindex of an
entry with one per partition, its own dies, or the entry whole. -/
inductive Scope where
  | part | perPart | perDie | whole
  deriving DecidableEq, Repr

/-- The entries by name. -/
inductive Ent where
  | cdCclkMhz
  | cdCclkActualMhz
  | fabricReplayCount
  | clockHoldCount
  | cellFormatsSupported
  | cellImemBundles
  | cellAmaxEntries
  | cdSparesLeft
  | cellImemEccCorrected
  | cellIllegalBundleCount
  | partRngSeed
  | partSrForceRne
  | cellShadowFrames
  | cellLandingBufferKib
  | cellMissCount
  | cellMissCycles
  | cdMissSticky
  | partMissCount
  | partMissSticky
  | partFirstMiss
  | partWaitCycles
  | partReservedOverrun
  | partCommitPages
  | partSquashPages
  | partSquashBytes
  | partShadowOverwrite
  | partShadowOverwriteSticky
  | partReservedCeilingPct
  | partSemTimeoutUs
  | cellWindowMaxKernel
  | cellResampleMaxBoxes
  | partValidRows
  | partPadRows
  | partBoxClipped
  | partBoxRejected
  | cellRotaryMaxPosition
  | cellKvMaxHeadDim
  | partKvPagesWalked
  | partKvNullPages
  | partKvNanBlocks
  | cellScratchBanks
  | sdChannels
  | cdScratchEccCorrected
  | cdScratchPoisoned
  | cdClearDone
  | cdScratchRepairColumns
  | cellConflictMode
  | sdEccCorrected
  | sdPoisoned
  | partConflictLost
  | partConflictStallCycles
  | memChannels
  | memDataRateMts
  | mscWays
  | memGroupInlineEcc
  | memGroupState
  | memGroupEccCorrected
  | memGroupPoisoned
  | memGroupSectorReread
  | memDrizzleWeightPct
  | partMscWayMask
  | partMscHits
  | partMscMisses
  | partMscDroppedLines
  | partDrizzleReads
  | partDrizzleWrites
  | partHostBytes
  | partHostWindowBase
  | partHostWindowSize
  | memCompressFormats
  | partCompressRegion
  | partCompressRegionSize
  | partCompressMetaBase
  | partCompressBlocksWritten
  | partCompressSectorsSaved
  | partCompressCalmRaw
  | partCompressRmw
  | partCompressCheckFailed
  | partCompressFamilyMismatch
  | cellScaleSlots
  | objMoveRecords
  | partObjTableBase
  | partObjTableCount
  | partScaleTableBase
  | partScaleMirror
  | partNarrowReason
  | partObjMoves
  | partObjMoveBytes
  | partObjRefused
  | partObjAborts
  | partPrefetchLate
  | partScaleAdvances
  | partScaleHolds
  | mediaDecodeEngines
  | mediaEncodeEngines
  | mediaContexts
  | mediaPoolBuffers
  | mediaMaxWidth
  | mediaMaxHeight
  | decPictures
  | decBusyVclk
  | encFrames
  | mediaWindowBlocked
  | partMediaCtxBase
  | partMediaCtxCount
  | partPoolBase
  | partPoolBufSize
  | partPoolBufCount
  | partDecConcealedFrames
  | partDecConcealedBlocks
  | partDecBudgetAborts
  | partDecMissingRefs
  | partMediaParks
  | partEncKeyPictures
  | mediaTensorWriters
  | mediaOplistPhases
  | partSampleCacheBase
  | partSampleCacheSets
  | partSampleCacheSlotBytes
  | partSampleEpoch
  | partSamples
  | partSampleFrames
  | partSampleCacheHits
  | partSampleCacheMisses
  | partSampleCacheNoroom
  | partSampleClipped
  | partSampleLatePhases
  | partMediaRejects
  | partMediaSizeChanges
  | netPorts
  | nctSessions
  | nctMessages
  | nctPayloadBytes
  | netMacBase
  | netSrcPrefix
  | netFeatureLevel
  | netMinPeerLevel
  | netNctUdpPort
  | netNctDscp
  | netPortMode
  | netPortState
  | netPortNexthopMac
  | netPortTxBytes
  | netPortRxBytes
  | netPortFecCorrected
  | netPortFecUncorrected
  | netPortRxDropped
  | netRxAuthFail
  | netTxFenceDrops
  | netPauseIgnored
  | netOcTxCapped
  | partNctIid
  | partNctSessionQuota
  | partNctPortMask
  | partNctWindowPkts
  | partNctAccept
  | partNctFailMs
  | partNetCreditMin
  | partNctRegionBase
  | partNctRegionCount
  | partNctErrqBase
  | partNctErrqSlots
  | partNctTxPackets
  | partNctRetransmits
  | partNctCeMarks
  | partNctRnrSent
  | partNctRnrReceived
  | partNctLateDropped
  | partNctLateSticky
  | partNctErrqOverflow
  | partNctDupDropped
  | partNctRekeys
  | collEngines
  | collCommunicators
  | collMaxMembers
  | collEngineBytes
  | partCollCommBase
  | partCollCommCount
  | partCollEpoch
  | partCollCalls
  | partCollBytes
  | partCollLateEpoch
  | partCollLateEpochSticky
  | partCollFirstLate
  | partCollSaturations
  | partCollMismatch
  | partState
  | partCommand
  | partFormResult
  | partCdMask
  | partGroupMask
  | partReplace
  | partRunningJob
  | partParkedJobs
  | partLastTenant
  | partMediaExclusive
  | partPortExclusive
  | partDecShare
  | partEncShare
  | partPortShare
  | partQueueBase
  | partQueueConfig
  | partQueueTenant
  | partCompletionBase
  | partCompletionSlots
  | partQueueFault
  | partCompletionStalls
  | partPreemptions
  | partSemDiscarded
  | baroEntries
  | baroWaitSumNs
  | baroWaitMaxNs
  | baroPreemptions
  | baroPreemptLostNs
  | baroWaitHist
  | fwImageWrite
  | fwActivate
  | fwSlotState
  | attestNonce
  | attestReport
  | attestCertChain
  | blockClockStop
  | blockPowerOff
  | secFuseState
  | secDebugState
  | secBlockOwner
  | secDeniedCount
  | secDebugChallenge
  | secDebugToken
  | secSvn
  | secKeySlotsUsed
  | secEntropyState
  | partEncrypt
  | partAttestNonce
  | partAttestReport
  | partMeasLog
  | partMeasReason
  | partNctPeerPolicy
  | partLoadTarget
  | partLoadLength
  | partLoadTenant
  | partMeasRegionBase
  | partMeasRegionSize
  | partNctFwAllow
  | devPartNumber
  | devSerial
  | devStepping
  | devFwVersion
  | dictVersion
  | commMctpIana
  | commEthMac
  | commEthIpv4Addr
  | commEthIpv4Mask
  | commEthIpv4Gateway
  | commEthUdpPort
  | commEthClass
  | commEthAllowAddr
  | commEthAllowMask
  | commRestoreDefaults
  | commRequests
  | commErrors
  | commBusy
  | commEthDropped
  | commReplays
  | anemSelect
  | anemCount
  | anemEnable
  | errModuleStatus
  | errResetCause
  | errNotifyVector
  | errCellSpareLimit
  | errGroupRetireLimit
  | errCorrectedTotal
  | errDeferredTotal
  | errContainedTotal
  | errFatalResets
  | errPartStatus
  | errPartLast
  | errRecoveryState
  | errRecoveryQueued
  | errEscalations
  | errPartReset
  | errSpareSwap
  | errGroupRetire
  | almWindow
  | almCursor
  | almNextSeq
  | almOldestSeq
  | almReadMark
  | almLost
  | almDropped
  | almClear
  | almOpSeconds
  | almPowerCycles
  | bootStage
  | bootFailCode
  | bootTimeMs
  | bootStraps
  | bootAttempts
  | bootFallbacks
  | bootMarginAtStart
  | pcieLinkStatus
  | mgmtLinkStatus
  | pcieLinkRetrains
  | netPortRestarts
  | memGroupFailedChannels
  | memGroupTrainMs
  | memGroupRetrain
  | pinFunction
  | pinState
  | gpioOut
  | gpioIn
  | marginRequest
  | marginState
  | marginResult
  | marginStartResult
  | ethLaneEye
  | pcieLaneMargin
  | modTdpW
  | modPowerLimitW
  | modPowerCapW
  | modInputMv
  | modInputMa
  | modInputPowerW
  | modEnergyJ
  | modThrottleSteps
  | modThrottleEvents
  | dieTemp
  | coldPlateTemp
  | tempThrottleC
  | tempTripC
  | modTripLatched
  | holdupCapUf
  | holdupFault
  deriving DecidableEq, Repr

/-- A row of the catalogue: the indices and subindices it spans (at partition 0), its type, the access
of classes S, O, P and D, its default, persistence, applies-when rule and reach. -/
structure Row where
  id : Ent
  lo : Nat
  hi : Nat
  subLo : Nat
  subHi : Nat
  ty : Ty
  s : Option Acc
  o : Option Acc
  p : Option Acc
  d : Option Acc
  dflt : Nat
  persist : Persist
  applies : Applies
  scope : Scope
  deriving DecidableEq, Repr

/-- The entries of chapter 1. -/
def rows01 : List Row := [
  ⟨.cdCclkMhz, 0x2100, 0x2100, 1, 16, .u16, some .rw, some .rw, some .ro, some .ro, 1600, .volatile, .bundle, .perDie⟩,
  ⟨.cdCclkActualMhz, 0x2100, 0x2100, 17, 32, .u16, some .ro, some .ro, some .ro, some .ro, 0, .derived, .none_, .perDie⟩,
  ⟨.fabricReplayCount, 0x2180, 0x2180, 1, 1, .u64, some .rc, some .rc, none, some .ro, 0, .volatile, .none_, .whole⟩,
  ⟨.clockHoldCount, 0x2180, 0x2180, 2, 2, .u64, some .rc, some .rc, none, some .ro, 0, .volatile, .none_, .whole⟩]

/-- The entries of chapter 2. -/
def rows02 : List Row := [
  ⟨.cellFormatsSupported, 0x4000, 0x4000, 1, 1, .bits32, some .const, some .const, some .const, some .const, 511, .derived, .none_, .whole⟩,
  ⟨.cellImemBundles, 0x4000, 0x4000, 2, 2, .u16, some .const, some .const, some .const, some .const, 4096, .derived, .none_, .whole⟩,
  ⟨.cellAmaxEntries, 0x4000, 0x4000, 3, 3, .u8, some .const, some .const, some .const, some .const, 64, .derived, .none_, .whole⟩,
  ⟨.cdSparesLeft, 0x4010, 0x4010, 1, 16, .u8, some .ro, some .ro, none, some .ro, 4, .persistent, .none_, .whole⟩,
  ⟨.cellImemEccCorrected, 0x4020, 0x4020, 1, 1, .u64, some .rc, some .rc, none, some .ro, 0, .volatile, .none_, .whole⟩,
  ⟨.cellIllegalBundleCount, 0x4020, 0x4020, 2, 2, .u64, some .rc, some .rc, none, some .ro, 0, .volatile, .none_, .whole⟩,
  ⟨.partRngSeed, 0x8020, 0x8020, 1, 1, .u64, some .rw, some .rw, some .rw, some .ro, 0, .volatile, .jobStart, .part⟩,
  ⟨.partSrForceRne, 0x8020, 0x8020, 2, 2, .bool, some .rw, some .rw, some .rw, some .ro, 0, .volatile, .jobStart, .part⟩]

/-- The entries of chapter 3. -/
def rows03 : List Row := [
  ⟨.cellShadowFrames, 0x4000, 0x4000, 4, 4, .u8, some .const, some .const, some .const, some .const, 64, .derived, .none_, .whole⟩,
  ⟨.cellLandingBufferKib, 0x4000, 0x4000, 5, 5, .u16, some .const, some .const, some .const, some .const, 64, .derived, .none_, .whole⟩,
  ⟨.cellMissCount, 0x4100, 0x410f, 1, 80, .u64, some .rc, some .rc, none, some .ro, 0, .volatile, .none_, .whole⟩,
  ⟨.cellMissCycles, 0x4110, 0x411f, 1, 80, .u64, some .rc, some .rc, none, some .ro, 0, .volatile, .none_, .whole⟩,
  ⟨.cdMissSticky, 0x4120, 0x4120, 1, 48, .bits32, some .w1c, some .w1c, none, some .ro, 0, .volatile, .none_, .whole⟩,
  ⟨.partMissCount, 0x8030, 0x8030, 1, 1, .u64, some .rc, some .rc, some .rc, some .ro, 0, .volatile, .none_, .part⟩,
  ⟨.partMissSticky, 0x8030, 0x8030, 2, 2, .bool, some .w1c, some .w1c, some .w1c, some .ro, 0, .volatile, .none_, .part⟩,
  ⟨.partFirstMiss, 0x8030, 0x8030, 3, 3, .u64, some .rc, some .rc, some .rc, some .ro, 0, .volatile, .none_, .part⟩,
  ⟨.partWaitCycles, 0x8030, 0x8030, 4, 4, .u64, some .rc, some .rc, some .rc, some .ro, 0, .volatile, .none_, .part⟩,
  ⟨.partReservedOverrun, 0x8030, 0x8030, 5, 5, .u64, some .rc, some .rc, some .rc, some .ro, 0, .volatile, .none_, .part⟩,
  ⟨.partCommitPages, 0x8030, 0x8030, 6, 6, .u64, some .rc, some .rc, some .rc, some .ro, 0, .volatile, .none_, .part⟩,
  ⟨.partSquashPages, 0x8030, 0x8030, 7, 7, .u64, some .rc, some .rc, some .rc, some .ro, 0, .volatile, .none_, .part⟩,
  ⟨.partSquashBytes, 0x8030, 0x8030, 8, 8, .u64, some .rc, some .rc, some .rc, some .ro, 0, .volatile, .none_, .part⟩,
  ⟨.partShadowOverwrite, 0x8030, 0x8030, 9, 9, .u64, some .rc, some .rc, some .rc, some .ro, 0, .volatile, .none_, .part⟩,
  ⟨.partShadowOverwriteSticky, 0x8030, 0x8030, 10, 10, .bool, some .w1c, some .w1c, some .w1c, some .ro, 0, .volatile, .none_, .part⟩,
  ⟨.partReservedCeilingPct, 0x8040, 0x8040, 1, 1, .u8, some .rw, some .rw, some .ro, some .ro, 80, .volatile, .jobStart, .part⟩,
  ⟨.partSemTimeoutUs, 0x8040, 0x8040, 2, 2, .u32, some .rw, some .rw, some .rw, some .ro, 0, .volatile, .jobStart, .part⟩]

/-- The entries of chapter 4. -/
def rows04 : List Row := [
  ⟨.cellWindowMaxKernel, 0x4000, 0x4000, 6, 6, .u8, some .const, some .const, some .const, some .const, 7, .derived, .none_, .whole⟩,
  ⟨.cellResampleMaxBoxes, 0x4000, 0x4000, 7, 7, .u8, some .const, some .const, some .const, some .const, 64, .derived, .none_, .whole⟩,
  ⟨.partValidRows, 0x8050, 0x8050, 1, 1, .u64, some .rc, some .rc, some .rc, some .ro, 0, .volatile, .none_, .part⟩,
  ⟨.partPadRows, 0x8050, 0x8050, 2, 2, .u64, some .rc, some .rc, some .rc, some .ro, 0, .volatile, .none_, .part⟩,
  ⟨.partBoxClipped, 0x8050, 0x8050, 3, 3, .u64, some .rc, some .rc, some .rc, some .ro, 0, .volatile, .none_, .part⟩,
  ⟨.partBoxRejected, 0x8050, 0x8050, 4, 4, .u64, some .rc, some .rc, some .rc, some .ro, 0, .volatile, .none_, .part⟩]

/-- The entries of chapter 5. -/
def rows05 : List Row := [
  ⟨.cellRotaryMaxPosition, 0x4000, 0x4000, 8, 8, .u16, some .const, some .const, some .const, some .const, 65535, .derived, .none_, .whole⟩,
  ⟨.cellKvMaxHeadDim, 0x4000, 0x4000, 9, 9, .u16, some .const, some .const, some .const, some .const, 256, .derived, .none_, .whole⟩,
  ⟨.partKvPagesWalked, 0x8060, 0x8060, 1, 1, .u64, some .rc, some .rc, some .rc, some .ro, 0, .volatile, .none_, .part⟩,
  ⟨.partKvNullPages, 0x8060, 0x8060, 2, 2, .u64, some .rc, some .rc, some .rc, some .ro, 0, .volatile, .none_, .part⟩,
  ⟨.partKvNanBlocks, 0x8060, 0x8060, 3, 3, .u64, some .rc, some .rc, some .rc, some .ro, 0, .volatile, .none_, .part⟩]

/-- The entries of chapter 6. -/
def rows06 : List Row := [
  ⟨.cellScratchBanks, 0x4000, 0x4000, 10, 10, .u8, some .const, some .const, some .const, some .const, 16, .derived, .none_, .whole⟩,
  ⟨.sdChannels, 0x4000, 0x4000, 11, 11, .u8, some .const, some .const, some .const, some .const, 64, .derived, .none_, .whole⟩,
  ⟨.cdScratchEccCorrected, 0x4200, 0x4200, 1, 16, .u64, some .rc, some .rc, none, some .ro, 0, .volatile, .none_, .whole⟩,
  ⟨.cdScratchPoisoned, 0x4200, 0x4200, 17, 32, .u64, some .rc, some .rc, none, some .ro, 0, .volatile, .none_, .whole⟩,
  ⟨.cdClearDone, 0x4200, 0x4200, 33, 33, .bits32, some .ro, some .ro, none, some .ro, 0, .volatile, .none_, .whole⟩,
  ⟨.cdScratchRepairColumns, 0x4200, 0x4200, 49, 64, .u16, some .const, some .const, none, some .const, 0, .fuse, .none_, .whole⟩,
  ⟨.cellConflictMode, 0x4210, 0x4210, 1, 16, .u8, some .rw, some .rw, some .ro, some .ro, 0, .volatile, .jobStart, .perPart⟩,
  ⟨.sdEccCorrected, 0x4300, 0x4300, 1, 16, .u64, some .rc, some .rc, none, some .ro, 0, .volatile, .none_, .whole⟩,
  ⟨.sdPoisoned, 0x4300, 0x4300, 17, 32, .u64, some .rc, some .rc, none, some .ro, 0, .volatile, .none_, .whole⟩,
  ⟨.partConflictLost, 0x8070, 0x8070, 1, 6, .u64, some .rc, some .rc, some .rc, some .ro, 0, .volatile, .none_, .part⟩,
  ⟨.partConflictStallCycles, 0x8070, 0x8070, 7, 7, .u64, some .rc, some .rc, some .rc, some .ro, 0, .volatile, .none_, .part⟩]

/-- The entries of chapter 7. -/
def rows07 : List Row := [
  ⟨.memChannels, 0x3000, 0x3000, 1, 1, .u16, some .const, some .const, some .const, some .const, 384, .derived, .none_, .whole⟩,
  ⟨.memDataRateMts, 0x3000, 0x3000, 2, 2, .u16, some .const, some .const, some .const, some .const, 10667, .derived, .none_, .whole⟩,
  ⟨.mscWays, 0x3000, 0x3000, 3, 3, .u8, some .const, some .const, some .const, some .const, 16, .derived, .none_, .whole⟩,
  ⟨.memGroupInlineEcc, 0x3010, 0x3010, 1, 16, .bool, some .rw, some .rw, none, some .ro, 1, .persistent, .moduleReset, .whole⟩,
  ⟨.memGroupState, 0x3010, 0x3010, 17, 32, .u8, some .ro, some .ro, none, some .ro, 1, .derived, .none_, .whole⟩,
  ⟨.memGroupEccCorrected, 0x3020, 0x3020, 1, 16, .u64, some .rc, some .rc, none, some .ro, 0, .volatile, .none_, .whole⟩,
  ⟨.memGroupPoisoned, 0x3020, 0x3020, 17, 32, .u64, some .rc, some .rc, none, some .ro, 0, .volatile, .none_, .whole⟩,
  ⟨.memGroupSectorReread, 0x3020, 0x3020, 33, 48, .u64, some .rc, some .rc, none, some .ro, 0, .volatile, .none_, .whole⟩,
  ⟨.memDrizzleWeightPct, 0x3040, 0x3040, 1, 1, .u8, some .rw, some .rw, none, some .ro, 50, .persistent, .atWrite, .whole⟩,
  ⟨.partMscWayMask, 0x8080, 0x8080, 1, 4, .bits32, some .rw, some .rw, some .ro, some .ro, 0, .volatile, .formation, .part⟩,
  ⟨.partMscHits, 0x8080, 0x8080, 5, 5, .u64, some .rc, some .rc, some .rc, some .ro, 0, .volatile, .none_, .part⟩,
  ⟨.partMscMisses, 0x8080, 0x8080, 6, 6, .u64, some .rc, some .rc, some .rc, some .ro, 0, .volatile, .none_, .part⟩,
  ⟨.partMscDroppedLines, 0x8080, 0x8080, 7, 7, .u64, some .rc, some .rc, some .rc, some .ro, 0, .volatile, .none_, .part⟩,
  ⟨.partDrizzleReads, 0x8080, 0x8080, 8, 8, .u64, some .rc, some .rc, some .rc, some .ro, 0, .volatile, .none_, .part⟩,
  ⟨.partDrizzleWrites, 0x8080, 0x8080, 9, 9, .u64, some .rc, some .rc, some .rc, some .ro, 0, .volatile, .none_, .part⟩,
  ⟨.partHostBytes, 0x8080, 0x8080, 10, 10, .u64, some .rc, some .rc, some .rc, some .ro, 0, .volatile, .none_, .part⟩,
  ⟨.partHostWindowBase, 0x8081, 0x8081, 1, 64, .u64, some .rw, some .rw, some .ro, some .ro, 0, .volatile, .jobStart, .part⟩,
  ⟨.partHostWindowSize, 0x8082, 0x8082, 1, 64, .u64, some .rw, some .rw, some .ro, some .ro, 0, .volatile, .jobStart, .part⟩]

/-- The entries of chapter 8. -/
def rows08 : List Row := [
  ⟨.memCompressFormats, 0x3000, 0x3000, 4, 4, .bits32, some .const, some .const, some .const, some .const, 31, .derived, .none_, .whole⟩,
  ⟨.partCompressRegion, 0x8090, 0x8090, 1, 16, .u64, some .rw, some .rw, some .rw, some .ro, 0, .volatile, .jobStart, .part⟩,
  ⟨.partCompressRegionSize, 0x8091, 0x8091, 1, 16, .u64, some .rw, some .rw, some .rw, some .ro, 0, .volatile, .jobStart, .part⟩,
  ⟨.partCompressMetaBase, 0x8092, 0x8092, 1, 16, .u64, some .rw, some .rw, some .rw, some .ro, 0, .volatile, .jobStart, .part⟩,
  ⟨.partCompressBlocksWritten, 0x8093, 0x8093, 1, 1, .u64, some .rc, some .rc, some .rc, some .ro, 0, .volatile, .none_, .part⟩,
  ⟨.partCompressSectorsSaved, 0x8093, 0x8093, 2, 2, .u64, some .rc, some .rc, some .rc, some .ro, 0, .volatile, .none_, .part⟩,
  ⟨.partCompressCalmRaw, 0x8093, 0x8093, 3, 3, .u64, some .rc, some .rc, some .rc, some .ro, 0, .volatile, .none_, .part⟩,
  ⟨.partCompressRmw, 0x8093, 0x8093, 4, 4, .u64, some .rc, some .rc, some .rc, some .ro, 0, .volatile, .none_, .part⟩,
  ⟨.partCompressCheckFailed, 0x8093, 0x8093, 5, 5, .u64, some .rc, some .rc, some .rc, some .ro, 0, .volatile, .none_, .part⟩,
  ⟨.partCompressFamilyMismatch, 0x8093, 0x8093, 6, 6, .u64, some .rc, some .rc, some .rc, some .ro, 0, .volatile, .none_, .part⟩]

/-- The entries of chapter 9. -/
def rows09 : List Row := [
  ⟨.cellScaleSlots, 0x4000, 0x4000, 12, 12, .u16, some .const, some .const, some .const, some .const, 4096, .derived, .none_, .whole⟩,
  ⟨.objMoveRecords, 0x4000, 0x4000, 13, 13, .u8, some .const, some .const, some .const, some .const, 32, .derived, .none_, .whole⟩,
  ⟨.partObjTableBase, 0x80a0, 0x80a0, 1, 1, .u64, some .rw, some .rw, some .rw, some .ro, 0, .volatile, .jobStart, .part⟩,
  ⟨.partObjTableCount, 0x80a0, 0x80a0, 2, 2, .u32, some .rw, some .rw, some .rw, some .ro, 0, .volatile, .jobStart, .part⟩,
  ⟨.partScaleTableBase, 0x80a0, 0x80a0, 3, 3, .u64, some .rw, some .rw, some .rw, some .ro, 0, .volatile, .jobStart, .part⟩,
  ⟨.partScaleMirror, 0x80a0, 0x80a0, 4, 4, .u64, some .rw, some .rw, some .rw, some .ro, 0, .volatile, .jobStart, .part⟩,
  ⟨.partNarrowReason, 0x80a0, 0x80a0, 5, 5, .bits32, some .ro, some .ro, some .ro, some .ro, 0, .volatile, .none_, .part⟩,
  ⟨.partObjMoves, 0x80a1, 0x80a1, 1, 1, .u64, some .rc, some .rc, some .rc, some .ro, 0, .volatile, .none_, .part⟩,
  ⟨.partObjMoveBytes, 0x80a1, 0x80a1, 2, 2, .u64, some .rc, some .rc, some .rc, some .ro, 0, .volatile, .none_, .part⟩,
  ⟨.partObjRefused, 0x80a1, 0x80a1, 3, 3, .u64, some .rc, some .rc, some .rc, some .ro, 0, .volatile, .none_, .part⟩,
  ⟨.partObjAborts, 0x80a1, 0x80a1, 4, 4, .u64, some .rc, some .rc, some .rc, some .ro, 0, .volatile, .none_, .part⟩,
  ⟨.partPrefetchLate, 0x80a1, 0x80a1, 5, 5, .u64, some .rc, some .rc, some .rc, some .ro, 0, .volatile, .none_, .part⟩,
  ⟨.partScaleAdvances, 0x80a1, 0x80a1, 6, 6, .u64, some .rc, some .rc, some .rc, some .ro, 0, .volatile, .none_, .part⟩,
  ⟨.partScaleHolds, 0x80a1, 0x80a1, 7, 7, .u64, some .rc, some .rc, some .rc, some .ro, 0, .volatile, .none_, .part⟩]

/-- The entries of chapter 10. -/
def rows10 : List Row := [
  ⟨.mediaDecodeEngines, 0x5000, 0x5000, 1, 1, .u8, some .const, some .const, some .const, some .const, 16, .derived, .none_, .whole⟩,
  ⟨.mediaEncodeEngines, 0x5000, 0x5000, 2, 2, .u8, some .const, some .const, some .const, some .const, 2, .derived, .none_, .whole⟩,
  ⟨.mediaContexts, 0x5000, 0x5000, 3, 3, .u32, some .const, some .const, some .const, some .const, 1048576, .derived, .none_, .whole⟩,
  ⟨.mediaPoolBuffers, 0x5000, 0x5000, 4, 4, .u32, some .const, some .const, some .const, some .const, 65536, .derived, .none_, .whole⟩,
  ⟨.mediaMaxWidth, 0x5000, 0x5000, 5, 5, .u16, some .const, some .const, some .const, some .const, 8192, .derived, .none_, .whole⟩,
  ⟨.mediaMaxHeight, 0x5000, 0x5000, 6, 6, .u16, some .const, some .const, some .const, some .const, 4352, .derived, .none_, .whole⟩,
  ⟨.decPictures, 0x5100, 0x5100, 1, 16, .u64, some .rc, some .rc, none, some .ro, 0, .volatile, .none_, .whole⟩,
  ⟨.decBusyVclk, 0x5100, 0x5100, 17, 32, .u64, some .rc, some .rc, none, some .ro, 0, .volatile, .none_, .whole⟩,
  ⟨.encFrames, 0x5100, 0x5100, 33, 34, .u64, some .rc, some .rc, none, some .ro, 0, .volatile, .none_, .whole⟩,
  ⟨.mediaWindowBlocked, 0x5100, 0x5100, 49, 49, .u64, some .rc, some .rc, none, some .ro, 0, .volatile, .none_, .whole⟩,
  ⟨.partMediaCtxBase, 0x80b0, 0x80b0, 1, 1, .u64, some .rw, some .rw, some .rw, some .ro, 0, .volatile, .jobStart, .part⟩,
  ⟨.partMediaCtxCount, 0x80b0, 0x80b0, 2, 2, .u32, some .rw, some .rw, some .ro, some .ro, 0, .volatile, .jobStart, .part⟩,
  ⟨.partPoolBase, 0x80b1, 0x80b1, 1, 4, .u64, some .rw, some .rw, some .rw, some .ro, 0, .volatile, .jobStart, .part⟩,
  ⟨.partPoolBufSize, 0x80b1, 0x80b1, 5, 8, .u32, some .rw, some .rw, some .rw, some .ro, 0, .volatile, .jobStart, .part⟩,
  ⟨.partPoolBufCount, 0x80b1, 0x80b1, 9, 12, .u32, some .rw, some .rw, some .ro, some .ro, 0, .volatile, .jobStart, .part⟩,
  ⟨.partDecConcealedFrames, 0x80b2, 0x80b2, 1, 1, .u64, some .rc, some .rc, some .rc, some .ro, 0, .volatile, .none_, .part⟩,
  ⟨.partDecConcealedBlocks, 0x80b2, 0x80b2, 2, 2, .u64, some .rc, some .rc, some .rc, some .ro, 0, .volatile, .none_, .part⟩,
  ⟨.partDecBudgetAborts, 0x80b2, 0x80b2, 3, 3, .u64, some .rc, some .rc, some .rc, some .ro, 0, .volatile, .none_, .part⟩,
  ⟨.partDecMissingRefs, 0x80b2, 0x80b2, 4, 4, .u64, some .rc, some .rc, some .rc, some .ro, 0, .volatile, .none_, .part⟩,
  ⟨.partMediaParks, 0x80b2, 0x80b2, 5, 5, .u64, some .rc, some .rc, some .rc, some .ro, 0, .volatile, .none_, .part⟩,
  ⟨.partEncKeyPictures, 0x80b2, 0x80b2, 6, 6, .u64, some .rc, some .rc, some .rc, some .ro, 0, .volatile, .none_, .part⟩]

/-- The entries of chapter 11. -/
def rows11 : List Row := [
  ⟨.mediaTensorWriters, 0x5000, 0x5000, 7, 7, .u8, some .const, some .const, some .const, some .const, 8, .derived, .none_, .whole⟩,
  ⟨.mediaOplistPhases, 0x5000, 0x5000, 8, 8, .u8, some .const, some .const, some .const, some .const, 16, .derived, .none_, .whole⟩,
  ⟨.partSampleCacheBase, 0x80b3, 0x80b3, 1, 1, .u64, some .rw, some .rw, some .rw, some .ro, 0, .volatile, .jobStart, .part⟩,
  ⟨.partSampleCacheSets, 0x80b3, 0x80b3, 2, 2, .u32, some .rw, some .rw, some .rw, some .ro, 0, .volatile, .jobStart, .part⟩,
  ⟨.partSampleCacheSlotBytes, 0x80b3, 0x80b3, 3, 3, .u32, some .rw, some .rw, some .rw, some .ro, 0, .volatile, .jobStart, .part⟩,
  ⟨.partSampleEpoch, 0x80b3, 0x80b3, 4, 4, .u16, some .rw, some .rw, some .rw, some .ro, 0, .volatile, .directory, .part⟩,
  ⟨.partSamples, 0x80b4, 0x80b4, 1, 1, .u64, some .rc, some .rc, some .rc, some .ro, 0, .volatile, .none_, .part⟩,
  ⟨.partSampleFrames, 0x80b4, 0x80b4, 2, 2, .u64, some .rc, some .rc, some .rc, some .ro, 0, .volatile, .none_, .part⟩,
  ⟨.partSampleCacheHits, 0x80b4, 0x80b4, 3, 3, .u64, some .rc, some .rc, some .rc, some .ro, 0, .volatile, .none_, .part⟩,
  ⟨.partSampleCacheMisses, 0x80b4, 0x80b4, 4, 4, .u64, some .rc, some .rc, some .rc, some .ro, 0, .volatile, .none_, .part⟩,
  ⟨.partSampleCacheNoroom, 0x80b4, 0x80b4, 5, 5, .u64, some .rc, some .rc, some .rc, some .ro, 0, .volatile, .none_, .part⟩,
  ⟨.partSampleClipped, 0x80b4, 0x80b4, 6, 6, .u64, some .rc, some .rc, some .rc, some .ro, 0, .volatile, .none_, .part⟩,
  ⟨.partSampleLatePhases, 0x80b4, 0x80b4, 7, 7, .u64, some .rc, some .rc, some .rc, some .ro, 0, .volatile, .none_, .part⟩,
  ⟨.partMediaRejects, 0x80b4, 0x80b4, 8, 8, .u64, some .rc, some .rc, some .rc, some .ro, 0, .volatile, .none_, .part⟩,
  ⟨.partMediaSizeChanges, 0x80b4, 0x80b4, 9, 9, .u64, some .rc, some .rc, some .rc, some .ro, 0, .volatile, .none_, .part⟩]

/-- The entries of chapter 12. -/
def rows12 : List Row := [
  ⟨.netPorts, 0x6000, 0x6000, 1, 1, .u8, some .const, some .const, some .const, some .const, 8, .derived, .none_, .whole⟩,
  ⟨.nctSessions, 0x6000, 0x6000, 2, 2, .u32, some .const, some .const, some .const, some .const, 65536, .derived, .none_, .whole⟩,
  ⟨.nctMessages, 0x6000, 0x6000, 3, 3, .u32, some .const, some .const, some .const, some .const, 1048576, .derived, .none_, .whole⟩,
  ⟨.nctPayloadBytes, 0x6000, 0x6000, 4, 4, .u16, some .const, some .const, some .const, some .const, 4096, .derived, .none_, .whole⟩,
  ⟨.netMacBase, 0x6000, 0x6000, 5, 5, .u64, some .const, some .const, none, some .const, 0, .fuse, .none_, .whole⟩,
  ⟨.netSrcPrefix, 0x6000, 0x6000, 6, 6, .u64, some .const, some .const, some .const, some .const, 0, .fuse, .none_, .whole⟩,
  ⟨.netFeatureLevel, 0x6000, 0x6000, 7, 7, .u16, some .ro, some .ro, some .ro, some .ro, 0, .derived, .none_, .whole⟩,
  ⟨.netMinPeerLevel, 0x6000, 0x6000, 8, 8, .u16, some .ro, some .ro, some .ro, some .ro, 0, .derived, .none_, .whole⟩,
  ⟨.netNctUdpPort, 0x6000, 0x6000, 9, 9, .u16, some .rw, some .rw, some .ro, some .ro, 20035, .persistent, .moduleReset, .whole⟩,
  ⟨.netNctDscp, 0x6000, 0x6000, 10, 10, .u8, some .rw, some .rw, some .ro, some .ro, 0, .persistent, .atWrite, .whole⟩,
  ⟨.netPortMode, 0x6010, 0x6010, 1, 8, .u8, some .rw, some .rw, none, some .ro, 0, .persistent, .linkRestart, .whole⟩,
  ⟨.netPortState, 0x6010, 0x6010, 17, 48, .u8, some .ro, some .ro, none, some .ro, 0, .derived, .none_, .whole⟩,
  ⟨.netPortNexthopMac, 0x6020, 0x6020, 1, 32, .u64, some .rw, some .rw, none, some .ro, 0, .volatile, .atWrite, .whole⟩,
  ⟨.netPortTxBytes, 0x6030, 0x6030, 1, 32, .u64, some .rc, some .rc, none, some .ro, 0, .volatile, .none_, .whole⟩,
  ⟨.netPortRxBytes, 0x6031, 0x6031, 1, 32, .u64, some .rc, some .rc, none, some .ro, 0, .volatile, .none_, .whole⟩,
  ⟨.netPortFecCorrected, 0x6032, 0x6032, 1, 32, .u64, some .rc, some .rc, none, some .ro, 0, .volatile, .none_, .whole⟩,
  ⟨.netPortFecUncorrected, 0x6033, 0x6033, 1, 32, .u64, some .rc, some .rc, none, some .ro, 0, .volatile, .none_, .whole⟩,
  ⟨.netPortRxDropped, 0x6034, 0x6034, 1, 32, .u64, some .rc, some .rc, none, some .ro, 0, .volatile, .none_, .whole⟩,
  ⟨.netRxAuthFail, 0x6040, 0x6040, 1, 1, .u64, some .rc, some .rc, none, some .ro, 0, .volatile, .none_, .whole⟩,
  ⟨.netTxFenceDrops, 0x6040, 0x6040, 2, 2, .u64, some .rc, some .rc, none, some .ro, 0, .volatile, .none_, .whole⟩,
  ⟨.netPauseIgnored, 0x6040, 0x6040, 3, 3, .u64, some .rc, some .rc, none, some .ro, 0, .volatile, .none_, .whole⟩,
  ⟨.netOcTxCapped, 0x6040, 0x6040, 4, 4, .u64, some .rc, some .rc, none, some .ro, 0, .volatile, .none_, .whole⟩,
  ⟨.partNctIid, 0x80c0, 0x80c0, 1, 1, .u64, some .rw, some .rw, some .ro, some .ro, 0, .volatile, .jobStart, .part⟩,
  ⟨.partNctSessionQuota, 0x80c0, 0x80c0, 2, 2, .u32, some .rw, some .rw, some .ro, some .ro, 0, .volatile, .formation, .part⟩]

/-- The entries of chapter 12. -/
def rows12b : List Row := [
  ⟨.partNctPortMask, 0x80c0, 0x80c0, 3, 3, .bits32, some .rw, some .rw, some .ro, some .ro, 0, .volatile, .formation, .part⟩,
  ⟨.partNctWindowPkts, 0x80c0, 0x80c0, 4, 4, .u16, some .rw, some .rw, some .rw, some .ro, 1024, .volatile, .sessionOpen, .part⟩,
  ⟨.partNctAccept, 0x80c0, 0x80c0, 5, 5, .bool, some .rw, some .rw, some .rw, some .ro, 0, .volatile, .atWrite, .part⟩,
  ⟨.partNctFailMs, 0x80c0, 0x80c0, 6, 6, .u16, some .rw, some .rw, some .rw, some .ro, 1000, .volatile, .sessionOpen, .part⟩,
  ⟨.partNetCreditMin, 0x80c0, 0x80c0, 7, 7, .u32, some .rw, some .rw, some .ro, some .ro, 512, .volatile, .formation, .part⟩,
  ⟨.partNctRegionBase, 0x80c1, 0x80c1, 1, 1, .u64, some .rw, some .rw, some .rw, some .ro, 0, .volatile, .jobStart, .part⟩,
  ⟨.partNctRegionCount, 0x80c1, 0x80c1, 2, 2, .u32, some .rw, some .rw, some .rw, some .ro, 0, .volatile, .jobStart, .part⟩,
  ⟨.partNctErrqBase, 0x80c1, 0x80c1, 3, 3, .u64, some .rw, some .rw, some .rw, some .ro, 0, .volatile, .jobStart, .part⟩,
  ⟨.partNctErrqSlots, 0x80c1, 0x80c1, 4, 4, .u32, some .rw, some .rw, some .rw, some .ro, 0, .volatile, .jobStart, .part⟩,
  ⟨.partNctTxPackets, 0x80c2, 0x80c2, 1, 1, .u64, some .rc, some .rc, some .rc, some .ro, 0, .volatile, .none_, .part⟩,
  ⟨.partNctRetransmits, 0x80c2, 0x80c2, 2, 2, .u64, some .rc, some .rc, some .rc, some .ro, 0, .volatile, .none_, .part⟩,
  ⟨.partNctCeMarks, 0x80c2, 0x80c2, 3, 3, .u64, some .rc, some .rc, some .rc, some .ro, 0, .volatile, .none_, .part⟩,
  ⟨.partNctRnrSent, 0x80c2, 0x80c2, 4, 4, .u64, some .rc, some .rc, some .rc, some .ro, 0, .volatile, .none_, .part⟩,
  ⟨.partNctRnrReceived, 0x80c2, 0x80c2, 5, 5, .u64, some .rc, some .rc, some .rc, some .ro, 0, .volatile, .none_, .part⟩,
  ⟨.partNctLateDropped, 0x80c2, 0x80c2, 6, 6, .u64, some .rc, some .rc, some .rc, some .ro, 0, .volatile, .none_, .part⟩,
  ⟨.partNctLateSticky, 0x80c2, 0x80c2, 7, 7, .bool, some .w1c, some .w1c, some .w1c, some .ro, 0, .volatile, .none_, .part⟩,
  ⟨.partNctErrqOverflow, 0x80c2, 0x80c2, 8, 8, .bool, some .w1c, some .w1c, some .w1c, some .ro, 0, .volatile, .none_, .part⟩,
  ⟨.partNctDupDropped, 0x80c2, 0x80c2, 9, 9, .u64, some .rc, some .rc, some .rc, some .ro, 0, .volatile, .none_, .part⟩,
  ⟨.partNctRekeys, 0x80c2, 0x80c2, 10, 10, .u64, some .rc, some .rc, some .rc, some .ro, 0, .volatile, .none_, .part⟩]

/-- The entries of chapter 13. -/
def rows13 : List Row := [
  ⟨.collEngines, 0x6000, 0x6000, 11, 11, .u8, some .const, some .const, some .const, some .const, 2, .derived, .none_, .whole⟩,
  ⟨.collCommunicators, 0x6000, 0x6000, 12, 12, .u16, some .const, some .const, some .const, some .const, 4096, .derived, .none_, .whole⟩,
  ⟨.collMaxMembers, 0x6000, 0x6000, 13, 13, .u32, some .const, some .const, some .const, some .const, 131072, .derived, .none_, .whole⟩,
  ⟨.collEngineBytes, 0x6100, 0x6100, 1, 2, .u64, some .rc, some .rc, none, some .ro, 0, .volatile, .none_, .whole⟩,
  ⟨.partCollCommBase, 0x80d0, 0x80d0, 1, 1, .u64, some .rw, some .rw, some .rw, some .ro, 0, .volatile, .jobStart, .part⟩,
  ⟨.partCollCommCount, 0x80d0, 0x80d0, 2, 2, .u16, some .rw, some .rw, some .ro, some .ro, 0, .volatile, .formation, .part⟩,
  ⟨.partCollEpoch, 0x80d0, 0x80d0, 3, 3, .u16, some .rw, some .rw, some .rw, some .ro, 0, .volatile, .jobStart, .part⟩,
  ⟨.partCollCalls, 0x80d1, 0x80d1, 1, 1, .u64, some .rc, some .rc, some .rc, some .ro, 0, .volatile, .none_, .part⟩,
  ⟨.partCollBytes, 0x80d1, 0x80d1, 2, 2, .u64, some .rc, some .rc, some .rc, some .ro, 0, .volatile, .none_, .part⟩,
  ⟨.partCollLateEpoch, 0x80d1, 0x80d1, 3, 3, .u64, some .rc, some .rc, some .rc, some .ro, 0, .volatile, .none_, .part⟩,
  ⟨.partCollLateEpochSticky, 0x80d1, 0x80d1, 4, 4, .bool, some .w1c, some .w1c, some .w1c, some .ro, 0, .volatile, .none_, .part⟩,
  ⟨.partCollFirstLate, 0x80d1, 0x80d1, 5, 5, .u64, some .rc, some .rc, some .rc, some .ro, 0, .volatile, .none_, .part⟩,
  ⟨.partCollSaturations, 0x80d1, 0x80d1, 6, 6, .u64, some .rc, some .rc, some .rc, some .ro, 0, .volatile, .none_, .part⟩,
  ⟨.partCollMismatch, 0x80d1, 0x80d1, 7, 7, .u64, some .rc, some .rc, some .rc, some .ro, 0, .volatile, .none_, .part⟩]

/-- The entries of chapter 14. -/
def rows14 : List Row := [
  ⟨.partState, 0x8000, 0x8000, 1, 1, .u8, some .ro, some .ro, some .ro, some .ro, 0, .volatile, .none_, .part⟩,
  ⟨.partCommand, 0x8000, 0x8000, 2, 2, .u8, some .wo, some .wo, none, none, 0, .derived, .atWrite, .part⟩,
  ⟨.partFormResult, 0x8000, 0x8000, 3, 3, .u8, some .ro, some .ro, none, some .ro, 0, .volatile, .none_, .part⟩,
  ⟨.partCdMask, 0x8000, 0x8000, 4, 4, .bits32, some .rw, some .rw, some .ro, some .ro, 0, .volatile, .formation, .part⟩,
  ⟨.partGroupMask, 0x8000, 0x8000, 5, 5, .bits32, some .rw, some .rw, some .ro, some .ro, 0, .volatile, .formation, .part⟩,
  ⟨.partReplace, 0x8000, 0x8000, 6, 6, .u8, some .rw, some .rw, none, some .ro, 0, .volatile, .replaceDie, .part⟩,
  ⟨.partRunningJob, 0x8000, 0x8000, 7, 7, .u32, some .ro, some .ro, some .ro, some .ro, 2147483648, .volatile, .none_, .part⟩,
  ⟨.partParkedJobs, 0x8000, 0x8000, 8, 8, .u8, some .ro, some .ro, some .ro, some .ro, 0, .volatile, .none_, .part⟩,
  ⟨.partLastTenant, 0x8000, 0x8000, 9, 9, .u16, some .ro, some .ro, none, some .ro, 0, .volatile, .none_, .part⟩,
  ⟨.partMediaExclusive, 0x8000, 0x8000, 10, 10, .bits32, some .rw, some .rw, some .ro, some .ro, 0, .volatile, .formation, .part⟩,
  ⟨.partPortExclusive, 0x8000, 0x8000, 11, 11, .bits32, some .rw, some .rw, some .ro, some .ro, 0, .volatile, .formation, .part⟩,
  ⟨.partDecShare, 0x8001, 0x8001, 1, 16, .u8, some .rw, some .rw, some .ro, some .ro, 0, .volatile, .formation, .part⟩,
  ⟨.partEncShare, 0x8001, 0x8001, 17, 18, .u8, some .rw, some .rw, some .ro, some .ro, 0, .volatile, .formation, .part⟩,
  ⟨.partPortShare, 0x8001, 0x8001, 33, 64, .u8, some .rw, some .rw, some .ro, some .ro, 0, .volatile, .formation, .part⟩,
  ⟨.partQueueBase, 0x8002, 0x8002, 1, 64, .u64, some .rw, some .rw, some .rw, some .ro, 0, .volatile, .enable, .part⟩,
  ⟨.partQueueConfig, 0x8003, 0x8003, 1, 64, .u32, some .rw, some .rw, some .ro, some .ro, 0, .volatile, .enable, .part⟩,
  ⟨.partQueueTenant, 0x8004, 0x8004, 1, 64, .u16, some .rw, some .rw, none, some .ro, 0, .volatile, .enable, .part⟩,
  ⟨.partCompletionBase, 0x8005, 0x8005, 1, 1, .u64, some .rw, some .rw, some .rw, some .ro, 0, .volatile, .jobStart, .part⟩,
  ⟨.partCompletionSlots, 0x8005, 0x8005, 2, 2, .u32, some .rw, some .rw, some .rw, some .ro, 0, .volatile, .jobStart, .part⟩,
  ⟨.partQueueFault, 0x8005, 0x8005, 3, 3, .u64, some .w1c, some .w1c, some .w1c, some .ro, 0, .volatile, .none_, .part⟩,
  ⟨.partCompletionStalls, 0x8005, 0x8005, 4, 4, .u64, some .rc, some .rc, some .rc, some .ro, 0, .volatile, .none_, .part⟩,
  ⟨.partPreemptions, 0x8005, 0x8005, 5, 5, .u64, some .rc, some .rc, some .rc, some .ro, 0, .volatile, .none_, .part⟩,
  ⟨.partSemDiscarded, 0x8005, 0x8005, 6, 6, .u64, some .rc, some .rc, some .rc, some .ro, 0, .volatile, .none_, .part⟩,
  ⟨.baroEntries, 0xa100, 0xa100, 1, 64, .u64, some .rc, some .rc, some .rc, some .ro, 0, .volatile, .none_, .part⟩]

/-- The entries of chapter 14. -/
def rows14b : List Row := [
  ⟨.baroWaitSumNs, 0xa101, 0xa101, 1, 64, .u64, some .rc, some .rc, some .rc, some .ro, 0, .volatile, .none_, .part⟩,
  ⟨.baroWaitMaxNs, 0xa102, 0xa102, 1, 64, .u64, some .rc, some .rc, some .rc, some .ro, 0, .volatile, .none_, .part⟩,
  ⟨.baroPreemptions, 0xa103, 0xa103, 1, 64, .u64, some .rc, some .rc, some .rc, some .ro, 0, .volatile, .none_, .part⟩,
  ⟨.baroPreemptLostNs, 0xa104, 0xa104, 1, 64, .u64, some .rc, some .rc, some .rc, some .ro, 0, .volatile, .none_, .part⟩,
  ⟨.baroWaitHist, 0xa200, 0xa20f, 1, 64, .u64, some .rc, some .rc, some .rc, some .ro, 0, .volatile, .none_, .part⟩]

/-- The entries of chapter 15. -/
def rows15 : List Row := [
  ⟨.fwImageWrite, 0x1100, 0x1100, 1, 1, .dom, some .wo, some .wo, none, none, 0, .persistent, .label, .whole⟩,
  ⟨.fwActivate, 0x1100, 0x1100, 2, 2, .u8, some .wo, some .wo, none, none, 0, .derived, .label, .whole⟩,
  ⟨.fwSlotState, 0x1100, 0x1100, 3, 3, .bits32, some .ro, some .ro, none, some .ro, 0, .persistent, .none_, .whole⟩,
  ⟨.attestNonce, 0x1200, 0x1200, 1, 1, .dom, some .wo, some .wo, none, some .wo, 0, .volatile, .atWrite, .whole⟩,
  ⟨.attestReport, 0x1200, 0x1200, 2, 2, .dom, some .ro, some .ro, none, some .ro, 0, .volatile, .none_, .whole⟩,
  ⟨.attestCertChain, 0x1200, 0x1200, 3, 3, .dom, some .ro, some .ro, some .ro, some .ro, 0, .derived, .none_, .whole⟩,
  ⟨.blockClockStop, 0x2110, 0x2110, 1, 1, .bits32, some .rw, some .rw, none, some .rw, 0, .volatile, .label, .whole⟩,
  ⟨.blockPowerOff, 0x2110, 0x2110, 2, 2, .bits32, some .rw, some .rw, none, some .rw, 0, .volatile, .label, .whole⟩,
  ⟨.secFuseState, 0x7000, 0x7000, 1, 1, .bits32, some .const, none, none, none, 0, .fuse, .none_, .whole⟩,
  ⟨.secDebugState, 0x7000, 0x7000, 2, 2, .bits32, some .ro, none, none, none, 0, .volatile, .none_, .whole⟩,
  ⟨.secBlockOwner, 0x7000, 0x7000, 3, 3, .bits32, some .rw, none, none, none, 520093696, .volatile, .atWrite, .whole⟩,
  ⟨.secDeniedCount, 0x7000, 0x7000, 4, 4, .u64, some .rc, none, none, none, 0, .volatile, .none_, .whole⟩,
  ⟨.secDebugChallenge, 0x7000, 0x7000, 5, 5, .dom, some .ro, none, none, none, 0, .volatile, .none_, .whole⟩,
  ⟨.secDebugToken, 0x7000, 0x7000, 6, 6, .dom, some .wo, none, none, none, 0, .volatile, .moduleReset, .whole⟩,
  ⟨.secSvn, 0x7000, 0x7000, 7, 7, .u16, some .ro, none, none, none, 0, .fuse, .none_, .whole⟩,
  ⟨.secKeySlotsUsed, 0x7010, 0x7010, 1, 1, .u32, some .ro, none, none, none, 0, .volatile, .none_, .whole⟩,
  ⟨.secEntropyState, 0x7010, 0x7010, 2, 2, .u8, some .ro, none, none, none, 0, .volatile, .none_, .whole⟩,
  ⟨.partEncrypt, 0x80e0, 0x80e0, 1, 1, .bool, some .rw, some .rw, some .ro, some .ro, 0, .volatile, .formation, .part⟩,
  ⟨.partAttestNonce, 0x80e0, 0x80e0, 2, 2, .dom, some .wo, some .wo, some .wo, none, 0, .volatile, .atWrite, .part⟩,
  ⟨.partAttestReport, 0x80e0, 0x80e0, 3, 3, .dom, some .ro, some .ro, some .ro, some .ro, 0, .volatile, .none_, .part⟩,
  ⟨.partMeasLog, 0x80e0, 0x80e0, 4, 4, .dom, some .ro, some .ro, some .ro, some .ro, 0, .volatile, .none_, .part⟩,
  ⟨.partMeasReason, 0x80e0, 0x80e0, 5, 5, .bits32, some .ro, some .ro, some .ro, some .ro, 0, .volatile, .none_, .part⟩,
  ⟨.partNctPeerPolicy, 0x80e0, 0x80e0, 6, 6, .bits32, some .rw, some .rw, some .rw, some .ro, 0, .volatile, .sessionOpen, .part⟩,
  ⟨.partLoadTarget, 0x80e0, 0x80e0, 7, 7, .u64, some .rw, some .rw, none, some .ro, 0, .volatile, .label, .part⟩]

/-- The entries of chapter 15. -/
def rows15b : List Row := [
  ⟨.partLoadLength, 0x80e0, 0x80e0, 8, 8, .u64, some .rw, some .rw, none, some .ro, 0, .volatile, .loadTarget, .part⟩,
  ⟨.partLoadTenant, 0x80e0, 0x80e0, 9, 9, .u16, some .rw, some .rw, none, some .ro, 0, .volatile, .loadTarget, .part⟩,
  ⟨.partMeasRegionBase, 0x80e1, 0x80e1, 1, 8, .u64, some .rw, some .rw, some .ro, some .ro, 0, .volatile, .jobStart, .part⟩,
  ⟨.partMeasRegionSize, 0x80e1, 0x80e1, 9, 16, .u64, some .rw, some .rw, some .ro, some .ro, 0, .volatile, .jobStart, .part⟩,
  ⟨.partNctFwAllow, 0x80e2, 0x80e2, 1, 4, .dom, some .rw, some .rw, some .rw, some .ro, 0, .volatile, .sessionOpen, .part⟩]

/-- The entries of chapter 16. -/
def rows16 : List Row := [
  ⟨.devPartNumber, 0x1000, 0x1000, 1, 1, .vis, some .const, some .const, some .const, some .const, 0, .derived, .none_, .whole⟩,
  ⟨.devSerial, 0x1000, 0x1000, 2, 2, .vis, some .const, some .const, some .const, some .const, 0, .fuse, .none_, .whole⟩,
  ⟨.devStepping, 0x1000, 0x1000, 3, 3, .u16, some .const, some .const, some .const, some .const, 0, .fuse, .none_, .whole⟩,
  ⟨.devFwVersion, 0x1000, 0x1000, 4, 4, .u32, some .ro, some .ro, some .ro, some .ro, 0, .derived, .none_, .whole⟩,
  ⟨.dictVersion, 0x1000, 0x1000, 5, 5, .u16, some .const, some .const, some .const, some .const, 1, .derived, .none_, .whole⟩,
  ⟨.commMctpIana, 0x1010, 0x1010, 1, 1, .u32, some .const, some .const, none, some .const, 0, .derived, .none_, .whole⟩,
  ⟨.commEthMac, 0x1010, 0x1010, 2, 2, .u64, some .const, some .const, none, some .const, 0, .fuse, .none_, .whole⟩,
  ⟨.commEthIpv4Addr, 0x1010, 0x1010, 3, 3, .u32, some .rw, some .rw, none, some .ro, 0, .persistent, .moduleReset, .whole⟩,
  ⟨.commEthIpv4Mask, 0x1010, 0x1010, 4, 4, .u32, some .rw, some .rw, none, some .ro, 0, .persistent, .moduleReset, .whole⟩,
  ⟨.commEthIpv4Gateway, 0x1010, 0x1010, 5, 5, .u32, some .rw, some .rw, none, some .ro, 0, .persistent, .moduleReset, .whole⟩,
  ⟨.commEthUdpPort, 0x1010, 0x1010, 6, 6, .u16, some .rw, some .rw, none, some .ro, 20036, .persistent, .moduleReset, .whole⟩,
  ⟨.commEthClass, 0x1010, 0x1010, 7, 7, .u8, some .rw, some .rw, none, some .ro, 0, .persistent, .atWrite, .whole⟩,
  ⟨.commEthAllowAddr, 0x1010, 0x1010, 8, 8, .u32, some .rw, some .rw, none, some .ro, 0, .persistent, .atWrite, .whole⟩,
  ⟨.commEthAllowMask, 0x1010, 0x1010, 9, 9, .u32, some .rw, some .rw, none, some .ro, 0, .persistent, .atWrite, .whole⟩,
  ⟨.commRestoreDefaults, 0x1010, 0x1010, 10, 10, .u8, some .wo, some .wo, none, none, 0, .derived, .moduleReset, .whole⟩,
  ⟨.commRequests, 0x1020, 0x1020, 1, 1, .u64, some .rc, some .rc, none, some .ro, 0, .volatile, .none_, .whole⟩,
  ⟨.commErrors, 0x1020, 0x1020, 2, 2, .u64, some .rc, some .rc, none, some .ro, 0, .volatile, .none_, .whole⟩,
  ⟨.commBusy, 0x1020, 0x1020, 3, 3, .u64, some .rc, some .rc, none, some .ro, 0, .volatile, .none_, .whole⟩,
  ⟨.commEthDropped, 0x1020, 0x1020, 4, 4, .u64, some .rc, some .rc, none, some .ro, 0, .volatile, .none_, .whole⟩,
  ⟨.commReplays, 0x1020, 0x1020, 5, 5, .u64, some .rc, some .rc, none, some .ro, 0, .volatile, .none_, .whole⟩,
  ⟨.anemSelect, 0xa000, 0xa000, 1, 32, .u32, some .rw, some .rw, none, some .ro, 0, .volatile, .atWrite, .whole⟩,
  ⟨.anemCount, 0xa001, 0xa001, 1, 32, .u64, some .rc, some .rc, none, some .ro, 0, .volatile, .none_, .whole⟩,
  ⟨.anemEnable, 0xa002, 0xa002, 1, 1, .bits32, some .rw, some .rw, none, some .ro, 0, .volatile, .atWrite, .whole⟩]

/-- The entries of chapter 17. -/
def rows17 : List Row := [
  ⟨.errModuleStatus, 0x9000, 0x9000, 1, 1, .bits32, some .w1c, some .w1c, none, some .ro, 0, .volatile, .none_, .whole⟩,
  ⟨.errResetCause, 0x9000, 0x9000, 2, 2, .u8, some .ro, some .ro, none, some .ro, 0, .derived, .none_, .whole⟩,
  ⟨.errNotifyVector, 0x9000, 0x9000, 3, 3, .u16, some .rw, some .rw, none, some .ro, 0, .volatile, .atWrite, .whole⟩,
  ⟨.errCellSpareLimit, 0x9000, 0x9000, 4, 4, .u8, some .rw, some .rw, none, some .ro, 2, .persistent, .atWrite, .whole⟩,
  ⟨.errGroupRetireLimit, 0x9000, 0x9000, 5, 5, .u16, some .rw, some .rw, none, some .ro, 64, .persistent, .atWrite, .whole⟩,
  ⟨.errCorrectedTotal, 0x9001, 0x9001, 1, 1, .u64, some .rc, some .rc, none, some .ro, 0, .volatile, .none_, .whole⟩,
  ⟨.errDeferredTotal, 0x9001, 0x9001, 2, 2, .u64, some .rc, some .rc, none, some .ro, 0, .volatile, .none_, .whole⟩,
  ⟨.errContainedTotal, 0x9001, 0x9001, 3, 3, .u64, some .rc, some .rc, none, some .ro, 0, .volatile, .none_, .whole⟩,
  ⟨.errFatalResets, 0x9001, 0x9001, 4, 4, .u32, some .ro, some .ro, none, some .ro, 0, .persistent, .none_, .whole⟩,
  ⟨.errPartStatus, 0x9010, 0x9010, 1, 16, .bits32, some .w1c, some .w1c, some .w1c, some .ro, 0, .volatile, .none_, .perPart⟩,
  ⟨.errPartLast, 0x9011, 0x9011, 1, 16, .u64, some .ro, some .ro, some .ro, some .ro, 0, .volatile, .none_, .perPart⟩,
  ⟨.errRecoveryState, 0x9020, 0x9020, 1, 1, .u8, some .ro, some .ro, none, some .ro, 0, .volatile, .none_, .whole⟩,
  ⟨.errRecoveryQueued, 0x9020, 0x9020, 2, 2, .u8, some .ro, some .ro, none, some .ro, 0, .volatile, .none_, .whole⟩,
  ⟨.errEscalations, 0x9020, 0x9020, 3, 3, .u64, some .rc, some .rc, none, some .ro, 0, .volatile, .none_, .whole⟩,
  ⟨.errPartReset, 0x9030, 0x9030, 1, 1, .u8, some .wo, some .wo, none, none, 0, .derived, .atWrite, .whole⟩,
  ⟨.errSpareSwap, 0x9030, 0x9030, 2, 2, .u16, some .wo, some .wo, none, none, 0, .derived, .atWrite, .whole⟩,
  ⟨.errGroupRetire, 0x9030, 0x9030, 3, 3, .u8, some .wo, some .wo, none, none, 0, .derived, .atWrite, .whole⟩,
  ⟨.almWindow, 0x9100, 0x9100, 1, 1, .dom, some .ro, some .ro, none, some .ro, 0, .derived, .none_, .whole⟩,
  ⟨.almCursor, 0x9100, 0x9100, 2, 2, .u32, some .rw, some .rw, none, some .rw, 0, .volatile, .atWrite, .whole⟩,
  ⟨.almNextSeq, 0x9100, 0x9100, 3, 3, .u32, some .ro, some .ro, none, some .ro, 0, .derived, .none_, .whole⟩,
  ⟨.almOldestSeq, 0x9100, 0x9100, 4, 4, .u32, some .ro, some .ro, none, some .ro, 0, .derived, .none_, .whole⟩,
  ⟨.almReadMark, 0x9100, 0x9100, 5, 5, .u32, some .rw, some .rw, none, some .ro, 0, .persistent, .atWrite, .whole⟩,
  ⟨.almLost, 0x9100, 0x9100, 6, 6, .u64, some .rc, some .rc, none, some .ro, 0, .volatile, .none_, .whole⟩,
  ⟨.almDropped, 0x9100, 0x9100, 7, 7, .u64, some .rc, some .rc, none, some .ro, 0, .volatile, .none_, .whole⟩]

/-- The entries of chapter 17. -/
def rows17b : List Row := [
  ⟨.almClear, 0x9100, 0x9100, 8, 8, .u8, some .wo, none, none, none, 0, .derived, .atWrite, .whole⟩,
  ⟨.almOpSeconds, 0x9100, 0x9100, 9, 9, .u64, some .ro, some .ro, none, some .ro, 0, .derived, .none_, .whole⟩,
  ⟨.almPowerCycles, 0x9100, 0x9100, 10, 10, .u32, some .ro, some .ro, none, some .ro, 0, .derived, .none_, .whole⟩]

/-- The entries of chapter 18. -/
def rows18 : List Row := [
  ⟨.bootStage, 0x1300, 0x1300, 1, 1, .u8, some .ro, some .ro, none, some .ro, 0, .derived, .none_, .whole⟩,
  ⟨.bootFailCode, 0x1300, 0x1300, 2, 2, .u8, some .ro, some .ro, none, some .ro, 0, .volatile, .none_, .whole⟩,
  ⟨.bootTimeMs, 0x1300, 0x1300, 3, 3, .u32, some .ro, some .ro, none, some .ro, 0, .volatile, .none_, .whole⟩,
  ⟨.bootStraps, 0x1300, 0x1300, 4, 4, .bits32, some .ro, some .ro, none, some .ro, 0, .derived, .none_, .whole⟩,
  ⟨.bootAttempts, 0x1300, 0x1300, 5, 5, .u8, some .ro, some .ro, none, some .ro, 0, .persistent, .none_, .whole⟩,
  ⟨.bootFallbacks, 0x1300, 0x1300, 6, 6, .u32, some .ro, some .ro, none, some .ro, 0, .persistent, .none_, .whole⟩,
  ⟨.bootMarginAtStart, 0x1300, 0x1300, 7, 7, .bool, some .rw, some .rw, none, some .ro, 0, .persistent, .moduleReset, .whole⟩,
  ⟨.pcieLinkStatus, 0x1310, 0x1310, 1, 1, .bits32, some .ro, some .ro, none, some .ro, 0, .derived, .none_, .whole⟩,
  ⟨.mgmtLinkStatus, 0x1310, 0x1310, 2, 2, .bits32, some .ro, some .ro, none, some .ro, 0, .derived, .none_, .whole⟩,
  ⟨.pcieLinkRetrains, 0x1310, 0x1310, 3, 3, .u64, some .rc, some .rc, none, some .ro, 0, .volatile, .none_, .whole⟩,
  ⟨.netPortRestarts, 0x1311, 0x1311, 1, 8, .u64, some .rc, some .rc, none, some .ro, 0, .volatile, .none_, .whole⟩,
  ⟨.memGroupFailedChannels, 0x1320, 0x1320, 1, 16, .bits32, some .ro, some .ro, none, some .ro, 0, .volatile, .none_, .whole⟩,
  ⟨.memGroupTrainMs, 0x1320, 0x1320, 17, 32, .u16, some .ro, some .ro, none, some .ro, 0, .volatile, .none_, .whole⟩,
  ⟨.memGroupRetrain, 0x1321, 0x1321, 1, 1, .u8, some .wo, some .wo, none, none, 0, .derived, .atWrite, .whole⟩,
  ⟨.pinFunction, 0x2400, 0x2400, 1, 32, .u8, some .rw, some .rw, none, some .ro, 0, .persistent, .label, .whole⟩,
  ⟨.pinState, 0x2401, 0x2401, 1, 32, .u8, some .ro, some .ro, none, some .ro, 0, .derived, .none_, .whole⟩,
  ⟨.gpioOut, 0x2402, 0x2402, 1, 1, .bits32, some .rw, some .rw, none, some .rw, 0, .volatile, .atWrite, .whole⟩,
  ⟨.gpioIn, 0x2402, 0x2402, 2, 2, .bits32, some .ro, some .ro, none, some .ro, 0, .derived, .none_, .whole⟩,
  ⟨.marginRequest, 0xf000, 0xf000, 1, 1, .u64, some .wo, some .wo, none, some .wo, 0, .derived, .atWrite, .whole⟩,
  ⟨.marginState, 0xf000, 0xf000, 2, 2, .u8, some .ro, some .ro, none, some .ro, 0, .volatile, .none_, .whole⟩,
  ⟨.marginResult, 0xf000, 0xf000, 3, 3, .dom, some .ro, some .ro, none, some .ro, 0, .volatile, .none_, .whole⟩,
  ⟨.marginStartResult, 0xf000, 0xf000, 4, 4, .dom, some .ro, some .ro, none, some .ro, 0, .volatile, .none_, .whole⟩,
  ⟨.ethLaneEye, 0xf010, 0xf010, 1, 64, .u64, some .ro, some .ro, none, some .ro, 0, .derived, .none_, .whole⟩,
  ⟨.pcieLaneMargin, 0xf020, 0xf020, 1, 16, .u32, some .ro, some .ro, none, some .ro, 0, .volatile, .none_, .whole⟩]

/-- The entries of chapter 19. -/
def rows19 : List Row := [
  ⟨.modTdpW, 0x2200, 0x2200, 1, 1, .u16, some .const, some .const, none, some .const, 2800, .derived, .none_, .whole⟩,
  ⟨.modPowerLimitW, 0x2200, 0x2200, 2, 2, .u16, some .const, some .const, none, some .const, 3000, .fuse, .none_, .whole⟩,
  ⟨.modPowerCapW, 0x2200, 0x2200, 3, 3, .u16, some .rw, some .rw, none, some .ro, 3000, .persistent, .atWrite, .whole⟩,
  ⟨.modInputMv, 0x2200, 0x2200, 4, 4, .u32, some .ro, some .ro, none, some .ro, 0, .derived, .none_, .whole⟩,
  ⟨.modInputMa, 0x2200, 0x2200, 5, 5, .u32, some .ro, some .ro, none, some .ro, 0, .derived, .none_, .whole⟩,
  ⟨.modInputPowerW, 0x2200, 0x2200, 6, 6, .u16, some .ro, some .ro, none, some .ro, 0, .derived, .none_, .whole⟩,
  ⟨.modEnergyJ, 0x2200, 0x2200, 7, 7, .u64, some .ro, some .ro, none, some .ro, 0, .volatile, .none_, .whole⟩,
  ⟨.modThrottleSteps, 0x2200, 0x2200, 8, 8, .u8, some .ro, some .ro, none, some .ro, 0, .volatile, .none_, .whole⟩,
  ⟨.modThrottleEvents, 0x2200, 0x2200, 9, 9, .u64, some .rc, some .rc, none, some .ro, 0, .volatile, .none_, .whole⟩,
  ⟨.dieTemp, 0x2210, 0x2210, 1, 40, .s32, some .ro, some .ro, none, some .ro, 0, .derived, .none_, .whole⟩,
  ⟨.coldPlateTemp, 0x2210, 0x2210, 49, 49, .s32, some .ro, some .ro, none, some .ro, 0, .derived, .none_, .whole⟩,
  ⟨.tempThrottleC, 0x2210, 0x2210, 50, 50, .u8, some .const, some .const, none, some .const, 95, .derived, .none_, .whole⟩,
  ⟨.tempTripC, 0x2210, 0x2210, 51, 51, .u8, some .const, some .const, none, some .const, 115, .derived, .none_, .whole⟩,
  ⟨.modTripLatched, 0x2210, 0x2210, 52, 52, .bool, some .ro, some .ro, none, some .ro, 0, .derived, .none_, .whole⟩,
  ⟨.holdupCapUf, 0x2220, 0x2220, 1, 1, .u16, some .ro, some .ro, none, some .ro, 0, .derived, .none_, .whole⟩,
  ⟨.holdupFault, 0x2220, 0x2220, 2, 2, .bool, some .ro, some .ro, none, some .ro, 0, .volatile, .none_, .whole⟩]

/-- The whole catalogue. -/
def catalogue : List Row :=
  rows01 ++ rows02 ++ rows03 ++ rows04 ++ rows05 ++ rows06 ++ rows07 ++ rows08 ++ rows09 ++ rows10 ++ rows11 ++ rows12 ++ rows12b ++ rows13 ++ rows14 ++ rows14b ++ rows15 ++ rows15b ++ rows16 ++ rows17 ++ rows17b ++ rows18 ++ rows19

/-- The index at partition 0 of an index of the partition ranges (R380): 0x8000 + 0x100p and
0xA100 + 16p, 0xA200 + 16p. -/
def baseIndex (i : Nat) : Nat :=
  if 0x8000 ≤ i ∧ i < 0x9000 then 0x8000 + i % 0x100
  else if 0xA100 ≤ i ∧ i < 0xA200 then 0xA100 + i % 16
  else if 0xA200 ≤ i ∧ i < 0xA300 then 0xA200 + i % 16
  else i

/-- The partition of an index of the partition ranges. -/
def indexPart (i : Nat) : Option Nat :=
  if 0x8000 ≤ i ∧ i < 0x9000 then some ((i - 0x8000) / 0x100)
  else if 0xA100 ≤ i ∧ i < 0xA200 then some ((i - 0xA100) / 16)
  else if 0xA200 ≤ i ∧ i < 0xA300 then some ((i - 0xA200) / 16)
  else none

/-- The row that covers an index (at partition 0) and subindex. -/
def rowAt : List Row → Nat → Nat → Option Row
  | [], _, _ => none
  | r :: rs, i, sub =>
    if r.lo ≤ i ∧ i ≤ r.hi ∧ r.subLo ≤ sub ∧ sub ≤ r.subHi then some r else rowAt rs i sub

/-- The entry an address names (R408). -/
def findRow (addr : Nat) : Option Row := rowAt catalogue (baseIndex (addr / 256)) (addr % 256)

/-- The highest subindex defined at an index (R408); none where the index holds no entry. -/
def topSub (i : Nat) : Option Nat :=
  (catalogue.filter fun r => r.lo ≤ baseIndex i ∧ baseIndex i ≤ r.hi).foldl
    (fun m r => some (max (m.getD 0) r.subHi)) none

/-- The default of the entry an address names (R408). -/
def odDefault (addr : Nat) : Nat := ((findRow addr).map Row.dflt).getD 0

/-! Addresses: index × 256 + subindex, `k` counting an entry's instances from its first subindex, `p`
the partition, `q` the queue, `g` the cell. -/

namespace Ad

abbrev cdCclkMhz (k : Nat) : Nat := 0x210001 + k
abbrev cdCclkActualMhz (k : Nat) : Nat := 0x210011 + k
abbrev fabricReplayCount : Nat := 0x218001
abbrev clockHoldCount : Nat := 0x218002
abbrev cellFormatsSupported : Nat := 0x400001
abbrev cellImemBundles : Nat := 0x400002
abbrev cellAmaxEntries : Nat := 0x400003
abbrev cdSparesLeft (k : Nat) : Nat := 0x401001 + k
abbrev cellImemEccCorrected : Nat := 0x402001
abbrev cellIllegalBundleCount : Nat := 0x402002
abbrev partRngSeed (p : Nat) : Nat := 0x802001 + 0x10000 * p
abbrev partSrForceRne (p : Nat) : Nat := 0x802002 + 0x10000 * p
abbrev cellShadowFrames : Nat := 0x400004
abbrev cellLandingBufferKib : Nat := 0x400005
abbrev cellMissCount (g : Nat) : Nat := 0x410001 + g / 80 * 256 + g % 80
abbrev cellMissCycles (g : Nat) : Nat := 0x411001 + g / 80 * 256 + g % 80
abbrev cdMissSticky (k : Nat) : Nat := 0x412001 + k
abbrev partMissCount (p : Nat) : Nat := 0x803001 + 0x10000 * p
abbrev partMissSticky (p : Nat) : Nat := 0x803002 + 0x10000 * p
abbrev partFirstMiss (p : Nat) : Nat := 0x803003 + 0x10000 * p
abbrev partWaitCycles (p : Nat) : Nat := 0x803004 + 0x10000 * p
abbrev partReservedOverrun (p : Nat) : Nat := 0x803005 + 0x10000 * p
abbrev partCommitPages (p : Nat) : Nat := 0x803006 + 0x10000 * p
abbrev partSquashPages (p : Nat) : Nat := 0x803007 + 0x10000 * p
abbrev partSquashBytes (p : Nat) : Nat := 0x803008 + 0x10000 * p
abbrev partShadowOverwrite (p : Nat) : Nat := 0x803009 + 0x10000 * p
abbrev partShadowOverwriteSticky (p : Nat) : Nat := 0x80300a + 0x10000 * p
abbrev partReservedCeilingPct (p : Nat) : Nat := 0x804001 + 0x10000 * p
abbrev partSemTimeoutUs (p : Nat) : Nat := 0x804002 + 0x10000 * p
abbrev cellWindowMaxKernel : Nat := 0x400006
abbrev cellResampleMaxBoxes : Nat := 0x400007
abbrev partValidRows (p : Nat) : Nat := 0x805001 + 0x10000 * p
abbrev partPadRows (p : Nat) : Nat := 0x805002 + 0x10000 * p
abbrev partBoxClipped (p : Nat) : Nat := 0x805003 + 0x10000 * p
abbrev partBoxRejected (p : Nat) : Nat := 0x805004 + 0x10000 * p
abbrev cellRotaryMaxPosition : Nat := 0x400008
abbrev cellKvMaxHeadDim : Nat := 0x400009
abbrev partKvPagesWalked (p : Nat) : Nat := 0x806001 + 0x10000 * p
abbrev partKvNullPages (p : Nat) : Nat := 0x806002 + 0x10000 * p
abbrev partKvNanBlocks (p : Nat) : Nat := 0x806003 + 0x10000 * p
abbrev cellScratchBanks : Nat := 0x40000a
abbrev sdChannels : Nat := 0x40000b
abbrev cdScratchEccCorrected (k : Nat) : Nat := 0x420001 + k
abbrev cdScratchPoisoned (k : Nat) : Nat := 0x420011 + k
abbrev cdClearDone : Nat := 0x420021
abbrev cdScratchRepairColumns (k : Nat) : Nat := 0x420031 + k
abbrev cellConflictMode (k : Nat) : Nat := 0x421001 + k
abbrev sdEccCorrected (k : Nat) : Nat := 0x430001 + k
abbrev sdPoisoned (k : Nat) : Nat := 0x430011 + k
abbrev partConflictLost (p k : Nat) : Nat := 0x807001 + 0x10000 * p + k
abbrev partConflictStallCycles (p : Nat) : Nat := 0x807007 + 0x10000 * p
abbrev memChannels : Nat := 0x300001
abbrev memDataRateMts : Nat := 0x300002
abbrev mscWays : Nat := 0x300003
abbrev memGroupInlineEcc (k : Nat) : Nat := 0x301001 + k
abbrev memGroupState (k : Nat) : Nat := 0x301011 + k
abbrev memGroupEccCorrected (k : Nat) : Nat := 0x302001 + k
abbrev memGroupPoisoned (k : Nat) : Nat := 0x302011 + k
abbrev memGroupSectorReread (k : Nat) : Nat := 0x302021 + k
abbrev memDrizzleWeightPct : Nat := 0x304001
abbrev partMscWayMask (p k : Nat) : Nat := 0x808001 + 0x10000 * p + k
abbrev partMscHits (p : Nat) : Nat := 0x808005 + 0x10000 * p
abbrev partMscMisses (p : Nat) : Nat := 0x808006 + 0x10000 * p
abbrev partMscDroppedLines (p : Nat) : Nat := 0x808007 + 0x10000 * p
abbrev partDrizzleReads (p : Nat) : Nat := 0x808008 + 0x10000 * p
abbrev partDrizzleWrites (p : Nat) : Nat := 0x808009 + 0x10000 * p
abbrev partHostBytes (p : Nat) : Nat := 0x80800a + 0x10000 * p
abbrev partHostWindowBase (p k : Nat) : Nat := 0x808101 + 0x10000 * p + k
abbrev partHostWindowSize (p k : Nat) : Nat := 0x808201 + 0x10000 * p + k
abbrev memCompressFormats : Nat := 0x300004
abbrev partCompressRegion (p k : Nat) : Nat := 0x809001 + 0x10000 * p + k
abbrev partCompressRegionSize (p k : Nat) : Nat := 0x809101 + 0x10000 * p + k
abbrev partCompressMetaBase (p k : Nat) : Nat := 0x809201 + 0x10000 * p + k
abbrev partCompressBlocksWritten (p : Nat) : Nat := 0x809301 + 0x10000 * p
abbrev partCompressSectorsSaved (p : Nat) : Nat := 0x809302 + 0x10000 * p
abbrev partCompressCalmRaw (p : Nat) : Nat := 0x809303 + 0x10000 * p
abbrev partCompressRmw (p : Nat) : Nat := 0x809304 + 0x10000 * p
abbrev partCompressCheckFailed (p : Nat) : Nat := 0x809305 + 0x10000 * p
abbrev partCompressFamilyMismatch (p : Nat) : Nat := 0x809306 + 0x10000 * p
abbrev cellScaleSlots : Nat := 0x40000c
abbrev objMoveRecords : Nat := 0x40000d
abbrev partObjTableBase (p : Nat) : Nat := 0x80a001 + 0x10000 * p
abbrev partObjTableCount (p : Nat) : Nat := 0x80a002 + 0x10000 * p
abbrev partScaleTableBase (p : Nat) : Nat := 0x80a003 + 0x10000 * p
abbrev partScaleMirror (p : Nat) : Nat := 0x80a004 + 0x10000 * p
abbrev partNarrowReason (p : Nat) : Nat := 0x80a005 + 0x10000 * p
abbrev partObjMoves (p : Nat) : Nat := 0x80a101 + 0x10000 * p
abbrev partObjMoveBytes (p : Nat) : Nat := 0x80a102 + 0x10000 * p
abbrev partObjRefused (p : Nat) : Nat := 0x80a103 + 0x10000 * p
abbrev partObjAborts (p : Nat) : Nat := 0x80a104 + 0x10000 * p
abbrev partPrefetchLate (p : Nat) : Nat := 0x80a105 + 0x10000 * p
abbrev partScaleAdvances (p : Nat) : Nat := 0x80a106 + 0x10000 * p
abbrev partScaleHolds (p : Nat) : Nat := 0x80a107 + 0x10000 * p
abbrev mediaDecodeEngines : Nat := 0x500001
abbrev mediaEncodeEngines : Nat := 0x500002
abbrev mediaContexts : Nat := 0x500003
abbrev mediaPoolBuffers : Nat := 0x500004
abbrev mediaMaxWidth : Nat := 0x500005
abbrev mediaMaxHeight : Nat := 0x500006
abbrev decPictures (k : Nat) : Nat := 0x510001 + k
abbrev decBusyVclk (k : Nat) : Nat := 0x510011 + k
abbrev encFrames (k : Nat) : Nat := 0x510021 + k
abbrev mediaWindowBlocked : Nat := 0x510031
abbrev partMediaCtxBase (p : Nat) : Nat := 0x80b001 + 0x10000 * p
abbrev partMediaCtxCount (p : Nat) : Nat := 0x80b002 + 0x10000 * p
abbrev partPoolBase (p k : Nat) : Nat := 0x80b101 + 0x10000 * p + k
abbrev partPoolBufSize (p k : Nat) : Nat := 0x80b105 + 0x10000 * p + k
abbrev partPoolBufCount (p k : Nat) : Nat := 0x80b109 + 0x10000 * p + k
abbrev partDecConcealedFrames (p : Nat) : Nat := 0x80b201 + 0x10000 * p
abbrev partDecConcealedBlocks (p : Nat) : Nat := 0x80b202 + 0x10000 * p
abbrev partDecBudgetAborts (p : Nat) : Nat := 0x80b203 + 0x10000 * p
abbrev partDecMissingRefs (p : Nat) : Nat := 0x80b204 + 0x10000 * p
abbrev partMediaParks (p : Nat) : Nat := 0x80b205 + 0x10000 * p
abbrev partEncKeyPictures (p : Nat) : Nat := 0x80b206 + 0x10000 * p
abbrev mediaTensorWriters : Nat := 0x500007
abbrev mediaOplistPhases : Nat := 0x500008
abbrev partSampleCacheBase (p : Nat) : Nat := 0x80b301 + 0x10000 * p
abbrev partSampleCacheSets (p : Nat) : Nat := 0x80b302 + 0x10000 * p
abbrev partSampleCacheSlotBytes (p : Nat) : Nat := 0x80b303 + 0x10000 * p
abbrev partSampleEpoch (p : Nat) : Nat := 0x80b304 + 0x10000 * p
abbrev partSamples (p : Nat) : Nat := 0x80b401 + 0x10000 * p
abbrev partSampleFrames (p : Nat) : Nat := 0x80b402 + 0x10000 * p
abbrev partSampleCacheHits (p : Nat) : Nat := 0x80b403 + 0x10000 * p
abbrev partSampleCacheMisses (p : Nat) : Nat := 0x80b404 + 0x10000 * p
abbrev partSampleCacheNoroom (p : Nat) : Nat := 0x80b405 + 0x10000 * p
abbrev partSampleClipped (p : Nat) : Nat := 0x80b406 + 0x10000 * p
abbrev partSampleLatePhases (p : Nat) : Nat := 0x80b407 + 0x10000 * p
abbrev partMediaRejects (p : Nat) : Nat := 0x80b408 + 0x10000 * p
abbrev partMediaSizeChanges (p : Nat) : Nat := 0x80b409 + 0x10000 * p
abbrev netPorts : Nat := 0x600001
abbrev nctSessions : Nat := 0x600002
abbrev nctMessages : Nat := 0x600003
abbrev nctPayloadBytes : Nat := 0x600004
abbrev netMacBase : Nat := 0x600005
abbrev netSrcPrefix : Nat := 0x600006
abbrev netFeatureLevel : Nat := 0x600007
abbrev netMinPeerLevel : Nat := 0x600008
abbrev netNctUdpPort : Nat := 0x600009
abbrev netNctDscp : Nat := 0x60000a
abbrev netPortMode (k : Nat) : Nat := 0x601001 + k
abbrev netPortState (k : Nat) : Nat := 0x601011 + k
abbrev netPortNexthopMac (k : Nat) : Nat := 0x602001 + k
abbrev netPortTxBytes (k : Nat) : Nat := 0x603001 + k
abbrev netPortRxBytes (k : Nat) : Nat := 0x603101 + k
abbrev netPortFecCorrected (k : Nat) : Nat := 0x603201 + k
abbrev netPortFecUncorrected (k : Nat) : Nat := 0x603301 + k
abbrev netPortRxDropped (k : Nat) : Nat := 0x603401 + k
abbrev netRxAuthFail : Nat := 0x604001
abbrev netTxFenceDrops : Nat := 0x604002
abbrev netPauseIgnored : Nat := 0x604003
abbrev netOcTxCapped : Nat := 0x604004
abbrev partNctIid (p : Nat) : Nat := 0x80c001 + 0x10000 * p
abbrev partNctSessionQuota (p : Nat) : Nat := 0x80c002 + 0x10000 * p
abbrev partNctPortMask (p : Nat) : Nat := 0x80c003 + 0x10000 * p
abbrev partNctWindowPkts (p : Nat) : Nat := 0x80c004 + 0x10000 * p
abbrev partNctAccept (p : Nat) : Nat := 0x80c005 + 0x10000 * p
abbrev partNctFailMs (p : Nat) : Nat := 0x80c006 + 0x10000 * p
abbrev partNetCreditMin (p : Nat) : Nat := 0x80c007 + 0x10000 * p
abbrev partNctRegionBase (p : Nat) : Nat := 0x80c101 + 0x10000 * p
abbrev partNctRegionCount (p : Nat) : Nat := 0x80c102 + 0x10000 * p
abbrev partNctErrqBase (p : Nat) : Nat := 0x80c103 + 0x10000 * p
abbrev partNctErrqSlots (p : Nat) : Nat := 0x80c104 + 0x10000 * p
abbrev partNctTxPackets (p : Nat) : Nat := 0x80c201 + 0x10000 * p
abbrev partNctRetransmits (p : Nat) : Nat := 0x80c202 + 0x10000 * p
abbrev partNctCeMarks (p : Nat) : Nat := 0x80c203 + 0x10000 * p
abbrev partNctRnrSent (p : Nat) : Nat := 0x80c204 + 0x10000 * p
abbrev partNctRnrReceived (p : Nat) : Nat := 0x80c205 + 0x10000 * p
abbrev partNctLateDropped (p : Nat) : Nat := 0x80c206 + 0x10000 * p
abbrev partNctLateSticky (p : Nat) : Nat := 0x80c207 + 0x10000 * p
abbrev partNctErrqOverflow (p : Nat) : Nat := 0x80c208 + 0x10000 * p
abbrev partNctDupDropped (p : Nat) : Nat := 0x80c209 + 0x10000 * p
abbrev partNctRekeys (p : Nat) : Nat := 0x80c20a + 0x10000 * p
abbrev collEngines : Nat := 0x60000b
abbrev collCommunicators : Nat := 0x60000c
abbrev collMaxMembers : Nat := 0x60000d
abbrev collEngineBytes (k : Nat) : Nat := 0x610001 + k
abbrev partCollCommBase (p : Nat) : Nat := 0x80d001 + 0x10000 * p
abbrev partCollCommCount (p : Nat) : Nat := 0x80d002 + 0x10000 * p
abbrev partCollEpoch (p : Nat) : Nat := 0x80d003 + 0x10000 * p
abbrev partCollCalls (p : Nat) : Nat := 0x80d101 + 0x10000 * p
abbrev partCollBytes (p : Nat) : Nat := 0x80d102 + 0x10000 * p
abbrev partCollLateEpoch (p : Nat) : Nat := 0x80d103 + 0x10000 * p
abbrev partCollLateEpochSticky (p : Nat) : Nat := 0x80d104 + 0x10000 * p
abbrev partCollFirstLate (p : Nat) : Nat := 0x80d105 + 0x10000 * p
abbrev partCollSaturations (p : Nat) : Nat := 0x80d106 + 0x10000 * p
abbrev partCollMismatch (p : Nat) : Nat := 0x80d107 + 0x10000 * p
abbrev partState (p : Nat) : Nat := 0x800001 + 0x10000 * p
abbrev partCommand (p : Nat) : Nat := 0x800002 + 0x10000 * p
abbrev partFormResult (p : Nat) : Nat := 0x800003 + 0x10000 * p
abbrev partCdMask (p : Nat) : Nat := 0x800004 + 0x10000 * p
abbrev partGroupMask (p : Nat) : Nat := 0x800005 + 0x10000 * p
abbrev partReplace (p : Nat) : Nat := 0x800006 + 0x10000 * p
abbrev partRunningJob (p : Nat) : Nat := 0x800007 + 0x10000 * p
abbrev partParkedJobs (p : Nat) : Nat := 0x800008 + 0x10000 * p
abbrev partLastTenant (p : Nat) : Nat := 0x800009 + 0x10000 * p
abbrev partMediaExclusive (p : Nat) : Nat := 0x80000a + 0x10000 * p
abbrev partPortExclusive (p : Nat) : Nat := 0x80000b + 0x10000 * p
abbrev partDecShare (p k : Nat) : Nat := 0x800101 + 0x10000 * p + k
abbrev partEncShare (p k : Nat) : Nat := 0x800111 + 0x10000 * p + k
abbrev partPortShare (p k : Nat) : Nat := 0x800121 + 0x10000 * p + k
abbrev partQueueBase (p k : Nat) : Nat := 0x800201 + 0x10000 * p + k
abbrev partQueueConfig (p k : Nat) : Nat := 0x800301 + 0x10000 * p + k
abbrev partQueueTenant (p k : Nat) : Nat := 0x800401 + 0x10000 * p + k
abbrev partCompletionBase (p : Nat) : Nat := 0x800501 + 0x10000 * p
abbrev partCompletionSlots (p : Nat) : Nat := 0x800502 + 0x10000 * p
abbrev partQueueFault (p : Nat) : Nat := 0x800503 + 0x10000 * p
abbrev partCompletionStalls (p : Nat) : Nat := 0x800504 + 0x10000 * p
abbrev partPreemptions (p : Nat) : Nat := 0x800505 + 0x10000 * p
abbrev partSemDiscarded (p : Nat) : Nat := 0x800506 + 0x10000 * p
abbrev baroEntries (p q : Nat) : Nat := 0xa10001 + 0x1000 * p + q
abbrev baroWaitSumNs (p q : Nat) : Nat := 0xa10101 + 0x1000 * p + q
abbrev baroWaitMaxNs (p q : Nat) : Nat := 0xa10201 + 0x1000 * p + q
abbrev baroPreemptions (p q : Nat) : Nat := 0xa10301 + 0x1000 * p + q
abbrev baroPreemptLostNs (p q : Nat) : Nat := 0xa10401 + 0x1000 * p + q
abbrev baroWaitHist (p b q : Nat) : Nat := 0xa20001 + 0x1000 * p + 256 * b + q
abbrev fwImageWrite : Nat := 0x110001
abbrev fwActivate : Nat := 0x110002
abbrev fwSlotState : Nat := 0x110003
abbrev attestNonce : Nat := 0x120001
abbrev attestReport : Nat := 0x120002
abbrev attestCertChain : Nat := 0x120003
abbrev blockClockStop : Nat := 0x211001
abbrev blockPowerOff : Nat := 0x211002
abbrev secFuseState : Nat := 0x700001
abbrev secDebugState : Nat := 0x700002
abbrev secBlockOwner : Nat := 0x700003
abbrev secDeniedCount : Nat := 0x700004
abbrev secDebugChallenge : Nat := 0x700005
abbrev secDebugToken : Nat := 0x700006
abbrev secSvn : Nat := 0x700007
abbrev secKeySlotsUsed : Nat := 0x701001
abbrev secEntropyState : Nat := 0x701002
abbrev partEncrypt (p : Nat) : Nat := 0x80e001 + 0x10000 * p
abbrev partAttestNonce (p : Nat) : Nat := 0x80e002 + 0x10000 * p
abbrev partAttestReport (p : Nat) : Nat := 0x80e003 + 0x10000 * p
abbrev partMeasLog (p : Nat) : Nat := 0x80e004 + 0x10000 * p
abbrev partMeasReason (p : Nat) : Nat := 0x80e005 + 0x10000 * p
abbrev partNctPeerPolicy (p : Nat) : Nat := 0x80e006 + 0x10000 * p
abbrev partLoadTarget (p : Nat) : Nat := 0x80e007 + 0x10000 * p
abbrev partLoadLength (p : Nat) : Nat := 0x80e008 + 0x10000 * p
abbrev partLoadTenant (p : Nat) : Nat := 0x80e009 + 0x10000 * p
abbrev partMeasRegionBase (p k : Nat) : Nat := 0x80e101 + 0x10000 * p + k
abbrev partMeasRegionSize (p k : Nat) : Nat := 0x80e109 + 0x10000 * p + k
abbrev partNctFwAllow (p k : Nat) : Nat := 0x80e201 + 0x10000 * p + k
abbrev devPartNumber : Nat := 0x100001
abbrev devSerial : Nat := 0x100002
abbrev devStepping : Nat := 0x100003
abbrev devFwVersion : Nat := 0x100004
abbrev dictVersion : Nat := 0x100005
abbrev commMctpIana : Nat := 0x101001
abbrev commEthMac : Nat := 0x101002
abbrev commEthIpv4Addr : Nat := 0x101003
abbrev commEthIpv4Mask : Nat := 0x101004
abbrev commEthIpv4Gateway : Nat := 0x101005
abbrev commEthUdpPort : Nat := 0x101006
abbrev commEthClass : Nat := 0x101007
abbrev commEthAllowAddr : Nat := 0x101008
abbrev commEthAllowMask : Nat := 0x101009
abbrev commRestoreDefaults : Nat := 0x10100a
abbrev commRequests : Nat := 0x102001
abbrev commErrors : Nat := 0x102002
abbrev commBusy : Nat := 0x102003
abbrev commEthDropped : Nat := 0x102004
abbrev commReplays : Nat := 0x102005
abbrev anemSelect (k : Nat) : Nat := 0xa00001 + k
abbrev anemCount (k : Nat) : Nat := 0xa00101 + k
abbrev anemEnable : Nat := 0xa00201
abbrev errModuleStatus : Nat := 0x900001
abbrev errResetCause : Nat := 0x900002
abbrev errNotifyVector : Nat := 0x900003
abbrev errCellSpareLimit : Nat := 0x900004
abbrev errGroupRetireLimit : Nat := 0x900005
abbrev errCorrectedTotal : Nat := 0x900101
abbrev errDeferredTotal : Nat := 0x900102
abbrev errContainedTotal : Nat := 0x900103
abbrev errFatalResets : Nat := 0x900104
abbrev errPartStatus (k : Nat) : Nat := 0x901001 + k
abbrev errPartLast (k : Nat) : Nat := 0x901101 + k
abbrev errRecoveryState : Nat := 0x902001
abbrev errRecoveryQueued : Nat := 0x902002
abbrev errEscalations : Nat := 0x902003
abbrev errPartReset : Nat := 0x903001
abbrev errSpareSwap : Nat := 0x903002
abbrev errGroupRetire : Nat := 0x903003
abbrev almWindow : Nat := 0x910001
abbrev almCursor : Nat := 0x910002
abbrev almNextSeq : Nat := 0x910003
abbrev almOldestSeq : Nat := 0x910004
abbrev almReadMark : Nat := 0x910005
abbrev almLost : Nat := 0x910006
abbrev almDropped : Nat := 0x910007
abbrev almClear : Nat := 0x910008
abbrev almOpSeconds : Nat := 0x910009
abbrev almPowerCycles : Nat := 0x91000a
abbrev bootStage : Nat := 0x130001
abbrev bootFailCode : Nat := 0x130002
abbrev bootTimeMs : Nat := 0x130003
abbrev bootStraps : Nat := 0x130004
abbrev bootAttempts : Nat := 0x130005
abbrev bootFallbacks : Nat := 0x130006
abbrev bootMarginAtStart : Nat := 0x130007
abbrev pcieLinkStatus : Nat := 0x131001
abbrev mgmtLinkStatus : Nat := 0x131002
abbrev pcieLinkRetrains : Nat := 0x131003
abbrev netPortRestarts (k : Nat) : Nat := 0x131101 + k
abbrev memGroupFailedChannels (k : Nat) : Nat := 0x132001 + k
abbrev memGroupTrainMs (k : Nat) : Nat := 0x132011 + k
abbrev memGroupRetrain : Nat := 0x132101
abbrev pinFunction (k : Nat) : Nat := 0x240001 + k
abbrev pinState (k : Nat) : Nat := 0x240101 + k
abbrev gpioOut : Nat := 0x240201
abbrev gpioIn : Nat := 0x240202
abbrev marginRequest : Nat := 0xf00001
abbrev marginState : Nat := 0xf00002
abbrev marginResult : Nat := 0xf00003
abbrev marginStartResult : Nat := 0xf00004
abbrev ethLaneEye (k : Nat) : Nat := 0xf01001 + k
abbrev pcieLaneMargin (k : Nat) : Nat := 0xf02001 + k
abbrev modTdpW : Nat := 0x220001
abbrev modPowerLimitW : Nat := 0x220002
abbrev modPowerCapW : Nat := 0x220003
abbrev modInputMv : Nat := 0x220004
abbrev modInputMa : Nat := 0x220005
abbrev modInputPowerW : Nat := 0x220006
abbrev modEnergyJ : Nat := 0x220007
abbrev modThrottleSteps : Nat := 0x220008
abbrev modThrottleEvents : Nat := 0x220009
abbrev dieTemp (k : Nat) : Nat := 0x221001 + k
abbrev coldPlateTemp : Nat := 0x221031
abbrev tempThrottleC : Nat := 0x221032
abbrev tempTripC : Nat := 0x221033
abbrev modTripLatched : Nat := 0x221034
abbrev holdupCapUf : Nat := 0x222001
abbrev holdupFault : Nat := 0x222002

end Ad

end Sys2Proof.Machine
end

