-- ==== Sys2Proof/Config.lean ====
section
/-!
DEFINITION. What an implementation of the FG-1280 fixes and the manual does not state: the opaque
constants that stand for values the manual leaves open. Nothing in Lean can evaluate one, so no
statement can rest on a particular value.
-/

namespace Sys2Proof.Config

/-- The free values of the machine: `freeValue n` is the `n`-th value the manual leaves open in a
run (log 2). The counter `State.fresh` picks `n`. -/
opaque freeValue : Nat → Nat

/-- R189 calls the memory-side cache's set index "a fixed hash" of the block's place and does not
give it. Only the hash of the 4 KiB chunk is open: `Machine.mscSet` adds the block's number within
its chunk, so that the blocks of one chunk fall in distinct sets, as R189 requires (log 3). -/
opaque mscChunkHash : Nat → Nat

/-- SHA-384 of a byte string, as a 48-byte string read little-endian; FIPS 180-4 is not part of the
manual's text (log 4). -/
opaque sha384 : List Byte → Nat

/-- The unique device secret fused at test (R386). -/
opaque uds : List Byte

/-- The ECDSA P-384 signature with SHA-384 of a byte string under a private scalar, r then s (R386, R392, R398; log 4). -/
opaque ecdsa : Nat → List Byte → List Byte

/-- The P-384 public point of a private scalar, x then y in SEC 1 order (R386, R392; log 4). -/
opaque point : Nat → List Byte

/-- The x-coordinate of the ECDH result of a private scalar and a point, 48 bytes (R393; log 4). -/
opaque ecdhX : Nat → List Byte → List Byte

/-- AES-256-GCM: ciphertext and tag for key, nonce, additional data and plaintext (R316; log 4). -/
opaque gcm : List Byte → List Byte → List Byte → List Byte → List Byte

/-- What a reader under another key finds in a 64 B unit (R390, R406; log 4): `xts writtenUnder readUnder
unit bytes`, keys numbered by `Machine.memKey`, 0 for none, `bytes` as they stood before encryption. -/
opaque xts : Nat → Nat → Nat → List Byte → List Byte

/-- The hash of session and PSN that picks flow label and UDP source port (R315; log 4). -/
opaque flowHash : Nat → Nat → Nat

/-- One output element of a RESAMPLE stage as its element code, where FP32 rounding enters: R127 says the
arithmetic is FP32 in a fixed order and does not give that order (log 17). The arguments are the element
type, the mode, and the operands: sampling window, box and pixel codes. -/
opaque resample : Nat → Nat → List Nat → Nat

/-- A tensor writer's value of a channel after colour or resampling, as an FP32 code, where FP32 rounding
enters: R293 rounds "each step" and does not give the steps (log 28). -/
opaque writerValue : List Nat → Nat

/-- A sample of the quarter- or half-resolution picture of a motion search, from the square of samples it stands for; R278
names the resolutions and gives no filter (log 161). -/
opaque shrink : List Nat → Nat

/-- The order in which a motion search takes vectors of equal cost, which R278 does not give (log 161). -/
opaque motionTie : Int → Int → Nat

/-- Whether a neighbour's final vector, in eighths of a half-resolution sample, is rounded up (R278, log 161). -/
opaque motionRound : Int → Bool

/-- λ(QP) times a vector's coded bits, for codec, QP and vector (R278); the manual gives neither λ nor the bits (log 161). -/
opaque motionRate : Nat → Nat → Int → Int → Nat

/-- An FP32 accumulator value as C2S writes it with an element type narrower than FP32; R125 gives C2S no
rounding (log 17). -/
opaque c2sNarrow : Nat → Nat → Nat

/-- Values set at production test that the manual does not give, by dictionary address (log 5). -/
opaque setAtTest : Nat → Nat

/-- DEV_SERIAL, set at production test (log 5). -/
opaque serial : List Byte

/-- FW_SLOT_STATE for the active slots and the INVALID marks: the manual gives the entry no layout (log 46). -/
opaque slotState : List Bool → Nat

/-- The DER certificates of vendor root and product CA, and the DeviceID certificate made at test (R387; log 4). -/
opaque rootCert : List Byte
opaque caCert : List Byte
opaque deviceCert : List Byte

/-- The AK certificate the SC issues at a boot: signed with the DeviceID's scalar, for the AK's public point, with the digests
of ROM, SC and OC, the fuse and the debug state (R387; log 4). -/
opaque akCert : Nat → List Byte → List Nat → List Byte

/-- Of the images at shipment: digests of ROM, SC and OC at 0 to 2, firmware version at 3, security versions of SC
and OC at 4 and 5 (log 5). -/
opaque shipped : Nat → Nat

/-- Values set at production test that the manual does give. -/
def cclkCeilingMHz : Nat := 1600

/-- The fuse-set module power limit in watts (R403, Table 15.8, Table 19.5). -/
def powerLimitW : Nat := 3000

/-- The spares unused at shipment per compute die (Table 2.11 gives 0 to 4; log 5). -/
def sparesAtShipment : Nat := 4

/-- The firmware feature level of the running image (R319; the manual's example names 8 and 9;
log 5). -/
def featureLevel : Nat := 9

end Sys2Proof.Config
end

