-- ==== Sys2Proof/Machine/State.lean ====
section
/-!
DEFINITION. The state of the FG-1280 as plain data. Every dictionary entry (registers, counters and
settings of the catalogue, R430) is a value in `State.od` under its address; the rest of the state is
held unit by unit. A field's default is its value at reset; INVENTORY.md lists each with its rule.
-/

namespace Sys2Proof.Machine

/-- Sparse data by key: keys strictly rising. -/
abbrev Tbl (α : Type) := List (Nat × α)

/-- A byte memory: addresses strictly rising, no byte equal to the 0 an unlisted address reads as
(log 6). -/
abbrev Mem := List Host.Cell

/-- The canonical form of a memory. -/
def Memory.wf : Mem → Bool
  | [] => true
  | [(_, b)] => b != 0
  | (a, b) :: (a', b') :: t => decide (a < a') && b != 0 && Memory.wf ((a', b') :: t)

/-! ## Compute dies -/

/-- A lane's random generator (R61): the xorshift register, never zero, and the Weyl counter. -/
structure Gen where
  s : BitVec 64 := 1
  w : BitVec 32 := 0
  deriving DecidableEq, Repr

/-- An entry of the amax unit (R66): its 16-bit count, and in `more` what the fold that filled it still adds once
the merge that its count forces is made. -/
structure Amax where
  slot : Nat
  amax : BitVec 32 := 0
  sat : Nat := 0
  more : Nat := 0
  nan : Bool := false
  deriving DecidableEq, Repr

/-- A speculative amax entry, tagged with its shadow's predicate (R96). -/
structure SpecAmax where
  pred : Nat
  entry : Amax
  deriving DecidableEq, Repr

/-- A weight buffer (R46): its format, the tile's valid extents (R110), and its rows as delivered. -/
structure WBuf where
  fmt : Option Nat := none
  vr : Nat := 0
  vc : Nat := 0
  rows : List (List Byte) := []
  deriving DecidableEq, Repr

/-- A stream descriptor (Table 2.7). -/
structure StreamDesc where
  xform : Nat := 0
  space : Nat := 0
  base : Nat := 0
  ext : List Nat := []
  str : List Int := []
  param0 : Nat := 0
  param1 : Nat := 0
  deriving DecidableEq, Repr

/-- A tile descriptor (Table 4.1). -/
structure TileDesc where
  rowExt : Nat := 0
  colExt : Nat := 0
  rowOrg : Nat := 0
  colOrg : Nat := 0
  trow : Nat := 0
  tcol : Nat := 0
  rowCap : Nat := 0
  colCap : Nat := 0
  rowStride : Int := 0
  colStride : Int := 0
  role : Nat := 0
  mx : Bool := false
  ewidth : Nat := 0
  bcast : Nat := 0
  bcount : Nat := 0
  deriving DecidableEq, Repr

/-- A unit of stream data in flight: its number, its bytes after the transform, its poison, and the address of the
poisoned source it was read from (R173). -/
structure Unit_ where
  index : Nat
  bytes : List Byte
  poison : Bool
  addr : Nat := 0
  deriving DecidableEq, Repr

/-- A read stream (R58, R59, R71, R104): its descriptors and near side; of its `total` units, how many
are deposited and consumed, of its `reqTotal` far-tier or Stratus requests how many are issued (R72) or granted (R168). `contract` is false for a
stream resumed without contract time (R375), `group` is the broadcast group it joined (R114), `dropped` lists the
squashed pages whose units are discarded, each with the first unit that had not been requested (R95), `failed` the
units whose requests complete poisoned (R201, R441), and `aux` holds
the window descriptor or box list read at SSTART (R121, R127). -/
structure InStream where
  running : Bool := false
  desc : StreamDesc := {}
  tile : Option TileDesc := none
  matrix : Bool := false
  addr : Nat := 0
  total : Nat := 0
  requested : Nat := 0
  deposited : Nat := 0
  consumed : Nat := 0
  reqTotal : Nat := 0
  landing : List Unit_ := []
  fifo : List Unit_ := []
  contract : Bool := true
  group : Option Nat := none
  dropped : List (Nat × Nat) := []
  failed : List Nat := []
  aux : List Byte := []
  deriving DecidableEq, Repr

/-- A write of a write stream to its own die's Stratus that waits for the cell's Stratus port or for its grant (R166,
R168): the logical Stratus address, within one 64 B unit, the bytes and their poison. -/
structure PortWrite where
  addr : Nat
  bytes : List Byte
  poison : Bool
  deriving DecidableEq, Repr

/-- A write stream (R58, R112): `drained` of `total` groups have left the near side; writes to the squashed
pages of `dropped`, by space and page, are discarded (R95). `start` is the CCLK of its SSTART, `rows` the accumulator
rows it drains (log 139), `port` its writes that wait at the Stratus port. -/
structure OutStream where
  running : Bool := false
  desc : StreamDesc := {}
  tile : Option TileDesc := none
  acc : Bool := false
  addr : Nat := 0
  total : Nat := 0
  drained : Nat := 0
  dropped : List (Nat × Nat) := []
  start : Nat := 0
  rows : List (List (BitVec 32)) := []
  port : List PortWrite := []
  deriving DecidableEq, Repr

/-- A shadow page table entry (Table 3.4): STATE 0 FREE, 1 OPEN, 2 DRAINING; `bytes` counts what has been
deposited into it (R97). -/
structure Shadow where
  state : Nat := 0
  space : Nat := 0
  pred : Nat := 0
  frame : Nat := 0
  page : Nat := 0
  bytes : Nat := 0
  deriving DecidableEq, Repr

/-- What a cell is doing. `pastEnd` of the bundle address is 4,096. -/
inductive CellStatus where
  | halted
  | running
  | stalled (c : MissCause)
  | waitSem (sem : Nat)
  | waitFence
  | waitPred (sem : Nat)
  | done
  deriving DecidableEq, Repr

/-- A cell's sequencer (R40, R42). `held` is the bundle word that holds issue when it was not fetched at
`pc`; `granted` marks a wait of the held bundle that is over; `cclk` counts the job's CCLK, issued, stalled
and held; `miss` the stalled cycles of the job (Table 14.7); `ready` the results and units not yet usable, each with
the CCLK from which it is (R38, R67). -/
structure Seq where
  pc : Nat := 0
  rep : Nat := 0
  status : CellStatus := .halted
  granted : Bool := false
  held : Option (BitVec 256) := none
  cclk : Nat := 0
  miss : Nat := 0
  budgets : List Nat := [0, 0, 0, 0]
  ns : Nat := 0
  saveMask : Nat := 0
  doneInput : Bool := false
  ready : Tbl Nat := []
  deriving DecidableEq, Repr

/-- A cell's scratchpad (R153, R155): bytes by physical address, its poisoned words, when each word it
has poisoned last became so (R440), its page map (R91), the requests that lost a bank in the CCLK
before (R158), the destination, mask and first byte of the VLD some of whose words are among them, the ports taken
in this CCLK by bank and master (R157), the bits that have flipped since they were written (R155, R162), and per bank
the row the patrol scrub visits next and the corrected word it has still to write back (R163). -/
structure Scratch where
  mem : Mem := []
  poison : List Nat := []
  poisonedAt : Tbl Nat := []
  map : Tbl Nat := []
  losers : List BankReq := []
  vld : Option (Nat × Nat × Nat) := none
  asked : List (Nat × Nat) := []
  upsets : List Upset := []
  scrubRow : Tbl Nat := []
  scrubBack : Tbl Nat := []
  deriving DecidableEq, Repr

/-- A logical tensor cell (Table 2.1). `wload` is the weight load in progress: its format and read stream
(R46); `wactive` is true when `wbuf1` is the active buffer; `paced` counts each read stream's reserved requests in the
pacing window (R77). -/
structure Cell where
  seq : Seq := {}
  imem : Tbl (BitVec 256) := []
  vregs : Tbl (List Lane) := []
  masks : Tbl (BitVec 128) := []
  lcs : Tbl Nat := []
  acc : Tbl (BitVec 32) := []
  wbuf0 : WBuf := {}
  wbuf1 : WBuf := {}
  wactive : Bool := false
  wload : Option (Nat × Nat) := none
  ins : Tbl InStream := []
  paced : Tbl Nat := []
  outs : Tbl OutStream := []
  gens : Tbl Gen := []
  amax : List Amax := []
  spec : List SpecAmax := []
  scratch : Scratch := {}
  shadows : Tbl Shadow := []
  freeFrames : List (Nat × Nat) := []
  busyFrames : List (Nat × Nat) := []
  withheld : List (Nat × Nat) := []
  deriving DecidableEq, Repr

/-- A broadcast group of a die (R114): its member count, the members' cells and read streams, each member's stream as
it started, how many units have been issued and how many requests made for them, and the members whose stream has
ended. -/
structure BGroup where
  bcount : Nat
  members : List (Nat × Nat) := []
  starts : List InStream := []
  issued : Nat := 0
  requested : Nat := 0
  ended : Nat := 0
  deriving DecidableEq, Repr

/-- A scheduled Stratus access not granted in the CCLK in which it was issued (R168): the issuing cell, its stream,
whether it is a write and whether it is a broadcast group's unit (then `stream` is the group), and its channel. -/
structure StratusReq where
  cell : Nat
  write : Bool
  bcast : Bool
  stream : Nat
  channel : Nat
  deriving DecidableEq, Repr

/-- An unscheduled Stratus access that waits at its die (R171): its partition, the cell that makes it, if one does,
its logical offset on the die, and a write's bytes with their poison. -/
structure StratusWait where
  part : Nat
  cell : Option Nat
  offset : Nat
  write : Option (List Byte × Bool)
  deriving DecidableEq, Repr

/-- A fabric or host write to a scratchpad of a die whose clear is not done (R175): writer, cell, address, data. -/
structure ClearWait where
  writer : Option Nat
  cell : Nat
  addr : Nat
  data : List Byte
  poison : Bool
  deriving DecidableEq, Repr

/-- A write to Stratus or the host tier by a unit that is no cell, waiting for a move to its range or for a die's clear (R175,
R232). -/
structure UnitWait where
  writer : Writer
  space : Nat
  addr : Nat
  data : List Byte
  poison : Bool
  deriving DecidableEq, Repr

/-- A compute die with its Stratus die (R164). `smap` is the page map of R91, `upsets` the bits of Stratus units that
have flipped (R172). `cyc` counts the die's CCLK since the job's first bundle; `grants` counts each channel's
grants in the frame of 8 CCLK numbered `frame`, `cycGrants` the die's grants in CCLK `cyc`, made to
`cycChannels` (R165); `ungranted` are scheduled accesses to retry (R168), `waiting` the
unscheduled accesses in order of arrival (R171). The patrol scrub of a channel visits `scrubUnit` next and has still to
write back `scrubBack` (R172); `clearWaits` are the accesses that wait for the die's clear (R175). -/
structure Die where
  railsUp : Bool := false
  clearing : Bool := false
  cclkPending : Bool := false
  hold : Bool := false
  stratus : Mem := []
  stratusPoison : List Nat := []
  smap : Tbl Nat := []
  groups : Tbl BGroup := []
  frame : Nat := 0
  grants : Tbl Nat := []
  cyc : Nat := 0
  cycGrants : Nat := 0
  cycChannels : List Nat := []
  ungranted : List StratusReq := []
  waiting : List StratusWait := []
  upsets : List Upset := []
  scrubUnit : Tbl Nat := []
  scrubBack : Tbl Nat := []
  clearWaits : List ClearWait := []
  treeDone : Bool := false
  deriving DecidableEq, Repr

/-! ## The far tier -/

/-- A memory-side cache line (R189): the block it holds by its physical block number and by its
partition-relative address, its owner, and
eight sector bits each of VALID, POISON and DEAD. `data` is the decoded block; `damaged` marks the sectors of a block
that failed its check which no write has covered since the fill (R223). -/
structure Line where
  set : Nat
  way : Nat
  block : Nat
  addr : Nat
  owner : Nat
  dirty : Bool := false
  isProtected : Bool := false
  valid : Nat := 255
  poison : Nat := 0
  dead : Nat := 0
  data : List Byte := []
  damaged : Nat := 0
  deriving DecidableEq, Repr

/-- A STREAM write being merged into one block (R183): its block, the bytes enabled and their data. -/
structure Merge where
  p : Nat
  block : Nat
  base : Nat
  bytes : Tbl Byte := []
  poison : Nat := 0
  writer : Writer := .control
  deriving DecidableEq, Repr

/-- A cache maintenance operation running at a die (R194). -/
structure Maint where
  p : Nat
  base : Nat
  size : Nat
  deriving DecidableEq, Repr

/-- A far-tier request that waits at its memory die for a maintenance operation or a move (R194, R232); hint 3 is the
Drizzle path. -/
inductive FarReq where
  | read (p addr len hint : Nat) (reserved : Bool)
  | write (p addr hint : Nat) (src : Writer) (data : List Byte) (poison : Bool)
  deriving DecidableEq, Repr

/-- A memory die: its cache lines, least recently used first, its open write merges, the running
maintenance operations, the bytes its groups have admitted in the reserved window (R79), and the requests that wait in
order; Drizzle requests wait in their channels' queues of 64 (R196). -/
structure MemDie where
  lines : List Line := []
  merges : List Merge := []
  maint : List Maint := []
  reserved : Tbl Nat := []
  waits : List FarReq := []
  deriving DecidableEq, Repr

/-- A channel group's state beyond its entries: whether its first in-service retrain has completed
(R239, R461), whether a retrain runs, the times its blocks were poisoned (R441), whether it has been
erased since module reset (R401), the ECC mode in effect (R185), and the number under which its contents read
when they have been lost (0 when they have not). -/
structure Grp where
  firstRetrain : Bool := false
  retraining : Bool := false
  poisonedAt : List Nat := []
  erased : Bool := false
  eccInEffect : Bool := true
  lostKey : Nat := 0
  deriving DecidableEq, Repr

/-! ## Partitions, jobs and queues -/

/-- A scale slot's record (Table 9.7). -/
structure ScaleRec where
  mode : Nat := 0
  ovf : Nat := 0
  fmt : Nat := 0
  hlen : Nat := 1
  margin : Nat := 0
  mexp0 : Int := 0
  mexp : Int := 0
  nanSeen : Bool := false
  fill : Nat := 0
  amaxStep : BitVec 32 := 0
  satStep : Nat := 0
  satTotal : Nat := 0
  hist : List (BitVec 32) := []
  deriving DecidableEq, Repr

/-- A write held at its owner during a move (R232): the cell it stalls, if a cell made it, its place in the object, its
data, the HINT it carries to the far tier and who made it, so that it is released as issued (R234). -/
structure HeldWrite where
  cell : Option Nat
  offset : Nat
  data : List Byte
  poison : Bool
  hint : Nat := 0
  writer : Writer := .control
  deriving DecidableEq, Repr

/-- A move record (R232 to R236); `prefetch` numbers the prefetch record that asked for it (R238). -/
structure MoveRec where
  obj : Nat
  srcTier : Nat
  src : Nat
  dstTier : Nat
  dst : Nat
  size : Nat
  sem : Nat
  hint : Nat := 0
  prefetch : Option Nat := none
  vacated : Bool := false
  release : Bool := false
  held : List HeldWrite := []
  deriving DecidableEq, Repr

/-- A page walk of a control core (R145): its descriptor's fields, the next page and the entries
fetched ahead, with their poison. -/
structure Walk where
  k : Nat
  table : Nat
  count : Nat
  npad : Nat
  nullPage : Nat
  d : Nat
  ring : Nat
  cell : Nat
  nslot : Nat
  full : Nat
  free : Nat
  bcast : Nat
  bcount : Nat
  next : Nat := 0
  fetched : List (List Byte × Bool) := []
  deriving DecidableEq, Repr

/-- A semaphore increment on its way (R86): the cell that signals, if a cell does, the job it is for, its
count, whether it is the DONE of a prefetch record (R238), and the write streams of the cell, each with the CCLK of its
SSTART, whose writes were issued before it. -/
structure Inc where
  cell : Option Nat
  jobSeq : Nat
  sem : Nat
  count : Nat
  done : Bool := false
  outs : List (Nat × Nat) := []
  deriving DecidableEq, Repr

/-- The saved context of a parked job (Table 14.11): its cells, the Stratus pages, page maps, groups and Stratus frame counts
(R375: of each die in `clocks` its frame, grants and count of CCLK) of its dies by position, its walks, moves and prefetch
position. -/
structure Saved where
  cells : Tbl Cell := []
  stratus : Tbl Mem := []
  stratusPoison : Tbl (List Nat) := []
  smaps : Tbl (Tbl Nat) := []
  groups : Tbl (Tbl BGroup) := []
  clocks : Tbl Die := []
  walks : Tbl Walk := []
  moves : List MoveRec := []
  prefetchNext : Nat := 0
  valid : Bool := false
  deriving DecidableEq, Repr

/-- A job (Table 14.5): its descriptor, its semaphores (R85), the SEM_WAITs queued at their homes in
order of arrival, the increments on their way, its times and counts for Table 14.7, its prefetch schedule
(0 for none) and how many records' WAIT have been decremented (R238). -/
structure Job where
  tag : Nat := 0
  seq : Nat := 0
  queue : Nat := 0
  index : Nat := 0
  tenant : Nat := 0
  image : Nat := 0
  save : Nat := 0
  vector : Nat := 0
  sems : Tbl Nat := []
  waiters : List (Nat × Nat) := []
  incs : List Inc := []
  pendingIncs : Tbl Nat := []
  preempts : Nat := 0
  startNs : Nat := 0
  sinceNs : Nat := 0
  runNs : Nat := 0
  preemptNs : Nat := 0
  prefetch : Nat := 0
  prefetchWaited : Nat := 0
  latched : Tbl Nat := []
  saved : Option Saved := none
  deriving DecidableEq, Repr

/-- A completion record held for a full ring (R370): its bytes, the MSI-X vector, and the descriptor whose STATUS
is still to be written. -/
structure HeldRec where
  record : List Byte
  vector : Nat
  queue : Nat
  index : Nat
  deriving DecidableEq, Repr

/-- A submission queue (R363): the values latched by the write that set ENABLE, HEAD and the tail. -/
structure Queue where
  enabled : Bool := false
  cls : Nat := 0
  log2 : Nat := 0
  vector : Nat := 0
  base : Nat := 0
  tenant : Nat := 0
  head : Nat := 0
  tail : Nat := 0
  deriving DecidableEq, Repr

/-- What a switch starts next (R373, R374): a new job from a queue, or the parked job of this
JOB_SEQ. -/
inductive Incoming where
  | fresh (q : Nat)
  | parked (seq : Nat)
  deriving DecidableEq, Repr

/-- A switch in progress (Table 14.10): step 0 quiesce, 1 save, 2 scrub, 3 restore; `outFailed` is the CODE and
WHERE of an error of the outgoing job (R378). -/
structure Switch where
  step : Nat := 0
  incoming : Incoming := .fresh 0
  outFailed : Option (Nat × Nat) := none
  deriving DecidableEq, Repr

/-- A load in progress (R395). -/
structure Load where
  target : Nat
  length : Nat
  tenant : Nat
  next : Nat := 0
  hashed : List Byte := []
  deriving DecidableEq, Repr

/-- A measurement log entry (Table 15.4). -/
structure MeasEntry where
  kind : Nat
  tenant : Nat
  runs : Nat
  addr : Nat
  length : Nat
  digest : Nat
  deriving DecidableEq, Repr

/-- The measurement log and its chained digest (R397), and the nonces and reports per class (R398). -/
structure Measure where
  log : List MeasEntry := []
  digest : Nat := 0
  nonces : List (Cls × List Byte) := []
  reports : List (Cls × List Byte) := []
  deriving DecidableEq, Repr

/-- The marks of a frame buffer (R259). -/
structure Mark where
  short : Bool := false
  long : Bool := false
  nonref : Bool := false
  output : Bool := false
  owner : Nat := 0
  deriving DecidableEq, Repr

/-- A request of a context (R265, R268): its fields, its place among the partition's requests, whether it has started, the
offset of the next access unit in its input (R266), and the depth of the source it names. -/
structure MediaReq where
  ref : ReqRef
  op : Nat
  serial : Nat := 0
  started : Bool := false
  pos : Nat := 0
  depth : Nat := 8
  input : Nat := 0
  length : Nat := 0
  buffer : Nat := 0
  refbuf : Nat := 0
  start : Nat := 0
  sem : Nat := 0
  outputs : Nat := 0
  jobSeq : Nat := 0
  deriving DecidableEq, Repr

/-- What the output records of a decoded picture say of it (Table 10.7); `oneField` the parity alone present. -/
structure OutPic where
  flags : Nat := 0
  avgQp : Nat := 0
  depth : Nat := 8
  chroma : Nat := 1
  concealed : Nat := 0
  cycles : Nat := 0
  width : Nat := 0
  height : Nat := 0
  interlaced : Bool := false
  bottomFirst : Bool := false
  oneField : Option Bool := none
  order : Int := 0
  deriving DecidableEq, Repr

/-- A frame of which one field is decoded (R251): its buffer, that field's parity, its figures so far, and whether it waits
for output. -/
structure Half where
  buffer : Nat
  bottom : Bool
  pic : OutPic
  waits : Bool
  deriving DecidableEq, Repr

/-- The part's own state of a stream context (bytes 256 to 2,047 of its record, R261): the requests
waiting in order, the pictures by buffer with their orders and those waiting for output, the records held for a full ring,
what its drain leads to (1 FLUSH, 2 RESET, 3 rejection, 4 size change), the sequence in effect and the one a size change
leads to, the last reference decoded, a frame's first field, the bytes its parameter-set store holds, the encoder's counts
(R277) and the bytes its parked frame needs. `copy` is bytes 0 to 255 as an engine holds them (R262), empty when none does. -/
structure CtxSt where
  reqs : List MediaReq := []
  copy : List Byte := []
  pics : Tbl OutPic := []
  waiting : List Nat := []
  held : List (List Byte) := []
  lastDone : Bool := false
  drainKind : Nat := 0
  rejectTo : Nat := 0
  resumed : Bool := false
  sequenced : Bool := false
  nextSize : Nat × Nat := (0, 0)
  nextForm : Nat × Nat := (8, 1)
  lastRef : Option Nat := none
  half : Option Half := none
  psetLen : Nat := 0
  need : Nat := 0
  depth : Nat := 8
  chroma : Nat := 1
  interlaced : Bool := false
  concealedRefs : List Nat := []
  sinceKey : Nat := 0
  coded : Bool := false
  keyAsked : Bool := false
  bsPos : Nat := 0
  encRef : Option Nat := none
  prevSource : Option Nat := none
  deriving DecidableEq, Repr

/-- The slot a tensor writer is forming: its number, its output record and its phase (R290). -/
structure SampleSlot where
  slot : Nat
  record : List Byte
  phase : Nat
  deriving DecidableEq, Repr

/-- A sample request being served (R286 to R292): slots filled, the index of the last record taken, the slot
being formed, the last phase applied, the boxes of the phases applied (their corners as FP32 codes, then
whether the output is flipped), the shape fields of its first phase, the last slot's histogram, RESULT so
far, the cache way claimed, COUNT and the hash of its list at its
start, and COUNT as last seen (R290). -/
structure Sample where
  ref : ReqRef
  raw : List Byte
  ctx : Nat
  jobSeq : Nat
  slots : Nat := 0
  lastIndex : Option Nat := none
  forming : Option SampleSlot := none
  phase : Nat := 0
  boxes : Tbl (List Nat × Bool) := []
  shape : List Nat := []
  hist : List Nat := []
  result : Nat := 0
  way : Option Nat := none
  listCount : Nat := 0
  seen : Nat := 0
  opHash : Nat := 0
  deriving DecidableEq, Repr

/-- A sample-cache directory entry (R305): STATE 0 FREE, 1 FILLING, 2 VALID. -/
structure CacheEnt where
  state : Nat := 0
  key : List Nat := []
  pin : Nat := 0
  lastUse : Nat := 0
  readers : Nat := 0
  frames : Nat := 0
  tokens : Nat := 0
  result : Nat := 0
  deriving DecidableEq, Repr

/-- A message of a collective call received so far (R344): the member it comes from, its STEP, the packets
of it that have come, and its bytes with their poison. -/
structure CollIn where
  src : Nat
  step : Nat
  got : List Nat := []
  count : Nat := 0
  data : Tbl (List (Byte × Bool)) := []
  deriving DecidableEq, Repr

/-- A PLACE received (R352): the sender, its entry, DST_OFF and LENGTH. -/
structure PlaceRec where
  src : Nat
  entry : Nat
  offset : Nat
  length : Nat
  deriving DecidableEq, Repr

/-- A collective call (Table 13.3): its raw descriptor, its SEQ, the algorithm it runs, what it has received,
the messages of its schedule it has sent and the pieces of its result it has placed, by number, the PLACEs
received, and whether poison reached it. -/
structure Call where
  ref : ReqRef
  raw : List Byte
  comm : Nat
  jobSeq : Nat
  epoch : Nat
  seq : Nat
  alg : Nat
  started : Bool := false
  inbox : List CollIn := []
  sent : List Nat := []
  placed : List Nat := []
  places : List PlaceRec := []
  placedIn : List (Nat × Nat × Nat) := []
  poisoned : Bool := false
  deriving DecidableEq, Repr

/-- A collective packet or control message held for a call not yet issued (R345), with its session. -/
structure HeldPkt where
  sess : Nat
  pkt : Pkt
  deriving DecidableEq, Repr

/-- A partition (R358): the resources it was formed with, its running and parked jobs (most recently
parked first), its queues, control-core state, scale table, media, samples, collectives, security
state, and the scrubs it still waits for (items of Table 15.6 by row, 1 to 9). -/
structure Part where
  dies : List Nat := []
  groups : List Nat := []
  usable : List Nat := []
  formed : Tbl Nat := []
  confidential : Bool := false
  job : Option Job := none
  parked : List Job := []
  nextSeq : Nat := 0
  queues : Tbl Queue := []
  lastQueue : Tbl Nat := []
  lastJobQueue : Nat := 63
  preemptStatus : Nat := 0
  switch : Option Switch := none
  latched : Tbl Nat := []
  walks : Tbl Walk := []
  moves : List MoveRec := []
  prefetchPos : Option Nat := none
  prefetchBusy : Bool := false
  scale : Tbl ScaleRec := []
  scaleCopy : Tbl (Int × Nat) := []
  advance : Option Nat := none
  heldRecs : List HeldRec := []
  nextQueue : Option Nat := none
  tenantUsed : Bool := false
  keys : Tbl Nat := []
  actFor : Option Nat := none
  load : Option Load := none
  meas : Measure := {}
  marks : Tbl Mark := []
  ctxs : Tbl CtxSt := []
  unitWaits : List UnitWait := []
  mediaSerial : Nat := 0
  mediaWait : List (Nat × MediaReq) := []
  parkedBuf : List (Nat × Nat) := []
  samples : List Sample := []
  cache : Tbl CacheEnt := []
  calls : List Call := []
  heldPkts : List HeldPkt := []
  lastEpoch : Option Nat := none
  scrubs : List Nat := []
  deriving DecidableEq, Repr

/-! ## Media engines, network, sequencer, server -/

/-- A media engine (R262, R280): the context it is on and the picture it works at, the buffer it fills, the access unit's
bytes and whether they were cut short or read poisoned (R266, R272), the field it decodes and whether it joins a first
field's buffer (R251), whether it changed context before the picture (R255), the blocks rebuilt when the budget ended
(R271); for an encoder the source's depth, the slices and bytes emitted of the frame (R276) and the vectors of its motion
search (R278: per 8 × 8 block MVX, MVY and SAD); and the credit of each partition. -/
structure Engine where
  on : Option (Nat × Nat) := none
  busy : Option (Nat × Nat) := none
  buffer : Nat := 0
  au : Nat := 0
  cut : Bool := false
  field : Option Bool := none
  second : Bool := false
  switched : Bool := false
  isKey : Bool := false
  budget : Option Nat := none
  depth : Nat := 8
  slices : Nat := 0
  emitted : Nat := 0
  motion : List (Int × Int × Nat) := []
  credit : Tbl Int := []
  deriving DecidableEq, Repr

/-- Session states (Table 12.4). -/
inductive SessState where
  | closed
  | opening
  | opened
  | rekeying
  | parked
  | failed
  | closing
  deriving DecidableEq, Repr

/-- A packet sent and not yet acknowledged (R328), with the time of its transmission in ns; the payload of
DATA is not kept, since a retransmission reads its source again. -/
structure Tx where
  pkt : Pkt
  sentAt : Nat
  deriving DecidableEq, Repr

/-- The response to a received GET (R324): its message field and MSN, the place it reads, and its packets sent
and acknowledged. -/
structure Resp where
  msg : Nat
  msn : Nat
  rkey : Nat
  source : Nat
  length : Nat
  sent : Nat := 0
  acked : List Nat := []
  rnr : Bool := false
  deriving DecidableEq, Repr

/-- A link key set of a session (R389, R393): key and salt of each direction. -/
structure LinkKeys where
  sendKey : List Byte
  sendSalt : List Byte
  recvKey : List Byte
  recvSalt : List Byte
  deriving DecidableEq, Repr

/-- An NCT session (R316 to R329): both directions of its transport state. `outq` holds the packets due
before any other: control packets and packets to send again. `keys` and `oldKeys` are the current and the old link key set,
`newKeys` the one that follows the REKEY_REPLY due, `eph` the ephemeral scalar of an agreement under way, `ephPub` the
point the session's HELLO or REPLY carries (R318, R389, R393). -/
structure Sess where
  state : SessState := .closed
  part : Nat := 0
  jobSeq : Nat := 0
  peer : Nat := 0
  peerSess : Nat := 0
  peerPub : List Byte := []
  level : Nat := 0
  keyPhase : Bool := false
  keys : Option LinkKeys := none
  oldKeys : Option LinkKeys := none
  newKeys : Option LinkKeys := none
  eph : Option Nat := none
  ephPub : Option (List Byte) := none
  ref : Option ReqRef := none
  sem : Nat := 0
  hellos : Nat := 0
  errorBit : Bool := false
  psn : Nat := 0
  ackPsn : Nat := 0
  keyPkts : Nat := 0
  unacked : List Tx := []
  outq : List Pkt := []
  resps : List Resp := []
  nextMsn : Nat := 0
  peerMark : Nat := 0
  rxCum : Nat := 0
  rxSack : List Nat := []
  rxPend : Nat := 0
  rxCe : Nat := 0
  rxMsg : Nat := 0
  rxMark : Nat := 0
  rxEnded : List Nat := []
  rxGot : List (Nat × Nat) := []
  rxHeld : List Pkt := []
  window : Rat := 0
  alpha : Rat := 1
  nAcked : Nat := 0
  nCe : Nat := 0
  tCut : Nat := 0
  measured : Bool := false
  srtt : Rat := 0
  rttvar : Rat := 0
  backoff : Nat := 0
  rnrUs : Nat := 50
  failMs : Nat := 1000
  windowMax : Nat := 1024
  policy : Nat := 0
  closeAsked : Bool := false
  nextPort : Nat := 0
  deriving DecidableEq, Repr

/-- What a message of a collective engine belongs to (Table 13.5): its call and STEP. -/
structure CollTag where
  comm : Nat
  epoch : Nat
  seq : Nat
  step : Nat
  deriving DecidableEq, Repr

/-- A message of the part (R321, R322): its ID's holder. `data` is what a collective engine sends, byte by
byte with its poison; a PUT reads its source again. -/
structure Msg where
  sess : Nat
  msn : Nat
  op : Nat
  ref : Option ReqRef := none
  sem : Nat := 0
  jobSeq : Nat := 0
  source : Nat := 0
  rkey : Nat := 0
  roffset : Nat := 0
  length : Nat := 0
  tag : Nat := 0
  rsem : Nat := 0
  rcount : Nat := 0
  count : Nat := 1
  sent : Nat := 0
  acked : List Nat := []
  got : List Nat := []
  completed : Bool := false
  rnr : Bool := false
  coll : Option CollTag := none
  data : List (Byte × Bool) := []
  deriving DecidableEq, Repr

/-- A fence waiting on its session (R331): every message below its MSN. -/
structure FenceReq where
  ref : ReqRef
  sess : Nat
  msn : Nat
  sem : Nat
  jobSeq : Nat
  deriving DecidableEq, Repr

/-- A handshake the key store has queued (R318): a HELLO of an opening session, or a REPLY to a peer's
session. -/
structure Handshake where
  sess : Nat
  peer : Nat
  peerSess : Nat
  hello : Bool
  code : Nat := 0
  part : Nat := 0
  deriving DecidableEq, Repr

/-- A received packet that holds a credit of a network die until it is placed (R332): one of its partition's
reserved credits, or a shared one. -/
structure InPkt where
  sess : Nat
  psn : Nat
  die : Nat
  part : Nat
  shared : Bool
  deriving DecidableEq, Repr

/-- The network dies (R321, R332): sessions, messages and the generation of each ID, the packets that hold
credits, the sessions that wait for one, fences, the key store's queue, each port's mode in effect, and the
ICMP requests handed to the OC by port. -/
structure Net where
  sessions : Tbl Sess := []
  msgs : Tbl Msg := []
  gens : Tbl Nat := []
  nextId : Nat := 0
  fences : List FenceReq := []
  inPkts : List InPkt := []
  waitCredit : List Nat := []
  handshakes : List Handshake := []
  portMode : Tbl Nat := []
  icmp : Tbl Nat := []
  ocSent : Tbl (Nat × Nat) := []
  portCredit : Tbl (Tbl Int) := []
  deriving DecidableEq, Repr

/-- A recovery action (Table 17.4): its kind by its code's low byte (1 CONTAINMENT to 7
MODULE_RESET), its target (cell, group, engine or die), its partitions, the error's code and WHERE, the
SEQ of the error's record, a cell to swap within it, whether its steps have been carried out, and the CODE and
WHERE of the contained errors of actions merged into it, by partition. -/
structure Action where
  kind : Nat
  target : Nat := 0
  parts : List Nat := []
  code : Nat := 0
  wher : Nat := 0
  seq : Nat := 0
  swap : Option Nat := none
  performed : Bool := false
  merged : Tbl (Nat × Nat) := []
  deriving DecidableEq, Repr

/-- The recovery sequencer (R438): the action running, and the queue in order. -/
structure Recovery where
  running : Option Action := none
  queue : List Action := []
  deriving DecidableEq, Repr

/-- An Almanac record (Table 17.8), less its CRC, which `Machine.almBytes` computes. `ms` is the time
in milliseconds of operation. -/
structure AlmRec where
  seq : Nat
  ms : Nat
  powerCycles : Nat
  cls : Nat
  part : Nat
  unit : Nat
  code : Nat
  jobTag : Nat := 0
  where_ : Nat := 0
  link : Nat := 0xFFFFFFFF
  addr : Nat := 0
  count : Nat := 0
  arg : Nat := 0
  deriving DecidableEq, Repr

/-- The Almanac (R447 to R451): the flash ring, newest first, the staged records, newest first, the
next SEQ, the drops since the last commit, whether an erase runs, and per unit the time of its last
CORRECTED record and the corrections since. -/
structure Almanac where
  ring : List AlmRec := []
  stage : List AlmRec := []
  nextSeq : Nat := 0
  drops : Nat := 0
  erasing : Bool := false
  stopped : Bool := false
  corr : Tbl (Nat × Nat) := []
  deriving DecidableEq, Repr

/-- A mailbox page (Table 16.9): STATE 0 IDLE, 1 BUSY, 2 DONE, 3 NOT_READY. -/
structure Page where
  state : Nat := 3
  request : List Byte := []
  response : List Byte := []
  vector : Nat := 0
  overrun : Nat := 0
  deriving DecidableEq, Repr

/-- An open read or write transfer of a DOM entry (R417, R418). -/
structure Transfer where
  caller : Caller
  addr : Nat
  tag : Nat
  total : Nat := 0
  data : List Byte := []
  deriving DecidableEq, Repr

/-- A persistent WRITE awaiting its commit (R413). -/
structure StoreReq where
  caller : Caller
  frame : List Byte
  addr : Nat
  value : Nat
  deriving DecidableEq, Repr

/-- A response kept for the management port (R424). -/
structure Kept where
  addr : Nat
  port : Nat
  tag : Nat
  request : List Byte
  response : List Byte
  deriving DecidableEq, Repr

/-- The dictionary server and its transports (R412 to R426): pages, snapshots, write transfers,
transfers ended by the part, kept responses, requests outstanding per transport and endpoint, EIDs by
binding and endpoint, the pending persistent writes, and the DOM values. -/
structure Server where
  ready : Bool := false
  pages : Tbl Page := []
  snaps : List Transfer := []
  writes : List Transfer := []
  aborted : List Transfer := []
  kept : List Kept := []
  outstanding : List (Caller × List Byte × Nat) := []
  eids : Tbl Nat := []
  store : List StoreReq := []
  doms : Tbl (List Byte) := []
  cursors : Tbl Nat := []
  waitReports : List (Caller × List Byte) := []
  deriving DecidableEq, Repr

/-- A management pin (R470 to R472): the function in effect, the switch in progress (the new
function), the write held meanwhile, and the level the old function last drove. -/
structure Pin where
  fn : Nat := 0
  next : Option Nat := none
  held : Option Nat := none
  driven : Option Bool := none
  deriving DecidableEq, Repr

/-- Firmware slots (R400, R458) of one image, SC or OC: the active slot (false A, true B), and per
slot its image and its INVALID mark. -/
structure FwSlots where
  active : Bool := false
  imageA : Option FwImage := none
  imageB : Option FwImage := none
  invalidA : Bool := false
  invalidB : Bool := false
  deriving DecidableEq, Repr

/-- What survives a module reset or a loss of power (R13, R19, R400, R413, R447): the dictionary
store, cells fenced off and the physical cell each logical one runs on when not its own, dies retired, firmware
slots, the security version when raised, the Almanac, the life counters, the debug level the next reset grants (R404), each die's fuse-set
CCLK ceiling (R31; one not listed is `Config.cclkCeilingMHz`) and the firmware's feature level (R319). -/
structure Nonvolatile where
  store : Tbl Nat := []
  restore : Bool := false
  fenced : List Nat := []
  phys : Tbl Nat := []
  retired : List Nat := []
  sc : FwSlots := {}
  oc : FwSlots := {}
  svn : Option Nat := none
  alm : Almanac := {}
  opMs : Nat := 0
  powerCycles : Nat := 0
  debugNext : Nat := 0
  debugSticky : Bool := false
  activateAtReset : Bool := false
  ceiling : Tbl Nat := []
  level : Nat := Config.featureLevel
  deriving DecidableEq, Repr

/-- Bring-up (R453 to R463): the levels of the inputs, whether power-up is under way or done (`armed`), the rails and
references, the latched straps; whether the part stopped with BOOT_FAIL, tripped, or waits for MOD_EN held low;
training, its round, and a margin measurement by its request; an OC activation awaited or under way, whether the SC
runs; the hold-up bank as measured and whether it was found weak (R479); whether input power passed the fuse limit (R403), whether a temperature has lowered CCLK in this millisecond, the
milliseconds since module reset and in a row below 95 % of the cap (R478), and the energy drawn in mJ. -/
structure Boot where
  modEn : Bool := false
  inputOk : Bool := true
  armed : Bool := false
  modResetN : Bool := true
  perstN : Bool := false
  railsUp : Bool := false
  refs : List RefClk := [.ref100, .ref156A, .ref156B, .ref25]
  straps : Nat := 0
  stopped : Bool := false
  tripLatched : Bool := false
  round : Nat := 0
  training : Bool := false
  margin : Option Nat := none
  startMargin : Bool := false
  ocPending : Bool := false
  ocRestart : Bool := false
  scUp : Bool := false
  lowNeeded : Bool := false
  overLimit : Bool := false
  stepped : Bool := false
  ms : Nat := 0
  quietMs : Nat := 0
  energyMj : Nat := 0
  pcieUp : Bool := false
  holdupUf : Nat := 0
  holdupFault : Bool := false
  resetCause : Nat := 0
  deriving DecidableEq, Repr

/-- Security state of the module (R384 to R404): DRBG requests since the last reseed, memory keys made, the number of
the debug challenge among the free values, module nonces and reports, and whether the UDS has been read and is blocked
until the next reset, and the digest of the OC image the AK was derived for (R386). -/
structure Sec where
  drbg : Nat := 0
  keySerial : Nat := 0
  challenge : Nat := 0
  meas : Measure := {}
  uds : Bool := false
  akOc : Option Nat := none
  deriving DecidableEq, Repr

/-- A fabric packet (R22, R24): its ports, its class (0 MGMT, 1 RESERVED, 2 BULK), the bytes it takes in the
destination's FIFO, and the cell and read stream whose far-tier request it carries, if it does. -/
structure FabPkt where
  src : Nat
  dst : Nat
  cls : Nat
  bytes : Nat := 64
  req : Option (Nat × Nat) := none
  deriving DecidableEq, Repr

/-- The package fabric (R22 to R25, R30): the packets in the clock-crossing FIFOs of their destinations, in order of
arrival, the packets held at their sources in the order they were made, and the consecutive CRC failures of a
transfer by its port and number. -/
structure Fabric where
  fifo : List FabPkt := []
  held : List FabPkt := []
  fails : List ((Nat × Nat) × Nat) := []
  deriving DecidableEq, Repr

/-- A host read outstanding (R203, R204): its number, partition, window and offset, length. -/
structure HostRd where
  id : Nat
  p : Nat
  window : Nat
  offset : Nat
  len : Nat
  deriving DecidableEq, Repr

/-- The frame of an NCT packet as it leaves (R313, R315): Ethernet addresses, the IPv6 and UDP fields, the 48 B header of
Table 12.2 and the payload with its tag as it is encrypted (R316). -/
structure Wire where
  dstMac : Nat
  srcMac : Nat
  traffic : Nat
  hopLimit : Nat
  flow : Nat
  srcIp : Nat
  dstIp : Nat
  srcPort : Nat
  dstPort : Nat
  header : List Byte
  payload : List Byte
  deriving DecidableEq, Repr

/-- What leaves the part on its interfaces, as the model records it (the model's own field, log 7). -/
inductive Out where
  | msix (vector : Nat)
  | errFatal
  | response (c : Caller) (frame : List Byte)
  | mctp (m : Mctp) (frame : List Byte)
  | datagram (addr port : Nat) (frame : List Byte)
  | spdm (code : Nat) (body : List Byte)
  | packet (port : Nat) (w : Wire) (k : Pkt)
  | ocFrame (port : Nat)
  | mgmt (arp : Bool)
  | configReply (register value : Nat)
  | marginStatus (lane errors : Nat)
  | moveRefused (p code : Nat)
  | shadowBusy (g : Nat)
  deriving DecidableEq, Repr

/-- The machine. `pending` is the queue of commands that wait, first in first out. `fresh` numbers
the free values used (log 2). `od` holds the dictionary's values (an address not listed reads its
catalogue default), `latched` the values latched module-wide (R414). `far` is the far tier by
physical place, `farFlips` the bits in which the devices' contents differ from what was written, by physical U16 (R182), `farKeys` the memory key each of its 64 B units was written under (R390), `host` the host memory the part reaches, by I/O virtual address, `hostBad` its 64 B units
whose last read failed (R204), `hostKeys` the memory key and tweak each of those units was written under (R390). -/
structure State where
  pending : List Instr := []
  fresh : Nat := 0
  od : Tbl Nat := []
  latched : Tbl Nat := []
  cells : Tbl Cell := []
  dies : Tbl Die := []
  mds : Tbl MemDie := []
  grps : Tbl Grp := []
  far : Mem := []
  farKeys : Tbl Nat := []
  farPoison : List Nat := []
  farFlips : Tbl Nat := []
  host : Mem := []
  hostBad : List Nat := []
  hostKeys : Tbl Nat := []
  hostReads : List HostRd := []
  hostNext : Nat := 0
  parts : Tbl Part := []
  engines : Tbl Engine := []
  net : Net := {}
  recovery : Recovery := {}
  server : Server := {}
  pins : Tbl Pin := []
  nv : Nonvolatile := {}
  boot : Boot := {}
  sec : Sec := {}
  fabric : Fabric := {}
  out : List Out := []
  deriving DecidableEq, Repr

/-- The machine right after reset: nothing listed, so that every entry and register reads its reset
value, no command waiting, the module unpowered with its input in range (log 8). -/
def State.reset : State := {}

/-- Why a step stops with a fault. The manual gives every step an effect in every state it can come
about in, so no meaning of this model raises one. -/
inductive Fault where
  /-- Nobody raises this; it keeps the type inhabited for statements about faults (safe). -/
  | none_
  deriving DecidableEq, Repr

/-- Why a step is refused. -/
inductive Refusal where
  /-- Raised by an arm of `exec` that has no meaning yet; safe. -/
  | notModelled (mnemonic : String)
  deriving DecidableEq, Repr

end Sys2Proof.Machine
end

