-- ==== Sys2Proof/Machine/Ops.lean ====
section
/-!
DEFINITION. The named operations over the state: tables, byte memories, units of the part, dictionary
values, outputs, Almanac records and the report of an error.
-/

namespace Sys2Proof.Machine

/-- The outcome every meaning of this model gives: a next state. -/
abbrev Res := Host.Outcome State Fault Refusal

/-! ## Sparse tables -/

/-- The value a table lists under a key. -/
def tget {α : Type} : Tbl α → Nat → Option α
  | [], _ => none
  | (k, v) :: t, n => if k = n then some v else tget t n

/-- The table with a key's value set, keys kept rising. -/
def tset {α : Type} : Tbl α → Nat → α → Tbl α
  | [], n, a => [(n, a)]
  | (k, v) :: t, n, a =>
    if n < k then (n, a) :: (k, v) :: t else if k = n then (n, a) :: t else (k, v) :: tset t n a

/-- The table without a key. -/
def tdel {α : Type} (t : Tbl α) (n : Nat) : Tbl α := t.filter fun e => e.1 != n

/-! ## Byte memories -/

/-- The byte at an address: 0 where none is listed (log 6). -/
def mget : Mem → Nat → Byte
  | [], _ => 0
  | (k, v) :: t, n => if k = n then v else mget t n

/-- The cells that hold bytes from an address upwards: those that are not 0. -/
def cellsAt : Nat → List Byte → Mem
  | _, [] => []
  | a, b :: bs => if b = 0 then cellsAt (a + 1) bs else (a, b) :: cellsAt (a + 1) bs

/-- Bytes written from an address upwards, in canonical form. -/
def mwrite (m : Mem) (a : Nat) (bs : List Byte) : Mem :=
  (m.filter fun e => decide (e.1 < a)) ++ cellsAt a bs ++ m.filter fun e => decide (a + bs.length ≤ e.1)

/-- The memory with a byte written. -/
def mset (m : Mem) (n : Nat) (b : Byte) : Mem := mwrite m n [b]

/-- `n` bytes from an address. -/
def mread (m : Mem) (a n : Nat) : List Byte :=
  let w := m.filter fun e => decide (a ≤ e.1) && decide (e.1 < a + n)
  (List.range n).map fun i => mget w (a + i)

/-- Zeros written over `[a, a + n)`. -/
def mclear (m : Mem) (a n : Nat) : Mem := m.filter fun e => !(decide (a ≤ e.1) && decide (e.1 < a + n))

/-- A number added to a set kept as a list. -/
def addTo (l : List Nat) (n : Nat) : List Nat := if l.contains n then l else l ++ [n]

/-! ## Units of the part -/

/-- Cell `g` (R13). -/
def cellOf (s : State) (g : Nat) : Cell := (tget s.cells g).getD {}

/-- The state with cell `g` replaced. -/
def setCell (s : State) (g : Nat) (c : Cell) : State := { s with cells := tset s.cells g c }

/-- The state with cell `g` changed. -/
def modCell (s : State) (g : Nat) (f : Cell → Cell) : State := setCell s g (f (cellOf s g))

/-- Compute die `d`. -/
def dieOf (s : State) (d : Nat) : Die := (tget s.dies d).getD {}

/-- The state with die `d` changed. -/
def modDie (s : State) (d : Nat) (f : Die → Die) : State :=
  { s with dies := tset s.dies d (f (dieOf s d)) }

/-- Memory die `m`. -/
def mdOf (s : State) (m : Nat) : MemDie := (tget s.mds m).getD {}

/-- The state with memory die `m` changed. -/
def modMd (s : State) (m : Nat) (f : MemDie → MemDie) : State :=
  { s with mds := tset s.mds m (f (mdOf s m)) }

/-- Channel group `g`. -/
def grpOf (s : State) (g : Nat) : Grp := (tget s.grps g).getD {}

/-- The state with group `g` changed. -/
def modGrp (s : State) (g : Nat) (f : Grp → Grp) : State :=
  { s with grps := tset s.grps g (f (grpOf s g)) }

/-- Partition `p`. -/
def partOf (s : State) (p : Nat) : Part := (tget s.parts p).getD {}

/-- The state with partition `p` changed. -/
def modPart (s : State) (p : Nat) (f : Part → Part) : State :=
  { s with parts := tset s.parts p (f (partOf s p)) }

/-- The state with the running job of partition `p` changed. -/
def modJob (s : State) (p : Nat) (f : Job → Job) : State :=
  modPart s p fun q => { q with job := q.job.map f }

/-- Media engine `e`: decode engines 0 to 15, encode engines 16 and 17. -/
def engineOf (s : State) (e : Nat) : Engine := (tget s.engines e).getD {}

/-- The state with engine `e` changed. -/
def modEngine (s : State) (e : Nat) (f : Engine → Engine) : State :=
  { s with engines := tset s.engines e (f (engineOf s e)) }

/-- NCT session `n`. -/
def sessOf (s : State) (n : Nat) : Sess := (tget s.net.sessions n).getD {}

/-- The state with session `n` changed. -/
def modSess (s : State) (n : Nat) (f : Sess → Sess) : State :=
  { s with net := { s.net with sessions := tset s.net.sessions n (f (sessOf s n)) } }

/-- Management pin `n`. -/
def pinOf (s : State) (n : Nat) : Pin := (tget s.pins n).getD {}

/-- The state with pin `n` changed. -/
def modPin (s : State) (n : Nat) (f : Pin → Pin) : State :=
  { s with pins := tset s.pins n (f (pinOf s n)) }

/-- The partition whose formed resources hold compute die `d` (R358). -/
def dieOwner (s : State) (d : Nat) : Option Nat :=
  (s.parts.find? fun e => e.2.dies.contains d).map (·.1)

/-- The partition that holds cell `g`. -/
def cellOwner (s : State) (g : Nat) : Option Nat := dieOwner s (g / 80)

/-- The partition that holds channel group `g`. -/
def groupOwner (s : State) (g : Nat) : Option Nat :=
  (s.parts.find? fun e => e.2.groups.contains g).map (·.1)

/-- The cells of a partition in partition cell order (R358). -/
def partCells (q : Part) : List Nat := q.dies.flatMap fun d => (List.range 80).map (80 * d + ·)

/-! ## Dictionary values -/

/-- The value of a dictionary entry: its default where none is held (R408). -/
def odGet (s : State) (a : Nat) : Nat := (tget s.od a).getD (odDefault a)

/-- The state with a dictionary value set. -/
def odSet (s : State) (a v : Nat) : State := { s with od := tset s.od a v }

/-- A counter increased by `n`; a counter is a U64 (log 10). -/
def odAdd (s : State) (a n : Nat) : State := odSet s a ((odGet s a + n) % 2 ^ 64)

/-- A counter increased by one. -/
def odInc (s : State) (a : Nat) : State := odAdd s a 1

/-- `n` events of a unit in every Anemometer counter that selects them and is enabled (R431). -/
def anem (s : State) (unit event n : Nat) : State :=
  (List.range 32).foldl (fun t k =>
    if bit (odGet t Ad.anemEnable) k ∧ odGet t (Ad.anemSelect k) = unit * 65536 + event then odAdd t (Ad.anemCount k) n else t) s

/-- A block is cut: its clock stopped or its power off (R384, Table 15.1). -/
def blockCut (s : State) (b : Nat) : Bool := bit (odGet s Ad.blockClockStop) b || bit (odGet s Ad.blockPowerOff) b

/-- Status bits set. -/
def odOr (s : State) (a v : Nat) : State := odSet s a (odGet s a ||| v)

/-- A value a partition latched at its job's start, or at its formation (R414). -/
def latched (s : State) (p a : Nat) : Nat := (tget (partOf s p).latched a).getD (odDefault a)

/-- A value a partition was formed with (R414). -/
def formed (s : State) (p a : Nat) : Nat := (tget (partOf s p).formed a).getD (odDefault a)

/-- A value latched at module reset (R414). -/
def atReset (s : State) (a : Nat) : Nat := (tget s.latched a).getD (odDefault a)

/-- The values a partition's entries of one applies-when rule hold now, for latching (R414). -/
def valuesOf (s : State) (p : Nat) (rule : Applies) : Tbl Nat :=
  s.od.filter fun e =>
    ((findRow e.1).any fun r =>
      r.applies = rule ∧ (indexPart (e.1 / 256) = some p ∨ (r.scope = .perPart ∧ e.1 % 256 = p + 1)))

/-! ## Outputs and free values -/

/-- Something leaves the part (log 7). -/
def emit (s : State) (o : Out) : State := { s with out := s.out ++ [o] }

/-- A value the manual leaves open, and the state with the next one due (log 2). -/
def fresh (s : State) : Nat × State := (Config.freeValue s.fresh, { s with fresh := s.fresh + 1 })

/-- The time since module reset in ns (Table 14.7): whole milliseconds as counted by the power
average, and an open part below a millisecond (log 11). -/
def nowNs (s : State) : Nat := s.boot.ms * 1000000 + Config.freeValue s.fresh % 1000000

/-! ## The Almanac -/

/-- The 60 bytes of a record the CRC covers (Table 17.8). -/
def almBody (r : AlmRec) : List Byte :=
  leBytes 4 r.seq ++ leBytes 5 (r.ms / 1000) ++ leBytes 1 0 ++ leBytes 2 (r.ms % 1000 * 65536 / 1000) ++
  leBytes 4 r.powerCycles ++ leBytes 1 r.cls ++ leBytes 1 r.part ++ leBytes 2 r.unit ++
  leBytes 4 r.code ++ leBytes 8 r.jobTag ++ leBytes 4 r.where_ ++ leBytes 4 r.link ++
  leBytes 8 r.addr ++ leBytes 4 r.count ++ leBytes 4 r.arg ++ leBytes 4 0

/-- One byte into the reflected CRC-32C register (polynomial 0x1EDC6F41, Table 0.2). -/
def crc32cByte (c : Nat) (b : Byte) : Nat :=
  (List.range 8).foldl (fun v _ => if v % 2 = 1 then (v / 2) ^^^ 0x82F63B78 else v / 2) (c ^^^ b.toNat)

/-- CRC-32C of a byte string. -/
def crc32c (bs : List Byte) : Nat := bs.foldl crc32cByte 0xFFFFFFFF ^^^ 0xFFFFFFFF

/-- A record's 64 bytes (Table 17.8). -/
def almBytes (r : AlmRec) : List Byte := almBody r ++ leBytes 4 (crc32c (almBody r))

/-- A record staged under R448: dropped, and counted, where the stage is full for its class. -/
def stageRec (s : State) (r : AlmRec) : State :=
  let a := s.nv.alm
  let n := a.stage.length
  if a.stopped then s
  else if n ≥ 4096 ∨ (n ≥ 3072 ∧ r.cls ≤ 1) then
    let s1 := { s with nv := { s.nv with alm := { a with drops := a.drops + 1 } } }
    odOr (odInc s1 Ad.almDropped) Ad.errModuleStatus 64
  else
    let r1 := { r with seq := a.nextSeq, ms := s.nv.opMs, powerCycles := s.nv.powerCycles }
    { s with nv := { s.nv with alm :=
      { a with stage := r1 :: a.stage, nextSeq := (a.nextSeq + 1) % 2 ^ 32 } } }

/-- The LINK of a record written now: the record the running action answers (R444). -/
def linkNow (s : State) : Nat :=
  match s.recovery.running with
  | some a => a.seq
  | none => 0xFFFFFFFF

/-! ## Reporting an error -/

/-- An error as R434 to R436 report it: its code, its record's class (2 DEFERRED, 3 CONTAINED,
4 FATAL, 0 INFO, 6 SECURITY), the partition and unit concerned, and the record's further fields. -/
structure Rep where
  code : Nat
  cls : Nat
  part : Option Nat := none
  unit : Nat := 0x1900
  tag : Nat := 0
  wher : Nat := 0
  addr : Nat := 0
  count : Nat := 0
  arg : Nat := 0
  deriving DecidableEq, Repr

/-- The MSI-X message of ERR_NOTIFY_VECTOR when its ENABLE bit is set (R435, R452). -/
def notify (s : State) : State :=
  let v := odGet s Ad.errNotifyVector
  if bit v 15 then emit s (.msix (bits v 10 0)) else s

/-- The class bit of ERR_MODULE_STATUS and ERR_PART_STATUS (R434, R452). -/
def classBit (cls : Nat) : Nat :=
  match cls with
  | 1 => 1
  | 2 => 2
  | 3 => 4
  | 4 => 8
  | _ => 0

/-- The total the class counts in (Table 17.9). -/
def countTotal (s : State) (cls n : Nat) : State :=
  match cls with
  | 1 => odAdd s Ad.errCorrectedTotal n
  | 2 => odAdd s Ad.errDeferredTotal n
  | 3 => odAdd s Ad.errContainedTotal n
  | _ => s

/-- Steps 1 to 3 of R435 after the owning chapter's counter: totals, status bits, ERR_PART_LAST, and
the staged record. ERR_PART_STATUS has no bit for a fatal error. -/
def record (s : State) (e : Rep) : State :=
  let s1 := countTotal s e.cls 1
  let s2 := if classBit e.cls = 0 then s1 else odOr s1 Ad.errModuleStatus (classBit e.cls)
  let s3 := match e.part with
    | none => s2
    | some p =>
      let s4 := if e.cls = 2 ∨ e.cls = 3 then odOr s2 (Ad.errPartStatus p) (classBit e.cls) else s2
      odSet s4 (Ad.errPartLast p) (e.code * 2 ^ 32 + s.nv.alm.nextSeq)
  stageRec s3 { seq := 0, ms := 0, powerCycles := 0, cls := e.cls, part := e.part.getD 0xFF,
                unit := e.unit, code := e.code, jobTag := e.tag, where_ := e.wher,
                link := linkNow s, addr := e.addr, count := e.count, arg := e.arg }

/-- An error that ends no job: recorded, and notified when its record's class is deferred or above
(R435). -/
def report (s : State) (e : Rep) : State :=
  let s1 := record s e
  if e.cls ≥ 2 then notify s1 else s1

/-- A corrected error of a unit (Table 17.1): counted and its status bits set; its record is written
at most once in 60 s, with the corrections since the last (R448). The manual gives no code for it: the
record's CODE is a free value (log 12). -/
def corrected (s : State) (part : Option Nat) (unit addr : Nat) : State :=
  let s1 := odOr (countTotal s 1 1) Ad.errModuleStatus 1
  let s2 := match part with
    | none => s1
    | some p => odOr s1 (Ad.errPartStatus p) 1
  let a := s2.nv.alm
  let n := ((tget a.corr unit).map (·.2)).getD 0 + 1
  let due := match tget a.corr unit with
    | none => true
    | some (t, _) => decide (t + 60000 ≤ s2.nv.opMs)
  if due then
    let f := fresh s2
    let s3 := { f.2 with nv := { f.2.nv with alm := { a with corr := tset a.corr unit (f.2.nv.opMs, 0) } } }
    let s4 := match part with
      | none => s3
      | some p => odSet s3 (Ad.errPartLast p) (f.1 % 2 ^ 32 * 2 ^ 32 + s3.nv.alm.nextSeq)
    stageRec s4 { seq := 0, ms := 0, powerCycles := 0, cls := 1, part := part.getD 0xFF, unit := unit,
                  code := f.1 % 2 ^ 32, addr := addr, count := n, link := linkNow s }
  else
    let last := ((tget a.corr unit).map (·.1)).getD 0
    { s2 with nv := { s2.nv with alm := { a with corr := tset a.corr unit (last, n) } } }

/-- SEC_SVN (R400): as set at test until it is first raised. -/
def svnOf (n : Nonvolatile) : Nat := n.svn.getD (Config.setAtTest Ad.secSvn) % 65536

end Sys2Proof.Machine
end

