-- ==== Sys2Proof/Machine/Errors.lean ====
section
/-!
DEFINITION. Detecting an error that needs a recovery action: the report of R434 and R435, and how the
action starts, queues, widens or escalates (R438, R444, R445, Table 17.6). The actions' own steps are
commands (Machine/Recovery.lean).
-/

namespace Sys2Proof.Machine

/-! ## Codes (Table 17.2) -/

/-- The codes of Table 17.2 and the action codes of Table 17.4. -/
inductive Code where
  | illegalBundle | imemUncorrectable | streamBounds | semaphoreOverflow | semTimeout
  | predicateInvalid | specAmaxFull | reservationExceeded | poisonConsumed | registerUncorrectable
  | tileInvalid | tileBcastTimeout | windowInvalid | boxListInvalid | rotaryInvalid | kvInvalid
  | kvPageInvalid | addressFormatInvalid | drizzleBudget | poisonUnstorable | memRequestTimeout
  | hostAccessFailed | compressRegionInvalid | compressStreamInvalid | compressCheckFailed
  | dataPoisoned | groupRetired | mscTagUncorrectable | objectTableInvalid | objectStale
  | prefetchRecordInvalid | scaleTableInvalid | imageInvalid | saveAreaInvalid | patchInvalid
  | queueFault | dieRetired | partitionReset | mediaTableInvalid | sampleCacheInvalid
  | mediaWindowBlocked | mediaEngineFault | collEngineFault | netDieFault | linkDown
  | keystoreFailed | keystoreEntropyFail | accessRefused | debugTokenRefused | fabricReplayFail
  | managementUncorrectable | memoryDieFault | recoveryTimeout | powerLoss | almanacCleared
  | almanacDropped | dictStoreFailed
  deriving DecidableEq, Repr

/-- The value of a code (Table 17.2). -/
def Code.value : Code → Nat
  | .illegalBundle => 0x0101
  | .imemUncorrectable => 0x0102
  | .streamBounds => 0x0103
  | .semaphoreOverflow => 0x0104
  | .semTimeout => 0x0105
  | .predicateInvalid => 0x0106
  | .specAmaxFull => 0x0107
  | .reservationExceeded => 0x0108
  | .poisonConsumed => 0x0109
  | .registerUncorrectable => 0x010A
  | .tileInvalid => 0x0201
  | .tileBcastTimeout => 0x0202
  | .windowInvalid => 0x0203
  | .boxListInvalid => 0x0204
  | .rotaryInvalid => 0x0205
  | .kvInvalid => 0x0206
  | .kvPageInvalid => 0x0207
  | .addressFormatInvalid => 0x0301
  | .drizzleBudget => 0x0302
  | .poisonUnstorable => 0x0303
  | .memRequestTimeout => 0x0304
  | .hostAccessFailed => 0x0305
  | .compressRegionInvalid => 0x0306
  | .compressStreamInvalid => 0x0307
  | .compressCheckFailed => 0x0308
  | .dataPoisoned => 0x0309
  | .groupRetired => 0x030A
  | .mscTagUncorrectable => 0x030B
  | .objectTableInvalid => 0x0401
  | .objectStale => 0x0402
  | .prefetchRecordInvalid => 0x0403
  | .scaleTableInvalid => 0x0404
  | .imageInvalid => 0x0405
  | .saveAreaInvalid => 0x0406
  | .patchInvalid => 0x0407
  | .queueFault => 0x0408
  | .dieRetired => 0x0409
  | .partitionReset => 0x040A
  | .mediaTableInvalid => 0x0501
  | .sampleCacheInvalid => 0x0502
  | .mediaWindowBlocked => 0x0503
  | .mediaEngineFault => 0x0504
  | .collEngineFault => 0x0601
  | .netDieFault => 0x0602
  | .linkDown => 0x0603
  | .keystoreFailed => 0x0701
  | .keystoreEntropyFail => 0x0702
  | .accessRefused => 0x0703
  | .debugTokenRefused => 0x0704
  | .fabricReplayFail => 0x0801
  | .managementUncorrectable => 0x0802
  | .memoryDieFault => 0x0803
  | .recoveryTimeout => 0x0804
  | .powerLoss => 0x0A01
  | .almanacCleared => 0x0A02
  | .almanacDropped => 0x0A03
  | .dictStoreFailed => 0x0A04

/-! ## Partition states and actions -/

/-- PART_STATE's values (R380). -/
inductive PState where
  | absent | forming | idle | starting | running | switching | resetting | tearingDown
  deriving DecidableEq, Repr

/-- The value PART_STATE reads (R380). -/
def PState.value : PState → Nat
  | .absent => 0
  | .forming => 1
  | .idle => 2
  | .starting => 3
  | .running => 4
  | .switching => 5
  | .resetting => 6
  | .tearingDown => 7

/-- The partition is in a state. -/
def inState (s : State) (p : Nat) (x : PState) : Bool := odGet s (Ad.partState p) == x.value

/-- The partition's state set. -/
def setState (s : State) (p : Nat) (x : PState) : State := odSet s (Ad.partState p) x.value

/-- The tag of a partition's running job, 0 for none. -/
def jobTag (s : State) (p : Nat) : Nat := ((partOf s p).job.map Job.tag).getD 0

/-- A RECOVERY record of an action with its phase: 0 START, 1 DONE, 2 MERGED, 3 QUEUED (R438, R445). -/
def actionRec (s : State) (a : Action) (phase : Nat) : State :=
  notify (stageRec s
    { seq := 0, ms := 0, powerCycles := 0, cls := 5, part := a.parts.headD 0xFF,
      unit := 0x1900, code := 0x0900 + a.kind, link := a.seq, count := phase })

/-- ERR_RECOVERY_STATE and ERR_RECOVERY_QUEUED follow the sequencer; the manual names state 0 IDLE only
and this model reads the running action's number of Table 17.4 otherwise (log 14). -/
def showRecovery (s : State) : State :=
  let v := match s.recovery.running with
    | none => 0
    | some a => a.kind
  odSet (odSet s Ad.errRecoveryState v) Ad.errRecoveryQueued (min s.recovery.queue.length 255)

/-- A partition an action resets: formed, and neither forming nor being torn down. -/
def resettable (s : State) (p : Nat) : Bool := decide (2 ≤ odGet s (Ad.partState p)) && decide (odGet s (Ad.partState p) ≤ 6)

/-- An action starts: its START record, and its partitions read RESETTING where it resets them. -/
def startAction (s : State) (a : Action) : State :=
  let s1 := { s with recovery := { s.recovery with running := some a } }
  let s2 := actionRec s1 a 0
  let s3 := if a.kind = 1 ∨ a.kind = 2 ∨ a.kind = 4 ∨ a.kind = 6 then
      (a.parts.filter (resettable s)).foldl (fun t p => setState t p .resetting) s2 else s2
  showRecovery s3

/-- An action queues at the tail, or at the head (R444, R445). -/
def queueAction (s : State) (a : Action) (head : Bool) : State :=
  let q := s.recovery.queue
  let s1 := { s with recovery := { s.recovery with queue := if head then a :: q else q ++ [a] } }
  showRecovery (actionRec s1 a 3)

/-- Each widening and each escalated action: ERR_ESCALATIONS and ESCALATED of the partitions (R445). -/
def escalated (s : State) (ps : List Nat) : State :=
  let s1 := odOr (odInc s Ad.errEscalations) Ad.errModuleStatus 16
  ps.foldl (fun t p => odOr t (Ad.errPartStatus p) 16) s1

/-- The running action widened to PARTITION_RESET; a swap it was for stays due (Table 17.6). -/
def widen (s : State) (r : Action) : State :=
  let r1 := { r with kind := 2, performed := false, swap := if r.kind = 3 then some r.target else r.swap }
  escalated (showRecovery { s with recovery := { s.recovery with running := some r1 } }) r.parts

/-- A fault needing an action (R444, Table 17.6): at once when none runs and none is queued; widening the
running CONTAINMENT of its own partition to PARTITION_RESET, or giving it the cell to swap; adding nothing
to a PARTITION_RESET under way; joining the queued action of its partition; otherwise queueing. Nothing is added to a
MODULE_RESET about to be carried out. -/
def demand (s : State) (a : Action) : State :=
  match s.recovery.running with
  | none => if s.recovery.queue = [] then startAction s a else queueAction s a false
  | some r =>
    if r.kind = 7 ∧ !r.performed then s
    else if r.parts.any a.parts.contains ∧ a.kind = 1 then
      if a.swap.isSome then { s with recovery := { s.recovery with running := some { r with swap := a.swap } } }
      else if r.kind = 1 ∨ r.kind = 3 then widen s r
      else s
    else if a.kind = 4 ∧ r.parts.any a.parts.contains then queueAction s a true
    else if a.kind = 1 ∧ s.recovery.queue.any (fun q => q.parts.any a.parts.contains) then
      let join := fun (q : Action) =>
        if q.parts.any a.parts.contains ∧ a.swap.isSome then { q with swap := a.swap } else q
      { s with recovery := { s.recovery with queue := s.recovery.queue.map join } }
    else queueAction s a false

/-- The queued actions an escalated action resets anyway (R445): every partition of theirs is among its own. -/
def mergeable (ps : List Nat) (q : Action) : Bool := !q.parts.isEmpty && q.parts.all ps.contains && q.kind ≠ 4

/-- A second fault of a media or network die within a recovery window (Table 17.6, R445): the running CONTAINMENT of a
partition that uses the die widens, and the die's reset with PARTITION_RESET of the others goes to the head of the queue;
queued actions it covers are merged into it. -/
def escalateDie (s : State) (code seq unit : Nat) (users : List Nat) : State :=
  let mine := (s.recovery.running.map Action.parts).getD []
  let rest := users.filter fun p => !mine.contains p
  let s1 := match s.recovery.running with
    | some r => if (r.kind = 1 ∨ r.kind = 3) ∧ r.parts.any users.contains then widen s r else s
    | none => s
  let gone := s1.recovery.queue.filter (mergeable rest)
  let s2 := { s1 with recovery := { s1.recovery with queue := s1.recovery.queue.filter fun q => !mergeable rest q } }
  let s3 := gone.foldl (fun t q => actionRec t q 2) s2
  let codes := gone.filterMap fun q => if q.code = 0 then none else some (q.parts.headD 0, (q.code, q.wher))
  let a : Action := { kind := 6, target := unit, parts := rest, code := code, seq := seq
                      swap := gone.findSome? Action.swap, merged := codes }
  queueAction (escalated s3 users) a true

/-- A fault of a shared resource (R442, class E of Table 17.2): recorded; the first starts `first`, one within a recovery
window escalates to a reset of die `unit` where `die` is set, and else queues `first`. -/
def sharedFault (s : State) (c : Code) (p : Option Nat) (unitNo : Nat) (first : Action) (die : Option Nat) (users : List Nat) : State :=
  let seq := s.nv.alm.nextSeq
  let s1 := report s { code := c.value, cls := 3, part := p, unit := unitNo }
  let a := { first with code := c.value, seq := seq }
  let busy := s1.recovery.running.isSome || !s1.recovery.queue.isEmpty
  if s1.recovery.running.any fun r => r.kind = 7 && !r.performed then s1
  else
    match die with
    | some d => if busy then escalateDie s1 c.value seq d users else startAction s1 a
    | none => if busy then queueAction s1 a false else startAction s1 a

/-- A switch is before its VALID word (R378). -/
def switchOpen (s : State) (p : Nat) : Bool := inState s p .switching && (partOf s p).switch.any fun w => decide (w.step ≤ 1)

/-- An uncorrected-contained error of a partition's job (R433): recorded, and CONTAINMENT demanded. The
completion record and the notification follow in CONTAINMENT (R435). One raised in a switch before its VALID word
fails the outgoing job and the switch goes on (R378). `swap` is the cell a cell fault asks
to replace (R440). -/
def containErr (s : State) (p : Nat) (c : Code) (unit wher addr : Nat) (swap : Option Nat) : State :=
  let seq := s.nv.alm.nextSeq
  let s1 := record s { code := c.value, cls := 3, part := some p, unit := unit, tag := jobTag s p,
                       wher := wher, addr := addr }
  if swap.isNone ∧ switchOpen s p then
    notify (modPart s1 p fun q => { q with switch := q.switch.map fun w => { w with outFailed := some (c.value, wher) } })
  else demand s1 { kind := 1, parts := [p], code := c.value, wher := wher, seq := seq, swap := swap }

/-- WHERE of Table 14.7: the cell and the bundle address. -/
def whereCell (g pc : Nat) : Nat := g * 4096 + pc % 4096

/-- WHERE of an error a control core raises: bit 23 and the die. -/
def whereCore (d : Nat) : Nat := 2 ^ 23 + d * 4096

/-- UNIT of Table 17.8 for a cell: its die and its number on it. -/
def unitCell (g : Nat) : Nat := g / 80 * 256 + g % 80

/-- A contained error a cell raises: the cell halts (R41, R59), and its partition's job is contained. A
cell of no partition only halts. -/
def cellErr (s : State) (g : Nat) (c : Code) (addr : Nat) (swap : Bool) : State :=
  let x := cellOf s g
  let s1 := setCell s g { x with seq := { x.seq with status := .halted } }
  match cellOwner s g with
  | none => s1
  | some p =>
    containErr s1 p c (unitCell g) (whereCell g x.seq.pc) addr (if swap then some g else none)

/-- A contained error a partition's control core raises (R151, R235, R238). -/
def coreErr (s : State) (p : Nat) (c : Code) (addr : Nat) : State :=
  let d := (partOf s p).dies.headD 0
  containErr s p c (d * 256) (whereCore d) addr none

/-- A contained error the control core of a partition's die `k` raises (R151). -/
def coreErrAt (s : State) (p k : Nat) (c : Code) (addr : Nat) : State :=
  let d := (partOf s p).dies.getD k ((partOf s p).dies.headD 0)
  containErr s p c (d * 256) (whereCore d) addr none

/-- A deferred error (Table 17.1). -/
def deferred (s : State) (p : Option Nat) (c : Code) (unit addr : Nat) : State :=
  report s { code := c.value, cls := 2, part := p, unit := unit, tag := (p.map (jobTag s)).getD 0,
             addr := addr }

/-- An uncorrected-fatal error (R443): recorded, ERR_FATAL sent when the PCIe link is up, and
MODULE_RESET runs at once, ahead of every action in progress or queued. -/
def fatalErr (s : State) (c : Code) (unit : Nat) : State :=
  let seq := s.nv.alm.nextSeq
  let s1 := report s { code := c.value, cls := 4, unit := unit }
  let s2 := if s.boot.pcieUp then emit s1 .errFatal else s1
  startAction { s2 with recovery := { running := none, queue := [] } } { kind := 7, code := c.value, seq := seq }

/-- An event recorded only (class I of Table 17.2), or a security event with its argument. -/
def recordOnly (s : State) (c : Code) (cls : Nat) (p : Option Nat) (unit arg : Nat) : State :=
  report s { code := c.value, cls := cls, part := p, unit := unit, arg := arg }

end Sys2Proof.Machine
end

