-- ==== Sys2Proof/Machine/FarMem.lean ====
section
/-!
DEFINITION. The far tier as every master sees it: the interleave (R187), the memory-side cache (R189 to
R193), inline ECC and poison (R182 to R185), compressed regions (R207 to R223), the holds and stale ranges
of moves (R232, R235) and the BYPASS bit (R396). The host tier's windows (R202).
-/

namespace Sys2Proof.Machine

/-! ## Addresses -/

/-- The bytes of one channel's usable space in a chunk: 15 blocks with inline ECC, 16 without (R180). -/
def groupBytes (ecc : Bool) : Nat := if ecc then 90 * 2 ^ 30 else 96 * 2 ^ 30

/-- The mode in effect on a partition's groups, which are all alike (R187, R359). -/
def partEcc (s : State) (p : Nat) : Bool := (grpOf s ((partOf s p).usable.headD 0)).eccInEffect

/-- A partition's usable far-tier bytes (R180, R441). -/
def farSize (s : State) (p : Nat) : Nat := (partOf s p).usable.length * groupBytes (partEcc s p)

/-- Where a far-tier byte lies: group, channel and usable channel offset (R187). -/
structure Place where
  group : Nat
  channel : Nat
  offset : Nat
  deriving DecidableEq, Repr

/-- The interleave of R187 over groups in ascending order. -/
def placeOf (groups : List Nat) (a : Nat) : Place :=
  let n := groups.length
  let u := a / 4096
  let j := u % (24 * n)
  ⟨groups.getD (j % n) 0, j / n, u / (24 * n) * 4096 + a % 4096⟩

/-- The physical offset in the channel of a usable offset (R187). -/
def physOffset (ecc : Bool) (c : Nat) : Nat :=
  if ecc then c / 256 / 15 * 4096 + c / 256 % 15 * 256 + c % 256 else c

/-- The physical offset of the check entry of the block at a physical offset (Table 7.1). -/
def checkPlace (x : Nat) : Nat := x / 4096 * 4096 + 3840 + 16 * (x % 4096 / 256)

/-- The physical offset of the check entry of the block at a usable offset (R187). -/
def checkOffset (c : Nat) : Nat := checkPlace (physOffset true c)

/-- The key under which `State.far` holds a byte: its channel's number × 2^33 + its physical offset (R187). -/
def Place.key (x : Place) (ecc : Bool) : Nat := (x.group * 24 + x.channel) * 2 ^ 33 + physOffset ecc x.offset

/-- The key of a partition-relative address. -/
def farKey (s : State) (p a : Nat) : Nat := (placeOf (partOf s p).usable a).key (partEcc s p)

/-- The group that holds an address. -/
def farGroup (s : State) (p a : Nat) : Nat := (placeOf (partOf s p).usable a).group

/-- The block base of an address. -/
def blockBase (a : Nat) : Nat := a / 256 * 256

/-- The memory die of a block's key (R178). -/
def keyMd (k : Nat) : Nat := k / 2 ^ 33 / 24 / 4

/-- The set of a block (R189, log 3): the hash of its physical 4 KiB chunk, moved by its number in the chunk. -/
def mscSet (block : Nat) : Nat := (Config.mscChunkHash (block / 16) + block % 16) % 65536

/-! ## Regions -/

/-- A compressed region in effect (Table 8.1). -/
structure Region where
  enc : Nat
  dtype : Nat
  base : Nat
  size : Nat
  metaBase : Nat
  deriving DecidableEq, Repr

/-- Region `r` of a partition as latched at job start; none where VALID is 0. -/
def regionEntry (s : State) (p r : Nat) : Option Region :=
  let v := latched s p (Ad.partCompressRegion p r)
  if bit v 63 then
    some ⟨bits v 62 61, bits v 60 59, bits v 40 12 * 4096,
      latched s p (Ad.partCompressRegionSize p r), bits (latched s p (Ad.partCompressMetaBase p r)) 40 0⟩
  else none

/-- Region `r` in effect: none in an encrypted partition (R224). -/
def regionOf (s : State) (p r : Nat) : Option Region := if (partOf s p).confidential then none else regionEntry s p r

/-- The region an address lies in (R207). -/
def regionAt (s : State) (p a : Nat) : Option Region :=
  ((List.range 16).filterMap (regionOf s p)).find? fun r => r.base ≤ a ∧ a < r.base + r.size

/-- The address of a block's metadata (R208). -/
def Region.metaAddr (r : Region) (a : Nat) : Nat := r.metaBase + 4 * ((a - r.base) / 256)

/-! ## Cache lines -/

/-- The line that holds a block for a partition (R190). -/
def lineFor (s : State) (p block : Nat) : Option Line :=
  (mdOf s (block * 256 |> keyMd)).lines.find? fun l => l.block = block ∧ l.owner = p

/-- The open write merge of a block (R183). -/
def mergeFor (s : State) (p block : Nat) : Option Merge :=
  (mdOf s (block * 256 |> keyMd)).merges.find? fun m => m.block = block ∧ m.p = p

/-- The lines of a block's die changed. -/
def modLines (s : State) (block : Nat) (f : List Line → List Line) : State :=
  modMd s (keyMd (block * 256)) fun m => { m with lines := f m.lines }

/-- A line replaced and made the most recently used. -/
def touchLine (s : State) (l : Line) : State :=
  modLines s l.block fun ls => ls.filter (fun x => !(x.block = l.block && x.owner = l.owner)) ++ [l]

/-- A line invalidated without write-back. -/
def dropLine (s : State) (l : Line) : State :=
  modLines s l.block fun ls => ls.filter (fun x => !(x.block = l.block && x.owner = l.owner))

/-! ## DRAM -/

/-- The physical U16 that holds symbol `i` of a block: its stored bytes (0 to 127), its check symbols (128 to 131) and its
SEC bytes (132 to 135) (Table 7.1). -/
def symbolPlace (key i : Nat) : Nat :=
  if i < 128 then key / 256 * 128 + i else (key / 2 ^ 33 * 2 ^ 33 + checkPlace (key % 2 ^ 33)) / 2 + (i - 128)

/-- The bits in which the devices' first `n` sectors and check entry of a block differ from what was written, by symbol. -/
def flipsOf (s : State) (key n : Nat) : List (Nat × Nat) :=
  if s.farFlips = [] then []
  else ((List.range 136).filter fun i => decide (i < 16 * n) || decide (128 ≤ i)).filterMap fun i =>
    (tget s.farFlips (symbolPlace key i)).map fun v => (i, v)

/-- A difference added at a physical U16: one that cancels is no longer listed. -/
def flipAt (t : Tbl Nat) (a v : Nat) : Tbl Nat :=
  let w := (tget t a).getD 0 ^^^ v
  if w = 0 then tdel t a else tset t a w

/-- Devices' errors come about in the blocks from a request's on. -/
def injectFlips (s : State) (p a : Nat) (errs : List SymErr) : State :=
  errs.foldl (fun t e =>
    { t with farFlips := flipAt t.farFlips (symbolPlace (farKey t p (blockBase a + 256 * e.block)) e.symbol) e.flip.toNat }) s

/-- The differences of a block's symbols replaced. -/
def setFlips (s : State) (key : Nat) (f : Nat → Nat → Nat) : State :=
  if s.farFlips = [] then s
  else (flipsOf s key 8).foldl (fun t x =>
    let w := f x.1 x.2
    { t with farFlips := if w = 0 then tdel t.farFlips (symbolPlace key x.1) else tset t.farFlips (symbolPlace key x.1) w }) s

/-- The first `n` sectors and the check entry of a block written anew. -/
def clearFlips (s : State) (key n : Nat) : State := setFlips s key fun i v => if i < 16 * n ∨ 128 ≤ i then 0 else v

/-- The difference in a SEC byte. -/
def secFlip (fl : List (Nat × Nat)) (i : Nat) : Nat :=
  ((fl.find? fun e => e.1 == 132 + i / 2).map (·.2)).getD 0 / 2 ^ (8 * (i % 2)) % 256

/-- The 32 B sectors of a block whose poison bit reads set, as a mask. -/
def dramPoison (s : State) (key : Nat) : Nat :=
  let fl := flipsOf s key 0
  (List.range 8).foldl (fun m i =>
    if s.farPoison.contains (key / 32 + i) != (secFlip fl i).testBit 7 then m + 2 ^ i else m) 0

/-- The poison bits of a block set to a mask. -/
def setDramPoison (s : State) (key mask : Nat) : State :=
  let rest := s.farPoison.filter fun x => !(decide (key / 32 ≤ x) && decide (x < key / 32 + 8))
  let now := (List.range 8).foldl (fun l i => if mask.testBit i then l ++ [key / 32 + i] else l) rest
  { s with farPoison := now }

/-- The tenant for whom a partition's accesses are made (R381, R390). -/
def actTenant (s : State) (p : Nat) : Nat :=
  let q := partOf s p
  q.actFor.getD ((q.job.map Job.tenant).getD (odGet s (Ad.partLastTenant p)))

/-- The number of the memory key of a partition's accesses: 0 outside a confidential partition (R389, R390). -/
def memKey (s : State) (p : Nat) : Nat :=
  if (partOf s p).confidential then (tget (partOf s p).keys (actTenant s p)).getD 0 else 0

/-- The state as accesses for another tenant find it, for a load or a queue's ring. -/
def asTenant (s : State) (p t : Nat) : State := modPart s p fun q => { q with actFor := some t }

/-- Accesses made for another tenant of a confidential partition. -/
def forTenant (s : State) (p t : Nat) (f : State → State) : State :=
  if (partOf s p).confidential then modPart (f (asTenant s p t)) p fun q => { q with actFor := (partOf s p).actFor }
  else f s

/-- The number of the key a unit was written under; contents lost read under a number of their own (R441). -/
def unitKey (s : State) (u : Nat) : Nat := (tget s.farKeys u).getD (grpOf s (64 * u / 2 ^ 33 / 24)).lostKey

/-- A 64 B unit as it reads under a key (R391): its bytes under the key it was written with, else ciphertext
decrypted under the wrong one. -/
def unitView (s : State) (key u : Nat) : List Byte :=
  let raw := mread s.far (64 * u) 64
  let w := unitKey s u
  if w = key then raw else padTo 64 (Config.xts w key u raw)

/-- Bytes with differences at some of their U16s. -/
def flipBytes (fl : List (Nat × Nat)) (bs : List Byte) : List Byte :=
  fl.foldl (fun b e => slice b 0 (2 * e.1) ++ leBytes 2 (fieldLE b (2 * e.1) 2 ^^^ e.2) ++ slice b (2 * e.1 + 2) (b.length - 2 * e.1 - 2)) bs

/-- Unit `i` of a block as it reads under a key, with differences in the block's symbols: they lie in what is stored, so
that an encrypted unit decrypts from what the devices deliver. -/
def unitSeen (s : State) (key blk i : Nat) (fl : List (Nat × Nat)) : List Byte :=
  let here := (fl.filter fun e => e.1 / 32 == i).map fun e => (e.1 % 32, e.2)
  if here = [] then unitView s key (blk / 64 + i)
  else
    let raw := flipBytes here (unitView s 0 (blk / 64 + i))
    if key = 0 then raw else padTo 64 (Config.xts 0 key (blk / 64 + i) raw)

/-- Bytes `[off, off + n)` of a block as a partition's accesses read them, with differences. -/
def storedBytes (s : State) (p blk off n : Nat) (fl : List (Nat × Nat)) : List Byte :=
  let key := memKey s p
  slice ((List.range ((off % 64 + n + 63) / 64)).flatMap fun i => unitSeen s key blk (off / 64 + i) fl) (off % 64) n

/-- The first `n` sectors of a block as stored, ciphertext where encrypted; sectors beyond are taken as zero (R183). -/
def codeBytes (s : State) (blk n : Nat) : List Byte :=
  padTo 256 (slice ((List.range 4).flatMap fun i => unitView s 0 (blk / 64 + i)) 0 (32 * n))

/-- The check entry of the first `n` sectors of a block, as it was written (R183, Table 7.1): unstored sectors' SEC bytes
are 0. -/
def entryOf (s : State) (blk n : Nat) : List Byte :=
  let e := checkEntry (codeBytes s blk n) 0
  slice e 0 8 ++ slice (slice e 8 n) 0 8

/-- What inline ECC finds on reading the first `n` sectors of a block (R181, R182, R225), and the differences left in the
data it returns. With ECC off it finds nothing, and returns what the devices deliver (R185). -/
def eccRead (s : State) (p blk n : Nat) : Ecc × List (Nat × Nat) :=
  let fl := flipsOf s blk n
  let data := fl.filter fun e => decide (e.1 < 128)
  if fl = [] then (.clean, [])
  else if !partEcc s p then (.clean, data)
  else
    let got := flipBytes (fl.filter fun e => decide (e.1 < 132)) (codeBytes s blk n ++ slice (entryOf s blk n) 0 8)
    match rsDecode ((List.range 132).map fun i => fieldLE got (2 * i) 2) with
    | .clean => (.clean, data)
    | .fixed i v =>
      (.corrected, (data.map fun e => (e.1, if e.1 = i then e.2 ^^^ v else e.2)).filter (·.2 != 0) ++
        (if decide (i < 128) && !(data.any fun e => e.1 == i) then [(i, v)] else []))
    | .failed => (.detected, data)

/-- A sector's CRC-7 does not match as the devices deliver both (R181, R196). -/
def sectorFails (s : State) (blk i : Nat) : Bool :=
  let fl := flipsOf s blk 8
  fl != [] &&
    crc7 (slice (flipBytes (fl.filter fun e => decide (e.1 < 128)) (codeBytes s blk 8)) (32 * i) 32) !=
      (crc7 (slice (codeBytes s blk 8) (32 * i) 32) ^^^ secFlip fl i % 128)

/-- Bytes written to DRAM at a place: each 64 B unit they meet is held under the writer's key from then on
(R197). -/
def farPut (s : State) (p k : Nat) (bs : List Byte) : State :=
  let key := memKey s p
  let s1 := (List.range ((k % 64 + bs.length + 63) / 64)).foldl (fun t i =>
    let u := k / 64 + i
    if unitKey t u = key then t
    else { t with far := mwrite t.far (64 * u) (unitView t key u)
                  farKeys := if key = (grpOf t (64 * u / 2 ^ 33 / 24)).lostKey then tdel t.farKeys u else tset t.farKeys u key }) s
  { s1 with far := mwrite s1.far k bs }

/-- A metadata word as merge, cache and DRAM hold it together. -/
def metaWord (s : State) (p a : Nat) : Nat :=
  let k := farKey s p (blockBase a)
  let under := match lineFor s p (k / 256) with
    | some l => slice l.data (a % 256) 4
    | none => storedBytes s p k (a % 256) 4 (eccRead s p k 8).2
  match mergeFor s p (k / 256) with
  | some m => leNat ((List.range 4).map fun i => (tget m.bytes (a % 256 + i)).getD (under.getD i 0))
  | none => leNat under

/-- A block as a read of DRAM finds it: its bytes, decoded in a region, its poisoned sectors, what ECC found, its stored
sectors, and whether decoding failed a check (R223). -/
structure Dram where
  bytes : List Byte
  poison : Nat
  ecc : Ecc
  sectors : Nat
  failed : Bool
  deriving DecidableEq, Repr

/-- A mask of the first `n` sectors. -/
def firstSectors (n : Nat) : Nat := 2 ^ n - 1

/-- A block as DRAM holds it (R182, R211, R218, R223, R225). A ZERO block needs no data. A block of a region that inline ECC
cannot correct, or one not stored RAW with a poisoned sector, is poisoned whole and not decoded. -/
def dramView (s : State) (p base : Nat) : Dram :=
  let k := farKey s p base
  let raw := fun (n : Nat) (fl : List (Nat × Nat)) => padTo 256 (storedBytes s p k 0 (32 * n) fl)
  match regionAt s p base with
  | none =>
    let e := eccRead s p k 8
    ⟨raw 8 e.2, if e.1 = .detected then 255 else dramPoison s k, e.1, 8, false⟩
  | some r =>
    let w := metaWord s p (r.metaAddr base)
    let n := if w = 0 then 8 else (Meta.ofWord w).sectors
    let e := if n = 0 then (.clean, []) else eccRead s p k n
    let poi := if n = 0 then 0 else dramPoison s k % 2 ^ n
    if e.1 = .detected then ⟨raw n e.2, 255, .detected, n, false⟩
    else if poi ≠ 0 ∧ (Meta.ofWord w).format ≠ 0 then ⟨raw n e.2, 255, e.1, n, false⟩
    else
      match decodeBlock w (storedBytes s p k 0 (32 * n) e.2) with
      | some d => ⟨d, poi, e.1, n, false⟩
      | none => ⟨raw n e.2, 255, e.1, n, true⟩

/-- The sectors of a block all of whose bytes a table of enabled bytes lists. -/
def sectorFull (bytes : Tbl Byte) (i : Nat) : Bool := (List.range 32).all fun j => (tget bytes (32 * i + j)).isSome

/-- The poison of a block's sectors after enabled bytes are merged over it: a sector wholly written takes the write's, one
written in part keeps its own beside it (R184). -/
def mergedPoison (old new : Nat) (bytes : Tbl Byte) : Nat :=
  (List.range 8).foldl (fun m i => if new.testBit i || (old.testBit i && !sectorFull bytes i) then m + 2 ^ i else m) 0

/-- Enabled bytes over a block's. -/
def mergedBytes (old : List Byte) (bytes : Tbl Byte) : List Byte :=
  if bytes = [] then old else (List.range 256).map fun i => (tget bytes i).getD (old.getD i 0)

/-- A block as a reader finds it (R193): the open merge over the cache line over DRAM. -/
def blockView (s : State) (p base : Nat) : List Byte × Nat :=
  let k := farKey s p base / 256
  let under := match lineFor s p k with
    | some l => (l.data, l.poison)
    | none => let d := dramView s p base; (d.bytes, d.poison)
  match mergeFor s p k with
  | none => under
  | some m => (mergedBytes under.1 m.bytes, mergedPoison under.2 m.poison m.bytes)

/-- Poison of any sector of `[a, a + n)` of a block, from its mask. -/
def sectorsHit (mask off n : Nat) : Bool :=
  (List.range 8).any fun i => mask.testBit i && decide (off < 32 * i + 32) && decide (32 * i < off + n)

/-- The pieces of `[a, a + n)` block by block: address and length. -/
def pieces : Nat → Nat → Nat → List (Nat × Nat)
  | 0, _, _ => []
  | f + 1, a, n =>
    if n = 0 then []
    else
      let m := min n (256 - a % 256)
      (a, m) :: pieces f (a + m) (n - m)

/-- `[a, a + n)` cut at block boundaries. -/
def blocksOf (a n : Nat) : List (Nat × Nat) := pieces (n / 256 + 2) a n

/-- The bytes a coherent read of the far tier returns, and whether any of them is poisoned. -/
def farView (s : State) (p a n : Nat) : List Byte × Bool :=
  (blocksOf a n).foldl (fun acc x =>
    let v := blockView s p (blockBase x.1)
    (acc.1 ++ slice v.1 (x.1 % 256) x.2, acc.2 || sectorsHit v.2 (x.1 % 256) x.2)) ([], false)

/-- A little-endian far-tier field. -/
def farField (s : State) (p a n : Nat) : Nat := leNat (farView s p a n).1

/-- A lookup that found its block's line, counted (R190, R431). -/
def mscHit (s : State) (p a : Nat) : State :=
  anem (odInc s (Ad.partMscHits p)) (0x10 + keyMd (farKey s p a)) 0x12 1

/-- A lookup that found none, counted. -/
def mscMiss (s : State) (p a : Nat) : State :=
  anem (odInc s (Ad.partMscMisses p)) (0x10 + keyMd (farKey s p a)) 0x13 1

/-! ## Storing blocks -/

/-- UNIT of Table 17.8 for a channel group's memory die and group. -/
def unitGroup (g : Nat) : Nat := (0x10 + g / 4) * 256 + g

/-- A channel group's retirement demanded (R441). -/
def retireErr (s : State) (g : Nat) (code wher : Nat) (seq : Nat) : State :=
  demand s { kind := 4, target := g, parts := (groupOwner s g).toList, code := code, wher := wher, seq := seq }

/-- A block of a group poisoned at this time: the group retires at ERR_GROUP_RETIRE_LIMIT blocks within
one hour (R441). -/
def groupPoisoned (s : State) (g block : Nat) : State :=
  let now := s.nv.opMs
  let ts := now :: ((grpOf s g).poisonedAt.filter fun t => now < t + 3600000)
  let s1 := modGrp s g fun x => { x with poisonedAt := ts }
  let seq := s1.nv.alm.nextSeq
  let s2 := deferred (odInc s1 (Ad.memGroupPoisoned g)) (groupOwner s1 g) .dataPoisoned (unitGroup g) (block * 256)
  if odGet s2 Ad.errGroupRetireLimit ≤ ts.length then retireErr s2 g Code.groupRetired.value 0 seq else s2

/-- The sectors of a block that `[off, off + n)` meets. -/
def sectorMask (off n : Nat) : Nat :=
  (List.range 8).foldl (fun m i =>
    if decide (off < 32 * i + 32) && decide (32 * i < off + n) then m + 2 ^ i else m) 0

/-- A line with bytes merged: DIRTY, the priority of the hint, DEAD cleared and poison marked on the
sectors written (Table 7.3, R184, R192). -/
def mergeLine (l : Line) (off : Nat) (bs : List Byte) (poison : Bool) (prot : Bool) : Line :=
  let hit := sectorMask off bs.length
  let full := fun (i : Nat) => decide (off ≤ 32 * i) && decide (32 * i + 32 ≤ off + bs.length)
  let poi := (List.range 8).foldl (fun m i =>
    let b := if hit.testBit i then (poison || (!full i && l.poison.testBit i)) else l.poison.testBit i
    if b then m + 2 ^ i else m) 0
  let dam := (List.range 8).foldl (fun m i => if l.damaged.testBit i && !full i then m + 2 ^ i else m) 0
  { l with dirty := true, isProtected := prot,
           dead := l.dead - (l.dead &&& hit), poison := poi, damaged := dam,
           data := slice l.data 0 off ++ bs ++ slice l.data (off + bs.length) (256 - off - bs.length) }

/-- Enabled bytes put into the stored units of a block, each under the writer's key; `fl` is what the controller does not
know to differ in the old symbols, and the code takes as part of the new (R183). -/
def putBytes (s : State) (p blk : Nat) (bytes : Tbl Byte) (fl : List (Nat × Nat)) : State :=
  let b := fun i => (tget bytes i).map fun v =>
    v ^^^ BitVec.ofNat 8 (((fl.find? fun e => e.1 == i / 2).map (·.2)).getD 0 / 2 ^ (8 * (i % 2)))
  (List.range 4).foldl (fun t u =>
    if bytes.any fun e => e.1 / 64 == u then
      let old := unitView t (memKey t p) (blk / 64 + u)
      farPut t p (blk + 64 * u) ((List.range 64).map fun i => (b (64 * u + i)).getD (old.getD i 0))
    else t) s

/-- What is left of a symbol's difference when some of its bytes are written anew. -/
def flipLeft (bytes : Tbl Byte) (i v : Nat) : Nat :=
  if 128 ≤ i then v
  else (if (tget bytes (2 * i)).isSome then 0 else v % 256) + (if (tget bytes (2 * i + 1)).isSome then 0 else v / 256 * 256)

/-- A write of enabled bytes to a block outside a region, with its check entry (R183). A whole block is written with a new
entry. A partial write computes the entry from the difference of the old sectors, which it checks first: what it cannot
correct leaves the other sectors poisoned. -/
def putPart (s : State) (p base : Nat) (bytes : Tbl Byte) (poison : Nat) : State :=
  let k := farKey s p base
  let g := farGroup s p base
  let touched := fun (i : Nat) => bytes.any fun e => e.1 / 32 == i
  let poi := (List.range 8).foldl (fun m i =>
    if (if touched i then poison.testBit i || (!sectorFull bytes i && (dramPoison s k).testBit i) else (dramPoison s k).testBit i)
    then m + 2 ^ i else m) 0
  if !partEcc s p then setFlips (putBytes s p k bytes []) k (flipLeft bytes)
  else if bytes.length = 256 then setDramPoison (clearFlips (putBytes s p k bytes []) k 8) k poison
  else if !((List.range 8).any fun i => touched i && sectorFails s k i) then
    setDramPoison (putBytes s p k bytes (flipsOf s k 8)) k poi
  else if (eccRead s p k 8).1 = .detected then
    let bad := (List.range 8).foldl (fun m i => if poison.testBit i || !sectorFull bytes i then m + 2 ^ i else m) 0
    groupPoisoned (setDramPoison (setFlips (putBytes s p k bytes []) k (flipLeft bytes)) k bad) g (k / 256)
  else
    let s1 := if (eccRead s p k 8).1 = .corrected then
        corrected (odInc s (Ad.memGroupEccCorrected g)) (some p) (unitGroup g) base else s
    setDramPoison (clearFlips (putBytes s1 p k bytes []) k 8) k poi

/-- A block's open merge taken out, if it has one. -/
def takeMerge (s : State) (p block : Nat) : Option (Merge × State) :=
  (mergeFor s p block).map fun m =>
    (m, modMd s (keyMd (block * 256)) fun d => { d with merges := d.merges.filter fun x => !(x.block = block && x.p = p) })

/-- Bytes from an offset as a table. -/
def bytesAt (off : Nat) (bs : List Byte) : Tbl Byte := (List.range bs.length).map fun i => (off + i, bs.getD i 0)

/-- A block's metadata written with a 4 B byte-enabled write through the cache of the die that owns it (R217, R218): as a
write with hint STREAM, since it stores a STREAM write or an evicted line (log 153). -/
def storeMeta (s : State) (p a w : Nat) : State :=
  let base := blockBase a
  let block := farKey s p base / 256
  match lineFor s p block with
  | some l => touchLine s (mergeLine l (a % 256) (leBytes 4 w) false false)
  | none =>
    let s1 := match takeMerge s p block with
      | some (m, t) => putPart t p base m.bytes m.poison
      | none => s
    putPart s1 p base (bytesAt (a % 256) (leBytes 4 w)) 0

/-- Stored sectors written from the start of a block's slot, with their check entry and poison bits (R183, R208). With ECC
off poison cannot be stored, and zeros stand in its place (R184). -/
def putStored (s : State) (p k : Nat) (bs : List Byte) (poison : Nat) : State :=
  if partEcc s p then setDramPoison (clearFlips (farPut s p k bs) k (bs.length / 32)) k poison
  else setFlips (farPut s p k ((List.range bs.length).map fun i => if poison.testBit (i / 32) then 0 else bs.getD i 0)) k
    (flipLeft (bytesAt 0 bs))

/-- How a region stores a block: a poisoned block of zeros RAW, so that its poison has sectors to stand in (log 154). -/
def encodeFor (r : Region) (blk : List Byte) (poison : Nat) : Stored :=
  let e := encodeBlock r.enc r.dtype blk
  if poison ≠ 0 ∧ e.info.sectors = 0 then storeRaw blk else e

/-- A whole decoded block stored: raw outside a region, else encoded under its ENC with its metadata and
the counts of R213 and R216. A RAW block keeps its sectors' poison (R225); an encoded one is poisoned in all its stored
sectors, and in none beyond them (R183). -/
def storeBlock (s : State) (p base : Nat) (blk : List Byte) (poison : Nat) : State :=
  let k := farKey s p base
  match regionAt s p base with
  | none => putStored s p k blk poison
  | some r =>
    let e := encodeFor r blk poison
    let s1 := putStored s p k e.bytes (if e.info.format = 0 ∨ poison = 0 then poison else firstSectors e.info.sectors)
    let s3 := storeMeta s1 p (r.metaAddr base) e.info.word
    if r.enc = 0 then s3
    else
      let s4 := odAdd (odInc s3 (Ad.partCompressBlocksWritten p)) (Ad.partCompressSectorsSaved p) (8 - e.info.sectors)
      if r.enc = 1 ∧ 28 ≤ (calmGroups blk).length then odInc s4 (Ad.partCompressCalmRaw p) else s4

/-- A victim or cleaned line written back: whole, encoded in a region; never one whose eight sectors are DEAD (R192,
R218), nor one filled from a damaged block that writes have not covered (R223, log 155). -/
def writeBack (s : State) (l : Line) : State :=
  if l.dirty ∧ l.dead ≠ 255 ∧ l.damaged = 0 then storeBlock s l.owner l.addr l.data l.poison else s

/-- The ways of a memory die a partition may use (R190), as formed. -/
def partWays (s : State) (p m : Nat) : List Nat :=
  (List.range 16).filter fun w => (formed s p (Ad.partMscWayMask p m)).testBit w

/-- The way a new line takes and the state with its victim gone (R192): the lowest-numbered invalid way,
then the least recently used EVICT_FIRST line, then the least recently used PROTECTED line. -/
def takeWay (s : State) (p block : Nat) : Option (Nat × State) :=
  let m := keyMd (block * 256)
  let set := mscSet block
  let here := (mdOf s m).lines.filter fun l => l.set = set
  let ways := partWays s p m
  match ways.find? fun w => !(here.any fun l => l.way = w) with
  | some w => some (w, s)
  | none =>
    let mine := here.filter fun l => ways.contains l.way
    match (mine.find? fun l => !l.isProtected).orElse (fun _ => mine.head?) with
    | some l => some (l.way, dropLine (writeBack s l) l)
    | none => none

/-- A line filled or allocated for a block (Table 7.3); `damaged` where its block failed a check (R223). -/
def allocLine (s : State) (p base : Nat) (data : List Byte) (poison : Nat) (dirty prot damaged : Bool) : State :=
  let block := farKey s p base / 256
  match takeWay s p block with
  | none => s
  | some (w, s1) =>
    touchLine s1 ⟨mscSet block, w, block, base, p, dirty, prot, 255, poison, 0, data, if damaged then 255 else 0⟩

/-- A block read from DRAM through inline ECC (R182, R185, R223): what it finds, and the state with what the read counts,
marks and writes back. A correction filled into the cache is carried by its line, which is dirty. -/
def dramRead (s : State) (p base : Nat) (fill : Bool) : State × Dram :=
  let g := farGroup s p base
  let k := farKey s p base
  let d := dramView s p base
  let s1 := match d.ecc with
    | .clean => s
    | .corrected =>
      let t := corrected (odInc s (Ad.memGroupEccCorrected g)) (some p) (unitGroup g) base
      if fill then t else clearFlips t k d.sectors
    | .detected => groupPoisoned (setDramPoison s k (firstSectors d.sectors)) g (k / 256)
  (if d.failed then deferred (odInc s1 (Ad.partCompressCheckFailed p)) (some p) .compressCheckFailed (unitGroup g) base else s1, d)

/-- A block of a region that a read found damaged (R223): not decoded, and unchanged until a write covers all of it. -/
def Dram.unread (d : Dram) : Bool := d.failed || decide (d.ecc = .detected)

/-- A read-modify-write of a block in a region (R216). A damaged block stays as it is (R223, log 155). -/
def rmwBlock (s : State) (p base : Nat) (bytes : Tbl Byte) (poison : Nat) : State :=
  let r := dramRead s p base false
  if r.2.unread then r.1
  else storeBlock (odInc r.1 (Ad.partCompressRmw p)) p base (mergedBytes r.2.bytes bytes) (mergedPoison r.2.poison poison bytes)

/-- Enabled bytes of a block written to DRAM (R183, R216): whole when all 256 are enabled, else as a partial write. -/
def putMerged (s : State) (p base : Nat) (bytes : Tbl Byte) (poison : Nat) : State :=
  match regionAt s p base with
  | none => putPart s p base bytes poison
  | some _ =>
    if bytes.length = 256 then storeBlock s p base (mergedBytes [] bytes) poison else rmwBlock s p base bytes poison

/-- The open merge of a block written to DRAM (R183). -/
def closeMerge (s : State) (p base : Nat) : State :=
  match takeMerge s p (farKey s p base / 256) with
  | none => s
  | some (m, t) => putMerged t p base m.bytes m.poison

/-! ## Moves, measured regions and the retirement limit -/

/-- An access meets a record's source range. -/
def MoveRec.meets (r : MoveRec) (tier a n : Nat) : Bool :=
  decide (r.srcTier = tier) && decide (r.src < a + n) && decide (a < r.src + r.size)

/-- The move record whose source range an access meets (R232, R235): a VACATED one first, since its access fails. -/
def moveOver (s : State) (p tier a n : Nat) : Option MoveRec :=
  let rs := (partOf s p).moves.filter fun r => r.meets tier a n
  (rs.find? (·.vacated)).orElse fun _ => rs.head?

/-- A write of `[a, a + n)` cut at the source ranges of move records: the pieces, and the record that holds each (R232). -/
def movePieces (tier : Nat) : List MoveRec → Nat → Nat → List (Nat × Nat × Option MoveRec)
  | [], a, n => if n = 0 then [] else [(a, n, none)]
  | r :: t, a, n =>
    if r.meets tier a n then
      let lo := max a r.src
      let hi := min (a + n) (r.src + r.size)
      movePieces tier t a (lo - a) ++ (lo, hi - lo, some r) :: movePieces tier t hi (a + n - hi)
    else movePieces tier t a n

/-- A write held at its owner by a move (R232). -/
def holdWrite (s : State) (p : Nat) (r : MoveRec) (h : HeldWrite) : State :=
  modPart s p fun q => { q with moves := q.moves.map fun x =>
    if x.obj = r.obj && x.src = r.src then { x with held := x.held ++ [h] } else x }

/-- A MOVING record whose destination range an access meets: the access waits (R232). -/
def moveInto (s : State) (p tier a n : Nat) : Bool :=
  (partOf s p).moves.any fun r => !r.vacated && decide (r.dstTier = tier) && decide (r.dst < a + n) && decide (a < r.dst + r.size)

/-- A maintenance operation runs over a far-tier range at a memory die that holds part of it (R194). -/
def maintRuns (s : State) (p a n : Nat) : Bool :=
  s.mds.any fun e => e.2.maint.any fun r =>
    decide (r.p = p) && (blocksOf (max a r.base) (min (a + n) (r.base + r.size) - max a r.base)).any fun x =>
      decide (keyMd (farKey s p x.1) = e.1)

/-- The access ends the job with OBJECT_STALE (R235): it meets a VACATED source range. -/
def staleErr (s : State) (p : Nat) (r : MoveRec) (cell : Option Nat) : State :=
  match cell with
  | some g => cellErr s g .objectStale r.obj false
  | none => coreErr s p .objectStale r.obj

/-- The cell a writer is, if it is one. -/
def writerCell : Writer → Option Nat
  | .cell g => some g
  | .control => none
  | .load => none
  | .media => none
  | .network => none

/-- A write meets a measured region in effect (R396). -/
def inMeasured (s : State) (p a n : Nat) : Bool :=
  (List.range 8).any fun r =>
    let b := latched s p (Ad.partMeasRegionBase p r)
    let z := latched s p (Ad.partMeasRegionSize p r)
    decide (b < a + n) && decide (a < b + z)

/-- BYPASS set by a write of anyone but a load (R396). -/
def markBypass (s : State) (p a n : Nat) (src : Writer) : State :=
  if src ≠ .load ∧ inMeasured s p a n then odOr s (Ad.partMeasReason p) 1 else s

/-! ## The line path and the Drizzle path -/

/-- The read of a block's metadata that a miss makes (R218), by the line path with the data request's hint, DROP taken as
STREAM; a Drizzle request's (hint 3) changes no priority and fills nothing (R196, R221). -/
def metaTouch (s : State) (p base hint : Nat) : State :=
  match regionAt s p base with
  | none => s
  | some r =>
    let a := blockBase (r.metaAddr base)
    let s0 := closeMerge s p a
    match lineFor s0 p (farKey s0 p a / 256) with
    | some l => touchLine s0 (if hint = 3 then l else { l with isProtected := decide (hint = 1) })
    | none =>
      let d := dramRead s0 p a (decide (hint = 1))
      if hint = 1 then allocLine d.1 p a d.2.bytes d.2.poison (decide (d.2.ecc = .corrected)) true false else d.1

/-- A Drizzle read that misses the cache (R196, R221): the sector and its check burst, and the whole block where its CRC-7
does not match; in a region the whole block, which for a ZERO block is nothing. -/
def drizzleMiss (s : State) (p a : Nat) : State :=
  let base := blockBase a
  match regionAt s p base with
  | some _ => (dramRead s p base false).1
  | none =>
    if partEcc s p && sectorFails s (farKey s p base) (a % 256 / 32) then
      (dramRead (odInc s (Ad.memGroupSectorReread (farGroup s p base))) p base false).1
    else s

/-- A read of part of one block (Table 7.3, R196). Hints: 0 STREAM, 1 KEEP, 2 DROP; 3 stands for the Drizzle path. -/
def readPiece (s : State) (p a n hint : Nat) : State :=
  let base := blockBase a
  let s0 := closeMerge (if hint = 3 then odInc s (Ad.partDrizzleReads p) else s) p base
  match lineFor s0 p (farKey s0 p base / 256) with
  | some l =>
    let s1 := mscHit s0 p a
    if hint = 3 then touchLine s1 l
    else if hint = 1 then touchLine s1 { l with isProtected := true }
    else if hint = 2 then
      let dead := l.dead ||| sectorMask (a % 256) n
      if dead = 255 then odInc (dropLine s1 l) (Ad.partMscDroppedLines p) else touchLine s1 { l with dead := dead }
    else touchLine s1 { l with isProtected := false }
  | none =>
    let s1 := metaTouch (mscMiss s0 p a) p base hint
    if hint = 3 then drizzleMiss s1 p a
    else
      let d := dramRead s1 p base (decide (hint = 1))
      if hint = 1 then
        allocLine d.1 p base d.2.bytes d.2.poison (decide (d.2.ecc = .corrected)) true ((regionAt s1 p base).isSome && d.2.unread)
      else d.1

/-- A read of `[a, a + n)`: what it does. The bytes it returns are those `farView` gives before it. -/
def farRead (s : State) (p a n hint : Nat) : State := (blocksOf a n).foldl (fun t x => readPiece t p x.1 x.2 hint) s

/-- The path of a request of the network or media engines or of the control core's page tables (R195): Drizzle for 32 B or
less within one sector. -/
def farPath (a n hint : Nat) : Nat := if a % 32 + n ≤ 32 then 3 else hint

/-- A write of part of one block (Table 7.3, R183, R197, R216); hint 3 stands for the Drizzle path. With `window`, a STREAM
write that misses opens or joins the block's 128-MCLK merge; otherwise it is made at once. -/
def writePiece (s : State) (p a hint : Nat) (src : Writer) (bs : List Byte) (poison window : Bool) : State :=
  let base := blockBase a
  let off := a % 256
  let block := farKey s p base / 256
  let s0 := markBypass (if hint = 3 then odInc s (Ad.partDrizzleWrites p) else s) p a bs.length src
  let s := if poison && !partEcc s p then
      (match writerCell src with
       | some g => cellErr s0 g .poisonUnstorable a false
       | none => coreErr s0 p .poisonUnstorable a)
    else s0
  let data := if poison && !partEcc s p then bs.map (fun _ => 0) else bs
  let poison := poison && partEcc s p
  let hit := if poison then sectorMask off data.length else 0
  match lineFor s p block with
  | some l => touchLine (mscHit s p a) (mergeLine l off data poison (if hint = 3 then l.isProtected else decide (hint = 1)))
  | none =>
    let s1 := mscMiss s p a
    if hint = 1 then
      let s2 := closeMerge s1 p base
      if data.length = 256 then allocLine s2 p base data hit true true false
      else
        let region := (regionAt s2 p base).isSome
        let d := dramRead (metaTouch s2 p base 1) p base true
        let s3 := if region then odInc d.1 (Ad.partCompressRmw p) else d.1
        let s4 := allocLine s3 p base d.2.bytes d.2.poison true true (region && d.2.unread)
        match lineFor s4 p block with
        | some l => touchLine s4 (mergeLine l off data poison true)
        | none => s4
    else if hint = 3 then putMerged (metaTouch (closeMerge s1 p base) p base 3) p base (bytesAt off data) hit
    else
      let m := (mergeFor s1 p block).getD { p := p, block := block, base := base, writer := src }
      let bytes := (List.range data.length).foldl (fun t i => tset t (off + i) (data.getD i 0)) m.bytes
      let poi := mergedPoison m.poison hit (bytesAt off data)
      let s2 := modMd s1 (keyMd (block * 256)) fun d =>
        { d with merges := d.merges.filter (fun x => !(x.block = block && x.p = p)) ++ [{ m with bytes := bytes, poison := poi }] }
      if window then s2 else closeMerge s2 p base

/-- A far-tier write of any length, made at once: by a load, a control structure of the part, a move or a
unit other than a cell's line-path write. -/
def farWrite (s : State) (p a hint : Nat) (src : Writer) (bs : List Byte) (poison : Bool) : State :=
  (blocksOf a bs.length).foldl (fun t x =>
    writePiece t p x.1 hint src (slice bs (x.1 - a) x.2) poison false) s

/-- Lines of a partition in a range of its addresses cleaned or invalidated (Table 7.4). -/
def maintain (s : State) (p base size : Nat) (clean discard : Bool) : State :=
  let hitL := fun (l : Line) => decide (l.owner = p) && decide (base < l.addr + 256) && decide (l.addr < base + size)
  let s0 := ((s.mds.flatMap fun e => e.2.merges).filter fun m =>
    decide (m.p = p) && decide (base < m.base + 256) && decide (m.base < base + size)).foldl
      (fun t m => closeMerge t p m.base) s
  let ls := (s0.mds.flatMap fun e => e.2.lines).filter hitL
  let s1 := if clean then
      ls.foldl (fun t l => touchLine (writeBack t l) { l with dirty := false }) s0 else s0
  if discard then ls.foldl dropLine s1 else s1

/-! ## The host tier (R202) -/

/-- The words a range of physical bytes meets. -/
def wordsOf (a n : Nat) : List Nat := if n = 0 then [] else (List.range ((a + n - 1) / 64 - a / 64 + 1)).map (a / 64 + ·)

/-- A set of poisoned words after a write of `[a, a + n)` (R173): a word it enables wholly takes the
write's poison; one it enables in part keeps its own beside it. -/
def poisonAfter (set : List Nat) (a n : Nat) (poison : Bool) : List Nat :=
  (wordsOf a n).foldl (fun l w =>
    if poison then addTo l w
    else if a ≤ w * 64 ∧ w * 64 + 64 ≤ a + n then l.filter (· != w) else l) set

/-- A window's entry as it applies: latched, or as written while no job has latched the windows yet, so that a
host-tier ring can bring the first job (log 47). -/
def windowValue (s : State) (p a : Nat) : Nat := if (partOf s p).latched.isEmpty then odGet s a else latched s p a

/-- The I/O virtual address of an offset in a window in effect; none outside it. -/
def hostAddr (s : State) (p window off n : Nat) : Option Nat :=
  let z := windowValue s p (Ad.partHostWindowSize p window)
  if off + n ≤ z then some (windowValue s p (Ad.partHostWindowBase p window) + off) else none

/-- The host tier's address at a 48-bit address: I/O virtual, by window [41:36] and offset [35:0] (R202). -/
def hostPlace (s : State) (p a n : Nat) : Option Nat := hostAddr s p (bits a 41 36) (a % 2 ^ 36) n

/-! ## Address checks (R186, R202, R59, R170) -/

/-- What is wrong with an access of `n` bytes from BASE in a SPACE: its code, or none. Scratchpad
addresses here are those of one cell. -/
def addrFault (s : State) (p space base n : Nat) : Option Code :=
  match space with
  | 0 => if base + n ≤ 2097152 then none else some .streamBounds
  | 1 => if base + n ≤ (partOf s p).dies.length * 2 ^ 29 then none else some .streamBounds
  | 2 =>
    if bits base 47 46 = 3 ∨ bits base 45 41 ≠ 0 then some .addressFormatInvalid
    else if base % 2 ^ 41 + n ≤ farSize s p then none else some .streamBounds
  | _ =>
    if bits base 47 42 ≠ 0 then some .addressFormatInvalid
    else if (hostPlace s p base n).isSome then none else some .streamBounds

/-- The number of the key and tweak a partition's access to 64 B of the host tier goes under (R390): 0 outside a confidential
partition. Its address gives window and offset (R202). -/
def hostKey (s : State) (p a : Nat) : Nat := if memKey s p = 0 then 0 else memKey s p * 2 ^ 36 + a / 64 % 2 ^ 36

/-- 64 B of host memory as they read under a key and tweak: what they hold, else that deciphered under the wrong ones. -/
def hostUnit (s : State) (key u : Nat) : List Byte :=
  let raw := mread s.host (64 * u) 64
  let w := (tget s.hostKeys u).getD 0
  if w = key then raw else padTo 64 (Config.xts w key u raw)

/-- Bytes of the host tier, and whether the last read of any of them failed (R204). An address outside the windows gives
poison. -/
def hostView (s : State) (p a n : Nat) : List Byte × Bool :=
  match hostPlace s p a n with
  | none => (List.replicate n 0, true)
  | some x =>
    (slice ((wordsOf x n).flatMap fun u => hostUnit s (hostKey s p (a + 64 * (u - x / 64))) u) (x % 64) n,
      s.hostBad.any fun u => decide (u * 64 < x + n) && decide (x < u * 64 + 64))

/-- A unit of host memory, and the number it is written under. -/
def putHostKey (t : Tbl Nat) (u key : Nat) : Tbl Nat := if key = 0 then tdel t u else tset t u key

/-- A unit of host memory rewritten under a key and tweak, as a write of part of it or the host's own bytes leave it. -/
def rekeyHost (s : State) (key u : Nat) : State :=
  if (tget s.hostKeys u).getD 0 = key then s
  else { s with host := mwrite s.host (64 * u) (hostUnit s key u), hostKeys := putHostKey s.hostKeys u key }

/-- Bytes written at an I/O virtual address, each unit under its key and tweak. -/
def hostBytes (s : State) (x : Nat) (key : Nat → Nat) (bs : List Byte) : State :=
  let t := (wordsOf x bs.length).foldl (fun t u => rekeyHost t (key u) u) s
  { t with host := mwrite t.host x bs }

/-- Bytes written to the host tier (R203, R390): a poisoned 64 B unit reads poisoned until it is written whole (R173). -/
def hostStore (s : State) (p a : Nat) (bs : List Byte) (poison : Bool) : State :=
  match hostPlace s p a bs.length with
  | none => s
  | some x =>
    let t := hostBytes (odAdd s (Ad.partHostBytes p) bs.length) x (fun u => hostKey s p (a + 64 * (u - x / 64))) bs
    { t with hostBad := poisonAfter t.hostBad x bs.length poison }

/-- What is wrong with an access at a 64-bit base of the form SPACE [63:62], address [47:0] (R363): its format or its range
(R59, R186, R202). -/
def ringFault (s : State) (p base off n : Nat) : Option Code :=
  addrFault s p (if bits base 63 62 = 3 then 3 else 2) (base % 2 ^ 48) (off + n)

/-- Such a base read: bytes, poison. A request that breaks R186 or R202 is not made. -/
def ringRead (s : State) (p base off n : Nat) : List Byte × Bool :=
  if (ringFault s p base off n).isSome then (List.replicate n 0, true)
  else if bits base 63 62 = 3 then hostView s p (base % 2 ^ 48 + off) n
  else farView s p (base % 2 ^ 41 + off) n

/-- What such a read does at the memory-side cache, by the base's hint (R191). -/
def ringSeen (s : State) (p base off n : Nat) : State :=
  if (ringFault s p base off n).isSome then s
  else if bits base 63 62 = 3 then odAdd s (Ad.partHostBytes p) n
  else farRead s p (base % 2 ^ 41 + off) n (bits base 47 46)

/-- Bytes written to such a base. -/
def ringWrite (s : State) (p base off : Nat) (bs : List Byte) : State :=
  if (ringFault s p base off bs.length).isSome then s
  else if bits base 63 62 = 3 then hostStore s p (base % 2 ^ 48 + off) bs false
  else farWrite s p (base % 2 ^ 41 + off) (bits base 47 46) .control bs false

end Sys2Proof.Machine
end

