-- ==== Sys2Proof/Machine/Operands.lean ====
section
/-!
DEFINITION. The operand forms of the tensor cell: the bundle and its five slots (Tables 2.2, 2.3, 2.5, 2.6,
2.9), the words the single slot operations of the table stand for, the stream and tile descriptors
(Tables 2.7 and 4.1) and the formats' row layouts (Table 2.4).
-/

namespace Sys2Proof.Machine

/-! ## The bundle -/

/-- The sync slot (Table 2.3). -/
structure SyncSlot where
  op : Nat
  arg : Nat
  deriving DecidableEq, Repr

/-- The matrix slot (Table 2.5). -/
structure MatSlot where
  op : Nat
  fmt : Nat
  bank : Nat
  row : Nat
  rowinc : Bool
  rs : Nat
  deriving DecidableEq, Repr

/-- The vector slot (Table 2.6). -/
structure VecSlot where
  op : Nat
  dst : Nat
  sa : Nat
  sb : Nat
  sc : Nat
  mask : Nat
  dt : Nat
  rnd : Nat
  slot : Nat
  imm : Nat
  deriving DecidableEq, Repr

/-- A stream slot (Table 2.9). -/
structure StreamSlot where
  op : Nat
  stream : Nat
  desc : Nat
  near : Nat
  addr : Nat
  deriving DecidableEq, Repr

/-- A bundle (Table 2.2). -/
structure Bundle where
  sync : SyncSlot
  vec : VecSlot
  mat : MatSlot
  sin : StreamSlot
  sout : StreamSlot
  rep : Nat
  deriving DecidableEq, Repr

/-- Bits `[25:0]` of the sync slot's operand hold the semaphore in [25:18] (Table 2.3). -/
def SyncSlot.sem (x : SyncSlot) : Nat := bits x.arg 25 18

/-- The count a SEM_SIGNAL adds: its field plus 1 (R86). -/
def SyncSlot.count (x : SyncSlot) : Nat := bits x.arg 17 10 + 1

/-- FENCE's mode. -/
def SyncSlot.mode (x : SyncSlot) : Nat := bits x.arg 25 24

/-- FENCE's predicate semaphore. -/
def SyncSlot.pred (x : SyncSlot) : Nat := bits x.arg 23 16

/-- The loop counter of SETCNT and LOOP. -/
def SyncSlot.ctr (x : SyncSlot) : Nat := bits x.arg 25 24

/-- SETCNT's count. -/
def SyncSlot.cnt (x : SyncSlot) : Nat := bits x.arg 19 0

/-- LOOP's target. -/
def SyncSlot.target (x : SyncSlot) : Nat := bits x.arg 23 12

/-- The bundle a 256-bit word holds (Tables 2.2 to 2.9). -/
def Bundle.ofWord (b : BitVec 256) : Bundle :=
  let w := b.toNat
  let sy := bits w 255 224
  let v := bits w 223 160
  let m := bits w 159 112
  let i := bits w 111 64
  let o := bits w 63 16
  { sync := ⟨bits sy 31 26, bits sy 25 0⟩
    vec := ⟨bits v 63 56, bits v 55 50, bits v 49 44, bits v 43 38, bits v 37 32, bits v 31 29,
            bits v 28 26, bits v 25 24, bits v 23 12, bits v 11 0⟩
    mat := ⟨bits m 47 44, bits m 43 40, bits m 39 38, bits m 37 32, bit m 31, bits m 30 29⟩
    sin := ⟨bits i 47 44, bits i 43 42, bits i 41 27, bits i 26 26, bits i 25 11⟩
    sout := ⟨bits o 47 44, bits o 43 43, bits o 41 27, bits o 26 25, bits o 24 10⟩
    rep := bits w 15 8 }

/-! ## Words of bundles -/

/-- The 32 bits of a sync slot (Table 2.3). -/
def syncBits (x : SyncSlot) : Nat := x.op * 2 ^ 26 + x.arg

/-- The 64 bits of a vector slot (Table 2.6). -/
def vecBits (x : VecSlot) : Nat :=
  x.op * 2 ^ 56 + x.dst * 2 ^ 50 + x.sa * 2 ^ 44 + x.sb * 2 ^ 38 + x.sc * 2 ^ 32 + x.mask * 2 ^ 29 + x.dt * 2 ^ 26 +
    x.rnd * 2 ^ 24 + x.slot * 2 ^ 12 + x.imm

/-- The 48 bits of a matrix slot (Table 2.5). -/
def matBits (x : MatSlot) : Nat :=
  x.op * 2 ^ 44 + x.fmt * 2 ^ 40 + x.bank * 2 ^ 38 + x.row * 2 ^ 32 + (if x.rowinc then 2 ^ 31 else 0) + x.rs * 2 ^ 29

/-- The 48 bits of a stream-in slot (Table 2.9). -/
def sinBits (x : StreamSlot) : Nat :=
  x.op * 2 ^ 44 + x.stream * 2 ^ 42 + x.desc * 2 ^ 27 + x.near * 2 ^ 26 + x.addr * 2 ^ 11

/-- The 48 bits of a stream-out slot (Table 2.9). -/
def soutBits (x : StreamSlot) : Nat :=
  x.op * 2 ^ 44 + x.stream * 2 ^ 43 + x.desc * 2 ^ 27 + x.near * 2 ^ 25 + x.addr * 2 ^ 10

/-- The word of a bundle (Table 2.2). -/
def Bundle.word (b : Bundle) : BitVec 256 :=
  BitVec.ofNat 256 (syncBits b.sync * 2 ^ 224 + vecBits b.vec * 2 ^ 160 + matBits b.mat * 2 ^ 112 + sinBits b.sin * 2 ^ 64 +
    soutBits b.sout * 2 ^ 16 + b.rep * 2 ^ 8)

/-- Every field of a bundle lies in its bits (Tables 2.2 to 2.9). -/
def Bundle.fits (b : Bundle) : Bool :=
  decide (b.sync.op < 64) && decide (b.sync.arg < 2 ^ 26) &&
    (decide (b.vec.op < 256) && decide (b.vec.dst < 64) && decide (b.vec.sa < 64) && decide (b.vec.sb < 64) &&
      decide (b.vec.sc < 64) && decide (b.vec.mask < 8) && decide (b.vec.dt < 8) && decide (b.vec.rnd < 4) &&
      decide (b.vec.slot < 4096) && decide (b.vec.imm < 4096)) &&
    (decide (b.mat.op < 16) && decide (b.mat.fmt < 16) && decide (b.mat.bank < 4) && decide (b.mat.row < 64) && decide (b.mat.rs < 4)) &&
    (decide (b.sin.op < 16) && decide (b.sin.stream < 4) && decide (b.sin.desc < 2 ^ 15) && decide (b.sin.near < 2) &&
      decide (b.sin.addr < 2 ^ 15)) &&
    (decide (b.sout.op < 16) && decide (b.sout.stream < 2) && decide (b.sout.desc < 2 ^ 15) && decide (b.sout.near < 4) &&
      decide (b.sout.addr < 2 ^ 15)) && decide (b.rep < 256)

/-! ## Words of the single slot operations

A row of the table that names one slot operation is the issue of the bundle that holds it alone, its other
slots all zero and REPEAT 0 (log 15). -/

/-- A bundle word with only a sync slot. -/
def syncWord (op arg : Nat) : BitVec 256 := BitVec.ofNat 256 (syncBits ⟨op, arg⟩ * 2 ^ 224)

/-- A bundle word with only a vector slot. -/
def vecWord (x : VecSlot) : BitVec 256 := BitVec.ofNat 256 (vecBits x * 2 ^ 160)

/-- A bundle word with only a matrix slot. -/
def matWord (op fmt bank row rs : Nat) : BitVec 256 := BitVec.ofNat 256 (matBits ⟨op, fmt, bank, row, false, rs⟩ * 2 ^ 112)

/-- A bundle word with only a stream-in slot. -/
def sinWord (op stream desc near addr : Nat) : BitVec 256 := BitVec.ofNat 256 (sinBits ⟨op, stream, desc, near, addr⟩ * 2 ^ 64)

/-- A bundle word with only a stream-out slot. -/
def soutWord (op stream desc near addr : Nat) : BitVec 256 := BitVec.ofNat 256 (soutBits ⟨op, stream, desc, near, addr⟩ * 2 ^ 16)

/-! ## Formats (Table 2.4) -/

/-- The element format of a code other than INT8. -/
def fmtOf (code : Nat) : Fmt :=
  match code with
  | 0 => bf16
  | 1 => e4m3
  | 2 => e5m2
  | 3 => e4m3
  | 4 => e5m2
  | 5 => e2m3
  | 6 => e3m2
  | _ => e2m1

/-- A format carries block scales. -/
def isMx (code : Nat) : Bool := decide (3 ≤ code) && decide (code ≤ 7)

/-- The bits of an element. -/
def elemBits (code : Nat) : Nat :=
  match code with
  | 0 => 16
  | 5 => 6
  | 6 => 6
  | 7 => 4
  | _ => 8

/-- The elements of an input row, K. -/
def rowK (code : Nat) : Nat := if code = 7 then 128 else 64

/-- The value of an element. -/
def elemVal (code raw : Nat) : Val :=
  if code = 8 then Val.ofInt (signed 8 raw) else decodeVal (fmtOf code) raw

/-- Two formats pair (R48). -/
def paired (a w : Nat) : Bool :=
  (decide (1 ≤ a) && decide (a ≤ 6) && decide (1 ≤ w) && decide (w ≤ 6)) || decide (a = w)

/-- Element width codes of EBITS [2:0] (Table 4.1), by width. -/
def widthCode (w : Nat) : Nat :=
  match w with
  | 32 => 0
  | 16 => 1
  | 8 => 2
  | 6 => 3
  | _ => 4

/-- The width of an EBITS code. -/
def codeWidth (c : Nat) : Nat :=
  match c with
  | 0 => 32
  | 1 => 16
  | 2 => 8
  | 3 => 6
  | _ => 4

/-- EBITS's four bits for a format: MX and the width code. -/
def fmtEbits (code : Nat) : Nat × Bool := (widthCode (elemBits code), isMx code)

/-! ## Descriptors -/

/-- A stream descriptor's fields (Table 2.7). -/
def StreamDesc.ofBytes (bs : List Byte) : StreamDesc :=
  let w := fieldLE bs 0 8
  { xform := bits w 59 52, space := bits w 51 48, base := bits w 47 0
    ext := (List.range 5).map fun i => fieldLE bs (8 + 4 * i) 4
    str := (List.range 4).map fun i => signed 32 (fieldLE bs (28 + 4 * i) 4)
    param0 := fieldLE bs 48 8, param1 := fieldLE bs 56 8 }

/-- A tile descriptor's fields (Table 4.1). -/
def TileDesc.ofBytes (bs : List Byte) : TileDesc :=
  let e := fieldLE bs 37 1
  { rowExt := fieldLE bs 0 4, colExt := fieldLE bs 4 4, rowOrg := fieldLE bs 8 4, colOrg := fieldLE bs 12 4
    trow := fieldLE bs 16 2, tcol := fieldLE bs 18 2, rowCap := fieldLE bs 20 4, colCap := fieldLE bs 24 4
    rowStride := signed 32 (fieldLE bs 28 4), colStride := signed 32 (fieldLE bs 32 4)
    role := fieldLE bs 36 1 % 4, mx := e.testBit 3, ewidth := e % 8
    bcast := fieldLE bs 38 1 % 16, bcount := fieldLE bs 39 1 }

/-- VR, the valid rows of a tile (R106). -/
def TileDesc.vr (t : TileDesc) : Nat := min t.trow (t.rowExt - t.rowOrg)

/-- VC, the valid columns of a tile (R106). -/
def TileDesc.vc (t : TileDesc) : Nat := min t.tcol (t.colExt - t.colOrg)

/-- The transform stages of Table 2.8 and the directions they take: bit 0 read, bit 1 write; 0 for a
reserved code. -/
def xformDirs (x : Nat) : Nat :=
  match x with
  | 0 => 3
  | 1 => 1
  | 2 => 1
  | 3 => 1
  | 4 => 1
  | 5 => 1
  | 6 => 2
  | 7 => 1
  | 8 => 2
  | 9 => 2
  | 10 => 1
  | 11 => 1
  | _ => 0

/-- The bytes of an element type of Table 4.3. -/
def etypeBytes (e : Nat) : Nat := if e = 0 then 4 else if e = 1 then 2 else 1

/-- The element format code of an element type of Table 4.3, none for FP32. -/
def etypeFmt (e : Nat) : Option Nat :=
  match e with
  | 0 => none
  | 1 => some 0
  | 2 => some 1
  | 3 => some 2
  | _ => some 8

end Sys2Proof.Machine
end

