-- ==== Sys2Proof/Machine/Flags.lean ====
section
/-!
DEFINITION. The counters and sticky bits a cell's work moves: contract misses (R81 to R84), waits (R82),
scratchpad and Stratus errors (R155, R162, R172), the amax unit (R66, R96) and its merge into the scale
table.
-/

namespace Sys2Proof.Machine

/-! ## Contract misses and waits -/

/-- The code of a contract-miss cause (Table 3.3). -/
def causeCode : MissCause → Nat
  | .operand => 1
  | .unit => 2
  | .bank => 3
  | .stratus => 4
  | .farReserved => 5
  | .farBestEffort => 6
  | .host => 7
  | .crossDie => 8
  | .amax => 9
  | .writeBackpressure => 10

/-- PART_FIRST_MISS's value for a miss of cell `g` (R84). -/
def firstMissWord (cclk cause g pc : Nat) : Nat :=
  cclk % 2 ^ 32 * 2 ^ 32 + cause * 2 ^ 28 + g % 2048 * 2 ^ 12 + pc % 4096

/-- The first miss kept: none held, or one of a higher cell of the same die in the same CCLK (R84). -/
def keepsFirst (old new : Nat) : Bool :=
  decide (old = 0) ||
    (decide (bits old 63 32 = bits new 63 32) && decide (bits old 22 12 / 80 = bits new 22 12 / 80) &&
      decide (bits new 22 12 < bits old 22 12))

/-- A contract miss begins (R81, R84). -/
def beginMiss (s : State) (g : Nat) (c : MissCause) : State :=
  let x := (cellOf s g).seq
  let s1 := odOr (odInc s (Ad.cellMissCount g)) (Ad.cdMissSticky (3 * (g / 80) + g % 80 / 32)) (2 ^ (g % 80 % 32))
  match cellOwner s g with
  | none => s1
  | some p =>
    let s2 := odSet (odInc s1 (Ad.partMissCount p)) (Ad.partMissSticky p) 1
    let w := firstMissWord x.cclk (causeCode c) g x.pc
    if keepsFirst (odGet s2 (Ad.partFirstMiss p)) w then odSet s2 (Ad.partFirstMiss p) w else s2

/-- A cell after `n` CCLK in which it has issued nothing: no scratchpad port is taken (R157). -/
def Cell.after (c : Cell) (n : Nat) : Cell :=
  { c with seq := { c.seq with cclk := c.seq.cclk + n }, scratch := { c.scratch with asked := if n = 0 then c.scratch.asked else [] } }

/-- `n` stalled CCLK of a miss (R81, Table 14.7). -/
def missCycles (s : State) (g n : Nat) : State :=
  modCell (anem (odAdd s (Ad.cellMissCycles g) n) (g / 80) 2 n) g fun c =>
    let d := c.after n
    { d with seq := { d.seq with miss := c.seq.miss + n } }

/-- `n` CCLK of a hold of partition `p` that is no miss, in PART_WAIT_CYCLES (R82). -/
def countWait (s : State) (p : Option Nat) (n : Nat) : State :=
  match p with
  | none => s
  | some p => odAdd s (Ad.partWaitCycles p) n

/-- `n` CCLK of a hold that is no miss (R82). -/
def waitCycles (s : State) (g n : Nat) : State := modCell (countWait s (cellOwner s g) n) g fun c => c.after n

/-! ## Scratchpad and Stratus errors -/

/-- The cell is faulty (R440): a swap is demanded, within CONTAINMENT where a partition holds it. -/
def cellFaulty (s : State) (g : Nat) (c : Code) (seq : Nat) : State :=
  match cellOwner s g with
  | some p => demand s { kind := 1, parts := [p], code := c.value, wher := whereCell g 0, seq := seq, swap := some g }
  | none => demand s { kind := 3, target := g, code := c.value, wher := whereCell g 0, seq := seq }

/-- A scratchpad word found with a double-bit error (R155, R162): poisoned, counted, a deferred error; at
ERR_CELL_SPARE_LIMIT distinct words within 24 h the cell is faulty (R440). -/
def scratchPoisoned (s : State) (g word : Nat) : State :=
  let now := s.nv.opMs
  let c := cellOf s g
  let at_ := tset (c.scratch.poisonedAt.filter fun e => now < e.2 + 86400000) word now
  let s1 := setCell s g { c with scratch := { c.scratch with poison := addTo c.scratch.poison word, poisonedAt := at_ } }
  let seq := s1.nv.alm.nextSeq
  let s2 := deferred (odInc s1 (Ad.cdScratchPoisoned (g / 80))) (cellOwner s1 g) .dataPoisoned (unitCell g) (word * 64)
  if odGet s2 Ad.errCellSpareLimit ≤ at_.length then cellFaulty s2 g .dataPoisoned seq else s2

/-- What the check bits of a group of a scratchpad word find (R155, R162): a single-bit error is corrected and
counted; a double-bit error poisons the word. -/
def scratchFound (s : State) (g : Nat) (u : Upset) : State :=
  if u.double then scratchPoisoned s g u.word
  else corrected (odInc s (Ad.cdScratchEccCorrected (g / 80))) (cellOwner s g) (unitCell g) (u.word * 64)

/-- A cell without the upsets that fail a test. -/
def keepUpsets (s : State) (g : Nat) (f : Upset → Bool) : State :=
  modCell s g fun c => { c with scratch := { c.scratch with upsets := c.scratch.upsets.filter f } }

/-- Bits of a cell's scratchpad flip. -/
def upsetScratch (s : State) (g : Nat) (us : List Upset) : State :=
  if us = [] then s else modCell s g fun c => { c with scratch := { c.scratch with upsets := c.scratch.upsets ++ us } }

/-- The check of every word read (R162): errors of one bit stay stored, those of two have poisoned the word. -/
def scratchCheck (s : State) (g : Nat) (words : List Nat) : State :=
  let hit := (cellOf s g).scratch.upsets.filter fun u => words.contains u.word
  if hit = [] then s
  else keepUpsets (hit.foldl (fun t u => scratchFound t g u) s) g fun u => !(words.contains u.word && u.double)

/-- The check of a write of `[a, a + n)` (R155): groups it covers whole take the new bytes; those it leaves wholly or
partly unwritten in a word it meets are checked, and stored corrected or poisoned. -/
def scratchMerge (s : State) (g a n : Nat) : State :=
  let met := fun (u : Upset) => decide (a < u.word * 64 + 64) && decide (u.word * 64 < a + n)
  let covered := fun (u : Upset) => decide (a ≤ u.word * 64 + 4 * u.group) && decide (u.word * 64 + 4 * u.group + 4 ≤ a + n)
  let hit := (cellOf s g).scratch.upsets.filter met
  if hit = [] then s
  else keepUpsets ((hit.filter fun u => !covered u).foldl (fun t u => scratchFound t g u) s) g fun u => !met u

/-- What the check bits of a group of a Stratus unit find (R172). -/
def stratusFound (s : State) (d : Nat) (u : Upset) : State :=
  if u.double then
    let s1 := modDie (odInc s (Ad.sdPoisoned d)) d fun x => { x with stratusPoison := addTo x.stratusPoison u.word }
    deferred s1 (dieOwner s1 d) .dataPoisoned (d * 256) (u.word * 64)
  else corrected (odInc s (Ad.sdEccCorrected d)) (dieOwner s d) (d * 256) (u.word * 64)

/-- Bits of a die's Stratus flip. -/
def upsetStratus (s : State) (d : Nat) (us : List Upset) : State :=
  if us = [] then s else modDie s d fun x => { x with upsets := x.upsets ++ us }

/-- The check of every unit read (R172). -/
def stratusCheck (s : State) (d : Nat) (units : List Nat) : State :=
  let hit := (dieOf s d).upsets.filter fun u => units.contains u.word
  if hit = [] then s
  else modDie (hit.foldl (fun t u => stratusFound t d u) s) d fun x =>
    { x with upsets := x.upsets.filter fun u => !(units.contains u.word && u.double) }

/-- The check of the 8 B groups a write of `[a, a + n)` leaves wholly or partly unwritten (R172). -/
def stratusMerge (s : State) (d a n : Nat) : State :=
  let met := fun (u : Upset) => decide (a < u.word * 64 + 64) && decide (u.word * 64 < a + n)
  let covered := fun (u : Upset) => decide (a ≤ u.word * 64 + 8 * u.group) && decide (u.word * 64 + 8 * u.group + 8 ≤ a + n)
  let hit := (dieOf s d).upsets.filter met
  if hit = [] then s
  else modDie ((hit.filter fun u => !covered u).foldl (fun t u => stratusFound t d u) s) d fun x =>
    { x with upsets := x.upsets.filter fun u => !met u }

/-! ## The amax unit -/

/-- The larger of two amax values, which are never negative (R66); a −0 that software wrote is 0 (R241). -/
def amaxMax (a b : BitVec 32) : BitVec 32 := if a.toNat % 2 ^ 31 < b.toNat % 2 ^ 31 then b else a

/-- An entry folded into another (R66): maximum, sum and either flag. The count has 16 bits; what passes them waits
for the merge that 65,535 forces. -/
def Amax.fold (a b : Amax) : Amax :=
  let n := a.sat + a.more + b.sat + b.more
  { a with amax := amaxMax a.amax b.amax, sat := min n 65535, more := n - min n 65535, nan := a.nan || b.nan }

/-- The count of an entry whose merge is forced (R66). -/
def Amax.full (a : Amax) : Bool := decide (65535 ≤ a.sat)

/-- An entry merged into its partition's slot (R66, Table 9.7). -/
def mergeSlot (s : State) (p : Nat) (a : Amax) : State :=
  modPart s p fun q =>
    let r := (tget q.scale a.slot).getD {}
    let top := 2 ^ 32 - 1
    let r1 := { r with amaxStep := amaxMax r.amaxStep a.amax, nanSeen := r.nanSeen || a.nan,
                       satStep := min (r.satStep + a.sat + a.more) top, satTotal := min (r.satTotal + a.sat + a.more) top }
    { q with scale := tset q.scale a.slot r1 }

/-- An entry of a cell merged into the slot of the cell's partition. -/
def mergeEntry (s : State) (g : Nat) (a : Amax) : State :=
  match cellOwner s g with
  | none => s
  | some p => mergeSlot s p a

/-- A regular entry for a slot, made by evicting the oldest when all 64 are in use (R66): the state, and
whether an entry was evicted. -/
def amaxRoom (s : State) (g slot : Nat) : State × Bool :=
  let c := cellOf s g
  if c.amax.any (fun e => e.slot = slot) then (s, false)
  else if c.amax.length < 64 then
    (setCell s g { c with amax := c.amax ++ [{ slot := slot }] }, false)
  else
    match c.amax with
    | [] => (s, false)
    | old :: rest =>
      (setCell (mergeEntry s g old) g { c with amax := rest ++ [{ slot := slot }] }, true)

/-- A fold into the regular entries (R66). The stall of an eviction is a miss with cause AMAX, of a length the manual
bounds by 40 CCLK. A fold into an entry whose merge is due is held before (`amaxBusy`); one made all the same, by a
draining stream while a fence holds issue, adds to what the merge takes. -/
def amaxFold (s : State) (g : Nat) (e : Amax) (stall : Bool) : State :=
  let r := amaxRoom s g e.slot
  let s1 := modCell r.1 g fun c =>
    { c with amax := c.amax.map fun x => if x.slot = e.slot then x.fold e else x }
  if r.2 then
    let f := fresh s1
    if stall then missCycles (beginMiss f.2 g .amax) g (f.1 % 41) else waitCycles f.2 g (f.1 % 41)
  else s1

/-- A conversion at a slot must wait for a merge its entry's count has forced (R38, R66). -/
def amaxBusy (c : Cell) (slot : Nat) : Bool := c.amax.any fun e => e.slot == slot && e.full

/-- A speculative fold, tagged with a predicate (R96); none when it needs a 17th entry. -/
def amaxSpec (s : State) (g pred : Nat) (e : Amax) : Option State :=
  let c := cellOf s g
  if c.spec.any (fun x => x.pred = pred && x.entry.slot = e.slot) then
    some (setCell s g { c with spec := c.spec.map fun x =>
      if x.pred = pred && x.entry.slot = e.slot then { x with entry := x.entry.fold e } else x })
  else if c.spec.length < 16 then some (setCell s g { c with spec := c.spec ++ [⟨pred, e⟩] })
  else none

/-- Every regular entry of a cell merged (AMAXFLUSH, DONE: R66). -/
def amaxFlush (s : State) (g : Nat) : State :=
  let c := cellOf s g
  let s1 := c.amax.foldl (fun t e => mergeEntry t g e) s
  modCell s1 g fun c => { c with amax := [] }

end Sys2Proof.Machine
end

