-- ==== Sys2Proof/Machine/Lanes.lean ====
section
/-!
DEFINITION. The arithmetic of the vector unit on its 128 lanes (R51 to R57, R486), the lane random
generators (R61 to R63), and the arithmetic of the matrix array (R47 to R50, R110).
-/

namespace Sys2Proof.Machine

/-! ## Lanes -/

/-- The lane count of the vector unit (Table 2.1). -/
def lanes : Nat := 128

/-- The FP32 code of a lane read with a DT: BF16 widens exactly (R51). -/
def laneCode (dt : Nat) (x : Lane) : Nat := if dt = 1 then x.toNat % 65536 * 65536 else x.toNat

/-- The value of a lane read with a DT: FP32, BF16, or for a conversion the exact INT32 (R57). -/
def laneVal (dt : Nat) (x : Lane) : Val :=
  if dt = 2 then Val.ofInt x.toInt else decodeVal fp32 (laneCode dt x)

/-- The result format of a DT. -/
def laneFmt (dt : Nat) : Fmt := if dt = 1 then bf16 else fp32

/-- A result rounded once into a lane (R51). -/
def laneOut (dt : Nat) (v : Val) : Lane := BitVec.ofNat 32 (encodeVal (laneFmt dt) v)

/-- An FP32 code as a lane of a DT that holds it exactly. -/
def laneNarrow (dt c : Nat) : Lane := BitVec.ofNat 32 (if dt = 1 then c / 65536 else c)

/-- The floating-point operations of two or three sources, by opcode (R486). -/
def fpOp (op dt : Nat) (a b c : Lane) : Lane :=
  let x := laneVal dt a
  let y := laneVal dt b
  match op with
  | 1 => laneOut dt (x.add y)
  | 2 => laneOut dt (x.add y.neg)
  | 3 => laneOut dt (x.mul y)
  | 4 => laneOut dt ((x.mul y).add (laneVal dt c))
  | 5 => laneNarrow dt (extremum32 true (laneCode dt a) (laneCode dt b))
  | _ => laneNarrow dt (extremum32 false (laneCode dt a) (laneCode dt b))

/-- The integer and logic operations, by opcode (R486). -/
def intOp (op : Nat) (a b : Lane) : Lane :=
  match op with
  | 8 => a + b
  | 9 => a - b
  | 10 => a * b
  | 11 => a &&& b
  | 12 => a ||| b
  | 13 => a ^^^ b
  | 14 => a <<< (b.toNat % 32)
  | _ => a >>> (b.toNat % 32)

/-- The special functions, by opcode (R53), rounded once into the DT's format (log 16). -/
def sfuOp (op dt : Nat) (a : Lane) : Lane :=
  let f := laneFmt dt
  let x := laneVal dt a
  BitVec.ofNat 32 (match op with
    | 0x20 => exp2Code f x
    | 0x21 => log2Code f x
    | 0x22 => rsqrtCode f x
    | 0x23 => rcpCode f x
    | 0x24 => trigCode f false x
    | _ => trigCode f true x)

/-- VCMPLT (`lt`) or VCMPEQ on one lane (R486). -/
def cmpOp (lt : Bool) (dt : Nat) (a b : Lane) : Bool :=
  if dt = 2 then (if lt then a.ult b else a == b)
  else
    let x := laneCode dt a
    let y := laneCode dt b
    if isNan32 x || isNan32 y then false
    else if lt then decide (order32 x < order32 y) else decide (order32 x = order32 y)

/-- Adjacent pairs of results combined: one level of the fixed tree (R52). -/
def pairUp (f : Nat → Nat → Nat) : List Nat → List Nat
  | a :: b :: t => f a b :: pairUp f t
  | t => t

/-- The fixed binary tree over `n` levels (R52). -/
def treeFold (f : Nat → Nat → Nat) : Nat → List Nat → List Nat
  | 0, l => l
  | n + 1, l => treeFold f n (pairUp f l)

/-- VRSUM (`sum`) or VRMAX over the unmasked lanes (R52). -/
def reduceOp (sum : Bool) (dt : Nat) (mask : BitVec 128) (a : List Lane) : Lane :=
  let unit := if sum then 0x80000000 else 0xFF800000
  let xs := (List.range lanes).map fun i => if mask.getLsbD i then laneCode dt (a.getD i 0) else unit
  let f := fun x y =>
    if sum then encodeVal fp32 ((decodeVal fp32 x).add (decodeVal fp32 y)) else extremum32 true x y
  let r := (treeFold f 7 xs).headD unit
  if sum then laneOut dt (decodeVal fp32 r) else laneNarrow dt r

/-! ## Conversions -/

/-- One value converted to a target of VCVT (R54 to R56): its code and whether it saturates. `inf` is the
slot's overflow mode INFINITY. -/
def convElem (target : Nat) (inf : Bool) (r : Rounding) (v : Val) : Nat × Bool :=
  if target = 8 then convertInt8 r v else convertVal (fmtOf target) inf false r v

/-- What a conversion folds into the amax unit (R66): over unmasked source values, the largest magnitude
as FP32, the saturations, and whether any was NaN. -/
def amaxOf (slot sat : Nat) (xs : List Val) : Amax :=
  let m := (xs.filter (· ≠ .nan)).foldl (fun a x => a.maxAbs x.abs) (.fin false 0 0)
  { slot := slot, amax := BitVec.ofNat 32 (encodeVal fp32 m), sat := sat, nan := xs.contains .nan }

/-- A register from the number its bytes spell. -/
def lanesOf (n : Nat) : List Lane := (List.range lanes).map fun i => BitVec.ofNat 32 (n / 2 ^ (32 * i))

/-- The values a conversion takes from a register: each lane's value, whether it is unmasked, and its
rounding, stochastic with bits [15:0] of the lane's draw (R55, R62). -/
def cvtSource (dt : Nat) (mask : BitVec 128) (sr : Bool) (draws : List (BitVec 32)) (a : List Lane) :
    List (Val × Bool × Rounding) :=
  (List.range lanes).map fun i =>
    (laneVal dt (a.getD i 0), mask.getLsbD i,
      if sr then .stochastic ((draws.getD i 0).toNat % 65536) else .nearest)

/-- VCVT (R57): DST and what it folds. The multiplier is 2^m. -/
def vcvt (target slot : Nat) (m : Int) (inf : Bool) (src : List (Val × Bool × Rounding)) : List Lane × Amax :=
  let rs := src.map fun v => (convElem target inf v.2.2 (v.1.shift m), v.2.1)
  let sat := (rs.filter fun r => r.1.2 && r.2).length
  (lanesOf (packBits (elemBits target) (rs.map (·.1.1))),
   amaxOf slot sat ((src.filter (·.2.1)).map (·.1)))

/-- VCVTMX (R57): DST with whole MX input rows, and what it folds. -/
def vcvtmx (target slot : Nat) (m : Int) (src : List (Val × Bool × Rounding)) : List Lane × Amax :=
  let f := mxFmt target
  let w := elemBits target
  let bs := (List.range 4).map fun j =>
    convertBlock f.1 f.2 (((src.drop (32 * j)).take 32).map fun v => (v.1.shift m, v.2.1, v.2.2))
  let sat := (bs.map (·.2.2)).foldl (· + ·) 0
  let elems := fun j => packBits w (bs.getD j (0, [], 0)).2.1
  let scale := fun j => (bs.getD j (0, [], 0)).1
  let num :=
    if target = 7 then
      (List.range 4).foldl (fun n j => n + elems j * 2 ^ (128 * j) + scale j * 2 ^ (512 + 8 * j)) 0
    else
      let row := fun j => elems j + elems (j + 1) * 2 ^ (32 * w) + scale j * 2 ^ (64 * w) + scale (j + 1) * 2 ^ (64 * w + 8)
      row 0 + row 2 * 2 ^ 2048
  (lanesOf num, amaxOf slot sat ((src.filter (·.2.1)).map (·.1)))

/-! ## Random generators -/

/-- The 32-bit draw of a generator's state (R61). -/
def Gen.output (x : Gen) : BitVec 32 :=
  let t := ((x.s >>> 32).setWidth 32 ^^^ x.w) + x.s.setWidth 32
  let t := t ^^^ (t >>> 15)
  let t := t * 0x2C1B3C6D#32
  let t := t ^^^ (t >>> 12)
  let t := t * 0x297A2D39#32
  t ^^^ (t >>> 16)

/-- One advance (R61). -/
def Gen.advance (x : Gen) : Gen :=
  let s := x.s ^^^ (x.s <<< 13)
  let s := s ^^^ (s >>> 7)
  let s := s ^^^ (s <<< 17)
  { s := s, w := x.w + 0xB5297A4D#32 }

/-- mix64 of R63. -/
def mix64 (z : BitVec 64) : BitVec 64 :=
  let z := (z ^^^ (z >>> 31)) * 0xA24B1F6E9D3C5B27#64
  let z := (z ^^^ (z >>> 29)) * 0x5F0D83C1E7A9B643#64
  z ^^^ (z >>> 32)

/-- The generator of global lane `l` seeded at job start (R63). -/
def Gen.seed (p : BitVec 64) (l : Nat) : Gen :=
  let z := p + BitVec.ofNat 64 (l + 1) * 0x9B3F2C71E5A84D0B#64
  let s := mix64 z
  { s := if s = 0 then 1 else s, w := (mix64 (z ^^^ 0x7D5A1C3E4B6F9082#64)).setWidth 32 }

/-- VRANDU's value of a draw: (draw[31:9] + 0.5) × 2^−23, exact in FP32 (R62). -/
def uniformOf (d : BitVec 32) : Lane :=
  BitVec.ofNat 32 (encodeRat fp32 false (2 * (d.toNat / 512) + 1) 1 (-24))

/-! ## The matrix array -/

/-- A zero product of integers has no sign (R49: INT8 products enter as exact integers). -/
def Val.unsignedZero : Val → Val
  | .fin _ 0 _ => .fin false 0 0
  | v => v

/-- A term of R49, or a source of NaN: element a_k, its scale byte, element w_kn, its scale byte. -/
def macTerm (fa fw ra xa rw xw : Nat) : Val :=
  if xa = 255 || xw = 255 then .nan
  else
    let v := ((elemVal fa ra).mul (elemVal fw rw)).shift ((xa : Int) + xw - 254)
    if fa = 8 then v.unsignedZero else v

/-- ⌊log2⌋ of the largest non-zero magnitude among terms; none when all are zero. -/
def maxExp (ts : List Val) : Option Int :=
  ts.foldl (fun a t =>
    match t with
    | .fin _ m e =>
      if m = 0 then a
      else
        let x := (Nat.log2 m : Int) + e
        some (match a with | none => x | some y => max x y)
    | _ => a) none

/-- A finite term truncated toward zero to a count of 2^q (R49). -/
def truncTerm (q : Int) : Val → Int
  | .fin n m e =>
    let c : Int := (m * pow2 (e - q) / pow2 (q - e) : Nat)
    if n then -c else c
  | _ => 0

/-- A term is −0. -/
def Val.isNegZero : Val → Bool
  | .fin true 0 _ => true
  | _ => false

/-- The sum of the terms as FP32 (R49, R50); +0 when there is none. -/
def macSum (ts : List Val) : Nat :=
  if ts.contains .nan || (ts.contains (.inf true) && ts.contains (.inf false)) then fp32.nan
  else if ts.contains (.inf true) then encodeVal fp32 (.inf true)
  else if ts.contains (.inf false) then encodeVal fp32 (.inf false)
  else
    match maxExp ts with
    | none => if ts ≠ [] ∧ ts.all Val.isNegZero then 2 ^ 31 else 0
    | some e =>
      let v := (ts.map (truncTerm (e - 60))).foldl (· + ·) 0
      if v = 0 then 0 else encodeRat fp32 (decide (v < 0)) v.natAbs 1 (e - 60)

/-- An element and the scale byte of its block in a row of the layout of Table 2.4: `n` elements of a
format, their scales after them (R44); 127 without block scales. -/
def rowElem (fmt n : Nat) (row : List Byte) (num i : Nat) : Nat × Nat :=
  let w := elemBits fmt
  (unpackBits w num i, if isMx fmt then (row.getD (n * w / 8 + i / 32) 0).toNat else 127)

/-- The accumulator row an input row makes of the weight tile (R47, R110): `valid` columns of the input
row are inside its tile, and the weights have VR valid rows and VC valid columns. -/
def macRow (fmt : Nat) (row : List Byte) (valid : Nat) (b : WBuf) (old : List (Option (BitVec 32))) :
    List (BitVec 32) :=
  let fw := b.fmt.getD fmt
  let k := if b.fmt.isNone then 0 else min (min (rowK fmt) valid) b.vr
  let num := leNat row
  let ws := b.rows.map fun r => (r, leNat r)
  let ins := (List.range k).map fun i => (rowElem fmt (rowK fmt) row num i, ws.getD i ([], 0))
  (List.range 64).map fun n =>
    let prods := if n < b.vc then
        ins.map fun x =>
          let w := rowElem fw 64 x.2.1 x.2.2 n
          macTerm fmt fw x.1.1 x.1.2 w.1 w.2
      else []
    let ts := match old.getD n none with
      | none => prods
      | some o => decodeVal fp32 o.toNat :: prods
    match old.getD n none, prods with
    | some o, [] => o
    | _, _ => BitVec.ofNat 32 (macSum ts)

end Sys2Proof.Machine
end

