-- ==== Sys2Proof/Machine/Spaces.lean ====
section
/-!
DEFINITION. The four spaces a cell's streams reach (Table 2.7): the scratchpad and Stratus behind the page
maps and shadows of R91 to R93, the far tier and the host tier; poison (R173) and moves (R232, R235) on
the way.
-/

namespace Sys2Proof.Machine

/-! ## Scratchpad -/

/-- A cell's OPEN shadow of a logical page of a space (R93). -/
def openShadow (c : Cell) (space page : Nat) : Option (Nat × Shadow) :=
  c.shadows.find? fun e => e.2.state = 1 && e.2.space = space && e.2.page = page

/-- The physical address of a scratchpad address: through the page map (R91), and for the owning cell
through its OPEN shadows (R93). -/
def scratchPhys (c : Cell) (own : Bool) (a : Nat) : Nat :=
  let page := a / 8192
  let committed := (tget c.scratch.map page).getD page
  let frame := if own then ((openShadow c 0 page).map (·.2.frame)).getD committed else committed
  frame * 8192 + a % 8192

/-- A range cut at 8 KiB page boundaries. -/
def pageCuts : Nat → Nat → Nat → List (Nat × Nat)
  | 0, _, _ => []
  | f + 1, a, n =>
    if n = 0 then []
    else
      let m := min n (8192 - a % 8192)
      (a, m) :: pageCuts f (a + m) (n - m)

/-- A range cut at pages. -/
def pagesOf (a n : Nat) : List (Nat × Nat) := pageCuts (n / 8192 + 2) a n

/-- A read of a word returns poison: its poison bit is set, or its check finds two bits of a group in error (R162). -/
def Cell.scratchBad (c : Cell) (word : Nat) : Bool :=
  c.scratch.poison.contains word || c.scratch.upsets.any fun u => u.word == word && u.double

/-- Bytes of a cell's scratchpad from a logical address, and whether a word of them is poisoned. -/
def scratchRead (c : Cell) (own : Bool) (a n : Nat) : List Byte × Bool :=
  let at_ := (List.range n).map fun i => scratchPhys c own (a + i)
  (at_.map (mget c.scratch.mem), at_.any fun x => c.scratchBad (x / 64))

/-- The physical words of a range of a cell's scratchpad. -/
def scratchWords (c : Cell) (own : Bool) (a n : Nat) : List Nat :=
  (pagesOf a n).flatMap fun y => wordsOf (scratchPhys c own y.1) y.2

/-- The first poisoned word of a range, as a logical address. -/
def scratchBadAt (c : Cell) (own : Bool) (a n : Nat) : Option Nat :=
  (wordsOf a n).findSome? fun w => if c.scratchBad (scratchPhys c own (64 * w) / 64) then some (64 * w) else none

/-- Bytes within one page written into a cell's scratchpad at a physical address; a scrub's write-back of a word they meet
is cancelled (R163). -/
def scratchStore (c : Cell) (phys : Nat) (bs : List Byte) (poison : Bool) : Cell :=
  { c with scratch := { c.scratch with
      mem := mwrite c.scratch.mem phys bs
      poison := poisonAfter c.scratch.poison phys bs.length poison
      scrubBack := c.scratch.scrubBack.filter fun e => !(wordsOf phys bs.length).contains e.2 } }

/-- Bytes deposited into a cell's OPEN shadow of a page are counted (R97). -/
def noteShadow (c : Cell) (space page n : Nat) : Cell :=
  match openShadow c space page with
  | some (k, x) => { c with shadows := tset c.shadows k { x with bytes := x.bytes + n } }
  | none => c

/-- Bytes within one page stored in a cell's scratchpad at a physical address, with the check of what they leave
unwritten (R155). -/
def scratchPut (s : State) (g phys : Nat) (bs : List Byte) (poison : Bool) : State :=
  modCell (scratchMerge s g phys bs.length) g fun c => scratchStore c phys bs poison

/-- A write of the owning cell into its scratchpad at a logical address (R93). -/
def scratchWrite (s : State) (g a : Nat) (bs : List Byte) (poison : Bool) : State :=
  (pagesOf a bs.length).foldl (fun t y =>
    modCell (scratchPut t g (scratchPhys (cellOf t g) true y.1) (slice bs (y.1 - a) y.2) poison) g fun c =>
      noteShadow c 0 (y.1 / 8192) y.2) s

/-- A write of another master to a page with an OPEN shadow of the cell is counted (R93). -/
def noteForeign (s : State) (g page : Nat) : State :=
  match openShadow (cellOf s g) 0 page, cellOwner s g with
  | some _, some p => odSet (odInc s (Ad.partShadowOverwrite p)) (Ad.partShadowOverwriteSticky p) 1
  | _, _ => s

/-- A write of another master into a cell's scratchpad: to the committed frame, and counted where the page
has an OPEN shadow (R93). -/
def scratchForeign (s : State) (g a : Nat) (bs : List Byte) (poison : Bool) : State :=
  (pagesOf a bs.length).foldl (fun t y =>
    noteForeign (scratchPut t g (scratchPhys (cellOf t g) false y.1) (slice bs (y.1 - a) y.2) poison) g (y.1 / 8192)) s

/-- The logical scratchpad page is withheld from a cell's program (R91). -/
def scratchWithheld (c : Cell) (page : Nat) : Bool := c.withheld.contains (0, page)

/-- The logical Stratus page is withheld from the programs of a die's cells (R91). -/
def stratusWithheld (s : State) (d page : Nat) : Bool :=
  (List.range 80).any fun c => (cellOf s (80 * d + c)).withheld.contains (1, page)

/-! ## Stratus -/

/-- The compute die at a partition's Stratus address (R170). -/
def stratusDie (s : State) (p a : Nat) : Nat := (partOf s p).dies.getD (a / 2 ^ 29) 0

/-- The OPEN shadow of a Stratus page in any cell of a die, with its cell (R92 allows one). -/
def dieShadow (s : State) (d page : Nat) : Option (Nat × Nat × Shadow) :=
  (List.range 80).findSome? fun c =>
    (openShadow (cellOf s (80 * d + c)) 1 page).map fun e => (80 * d + c, e.1, e.2)

/-- The physical byte of a die's Stratus offset for a master: the cell that owns the page's OPEN shadow
reaches its frame (R93), any other the committed frame. -/
def stratusPhys (s : State) (d : Nat) (cell : Option Nat) (off : Nat) : Nat :=
  let page := off / 8192
  let committed := (tget (dieOf s d).smap page).getD page
  let frame := match cell with
    | some g => if g / 80 = d then ((openShadow (cellOf s g) 1 page).map (·.2.frame)).getD committed else committed
    | none => committed
  frame * 8192 + off % 8192

/-- A read of a unit returns poison (R172). -/
def Die.stratusBad (d : Die) (unit : Nat) : Bool :=
  d.stratusPoison.contains unit || d.upsets.any fun u => u.word == unit && u.double

/-- Bytes of a partition's Stratus space, and whether a unit of them is poisoned. -/
def stratusRead (s : State) (p : Nat) (cell : Option Nat) (a n : Nat) : List Byte × Bool :=
  let bs := (List.range n).map fun i =>
    let d := stratusDie s p (a + i)
    let x := stratusPhys s d cell ((a + i) % 2 ^ 29)
    (mget (dieOf s d).stratus x, (dieOf s d).stratusBad (x / 64))
  (bs.map (·.1), bs.any (·.2))

/-- The units a range of a partition's Stratus space meets, as die and physical unit. -/
def stratusUnits (s : State) (p : Nat) (cell : Option Nat) (a n : Nat) : List (Nat × Nat) :=
  (wordsOf a n).map fun w =>
    let d := stratusDie s p (64 * w)
    (d, stratusPhys s d cell (64 * w % 2 ^ 29) / 64)

/-- The check of every unit a read of a partition's Stratus space makes (R172). -/
def stratusSeen (s : State) (p : Nat) (cell : Option Nat) (a n : Nat) : State :=
  (stratusUnits s p cell a n).foldl (fun t x => stratusCheck t x.1 [x.2]) s

/-- Bytes within one page written to a die's Stratus at a physical offset, with the check of what they leave unwritten
(R172). -/
def stratusStore (s : State) (d phys : Nat) (bs : List Byte) (poison : Bool) : State :=
  modDie (stratusMerge s d phys bs.length) d fun x =>
    { x with stratus := mwrite x.stratus phys bs
             stratusPoison := poisonAfter x.stratusPoison phys bs.length poison
             scrubBack := x.scrubBack.filter fun e => !(wordsOf phys bs.length).contains e.2 }

/-- A write into a partition's Stratus space (R93, R170). -/
def stratusWrite (s : State) (p : Nat) (cell : Option Nat) (a : Nat) (bs : List Byte) (poison : Bool) : State :=
  (pagesOf a bs.length).foldl (fun t y =>
    let d := stratusDie t p y.1
    let off := y.1 % 2 ^ 29
    let t1 := stratusStore t d (stratusPhys t d cell off) (slice bs (y.1 - a) y.2) poison
    match dieShadow t d (off / 8192) with
    | some (g, _, _) =>
      if cell = some g then setCell t1 g (noteShadow (cellOf t1 g) 1 (off / 8192) y.2)
      else odSet (odInc t1 (Ad.partShadowOverwrite p)) (Ad.partShadowOverwriteSticky p) 1
    | none => t1) s

/-! ## Bank ports (R157, R158) -/

/-- The partition counts conflicts (R160). -/
def countsConflicts (s : State) (p : Nat) : Bool := latched s p (Ad.cellConflictMode p) = 1

/-- Losing requests counted (R160). -/
def countLost (s : State) (p master n : Nat) : State :=
  if countsConflicts s p && decide (master < 6) then odAdd s (Ad.partConflictLost p master) n else s

/-- CCLK that issue is held for bank conflicts: one contract miss with cause BANK (R158). -/
def bankHeld (s : State) (p g n : Nat) : State :=
  let s1 := missCycles (beginMiss s g .bank) g n
  if countsConflicts s p then odAdd s1 (Ad.partConflictStallCycles p) n else s1

/-- The ports taken at a cell's banks in this CCLK. Only an issuing cell's CCLK are told apart. -/
def takenPorts (c : Cell) : List (Nat × Nat) := if c.seq.status = .running then c.scratch.asked else []

/-- Words a slot-driven master asks for in this CCLK. Where a bank has more than two slot-driven requests, issue is held
⌈n/2⌉ − 1 CCLK, at the end of which all have been granted (R158). -/
def bankAsk (s : State) (p g master : Nat) (words : List Nat) : State :=
  let c := cellOf s g
  let taken := takenPorts c
  let all := (taken.filter fun x => decide (x.2 < 4)) ++ words.map fun w => (w % 16, master)
  let of := fun b => all.filter fun x => x.1 == b
  let most := (List.range 16).foldl (fun m b => max m (of b).length) 0
  let held := (most + 1) / 2 - 1
  let last := if held = 0 then taken ++ words.map fun w => (w % 16, master)
    else (List.range 16).flatMap fun b => (of b).drop (2 * held)
  let lost := ((List.range 16).map fun b => ((List.range held).map fun k => (of b).length - 2 * (k + 1)).foldl (· + ·) 0).foldl (· + ·) 0
  let s1 := if lost = 0 then s else countLost s p master lost
  let s2 := if held = 0 ∨ c.seq.status ≠ .running then s1 else bankHeld s1 p g held
  if c.seq.status = .running then modCell s2 g fun c => { c with scratch := { c.scratch with asked := last } } else s2

/-- A word's bank has a port left for CONTROL or SCRUB (R73). -/
def portFree (c : Cell) (word : Nat) : Bool :=
  decide (((takenPorts c).filter fun x => x.1 == word % 16).length < 2)

/-! ## The fabric (R20 to R24, R30) -/

/-- The depth in bytes of a destination's clock-crossing FIFO (Table 1.8). Ports: compute dies 0 to 15, memory dies 16
to 19, media dies 20 and 21, network dies 22 and 23, the PCIe core 24, the management complex beyond (log 141). -/
def fifoDepth (port : Nat) : Nat :=
  if port < 16 then 32768 else if port < 20 then 65536 else if port < 24 then 16384 else if port = 24 then 8192 else 4096

/-- What the fabric carries (R22). -/
inductive Traffic where
  | semaphore
  | bufferMark
  | command
  | scale
  | management
  | reservedRead
  | data
  deriving DecidableEq, Repr

/-- The class of a message (R22): 0 MGMT, 1 RESERVED, 2 BULK. -/
def Traffic.cls : Traffic → Nat
  | .reservedRead => 1
  | .data => 2
  | _ => 0

/-- The free bytes of a destination's FIFO (R30). -/
def fifoFree (f : Fabric) (dst : Nat) : Nat :=
  fifoDepth dst - (f.fifo.filter fun k => k.dst == dst).foldl (fun n k => n + k.bytes) 0

/-- A packet may leave its source: the destination has credit for it, and none of its class is held before it (R24). -/
def fabricFree (f : Fabric) (src dst cls bytes : Nat) : Bool :=
  decide (bytes ≤ fifoFree f dst) && !(f.held.any fun k => k.src == src && k.cls == cls)

/-- A packet enters its destination's FIFO. -/
def fabricPut (s : State) (k : FabPkt) : State := { s with fabric := { s.fabric with fifo := s.fabric.fifo ++ [k] } }

/-- The bytes a transfer takes in a FIFO: whole units of 64 B (log 141). -/
def fabricBytes (n : Nat) : Nat := (n + 63) / 64 * 64

/-! ## The Stratus crossbar (R165) -/

/-- The channel of a physical offset (R164). -/
def stratusChannel (phys : Nat) : Nat := phys / 64 % 64

/-- A die's grant counters at a CCLK: a new frame of 8 and a new CCLK start with none (R165). -/
def atCycle (d : Die) (cyc : Nat) : Die :=
  let d1 := if d.frame = cyc / 8 then d else { d with frame := cyc / 8, grants := [] }
  if d.cyc = cyc then d1 else { d1 with cyc := cyc, cycGrants := 0, cycChannels := [] }

/-- The grants a channel has had in the frame. -/
def chanGrants (d : Die) (ch : Nat) : Nat := (tget d.grants ch).getD 0

/-- A grant made (R165). -/
def grantOne (d : Die) (ch : Nat) : Die :=
  { d with grants := tset d.grants ch (chanGrants d ch + 1), cycGrants := d.cycGrants + 1, cycChannels := d.cycChannels ++ [ch] }

/-- A scheduled access fits R165. -/
def grantable (d : Die) (ch : Nat) : Bool :=
  decide (d.cycGrants < 40) && !d.cycChannels.contains ch && decide (chanGrants d ch < 5)

/-- An unscheduled access fits beside every scheduled grant still to come in the frame (R171). -/
def spareGrant (d : Die) (ch : Nat) : Bool :=
  grantable d ch && decide (7 - d.cyc % 8 ≤ 4 - chanGrants d ch)

/-! ## Any space -/

/-- The address a space's accesses use, from a 48-bit BASE (Tables 2.7 and 7.2, R202): far-tier addresses
without their hint, host addresses with their window in [41:36]. -/
def spaceAddr (space base : Nat) : Nat := if space = 2 then base % 2 ^ 41 else base

/-- The address by which a move record names a place (Table 9.1): for scratchpad the cell's index in the
partition in [31:21]. -/
def moveAddr (s : State) (p g space a : Nat) : Nat :=
  if space = 0 then (if a < 2 ^ 21 then (partCells (partOf s p)).idxOf g * 2 ^ 21 + a else a - 2 ^ 21) else a

/-- Bytes a cell's stream reads from a space, and their poison. -/
def spaceRead (s : State) (p g space a n : Nat) : List Byte × Bool :=
  match space with
  | 0 => scratchRead (cellOf s g) true a n
  | 1 => stratusRead s p (some g) a n
  | 2 => farView s p a n
  | _ => hostView s p a n

/-- The error of an access to a VACATED source range (R235); none otherwise. -/
def staleAt (s : State) (p g space a n : Nat) : Option State :=
  match moveOver s p space (moveAddr s p g space a) n with
  | some r => if r.vacated then some (staleErr s p r (some g)) else none
  | none => none

/-- An access to the destination range of a MOVING record waits (R232), and one under a running cache
maintenance operation (R194). -/
def movingInto (s : State) (p g space a n : Nat) : Bool :=
  moveInto s p space (moveAddr s p g space a) n || (decide (space = 2) && maintRuns s p a n)

/-- A cell's stream writes scratchpad (R58, R101): its own below 2 MiB; above, the cell at each 2 MiB of its
partition's cells from the first (log 140), whose writes arrive as another cell's. -/
def scratchPlace (s : State) (p g a : Nat) (bs : List Byte) (poison : Bool) : State :=
  if a < 2097152 then scratchWrite s g a bs poison
  else
    let k := (partCells (partOf s p)).getD (a / 2097152 - 1) g
    if k = g then scratchWrite s g (a % 2097152) bs poison else scratchForeign s k (a % 2097152) bs poison

/-- A write of a cell made at its place in a space (R58, R93, R184, R202). -/
def placeWrite (s : State) (p g space base : Nat) (a : Nat) (bs : List Byte) (poison : Bool) : State :=
  match space with
  | 0 => scratchPlace s p g a bs poison
  | 1 => stratusWrite s p (some g) a bs poison
  | 2 =>
    (blocksOf a bs.length).foldl (fun t x =>
      writePiece t p x.1 (bits base 47 46) (.cell g) (slice bs (x.1 - a) x.2) poison true) s
  | _ => hostStore s p a bs poison

/-- A write of a cell to a space. What meets the source of a MOVING record is held there and stalls the
cell with WRITE_BACKPRESSURE (R232); one that meets a VACATED source ends the job (R235). -/
def spaceWrite (s : State) (p g space base a : Nat) (bs : List Byte) (poison : Bool) : State :=
  let ma := moveAddr s p g space a
  match moveOver s p space ma bs.length with
  | some r =>
    if r.vacated then staleErr s p r (some g)
    else
      let s1 := (movePieces space (partOf s p).moves ma bs.length).foldl (fun t y =>
        match y.2.2 with
        | none => placeWrite t p g space base (a + (y.1 - ma)) (slice bs (y.1 - ma) y.2.1) poison
        | some r => holdWrite t p r { cell := some g, offset := y.1 - r.src, data := slice bs (y.1 - ma) y.2.1, poison := poison,
                                      hint := bits base 47 46, writer := .cell g }) s
      match (cellOf s1 g).seq.status with
      | .running =>
        modCell (beginMiss s1 g .writeBackpressure) g fun c =>
          { c with seq := { c.seq with status := .stalled .writeBackpressure } }
      | _ => s1
  | none => placeWrite s p g space base a bs poison

/-- A cell's write is held by a move (R38). -/
def writeHeld (s : State) (p g : Nat) : Bool :=
  (partOf s p).moves.any fun r => r.held.any fun h => h.cell = some g

end Sys2Proof.Machine
end

