-- ==== Sys2Proof/Machine/Stages.lean ====
section
/-!
DEFINITION. What a stream moves: the addresses of its far side (R58, R106), and the transform stages of
Table 2.8 as functions of what lies there (R60, R120, R125, R127, R137, R138, R142, R143).
-/

namespace Sys2Proof.Machine

/-! ## Addresses of a stream that is not tile-bound -/

/-- The bytes of the far side: the product of the extents. -/
def StreamDesc.bytes (d : StreamDesc) : Nat := d.ext.foldl (· * ·) 1

/-- EXT0, the bytes of a row. -/
def StreamDesc.rowBytes (d : StreamDesc) : Nat := d.ext.headD 0

/-- The number of rows: the product of EXT1 to EXT4. -/
def StreamDesc.rows (d : StreamDesc) : Nat := (d.ext.drop 1).foldl (· * ·) 1

/-- The byte offset of row `j`, dimension 1 innermost (R58). -/
def rowOffset : List Nat → List Int → Nat → Int
  | e :: es, x :: xs, j => (j % e : Nat) * x + rowOffset es xs (j / e)
  | _, _, _ => 0

/-- The address of row `j` in its space. -/
def StreamDesc.rowAddr (d : StreamDesc) (j : Nat) : Int :=
  (spaceAddr d.space d.base : Nat) + rowOffset (d.ext.drop 1) d.str j

/-- The lowest and highest offset the strides reach. -/
def strideSpan : List Nat → List Int → Int × Int
  | e :: es, x :: xs =>
    let r := strideSpan es xs
    let y := ((e - 1 : Nat) : Int) * x
    (r.1 + min 0 y, r.2 + max 0 y)
  | _, _ => (0, 0)

/-- The runs of far-side addresses that hold `[off, off + n)` of the flattened far side. -/
def flatRuns : Nat → StreamDesc → Nat → Nat → List (Nat × Nat)
  | 0, _, _, _ => []
  | f + 1, d, off, n =>
    if n = 0 then []
    else
      let r := d.rowBytes
      let m := min n (r - off % r)
      ((d.rowAddr (off / r) + (off % r : Nat)).toNat, m) :: flatRuns f d (off + m) (n - m)

/-- Runs read from a stream's space, one after another. -/
def readRuns (s : State) (p g space : Nat) (rs : List (Nat × Nat)) : List Byte × Bool :=
  rs.foldl (fun acc r =>
    let x := spaceRead s p g space r.1 r.2
    (acc.1 ++ x.1, acc.2 || x.2)) ([], false)

/-- `[off, off + n)` of the flattened far side. -/
def flatRead (s : State) (p g : Nat) (d : StreamDesc) (off n : Nat) : List Byte × Bool :=
  readRuns s p g d.space (flatRuns (n + 1) d off n)

/-! ## DEQUANT (R60) -/

/-- DEQUANT's source format. -/
def dqSrc (d : StreamDesc) : Nat := bits d.param0 3 0

/-- DEQUANT's output is FP32. -/
def dqWide (d : StreamDesc) : Bool := bit d.param0 4

/-- An element widened, multiplied by the multiplier and its block scale, and rounded once. -/
def dqElem (d : StreamDesc) (raw scale : Nat) : Nat :=
  let v := if scale = 255 then .nan
    else ((elemVal (dqSrc d) raw).mul (decodeVal bf16 (bits d.param0 31 16))).shift ((scale : Int) - 127)
  encodeVal (if dqWide d then fp32 else bf16) v

/-- The bytes a far-side row of Table 2.4 takes: elements, then scales (R44). -/
def fmtRowBytes (f : Nat) : Nat := rowK f * elemBits f / 8 + (if isMx f then rowK f / 32 else 0)

/-- The elements a DEQUANT or CONVERT far side that is not tile-bound holds. -/
def fmtElems (f bytes : Nat) : Nat :=
  if isMx f then bytes / fmtRowBytes f * rowK f else bytes * 8 / elemBits f

/-- Elements `[e, e + n)` of a far side, as code and scale byte. They lie within one row where MX. -/
def fmtRead (s : State) (p g : Nat) (d : StreamDesc) (f e n : Nat) : List (Nat × Nat) × Bool :=
  let w := elemBits f
  if isMx f then
    let k := rowK f
    let r := flatRead s p g d (e / k * fmtRowBytes f) (fmtRowBytes f)
    let num := leNat r.1
    ((List.range n).map fun i => rowElem f k r.1 num (e % k + i), r.2)
  else
    let r := flatRead s p g d (e * w / 8) (n * w / 8)
    let num := leNat r.1
    ((List.range n).map fun i => (unpackBits w num i, 127), r.2)

/-! ## WINDOW (R120) -/

/-- WINDOW's parameters (Tables 4.4 and 4.5), each axis in the order t, y, x. -/
structure Window where
  etype : Nat
  fill : Nat
  dil : List Nat
  stride : List Nat
  kernel : List Nat
  slab0 : List Int
  slab : List Nat
  inp : List Nat
  out : List Nat
  pad : List Nat
  c : Nat
  pix : Nat
  line : Nat
  plane : Nat
  first : Nat
  count : Nat
  deriving DecidableEq, Repr

/-- The parameters from PARAM0 and the window descriptor. -/
def Window.of (d : StreamDesc) (bs : List Byte) : Window :=
  let q := d.param0
  { etype := bits q 35 32, fill := bits q 28 27
    dil := [bits q 26 24 + 1, bits q 23 21 + 1, bits q 20 18 + 1]
    stride := [bits q 17 15 + 1, bits q 14 12 + 1, bits q 11 9 + 1]
    kernel := [bits q 8 6, bits q 5 3, bits q 2 0]
    slab0 := [signed 32 (fieldLE bs 0 4), signed 32 (fieldLE bs 4 4), signed 32 (fieldLE bs 8 4)]
    slab := [fieldLE bs 12 2, fieldLE bs 14 2, fieldLE bs 16 2]
    inp := [fieldLE bs 18 2, fieldLE bs 20 2, fieldLE bs 22 2]
    out := [fieldLE bs 24 2, fieldLE bs 26 2, fieldLE bs 28 2]
    pad := [fieldLE bs 30 1, fieldLE bs 31 1, fieldLE bs 32 1]
    c := fieldLE bs 34 2, pix := fieldLE bs 36 4, line := fieldLE bs 40 4, plane := fieldLE bs 44 4
    first := fieldLE bs 48 4, count := fieldLE bs 52 4 }

/-- The elements of an im2col row. -/
def Window.k (w : Window) : Nat := w.kernel.foldl (· * ·) 1 * w.c

/-- The input coordinates (t, y, x) of tap `j` at output position `o` (R120). Positions beyond OUT_T × OUT_H × OUT_W, and
output extents of 0, are not refused: the spec says nothing of them, and plain division maps them (log 157). -/
def Window.coord (w : Window) (o j : Nat) : List Int :=
  let ow := w.out.getD 2 1
  let oh := w.out.getD 1 1
  let kw := w.kernel.getD 2 1
  let kh := w.kernel.getD 1 1
  let os := [o / (ow * oh), o / ow % oh, o % ow]
  let ks := [j / (kw * kh), j / kw % kh, j % kw]
  (List.range 3).map fun a =>
    ((os.getD a 0 * w.stride.getD a 1 : Nat) : Int) - (w.pad.getD a 0 : Nat) + (ks.getD a 0 * w.dil.getD a 1 : Nat)

/-- A coordinate lies in the input tensor. -/
def Window.inside (w : Window) (x : List Int) : Bool :=
  (List.range 3).all fun a => decide (0 ≤ x.getD a 0) && decide (x.getD a 0 < (w.inp.getD a 0 : Nat))

/-- A coordinate lies in the slab. -/
def Window.inSlab (w : Window) (x : List Int) : Bool :=
  (List.range 3).all fun a =>
    decide (w.slab0.getD a 0 ≤ x.getD a 0) && decide (x.getD a 0 < w.slab0.getD a 0 + (w.slab.getD a 0 : Nat))

/-- The address of channel `ch` at a coordinate. -/
def Window.addr (w : Window) (base : Nat) (x : List Int) (ch : Nat) : Int :=
  base + (x.getD 0 0 - w.slab0.getD 0 0) * (w.plane : Nat) + (x.getD 1 0 - w.slab0.getD 1 0) * (w.line : Nat) +
    (x.getD 2 0 - w.slab0.getD 2 0) * (w.pix : Nat) + (ch * etypeBytes w.etype : Nat)

/-- FILL's code: zero, or the most negative value (Table 4.4). -/
def Window.fillCode (w : Window) : Nat :=
  if w.fill = 0 then 0
  else match w.etype with
    | 0 => 0xFF800000
    | 1 => 0xFF80
    | 2 => 0xFE
    | 3 => 0xFC
    | _ => 0x80

/-- Element `i` of the im2col row of position `o`: its code, and its poison. -/
def Window.elem (s : State) (p g : Nat) (w : Window) (d : StreamDesc) (o i : Nat) : Nat × Bool :=
  let x := w.coord o (i / w.c)
  if w.inside x then
    let r := spaceRead s p g d.space (w.addr (spaceAddr d.space d.base) x (i % w.c)).toNat (etypeBytes w.etype)
    (leNat r.1, r.2)
  else (w.fillCode, false)

/-! ## S2C and C2S (R125) -/

/-- The parameters of Table 4.6. -/
structure Regroup where
  h : Nat
  w : Nat
  c : Nat
  etype : Nat
  ft : Nat
  fh : Nat
  fw : Nat
  count : Nat
  first : Nat
  t : Nat
  deriving DecidableEq, Repr

/-- The parameters of a descriptor. -/
def Regroup.of (d : StreamDesc) : Regroup :=
  let q := d.param0
  let r := d.param1
  ⟨bits q 63 48, bits q 47 32, bits q 31 16, bits q 15 12, bits q 9 8 + 1, bits q 7 4 + 1, bits q 3 0 + 1,
   bits r 63 40, bits r 39 16, bits r 15 0⟩

/-- The channels of a regrouped pixel. -/
def Regroup.chans (r : Regroup) : Nat := r.ft * r.fh * r.fw * r.c

/-- The address of channel `k` of regrouped pixel `q` in the dense tensor; none outside it. -/
def Regroup.addr (r : Regroup) (base q k : Nat) : Option Nat :=
  let gw := (r.w + r.fw - 1) / r.fw
  let gh := (r.h + r.fh - 1) / r.fh
  let j := k / r.c
  let x := q % gw * r.fw + j % r.fw
  let y := q / gw % gh * r.fh + j / r.fw % r.fh
  let t := q / (gw * gh) * r.ft + j / (r.fw * r.fh)
  if t < r.t ∧ y < r.h ∧ x < r.w then
    some (base + (((t * r.h + y) * r.w + x) * r.c + k % r.c) * etypeBytes r.etype)
  else none

/-- Element `k` of regrouped pixel `q` as S2C delivers it. -/
def Regroup.elem (s : State) (p g : Nat) (r : Regroup) (d : StreamDesc) (q k : Nat) : Nat × Bool :=
  match r.addr (spaceAddr d.space d.base) q k with
  | some a => let x := spaceRead s p g d.space a (etypeBytes r.etype); (leNat x.1, x.2)
  | none => (0, false)

/-! ## RESAMPLE (R127, R128) -/

/-- The parameters of Table 4.7. -/
structure Resample where
  c : Nat
  etype : Nat
  ow : Nat
  oh : Nat
  nbox : Nat
  mode : Nat
  fill : Nat
  h : Nat
  w : Nat
  boxes : Nat
  deriving DecidableEq, Repr

/-- The parameters of a descriptor. -/
def Resample.of (d : StreamDesc) : Resample :=
  let q := d.param0
  let r := d.param1
  ⟨bits q 47 32, bits q 27 24, bits q 23 16 + 1, bits q 15 8 + 1, bits q 7 2 + 1, bits q 1 0,
   bits r 63 48, bits r 47 32, bits r 31 16, bits r 14 0⟩

/-- The bytes of one box's output. -/
def Resample.boxBytes (r : Resample) : Nat := r.oh * r.ow * r.c * etypeBytes r.etype

/-- A finite value as a rational; none for NaN and infinity. -/
def Val.rat : Val → Option Rat
  | .fin n m e =>
    let v : Rat := if 0 ≤ e then (m * pow2 e : Nat) else (m : Rat) / (pow2 (-e) : Nat)
    some (if n then -v else v)
  | _ => none

/-- A rational as an FP32 code, rounded to nearest even. -/
def ratCode (f : Fmt) (q : Rat) : Nat := encodeRat f (decide (q < 0)) q.num.natAbs q.den 0

/-- A rational is an FP32 value. -/
def isFp32 (q : Rat) : Bool := (decodeVal fp32 (ratCode fp32 q)).rat = some q

/-- The coordinates y0, x0, y1, x1 of box `b` of a list (Table 4.8), as FP32 codes. -/
def boxCodes (bs : List Byte) (b : Nat) : List Nat := (List.range 4).map fun i => fieldLE bs (32 * b + 4 * i) 4

/-- The coordinates as rationals; none when one is NaN or infinite. -/
def boxRat (bs : List Byte) (b : Nat) : Option (Rat × Rat × Rat × Rat) :=
  match (boxCodes bs b).map fun c => (decodeVal fp32 c).rat with
  | [some a, some x, some y, some z] => some (a, x, y, z)
  | _ => none

/-- STATUS of a box (R128): 0 OK, 1 CLIPPED, 2 REJECTED. -/
def boxStatus (r : Resample) (bs : List Byte) (b : Nat) : Nat :=
  match boxRat bs b with
  | none => 2
  | some (y0, x0, y1, x1) =>
    if y1 ≤ y0 ∨ x1 ≤ x0 then 2
    else if r.mode = 1 ∧ (16 * (r.oh : Rat) < y1 - y0 ∨ 16 * (r.ow : Rat) < x1 - x0) then 2
    else if y0 < 0 ∨ x0 < 0 ∨ (r.h : Rat) < y1 ∨ (r.w : Rat) < x1 then 1
    else 0

/-- The element format of an element type, for arithmetic. -/
def etypeVal (e raw : Nat) : Val :=
  match e with
  | 0 => decodeVal fp32 raw
  | 1 => decodeVal bf16 raw
  | 2 => decodeVal e4m3 raw
  | 3 => decodeVal e5m2 raw
  | _ => Val.ofInt (signed 8 raw)

/-- A rational rounded once to an element type by round-to-nearest-even; beyond the format's range the
manual states no result, and the operands' free value stands (log 17). -/
def etypeRound (e : Nat) (q : Rat) (open_ : Nat) : Nat :=
  match etypeFmt e with
  | none => ratCode fp32 q
  | some 8 =>
    let n := rne q.num.natAbs q.den
    if q < 0 then (if 128 < n then open_ % 256 else (256 - n) % 256) else if 127 < n then open_ % 256 else n
  | some f =>
    let x := fmtOf f
    let m := codeOf x .nearest q.num.natAbs q.den 0
    if x.max < m then open_ % 2 ^ (x.sgn + 1) else withSign x (decide (q < 0)) m

/-- The pixels along one axis an output sample draws on, with their weights: two for BILINEAR, the
overlapped ones for AREA. -/
def axisWeights (mode n i : Nat) (lo hi : Rat) : List (Int × Rat) :=
  let h := (hi - lo) / (n : Rat)
  if mode = 0 then
    let u := lo + ((i : Rat) + 1 / 2) * h - 1 / 2
    let f := u.floor
    [(f, 1 - (u - (f : Rat))), (f + 1, u - (f : Rat))]
  else
    let a := lo + (i : Rat) * h
    let b := a + h
    let f := a.floor
    (List.range (b.ceil - f).toNat).filterMap fun j =>
      let x : Int := f + (j : Nat)
      let o := min b ((x : Rat) + 1) - max a (x : Rat)
      if 0 < o then some (x, o / h) else none

/-- Every step that leads from a box's two coordinates to an output sample's weights along one axis has an FP32
value, so that no rounding enters (R127). -/
def axisExact (mode n i : Nat) (lo hi : Rat) : Bool :=
  let h := (hi - lo) / (n : Rat)
  let steps : List Rat :=
    if mode = 0 then
      let u := lo + ((i : Rat) + 1 / 2) * h
      [hi - lo, h, ((i : Rat) + 1 / 2) * h, u, u - 1 / 2]
    else [hi - lo, h, (i : Rat) * h, lo + (i : Rat) * h, lo + (i : Rat) * h + h]
  steps.all isFp32 && (axisWeights mode n i lo hi).all fun w => isFp32 w.2 && isFp32 (w.2 * h)

/-- The sum of pixels some of which are NaN or infinite, each with its weight (R45): NaN, or an infinity; none where
all are finite, and where a pixel of weight 0 is not, which the order of the arithmetic decides (log 17). -/
def blendSpecial (px : List (Rat × Val)) : Option Val :=
  if px.any fun x => decide (x.1 = 0) && x.2.rat.isNone then none
  else if px.any fun x => x.2 = .nan then some .nan
  else
    match px.any (fun x => decide (x.2 = .inf true)), px.any (fun x => decide (x.2 = .inf false)) with
    | true, true => some .nan
    | true, false => some (.inf true)
    | false, true => some (.inf false)
    | false, false => none

/-- The value of channel `ch` of a source pixel, FILL outside the map: its code and poison. -/
def Resample.pixel (s : State) (p g : Nat) (r : Resample) (d : StreamDesc) (y x : Int) (ch : Nat) : Val × Nat × Bool :=
  if 0 ≤ y ∧ y < (r.h : Nat) ∧ 0 ≤ x ∧ x < (r.w : Nat) then
    let a := spaceAddr d.space d.base + ((y.toNat * r.w + x.toNat) * r.c + ch) * etypeBytes r.etype
    let b := spaceRead s p g d.space a (etypeBytes r.etype)
    (etypeVal r.etype (leNat b.1), leNat b.1, b.2)
  else (decodeVal bf16 r.fill, 2 ^ 32 + r.fill, false)

/-- NaN or an infinity as an element of an output (R45, R56): what E4M3 and INT8 hold of an infinity is not stated. -/
def etypeSpecial (e : Nat) (v : Val) (open_ : Nat) : Nat :=
  match e, v with
  | 0, _ => encodeVal fp32 v
  | 1, _ => encodeVal bf16 v
  | 2, .nan => encodeVal e4m3 v
  | 3, _ => encodeVal e5m2 v
  | 4, .nan => 0
  | _, _ => open_ % 256

/-- FILL as an element of the output. -/
def Resample.fillElem (r : Resample) : Nat :=
  let v := decodeVal bf16 r.fill
  let open_ := Config.resample r.etype r.mode [r.fill]
  match v.rat with
  | some q => etypeRound r.etype q open_
  | none => etypeSpecial r.etype v open_

/-- The weighted sum of weighted rows of values, when it and every value on the way is an FP32 value, so that
no order of the arithmetic makes a difference; none otherwise. -/
def blendExact (px : List (Rat × List (Rat × Val))) : Option Rat :=
  let add := fun (a t : Option Rat) => match a, t with
    | some u, some v => if isFp32 (u + v) then some (u + v) else none
    | _, _ => none
  let mul := fun (c : Rat) (v : Rat) => if isFp32 c && isFp32 (c * v) then some (c * v) else none
  let term := fun (y : Rat) (c : Rat × Val) => (c.2.rat.bind (mul c.1)).bind fun v => (mul y v).map fun _ => v
  let rows := px.map fun row => ((row.2.map (term row.1)).foldl add (some 0)).bind (mul row.1)
  rows.foldl add (some 0)

/-- Element `i` of box `b`'s output (R127). It is exact arithmetic rounded once where every value on the way
is an FP32 value; where FP32 rounding enters, the free value of its operands (log 17). -/
def Resample.elem (s : State) (p g : Nat) (r : Resample) (d : StreamDesc) (bs : List Byte) (b i : Nat) : Nat × Bool :=
  if boxStatus r bs b = 2 then (r.fillElem, false)
  else
    match boxRat bs b with
    | none => (r.fillElem, false)
    | some (y0, x0, y1, x1) =>
      let ch := i % r.c
      let ox := i / r.c % r.ow
      let oy := i / r.c / r.ow
      let ys := axisWeights r.mode r.oh oy y0 y1
      let xs := axisWeights r.mode r.ow ox x0 x1
      let px := ys.map fun y => (y.2, xs.map fun x => (x.2, Resample.pixel s p g r d y.1 x.1 ch))
      let poison := px.any fun row => row.2.any fun c => c.2.2.2
      let operands := boxCodes bs b ++ [oy, ox, ch, r.oh, r.ow] ++ px.flatMap fun row => row.2.map fun c => c.2.2.1
      let open_ := Config.resample r.etype r.mode operands
      let rounded := (open_ % 2 ^ (8 * etypeBytes r.etype), poison)
      if !axisExact r.mode r.oh oy y0 y1 || !axisExact r.mode r.ow ox x0 x1 then rounded
      else
        match blendSpecial (px.flatMap fun row => row.2.map fun c => (row.1 * c.1, c.2.1)) with
        | some v => (etypeSpecial r.etype v open_, poison)
        | none =>
          match blendExact (px.map fun row => (row.1, row.2.map fun c => (c.1, c.2.1))) with
          | some q => (etypeRound r.etype q open_, poison)
          | none => rounded

/-! ## ROTARY (R136 to R138) -/

/-- Source elements are FP32. -/
def rotWide (d : StreamDesc) : Bool := bit d.param0 32

/-- The bytes of a source element. -/
def rotBytes (d : StreamDesc) : Nat := if rotWide d then 4 else 2

/-- The position of array index `i`. -/
def rotPos (c : Cell) (d : StreamDesc) (i : Nat) : Nat × Bool :=
  let r := scratchRead c true (bits d.param1 14 0 * 64 + 2 * i) 2
  (leNat r.1, r.2)

/-- Cosine and sine of pair `i` at a position (R138), each rounded once to FP32. -/
def rotAngle (c : Cell) (d : StreamDesc) (i pos : Nat) : Val × Val × Bool :=
  let t := bits d.param1 29 15 * 64 + 4096 * i
  let lo := scratchRead c true (t + 8 * (pos % 256)) 8
  let hi := scratchRead c true (t + 8 * (256 + pos / 256)) 8
  let v := fun (b : List Byte) (k : Nat) => decodeVal fp32 (fieldLE b k 4)
  let cl := v lo.1 0
  let sl := v lo.1 4
  let ch := v hi.1 0
  let sh := v hi.1 4
  let r := fun (x : Val) => decodeVal fp32 (encodeVal fp32 x)
  (r ((ch.mul cl).add (sh.mul sl).neg), r ((sh.mul cl).add (ch.mul sl)), lo.2 || hi.2)

/-- The delivered BF16 code of one of a pair: `odd` its second column (R138). -/
def rotElem (c : Cell) (d : StreamDesc) (pos i : Nat) (odd : Bool) (x0 x1 : Val) : Nat × Bool :=
  let m := decodeVal bf16 (bits d.param0 63 48)
  if i < bits d.param0 39 33 + 1 then
    let a := rotAngle c d i pos
    let v := if odd then (x0.mul a.2.1).add (x1.mul a.1) else (x0.mul a.1).add (x1.mul a.2.1).neg
    (encodeVal bf16 (v.mul m), a.2.2)
  else (encodeVal bf16 ((if odd then x1 else x0).mul m), false)

/-- A source element's value. -/
def rotVal (d : StreamDesc) (raw : Nat) : Val := decodeVal (if rotWide d then fp32 else bf16) raw

/-! ## The key-value stages (R140 to R143) -/

/-- KV parameters (Table 5.3): KIND V, the element bits, and D. -/
def kvIsV (d : StreamDesc) : Bool := bit d.param0 7

/-- FORMAT. -/
def kvFormat (d : StreamDesc) : Nat := bits d.param0 6 5

/-- The bits of a stored element by FORMAT. -/
def kvBits (format : Nat) : Nat := if format = 0 then 8 else if format = 1 then 4 else 16

/-- The head dimension D. -/
def kvDim (d : StreamDesc) : Nat := (bits d.param0 4 3 + 1) * 64

/-- The format of stored elements. -/
def kvFmt (format : Nat) : Fmt := if format = 0 then e4m3 else if format = 1 then e2m1 else bf16

/-- The bytes of a page (Table 5.2). -/
def kvPageBytes (format dim : Nat) : Nat := 128 * dim * kvBits format / 8 + (if format = 2 then 0 else 4 * dim)

/-- The bit offset of the element of a dimension and slot in its page, and the offset of its scale. -/
def kvPlace (format dim : Nat) (v : Bool) (d slot : Nat) : Nat × Nat :=
  let w := kvBits format
  if v then (64 * dim * w + (slot * dim + d) * w, 128 * dim * w / 8 + 2 * dim + 2 * (slot * (dim / 64) + d / 64))
  else ((d * 64 + slot) * w, 128 * dim * w / 8 + 2 * d)

/-- The BF16 code KV_SCALE delivers for a stored element and its scale (R143). -/
def kvScaled (format raw scale : Nat) : Nat :=
  if format = 2 then raw
  else
    let x := decodeVal bf16 scale
    if x.isZero then 0 else encodeVal bf16 ((decodeVal (kvFmt format) raw).mul x)

/-- The smallest BF16 code not below n / d · 2^x, for a positive value (R142). -/
def ceilBf16 (n d : Nat) (x : Int) : Nat :=
  let q := quantum bf16 n d x
  let num := n * pow2 (x - q)
  let den := d * pow2 (q - x)
  (q + 7 - (1 - bf16.bias)).toNat * 128 + (num + den - 1) / den

/-- A KV block quantised (R142): its scale, its element codes, and whether it held an infinity or NaN.
Values beyond the valid ones (none) are written 0. -/
def kvQuant (format : Nat) (vs : List (Option Val)) : Nat × List Nat × Bool :=
  let f := kvFmt format
  if format = 2 then (0, vs.map fun v => match v with | some x => encodeVal bf16 x | none => 0, false)
  else
    let a : Val := (vs.filterMap id).foldl (fun (m : Val) (v : Val) => m.maxAbs v.abs) (Val.fin false 0 0)
    match a with
    | .fin _ m e =>
      if m = 0 then (0, vs.map fun _ => 0, false)
      else
        let sc := ceilBf16 m (if format = 0 then 448 else 6) e
        let q := match decodeVal bf16 sc with | .fin _ ms es => (ms, es) | _ => (1, 0)
        (sc, vs.map fun v => match v with
          | some (.fin n mv ev) => withSign f n (codeOf f .nearest mv q.1 (ev - q.2))
          | _ => 0, false)
    | _ => (0x7FC0, vs.map fun _ => 0, true)

end Sys2Proof.Machine
end

