-- ==== Sys2Proof/Machine/Streams.lean ====
section
/-!
DEFINITION. The stream engine: the checks a stream starts under (R59, R107, R121, R126, R129, R151, R195,
R219), the units of a read stream and where they are deposited (R71 to R73, R109), the groups a write
stream drains (R112, R113), and how a stream ends.
-/

namespace Sys2Proof.Machine

/-! ## Tiles -/

/-- The bits of an element of a tile's far side (R106). -/
def tileBits (t : TileDesc) : Nat := codeWidth t.ewidth

/-- The columns of the row a tile-bound read stream delivers: 64 for WEIGHT, K for INPUT. -/
def tileCols (t : TileDesc) : Nat := if t.role = 1 ∧ t.mx ∧ t.ewidth = 4 then 128 else 64

/-- The address of row `r` of a tile (R106). -/
def tileRowAddr (d : StreamDesc) (t : TileDesc) (r : Nat) : Int :=
  (spaceAddr d.space d.base : Nat) + ((t.rowOrg + r : Nat) : Int) * t.rowStride + ((t.colOrg / t.tcol : Nat) : Int) * t.colStride

/-- The element and scale bytes a stream accesses of each row r < VR (R108): from the row's address, and
from its scales. -/
def tileSpans (t : TileDesc) (w : Nat) : List (Nat × Nat) :=
  (0, (t.vc * w + 7) / 8) :: (if t.mx then [(t.tcol * w / 8, (t.vc + 31) / 32)] else [])

/-- A delivered row: `n` elements of `w` bits, those given first and 0 beyond, then, with block scales, one
byte a block, 127 beyond those given (R109, R110). -/
def layoutRow (w n : Nat) (codes scales : List Nat) (mx : Bool) : List Byte :=
  leBytes (n * w / 8) (packBits w codes) ++
    (if mx then (List.range (n / 32)).map fun i => BitVec.ofNat 8 (scales.getD i 127) else [])

/-- The width and MX bit of the elements a tile-bound read stream delivers. -/
def deliveredForm (d : StreamDesc) (t : TileDesc) : Nat × Bool :=
  match d.xform with
  | 0 => (tileBits t, t.mx)
  | 5 => (8 * etypeBytes (Regroup.of d).etype, false)
  | 10 => (8 * etypeBytes (bits d.param0 35 32), false)
  | _ => (16, false)

/-- The format an operation names is one the stream delivers (R107). -/
def deliversFmt (d : StreamDesc) (t : TileDesc) (fmt : Nat) : Bool :=
  match d.xform with
  | 0 => decide (tileBits t = elemBits fmt) && t.mx == isMx fmt
  | 5 => decide (etypeFmt (Regroup.of d).etype = some fmt)
  | 10 => decide (etypeFmt (bits d.param0 35 32) = some fmt)
  | _ => decide (fmt = 0)

/-- Row `r` of a tile as its stream delivers it, and whether a poisoned source was read; a row at or beyond
VR comes from the zero source (R109). The partner of an odd last valid column, of which R138 does not speak, is +0
(log 142). -/
def tileRow (s : State) (p g : Nat) (d : StreamDesc) (t : TileDesc) (aux : List Byte) (r : Nat) : List Byte × Bool :=
  let f := deliveredForm d t
  let n := tileCols t
  let pack := fun (codes scales : List Nat) => layoutRow f.1 n codes scales f.2
  if t.vr ≤ r then (pack [] [], false)
  else
    let base := (tileRowAddr d t r).toNat
    let cols := List.range t.vc
    match d.xform with
    | 0 =>
      let w := tileBits t
      let xs := (tileSpans t w).map fun x => spaceRead s p g d.space (base + x.1) x.2
      let num := leNat (xs.getD 0 ([], false)).1
      (pack (cols.map (unpackBits w num)) ((xs.getD 1 ([], false)).1.map (·.toNat)), xs.any (·.2))
    | 1 =>
      let w := tileBits t
      let xs := (tileSpans t w).map fun x => spaceRead s p g d.space (base + x.1) x.2
      let num := leNat (xs.getD 0 ([], false)).1
      let sc := (xs.getD 1 ([], false)).1
      (pack (cols.map fun c =>
        dqElem d (unpackBits w num c) (if t.mx then (sc.getD (c / 32) 0).toNat else 127)) [], xs.any (·.2))
    | 2 =>
      let c := cellOf s g
      let eb := rotBytes d
      let x := spaceRead s p g d.space base (t.vc * eb)
      let pos := rotPos c d (t.rowOrg + r)
      let val := fun i => if i < t.vc then rotVal d (fieldLE x.1 (eb * i) eb) else .fin false 0 0
      let es := cols.map fun i => rotElem c d pos.1 ((t.colOrg + i) / 2) (decide (i % 2 = 1)) (val (i / 2 * 2)) (val (i / 2 * 2 + 1))
      (pack (es.map (·.1)) [], x.2 || pos.2 || es.any (·.2))
    | 5 =>
      let q := Regroup.of d
      let es := cols.map fun i => Regroup.elem s p g q d (q.first + t.rowOrg + r) (t.colOrg + i)
      (pack (es.map (·.1)) [], es.any (·.2))
    | 7 =>
      let v := kvIsV d
      let fm := kvFormat d
      let es := cols.map fun i =>
        let a := if v then kvPlace fm (kvDim d) v (t.colOrg + i) (t.rowOrg + r) else kvPlace fm (kvDim d) v (t.rowOrg + r) (t.colOrg + i)
        let b := spaceAddr d.space d.base
        let x := spaceRead s p g d.space (b + a.1 / 8) ((kvBits fm + 7) / 8)
        let y := if fm = 2 then ([], false) else spaceRead s p g d.space (b + a.2) 2
        (kvScaled fm (leNat x.1 / 2 ^ (a.1 % 8) % 2 ^ kvBits fm) (leNat y.1), x.2 || y.2)
      (pack (es.map (·.1)) [], es.any (·.2))
    | _ =>
      let w := Window.of d aux
      let es := cols.map fun i => Window.elem s p g w d (w.first + t.rowOrg + r) (t.colOrg + i)
      (pack (es.map (·.1)) [], es.any (·.2))

/-! ## Units of a read stream that is not tile-bound -/

/-- The bytes an element of a WINDOW stream with NEAR = 0 takes: FP32 and BF16 lie one to a 4 B lane (R124). -/
def laneBytes (etype : Nat) : Nat := if etype ≤ 1 then 4 else etypeBytes etype

/-- The near-side bytes of a read stream with NEAR = 0. -/
def nearTotal (d : StreamDesc) (aux : List Byte) : Nat :=
  match d.xform with
  | 1 => fmtElems (dqSrc d) d.bytes * (if dqWide d then 4 else 2)
  | 2 => d.bytes / rotBytes d * 2
  | 5 => (Regroup.of d).count * (Regroup.of d).chans * etypeBytes (Regroup.of d).etype
  | 10 =>
    let w := Window.of d aux
    w.count * ((w.k * laneBytes w.etype + 63) / 64 * 64)
  | 11 => (Resample.of d).nbox * (Resample.of d).boxBytes
  | _ => d.bytes

/-- Elements of `eb` bytes, given by number, as `n` bytes from byte `off`, and their poison. -/
def elemBytes (eb off n : Nat) (f : Nat → Nat × Bool) : List Byte × Bool :=
  let es := (List.range ((n + eb - 1) / eb)).map fun i => f (off / eb + i)
  ((es.flatMap fun e => leBytes eb e.1).take n, es.any (·.2))

/-- Bytes `[off, off + n)` of the near side of a read stream with NEAR = 0, within one 64 B unit, and
whether a poisoned source was read. -/
def nearBytes (s : State) (p g : Nat) (d : StreamDesc) (aux : List Byte) (off n : Nat) : List Byte × Bool :=
  match d.xform with
  | 1 =>
    let eb := if dqWide d then 4 else 2
    let x := fmtRead s p g d (dqSrc d) (off / eb) (n / eb)
    (x.1.flatMap fun e => leBytes eb (dqElem d e.1 e.2), x.2)
  | 2 =>
    let c := cellOf s g
    let eb := rotBytes d
    let dim := d.rowBytes / eb
    elemBytes 2 off n fun e =>
      let j := e / dim
      let i := e % dim
      let row := flatRead s p g d (j * d.rowBytes + i / 2 * 2 * eb) (2 * eb)
      let pos := rotPos c d j
      let x1 := if i / 2 * 2 + 1 < dim then rotVal d (fieldLE row.1 eb eb) else .fin false 0 0
      let r := rotElem c d pos.1 (i / 2) (decide (i % 2 = 1)) (rotVal d (fieldLE row.1 0 eb)) x1
      (r.1, row.2 || pos.2 || r.2)
  | 5 =>
    let q := Regroup.of d
    elemBytes (etypeBytes q.etype) off n fun e => Regroup.elem s p g q d (q.first + e / q.chans) (e % q.chans)
  | 10 =>
    let w := Window.of d aux
    let eb := laneBytes w.etype
    let row := (w.k * eb + 63) / 64 * 64
    elemBytes eb off n fun e =>
      let i := e % (row / eb)
      if i < w.k then Window.elem s p g w d (w.first + e / (row / eb)) i else (0, false)
  | 11 =>
    let r := Resample.of d
    let per := r.oh * r.ow * r.c
    elemBytes (etypeBytes r.etype) off n fun e => Resample.elem s p g r d aux (e / per) (e % per)
  | _ => flatRead s p g d off n

/-- The units of a stream: rows of a tile, or 64 B of the near side. -/
def unitCount (d : StreamDesc) (t : Option TileDesc) (aux : List Byte) : Nat :=
  match t with
  | some x => x.trow
  | none => (nearTotal d aux + 63) / 64

/-- The 64 B far-tier or Stratus requests of a stream (R77, R109, R166, R220): those of its nominal rows, or of its
bytes. -/
def requestCount (d : StreamDesc) (t : Option TileDesc) : Nat :=
  match t with
  | none => (d.bytes + 63) / 64
  | some x =>
    let row := match d.xform with
      | 2 => x.tcol * rotBytes d
      | 7 => x.tcol * kvBits (kvFormat d) / 8 + (if kvFormat d = 2 then 0 else 2)
      | 5 => x.tcol * etypeBytes (Regroup.of d).etype
      | _ => x.tcol * tileBits x / 8 + (if x.mx then x.tcol / 32 else 0)
    x.trow * max 1 ((row + 63) / 64)

/-- The requests the first `k` units need. -/
def needReqs (x : InStream) (k : Nat) : Nat := if x.total = 0 then 0 else (k * x.reqTotal + x.total - 1) / x.total

/-- Packed delivery (R219). -/
def isPacked (d : StreamDesc) : Bool := d.xform == 3 || d.xform == 4

/-- The requests for which a stream holds landing-buffer space: a packed block reserves all its four (R220). -/
def reservedReqs (x : InStream) (n : Nat) : Nat := if isPacked x.desc then (n + 3) / 4 * 4 else n

/-- The landing-buffer bytes a cell's outstanding units hold (R71, R72). -/
def landingUsed (c : Cell) : Nat :=
  c.ins.foldl (fun n e => n + 64 * (reservedReqs e.2 e.2.requested - needReqs e.2 e.2.deposited)) 0

/-- The landing buffer has room for `n` further requests of a stream (R72). -/
def landingRoom (c : Cell) (x : InStream) (n : Nat) : Bool :=
  decide (landingUsed c + 64 * (reservedReqs x (x.requested + n) - reservedReqs x x.requested) ≤ 65536)

/-- The accesses of a row of a KV page's tile (R108, R140): its valid codes and the scales of their blocks. -/
def kvRowSpans (d : StreamDesc) (t : TileDesc) (r : Nat) : List (Nat × Nat) :=
  if t.vc = 0 then []
  else
    let fm := kvFormat d
    let at_ := fun c => if kvIsV d then kvPlace fm (kvDim d) true (t.colOrg + c) (t.rowOrg + r)
      else kvPlace fm (kvDim d) false (t.rowOrg + r) (t.colOrg + c)
    let b := spaceAddr d.space d.base
    let a := at_ 0
    let z := at_ (t.vc - 1)
    (b + a.1 / 8, (z.1 + kvBits fm + 7) / 8 - a.1 / 8) :: (if fm = 2 then [] else [(b + a.2, z.2 + 2 - a.2)])

/-- The far-side accesses of unit `k` of a read stream (R108): of a valid row of a tile, or of the elements of 64 B of
near side. RESAMPLE's boxes are data, and its first unit stands for the whole map. -/
def unitRuns (x : InStream) (k : Nat) : List (Nat × Nat) :=
  let d := x.desc
  match x.tile with
  | some t =>
    if t.vr ≤ k then []
    else
      match d.xform with
      | 5 =>
        let q := Regroup.of d
        (List.range t.vc).filterMap fun i =>
          (q.addr (spaceAddr d.space d.base) (q.first + t.rowOrg + k) (t.colOrg + i)).map fun a => (a, etypeBytes q.etype)
      | 7 => kvRowSpans d t k
      | 10 =>
        let w := Window.of d x.aux
        (List.range t.vc).filterMap fun i =>
          let c := w.coord (w.first + t.rowOrg + k) ((t.colOrg + i) / w.c)
          if w.inside c then some ((w.addr (spaceAddr d.space d.base) c ((t.colOrg + i) % w.c)).toNat, etypeBytes w.etype) else none
      | _ =>
        let w := if d.xform = 2 then 8 * rotBytes d else tileBits t
        (tileSpans t w).map fun y => ((tileRowAddr d t k).toNat + y.1, y.2)
  | none =>
    let m := min 64 (nearTotal d x.aux - 64 * k)
    match d.xform with
    | 1 =>
      let f := dqSrc d
      let eb := if dqWide d then 4 else 2
      let r := rowK f
      let lo := (64 * k / eb + r - 1) / r
      let hi := ((64 * k + m) / eb + r - 1) / r
      if isMx f then flatRuns 65 d (lo * fmtRowBytes f) ((hi - lo) * fmtRowBytes f)
      else flatRuns 65 d (64 * k / eb * elemBits f / 8) (m / eb * elemBits f / 8)
    | 2 => flatRuns 129 d (32 * k * rotBytes d) (m / 2 * rotBytes d)
    | 5 =>
      let q := Regroup.of d
      let eb := etypeBytes q.etype
      (List.range (m / eb)).filterMap fun i =>
        let e := 64 * k / eb + i
        (q.addr (spaceAddr d.space d.base) (q.first + e / q.chans) (e % q.chans)).map fun a => (a, eb)
    | 10 =>
      let w := Window.of d x.aux
      let eb := laneBytes w.etype
      let row := (w.k * eb + 63) / 64 * 64 / eb
      (List.range (m / eb)).filterMap fun i =>
        let e := 64 * k / eb + i
        let c := w.coord (w.first + e / row) (e % row / w.c)
        if e % row < w.k ∧ w.inside c then some ((w.addr (spaceAddr d.space d.base) c (e % row % w.c)).toNat, etypeBytes w.etype) else none
    | 11 =>
      let r := Resample.of d
      if k = 0 then [(spaceAddr d.space d.base, r.h * r.w * r.c * etypeBytes r.etype)] else []
    | _ => flatRuns 65 d (64 * k) (min 64 (d.bytes - 64 * k))

/-- The scratchpad a unit of a ROTARY stream reads beside its source (R137, R138): its rows' positions, and the table
entries of its pairs at them. -/
def rotSpans (c : Cell) (x : InStream) (k : Nat) : List (Nat × Nat) :=
  let d := x.desc
  let at_ := fun row => bits d.param1 14 0 * 64 + 2 * row
  let table := fun (row lo hi : Nat) =>
    let p := (rotPos c d row).1
    (List.range (min hi (bits d.param0 39 33 + 1) - lo)).flatMap fun i =>
      let t := bits d.param1 29 15 * 64 + 4096 * (lo + i)
      [(t + 8 * (p % 256), 8), (t + 8 * (256 + p / 256), 8)]
  if d.xform ≠ 2 then []
  else
    match x.tile with
    | some t =>
      if t.vr ≤ k then [] else (at_ (t.rowOrg + k), 2) :: table (t.rowOrg + k) (t.colOrg / 2) ((t.colOrg + t.vc + 1) / 2)
    | none =>
      let dim := d.rowBytes / rotBytes d
      let m := min 64 (nearTotal d x.aux - 64 * k) / 2
      let first := 32 * k
      (List.range ((first + m - 1) / dim - first / dim + 1)).flatMap fun j =>
        let row := first / dim + j
        let lo := max first (row * dim) - row * dim
        let hi := min (first + m) (row * dim + dim) - row * dim
        (at_ row, 2) :: table row (lo / 2) ((hi + 1) / 2)

/-- The first poisoned 64 B piece among accesses, as an address (R173). -/
def poisonAt (s : State) (p g space : Nat) (rs : List (Nat × Nat)) : Option Nat :=
  (rs.flatMap fun r => wordsOf r.1 r.2).findSome? fun w => if (spaceRead s p g space (64 * w) 64).2 then some (64 * w) else none

/-- The unit with a number: its bytes, and whether it reads poison, and from where. A stage other than NONE consumes
poison (R173). A unit whose request has completed poisoned is poisoned (R201). -/
def unitOf (s : State) (p g : Nat) (x : InStream) (k : Nat) : Unit_ :=
  let r := match x.tile with
    | some t => tileRow s p g x.desc t x.aux k
    | none => nearBytes s p g x.desc x.aux (64 * k) (min 64 (nearTotal x.desc x.aux - 64 * k))
  let at_ := if r.2 then
      ((poisonAt s p g x.desc.space (unitRuns x k)).orElse fun _ => poisonAt s p g 0 (rotSpans (cellOf s g) x k)).getD x.desc.base
    else 0
  ⟨k, r.1, r.2 || x.failed.contains k, at_⟩

/-! ## Start checks -/

/-- An access of `n` bytes at an address leaves the partition's range in a space (R59, R170, R186, R202). A write
stream's scratchpad range takes in the partition's cells (log 140), one cell's 2 MiB at a time. -/
def leavesRange (s : State) (p space base : Nat) (write : Bool) (a : Int) (n : Nat) : Bool :=
  if n = 0 then false
  else if a < 0 then true
  else match space with
    | 0 =>
      if write then
        decide (2097152 * ((partCells (partOf s p)).length + 1) < a.toNat + n) ||
          decide (a.toNat / 2097152 ≠ (a.toNat + n - 1) / 2097152)
      else decide (2097152 < a.toNat + n)
    | 1 => decide ((partOf s p).dies.length * 2 ^ 29 < a.toNat + n)
    | 2 => decide (farSize s p < a.toNat + n)
    | _ =>
      let w := bits base 41 36
      decide (a.toNat < w * 2 ^ 36) || (hostAddr s p w (a.toNat - w * 2 ^ 36) n).isNone

/-- An access meets a page withheld from the program (R91). -/
def meetsWithheld (s : State) (p g space : Nat) (a : Int) (n : Nat) : Bool :=
  match space with
  | 0 =>
    let cell := if a.toNat < 2097152 then g else (partCells (partOf s p)).getD (a.toNat / 2097152 - 1) g
    (pagesOf (a.toNat % 2097152) n).any fun x => scratchWithheld (cellOf s cell) (x.1 / 8192)
  | 1 => (pagesOf a.toNat n).any fun x => stratusWithheld s (stratusDie s p x.1) (x.1 % 2 ^ 29 / 8192)
  | _ => false

/-- The accesses of block `i` of a KV_QUANT chunk (R141): its 64 codes and its scale. -/
def kvChunkSpans (d : StreamDesc) (i : Nat) : List (Nat × Nat) :=
  let fm := kvFormat d
  let a := if kvIsV d then kvPlace fm (kvDim d) true (64 * bits d.param0 2 1) i
    else kvPlace fm (kvDim d) false (64 * bits d.param0 2 1 + i) 0
  let b := spaceAddr d.space d.base
  (b + a.1 / 8, 64 * kvBits fm / 8) :: (if fm = 2 then [] else [(b + a.2, 2)])

/-- The far-side accesses of a stream, as address and length: of the rows of a stream that is not
tile-bound, of the valid part of a tile, or as the stage places them. -/
def farSpans (d : StreamDesc) (t : Option TileDesc) (aux : List Byte) : List (Int × Nat) :=
  let b : Int := (spaceAddr d.space d.base : Nat)
  match d.xform with
  | 5 | 6 =>
    let q := Regroup.of d
    let pix := match t with
      | some x => (List.range x.vr).map (q.first + x.rowOrg + ·)
      | none => (List.range q.count).map (q.first + ·)
    let chans := match t with
      | some x => (List.range x.vc).map (x.colOrg + ·)
      | none => List.range q.chans
    pix.flatMap fun i => chans.filterMap fun k => (q.addr b.toNat i k).map fun a => ((a : Int), etypeBytes q.etype)
  | 7 => match t with
    | some x => (List.range x.vr).flatMap fun r => (kvRowSpans d x r).map fun y => ((y.1 : Int), y.2)
    | none => []
  | 8 => (List.range 64).flatMap fun i =>
    (kvChunkSpans d i).map fun y => ((y.1 : Int), y.2)
  | 10 =>
    let w := Window.of d aux
    let pos := match t with
      | some x => (List.range x.vr).map (w.first + x.rowOrg + ·)
      | none => (List.range w.count).map (w.first + ·)
    let idx := match t with
      | some x => (List.range x.vc).map (x.colOrg + ·)
      | none => List.range w.k
    pos.flatMap fun o => idx.filterMap fun i =>
      let x := w.coord o (i / w.c)
      if w.inside x then some (w.addr b.toNat x (i % w.c), etypeBytes w.etype) else none
  | 11 => let r := Resample.of d; [(b, r.h * r.w * r.c * etypeBytes r.etype)]
  | _ =>
    match t with
    | some x =>
      let w := if d.xform = 2 then 8 * rotBytes d else tileBits x
      (List.range x.vr).flatMap fun r => (tileSpans x w).map fun y => (tileRowAddr d x r + (y.1 : Nat), y.2)
    | none => (List.range d.rows).map fun j => (d.rowAddr j, d.rowBytes)

/-- Every far-side access stays in the partition's range. Of a stream of strides it is enough that the
lowest and the highest row do. -/
def farInRange (s : State) (p : Nat) (d : StreamDesc) (t : Option TileDesc) (aux : List Byte) (write : Bool) : Bool :=
  if t.isNone ∧ (d.xform < 5 ∨ d.xform = 9) ∧ ¬(write ∧ d.space = 0) then
    let sp := strideSpan (d.ext.drop 1) d.str
    let b : Int := (spaceAddr d.space d.base : Nat)
    !(leavesRange s p d.space d.base write (b + sp.1) d.rowBytes) && !(leavesRange s p d.space d.base write (b + sp.2) d.rowBytes)
  else (farSpans d t aux).all fun x => !(leavesRange s p d.space d.base write x.1 x.2)

/-- A reserved SPACE or XFORM, a bad extent, or a stage of the other direction (R59, R60). -/
def descInvalid (d : StreamDesc) (write tiled : Bool) : Bool :=
  decide (3 < d.space) || decide (11 < d.xform) || d.ext.any (fun e => decide (e = 0) || decide (2 ^ 24 < e)) ||
    !(xformDirs d.xform).testBit (if write then 1 else 0) ||
    (decide (d.xform = 1) && (decide (8 < dqSrc d) || (!tiled && fmtPartial (dqSrc d) d))) ||
    (decide (d.xform = 9) && (decide (8 < bits d.param0 3 0) || (!tiled && fmtPartial (bits d.param0 3 0) d)))
where
  /-- EXT0 does not hold whole elements, or for MX whole rows, of a format (R60). -/
  fmtPartial (f : Nat) (d : StreamDesc) : Bool :=
    if isMx f then decide (d.rowBytes % fmtRowBytes f ≠ 0) else decide (d.rowBytes * 8 % elemBits f ≠ 0)

/-- The format EBITS must agree with (R107), as width code and MX; none where the stage sets its own rule. R107 names
the width alone for NONE writes, WINDOW, S2C and C2S; that they carry no scales, and so refuse MX = 1, is the
model's choice (log 143). -/
def ebitsRule (d : StreamDesc) (write : Bool) : Option (Nat × Bool) :=
  match d.xform with
  | 0 => if write then some (0, false) else none
  | 1 => some (fmtEbits (dqSrc d))
  | 9 => some (fmtEbits (bits d.param0 3 0))
  | 5 | 6 => some (widthCode (8 * etypeBytes (Regroup.of d).etype), false)
  | 10 => some (widthCode (8 * etypeBytes (bits d.param0 35 32)), false)
  | _ => none

/-- The tile descriptor's own faults (R107, R116). R116 speaks of an INPUT-role stream with BCAST ≠ 0; that an
OUTPUT-role one ends with the same code is the model's choice (log 144). -/
def tileInvalid (d : StreamDesc) (t : TileDesc) (write : Bool) : Bool :=
  let mxfp4 := t.mx && decide (t.ewidth = 4)
  decide (t.rowExt = 0) || decide (2 ^ 24 < t.rowExt) || decide (t.colExt = 0) || decide (2 ^ 24 < t.colExt) ||
    decide (t.rowExt ≤ t.rowOrg) || decide (t.colExt ≤ t.colOrg) || decide (t.rowCap < t.rowExt) || decide (t.colCap < t.colExt) ||
    decide (t.tcol = 0) || decide (t.trow = 0) || decide (t.colOrg % t.tcol ≠ 0) ||
    decide ((if t.role = 0 ∧ mxfp4 then 128 else 64) < t.trow) || decide ((if t.role = 1 ∧ mxfp4 then 128 else 64) < t.tcol) ||
    (t.mx && decide (t.tcol % 32 ≠ 0)) || decide (t.role = 3) || decide (4 < t.ewidth) ||
    decide ((t.role = 2) ≠ (write = true)) || decide (d.ext ≠ [1, 1, 1, 1, 1]) || decide (d.str ≠ [0, 0, 0, 0]) ||
    (ebitsRule d write).any (fun e => decide (e ≠ (t.ewidth, t.mx))) ||
    (decide (d.xform = 1) && dqWide d) ||
    (decide (t.bcast ≠ 0) && (decide (t.role ≠ 0) || decide (d.space = 0) || decide (d.space = 3) ||
      decide (t.bcount < 2) || decide (80 < t.bcount)))

/-- A reserved or out-of-range field of the S2C and C2S parameters (R126). -/
def regroupInvalid (q : Regroup) : Bool :=
  decide (16384 < q.chans) || decide (4 < q.etype) || decide (q.h = 0) || decide (8192 < q.h) || decide (q.w = 0) ||
    decide (8192 < q.w) || decide (q.c = 0) || decide (4096 < q.c) || decide (q.t = 0) || decide (4096 < q.t)

/-- WINDOW_INVALID of a WINDOW stream (R121, R122). -/
def windowInvalid (d : StreamDesc) (w : Window) (t : Option TileDesc) : Bool :=
  decide (d.space ≠ 0) || decide (4 < w.etype) || decide (1 < w.fill) || w.kernel.any (· = 0) ||
    w.inp.any (fun n => decide (n = 0) || decide (8192 < n)) || decide (w.c = 0) || decide (4096 < w.c) ||
    decide (w.pix < w.c * etypeBytes w.etype) ||
    (match t with
     | some x => decide (w.etype = 0) || decide (x.colExt ≠ w.k) || decide (x.role ≠ 1)
     | none => false) ||
    (let pos := match t with
      | some x => (List.range x.vr).map (w.first + x.rowOrg + ·)
      | none => (List.range w.count).map (w.first + ·)
     let taps := match t with
      | some x => (List.range x.vc).map fun i => (x.colOrg + i) / w.c
      | none => List.range (w.k / w.c)
     pos.any fun o => taps.any fun j => w.inside (w.coord o j) && !w.inSlab (w.coord o j))

/-- BOX_LIST_INVALID of a RESAMPLE stream (R129). -/
def boxListInvalid (d : StreamDesc) (tiled : Bool) : Bool :=
  let r := Resample.of d
  tiled || decide (1 < d.space) || decide (r.c = 0) || decide (4096 < r.c) || decide (4 < r.etype) || decide (1 < r.mode) ||
    decide (r.h = 0) || decide (8192 < r.h) || decide (r.w = 0) || decide (8192 < r.w)

/-- COMPRESS_STREAM_INVALID of a decode stream (R219). -/
def decodeInvalid (s : State) (p : Nat) (d : StreamDesc) (tiled : Bool) : Bool :=
  tiled || decide (d.space ≠ 2) || decide (spaceAddr 2 d.base % 256 ≠ 0) || decide (d.rowBytes % 256 ≠ 0) ||
    decide (d.param0 ≠ 0) || decide (d.param1 ≠ 0) ||
    !((List.range d.rows).all fun j =>
      let a := d.rowAddr j
      decide (0 ≤ a) && (regionAt s p a.toNat).any fun r => decide (a.toNat + d.rowBytes ≤ r.base + r.size))

/-- A stream that issues only Drizzle requests (R195). -/
def isDrizzle (d : StreamDesc) (tiled : Bool) : Bool :=
  !tiled && decide (d.space = 2) && decide (d.rowBytes ≤ 32) &&
    (List.range d.rows).all fun j => decide ((d.rowAddr j % 32).toNat + d.rowBytes ≤ 32)

/-- The bytes of a stream's near side in scratchpad (NEAR = 0). -/
def nearSpan (d : StreamDesc) (write : Bool) (aux : List Byte) : Nat :=
  if write then
    match d.xform with
    | 6 => (Regroup.of d).count * (Regroup.of d).chans * etypeBytes (Regroup.of d).etype
    | 8 => 4096 * (if bit d.param0 0 then 4 else 2)
    | 9 => 4 * fmtElems (bits d.param0 3 0) d.bytes
    | _ => d.bytes
  else nearTotal d aux

/-- A reserved field of a ROTARY stream's parameters holds a value (Tables 5.1 and 5.6, log 112). -/
def rotaryReserved (d : StreamDesc) : Bool :=
  decide (bits d.param0 47 40 ≠ 0) || decide (bits d.param0 31 0 ≠ 0) || decide (bits d.param1 63 30 ≠ 0)

/-- A reserved field of a KV stream's parameters holds a value; KV_SCALE reserves COUNT, CHUNK and SRC too (Tables 5.3
and 5.6, log 112). -/
def kvReserved (d : StreamDesc) : Bool :=
  decide (bits d.param0 63 23 ≠ 0) || decide (bits d.param0 15 8 ≠ 0) || decide (d.param1 ≠ 0) ||
    decide (kvDim d / 64 ≤ bits d.param0 2 1) ||
    (decide (d.xform = 7) && (decide (bits d.param0 22 16 ≠ 0) || decide (bits d.param0 2 0 ≠ 0)))

/-- What SSTART reads in scratchpad beside the stream descriptor: the window descriptor or the box list. -/
def auxSpan (d : StreamDesc) : Option (Nat × Nat) :=
  match d.xform with
  | 10 => some (bits d.param1 14 0 * 64, 64)
  | 11 => some ((Resample.of d).boxes * 64, 32 * (Resample.of d).nbox)
  | _ => none

/-- The scratchpad a stream addresses beside its near and far sides (R91): its descriptors, and what its stage reads
there for its units. -/
def sideSpans (c : Cell) (desc : Nat) (d : StreamDesc) (t : Option TileDesc) : List (Nat × Nat) :=
  let x : InStream := { desc := d, tile := t }
  let units := match t with
    | some y => y.vr
    | none => (d.bytes / rotBytes d * 2 + 63) / 64
  (desc * 64, 64) :: (if t.isSome then [((desc + 1) * 64, 64)] else []) ++ (auxSpan d).toList ++
    (if d.xform = 2 then (List.range units).flatMap fun k => rotSpans c x k else [])

/-- Why a stream does not start, if it does not. `budget` is the stream's reserved budget, `addr` its near
address and `desc` its descriptor's in 64 B units. Which code stands where several checks fail is the model's choice:
the spec gives no order (log 145). So is STREAM_BOUNDS for a near side that runs past the scratchpad, since R59 speaks of
accesses in SPACE (log 146). -/
def startFault (s : State) (p g desc : Nat) (d : StreamDesc) (t : Option TileDesc) (aux : List Byte)
    (write : Bool) (addr budget : Nat) : Option Code :=
  if descInvalid d write t.isSome then some .streamBounds
  else if d.xform = 11 ∧ boxListInvalid d t.isSome then some .boxListInvalid
  else if (d.xform = 3 ∨ d.xform = 4) ∧ decodeInvalid s p d t.isSome then some .compressStreamInvalid
  else if d.xform = 7 ∧ (t.all fun x => decide (x.role ≠ 0) || decide (x.ewidth ≠ 1) || x.mx) then some .kvInvalid
  else if (d.xform = 7 ∨ d.xform = 8) ∧ (kvFormat d = 3 ∨ kvReserved d) then some .kvInvalid
  else if d.xform = 8 ∧ (t.isSome ∨ d.ext ≠ [1, 1, 1, 1, 1] ∨ 63 < bits d.param0 22 16 ∨ (d.space ≠ 1 ∧ d.space ≠ 2)) then
    some .kvInvalid
  else if d.xform = 2 ∧ (rotaryReserved d ∨
      (t.any fun x => decide (x.role ≠ 1) || decide (x.tcol % 2 = 1) || decide (x.ewidth ≠ 1) || x.mx)) then some .rotaryInvalid
  else if t.any (fun x => tileInvalid d x write) then some .tileInvalid
  else if (d.xform = 5 ∨ d.xform = 6) ∧ regroupInvalid (Regroup.of d) then some .windowInvalid
  else if d.xform = 10 ∧ windowInvalid d (Window.of d aux) t then some .windowInvalid
  else if d.space = 2 ∧ (bits d.base 47 46 = 3 ∨ bits d.base 45 41 ≠ 0) then some .addressFormatInvalid
  else if d.space = 3 ∧ bits d.base 47 42 ≠ 0 then some .addressFormatInvalid
  else if budget ≠ 0 ∧ isDrizzle d t.isSome then some .drizzleBudget
  else if !farInRange s p d t aux write then some .streamBounds
  else if d.space ≤ 1 ∧ ((farSpans d t aux).any fun x => meetsWithheld s p g d.space x.1 x.2) then some .streamBounds
  else if (sideSpans (cellOf s g) desc d t).any fun x => meetsWithheld s p g 0 (x.1 : Nat) x.2 then some .streamBounds
  else if t.isNone ∧ (2097152 < addr + nearSpan d write aux ∨ meetsWithheld s p g 0 addr (nearSpan d write aux)) then
    some .streamBounds
  else none

/-! ## Starting -/

/-- The ranges SSTART reads: the stream descriptor, the tile descriptor after it, the window descriptor or box list.
DESC = 0x7FFF puts the tile descriptor past the scratchpad, of which the spec says nothing: its bytes read as those
nothing has written (log 147). -/
def startSpans (d : StreamDesc) (desc : Nat) (tiled : Bool) : List (Nat × Nat) :=
  (desc * 64, 64) :: (if tiled then [((desc + 1) * 64, 64)] else []) ++ (auxSpan d).toList

/-- What SSTART reads, and the first poisoned word among it (R173). -/
def startReads (c : Cell) (desc : Nat) (tiled : Bool) : StreamDesc × Option TileDesc × List Byte × Option Nat :=
  let d := StreamDesc.ofBytes (scratchRead c true (desc * 64) 64).1
  let t := if tiled then some (TileDesc.ofBytes (scratchRead c true ((desc + 1) * 64) 64).1) else none
  let x := match auxSpan d with
    | some y => (scratchRead c true y.1 y.2).1
    | none => []
  (d, t, x, (startSpans d desc tiled).findSome? fun y => scratchBadAt c true y.1 y.2)

/-- The checks of the words SSTART reads (R162). -/
def startChecked (s : State) (g desc : Nat) (tiled : Bool) : State :=
  let c := cellOf s g
  let d := StreamDesc.ofBytes (scratchRead c true (desc * 64) 64).1
  scratchCheck s g ((startSpans d desc tiled).flatMap fun y => scratchWords c true y.1 y.2)

/-- STATUS of every box written, and the boxes counted (R128). -/
def writeBoxes (s : State) (p g : Nat) (d : StreamDesc) (bs : List Byte) : State :=
  let r := Resample.of d
  (List.range r.nbox).foldl (fun t b =>
    let st := boxStatus r bs b
    let t1 := scratchWrite t g (r.boxes * 64 + 32 * b + 16) (leBytes 4 st) false
    if st = 1 then odInc t1 (Ad.partBoxClipped p) else if st = 2 then odInc t1 (Ad.partBoxRejected p) else t1) s

/-- The accumulator row of a draining stream (Table 2.9): bank, and first row plus r, wrapping at 63. -/
def accRow (c : Cell) (addr r : Nat) : List (BitVec 32) :=
  let bank := bits addr 14 13
  let row := (bits addr 12 7 + r) % 64
  (List.range 64).map fun n => (tget c.acc (bank * 4096 + row * 64 + n)).getD 0

/-- A stream joins its die's broadcast group (R114, R116): none when it may not. -/
def joinGroup (s : State) (g stream : Nat) (t : TileDesc) (start : InStream) : Option State :=
  let d := g / 80
  let x := (tget (dieOf s d).groups t.bcast).getD { bcount := t.bcount }
  if x.bcount ≠ t.bcount ∨ x.bcount ≤ x.members.length then none
  else
    let z : BGroup := { x with members := x.members ++ [(g, stream)], starts := x.starts ++ [start] }
    some (modDie s d fun y => { y with groups := tset y.groups t.bcast z })

/-- SSTART of a read stream that is not running (R59, R104). -/
def startIn (s0 : State) (g stream desc near addr : Nat) : State :=
  match cellOwner s0 g with
  | none => s0
  | some p =>
    let r := startReads (cellOf s0 g) desc (decide (near = 1))
    let s := startChecked s0 g desc (decide (near = 1))
    let c := cellOf s g
    match r.2.2.2 with
    | some a => cellErr s g .poisonConsumed a false
    | none =>
      let d := r.1
      let t := r.2.1
      let aux := r.2.2.1
      let budget := c.seq.budgets.getD stream 0
      match startFault s p g desc d t aux false (addr * 64) (if d.space = 2 then budget else 0) with
      | some e => cellErr s g e d.base false
      | none =>
        let x : InStream :=
          { running := true, desc := d, tile := t, matrix := decide (near = 1), addr := addr * 64,
            total := unitCount d t aux, reqTotal := requestCount d t, aux := aux,
            group := (t.filter fun y => decide (y.bcast ≠ 0)).map TileDesc.bcast }
        let s1 := setCell s g { c with ins := tset c.ins stream x }
        let s2 := if d.xform = 11 then writeBoxes s1 p g d aux else s1
        match t.filter fun y => decide (y.bcast ≠ 0) with
        | none => s2
        | some y => (joinGroup s2 g stream y x).getD (cellErr s g .tileInvalid d.base false)

/-- SSTART of a write stream that is not running. One from the accumulator drains its rows as they stand now: no MMAC
issued later can have written them before they are drained (R67, log 139). -/
def startOut (s0 : State) (g stream desc near addr : Nat) : State :=
  match cellOwner s0 g with
  | none => s0
  | some p =>
    let r := startReads (cellOf s0 g) desc (decide (near = 1))
    let s := startChecked s0 g desc (decide (near = 1))
    let c := cellOf s g
    match r.2.2.2 with
    | some a => cellErr s g .poisonConsumed a false
    | none =>
      let d := r.1
      match startFault s p g desc d r.2.1 r.2.2.1 true (addr * 64) 0 with
      | some e => cellErr s g e d.base false
      | none =>
        let groups := match r.2.1 with
          | some t => (t.trow + 1) / 2
          | none => if d.xform = 8 then 1 else (nearSpan d true [] + 511) / 512
        let rows := match r.2.1 with
          | some t => (List.range t.vr).map (accRow c addr)
          | none => []
        let x : OutStream :=
          { running := true, desc := d, tile := r.2.1, acc := decide (near = 1), addr := addr, total := groups,
            start := c.seq.cclk, rows := rows, port := ((tget c.outs stream).map OutStream.port).getD [] }
        setCell s g { c with outs := tset c.outs stream x }

/-! ## Deposits -/

/-- The member that leads a broadcast group, the one of the lowest cell, with its stream as it started (R114). -/
def groupLead (x : BGroup) : Option (Nat × Nat × InStream) :=
  (x.members.zip x.starts).foldl (fun a m =>
    match a with
    | some y => if m.1.1 < y.1 then some (m.1.1, m.1.2, m.2) else a
    | none => some (m.1.1, m.1.2, m.2)) none

/-- The stream whose far side and budget a stream's units follow: its group's leader, or itself (R114). -/
def paceOf (s : State) (g stream : Nat) (x : InStream) : InStream × Nat :=
  match x.group.bind fun k => (tget (dieOf s (g / 80)).groups k).bind groupLead with
  | some l => (l.2.2, (cellOf s l.1).seq.budgets.getD l.2.1 0)
  | none => (x, (cellOf s g).seq.budgets.getD stream 0)

/-- A stream reads the Stratus of its cell's own die, through the crossbar's scheduled slots (R166, R171). -/
def ownStratus (s : State) (p g : Nat) (x : InStream) : Bool :=
  decide (x.desc.space = 1) && decide (stratusDie s p (spaceAddr 1 x.desc.base) = g / 80)

/-- A stream's units wait for requests to be issued or granted (R72, R168). -/
def byRequest (s : State) (p g : Nat) (x : InStream) : Bool :=
  decide (x.desc.space = 2) || (ownStratus s p g x && decide (x.desc.xform ≠ 11))

/-- The miss a consumer of a stream's late data records (Tables 3.3, R115, R171). -/
def lateCause (s : State) (p g stream : Nat) (x : InStream) : MissCause :=
  let y := paceOf s g stream x
  match y.1.desc.space with
  | 0 => .operand
  | 1 =>
    if !ownStratus s p g y.1 then .crossDie
    else if x.contract && decide (y.1.desc.xform ≠ 11) then .stratus else .farBestEffort
  | 2 => if y.2 ≠ 0 then .farReserved else .farBestEffort
  | _ => .host

/-- A stream whose units have contract times (R71, R73, R115): from scratchpad but for RESAMPLE, from the own
die's Stratus, or from the far tier with a budget. -/
def contracted (s : State) (p g stream : Nat) (x : InStream) : Bool :=
  let y := paceOf s g stream x
  x.contract && decide (y.1.desc.xform ≠ 11) &&
    match y.1.desc.space with
    | 0 => true
    | 1 => ownStratus s p g y.1
    | 2 => decide (y.2 ≠ 0)
    | _ => false

/-- A stream's unit is bound for a squashed page: it is discarded (R95). -/
def unitDropped (x : InStream) (k : Nat) : Bool :=
  !x.matrix && x.dropped.any fun e => e.1 == (x.addr + 64 * k) / 8192

/-- A unit of a squashed page that had not been requested at the squash: it never is (R95). -/
def unitNever (x : InStream) (k : Nat) : Bool :=
  !x.matrix && x.dropped.any fun e => e.1 == (x.addr + 64 * k) / 8192 && decide (e.2 ≤ k)

/-- Packed delivery of a block outside the stage's family is counted, at the block's first unit (R219). -/
def familyCount (s : State) (p : Nat) (x : InStream) (k : Nat) : State :=
  if (x.desc.xform = 3 ∨ x.desc.xform = 4) ∧ k % 4 = 0 then
    match flatRuns 65 x.desc (64 * k) 64 with
    | (a, _) :: _ =>
      let base := blockBase a
      let dirty := (lineFor s p (farKey s p base / 256)).any (·.dirty)
      match regionAt s p base with
      | some r =>
        let f := (Meta.ofWord (metaWord s p (r.metaAddr base))).format
        let other := if x.desc.xform = 3 then decide (f = 3 ∨ f = 4) else decide (f = 2)
        if other ∧ ¬ dirty then odInc s (Ad.partCompressFamilyMismatch p) else s
      | none => s
    | [] => s
  else s

/-! ## What a unit's reads do at the memory-side cache -/

/-- A reserved request against its group's ceiling share of the window (R79): beyond it, an overrun. The share is
PART_RESERVED_CEILING_PCT of the 512,000 B a group carries in 1 µs. -/
def admitReserved (s : State) (p addr len : Nat) : State :=
  let g := farGroup s p addr
  let used := (tget (mdOf s (g / 4)).reserved g).getD 0
  if used + len ≤ 5120 * latched s p (Ad.partReservedCeilingPct p) then
    modMd s (g / 4) fun m => { m with reserved := tset m.reserved g (used + len) }
  else odInc s (Ad.partReservedOverrun p)

/-- The far-tier requests a unit of a read stream stands for, by the cache's rules for their hint (R186, R191,
R195); a stream with a budget draws on its groups' reserved share (R79, R220). -/
def readEffects (s : State) (p : Nat) (x : InStream) (k : Nat) (reserved : Bool) : State :=
  if x.desc.space ≠ 2 then s
  else
    (unitRuns x k).foldl (fun t r =>
      farRead (if reserved then admitReserved t p r.1 (if isPacked x.desc then 64 else r.2) else t) p r.1 r.2
        (if isDrizzle x.desc x.tile.isSome then 3 else bits x.desc.base 47 46)) s

/-- The scratchpad and Stratus a unit is read from pass their checks (R162, R172), and the scratchpad's words take their
ports: STREAM_IN's and MATRIX's before others (R156), a WINDOW row's last CCLK of them (R123), RESAMPLE's none of the
slot-driven masters' (R129). -/
def readChecks (s : State) (p g : Nat) (x : InStream) (k : Nat) : State :=
  let c := cellOf s g
  let rs := unitRuns x k
  let side := (rotSpans c x k).flatMap fun y => scratchWords c true y.1 y.2
  match x.desc.space with
  | 0 =>
    let ws := (rs.flatMap fun y => scratchWords c true y.1 y.2).eraseDups
    let s1 := scratchCheck s g (ws ++ side)
    if x.desc.xform = 11 ∨ ws = [] then s1
    else bankAsk s1 p g (if x.matrix then 1 else 0) (if x.desc.xform = 10 then ws.drop ((ws.length - 1) / 8 * 8) else ws)
  | 1 => scratchCheck (rs.foldl (fun t y => stratusSeen t p (some g) y.1 y.2) s) g side
  | _ => scratchCheck s g side

/-- A unit put into its near side: a row for the matrix array, or 64 B of scratchpad through a bank port (R71, R73). A
unit of a squashed page is discarded, its bytes counted (R95, R97); one whose near side meets the destination of a move
waits (R232). -/
def putUnit (s : State) (p g stream : Nat) (x : InStream) (u : Unit_) (free : Bool) : State :=
  let a := x.addr + 64 * u.index
  let y := { x with deposited := x.deposited + 1, landing := x.landing.drop 1 }
  let done := fun (t : State) (z : InStream) => modCell t g fun c => { c with ins := tset c.ins stream z }
  if u.poison ∧ x.desc.xform ≠ 0 then cellErr s g .poisonConsumed u.addr false
  else if x.matrix then done s { y with fifo := x.fifo ++ [u] }
  else if unitDropped x u.index then
    odAdd (done s y) (Ad.partSquashBytes p) u.bytes.length
  else if movingInto s p g 0 a u.bytes.length then s
  else
    let w := scratchPhys (cellOf s g) true a / 64
    if free && !portFree (cellOf s g) w then countLost s p 4 1
    else
      let s1 := if free then
          (if (cellOf s g).seq.status = .running then
            modCell s g fun c => { c with scratch := { c.scratch with asked := c.scratch.asked ++ [(w % 16, 4)] } } else s)
        else bankAsk s p g 0 [w]
      spaceWrite (done (familyCount s1 p x u.index) y) p g 0 0 a u.bytes u.poison

/-- The requests of a stream taken as made up to those of unit `k`, which is never requested (R95). -/
def skipRequests (x : InStream) (k : Nat) : InStream := { x with requested := max x.requested (needReqs x (k + 1)) }

/-- The next unit of a read stream deposited, where it has one due: `free` for data without contract time
(R71 to R73). A unit read from a VACATED range ends the job (R235). -/
def depositNext (s : State) (g stream : Nat) (free : Bool) : State :=
  match cellOwner s g, tget (cellOf s g).ins stream with
  | some p, some x =>
    if !x.running || decide (x.total ≤ x.deposited) then s
    else if contracted s p g stream x = free then s
    else
      match x.landing with
      | u :: _ => putUnit s p g stream x u free
      | [] =>
        let k := x.deposited
        if x.group.isSome then s
        else if unitNever x k then putUnit s p g stream (skipRequests x k) { index := k, bytes := [], poison := false } free
        else if byRequest s p g x && decide (x.requested < needReqs x (k + 1)) then s
        else
          match (unitRuns x k).findSome? fun r => staleAt s p g x.desc.space r.1 r.2 with
          | some t => t
          | none =>
            if (unitRuns x k).any fun r => movingInto s p g x.desc.space r.1 r.2 then s
            else
              let s1 := readChecks (readEffects s p x k (contracted s p g stream x)) p g x k
              putUnit s1 p g stream x (unitOf s p g x k) free
  | _, _ => s

/-! ## Draining a write stream -/

/-- A conversion's multiplier exponent and overflow mode at a slot, from the die's copy (R241). -/
def scaleOf (s : State) (p slot : Nat) : Int × Bool :=
  let x := (tget (partOf s p).scaleCopy slot).getD (0, 0)
  (x.1, decide (x.2 = 1))

/-- Stochastic rounding is in force for a partition (R55). -/
def srAllowed (s : State) (p : Nat) : Bool := latched s p (Ad.partSrForceRne p) = 0

/-- A CONVERT stage's conversion of values, each with its validity and draw: element codes, scale bytes and
saturations (R57, R60, R112, R113). Invalid values of an MX block take no part. -/
def convertGroup (s : State) (p : Nat) (d : StreamDesc) (vs : List (Val × Bool × BitVec 32)) : List Nat × List Nat × Nat :=
  let f := bits d.param0 3 0
  let sc := scaleOf s p (bits d.param0 27 16)
  let sr := bit d.param0 4 && srAllowed s p
  let rs := vs.map fun v => (v.1.shift sc.1, v.2.1, if sr then Rounding.stochastic (v.2.2.toNat / 65536) else .nearest)
  if isMx f then
    let m := mxFmt f
    let bs := (List.range ((rs.length + 31) / 32)).map fun j => convertBlock m.1 m.2 ((rs.drop (32 * j)).take 32)
    (bs.flatMap (·.2.1), bs.map (·.1), (bs.map (·.2.2)).foldl (· + ·) 0)
  else
    let cs := rs.map fun r => (convElem f sc.2 r.2.2 r.1, r.2.1)
    (cs.map (·.1.1), [], (cs.filter fun c => c.1.2 && c.2).length)

/-- A conversion's fold: into a speculative entry where its destination lies in an OPEN shadow of the cell
(R96), else into a regular one (R66). A group only part of whose destination lies in one folds whole by its first
address, which is the model's choice: R96 does not divide a group (log 148). -/
def foldAt (s : State) (p g : Nat) (d : StreamDesc) (a : Nat) (e : Amax) : State :=
  let page := if d.space = 0 then a / 8192 else a % 2 ^ 29 / 8192
  let mine := (decide (d.space = 0) && decide (a < 2097152)) || (decide (d.space = 1) && decide (stratusDie s p a = g / 80))
  match if d.space ≤ 1 ∧ mine then openShadow (cellOf s g) d.space page else none with
  | some (_, x) => (amaxSpec s g x.pred e).getD (cellErr s g .specAmaxFull a false)
  | none => amaxFold s g e true

/-- A range cut at 64 B units. -/
def unitCuts (a n : Nat) : List (Nat × Nat) :=
  (wordsOf a n).map fun w => (max a (64 * w), min (a + n) (64 * w + 64) - max a (64 * w))

/-- A write stream's bytes handed to the cell's Stratus port, unit by unit, to be written when the die grants them
(R166 to R169). -/
def portWrite (s : State) (g stream a : Nat) (bs : List Byte) (poison : Bool) : State :=
  modCell s g fun c =>
    match tget c.outs stream with
    | some x =>
      let ws := (unitCuts a bs.length).map fun y => (⟨y.1, slice bs (y.1 - a) y.2, poison⟩ : PortWrite)
      { c with outs := tset c.outs stream { x with port := x.port ++ ws } }
    | none => c

/-- The port across the fabric a cell's write goes to, if it leaves its die (R20, R101, R171). -/
def writePort (s : State) (p g space a : Nat) : Option Nat :=
  match space with
  | 0 =>
    let d := (if a < 2097152 then g else (partCells (partOf s p)).getD (a / 2097152 - 1) g) / 80
    if d = g / 80 then none else some d
  | 1 => if stratusDie s p a = g / 80 then none else some (stratusDie s p a)
  | 2 => some (16 + keyMd (farKey s p a))
  | _ => some 24

/-- A cell's write to the Stratus of another die: unscheduled there, it waits for its grant (R171). -/
def crossWrite (s : State) (p g a : Nat) (bs : List Byte) (poison : Bool) : State :=
  (unitCuts a bs.length).foldl (fun t y =>
    let w : StratusWait := ⟨p, some g, y.1 % 2 ^ 29, some (slice bs (y.1 - a) y.2, poison)⟩
    modDie t (stratusDie t p y.1) fun d => { d with waiting := d.waiting ++ [w] }) s

/-- A write stream's write of bytes at an address. One to a page squashed is discarded and its bytes counted (R95, R97);
one to the own die's Stratus takes the cell's port, one to another die's is unscheduled there, and one to scratchpad
takes a bank port of its cell (R101, R156). What leaves the die takes room in its destination's FIFO (R30). A Drizzle
stream's writes carry hint 3, the Drizzle path (R195). -/
def outWrite (s : State) (p g stream : Nat) (x : OutStream) (a : Nat) (bs : List Byte) (poison : Bool) : State :=
  let page := if x.desc.space = 0 then a / 8192 else a % 2 ^ 29 / 8192
  if x.dropped.contains (x.desc.space, page) then odAdd s (Ad.partSquashBytes p) bs.length
  else
    let s0 := match writePort s p g x.desc.space a with
      | some d => fabricPut s { src := g / 80, dst := d, cls := Traffic.data.cls, bytes := fabricBytes bs.length }
      | none => s
    let base := if isDrizzle x.desc x.tile.isSome then 3 * 2 ^ 46 + x.desc.base % 2 ^ 46 else x.desc.base
    if x.desc.space = 1 ∧ moveOver s0 p 1 a bs.length = none then
      (if stratusDie s0 p a = g / 80 then portWrite s0 g stream a bs poison else crossWrite s0 p g a bs poison)
    else if x.desc.space = 0 then
      let k := if a < 2097152 then g else (partCells (partOf s p)).getD (a / 2097152 - 1) g
      spaceWrite (bankAsk s0 p k 3 ((scratchWords (cellOf s0 k) (k == g) (a % 2097152) bs.length))) p g 0 base a bs poison
    else spaceWrite s0 p g x.desc.space base a bs poison

/-- The writes of one tile row: address and bytes of its valid elements and scales (R108, R112). -/
def rowWrites (d : StreamDesc) (t : TileDesc) (r w : Nat) (codes scales : List Nat) (mx : Bool) : List (Nat × List Byte) :=
  let a := (tileRowAddr d t r).toNat
  (a, leBytes ((t.vc * w + 7) / 8) (packBits w (codes.take t.vc))) ::
    (if mx then [(a + t.tcol * w / 8, (scales.take ((t.vc + 31) / 32)).map (BitVec.ofNat 8))] else [])

/-- Two accumulator rows drained (R109, R112, R113): lanes 0–63 carry the lower, 64–127 the upper. -/
def drainAcc (s : State) (p g stream : Nat) (x : OutStream) (t : TileDesc) (draws : List (BitVec 32)) : State :=
  let row := fun r => x.rows.getD r []
  let rs := [2 * x.drained, 2 * x.drained + 1].filter fun r => decide (r < t.vr)
  match x.desc.xform with
  | 9 =>
    let f := bits x.desc.param0 3 0
    let rows := rs.map fun r =>
      let h := r % 2
      (r, (row r).zipIdx.map fun v =>
        (decodeVal fp32 v.1.toNat, decide (v.2 < t.vc), draws.getD (64 * h + v.2) 0))
    let outs := rows.map fun y => (y.1, convertGroup s p x.desc y.2)
    let vals := rows.flatMap fun y => (y.2.filter (·.2.1)).map (·.1)
    let sat := (outs.map (·.2.2.2)).foldl (· + ·) 0
    let s1 := match rs with
      | [] => s
      | r :: _ => foldAt s p g x.desc (tileRowAddr x.desc t r).toNat (amaxOf (bits x.desc.param0 27 16) sat vals)
    (outs.flatMap fun o => rowWrites x.desc t o.1 (elemBits f) o.2.1 o.2.2.1 (isMx f)).foldl
      (fun u w => outWrite u p g stream x w.1 w.2 false) s1
  | 6 =>
    let q := Regroup.of x.desc
    let eb := etypeBytes q.etype
    let ws := rs.flatMap fun r => ((row r).zipIdx.take t.vc).filterMap fun v =>
      (q.addr (spaceAddr x.desc.space x.desc.base) (q.first + t.rowOrg + r) (t.colOrg + v.2)).map fun a =>
        (a, leBytes eb (if q.etype = 0 then v.1.toNat else Config.c2sNarrow q.etype v.1.toNat))
    ws.foldl (fun u w => outWrite u p g stream x w.1 w.2 false) s
  | _ =>
    (rs.flatMap fun r => rowWrites x.desc t r 32 ((row r).map (·.toNat)) [] false).foldl
      (fun u w => outWrite u p g stream x w.1 w.2 false) s

/-- Bytes written along a stream's flattened far side. -/
def flatWrite (s : State) (p g stream : Nat) (x : OutStream) (off : Nat) (bs : List Byte) (poison : Bool) : State :=
  ((flatRuns (bs.length + 1) x.desc off bs.length).foldl (fun acc r =>
    (outWrite acc.1 p g stream x r.1 (acc.2.take r.2) poison, acc.2.drop r.2)) (s, bs)).1

/-- KV_QUANT's chunk quantised and written (R141, R142). -/
def drainKv (s : State) (p g stream : Nat) (x : OutStream) (near : List Byte) : State :=
  let d := x.desc
  let eb := if bit d.param0 0 then 4 else 2
  let valid := bits d.param0 22 16 + 1
  let chunk := bits d.param0 2 1
  let fm := kvFormat d
  let w := kvBits fm
  let dim := kvDim d
  let val := fun tok k => if tok < valid then some (decodeVal (if eb = 4 then fp32 else bf16) (fieldLE near (eb * (64 * tok + k)) eb)) else none
  let base := spaceAddr d.space d.base
  let v := kvIsV d
  let blocks := (List.range 64).map fun i =>
    if v then (kvPlace fm dim true (64 * chunk) i, kvQuant fm ((List.range 64).map fun k => val i k))
    else (kvPlace fm dim false (64 * chunk + i) 0, kvQuant fm ((List.range 64).map fun k => val k i))
  let s1 := odAdd s (Ad.partKvNanBlocks p) (blocks.filter (·.2.2.2)).length
  blocks.foldl (fun t b =>
    let t1 := outWrite t p g stream x (base + b.1.1 / 8) (leBytes (64 * w / 8) (packBits w b.2.2.1)) false
    if fm = 2 then t1 else outWrite t1 p g stream x (base + b.1.2) (leBytes 2 b.2.1) false) s1

/-- The near-side bytes group `k` of a write stream drains: 512 B, or KV_QUANT's whole chunk. -/
def nearGroup (x : OutStream) : Nat × Nat :=
  let span := nearSpan x.desc true []
  if x.desc.xform = 8 then (x.addr * 64, span) else (x.addr * 64 + 512 * x.drained, min 512 (span - 512 * x.drained))

/-- A CONVERT group's first byte in the flattened far side of a stream with NEAR = 0, and its length. -/
def convertSpan (d : StreamDesc) (k n : Nat) : Nat × Nat :=
  let f := bits d.param0 3 0
  if isMx f then (128 * k / rowK f * fmtRowBytes f, n / 4 / rowK f * fmtRowBytes f)
  else (128 * k * elemBits f / 8, n / 4 * elemBits f / 8)

/-- 512 B of near side drained from scratchpad, or KV_QUANT's whole chunk. A copy's words carry their own poison
(R173). -/
def drainNear (s0 : State) (p g stream : Nat) (x : OutStream) (draws : List (BitVec 32)) : State :=
  let d := x.desc
  let off := if d.xform = 8 then 0 else 512 * x.drained
  let near := nearGroup x
  let n := near.2
  let c := cellOf s0 g
  let words := scratchWords c true near.1 n
  let src := scratchRead c true near.1 n
  let s := bankAsk (scratchCheck s0 g words) p g 3 words
  match if d.xform = 0 then none else scratchBadAt c true near.1 n with
  | some a => cellErr s g .poisonConsumed a false
  | none =>
    match d.xform with
    | 9 =>
      let f := bits d.param0 3 0
      let vals := (List.range (n / 4)).map fun i => (decodeVal fp32 (fieldLE src.1 (4 * i) 4), true, draws.getD i 0)
      let o := convertGroup s p d vals
      let e := amaxOf (bits d.param0 27 16) o.2.2 (vals.map (·.1))
      let k := rowK f
      let rows := (List.range ((vals.length + k - 1) / k)).flatMap fun j =>
        layoutRow (elemBits f) k ((o.1.drop (k * j)).take k) ((o.2.1.drop (k / 32 * j)).take (k / 32)) (isMx f)
      let bs := if isMx f then rows else leBytes (vals.length * elemBits f / 8) (packBits (elemBits f) o.1)
      let at_ := (convertSpan d x.drained n).1
      let first := (flatRuns 2 d at_ 1).headD (0, 0)
      flatWrite (foldAt s p g d first.1 e) p g stream x at_ bs false
    | 8 => drainKv s p g stream x src.1
    | 6 =>
      let q := Regroup.of d
      let eb := etypeBytes q.etype
      let ws := (List.range (n / eb)).filterMap fun i =>
        let e := off / eb + i
        (q.addr (spaceAddr d.space d.base) (q.first + e / q.chans) (e % q.chans)).map fun a => (a, slice src.1 (eb * i) eb)
      ws.foldl (fun t w => outWrite t p g stream x w.1 w.2 false) s
    | _ =>
      (unitCuts near.1 n).foldl (fun t y =>
        flatWrite t p g stream x (off + (y.1 - near.1)) (slice src.1 (y.1 - near.1) y.2) (scratchBadAt c true y.1 y.2).isSome) s

/-- The far-side ranges a write stream's next group writes. -/
def groupRuns (x : OutStream) : List (Nat × Nat) :=
  let d := x.desc
  match x.tile with
  | some t =>
    let rs := [2 * x.drained, 2 * x.drained + 1].filter fun r => decide (r < t.vr)
    if d.xform = 6 then
      let q := Regroup.of d
      rs.flatMap fun r => (List.range t.vc).filterMap fun i =>
        (q.addr (spaceAddr d.space d.base) (q.first + t.rowOrg + r) (t.colOrg + i)).map fun a => (a, etypeBytes q.etype)
    else rs.flatMap fun r => (tileSpans t (tileBits t)).map fun y => ((tileRowAddr d t r).toNat + y.1, y.2)
  | none =>
    let n := (nearGroup x).2
    match d.xform with
    | 6 =>
      let q := Regroup.of d
      let eb := etypeBytes q.etype
      (List.range (n / eb)).filterMap fun i =>
        let e := 512 * x.drained / eb + i
        (q.addr (spaceAddr d.space d.base) (q.first + e / q.chans) (e % q.chans)).map fun a => (a, eb)
    | 8 => (List.range 64).flatMap fun i => kvChunkSpans d i
    | 9 => let y := convertSpan d x.drained n; flatRuns (y.2 + 1) d y.1 y.2
    | _ => flatRuns (n + 1) d (512 * x.drained) n

/-- The next group of a write stream has credit in the FIFO of every port it goes to (R30, R38). -/
def groupCredit (s : State) (p g : Nat) (x : OutStream) : Bool :=
  let ps := (groupRuns x).filterMap fun r => (writePort s p g x.desc.space r.1).map fun d => (d, fabricBytes r.2)
  ps.all fun y => fabricFree s.fabric (g / 80) y.1 Traffic.data.cls ((ps.filter fun z => z.1 == y.1).foldl (fun n z => n + z.2) 0)

/-- A write stream's next group waits: for credit; for a move whose destination its writes or its near side meet
(R232); or for cache maintenance (R194). -/
def drainWaits (s : State) (p g : Nat) (x : OutStream) : Bool :=
  !groupCredit s p g x || (groupRuns x).any (fun y => movingInto s p g x.desc.space y.1 y.2) ||
    (x.tile.isNone && movingInto s p g 0 (nearGroup x).1 (nearGroup x).2)

/-- One group of a write stream drained with the CCLK's draws; the stream ends with its last group
(Table 4.2). A near side in a VACATED range ends the job (R235). -/
def drainOne (s : State) (g stream : Nat) (draws : List (BitVec 32)) : State :=
  match cellOwner s g, tget (cellOf s g).outs stream with
  | some p, some x =>
    if !x.running || drainWaits s p g x then s
    else
      match if x.tile.isNone then staleAt s p g 0 (nearGroup x).1 (nearGroup x).2 else none with
      | some t => t
      | none =>
        let n := x.drained + 1
        let s1 := modCell s g fun c =>
          { c with outs := tset c.outs stream { x with drained := n, running := decide (n < x.total) } }
        match x.tile with
        | some t => drainAcc s1 p g stream x t draws
        | none => drainNear s1 p g stream x draws
  | _, _ => s

/-- Both write streams drained by one group. -/
def drainAll (s : State) (g : Nat) (draws : List (BitVec 32)) : State :=
  drainOne (drainOne s g 0 draws) g 1 draws

/-- A write stream drained to its end with the standing draws. -/
def drainRest : Nat → State → Nat → Nat → List (BitVec 32) → State
  | 0, s, _, _, _ => s
  | n + 1, s, g, stream, draws =>
    if ((tget (cellOf s g).outs stream).any (·.running)) then drainRest n (drainOne s g stream draws) g stream draws else s

/-- The draws of a cell's lanes in their current state (R62). -/
def drawsOf (c : Cell) : List (BitVec 32) := (List.range lanes).map fun l => ((tget c.gens l).getD {}).output

/-- Every write stream of a cell drained to its end. -/
def drainOut (s : State) (g : Nat) : State :=
  let draws := drawsOf (cellOf s g)
  let n := fun (t : State) k => ((tget (cellOf t g).outs k).map OutStream.total).getD 0
  let s1 := drainRest (n s 0) s g 0 draws
  drainRest (n s1 1) s1 g 1 draws

/-! ## Ends -/

/-- A member of a broadcast group ends; the group dissolves with its last (R114). -/
def leaveGroup (s : State) (g : Nat) (grp : Nat) : State :=
  modDie s (g / 80) fun d =>
    match tget d.groups grp with
    | none => d
    | some x =>
      if x.bcount ≤ x.ended + 1 then { d with groups := tdel d.groups grp }
      else { d with groups := tset d.groups grp { x with ended := x.ended + 1 } }

/-- A read stream ends: at the end of its extents, or at SSTOP. -/
def endIn (s : State) (g stream : Nat) : State :=
  match tget (cellOf s g).ins stream with
  | none => s
  | some x =>
    let s1 := modCell s g fun c =>
      { c with ins := tset c.ins stream { x with running := false, landing := [], total := x.deposited } }
    match x.group with
    | some k => leaveGroup s1 g k
    | none => s1

end Sys2Proof.Machine
end

