-- ==== Sys2Proof/Machine/Issue.lean ====
section
/-!
DEFINITION. The issue of one bundle by a cell (R38 to R42, R62, R87, R89, R95, R157 to R160): what makes a
bundle illegal, what holds it, and what its slots do in the CCLK it issues.
-/

namespace Sys2Proof.Machine

/-! ## Illegal bundles (R41) -/

/-- The vector opcodes of Table 2.10. -/
def vecOps : List Nat :=
  [1, 2, 3, 4, 5, 6, 8, 9, 10, 11, 12, 13, 14, 15, 16, 17, 18, 19, 0x18, 0x19,
   0x20, 0x21, 0x22, 0x23, 0x24, 0x25, 0x30, 0x31, 0x38, 0x39, 0x40, 0x41]

/-- The floating-point operations, which refuse DT INT32 (R486). -/
def fpVecOp (op : Nat) : Bool :=
  (decide (1 ≤ op) && decide (op ≤ 6)) || op == 0x18 || op == 0x19 || (decide (0x20 ≤ op) && decide (op ≤ 0x25))

/-- The vector slot is illegal. -/
def vecIllegal (v : VecSlot) : Bool :=
  if v = ⟨0, 0, 0, 0, 0, 0, 0, 0, 0, 0⟩ then false
  else
    !vecOps.contains v.op || decide (2 < v.dt) || (fpVecOp v.op && decide (v.dt = 2)) ||
      decide (1 < v.rnd) ||
      (v.op == 0x30 && !([0, 1, 2, 8].contains (v.imm % 16))) ||
      (v.op == 0x31 && !([3, 4, 5, 6, 7].contains (v.imm % 16))) ||
      ((v.op == 0x10 || v.op == 0x11) && decide (v.dst % 8 = 0))

/-- The weight buffer MMACs use. -/
def activeBuf (c : Cell) : WBuf := if c.wactive then c.wbuf1 else c.wbuf0

/-- The matrix slot is illegal against the buffer it uses (R41, R48). -/
def matIllegal (c : Cell) (m : MatSlot) : Bool :=
  decide (4 < m.op) || decide (8 < m.fmt) ||
    ((m.op == 3 || m.op == 4) && (activeBuf c).fmt.any fun w => !paired m.fmt w)

/-- A bundle raises ILLEGAL_BUNDLE. -/
def bundleIllegal (c : Cell) (b : Bundle) : Bool :=
  decide (7 < b.sync.op) || (b.sync.op == 3 && decide (1 < b.sync.mode)) || vecIllegal b.vec || matIllegal c b.mat ||
    decide (2 < b.sin.op) || decide (2 < b.sout.op) || decide (1 < b.sout.near)

/-! ## What the bundle needs of streams -/

/-- The format a matrix operation names is wrong for a stream's stage (R107, Table 5.6). -/
def consumerFault (x : InStream) (t : TileDesc) (m : MatSlot) : Option Code :=
  if (m.op = 1 ∧ t.role ≠ 0) ∨ (m.op ≠ 1 ∧ t.role ≠ 1) then some .tileInvalid
  else if x.desc.xform = 2 ∧ m.fmt ≠ 0 then some .rotaryInvalid
  else if x.desc.xform = 7 ∧ m.fmt ≠ 0 then some .kvInvalid
  else if !deliversFmt x.desc t m.fmt then some .tileInvalid
  else if m.op = 1 ∧ x.total - x.consumed < t.trow then some .tileInvalid
  else if m.op ≠ 1 ∧ x.total ≤ x.consumed then some .tileInvalid
  else none

/-- The matrix slot's checks at issue (R107, R111). -/
def matFault (c : Cell) (m : MatSlot) : Option Code :=
  if m.op = 1 ∨ m.op = 3 ∨ m.op = 4 then
    match tget c.ins m.rs with
    | some x => match x.tile with
      | some t => consumerFault x t m
      | none => none
    | none => none
  else none

/-! ## Latencies and issue intervals (R38, R67) -/

/-- The resources a bundle's results and units occupy, by number: vector registers from 0, masks from 64, the
special-function unit, the matrix array, accumulator rows from 128. -/
def resMask (n : Nat) : Nat := 64 + n

/-- The special-function unit. -/
def resSfu : Nat := 76

/-- The matrix array's issue. -/
def resMatrix : Nat := 77

/-- An accumulator row. -/
def resAcc (bank row : Nat) : Nat := 128 + bank % 4 * 64 + row % 64

/-- The registers and masks a vector operation reads (R486). -/
def vecReads (v : VecSlot) : List Nat :=
  let m := if v.mask = 0 then [] else [resMask v.mask]
  if v.op = 0 then []
  else if v.op = 4 then m ++ [v.sa, v.sb, v.sc]
  else if v.op = 0x12 then m ++ [v.sa, v.sb] ++ (if v.sc % 8 = 0 then [] else [resMask (v.sc % 8)])
  else if v.op ≤ 0x11 then m ++ [v.sa, v.sb]
  else if v.op = 0x13 ∨ v.op = 0x38 ∨ v.op = 0x39 ∨ v.op = 0x40 then m
  else m ++ [v.sa]

/-- A vector operation's latency (Table 2.10). -/
def vecLatency (op : Nat) : Nat :=
  if op ≤ 6 then 4
  else if op ≤ 0x13 then 2
  else if op ≤ 0x19 then 10
  else if op ≤ 0x25 then 12
  else match op with
    | 0x30 => 4
    | 0x31 => 6
    | 0x38 => 1
    | 0x39 => 2
    | 0x40 => 6
    | _ => 3

/-- The register or mask a vector operation writes. -/
def vecWrites (v : VecSlot) : Option Nat :=
  if v.op = 0 ∨ v.op = 0x41 then none
  else if v.op = 0x10 ∨ v.op = 0x11 then some (resMask (v.dst % 8))
  else some v.dst

/-- A vector operation of the special-function unit. -/
def usesSfu (op : Nat) : Bool := decide (0x20 ≤ op) && decide (op ≤ 0x25)

/-- The CCLK from which a resource may be used. -/
def readyAt (c : Cell) (r : Nat) : Nat := (tget c.seq.ready r).getD 0

/-- The CCLK from which no result a bundle reads is due and none it overwrites would arrive after its own (R38). A write
stream from the accumulator reads the valid rows of its tile two to a CCLK (R112). -/
def operandAt (c : Cell) (b : Bundle) : Nat :=
  let waw := match vecWrites b.vec with
    | some r => readyAt c r - vecLatency b.vec.op
    | none => 0
  let rows := if b.sout.op = 1 ∧ b.sout.near = 1 then
      let a := b.sout.addr
      let vr := (startReads c b.sout.desc true).2.1.elim 0 TileDesc.vr
      (List.range vr).map fun r => readyAt c (resAcc (bits a 14 13) (bits a 12 7 + r)) - r / 2
    else []
  ((vecReads b.vec).map (readyAt c) ++ rows).foldl max waw

/-- The CCLK from which the units a bundle uses are past their issue intervals (Table 2.10). -/
def unitAt (c : Cell) (b : Bundle) : Nat :=
  max (if usesSfu b.vec.op then readyAt c resSfu else 0) (if b.mat.op = 3 ∨ b.mat.op = 4 then readyAt c resMatrix else 0)

/-- The accumulator row an MMAC writes in a repetition (Table 2.5). -/
def macRowOf (m : MatSlot) (rep : Nat) : Nat := if m.rowinc then (m.row + rep) % 64 else m.row

/-- What a bundle that issues in the cell's CCLK leaves due: its results, and its units' next use. -/
def noteIssue (c : Cell) (b : Bundle) : Cell :=
  let n := c.seq.cclk
  let kept := c.seq.ready.filter fun e => decide (n + 1 < e.2)
  let t1 := match vecWrites b.vec with
    | some r => if vecLatency b.vec.op ≤ 1 then kept else tset kept r (n + vecLatency b.vec.op)
    | none => kept
  let t2 := if usesSfu b.vec.op then tset t1 resSfu (n + 8) else t1
  let t3 := if b.mat.op = 3 ∨ b.mat.op = 4 then
      let t := tset t2 (resAcc b.mat.bank (macRowOf b.mat c.seq.rep)) (n + 72)
      if b.mat.fmt = 0 then tset t resMatrix (n + 2) else t
    else t2
  { c with seq := { c.seq with ready := t3 } }

/-- A running CONVERT stream of the cell, or the bundle's conversion, names a slot whose merge is due (R38, R66). -/
def mergeDue (c : Cell) (b : Bundle) : Bool :=
  ((b.vec.op == 0x30 || b.vec.op == 0x31) && amaxBusy c b.vec.slot) ||
    c.outs.any fun e => e.2.running && decide (e.2.desc.xform = 9) && amaxBusy c (bits e.2.desc.param0 27 16)

/-- What holds a bundle in this state (R38); none when it can issue. An MLOAD, MMAC or MMACZ whose RS names a stream never
started, or one with NEAR = 0, holds issue with cause OPERAND: the spec gives no outcome for it (log 149). So does a VLD
from the destination of a move that is not complete; a VST to one waits as a write held (log 150). -/
def blockedBy (s : State) (p g : Nat) (b : Bundle) : Option MissCause :=
  let c := cellOf s g
  if c.scratch.losers.any (fun r => decide (r.master < 4)) then some .bank
  else if writeHeld s p g then some .writeBackpressure
  else if c.outs.any (fun e => e.2.running && !groupCredit s p g e.2) then some .writeBackpressure
  else if mergeDue c b then some .amax
  else if b.sin.op = 1 ∧ (tget c.ins b.sin.stream).any (·.running) then some .unit
  else if b.sout.op = 1 ∧ (tget c.outs b.sout.stream).any (·.running) then some .unit
  else if b.mat.op = 1 ∧ c.wload.isSome then some .unit
  else if c.seq.cclk < unitAt c b then some .unit
  else if c.seq.cclk < operandAt c b then some .operand
  else if b.vec.op = 0x40 ∧ movingInto s p g 0 (b.vec.imm * 512) 512 then some .operand
  else if b.vec.op = 0x41 ∧ movingInto s p g 0 (b.vec.imm * 512) 512 then some .writeBackpressure
  else if b.mat.op = 2 then
    match c.wload with
    | none => none
    | some (_, rs) =>
      match tget c.ins rs with
      | some x => if x.fifo.length < x.tile.elim 0 TileDesc.trow then some (lateCause s p g rs x) else some .operand
      | none => some .operand
  else if b.mat.op = 1 ∨ b.mat.op = 3 ∨ b.mat.op = 4 then
    match tget c.ins b.mat.rs with
    | none => some .operand
    | some x =>
      if !x.matrix then some .operand
      else if x.fifo = [] then some (lateCause s p g b.mat.rs x)
      else none
  else none

/-! ## Bank arbitration (R157 to R160) -/

/-- Requests in the order of Table 6.2, and ascending address within a master. -/
def bankOrder (rs : List BankReq) : List BankReq :=
  rs.mergeSort fun a b => decide (a.master < b.master) || (a.master == b.master && decide (a.addr ≤ b.addr))

/-- The requests granted and those that lose in a CCLK whose ports are taken as given: at most two of a bank, taken in
order; a slot-driven master never waits for CONTROL or SCRUB (R157, R158). -/
def arbitrate (taken : List (Nat × Nat)) : List BankReq → List BankReq × List BankReq
  | [] => ([], [])
  | r :: t =>
    let b := r.addr / 64 % 16
    if (taken.filter fun x => x.1 == b && (decide (x.2 < 4) || decide (4 ≤ r.master))).length < 2 then
      let x := arbitrate (taken ++ [(b, r.master)]) t
      (r :: x.1, x.2)
    else
      let x := arbitrate taken t
      (x.1, r :: x.2)

/-- The check of what a granted write leaves wholly or partly unwritten of its word (R155). -/
def bankMerge (s : State) (g : Nat) (r : BankReq) : State :=
  match r.write with
  | none => s
  | some (be, _) =>
    let hit := (cellOf s g).scratch.upsets.filter fun u => u.word == r.addr / 64
    if hit = [] then s
    else
      let covered := fun (u : Upset) => (List.range 4).all fun i => be.getLsbD (4 * u.group + i)
      keepUpsets ((hit.filter fun u => !covered u).foldl (fun t u => scratchFound t g u) s) g fun u => u.word != r.addr / 64

/-- A granted write: its enabled bytes (R155); a write of all 64 takes the write's poison, one of some keeps its word's
beside it (R173). -/
def bankWrite (c : Cell) (r : BankReq) : Cell :=
  match r.write with
  | none => c
  | some (be, data) =>
    let a := r.addr / 64 * 64
    let mem := (List.range 64).foldl (fun m i => if be.getLsbD i then mset m (a + i) (data.getD i 0) else m) c.scratch.mem
    let poison := if r.poison then addTo c.scratch.poison (a / 64)
      else if be = BitVec.allOnes 64 then c.scratch.poison.filter (· != a / 64) else c.scratch.poison
    { c with scratch := { c.scratch with mem := mem, poison := poison, scrubBack := c.scratch.scrubBack.filter fun e => e.2 != a / 64 } }

/-- The logical page of a cell whose committed frame holds a physical address and which has an OPEN shadow (R93). -/
def shadowedPage (c : Cell) (addr : Nat) : Option Nat :=
  (c.shadows.find? fun e => e.2.state = 1 && e.2.space = 0 && (tget c.scratch.map e.2.page).getD e.2.page == addr / 8192).map
    (·.2.page)

/-- A register with lanes replaced. -/
def setReg (c : Cell) (n : Nat) (xs : List Lane) : Cell := { c with vregs := tset c.vregs n xs }

/-- A register's lanes; an unwritten register reads zero. -/
def reg (c : Cell) (n : Nat) : List Lane := (tget c.vregs n).getD (List.replicate lanes 0)

/-- A mask register; m0 reads as all ones (Table 2.1). -/
def maskReg (c : Cell) (n : Nat) : BitVec 128 := if n = 0 then BitVec.allOnes 128 else (tget c.masks n).getD 0

/-- Lanes taken from `new` where the mask has a one, kept where it has a zero (R51). -/
def merged (m : BitVec 128) (old new : List Lane) : List Lane :=
  (List.range lanes).map fun i => if m.getLsbD i then new.getD i 0 else old.getD i 0

/-- A granted VECTOR read of a VLD: the word's sixteen lanes (R486). -/
def vldWord (c : Cell) (r : BankReq) : Cell :=
  match c.scratch.vld with
  | none => c
  | some (dst, mask, base) =>
    let first := (r.addr - base) / 4
    let old := reg c dst
    let bs := mread c.scratch.mem (r.addr / 64 * 64) 64
    let new := (List.range lanes).map fun i =>
      if first ≤ i ∧ i < first + 16 then BitVec.ofNat 32 (fieldLE bs (4 * (i - first)) 4) else old.getD i 0
    setReg c dst (merged (maskReg c mask) old new)

/-- The requests of a CCLK that are granted and that lose, with those that lost before among them (R158). -/
def bankGrant (c : Cell) (rs : List BankReq) : List BankReq × List BankReq :=
  arbitrate (takenPorts c) (bankOrder (rs ++ c.scratch.losers))

/-- Ports taken by granted requests. -/
def takePorts (s : State) (g : Nat) (gs : List BankReq) : State :=
  modCell s g fun c => { c with scratch := { c.scratch with asked := takenPorts c ++ gs.map fun r => (r.addr / 64 % 16, r.master) } }

/-- What granted requests do: reads are checked and return their words, before writes, port A's write last (Table 6.3);
a write of another master to a page with an OPEN shadow is counted (R93). -/
def bankEffects (s : State) (g : Nat) (gs : List BankReq) : State :=
  let s1 := scratchCheck s g ((gs.filter (·.write.isNone)).map (·.addr / 64))
  let s2 := modCell s1 g fun c => (gs.filter fun r => r.master == 2 && r.write.isNone).foldl vldWord c
  gs.reverse.foldl (fun t r =>
    let t1 := modCell (bankMerge t g r) g fun c => bankWrite c r
    match if r.master = 2 ∨ r.write.isNone then none else shadowedPage (cellOf t1 g) r.addr with
    | some page => noteForeign t1 g page
    | none => t1) s2

/-- One CCLK's requests settled: the granted take effect, the losers wait for BANK_RETRY. A losing slot-driven request
holds an issuing cell (R158); `first` where the hold begins, and so is a contract miss. -/
def bankSettle (s : State) (p g : Nat) (x : List BankReq × List BankReq) (first : Bool) : State :=
  let c := cellOf s g
  let bad := x.1.find? fun r => r.master == 2 && r.write.isNone && c.scratch.vld.isSome && c.scratchBad (r.addr / 64)
  let vecWaits := x.2.any fun r => r.master == 2 && r.write.isNone
  let s1 := modCell (bankEffects s g x.1) g fun c =>
    { c with scratch := { c.scratch with losers := x.2, vld := if vecWaits then c.scratch.vld else none } }
  let s2 := x.2.foldl (fun t r => countLost t p r.master 1) s1
  let runs := match c.seq.status with
    | .running => true
    | .stalled _ => true
    | _ => false
  let s3 := if x.2.any (fun r => decide (r.master < 4)) && runs then
      let a := missCycles (if first then beginMiss s2 g .bank else s2) g 1
      let b := if countsConflicts s p then odInc a (Ad.partConflictStallCycles p) else a
      modCell b g fun c => { c with seq := { c.seq with status := .stalled .bank } }
    else
      match c.seq.status with
      | .stalled .bank => modCell s2 g fun c => { c with seq := { c.seq with status := .running } }
      | _ => s2
  match bad with
  | some r => cellErr s3 g .poisonConsumed r.addr false
  | none => s3

/-- One CCLK's requests at a cell's banks, with those that lost in the CCLK before. -/
def bankRound (s : State) (p g : Nat) (rs : List BankReq) (first : Bool) : State :=
  let x := bankGrant (cellOf s g) rs
  bankSettle (takePorts s g x.1) p g x first

/-! ## The vector slot -/

/-- The eight word requests of a VLD or VST at a physical address (R156, R486); a VST's bytes and enables
follow its register and mask. -/
def vecReqs (phys : Nat) (data : Option (BitVec 128 × List Lane)) : List BankReq :=
  (List.range 8).map fun i =>
    ⟨2, phys + 64 * i, data.map fun d =>
      ((List.range 16).foldl (fun (be : BitVec 64) l =>
          if d.1.getLsbD (16 * i + l) then be ||| BitVec.ofNat 64 (15 * 2 ^ (4 * l)) else be) 0,
       (List.range 16).flatMap fun l => leBytes 4 (d.2.getD (16 * i + l) 0).toNat), false⟩

/-- VLD and VST at scratchpad address IMM × 512: the withheld pages and VACATED ranges they must not meet. -/
def vecAddrFault (s : State) (p g imm : Nat) : Option State :=
  if scratchWithheld (cellOf s g) (imm * 512 / 8192) then some (cellErr s g .streamBounds (imm * 512) false)
  else staleAt s p g 0 (imm * 512) 512

/-- A vector operation other than VLD and VST, with the CCLK's draws: the cell after it and what it folds
(R51 to R57, R62, R486). -/
def vecExec (s : State) (p g : Nat) (v : VecSlot) (draws : List (BitVec 32)) : Cell × Option Amax :=
  let c := cellOf s g
  let m := maskReg c v.mask
  let a := reg c v.sa
  let b := reg c v.sb
  let old := reg c v.dst
  let put := fun (f : Nat → Lane) => (setReg c v.dst (merged m old ((List.range lanes).map f)), (none : Option Amax))
  let cmp := fun (lt : Bool) =>
    let k := v.dst % 8
    let was := maskReg c k
    let now := (List.range lanes).foldl (fun (acc : BitVec 128) i =>
      let bit := if m.getLsbD i then cmpOp lt v.dt (a.getD i 0) (b.getD i 0) else was.getLsbD i
      if bit then acc ||| BitVec.twoPow 128 i else acc) 0
    ({ c with masks := tset c.masks k now }, (none : Option Amax))
  let sc := scaleOf s p v.slot
  let src := cvtSource v.dt m (v.rnd == 1 && srAllowed s p) draws a
  match v.op with
  | 0x10 => cmp true
  | 0x11 => cmp false
  | 0x12 =>
    let sel := maskReg c (v.sc % 8)
    put fun i => if sel.getLsbD i then a.getD i 0 else b.getD i 0
  | 0x13 => put fun _ => BitVec.ofInt 32 (signed 12 v.imm)
  | 0x18 => put fun _ => reduceOp true v.dt m a
  | 0x19 => put fun _ => reduceOp false v.dt m a
  | 0x30 =>
    let r := vcvt (v.imm % 16) v.slot sc.1 sc.2 src
    (setReg c v.dst r.1, some r.2)
  | 0x31 =>
    let r := vcvtmx (v.imm % 16) v.slot sc.1 src
    (setReg c v.dst r.1, some r.2)
  | 0x38 => put fun i => draws.getD i 0
  | 0x39 => put fun i => uniformOf (draws.getD i 0)
  | op =>
    if 1 ≤ op ∧ op ≤ 6 then put fun i => fpOp op v.dt (a.getD i 0) (b.getD i 0) ((reg c v.sc).getD i 0)
    else if 8 ≤ op ∧ op ≤ 15 then put fun i => intOp op (a.getD i 0) (b.getD i 0)
    else if 0x20 ≤ op ∧ op ≤ 0x25 then put fun i => sfuOp op v.dt (a.getD i 0)
    else (c, none)

/-- The vector slot before the write streams drain: all but VST. `others` are the other masters' bank
requests of the CCLK. -/
def vecBefore (s : State) (p g : Nat) (v : VecSlot) (draws : List (BitVec 32)) (others : List BankReq) : State :=
  if v.op = 0x40 then
    match vecAddrFault s p g v.imm with
    | some t => t
    | none =>
      let phys := scratchPhys (cellOf s g) true (v.imm * 512)
      let s1 := modCell s g fun c => { c with scratch := { c.scratch with vld := some (v.dst, v.mask, phys) } }
      bankRound s1 p g (vecReqs phys none ++ others) true
  else if v.op = 0x41 then s
  else
    let r := if v.op = 0 then (cellOf s g, none) else vecExec s p g v draws
    let s1 := setCell s g r.1
    let s2 := match r.2 with
      | some e => amaxFold s1 g e true
      | none => s1
    if others = [] ∧ (cellOf s2 g).scratch.losers = [] then s2 else bankRound s2 p g others true

/-- A VST's bank requests and what becomes of them, made before the write streams' by the order of Table 6.2. None where
the operation is no VST, or its write is held by a move or faults. -/
def vstGrant (s : State) (p g : Nat) (v : VecSlot) (data : List Lane) (others : List BankReq) :
    Option (List BankReq × List BankReq) :=
  let c := cellOf s g
  if v.op ≠ 0x41 ∨ (vecAddrFault s p g v.imm).isSome ∨ (moveOver s p 0 (moveAddr s p g 0 (v.imm * 512)) 512).isSome then none
  else
    let phys := scratchPhys c true (v.imm * 512)
    some (bankGrant c (vecReqs phys (some (maskReg c v.mask, data)) ++ others))

/-- A VST, after the write streams have drained (Table 6.3: the vector slot has port A). One held by a move
is kept whole at its owner (R232). -/
def vecStore (s : State) (p g : Nat) (v : VecSlot) (data : List Lane) (x : Option (List BankReq × List BankReq)) : State :=
  if v.op ≠ 0x41 then s
  else
    match vecAddrFault s p g v.imm with
    | some t => t
    | none =>
      match x with
      | some y => bankSettle (modCell s g fun c => noteShadow c 0 (v.imm * 512 / 8192) 512) p g y true
      | none =>
        let m := maskReg (cellOf s g) v.mask
        (List.range lanes).foldl (fun t l =>
          if m.getLsbD l then spaceWrite t p g 0 0 (v.imm * 512 + 4 * l) (leBytes 4 (data.getD l 0).toNat) false else t) s

/-! ## The matrix slot -/

/-- MLOAD, MSWAP, MMAC and MMACZ (R46, R47, R118). `rep` is the repetition's number. -/
def matExec (s : State) (p g : Nat) (m : MatSlot) (rep : Nat) : State :=
  let c := cellOf s g
  match m.op with
  | 1 => setCell s g { c with wload := some (m.fmt, m.rs) }
  | 2 => setCell s g { c with wactive := !c.wactive }
  | 0 => s
  | _ =>
    match tget c.ins m.rs with
    | none => s
    | some x =>
      match x.fifo, x.tile with
      | u :: rest, some t =>
        if u.poison then cellErr s g .poisonConsumed u.addr false
        else
          let row := macRowOf m rep
          let base := m.bank * 4096 + row * 64
          let old := (List.range 64).map fun n => if m.op = 4 then none else some ((tget c.acc (base + n)).getD 0)
          let out := macRow m.fmt u.bytes (if u.index < t.vr then t.vc else 0) (activeBuf c) old
          let acc := (List.range 64).foldl (fun a n => tset a (base + n) (out.getD n 0)) c.acc
          let s1 := setCell s g { c with acc := acc, ins := tset c.ins m.rs { x with fifo := rest, consumed := x.consumed + 1 } }
          odInc s1 (if u.index < t.vr then Ad.partValidRows p else Ad.partPadRows p)
      | _, _ => s

/-- The weight load's rows taken and the buffer filled (R46, R110), once all have arrived. -/
def loadWeights (s : State) (g : Nat) : State :=
  let c := cellOf s g
  match c.wload with
  | none => s
  | some (fmt, rs) =>
    match tget c.ins rs with
    | none => s
    | some x =>
      match x.tile with
      | none => s
      | some t =>
        if x.fifo.length < t.trow then s
        else match (x.fifo.take t.trow).find? (·.poison) with
        | some u => cellErr s g .poisonConsumed u.addr false
        | none =>
          let b : WBuf := { fmt := some fmt, vr := t.vr, vc := t.vc, rows := (x.fifo.take t.trow).map (·.bytes) }
          let y := { x with fifo := x.fifo.drop t.trow, consumed := x.consumed + t.trow }
          setCell s g { c with wload := none, ins := tset c.ins rs y,
                               wbuf0 := if c.wactive then b else c.wbuf0,
                               wbuf1 := if c.wactive then c.wbuf1 else b }

/-! ## The stream slots -/

/-- The stream slots (Table 2.9). -/
def streamExec (s : State) (g : Nat) (b : Bundle) : State :=
  let s1 := match b.sin.op with
    | 1 => startIn s g b.sin.stream b.sin.desc b.sin.near b.sin.addr
    | 2 => if (tget (cellOf s g).ins b.sin.stream).any (·.running) then endIn s g b.sin.stream else s
    | _ => s
  match b.sout.op with
  | 1 => startOut s1 g b.sout.stream b.sout.desc b.sout.near b.sout.addr
  | 2 => modCell s1 g fun c =>
      match tget c.outs b.sout.stream with
      | some x => { c with outs := tset c.outs b.sout.stream { x with running := false } }
      | none => c
  | _ => s1

/-! ## The sync slot -/

/-- Sequencer state changed. -/
def modSeq (s : State) (g : Nat) (f : Seq → Seq) : State := modCell s g fun c => { c with seq := f c.seq }

/-- The cell still runs or has only just been held by its banks or a move. -/
def alive (s : State) (g : Nat) : Bool :=
  match (cellOf s g).seq.status with
  | .halted => false
  | _ => true

/-- The write streams of a cell with writes still to become visible, each with the CCLK of its SSTART (R86). -/
def openOuts (c : Cell) : List (Nat × Nat) :=
  (c.outs.filter fun e => e.2.running || decide (e.2.port ≠ [])).map fun e => (e.1, e.2.start)

/-- SEM_SIGNAL, SETCNT, AMAXFLUSH and DONE at their issue (R42, R66, R86, R98). -/
def syncExec (s : State) (p g : Nat) (y : SyncSlot) : State :=
  match y.op with
  | 2 =>
    let outs := openOuts (cellOf s g)
    modJob s p fun j => { j with incs := j.incs ++ [⟨some g, j.seq, y.sem, y.count, false, outs⟩] }
  | 4 => modCell s g fun c => { c with lcs := tset c.lcs y.ctr y.cnt }
  | 6 => amaxFlush s g
  | 7 => modSeq (amaxFlush s g) g fun q => { q with status := .done, doneInput := true }
  | _ => s

/-- The bundle address after the last repetition (R42): LOOP decrements a non-zero counter and branches. -/
def loopStep (c : Cell) (y : SyncSlot) : Cell :=
  let n := (tget c.lcs y.ctr).getD 0
  if n = 0 then { c with seq := { c.seq with pc := c.seq.pc + 1 } }
  else { c with lcs := tset c.lcs y.ctr (n - 1), seq := { c.seq with pc := y.target } }

/-- Issue moves on: to the next repetition, or past the bundle. A single slot operation of the table moves
the bundle address only where it is a LOOP that branches (log 15). -/
def advance (c : Cell) (b : Bundle) (slot : Bool) : Cell :=
  let q := { c.seq with granted := false, held := none }
  if c.seq.rep < b.rep then { c with seq := { q with rep := c.seq.rep + 1 } }
  else
    let c1 := { c with seq := { q with rep := 0 } }
    if b.sync.op = 5 then
      if slot then (if (tget c.lcs b.sync.ctr).getD 0 = 0 then c1 else loopStep c1 b.sync) else loopStep c1 b.sync
    else if slot then c1
    else { c1 with seq := { c1.seq with pc := c1.seq.pc + 1 } }

/-- Every generator of the cell advanced once (R62). -/
def advanceGens (c : Cell) : Cell :=
  { c with gens := (List.range lanes).map fun l => (l, ((tget c.gens l).getD {}).advance) }

/-- One repetition of a bundle issues: its slots, the draining write streams, one advance of every
generator, and the next bundle address. -/
def issueOnce (s : State) (p g : Nat) (b : Bundle) (slot : Bool) (others : List BankReq) : State :=
  let c := cellOf s g
  let draws := drawsOf c
  let data := reg c b.vec.sa
  let store := decide (b.vec.op = 0x41)
  let s0 := anem (modCell s g fun c => noteIssue c b) (g / 80) 1 1
  let s1 := streamExec (if b.mat.op = 3 ∨ b.mat.op = 4 then anem s0 (g / 80) 3 1 else s0) g b
  let s2 := if alive s1 g then vecBefore s1 p g b.vec draws (if store then [] else others) else s1
  let vst := vstGrant s2 p g b.vec data others
  let s3 := drainAll (match vst with | some x => takePorts s2 g x.1 | none => s2) g draws
  let s4 := if alive s3 g then matExec s3 p g b.mat c.seq.rep else s3
  let s5 := if alive s4 g then vecStore s4 p g b.vec data vst else s4
  let s6 := if alive s5 g then syncExec s5 p g b.sync else s5
  modCell s6 g fun c =>
    let d := advanceGens (c.after 1)
    match d.seq.status with
    | .halted => d
    | _ => advance d b slot

/-! ## Holding and issuing -/

/-- The count of a semaphore of a partition's job. -/
def semCount (s : State) (p sem : Nat) : Nat := ((partOf s p).job.bind fun j => tget j.sems sem).getD 0

/-- The home of a semaphore (R85): the compute die at its place in the partition's. -/
def semHome (s : State) (p sem : Nat) : Nat := let ds := (partOf s p).dies; ds.getD (sem % ds.length) 0

/-- The CCLK a SEM_WAIT costs a cell where the count is there at issue (Table 3.1): 4, and from another die's home up to
80 ns more, at most 128 CCLK, which are a free value. -/
def waitCost (s : State) (p g sem : Nat) : State :=
  if semHome s p sem = g / 80 then modCell s g fun c => c.after 4
  else let f := fresh s; modCell f.2 g fun c => c.after (4 + f.1 % 129)

/-- A SEM_WAIT's decrement at the home (R87). -/
def semTake (s : State) (p sem : Nat) : State :=
  modJob s p fun j => { j with sems := tset j.sems sem ((tget j.sems sem).getD 0 - 1) }

/-- The cell holds a word it did not fetch. -/
def heldWord (slot : Bool) (w : BitVec 256) : Option (BitVec 256) := if slot then some w else none

/-- The sync slot's wait before its bundle issues: none when the bundle may issue, else the held state
(R87, R89, R95). -/
def syncWait (s : State) (p g : Nat) (y : SyncSlot) (held : Option (BitVec 256)) : Option State :=
  if (cellOf s g).seq.granted then none
  else
    match y.op with
    | 1 =>
      let free := decide (1 ≤ semCount s p y.sem) && !((partOf s p).job.any fun j => j.waiters.any fun w => w.1 == y.sem)
      if free then none
      else
        some (modJob (modSeq s g fun q => { q with status := .waitSem y.sem, held := held }) p fun j =>
          { j with waiters := j.waiters ++ [(y.sem, g)] })
    | 3 => some (modSeq s g fun q => { q with status := if y.mode = 0 then .waitFence else .waitPred y.pred, held := held })
    | _ => none

/-- A stall begins (R38, R81): the bundle is held. -/
def stall (s : State) (g : Nat) (c : MissCause) (held : Option (BitVec 256)) : State :=
  modSeq (beginMiss s g c) g fun q => { q with status := .stalled c, held := held }

/-- One repetition attempted: an illegal bundle or a failed consumer check halts the cell; a bundle that may
not issue is held; else it issues. -/
def tryIssue (s : State) (p g : Nat) (w : BitVec 256) (slot : Bool) (hold : Option MissCause)
    (others : List BankReq) : State :=
  let b := Bundle.ofWord w
  let c := cellOf s g
  let held := heldWord slot w
  if bundleIllegal c b then cellErr (odInc s Ad.cellIllegalBundleCount) g .illegalBundle 0 false
  else
    match matFault c b.mat with
    | some e => cellErr s g e 0 false
    | none =>
      match syncWait s p g b.sync held with
      | some t => t
      | none =>
        match hold.orElse fun _ => blockedBy s p g b with
        | some m => stall s g m held
        | none =>
          let s1 := if b.sync.op = 1 ∧ !c.seq.granted then waitCost (semTake s p b.sync.sem) p g b.sync.sem else s
          issueOnce s1 p g b slot others

/-- The cell is running and its die's clock is neither held (R32) nor cut (R384); with a new CCLK due, only the
repetitions of the bundle in hand still issue (R32). -/
def canIssue (s : State) (g : Nat) : Bool :=
  (cellOf s g).seq.status == .running && !(dieOf s (g / 80)).hold && !blockCut s (g / 80) &&
    !((dieOf s (g / 80)).cclkPending && decide ((cellOf s g).seq.rep = 0))

/-- The repetitions of a bundle after its first, as far as they issue (R40). -/
def issueRest : Nat → State → Nat → Nat → BitVec 256 → Bool → State
  | 0, s, _, _, _, _ => s
  | n + 1, s, p, g, w, slot =>
    if canIssue s g && decide ((cellOf s g).seq.rep ≠ 0) then
      issueRest n (tryIssue s p g w slot none []) p g w slot
    else s

/-- A bundle issued with all its repetitions. -/
def issueAll (s : State) (p g : Nat) (w : BitVec 256) (slot : Bool) (hold : Option MissCause)
    (others : List BankReq) : State :=
  let b := Bundle.ofWord w
  let s1 := tryIssue s p g w slot hold others
  issueRest b.rep s1 p g w slot

/-- The bundle word at the cell's address. -/
def fetchWord (c : Cell) : BitVec 256 := (tget c.imem c.seq.pc).getD 0

/-- A slot operation of the table issued as a bundle of its own (log 15). -/
def issueSlot (s : State) (g : Nat) (w : BitVec 256) : State :=
  match cellOwner s g with
  | none => s
  | some p => if canIssue s g then issueAll s p g w true none [] else s

/-- The held bundle, or the one at the cell's address, issued after a hold. -/
def reissue (s : State) (g : Nat) : State :=
  match cellOwner s g with
  | none => s
  | some p =>
    let c := cellOf s g
    if !canIssue s g then s else
    match c.seq.held with
    | some w => issueAll s p g w true none []
    | none => if 4096 ≤ c.seq.pc then s else issueAll s p g (fetchWord c) false none []

end Sys2Proof.Machine
end

