-- ==== Sys2Proof/Machine/Cell.lean ====
section
/-!
DEFINITION. The meanings of the tensor cell's rows: the issue of bundles, and each slot operation as the issue
of the bundle that holds it alone (Tables 2.3, 2.5, 2.6, 2.9 and 2.10; log 15).
-/

namespace Sys2Proof.Machine

/-- BUNDLE_ISSUE (R38 to R42, R62). `hold` is a stall the CCLK finds, of a cause the model does not time; `ecc` is
what check bits find: 1 and 2 a single- and a double-bit error of the bundle (R39), 3 and 4 of a register (Table
17.3); `upsets` are the bits of the cell's scratchpad that have flipped since (R155, R162); `others` are the other bank
requests of the CCLK (R157). A cell of no partition holds no program. -/
def execBundleIssue (g : Nat) (hold : Option MissCause) (ecc : Nat) (upsets : List Upset) (others : List BankReq) (s0 : State) : Res :=
  let s := upsetScratch s0 g upsets
  match cellOwner s g with
  | none => .next s
  | some p =>
    let c := cellOf s g
    if !canIssue s g then .next s
    else if 4096 ≤ c.seq.pc then .next (cellErr (odInc s Ad.cellIllegalBundleCount) g .illegalBundle 0 false)
    else if ecc = 2 then .next (cellErr s g .imemUncorrectable 0 true)
    else if ecc = 4 then .next (cellErr s g .registerUncorrectable 0 true)
    else
      let s1 := if ecc = 1 then corrected (odInc s Ad.cellImemEccCorrected) (some p) (unitCell g) (32 * c.seq.pc)
        else if ecc = 3 then corrected s (some p) (unitCell g) 0 else s
      .next (issueAll s1 p g (c.seq.held.getD (fetchWord c)) c.seq.held.isSome hold others)

/-- ISSUE_RESUME (R38, R81): the stall ends after `cycles` stalled CCLK, or as many as a latency or an issue interval
still takes if they are more, and the held bundle issues. While one of the other conditions of R38 lasts, the stall
goes on. -/
def execIssueResume (g cycles : Nat) (s : State) : Res :=
  match (cellOf s g).seq.status, cellOwner s g with
  | .stalled _, some p =>
    let c := cellOf s g
    let b := Bundle.ofWord (c.seq.held.getD (fetchWord c))
    let s1 := missCycles s g (max cycles (max (unitAt c b) (operandAt c b) - c.seq.cclk))
    if (dieOf s (g / 80)).hold || (blockedBy s1 p g b).isSome then .next s
    else
      .next (reissue (modSeq s1 g fun q => { q with status := .running }) g)
  | _, _ => .next s

/-- NOP (R40): a bundle whose slots are all zero; the generators advance (R62). -/
def execNop (g : Nat) (s : State) : Res :=
  .next (issueSlot s g 0)

/-- SEM_WAIT (R87). -/
def execSemWait (g sem : Nat) (s : State) : Res :=
  .next (issueSlot s g (syncWord 1 (sem % 256 * 2 ^ 18)))

/-- SEM_SIGNAL of a count of 1 to 256 (R86). -/
def execSemSignal (g sem cnt : Nat) (s : State) : Res :=
  .next (issueSlot s g (syncWord 2 (sem % 256 * 2 ^ 18 + (cnt - 1) % 256 * 2 ^ 10)))

/-- FENCE mode 0 (R89). -/
def execFence (g : Nat) (s : State) : Res :=
  .next (issueSlot s g (syncWord 3 0))

/-- FENCE mode 1 (R95). -/
def execFencePredicate (g sem : Nat) (s : State) : Res :=
  .next (issueSlot s g (syncWord 3 (2 ^ 24 + sem % 256 * 2 ^ 16)))

/-- SETCNT (R42). -/
def execSetcnt (g ctr cnt : Nat) (s : State) : Res :=
  .next (issueSlot s g (syncWord 4 (ctr % 4 * 2 ^ 24 + cnt % 2 ^ 20)))

/-- LOOP (R42). -/
def execLoop (g ctr target : Nat) (s : State) : Res :=
  .next (issueSlot s g (syncWord 5 (ctr % 4 * 2 ^ 24 + target % 4096 * 2 ^ 12)))

/-- AMAXFLUSH (R66). -/
def execAmaxflush (g : Nat) (s : State) : Res :=
  .next (issueSlot s g (syncWord 6 0))

/-- DONE (R98). -/
def execDone (g : Nat) (s : State) : Res :=
  .next (issueSlot s g (syncWord 7 0))

/-- MLOAD (R46). -/
def execMload (g fmt rs : Nat) (s : State) : Res :=
  .next (issueSlot s g (matWord 1 (fmt % 16) 0 0 (rs % 4)))

/-- MLOAD's end (R46): the tile's rows fill the inactive buffer and the weight port frees. Until all rows have
arrived, nothing happens. -/
def execMloadComplete (g : Nat) (s : State) : Res :=
  .next (loadWeights s g)

/-- MSWAP (R46). -/
def execMswap (g : Nat) (s : State) : Res :=
  .next (issueSlot s g (matWord 2 0 0 0 0))

/-- MMAC (R47 to R50). -/
def execMmac (g fmt bank row rs : Nat) (s : State) : Res :=
  .next (issueSlot s g (matWord 3 (fmt % 16) (bank % 4) (row % 64) (rs % 4)))

/-- MMACZ (R47). -/
def execMmacz (g fmt bank row rs : Nat) (s : State) : Res :=
  .next (issueSlot s g (matWord 4 (fmt % 16) (bank % 4) (row % 64) (rs % 4)))

/-- VADD (R51, R486). -/
def execVadd (g dst sa sb mask dt : Nat) (s : State) : Res :=
  .next (issueSlot s g (vecWord ⟨0x1, dst % 64, sa % 64, sb % 64, 0, mask % 8, dt % 8, 0, 0, 0⟩))

/-- VSUB (R51, R486). -/
def execVsub (g dst sa sb mask dt : Nat) (s : State) : Res :=
  .next (issueSlot s g (vecWord ⟨0x2, dst % 64, sa % 64, sb % 64, 0, mask % 8, dt % 8, 0, 0, 0⟩))

/-- VMUL (R51, R486). -/
def execVmul (g dst sa sb mask dt : Nat) (s : State) : Res :=
  .next (issueSlot s g (vecWord ⟨0x3, dst % 64, sa % 64, sb % 64, 0, mask % 8, dt % 8, 0, 0, 0⟩))

/-- VFMA (R51, R486). -/
def execVfma (g dst sa sb sc mask dt : Nat) (s : State) : Res :=
  .next (issueSlot s g (vecWord ⟨0x4, dst % 64, sa % 64, sb % 64, sc % 64, mask % 8, dt % 8, 0, 0, 0⟩))

/-- VMAX (R486). -/
def execVmax (g dst sa sb mask dt : Nat) (s : State) : Res :=
  .next (issueSlot s g (vecWord ⟨0x5, dst % 64, sa % 64, sb % 64, 0, mask % 8, dt % 8, 0, 0, 0⟩))

/-- VMIN (R486). -/
def execVmin (g dst sa sb mask dt : Nat) (s : State) : Res :=
  .next (issueSlot s g (vecWord ⟨0x6, dst % 64, sa % 64, sb % 64, 0, mask % 8, dt % 8, 0, 0, 0⟩))

/-- VIADD (R486). -/
def execViadd (g dst sa sb mask : Nat) (s : State) : Res :=
  .next (issueSlot s g (vecWord ⟨0x8, dst % 64, sa % 64, sb % 64, 0, mask % 8, 0, 0, 0, 0⟩))

/-- VISUB (R486). -/
def execVisub (g dst sa sb mask : Nat) (s : State) : Res :=
  .next (issueSlot s g (vecWord ⟨0x9, dst % 64, sa % 64, sb % 64, 0, mask % 8, 0, 0, 0, 0⟩))

/-- VIMUL (R486). -/
def execVimul (g dst sa sb mask : Nat) (s : State) : Res :=
  .next (issueSlot s g (vecWord ⟨0xa, dst % 64, sa % 64, sb % 64, 0, mask % 8, 0, 0, 0, 0⟩))

/-- VAND (R486). -/
def execVand (g dst sa sb mask : Nat) (s : State) : Res :=
  .next (issueSlot s g (vecWord ⟨0xb, dst % 64, sa % 64, sb % 64, 0, mask % 8, 0, 0, 0, 0⟩))

/-- VOR (R486). -/
def execVor (g dst sa sb mask : Nat) (s : State) : Res :=
  .next (issueSlot s g (vecWord ⟨0xc, dst % 64, sa % 64, sb % 64, 0, mask % 8, 0, 0, 0, 0⟩))

/-- VXOR (R486). -/
def execVxor (g dst sa sb mask : Nat) (s : State) : Res :=
  .next (issueSlot s g (vecWord ⟨0xd, dst % 64, sa % 64, sb % 64, 0, mask % 8, 0, 0, 0, 0⟩))

/-- VSHL (R486). -/
def execVshl (g dst sa sb mask : Nat) (s : State) : Res :=
  .next (issueSlot s g (vecWord ⟨0xe, dst % 64, sa % 64, sb % 64, 0, mask % 8, 0, 0, 0, 0⟩))

/-- VSHR (R486). -/
def execVshr (g dst sa sb mask : Nat) (s : State) : Res :=
  .next (issueSlot s g (vecWord ⟨0xf, dst % 64, sa % 64, sb % 64, 0, mask % 8, 0, 0, 0, 0⟩))

/-- VBCAST (R486). -/
def execVbcast (g dst imm mask : Nat) (s : State) : Res :=
  .next (issueSlot s g (vecWord ⟨0x13, dst % 64, 0, 0, 0, mask % 8, 0, 0, 0, imm % 4096⟩))

/-- VCMPLT (R486). -/
def execVcmplt (g dst sa sb mask dt : Nat) (s : State) : Res :=
  .next (issueSlot s g (vecWord ⟨0x10, dst % 64, sa % 64, sb % 64, 0, mask % 8, dt % 8, 0, 0, 0⟩))

/-- VCMPEQ (R486). -/
def execVcmpeq (g dst sa sb mask dt : Nat) (s : State) : Res :=
  .next (issueSlot s g (vecWord ⟨0x11, dst % 64, sa % 64, sb % 64, 0, mask % 8, dt % 8, 0, 0, 0⟩))

/-- VSEL (R486). -/
def execVsel (g dst sa sb sel mask : Nat) (s : State) : Res :=
  .next (issueSlot s g (vecWord ⟨0x12, dst % 64, sa % 64, sb % 64, sel % 8, mask % 8, 0, 0, 0, 0⟩))

/-- VRSUM (R52). -/
def execVrsum (g dst sa mask dt : Nat) (s : State) : Res :=
  .next (issueSlot s g (vecWord ⟨0x18, dst % 64, sa % 64, 0, 0, mask % 8, dt % 8, 0, 0, 0⟩))

/-- VRMAX (R52). -/
def execVrmax (g dst sa mask dt : Nat) (s : State) : Res :=
  .next (issueSlot s g (vecWord ⟨0x19, dst % 64, sa % 64, 0, 0, mask % 8, dt % 8, 0, 0, 0⟩))

/-- VEXP2 (R53). -/
def execVexp2 (g dst sa mask dt : Nat) (s : State) : Res :=
  .next (issueSlot s g (vecWord ⟨0x20, dst % 64, sa % 64, 0, 0, mask % 8, dt % 8, 0, 0, 0⟩))

/-- VLOG2 (R53). -/
def execVlog2 (g dst sa mask dt : Nat) (s : State) : Res :=
  .next (issueSlot s g (vecWord ⟨0x21, dst % 64, sa % 64, 0, 0, mask % 8, dt % 8, 0, 0, 0⟩))

/-- VRSQRT (R53). -/
def execVrsqrt (g dst sa mask dt : Nat) (s : State) : Res :=
  .next (issueSlot s g (vecWord ⟨0x22, dst % 64, sa % 64, 0, 0, mask % 8, dt % 8, 0, 0, 0⟩))

/-- VRCP (R53). -/
def execVrcp (g dst sa mask dt : Nat) (s : State) : Res :=
  .next (issueSlot s g (vecWord ⟨0x23, dst % 64, sa % 64, 0, 0, mask % 8, dt % 8, 0, 0, 0⟩))

/-- VSIN (R53). -/
def execVsin (g dst sa mask dt : Nat) (s : State) : Res :=
  .next (issueSlot s g (vecWord ⟨0x24, dst % 64, sa % 64, 0, 0, mask % 8, dt % 8, 0, 0, 0⟩))

/-- VCOS (R53). -/
def execVcos (g dst sa mask dt : Nat) (s : State) : Res :=
  .next (issueSlot s g (vecWord ⟨0x25, dst % 64, sa % 64, 0, 0, mask % 8, dt % 8, 0, 0, 0⟩))

/-- VCVT (R54 to R57). -/
def execVcvt (g dst sa mask dt rnd slot target : Nat) (s : State) : Res :=
  .next (issueSlot s g (vecWord ⟨0x30, dst % 64, sa % 64, 0, 0, mask % 8, dt % 8, rnd % 4, slot % 4096, target % 16⟩))

/-- VCVTMX (R54 to R57). -/
def execVcvtmx (g dst sa mask dt rnd slot target : Nat) (s : State) : Res :=
  .next (issueSlot s g (vecWord ⟨0x31, dst % 64, sa % 64, 0, 0, mask % 8, dt % 8, rnd % 4, slot % 4096, target % 16⟩))

/-- AMAX_COUNT_MERGE (R66): an entry whose count has reached 65,535 is merged into the partition's slot. -/
def execAmaxCountMerge (g slot : Nat) (s : State) : Res :=
  let c := cellOf s g
  match c.amax.find? fun e => e.slot = slot with
  | some e =>
    if e.full then
      .next (modCell (mergeEntry s g e) g fun x => { x with amax := x.amax.filter fun y => y.slot != slot })
    else .next s
  | none => .next s

/-- VRAND (R62). -/
def execVrand (g dst mask : Nat) (s : State) : Res :=
  .next (issueSlot s g (vecWord ⟨0x38, dst % 64, 0, 0, 0, mask % 8, 0, 0, 0, 0⟩))

/-- VRANDU (R62). -/
def execVrandu (g dst mask : Nat) (s : State) : Res :=
  .next (issueSlot s g (vecWord ⟨0x39, dst % 64, 0, 0, 0, mask % 8, 0, 0, 0, 0⟩))

/-- VLD (R486). -/
def execVld (g dst imm mask : Nat) (s : State) : Res :=
  .next (issueSlot s g (vecWord ⟨0x40, dst % 64, 0, 0, 0, mask % 8, 0, 0, 0, imm % 4096⟩))

/-- VST (R486). -/
def execVst (g sa imm mask : Nat) (s : State) : Res :=
  .next (issueSlot s g (vecWord ⟨0x41, 0, sa % 64, 0, 0, mask % 8, 0, 0, 0, imm % 4096⟩))

/-- SSTART of a read stream (R59, R104). -/
def execSstartIn (g stream desc near addr : Nat) (s : State) : Res :=
  .next (issueSlot s g (sinWord 1 (stream % 4) (desc % 2 ^ 15) (near % 2) (addr % 2 ^ 15)))

/-- SSTOP of a read stream (Table 2.9): it ends with the unit in hand (log 18). -/
def execSstopIn (g stream : Nat) (s : State) : Res :=
  .next (issueSlot s g (sinWord 2 (stream % 4) 0 0 0))

/-- SSTART of a write stream (R59, R104). -/
def execSstartOut (g stream desc near addr : Nat) (s : State) : Res :=
  .next (issueSlot s g (soutWord 1 (stream % 2) (desc % 2 ^ 15) (near % 4) (addr % 2 ^ 15)))

/-- SSTOP of a write stream (Table 2.9). -/
def execSstopOut (g stream : Nat) (s : State) : Res :=
  .next (issueSlot s g (soutWord 2 (stream % 2) 0 0 0))

/-- STREAM_END (R60). A read stream ends once its last unit is deposited, and for the matrix array consumed; a
write stream's remaining groups drain with the standing draws, as they do while a FENCE holds issue (log 19). -/
def execStreamEnd (g : Nat) (out : Bool) (stream : Nat) (s : State) : Res :=
  if out then
    let n := ((tget (cellOf s g).outs stream).map OutStream.total).getD 0
    .next (drainRest n s g stream (drawsOf (cellOf s g)))
  else
    match tget (cellOf s g).ins stream with
    | some x =>
      if x.running && decide (x.total ≤ x.deposited) && (!x.matrix || decide (x.total ≤ x.consumed)) then
        .next (endIn s g stream)
      else .next s
    | none => .next s

end Sys2Proof.Machine
end

