-- ==== Sys2Proof/Machine/Isobar.lean ====
section
/-!
DEFINITION. The package fabric and clocks (R24, R25, R32), and the Isobar contract's rows: requests and
deposits of streams (R71 to R79), semaphores and fences (R85 to R90), shadow pages (R91 to R97), broadcast
groups (R114 to R116) and a die's completion tree (R98).
-/

namespace Sys2Proof.Machine

/-! ## Fabric and clocks -/

/-- FABRIC_CRC_FAIL (R25): a replay, counted; the ninth failure in a row of one transfer is fatal. -/
def execFabricCrcFail (src xfer : Nat) (s : State) : Res :=
  let key := (src, xfer)
  let n := ((s.fabric.fails.find? fun e => e.1 = key).map (·.2)).getD 0 + 1
  let rest := s.fabric.fails.filter fun e => e.1 ≠ key
  if 9 ≤ n then
    .next (fatalErr { s with fabric := { s.fabric with fails := rest } } .fabricReplayFail (src * 256))
  else
    .next (odInc { s with fabric := { s.fabric with fails := rest ++ [(key, n)] } } Ad.fabricReplayCount)

/-- A held packet leaves its source: it enters its destination's FIFO, and a far-tier request it carries is issued. -/
def releaseOne (s : State) (k : FabPkt) : State :=
  let s1 := fabricPut { s with fabric := { s.fabric with held := s.fabric.held.erase k } } k
  match k.req with
  | some (g, stream) => modCell s1 g fun c =>
      match tget c.ins stream with
      | some x => { c with ins := tset c.ins stream { x with requested := x.requested + 1 } }
      | none => c
  | none => s1

/-- The packets of a class held for a port, in the order they were made, released up to the first that must still wait
(R23, R24). -/
def releaseClass (s : State) (src cls : Nat) : List FabPkt → State
  | [] => s
  | k :: t =>
    if k.src = src ∧ k.cls = cls then
      (if k.bytes ≤ fifoFree s.fabric k.dst then releaseClass (releaseOne s k) src cls t else s)
    else releaseClass s src cls t

/-- FABRIC_CREDIT_RETURN (R22 to R24, R30): the first packet of the class from `src` leaves the FIFO of `dst`, and what
the source holds goes on, MGMT before RESERVED before BULK. A class named in `capped` is at its cap and waits in its
own class. -/
def execFabricCreditReturn (src dst cls : Nat) (capped : List Nat) (s : State) : Res :=
  let s1 := match s.fabric.fifo.find? fun k => k.src == src && k.dst == dst && k.cls == cls with
    | some k => { s with fabric := { s.fabric with fifo := s.fabric.fifo.erase k } }
    | none => s
  .next (((List.range 3).filter fun c => !capped.contains c).foldl (fun t c => releaseClass t src c t.fabric.held) s1)

/-- The CCLK a die is to run at (R31, R33): its value lowered by the throttle steps, never above its fuse-set
ceiling nor below the 600 MHz of Table 1.7. -/
def cclkTarget (s : State) (d : Nat) : Nat :=
  max 600 (min (odGet s (Ad.cdCclkMhz d)) ((tget s.nv.ceiling d).getD Config.cclkCeilingMHz) - 50 * odGet s Ad.modThrottleSteps)

/-- The CCLK in effect (R33). -/
def cclkActual (s : State) (d : Nat) : Nat := (tget s.od (Ad.cdCclkActualMhz d)).getD (cclkTarget s d)

/-- A die's change of CCLK awaits its next bundle boundary (R32); until then it runs as before. -/
def awaitHold (s : State) (d : Nat) (change : State → State) : State :=
  let old := cclkActual s d
  let s1 := change s
  if cclkTarget s1 d = old then s1
  else odSet (modDie s1 d fun x => { x with cclkPending := true }) (Ad.cdCclkActualMhz d) old

/-- CLOCK_HOLD (R32): a die with a new CCLK due halts issue and relocks, and the hold is counted. -/
def execClockHold (die : Nat) (s : State) : Res :=
  if (dieOf s die).cclkPending && !(dieOf s die).hold then
    let s1 := modDie s die fun d => { d with hold := true, cclkPending := false }
    .next (odInc (odSet s1 (Ad.cdCclkActualMhz die) (cclkTarget s die)) Ad.clockHoldCount)
  else .next s

/-- CLOCK_HOLD_END (R32, R82, R84): issue resumes. The cycles of the hold, at most 20 µs of them, are not the
model's to know: a free value joins PART_WAIT_CYCLES and the job's CCLK count of the die's cells. -/
def execClockHoldEnd (die : Nat) (s : State) : Res :=
  if (dieOf s die).hold then
    let s1 := modDie s die fun d => { d with hold := false }
    match dieOwner s die with
    | none => .next s1
    | some p =>
      let f := fresh s1
      let n := f.1 % 32001
      let s2 := odAdd f.2 (Ad.partWaitCycles p) n
      .next { s2 with cells := s2.cells.map fun e => if e.1 / 80 = die then (e.1, e.2.after n) else e }
  else .next s

/-! ## Requests and deposits -/

/-- The reserved requests a read stream has issued in the pacing window (R77). -/
def pacedOf (c : Cell) (stream : Nat) : Nat := (tget c.paced stream).getD 0

/-- The stream with the units passed over that a squash has left never to be requested (R95). -/
def skipNever : Nat → InStream → InStream
  | 0, x => x
  | n + 1, x =>
    let k := if x.reqTotal = 0 then x.total else x.requested * x.total / x.reqTotal
    if k < x.total ∧ unitNever x k then skipNever n (skipRequests x k) else x

/-- The far-side address of a stream's next request. -/
def nextAddr (x : InStream) : Nat :=
  let k := if x.reqTotal = 0 then 0 else x.requested * x.total / x.reqTotal
  let i := x.requested - (k * x.reqTotal + x.total - 1) / max 1 x.total
  let us := (unitRuns x k).flatMap fun r => wordsOf r.1 r.2
  64 * us.getD i (us.headD (spaceAddr x.desc.space x.desc.base / 64))

/-- FAR_REQUEST_ISSUE (R22, R24, R72, R77): a request issues when the landing buffer has space for its unit and the
stream's budget of the pacing window is not spent. It crosses the fabric as RESERVED where the stream has a budget,
else as BULK; without credit its source holds it, and the stream issues nothing more meanwhile. A group's units issue
by BCAST_UNIT_ISSUE. -/
def execFarRequestIssue (g stream : Nat) (s : State) : Res :=
  let c := cellOf s g
  match tget c.ins stream, cellOwner s g with
  | some x0, some p =>
    let x := skipNever x0.total x0
    let budget := c.seq.budgets.getD stream 0
    let paced := decide (budget ≠ 0) && x.contract
    let waits := s.fabric.held.any fun k => k.req == some (g, stream)
    if x.running && decide (x.desc.space = 2) && x.group.isNone && decide (x.requested < x.reqTotal) && !waits &&
        landingRoom c x 1 && (!paced || decide (pacedOf c stream < budget)) then
      let k : FabPkt := { src := g / 80, dst := 16 + keyMd (farKey s p (nextAddr x)),
                          cls := if paced then Traffic.reservedRead.cls else Traffic.data.cls, req := some (g, stream) }
      let c1 := if paced then { c with paced := tset c.paced stream (pacedOf c stream + 1) } else c
      if fabricFree s.fabric k.src k.dst k.cls k.bytes then
        .next (fabricPut (setCell s g { c1 with ins := tset c.ins stream { x with requested := x.requested + 1 } }) k)
      else
        let s1 := setCell s g { c1 with ins := tset c.ins stream x }
        .next { s1 with fabric := { s1.fabric with held := s1.fabric.held ++ [k] } }
    else .next (setCell s g { c with ins := tset c.ins stream x })
  | _, _ => .next s

/-- UNIT_ARRIVAL (R71): the next unit of a stream with contract times arrives early and waits in the landing
buffer. -/
def execUnitArrival (g stream : Nat) (s : State) : Res :=
  match cellOwner s g, tget (cellOf s g).ins stream with
  | some p, some x =>
    let k := x.deposited + x.landing.length
    if !x.running || !(contracted s p g stream x) || x.group.isSome || decide (x.total ≤ k) || unitNever x k ||
        (byRequest s p g x && decide (x.requested < needReqs x (k + 1))) then .next s
    else
      match (unitRuns x k).findSome? fun r => staleAt s p g x.desc.space r.1 r.2 with
      | some t => .next t
      | none =>
        if (unitRuns x k).any fun r => movingInto s p g x.desc.space r.1 r.2 then .next s
        else
          let u := unitOf s p g x k
          .next (modCell (readChecks (readEffects s p x k true) p g x k) g fun c =>
            { c with ins := tset c.ins stream { x with landing := x.landing ++ [u] } })
  | _, _ => .next s

/-- CONTRACT_DEPOSIT (R71). -/
def execContractDeposit (g stream : Nat) (s : State) : Res := .next (depositNext s g stream false)

/-- The scratchpads and Stratus of a die may be reached (R175). -/
def dieCleared (s : State) (d : Nat) : Bool := (odGet s Ad.cdClearDone).testBit d

/-- A write into a cell's scratchpad by another cell of its partition, the control core, host or fabric
(R93, R101, R232). Until the die's clear is done it waits (R175); one from another die's cell needs room in the die's
FIFO (R30). Another cell's of the die asks its bank port as STREAM_OUT, any other's as CONTROL (Table 6.2). -/
def depositWrite (s : State) (writer : Option Nat) (g addr : Nat) (data : List Byte) (poison : Bool) : State :=
  match cellOwner s g with
  | none => s
  | some p =>
    let ma := moveAddr s p g 0 addr
    let here := writer.any fun w => w / 80 = g / 80
    let k : FabPkt := { src := (writer.getD 0) / 80, dst := g / 80, cls := Traffic.data.cls, bytes := fabricBytes data.length }
    let far := writer.isSome && !here
    let ws := scratchWords (cellOf s g) false addr data.length
    if decide (2097152 < addr + data.length) || (far && !fabricFree s.fabric k.src k.dst k.cls k.bytes) then s
    else if !(dieCleared s (g / 80)) then
      modDie s (g / 80) fun d => { d with clearWaits := d.clearWaits ++ [⟨writer, g, addr, data, poison⟩] }
    else if moveInto s p 0 ma data.length then s
    else if !here && ws.any fun w => !portFree (cellOf s g) w then countLost s p 4 1
    else
      let s1 := if far then fabricPut s k else s
      match moveOver s1 p 0 ma data.length with
      | some r =>
        if r.vacated then staleErr s1 p r writer
        else
          let h : HeldWrite := { cell := none, offset := ma - r.src, data := data, poison := poison }
          holdWrite s1 p r h
      | none => scratchForeign (if here then bankAsk s1 p g 3 ws else s1) g addr data poison

/-- UNCONTRACTED_DEPOSIT (R73). -/
def execUncontractedDeposit (d : Deposit) (s : State) : Res :=
  match d with
  | .unit g stream => .next (depositNext s g stream true)
  | .write writer g addr data poison => .next (depositWrite s writer g addr data poison)

/-- PACING_WINDOW (R77): every stream of a die's cells has its budget again. -/
def execPacingWindow (die : Nat) (s : State) : Res :=
  .next { s with cells := s.cells.map fun e => if e.1 / 80 = die then (e.1, { e.2 with paced := [] }) else e }

/-- RESERVED_WINDOW (R79, R490): the die's groups have their reserved share again. -/
def execReservedWindow (md : Nat) (s : State) : Res := .next (modMd s md fun m => { m with reserved := [] })

/-! ## Semaphores -/

/-- An increment signalled by a unit of the part for a job (R88): on its way to the running job, kept with a
parked one (R367), or discarded and counted. -/
def signalSem (s : State) (p jobSeq sem count : Nat) (done : Bool) : State :=
  let q := partOf s p
  if q.job.any fun j => j.seq = jobSeq then
    modJob s p fun j => { j with incs := j.incs ++ [⟨none, jobSeq, sem, count, done, []⟩] }
  else if q.parked.any fun j => j.seq = jobSeq then
    modPart s p fun q => { q with parked := q.parked.map fun j =>
      if j.seq = jobSeq then { j with pendingIncs := tset j.pendingIncs sem ((tget j.pendingIncs sem).getD 0 + count) } else j }
  else odInc s (Ad.partSemDiscarded p)

/-- The first element that passes a test, and the list without it. -/
def takeFirst {α : Type} (f : α → Bool) : List α → Option (α × List α)
  | [] => none
  | a :: t => if f a then some (a, t) else (takeFirst f t).map fun r => (r.1, a :: r.2)

/-- An increment added at the home: above 65,535 it ends the job (R86). -/
def addSem (s : State) (p sem count : Nat) (cell : Option Nat) : State :=
  let n := semCount s p sem + count
  if 65535 < n then
    match cell with
    | some g => cellErr s g .semaphoreOverflow sem false
    | none => coreErr s p .semaphoreOverflow sem
  else modJob s p fun j => { j with sems := tset j.sems sem n }

/-- Every write a cell made before it signalled is visible (R86): none is held by a move or has lost its bank, and the
write streams then open have drained and their writes been granted. -/
def writesVisible (s : State) (p : Nat) (i : Inc) : Bool :=
  i.cell.all fun g =>
    let c := cellOf s g
    !writeHeld s p g && !(c.scratch.losers.any fun r => r.master == 2 && r.write.isSome) &&
      i.outs.all fun e => (tget c.outs e.1).all fun x => decide (x.start ≠ e.2) || (!x.running && decide (x.port = []))

/-- The ports of a semaphore increment across the fabric: from its cell's die to the home, where they differ. -/
def incPort (s : State) (p : Nat) (i : Inc) : Option (Nat × Nat) :=
  match i.cell with
  | none => none
  | some g => if semHome s p i.sem = g / 80 then none else some (g / 80, semHome s p i.sem)

/-- SEM_INCREMENT_RELEASE (R22, R86, R238): the first increment of a semaphore whose signaller's earlier writes are
visible reaches the home, across the fabric as MGMT where the home is another die. -/
def execSemIncrementRelease (p sem : Nat) (s : State) : Res :=
  match (partOf s p).job with
  | none => .next s
  | some j =>
    match takeFirst (fun i => i.sem == sem && writesVisible s p i) j.incs with
    | none => .next s
    | some (i, rest) =>
      let port := incPort s p i
      if port.any fun e => !fabricFree s.fabric e.1 e.2 Traffic.semaphore.cls 64 then .next s
      else
        let s0 := match port with
          | some e => fabricPut s { src := e.1, dst := e.2, cls := Traffic.semaphore.cls }
          | none => s
        let s1 := modJob s0 p fun j => { j with incs := rest }
        let s2 := if i.done && j.waiters.any (fun w => w.1 == sem) then odInc s1 (Ad.partPrefetchLate p) else s1
        .next (addSem s2 p sem i.count i.cell)

/-- The held bundle's wait is over after `n` CCLK and the `cost` CCLK of Table 3.1, and it issues (R82, R87, R89). The
cost is held too (R84), but is not of the wait beyond it. -/
def endWait (s : State) (g n cost : Nat) : State :=
  let s1 := modCell (waitCycles s g n) g fun c => c.after cost
  reissue (modSeq s1 g fun q => { q with status := .running, granted := true }) g

/-- SEM_GRANT (R87): the first SEM_WAIT waiting is granted, and its bundle issues. How long it waited is a
free value. -/
def execSemGrant (p sem : Nat) (s : State) : Res :=
  match (partOf s p).job with
  | none => .next s
  | some j =>
    match takeFirst (fun w => w.1 == sem) j.waiters with
    | none => .next s
    | some (w, rest) =>
      if semCount s p sem = 0 then .next s
      else
        let s1 := modJob (semTake s p sem) p fun j => { j with waiters := rest }
        let f := fresh s1
        .next (endWait f.2 w.2 f.1 4)

/-- SEM_TIMEOUT (R90): a cell held in one SEM_WAIT or FENCE beyond PART_SEM_TIMEOUT_US; 0 disables it. A FENCE of mode 0
has no semaphore to name, and 0 stands in its place, which is the model's choice (log 151). -/
def execSemTimeout (g : Nat) (s : State) : Res :=
  match cellOwner s g with
  | none => .next s
  | some p =>
    if latched s p (Ad.partSemTimeoutUs p) = 0 then .next s
    else
      match (cellOf s g).seq.status with
      | .waitSem sem => .next (cellErr s g .semTimeout sem false)
      | .waitPred sem => .next (cellErr s g .semTimeout sem false)
      | .waitFence => .next (cellErr s g .semTimeout 0 false)
      | _ => .next s

/-- FENCE mode 0's conditions beyond the write streams' (R89). -/
def fenceMet (s : State) (p g : Nat) : Bool :=
  let c := cellOf s g
  !(writeHeld s p g) && decide (c.scratch.losers = []) &&
    c.ins.all fun e => !e.2.running || decide (e.2.total ≤ e.2.deposited)

/-- Every write stream of a cell has drained and its writes have been granted, here and at the other dies. -/
def outsDone (s : State) (g : Nat) : Bool :=
  ((cellOf s g).outs.all fun e => !e.2.running && decide (e.2.port = [])) &&
    s.dies.all fun d => d.2.waiting.all fun w => decide (w.cell ≠ some g)

/-- FENCE_COMPLETE (R89): once every read stream has deposited its last unit and no write is held, the write
streams drain to their end and the bundle issues, `cycles` CCLK beyond the fence's own cost. -/
def execFenceComplete (g cycles : Nat) (s : State) : Res :=
  match cellOwner s g with
  | none => .next s
  | some p =>
    if (cellOf s g).seq.status = .waitFence ∧ fenceMet s p g then
      let s1 := drainOut s g
      if (cellOf s1 g).seq.status = .waitFence ∧ !writeHeld s1 p g ∧ outsDone s1 g then .next (endWait s1 g cycles 2)
      else .next s1
    else .next s

/-! ## Shadow pages -/

/-- The unit of a stream has been requested or has arrived (R95). -/
def inFlight (x : InStream) (k : Nat) : Bool :=
  decide (k < x.deposited + x.landing.length) || (decide (x.reqTotal ≠ 0) && decide (needReqs x (k + 1) ≤ x.requested))

/-- A running read stream has units left for a scratchpad page; with `flying`, units in flight. -/
def boundFor (c : Cell) (page : Nat) (flying : Bool) : Bool :=
  c.ins.any fun e =>
    let x := e.2
    x.running && !x.matrix && (List.range (x.total - x.deposited)).any fun i =>
      let k := x.deposited + i
      decide ((x.addr + 64 * k) / 8192 = page) && (!flying || inFlight x k)

/-- A running write stream has its far side in a page of a space. -/
def writesTo (x : OutStream) (space page : Nat) : Bool :=
  x.running && decide (x.desc.space = space) &&
    (farSpans x.desc x.tile []).any fun y => (pagesOf y.1.toNat y.2).any fun z => decide (z.1 % 2 ^ 29 / 8192 = page)

/-- The OPEN shadows of a cell tagged with a predicate, by entry. -/
def tagged (c : Cell) (pred : Nat) : List (Nat × Shadow) := c.shadows.filter fun e => e.2.state = 1 && e.2.pred = pred

/-- A shadow committed (R95): its page maps to its frame, and the old frame waits for the reads in flight. -/
def commitOne (s : State) (p g : Nat) (e : Nat × Shadow) : State :=
  let c := cellOf s g
  let d := g / 80
  let old := if e.2.space = 0 then (tget c.scratch.map e.2.page).getD e.2.page
    else (tget (dieOf s d).smap e.2.page).getD e.2.page
  let c1 := { c with shadows := tdel c.shadows e.1, busyFrames := c.busyFrames ++ [(e.2.space, old)] }
  let s1 := if e.2.space = 0 then
      setCell s g { c1 with scratch := { c1.scratch with map := tset c1.scratch.map e.2.page e.2.frame } }
    else modDie (setCell s g c1) d fun x => { x with smap := tset x.smap e.2.page e.2.frame }
  odInc s1 (Ad.partCommitPages p)

/-- The speculative amax entries of a predicate merged into the regular ones (R96). -/
def commitAmax (s : State) (g pred : Nat) : State :=
  let c := cellOf s g
  let mine := c.spec.filter fun x => x.pred = pred
  mine.foldl (fun t x => amaxFold t g x.entry false) (setCell s g { c with spec := c.spec.filter fun x => x.pred ≠ pred })

/-- The first unit of a stream that has not been requested (R95). -/
def firstUnasked (x : InStream) : Nat :=
  ((List.range (x.total - x.deposited)).find? fun i => !inFlight x (x.deposited + i)).elim x.total (x.deposited + ·)

/-- A shadow squashed (R95, R97): DRAINING while units in flight are bound for it, else FREE; the streams'
units for its page are discarded from now on, and those not yet requested never are. -/
def squashOne (s : State) (p g : Nat) (e : Nat × Shadow) : State :=
  let c := cellOf s g
  let drains := decide (e.2.space = 0) && boundFor c e.2.page true
  let c1 := if drains then { c with shadows := tset c.shadows e.1 { e.2 with state := 2 } }
    else { c with shadows := tdel c.shadows e.1, freeFrames := c.freeFrames ++ [(e.2.space, e.2.frame)] }
  let ins := if e.2.space = 0 then
      c1.ins.map fun x => (x.1, if x.2.running then { x.2 with dropped := x.2.dropped ++ [(e.2.page, firstUnasked x.2)] } else x.2)
    else c1.ins
  let outs := c1.outs.map fun x => (x.1, if x.2.running then { x.2 with dropped := x.2.dropped ++ [(e.2.space, e.2.page)] } else x.2)
  odAdd (odInc (setCell s g { c1 with ins := ins, outs := outs }) (Ad.partSquashPages p)) (Ad.partSquashBytes p) e.2.bytes

/-- PREDICATE_RESOLVE (R95): the predicate fence reads its semaphore and commits, squashes or fails. A commit
waits while units are still bound for the shadows. How long the fence held is a free value. -/
def execPredicateResolve (g : Nat) (s : State) : Res :=
  match cellOwner s g, (cellOf s g).seq.status with
  | some p, .waitPred sem =>
    let c := cellOf s g
    let es := tagged c sem
    match semCount s p sem with
    | 0 => .next s
    | 1 =>
      if es.any fun e => (decide (e.2.space = 0) && boundFor c e.2.page false) || c.outs.any fun x => writesTo x.2 e.2.space e.2.page then
        .next s
      else
        let s1 := commitAmax (es.foldl (fun t e => commitOne t p g e) s) g sem
        let f := fresh s1
        .next (endWait f.2 g f.1 6)
    | 2 =>
      let s1 := modCell (es.foldl (fun t e => squashOne t p g e) s) g fun c =>
        { c with spec := c.spec.filter fun x => x.pred ≠ sem }
      let f := fresh s1
      .next (endWait f.2 g f.1 4)
    | _ => .next (cellErr s g .predicateInvalid sem false)
  | _, _ => .next s

/-- SHADOW_OPEN refuses (R92). -/
def shadowBusy (s : State) (g space page : Nat) : Bool :=
  let c := cellOf s g
  !(c.freeFrames.any fun f => f.1 = space) ||
    (if space = 0 then (openShadow c 0 page).isSome || scratchWithheld c page
     else (dieShadow s (g / 80) page).isSome || stratusWithheld s (g / 80) page)

/-- The lowest free shadow entry. -/
def freeEntry (c : Cell) : Nat := ((List.range 64).find? fun k => (tget c.shadows k).isNone).getD 63

/-- SHADOW_OPEN (R92): the frame longest free is taken (log 20), or the open is refused. -/
def execShadowOpen (g space page pred : Nat) (s : State) : Res :=
  match cellOwner s g with
  | none => .next s
  | some _ =>
    if shadowBusy s g space page then .next (emit s (.shadowBusy g))
    else
      let c := cellOf s g
      match takeFirst (fun f => f.1 == space) c.freeFrames with
      | none => .next (emit s (.shadowBusy g))
      | some (f, rest) =>
        let x : Shadow := { state := 1, space := space, pred := pred, frame := f.2, page := page }
        .next (setCell s g { c with freeFrames := rest, shadows := tset c.shadows (freeEntry c) x })

/-- FRAME_FREED (R95). -/
def execFrameFreed (g space frame : Nat) (s : State) : Res :=
  let c := cellOf s g
  if c.busyFrames.contains (space, frame) then
    .next (setCell s g { c with busyFrames := c.busyFrames.filter (· != (space, frame)),
                                freeFrames := c.freeFrames ++ [(space, frame)] })
  else .next s

/-- SHADOW_DRAINED (R95, R97): once no unit in flight is bound for it, a DRAINING frame becomes FREE. The bytes
discarded were counted as they arrived. -/
def execShadowDrained (g space frame : Nat) (s : State) : Res :=
  let c := cellOf s g
  match c.shadows.find? fun e => e.2.state = 2 && e.2.space = space && e.2.frame = frame with
  | some e =>
    if space = 0 ∧ boundFor c e.2.page true then .next s
    else .next (setCell s g { c with shadows := tdel c.shadows e.1, freeFrames := c.freeFrames ++ [(space, frame)] })
  | none => .next s

/-! ## Broadcast groups and completion -/

/-- A member's stream still runs in its group. -/
def groupMember (s : State) (grp : Nat) (m : Nat × Nat) : Bool :=
  (tget (cellOf s m.1).ins m.2).any fun y => y.running && y.group == some grp

/-- A group's next unit delivered to every member whose stream runs (R115). A member takes the tile's extents of the
leader's stream with the unit, and keeps its own total and transform for the rest: the spec does not say what becomes
of a member whose tile differs in shape (log 152). -/
def bcastDeliver (s : State) (p die grp : Nat) (x : BGroup) (l : Nat × Nat × InStream) : State :=
  let n := needReqs l.2.2 (x.issued + 1) - needReqs l.2.2 x.issued
  let u := unitOf s p l.1 l.2.2 x.issued
  let s1 := readChecks (readEffects s p l.2.2 x.issued (decide ((cellOf s l.1).seq.budgets.getD l.2.1 0 ≠ 0))) p l.1 l.2.2 x.issued
  let s2 := (x.members.filter (groupMember s grp)).foldl (fun t m =>
    modCell t m.1 fun c =>
      match tget c.ins m.2 with
      | some y => { c with ins := tset c.ins m.2 { y with tile := l.2.2.tile, requested := y.requested + n, landing := y.landing ++ [u] } }
      | none => c) s1
  modDie s2 die fun d => { d with groups := tset d.groups grp { x with issued := x.issued + 1, requested := needReqs l.2.2 (x.issued + 1) } }

/-- The leader's stream at a group's next unit, for its requests' addresses. -/
def groupStream (x : BGroup) (l : InStream) : InStream := { l with requested := x.requested }

/-- BCAST_UNIT_ISSUE (R114, R115): once every member has started and has landing space, the leader's descriptors
supply the next unit, which is delivered to every member. A far-tier unit draws on the leader's budget and makes as
many of its requests as the window still allows; a Stratus unit takes one grant of the die and waits for it by
STRATUS_RETRY where the limits of R165 allow none. -/
def execBcastUnitIssue (die grp : Nat) (s : State) : Res :=
  match tget (dieOf s die).groups grp, dieOwner s die with
  | some x, some p =>
    match groupLead x with
    | none => .next s
    | some l =>
      let c := cellOf s l.1
      let budget := c.seq.budgets.getD l.2.1 0
      let need := needReqs l.2.2 (x.issued + 1)
      let per := need - needReqs l.2.2 x.issued
      let room := (x.members.filter (groupMember s grp)).all fun m => decide (landingUsed (cellOf s m.1) + 64 * per ≤ 65536)
      if x.members.length < x.bcount ∨ l.2.2.total ≤ x.issued ∨ !room then .next s
      else
        match (unitRuns l.2.2 x.issued).findSome? fun r => staleAt s p l.1 l.2.2.desc.space r.1 r.2 with
        | some t => .next t
        | none =>
          if (unitRuns l.2.2 x.issued).any fun r => movingInto s p l.1 l.2.2.desc.space r.1 r.2 then .next s
          else if l.2.2.desc.space = 2 then
            let left := if budget = 0 then need - x.requested else min (need - x.requested) (budget - pacedOf c l.2.1)
            let s1 := if budget = 0 then s else setCell s l.1 { c with paced := tset c.paced l.2.1 (pacedOf c l.2.1 + left) }
            if need ≤ x.requested + left then .next (bcastDeliver s1 p die grp x l)
            else .next (modDie s1 die fun d => { d with groups := tset d.groups grp { x with requested := x.requested + left } })
          else
            let d := dieOf s die
            let ch := stratusChannel (stratusPhys s die (some l.1) (nextAddr (groupStream x l.2.2) % 2 ^ 29))
            if !ownStratus s p l.1 l.2.2 then .next (bcastDeliver s p die grp x l)
            else if d.ungranted.any fun u => u.cell == l.1 % 80 then .next s
            else if grantable d ch then .next (bcastDeliver (modDie s die fun d => grantOne d ch) p die grp x l)
            else .next (modDie s die fun d => { d with ungranted := d.ungranted ++ [⟨l.1 % 80, false, true, grp, ch⟩] })
  | _, _ => .next s

/-- TILE_BCAST_TIMEOUT (R116): a group's first unit waits beyond PART_SEM_TIMEOUT_US for its last member. -/
def execTileBcastTimeout (die grp : Nat) (s : State) : Res :=
  match tget (dieOf s die).groups grp, dieOwner s die with
  | some x, some p =>
    if latched s p (Ad.partSemTimeoutUs p) ≠ 0 ∧ x.issued = 0 ∧ x.members.length < x.bcount then
      .next (cellErr s (x.members.headD (80 * die, 0)).1 .tileBcastTimeout grp false)
    else .next s
  | _, _ => .next s

/-- DIE_TREE_OUTPUT (R98): every cell of the die has raised its done input. -/
def execDieTreeOutput (die : Nat) (s : State) : Res :=
  if (List.range 80).all fun c => (cellOf s (80 * die + c)).seq.doneInput then
    .next (modDie s die fun d => { d with treeDone := true })
  else .next s

end Sys2Proof.Machine
end

