-- ==== Sys2Proof/Machine/OnPackage.lean ====
section
/-!
DEFINITION. The control core's page walks (R144 to R149), and the rows of the scratchpads and the Stratus
layer: bank retries, Stratus grants, patrol scrub and the clear of a waking die (R157 to R176).
-/

namespace Sys2Proof.Machine

/-! ## Page walks -/

/-- A walk descriptor's fields (Table 5.5) for control core `k` of a partition. -/
def Walk.ofBytes (k : Nat) (bs : List Byte) : Walk :=
  { k := k, table := fieldLE bs 0 8, count := fieldLE bs 8 4, npad := fieldLE bs 12 4, nullPage := fieldLE bs 16 8
    d := fieldLE bs 24 2, ring := fieldLE bs 26 2, cell := fieldLE bs 28 1, nslot := fieldLE bs 29 1
    full := fieldLE bs 30 1, free := fieldLE bs 31 1, bcast := fieldLE bs 32 1, bcount := fieldLE bs 33 1 }

/-- A walk descriptor is refused (R149): COUNT above NPAD, a reserved byte, or a field out of its range. The null page is
a far-tier page (log 21). -/
def walkInvalid (s : State) (p : Nat) (w : Walk) (desc : List Byte) : Bool :=
  (slice desc 34 30).any (· != 0) || (decide (w.bcast ≠ 0) && (decide (w.bcount < 2) || decide (80 < w.bcount))) ||
  decide (w.npad < w.count) || decide (w.npad = 0) || decide (2 ^ 24 < w.npad) || !([64, 128, 192, 256].contains w.d) ||
    decide (79 < w.cell) || decide (w.nslot = 0) || decide (16 < w.nslot) || decide (15 < w.bcast) ||
    decide (w.table % 16 ≠ 0) || (addrFault s p 2 w.table (16 * w.count)).isSome ||
    decide (2097152 < 64 * w.ring + 2048 * w.nslot) ||
    decide (w.nullPage % 256 ≠ 0) || (addrFault s p 2 w.nullPage (kvPageBytes 2 w.d)).isSome

/-- The walk numbers of control core `k`: eight at once (R148). -/
def freeWalk (q : Part) (k : Nat) : Option Nat :=
  ((List.range 8).map (8 * k + ·)).find? fun i => (tget q.walks i).isNone

/-- WALK_START (R145, R149): control core `k` is that of the partition's die `k`. A ninth walk of one control core
waits. -/
def execWalkStart (p k : Nat) (desc : List Byte) (s : State) : Res :=
  let q := partOf s p
  match q.job, freeWalk q k with
  | some _, some i =>
    let w := Walk.ofBytes k desc
    if q.dies.length ≤ k then .next s
    else if walkInvalid s p w desc then .next (coreErrAt s p k .kvPageInvalid w.table)
    else .next (modPart s p fun q => { q with walks := tset q.walks i w })
  | _, _ => .next s

/-- How many of `n` further entries a walk fetches: within COUNT and 64 held ahead, in whole 32 B reads of two entries
(R144, R148). -/
def walkFetch (x : Walk) (n : Nat) : Nat :=
  let first := x.next + x.fetched.length
  let ahead := 64 - x.fetched.length
  let left := x.count - first
  let m := min n (min ahead left)
  if m ≠ 0 ∧ m < left ∧ (x.table / 16 + first + m) % 2 = 1 then (if m < ahead then m + 1 else m - 1) else m

/-- WALK_ENTRY_FETCH (R144, R148, R195): up to `n` further entries, each read of two a Drizzle request. One that meets the
destination of a move or a range under maintenance waits, and one in a VACATED range ends the job (R232, R235). -/
def execWalkEntryFetch (p w n : Nat) (s : State) : Res :=
  match tget (partOf s p).walks w with
  | none => .next s
  | some x =>
    let m := walkFetch x n
    let a := spaceAddr 2 x.table + 16 * (x.next + x.fetched.length)
    match (moveOver s p 2 a (16 * m)).filter (·.vacated) with
    | some r => .next (coreErrAt s p x.k .objectStale r.obj)
    | none =>
      if moveInto s p 2 a (16 * m) || maintRuns s p a (16 * m) then .next s
      else
        let es := (List.range m).map fun i => farView s p (a + 16 * i) 16
        let reads := if m = 0 then [] else (List.range ((a + 16 * m - 1) / 32 - a / 32 + 1)).map (a / 32 + ·)
        let s1 := reads.foldl (fun t u => farRead t p (32 * u) 32 3) s
        .next (modPart s1 p fun q => { q with walks := tset q.walks w { x with fetched := x.fetched ++ es } })

/-- A page table entry's fields (Table 5.4). -/
structure PageEnt where
  valid : Bool
  format : Nat
  space : Nat
  step : Bool
  count : Nat
  first : Nat
  seg : Nat
  addr : Nat
  deriving DecidableEq, Repr

/-- The fields of an entry's 16 bytes. -/
def PageEnt.ofBytes (bs : List Byte) : PageEnt :=
  let v := leNat bs
  ⟨bit v 127, bits v 126 125, if bit v 124 then 2 else 1, bit v 123, bits v 118 112, bits v 95 64, bits v 63 48, bits v 47 0⟩

/-- An entry that may not be emitted (R149). A COUNT above 64 and the SEG 0xFFFF lie outside Table 5.4's ranges but not in
R149's list; that they are refused with it is the model's choice (log 156). -/
def pageInvalid (s : State) (p d : Nat) (e : PageEnt) : Bool :=
  !e.valid || decide (e.format = 3) || decide (e.count = 0) || decide (64 < e.count) || decide (e.seg = 0xFFFF) ||
    decide (spaceAddr e.space e.addr % 256 ≠ 0) || (addrFault s p e.space e.addr (kvPageBytes e.format d)).isSome

/-- A slot's stream and tile descriptors for chunk `j` (R146): K chunks run along dimensions, V chunks along
slots. -/
def slotDescs (w : Walk) (e : PageEnt) (v : Bool) (j : Nat) : List Byte :=
  let word0 := 7 * 2 ^ 52 + e.space * 2 ^ 48 + e.addr
  let param := (if v then 128 else 0) + e.format * 32 + (w.d / 64 - 1) * 8
  let stream := leBytes 8 word0 ++ (List.replicate 5 (leBytes 4 1)).flatten ++ leBytes 20 0 ++ leBytes 8 param ++ leBytes 8 0
  let ext := if v then (e.count, w.d) else (w.d, e.count)
  let org := if v then (0, 64 * j) else (64 * j, 0)
  let cap := if v then (64, 256) else (256, 64)
  let tile := leBytes 4 ext.1 ++ leBytes 4 ext.2 ++ leBytes 4 org.1 ++ leBytes 4 org.2 ++ leBytes 2 64 ++ leBytes 2 64 ++
    leBytes 4 cap.1 ++ leBytes 4 cap.2 ++ leBytes 8 0 ++ leBytes 1 0 ++ leBytes 1 1 ++ leBytes 1 w.bcast ++ leBytes 1 w.bcount ++
    leBytes 24 0
  stream ++ tile

/-- The 2 KiB of a ring slot (R146, R147); `marks` are the key marks and `ords` the key orders of the 64
slots. -/
def slotBytes (w : Walk) (e : PageEnt) (marks ords : List Nat) : List Byte :=
  let vec := fun (l : List Nat) => l.flatMap (leBytes 4) ++ l.flatMap (leBytes 4)
  let chunks := fun v => (List.range 4).flatMap fun j => if j < w.d / 64 then slotDescs w e v j else leBytes 128 0
  vec marks ++ vec ords ++ chunks false ++ chunks true

/-- The cell a walk fills, and the address of its next slot. -/
def walkCell (s : State) (p : Nat) (w : Walk) : Nat := 80 * (partOf s p).dies.getD w.k 0 + w.cell

/-- The scratchpad address of a walk's next slot. -/
def slotAddr (w : Walk) : Nat := 64 * w.ring + 2048 * (w.next % w.nslot)

/-- A ring slot emitted: written by the control core, FULL signalled, the page counted (R145, R147). -/
def emitSlot (s : State) (p i : Nat) (w : Walk) (e : PageEnt) (marks ords : List Nat) (null : Bool) : State :=
  let s1 := scratchForeign s (walkCell s p w) (slotAddr w) (slotBytes w e marks ords) false
  let s2 := odInc s1 (Ad.partKvPagesWalked p)
  let s3 := if null then odInc s2 (Ad.partKvNullPages p) else s2
  let s4 := modJob s3 p fun j => { j with incs := j.incs ++ [⟨none, j.seq, w.full, 1, false, []⟩] }
  modPart s4 p fun q =>
    if w.npad ≤ w.next + 1 then { q with walks := tdel q.walks i }
    else { q with walks := tset q.walks i { w with next := w.next + 1, fetched := w.fetched.drop 1 } }

/-- WALK_SLOT_FILL (R145 to R149): once FREE has been waited on where the ring has come round, and the entry
fetched. The order vector of a null page is a free value. A slot in a range of a move waits for its end, or ends the job
(R232, R235, log 158). -/
def execWalkSlotFill (p w : Nat) (s : State) : Res :=
  match tget (partOf s p).walks w with
  | none => .next s
  | some x =>
    let again := decide (x.nslot ≤ x.next)
    let ma := moveAddr s p (walkCell s p x) 0 (slotAddr x)
    let held := moveOver s p 0 ma 2048
    if again ∧ semCount s p x.free = 0 then .next s
    else if held.any (·.vacated) then .next (coreErrAt s p x.k .objectStale (held.elim 0 MoveRec.obj))
    else if held.isSome ∨ moveInto s p 0 ma 2048 then .next s
    else
      let take := fun (t : State) => if again then semTake t p x.free else t
      if x.count ≤ x.next then
        let f := fresh s
        let e : PageEnt := ⟨true, 2, 2, false, 1, 0, 0, x.nullPage % 2 ^ 48⟩
        let ords := (List.range 64).map fun t => f.1 / 2 ^ (32 * t) % 2 ^ 32
        .next (emitSlot (take f.2) p w x e (List.replicate 64 0x00010000) ords true)
      else
        match x.fetched with
        | [] => .next s
        | (bs, poison) :: _ =>
          let e := PageEnt.ofBytes bs
          if poison then .next (coreErrAt s p x.k .poisonConsumed (x.table + 16 * x.next))
          else if pageInvalid s p x.d e then .next (coreErrAt s p x.k .kvPageInvalid (x.table + 16 * x.next))
          else
            let marks := (List.range 64).map fun t => if t < e.count then e.seg else 0x00010000
            let ords := (List.range 64).map fun t => if e.step then (e.first + t) % 2 ^ 32 else e.first
            .next (emitSlot (take s) p w x e marks ords false)

/-! ## Scratchpad and Stratus -/

/-- BANK_RETRY (R32, R158): the requests that lost in the CCLK before are made again; no CCLK passes in a clock hold. -/
def execBankRetry (g : Nat) (s : State) : Res :=
  match cellOwner s g with
  | none => .next s
  | some p =>
    if (dieOf s (g / 80)).hold ∨ (cellOf s g).scratch.losers = [] then .next s else .next (bankRound s p g [] false)

/-- The correction a scrub has still to write to a bank's word, made (R163). -/
def scrubWriteBack (s : State) (g bank : Nat) : State :=
  match tget (cellOf s g).scratch.scrubBack bank with
  | none => s
  | some w => modCell s g fun c => { c with scratch := { c.scratch with
      upsets := c.scratch.upsets.filter fun u => u.word != w
      scrubBack := tdel c.scratch.scrubBack bank } }

/-- The scrub's visit to the word of a bank whose turn it is: checked, its correction to be written back at the next visit
(log 159); a poisoned word is never written back (R163). -/
def scrubVisit (s : State) (g bank : Nat) : State :=
  let row := (tget (cellOf s g).scratch.scrubRow bank).getD 0
  let w := 16 * row + bank
  let found := (cellOf s g).scratch.upsets.any fun u => u.word == w
  let s1 := if (cellOf s g).scratch.poison.contains w then s else scratchCheck s g [w]
  modCell s1 g fun c =>
    let back := found && !c.scratch.poison.contains w
    { c with scratch := { c.scratch with
        scrubRow := tset c.scratch.scrubRow bank ((row + 1) % 2048)
        scrubBack := if back then tset c.scratch.scrubBack bank w else c.scratch.scrubBack
        asked := if c.seq.status = .running then c.scratch.asked ++ [(bank, 5)] else c.scratch.asked } }

/-- SCRATCH_SCRUB (R163): bits flip as `upsets` says; in a CCLK in which no other master requests the bank, the scrub makes
its write-back and visits the bank's next row. -/
def execScratchScrub (g bank : Nat) (upsets : List Upset) (s : State) : Res :=
  let s0 := upsetScratch s g upsets
  let c := cellOf s0 g
  let busy := ((takenPorts c).any fun x => x.1 == bank) || c.scratch.losers.any fun r => r.addr / 64 % 16 == bank
  if busy ∨ (dieOf s (g / 80)).hold then .next s0 else .next (scrubVisit (scrubWriteBack s0 g bank) g bank)

/-- The order of R168: broadcast units first, then ascending cell. -/
def stratusOrder (rs : List StratusReq) : List StratusReq :=
  (rs.filter (·.bcast)).mergeSort (fun a b => decide (a.cell ≤ b.cell)) ++
    (rs.filter fun r => !r.bcast).mergeSort (fun a b => decide (a.cell ≤ b.cell))

/-- A read stream whose next Stratus request is ready: landing space is free for it (R72, R166), and no move or
maintenance holds its unit back (R232). -/
def readReady (s : State) (p g : Nat) (c : Cell) (x0 : InStream) : Option InStream :=
  let x := skipNever x0.total x0
  let k := x.deposited + x.landing.length
  if x.running && x.group.isNone && ownStratus s p g x && decide (x.desc.xform ≠ 11) && decide (x.requested < x.reqTotal) &&
      landingRoom c x 1 && !((unitRuns x k).any fun r => movingInto s p g 1 r.1 r.2) then some x
  else none

/-- What a cell's Stratus port issues in a CCLK (R166): the next unit of the first of read streams 0 to 3 and write streams
0 and 1 that has one ready. -/
def portRequest (s : State) (p g : Nat) : Option StratusReq :=
  let c := cellOf s g
  let d := g / 80
  let chan := fun a => stratusChannel (stratusPhys s d (some g) (a % 2 ^ 29))
  let reads := (List.range 4).findSome? fun k => ((tget c.ins k).bind (readReady s p g c)).map fun x =>
    (⟨g % 80, false, false, k, chan (nextAddr x)⟩ : StratusReq)
  reads.orElse fun _ => (List.range 2).findSome? fun k =>
    ((tget c.outs k).bind fun x => x.port.head?).map fun w => ⟨g % 80, true, false, k, chan w.addr⟩

/-- The units of a stream whose requests have all been granted arrive in its landing buffer, as the die's Stratus stands
(R167, R169). -/
def landUnits : Nat → State → Nat → Nat → Nat → State
  | 0, s, _, _, _ => s
  | n + 1, s, p, g, stream =>
    match tget (cellOf s g).ins stream with
    | none => s
    | some x =>
      let k := x.deposited + x.landing.length
      if x.total ≤ k ∨ x.requested < needReqs x (k + 1) then s
      else
        let u := if unitNever x k then { index := k, bytes := [], poison := false } else unitOf s p g x k
        let s1 := if unitNever x k then s else readChecks s p g x k
        landUnits n (modCell s1 g fun c => { c with ins := tset c.ins stream { x with landing := x.landing ++ [u] } }) p g stream

/-- A scheduled access granted takes effect (R167 to R169): a read's unit lands with its last request, a write is stored, a
broadcast unit is delivered. -/
def grantAccess (s : State) (p die : Nat) (r : StratusReq) : State :=
  let g := 80 * die + r.cell
  if r.bcast then
    match tget (dieOf s die).groups r.stream with
    | some x =>
      match groupLead x with
      | some l => bcastDeliver s p die r.stream x l
      | none => s
    | none => s
  else if r.write then
    match tget (cellOf s g).outs r.stream with
    | some x =>
      match x.port with
      | w :: rest =>
        let s1 := modCell s g fun c => { c with outs := tset c.outs r.stream { x with port := rest } }
        stratusWrite s1 p (some g) w.addr w.bytes w.poison
      | [] => s
    | none => s
  else
    match tget (cellOf s g).ins r.stream with
    | some x0 =>
      let x := skipNever x0.total x0
      let k := x.deposited + x.landing.length
      match (unitRuns x k).findSome? fun y => staleAt s p g 1 y.1 y.2 with
      | some t => t
      | none =>
        landUnits x.total (modCell s g fun c => { c with ins := tset c.ins r.stream { x with requested := x.requested + 1 } }) p g r.stream
    | none => s

/-- Scheduled accesses granted in order while R165 allows; the rest are retried (R168). -/
def grantAll (s : State) (p die : Nat) : List StratusReq → State
  | [] => s
  | r :: t =>
    if grantable (dieOf s die) r.channel then
      grantAll (anem (grantAccess (modDie s die fun d => grantOne d r.channel) p die r) die 4 1) p die t
    else grantAll (modDie s die fun d => { d with ungranted := d.ungranted ++ [r] }) p die t

/-- STRATUS_RETRY (R165 to R168): the next CCLK of a die's Stratus, after `idle` in which nothing is asked. The accesses not
granted before are made again with those the cells' ports now issue; a port issues nothing new while its cell has an
ungranted access. The count pauses during a clock hold. -/
def execStratusRetry (die idle : Nat) (upsets : List Upset) (s : State) : Res :=
  let s0 := upsetStratus s die upsets
  match dieOwner s die with
  | none => .next s0
  | some p =>
    if (dieOf s die).hold then .next s0
    else
      let old := (dieOf s0 die).ungranted
      let new := (List.range 80).filterMap fun c =>
        if old.any fun u => u.cell == c then none else portRequest s0 p (80 * die + c)
      let s1 := modDie s0 die fun d => { atCycle d (d.cyc + 1 + idle) with ungranted := [] }
      .next (grantAll s1 p die (stratusOrder (old ++ new)))

/-- The physical unit an unscheduled access meets. -/
def waitUnit (s : State) (die : Nat) (w : StratusWait) : Nat := stratusPhys s die w.cell w.offset / 64

/-- An unscheduled access granted takes effect (R171, R172). -/
def grantWait (s : State) (die : Nat) (w : StratusWait) : State :=
  match w.write with
  | none => stratusCheck s die [waitUnit s die w]
  | some (bs, poison) =>
    stratusWrite s w.part w.cell ((partOf s w.part).dies.idxOf die * 2 ^ 29 + w.offset) bs poison

/-- UNSCHEDULED_STRATUS_GRANT (R171): `idle` CCLK on, the accesses of `arrived` join the die's queue; the first that waits
for `chan` is granted where the scheduled accesses leave room. -/
def execUnscheduledStratusGrant (die idle chan : Nat) (arrived : List StratusAccess) (s : State) : Res :=
  match dieOwner s die with
  | none => .next s
  | some p =>
    let new := arrived.map fun x => (⟨p, none, x.offset, x.write⟩ : StratusWait)
    let s1 := modDie s die fun d =>
      { (if d.hold then d else atCycle d (d.cyc + idle)) with waiting := d.waiting ++ new }
    let d := dieOf s1 die
    match if d.hold then none else d.waiting.find? fun w => stratusChannel (64 * waitUnit s1 die w) == chan with
    | none => .next s1
    | some w =>
      if spareGrant d chan then
        .next (anem (grantWait (modDie s1 die fun d => { grantOne d chan with waiting := d.waiting.erase w }) die w) die 4 1)
      else .next s1

/-- The correction a scrub has still to write to a channel's unit, made (R172). -/
def stratusWriteBack (s : State) (die chan : Nat) : State :=
  match tget (dieOf s die).scrubBack chan with
  | none => s
  | some u => modDie s die fun d =>
      { d with upsets := d.upsets.filter fun x => x.word != u, scrubBack := tdel d.scrubBack chan }

/-- The scrub's visit to the unit of a channel whose turn it is (R172). -/
def stratusVisit (s : State) (die chan : Nat) : State :=
  let n := (tget (dieOf s die).scrubUnit chan).getD 0
  let u := 64 * n + chan
  let found := (dieOf s die).upsets.any fun x => x.word == u
  let s1 := if (dieOf s die).stratusPoison.contains u then s else stratusCheck s die [u]
  modDie s1 die fun d =>
    let back := found && !d.stratusPoison.contains u
    { grantOne d chan with
        scrubUnit := tset d.scrubUnit chan ((n + 1) % 131072)
        scrubBack := if back then tset d.scrubBack chan u else d.scrubBack }

/-- STRATUS_SCRUB (R171, R172): bits flip as `upsets` says; the scrub visits the channel's next unit as an unscheduled
access, where no other waits and the scheduled ones leave room. -/
def execStratusScrub (die chan : Nat) (upsets : List Upset) (s : State) : Res :=
  let s0 := upsetStratus s die upsets
  let d := dieOf s0 die
  let waits := d.waiting.any fun w => stratusChannel (64 * waitUnit s0 die w) == chan
  if d.hold || waits || !spareGrant d chan then .next s0
  else .next (stratusVisit (stratusWriteBack s0 die chan) die chan)

/-- DIE_CLEAR (R174): a die whose rails are up and whose clear has not been made starts clearing. -/
def execDieClear (die : Nat) (s : State) : Res :=
  if (dieOf s die).railsUp && !dieCleared s die then .next (modDie s die fun d => { d with clearing := true })
  else .next s

/-- The scratchpads and the Stratus of a die written with zeros, unpoisoned (R174, R176). -/
def clearDie (s : State) (die : Nat) : State :=
  let s1 := { s with cells := s.cells.map fun e =>
    if e.1 / 80 = die then
      let sc : Scratch := { e.2.scratch with mem := [], poison := [], losers := [], vld := none, asked := [], upsets := [], scrubBack := [] }
      (e.1, { e.2 with scratch := sc })
    else e }
  modDie s1 die fun d => { d with stratus := [], stratusPoison := [], upsets := [], scrubBack := [] }

/-! ## Accesses of units that are no cell to Stratus and the host tier (R175, R232, R235) -/

/-- An access of such a unit waits: for a move to its range, or in Stratus for a die's clear. -/
def unitHolds (s : State) (p space a n : Nat) : Bool :=
  moveInto s p space a n || (decide (space = 1) && (pagesOf a n).any fun y => !dieCleared s (stratusDie s p y.1))

/-- Bytes stored in Stratus or the host tier by such a unit. -/
def unitStore (s : State) (p space a : Nat) (bs : List Byte) (poison : Bool) : State :=
  if space = 1 then stratusWrite s p none a bs poison
  else hostStore s p a bs poison

/-- A write of such a unit: ending the job at a VACATED source, waiting, held at its owner where it meets the source of a
MOVING record, or made. -/
def unitPlace (s : State) (p : Nat) (w : UnitWait) : State :=
  match (moveOver s p w.space w.addr w.data.length).filter (·.vacated) with
  | some r => staleErr s p r none
  | none =>
    if unitHolds s p w.space w.addr w.data.length then modPart s p fun q => { q with unitWaits := q.unitWaits ++ [w] }
    else
      (movePieces w.space (partOf s p).moves w.addr w.data.length).foldl (fun t y =>
        let xs := slice w.data (y.1 - w.addr) y.2.1
        match y.2.2 with
        | none => unitStore t p w.space y.1 xs w.poison
        | some r => holdWrite t p r { cell := none, offset := y.1 - r.src, data := xs, poison := w.poison, writer := w.writer }) s

/-- A partition's waiting writes looked at again, in order. -/
def wakeUnits (s : State) (p : Nat) : State :=
  (partOf s p).unitWaits.foldl (fun t w => unitPlace t p w) (modPart s p fun q => { q with unitWaits := [] })

/-- DIE_CLEAR_DONE (R174, R175): both clears finished, the die's CD_CLEAR_DONE bit set, and the accesses that waited for it
made in order. -/
def execDieClearDone (die : Nat) (s : State) : Res :=
  if (dieOf s die).clearing then
    let s1 := odOr (modDie (clearDie s die) die fun d => { d with clearing := false, clearWaits := [] }) Ad.cdClearDone (2 ^ die)
    .next (s1.parts.foldl (fun t x => wakeUnits t x.1)
      ((dieOf s die).clearWaits.foldl (fun t w => depositWrite t w.writer w.cell w.addr w.data w.poison) s1))
  else .next s

end Sys2Proof.Machine
end

