-- ==== Sys2Proof/Machine/FarTier.lean ====
section
/-!
DEFINITION. The rows of the far tier and the host tier: line and Drizzle requests, cache maintenance,
refresh and timeouts (R178 to R206), with the codecs of R207 to R227 on their way.
-/

namespace Sys2Proof.Machine

/-! ## What every request meets first -/

/-- A far-tier request that fails (R59, R186, R235): its error raised. Hint 3 is the Drizzle path's, which has none. -/
def farFail (s : State) (p addr hint n : Nat) (cell : Option Nat) : Option State :=
  let fail := fun c => match cell with
    | some g => cellErr s g c addr false
    | none => coreErr s p c addr
  if 4 ≤ hint ∨ 2 ^ 41 ≤ addr then some (fail .addressFormatInvalid)
  else if farSize s p < addr + n then some (fail .streamBounds)
  else ((moveOver s p 2 addr n).filter (·.vacated)).map fun r => staleErr s p r cell

/-- A far-tier request waits at its memory die: for the end of a move to its range, or of a maintenance operation over it
(R194, R232). -/
def farWaits (s : State) (p addr n : Nat) : Bool := moveInto s p 2 addr n || maintRuns s p addr n

/-- The channel of a key. -/
def keyChannel (k : Nat) : Nat := k / 2 ^ 33

/-- A request's place in its memory die. -/
def FarReq.place (s : State) (r : FarReq) : Nat :=
  match r with
  | .read p a _ _ _ => farKey s p a
  | .write p a _ _ _ _ => farKey s p a

/-- A request of the Drizzle path. -/
def FarReq.drizzle (r : FarReq) : Bool :=
  match r with
  | .read _ _ _ hint _ => hint == 3
  | .write _ _ hint _ _ _ => hint == 3

/-- The Drizzle requests in a channel's queue (R196). -/
def drizzleQueued (s : State) (chan : Nat) : Nat :=
  ((mdOf s (chan / 96)).waits.filter fun r => r.drizzle && keyChannel (r.place s) == chan).length

/-- A request that must wait joins its memory die's queue; a Drizzle request only where its channel's queue of 64 has room
(R196). -/
def joinWaits (s : State) (r : FarReq) : State :=
  let k := r.place s
  if r.drizzle && decide (64 ≤ drizzleQueued s (keyChannel k)) then s
  else modMd s (keyMd k) fun m => { m with waits := m.waits ++ [r] }

/-- A line whose tag fails beyond correction (R487): invalidated unwritten; the partition that owns its way
is contained, and in a way of no partition it is only counted (log 22). -/
def tagError (s : State) (md set way : Nat) : State :=
  let s1 := modMd s md fun m => { m with lines := m.lines.filter fun l => !(l.set = set && l.way = way) }
  match s.parts.find? fun e => e.2.usable.any (· / 4 = md) && (partWays s e.1 md).contains way with
  | some e => containErr s1 e.1 .mscTagUncorrectable ((0x10 + md) * 256) 0 way none
  | none => countTotal s1 1 1

/-- Bytes written by one that is not a cell: what meets the source of a MOVING record is held at its owner (R232). -/
def unitWrite (s : State) (p a hint : Nat) (src : Writer) (bs : List Byte) (poison : Bool) : State :=
  (movePieces 2 (partOf s p).moves a bs.length).foldl (fun t y =>
    let xs := slice bs (y.1 - a) y.2.1
    match y.2.2 with
    | none => (blocksOf y.1 y.2.1).foldl (fun u x => writePiece u p x.1 hint src (slice xs (x.1 - y.1) x.2) poison true) t
    | some r => holdWrite t p r { cell := none, offset := y.1 - r.src, data := xs, poison := poison, hint := hint, writer := src }) s

/-- A far-tier request made. -/
def farDo (s : State) (r : FarReq) : State :=
  match r with
  | .read p a n hint reserved => farRead (if reserved then admitReserved s p a n else s) p a n hint
  | .write p a hint src data poison =>
    match writerCell src with
    | some g => spaceWrite s p g 2 (hint * 2 ^ 46) a data poison
    | none => unitWrite s p a hint src data poison

/-- A far-tier request of `n` bytes: failed, waiting, or made. -/
def farRequest (s : State) (p a hint n : Nat) (cell : Option Nat) (r : FarReq) : State :=
  match farFail s p a hint n cell with
  | some t => t
  | none => if farWaits s p a n then joinWaits s r else farDo s r

/-- The requests of a list that need wait no longer are made in order; the others wait on (R194, R232). -/
def retryWaits (s : State) : List FarReq → State
  | [] => s
  | r :: t =>
    retryWaits (match r with
      | .read p a n hint _ => farRequest s p a hint n none r
      | .write p a hint src data _ => farRequest s p a hint data.length (writerCell src) r) t

/-- A far-tier access of a control core that does not go on: it waits, or ends the job (R194, R232, R235). -/
def coreStop (s : State) (p k a n : Nat) : Option State :=
  match (moveOver s p 2 a n).filter (·.vacated) with
  | some r => some (coreErrAt s p k .objectStale r.obj)
  | none => if farWaits s p a n then some s else none

/-- The waiting requests of a memory die looked at again. -/
def wakeMd (s : State) (m : Nat) : State := retryWaits (modMd s m fun d => { d with waits := [] }) (mdOf s m).waits

/-- The waiting requests of every memory die, and the other waiting writes of units, looked at again. -/
def wakeMds (s : State) : State := s.parts.foldl (fun t x => wakeUnits t x.1) ((List.range 4).foldl wakeMd s)

/-- A write of a media or network die at an address of a space (Table 12.5), with the hint of far-tier accesses. -/
def unitPut (s : State) (p : Nat) (src : Writer) (space hint a : Nat) (bs : List Byte) (poison : Bool) : State :=
  if bs = [] then s
  else if space = 2 then
    farRequest s p a (farPath a bs.length hint) bs.length none (.write p a (farPath a bs.length hint) src bs poison)
  else unitPlace s p ⟨src, space, a, bs, poison⟩

/-- A read of such a die that does not go on: it ends the job (R235), or waits (R175, R194, R232). -/
def unitReadStop (s : State) (p space a n : Nat) : Option State :=
  match (moveOver s p space a n).filter (·.vacated) with
  | some r => some (staleErr s p r none)
  | none => if unitHolds s p space a n || (decide (space = 2) && maintRuns s p a n) then some s else none

/-- What a read of such a die does (R172, R191, R195); a host read counts its bytes. -/
def unitReads (s : State) (p space hint a n : Nat) : State :=
  match space with
  | 1 => stratusSeen s p none a n
  | 2 => farRead s p a n (farPath a n hint)
  | _ => odAdd s (Ad.partHostBytes p) n

/-- The bits a symbol's error flips. -/
def symWeight (e : SymErr) : Nat := (List.range 16).countP fun i => e.flip.getLsbD i

/-- Errors in one block: in its cache line's data, checked per 8 B (Table 17.3), where one wrong bit is corrected and counted
and more poison the line; else in the devices. -/
def blockErrs (s : State) (p base : Nat) (es : List SymErr) : State :=
  let k := farKey s p base
  match lineFor s p (k / 256) with
  | none => injectFlips s p base (es.map fun e => { e with block := 0 })
  | some l =>
    let wrong := (List.range 32).map fun i => ((es.filter fun e => e.symbol / 4 = i).map symWeight).sum
    let unit := (0x10 + keyMd k) * 256
    if wrong.any (2 ≤ ·) then
      deferred (modLines s l.block fun ls => ls.map fun x => if x = l then { l with poison := 255 } else x) (some p) .dataPoisoned unit base
    else (wrong.filter (· = 1)).foldl (fun t _ => corrected (odInc t (Ad.memGroupEccCorrected (farGroup t p base))) (some p) unit base) s

/-- Errors in the blocks from a request's on. -/
def injectErrs (s : State) (p a : Nat) (errs : List SymErr) : State :=
  ((errs.map SymErr.block).eraseDups).foldl (fun t b => blockErrs t p (blockBase a + 256 * b) (errs.filter fun e => e.block = b)) s

/-- LINE_READ (R182, R191, R218): bits flip as `errs` says, then the read is made. -/
def execLineRead (p addr len hint : Nat) (reserved : Bool) (errs : List SymErr) (tagFail : Option Nat) (s : State) : Res :=
  match if hint = 3 then farFail s p addr 4 len none else farFail s p addr hint len none with
  | some t => .next t
  | none =>
    let s1 := injectErrs s p addr errs
    let k := farKey s1 p addr
    let s2 := match tagFail with
      | some w => tagError s1 (keyMd k) (mscSet (k / 256)) w
      | none => s1
    .next (farRequest s2 p addr hint len none (.read p addr len hint reserved))

/-- LINE_WRITE (R183, R184, R191, R216). -/
def execLineWrite (p addr hint : Nat) (src : Writer) (data : List Byte) (poison : Bool) (s : State) : Res :=
  .next (farRequest s p addr (if hint = 3 then 4 else hint) data.length (writerCell src) (.write p addr hint src data poison))

/-- STREAM_WRITE_MERGE (R183): the window of 128 MCLK closes and the merged write is made. -/
def execStreamWriteMerge (p addr : Nat) (s : State) : Res := .next (closeMerge s p (blockBase addr))

/-! ## Maintenance (R194) -/

/-- The memory dies that hold a partition's groups. -/
def partMds (s : State) (p : Nat) : List Nat := ((partOf s p).usable.map (· / 4)).eraseDups

/-- An operation running at every die of a partition over a range, until it has finished there. -/
def startMaint (s : State) (p base size : Nat) : State :=
  (partMds s p).foldl (fun t m => modMd t m fun d => { d with maint := d.maint ++ [⟨p, base, size⟩] }) s

/-- MSC_CLEAN_RANGE (Table 7.4). -/
def execMscCleanRange (p base size : Nat) (s : State) : Res :=
  .next (startMaint (maintain s p base size true false) p base size)

/-- MSC_DISCARD_RANGE (Table 7.4). -/
def execMscDiscardRange (p base size : Nat) (s : State) : Res :=
  .next (startMaint (maintain s p base size false true) p base size)

/-- MSC_CLEAN_DISCARD_RANGE (Table 7.4). -/
def execMscCleanDiscardRange (p base size : Nat) (s : State) : Res :=
  .next (startMaint (maintain s p base size true true) p base size)

/-- Every line of a partition's ways invalidated and its data zeroed (Table 7.4). A write being merged is on its way to
DRAM and is no line: it is made first. -/
def discardWays (s : State) (p : Nat) : State :=
  let s0 := ((s.mds.flatMap fun e => e.2.merges).filter fun m => decide (m.p = p)).foldl (fun t m => closeMerge t p m.base) s
  (partMds s p).foldl (fun t m =>
    let ws := partWays t p m
    modMd t m fun d => { d with lines := d.lines.filter fun l => !ws.contains l.way }) s0

/-- Every dirty line of a partition's ways written back (Table 7.4). -/
def cleanWays (s : State) (p : Nat) : State := maintain s p 0 (2 ^ 41) true false

/-- MSC_DISCARD_WAYS (Table 7.4). -/
def execMscDiscardWays (p : Nat) (s : State) : Res := .next (startMaint (discardWays s p) p 0 (2 ^ 41))

/-- MSC_CLEAN_WAYS (Table 7.4). -/
def execMscCleanWays (p : Nat) (s : State) : Res := .next (startMaint (cleanWays s p) p 0 (2 ^ 41))

/-- A partition's oldest operation at a die taken off. -/
def dropMaint (p : Nat) : List Maint → List Maint
  | [] => []
  | m :: t => if m.p = p then t else m :: dropMaint p t

/-- MSC_MAINT_DONE (R194): requests that wait at this die for the operation go on. -/
def execMscMaintDone (md p : Nat) (s : State) : Res :=
  .next (wakeMd (modMd s md fun d => { d with maint := dropMaint p d.maint }) md)

/-! ## The Drizzle path -/

/-- DRIZZLE_READ (R196, R221): bits flip as `errs` says, then the sector is read. -/
def execDrizzleRead (p addr : Nat) (errs : List SymErr) (s : State) : Res :=
  match farFail s p addr 3 1 none with
  | some t => .next t
  | none => .next (farRequest (injectErrs s p addr errs) p addr 3 1 none (.read p addr 1 3 false))

/-- DRIZZLE_WRITE (R197). -/
def execDrizzleWrite (p addr : Nat) (data : List Byte) (poison : Bool) (s : State) : Res :=
  .next (farRequest s p addr 3 data.length none (.write p addr 3 .media data poison))

/-! ## Refresh, timeouts and the host port -/

/-- REFRESH (R188): beyond four times the base rate the group retires. -/
def execRefresh (group ratePct : Nat) (s : State) : Res :=
  if 400 < ratePct then
    let seq := s.nv.alm.nextSeq
    let s1 := recordOnly s .groupRetired 0 (groupOwner s group) (unitGroup group) ratePct
    .next (retireErr s1 group Code.groupRetired.value 0 seq)
  else .next s

/-- Every far-tier request outstanding in a group, or in one channel of it, completes as poisoned (R201, R441): the units of
streams that have been requested and have not arrived, and the requests that wait at the memory die. -/
def failRequests (s : State) (group : Nat) (chan : Option Nat) : State :=
  let here := fun (k : Nat) => k / 2 ^ 33 / 24 == group && chan.all fun c => k / 2 ^ 33 % 24 == c
  let fail := fun (g : Nat) (x : InStream) =>
    match cellOwner s g with
    | some p =>
      if x.running && decide (x.desc.space = 2) then
        let first := x.deposited + x.landing.length
        let ks := ((List.range (x.total - first)).map (first + ·)).filter fun k =>
          inFlight x k && (unitRuns x k).any fun r => (blocksOf r.1 r.2).any fun y => here (farKey s p y.1)
        { x with failed := x.failed ++ ks }
      else x
    | none => x
  let s1 := { s with cells := s.cells.map fun e => (e.1, { e.2 with ins := e.2.ins.map fun x => (x.1, fail e.1 x.2) }) }
  modMd s1 (group / 4) fun m => { m with waits := m.waits.filter fun r => !here (r.place s) }

/-- MEM_REQUEST_TIMEOUT (R201): the channel declared faulty, what is outstanding in it completed as poisoned, the error
raised for the partition using the group, and the group retired. -/
def execMemRequestTimeout (group channel : Nat) (s0 : State) : Res :=
  let s := failRequests s0 group (some channel)
  let s1 := odOr s (Ad.memGroupFailedChannels group) (2 ^ channel)
  let seq := s1.nv.alm.nextSeq
  let owner := groupOwner s1 group
  let s2 := record s1 { code := Code.memRequestTimeout.value, cls := 3, part := owner, unit := unitGroup group,
                        tag := (owner.map (jobTag s1)).getD 0, arg := channel }
  .next (retireErr s2 group Code.memRequestTimeout.value 0 seq)

/-- A host request that does not go on (R202, R232, R235). -/
def hostStop (s : State) (p window off n : Nat) : Option State :=
  let a := window * 2 ^ 36 + off
  if (hostAddr s p window off n).isNone then some (coreErr s p .streamBounds a)
  else
    match moveOver s p 3 a n with
    | some r => if r.vacated then some (staleErr s p r none) else none
    | none => if moveInto s p 3 a n then some s else none

/-- HOST_READ (R203): issued while fewer than 1,024 are outstanding. -/
def execHostRead (p window offset len : Nat) (s : State) : Res :=
  match hostStop s p window offset len with
  | some t => .next t
  | none =>
    if 4096 < len ∨ len = 0 ∨ 1024 ≤ s.hostReads.length then .next s
    else
      let h : HostRd := ⟨s.hostNext, p, window, offset, len⟩
      .next { s with hostReads := s.hostReads ++ [h], hostNext := s.hostNext + 1 }

/-- The 64 B units of a host range. -/
def hostUnits (a n : Nat) : List Nat := wordsOf a n

/-- HOST_READ_COMPLETE (R203, R204): the data as the host gives it, which a confidential partition's reads decipher (R390), or
poisoned with a deferred error. -/
def execHostReadComplete (id : Nat) (ok : Bool) (data : List Byte) (s : State) : Res :=
  match s.hostReads.find? fun h => h.id = id with
  | none => .next s
  | some h =>
    let s1 := { s with hostReads := s.hostReads.filter fun x => x.id ≠ id }
    let a := (hostAddr s1 h.p h.window h.offset h.len).getD 0
    let us := hostUnits a h.len
    let s2 := odAdd s1 (Ad.partHostBytes h.p) h.len
    if ok then
      let t := hostBytes s2 a (fun _ => 0) (slice data 0 h.len)
      .next { t with hostBad := t.hostBad.filter fun u => !us.contains u }
    else
      let s3 := { s2 with hostBad := us.foldl addTo s2.hostBad }
      .next (deferred s3 (some h.p) .hostAccessFailed 0x1900 (h.window * 2 ^ 36 + h.offset))

/-- HOST_WRITE (R203): a posted write of up to 512 B; what meets the source of a MOVING record is held (R232). -/
def execHostWrite (p window offset : Nat) (data : List Byte) (s : State) : Res :=
  match hostStop s p window offset data.length with
  | some t => .next t
  | none =>
    if 512 < data.length then .next s
    else
      let a := window * 2 ^ 36 + offset
      .next ((movePieces 3 (partOf s p).moves a data.length).foldl (fun t y =>
        let xs := slice data (y.1 - a) y.2.1
        match y.2.2 with
        | none => hostStore t p (a + (y.1 - a)) xs false
        | some r => holdWrite t p r { cell := none, offset := y.1 - r.src, data := xs, poison := false }) s)

end Sys2Proof.Machine
end

