-- ==== Sys2Proof/Machine/Moves.lean ====
section
/-!
DEFINITION. The object table and its moves (R228 to R236), the prefetch schedule (R238), and the scale
table with its advance and mirror (R241 to R244).
-/

namespace Sys2Proof.Machine

/-! ## Object table entries (Table 9.1) -/

/-- The address of an entry. -/
def objAddr (s : State) (p obj : Nat) : Nat := latched s p (Ad.partObjTableBase p) % 2 ^ 41 + 32 * obj

/-- An entry's fields. -/
structure ObjEnt where
  hint : Nat
  tier : Nat
  state : Nat
  addr : Nat
  size : Nat
  dest : Nat
  deriving DecidableEq, Repr

/-- The fields of 32 bytes. -/
def ObjEnt.ofBytes (bs : List Byte) : ObjEnt :=
  let b := fieldLE bs 0 1
  ⟨bits b 5 4, bits b 3 2, bits b 1 0, bits (fieldLE bs 8 8) 47 0, fieldLE bs 16 8, bits (fieldLE bs 24 8) 49 0⟩

/-- The 32 bytes of an entry. -/
def ObjEnt.bytes (e : ObjEnt) : List Byte :=
  leBytes 8 (e.hint * 16 + e.tier * 4 + e.state) ++ leBytes 8 e.addr ++ leBytes 8 e.size ++ leBytes 8 e.dest

/-- An entry read whole: its fields and its poison (R229). -/
def objRead (s : State) (p obj : Nat) : ObjEnt × Bool :=
  let v := farView s p (objAddr s p obj) 32
  (ObjEnt.ofBytes v.1, v.2)

/-- An entry written whole, as one aligned 32 B access, which is a Drizzle request (R195, R229). -/
def objWrite (s : State) (p obj : Nat) (e : ObjEnt) : State := writePiece s p (objAddr s p obj) 3 .control e.bytes false false

/-! ## Reading and writing a tier whole -/

/-- 64 B of a tier, and their poison. -/
def tierRead (s : State) (p tier a : Nat) : List Byte × Bool :=
  match tier with
  | 0 => scratchRead (cellOf s ((partCells (partOf s p)).getD (a / 2 ^ 21) 0)) false (a % 2 ^ 21) 64
  | 1 => stratusRead s p none a 64
  | 2 => farView s p a 64
  | _ => hostView s p a 64

/-- What a move's read of a 256 B block does where it lies: the checks of scratchpad and Stratus, and a read through the
memory-side cache with no allocation (R233). -/
def tierSeen (s : State) (p tier a : Nat) : State :=
  match tier with
  | 0 =>
    let g := (partCells (partOf s p)).getD (a / 2 ^ 21) 0
    scratchCheck s g (scratchWords (cellOf s g) false (a % 2 ^ 21) 256)
  | 1 => stratusSeen s p none a 256
  | 2 => farRead s p a 256 0
  | _ => s

/-- The hint of an object's far-tier writes: DROP acts as STREAM (Table 9.1). -/
def objHint (hint : Nat) : Nat := if hint = 1 then 1 else 0

/-- Bytes of one 256 B block written to a tier by a move, each 64 B with its poison (R233). -/
def tierWrite (s : State) (p tier hint a : Nat) (us : List (List Byte × Bool)) : State :=
  match tier with
  | 0 =>
    let g := (partCells (partOf s p)).getD (a / 2 ^ 21) 0
    (us.zipIdx).foldl (fun t u => scratchForeign t g (a % 2 ^ 21 + 64 * u.2) u.1.1 u.1.2) s
  | 1 => (us.zipIdx).foldl (fun t u => stratusWrite t p none (a + 64 * u.2) u.1.1 u.1.2) s
  | 2 =>
    let s1 := writePiece s p a (objHint hint) .control (us.flatMap (·.1)) false true
    let s2 := (us.zipIdx.filter (·.1.2)).foldl (fun t u => writePiece t p (a + 64 * u.2) (objHint hint) .control u.1.1 true true) s1
    closeMerge s2 p (blockBase a)
  | _ => (us.zipIdx).foldl (fun t u => hostStore t p (a + 64 * u.2) u.1.1 u.1.2) s

/-- Bytes of a held write put at its offset from a place, as it was issued (R234, R236). -/
def heldWrite (s : State) (p tier a : Nat) (h : HeldWrite) : State :=
  match tier with
  | 0 => scratchForeign s ((partCells (partOf s p)).getD (a / 2 ^ 21) 0) (a % 2 ^ 21 + h.offset) h.data h.poison
  | 1 => stratusWrite s p h.cell (a + h.offset) h.data h.poison
  | 2 => farWrite s p (a + h.offset) h.hint h.writer h.data h.poison
  | _ => hostStore s p (a + h.offset) h.data h.poison

/-! ## Requests (R231) -/

/-- Two ranges of one tier overlap. -/
def tierMeets (t1 a1 n1 t2 a2 n2 : Nat) : Bool := decide (t1 = t2) && decide (a1 < a2 + n2) && decide (a2 < a1 + n1)

/-- A range of a tier lies outside the partition's part of it. -/
def tierOutside (s : State) (p tier a n : Nat) : Bool :=
  match tier with
  | 0 => decide (80 * (partOf s p).dies.length * 2 ^ 21 ≤ a)
  | 2 => decide (farSize s p < a + n)
  | t => (addrFault s p t a n).isSome

/-- The refusal code of a move (Table 9.3), in the order R231 lists its cases; none when it is accepted. -/
def moveRefusal (s : State) (p obj tier addr : Nat) (e : ObjEnt) : Option Nat :=
  let ms := (partOf s p).moves
  let laps := tierMeets tier addr e.size e.tier e.addr e.size ||
    ms.any fun r => tierMeets tier addr e.size r.srcTier r.src r.size ||
      (!r.vacated && tierMeets tier addr e.size r.dstTier r.dst r.size)
  let crosses := fun (t a : Nat) => decide (t = 0) && decide (2 ^ 21 < a % 2 ^ 21 + e.size)
  if latched s p (Ad.partObjTableCount p) ≤ obj ∨ e.state ≠ 1 then some 1
  else if 32 ≤ ms.length then some 2
  else if addr % 256 ≠ 0 ∨ tierOutside s p tier addr e.size ∨ laps then some 3
  else if crosses tier addr ∨ crosses e.tier e.addr then some 4
  else none

/-- A move requested (R231, R232): refused and counted, or the entry MOVING and its record made. The entry is read by the
Drizzle path; one that must wait leaves the request as it was. The second part is the refusal. -/
def requestMove (s0 : State) (p obj tier addr sem : Nat) (release : Bool) (pf : Option Nat) : State × Option Nat :=
  match coreStop s0 p 0 (objAddr s0 p obj) 32 with
  | some t => (t, none)
  | none =>
    let r := objRead s0 p obj
    let s := farRead s0 p (objAddr s0 p obj) 32 3
    if r.2 then (coreErr s p .poisonConsumed (objAddr s p obj), none)
    else
      let e := r.1
      match moveRefusal s p obj tier addr e with
      | some c => (odInc s (Ad.partObjRefused p), some c)
      | none =>
        let s1 := objWrite s p obj { e with state := 2, dest := tier * 2 ^ 48 + addr }
        let m : MoveRec := { obj := obj, srcTier := e.tier, src := e.addr, dstTier := tier, dst := addr, size := e.size,
                             sem := sem, hint := e.hint, prefetch := pf, release := release }
        (modPart s1 p fun q => { q with moves := q.moves ++ [m] }, none)

/-- MOVE (R231). -/
def execMove (p obj tier addr sem : Nat) (s : State) : Res :=
  match (partOf s p).job with
  | none => .next s
  | some _ =>
    let r := requestMove s p obj tier addr sem false none
    match r.2 with
    | some c => .next (emit r.1 (.moveRefused p c))
    | none => .next r.1

/-! ## Copy, completion, abort and release -/

/-- The MOVING record of an object. -/
def movingRec (s : State) (p obj : Nat) : Option MoveRec :=
  (partOf s p).moves.find? fun r => r.obj = obj && !r.vacated

/-- The copy of R233: the destination's cached lines discarded, then every block read and written. -/
def copyMove (s : State) (p : Nat) (r : MoveRec) : State :=
  let s1 := if r.dstTier = 2 then maintain s p r.dst r.size false true else s
  (List.range (r.size / 256)).foldl (fun t i =>
    let us := (List.range 4).map fun k => tierRead t p r.srcTier (r.src + 256 * i + 64 * k)
    tierWrite (tierSeen t p r.srcTier (r.src + 256 * i)) p r.dstTier r.hint (r.dst + 256 * i) us) s1

/-- The entry of a record's object, HOME at a place: what software wrote in it while it was MOVING is overwritten
(R229). -/
def MoveRec.entry (r : MoveRec) (tier addr : Nat) : ObjEnt :=
  { hint := r.hint, tier := tier, state := 1, addr := addr, size := r.size, dest := 0 }

/-- MOVE_COMPLETE (R233, R234): the copy stands at the destination, the five parts of completion, and the accesses that
waited for it go on (R232). -/
def execMoveComplete (p obj : Nat) (s : State) : Res :=
  match movingRec s p obj with
  | none => .next s
  | some r =>
    let s1 := copyMove s p r
    let s2 := objWrite s1 p obj (r.entry r.dstTier r.dst)
    let s3 := modPart s2 p fun q =>
      { q with moves := if r.release then q.moves.filter (fun x => !(x.obj = obj && !x.vacated))
                        else q.moves.map fun x => if x.obj = obj && !x.vacated then { x with vacated := true, held := [] } else x }
    let s4 := if r.srcTier = 2 then maintain s3 p r.src r.size false true else s3
    let s5 := r.held.foldl (fun t h => heldWrite t p r.dstTier r.dst h) s4
    let seq := ((partOf s5 p).job.map Job.seq).getD 0
    let s6 := signalSem s5 p seq r.sem 1 r.prefetch.isSome
    .next (wakeMds (odAdd (odInc s6 (Ad.partObjMoves p)) (Ad.partObjMoveBytes p) r.size))

/-- The destination of a move that stopped: its contents are undefined, and free values here; what its writes counted is
the model's not to say, and stays (R236). -/
def freeRange (s : State) (p : Nat) (r : MoveRec) : State :=
  let f := fresh s
  let s1 := (List.range (r.size / 256)).foldl (fun t i =>
    let us := (List.range 4).map fun k => (leBytes 64 (f.1 / 2 ^ (512 * (4 * i + k))), false)
    tierWrite t p r.dstTier r.hint (r.dst + 256 * i) us) f.2
  let s2 := { s1 with od := s.od }
  if r.dstTier = 2 then markBypass s2 p r.dst r.size .control else s2

/-- A MOVING record aborted (R236): the object HOME at its source, held writes released there, the record
freed and counted, the destination free, and what waited for it going on. -/
def abortMove (s : State) (p : Nat) (r : MoveRec) : State :=
  let s1 := objWrite s p r.obj (r.entry r.srcTier r.src)
  let s2 := modPart s1 p fun q => { q with moves := q.moves.filter fun x => !(x.obj = r.obj && !x.vacated) }
  let s3 := r.held.foldl (fun t h => heldWrite t p r.srcTier r.src h) (freeRange s2 p r)
  wakeMds (odInc s3 (Ad.partObjAborts p))

/-- MOVE_ABORT (R236). -/
def execMoveAbort (p obj : Nat) (s : State) : Res :=
  match movingRec s p obj with
  | none => .next s
  | some r => .next (abortMove s p r)

/-- MOVE_RELEASE (R235): the object's oldest VACATED record goes. -/
def execMoveRelease (p obj : Nat) (s : State) : Res :=
  .next (modPart s p fun q => { q with moves := ((takeFirst (fun r => r.obj == obj && r.vacated) q.moves).map (·.2)).getD q.moves })

/-! ## The prefetch schedule (R238) -/

/-- A prefetch record's fields (Table 9.5). -/
structure Prefetch where
  dest : Nat
  obj : Nat
  wait : Nat
  done : Nat
  flags : Nat
  bad : Bool
  deriving DecidableEq, Repr

/-- The fields of 32 bytes; `bad` when a reserved field is not zero, which R238 makes an error. -/
def Prefetch.ofBytes (bs : List Byte) : Prefetch :=
  let d := fieldLE bs 0 8
  let fl := fieldLE bs 12 4
  ⟨d, fieldLE bs 8 2, fieldLE bs 10 1, fieldLE bs 11 1, fl, decide (bits d 63 50 ≠ 0) || decide (bits fl 31 2 ≠ 0) || decide (fieldLE bs 16 16 ≠ 0)⟩

/-- The record at a position: none beyond the partition's far tier; with its poison. -/
def prefetchRec (s : State) (p pos : Nat) : Option (Prefetch × Bool) :=
  match (partOf s p).job with
  | none => none
  | some j =>
    if (addrFault s p 2 (j.prefetch + 32 * pos) 32).isSome then none
    else
      let v := farView s p (j.prefetch + 32 * pos) 32
      some (Prefetch.ofBytes v.1, v.2)

/-- The address of a record. -/
def prefetchAddr (s : State) (p pos : Nat) : Nat := ((partOf s p).job.map Job.prefetch).getD 0 + 32 * pos

/-- The move of the record at a position requested (R238): MOVE_BUSY leaves it to PREFETCH_RETRY, any other
refusal ends the job; the END record is the last. A request whose object's entry must wait is left to PREFETCH_RETRY
too. -/
def prefetchMove (s : State) (p pos : Nat) (x : Prefetch) : State :=
  match coreStop s p 0 (objAddr s p x.obj) 32 with
  | some t => modPart t p fun q => { q with prefetchBusy := true }
  | none =>
  let r := requestMove s p x.obj (bits x.dest 49 48) (bits x.dest 47 0) x.done (bit x.flags 1) (some pos)
  match r.2 with
  | some c =>
    let s1 := emit r.1 (.moveRefused p c)
    if c = 2 then modPart s1 p fun q => { q with prefetchBusy := true }
    else coreErr s1 p .prefetchRecordInvalid (prefetchAddr s p pos)
  | none =>
    modPart r.1 p fun q => { q with prefetchBusy := false, prefetchPos := if bit x.flags 0 then none else some (pos + 1) }

/-- PREFETCH_RECORD (R238), its record read by the Drizzle path (R195). A record re-issued at resume does not wait again
(log 23). -/
def execPrefetchRecord (p : Nat) (s0 : State) : Res :=
  let q := partOf s0 p
  match q.prefetchPos, q.job with
  | some pos, some j =>
    if q.prefetchBusy || !inState s0 p .running then .next s0
    else
      match prefetchRec s0 p pos, coreStop s0 p 0 (prefetchAddr s0 p pos) 32 with
      | none, _ => .next (coreErr s0 p .prefetchRecordInvalid (prefetchAddr s0 p pos))
      | _, some t => .next t
      | some (x, poison), none =>
        let s := farRead s0 p (prefetchAddr s0 p pos) 32 3
        if poison then .next (coreErr s p .poisonConsumed (prefetchAddr s p pos))
        else if x.bad then .next (coreErr s p .prefetchRecordInvalid (prefetchAddr s p pos))
        else if pos < j.prefetchWaited then .next (prefetchMove s p pos x)
        else if semCount s p x.wait = 0 ∨ (j.waiters.any fun w => w.1 == x.wait) then .next s
        else .next (prefetchMove (modJob (semTake s p x.wait) p fun j => { j with prefetchWaited := pos + 1 }) p pos x)
  | _, _ => .next s0

/-- PREFETCH_RETRY (R238). -/
def execPrefetchRetry (p : Nat) (s : State) : Res :=
  let q := partOf s p
  match q.prefetchPos, q.prefetchBusy with
  | some pos, true =>
    match prefetchRec s p pos with
    | some (x, _) => .next (prefetchMove s p pos x)
    | none => .next s
  | _, _ => .next s

/-! ## The scale table -/

/-- A record's fields (Table 9.7), FILL as it is loaded (R241). -/
def ScaleRec.ofBytes (bs : List Byte) : ScaleRec :=
  let c := fieldLE bs 0 4
  let w := fieldLE bs 4 4
  let hlen := bits c 25 22 + 1
  let mexp0 := signed 8 (bits c 15 8)
  let fill := min (bits w 22 18) hlen
  let mode := bits c 31 31
  { mode := mode, ovf := bits c 30 30, fmt := bits c 29 26, hlen := hlen, margin := bits c 21 18, mexp0 := mexp0,
    mexp := if fill = 0 ∨ mode = 0 then mexp0 else signed 8 (bits w 31 24)
    nanSeen := bit w 23, fill := fill, amaxStep := BitVec.ofNat 32 (fieldLE bs 8 4), satStep := fieldLE bs 12 4
    satTotal := fieldLE bs 16 4, hist := (List.range 16).map fun i => BitVec.ofNat 32 (fieldLE bs (32 + 4 * i) 4) }

/-- An amax word that a load refuses: NaN, or negative and not zero (R241). -/
def amaxBad (v : Nat) : Bool := isNan32 v || (decide (2 ^ 31 < v) && decide (v < 2 ^ 32))

/-- A record that stops the job from starting (R241). -/
def scaleBad (bs : List Byte) : Bool :=
  let c := fieldLE bs 0 4
  let fill := bits (fieldLE bs 4 4) 22 18
  decide (8 < bits c 29 26) || decide (bits c 15 8 = 0x80) || decide (bits c 15 8 = 0x81) || decide (16 < fill) ||
    amaxBad (fieldLE bs 8 4) || (List.range fill).any fun i => amaxBad (fieldLE bs (32 + 4 * i) 4)

/-- An exponent as its byte. -/
def expByte (e : Int) : Nat := (e % 256).toNat

/-- The 96 bytes of a record, reserved fields 0. -/
def ScaleRec.bytes (r : ScaleRec) : List Byte :=
  let c := r.mode * 2 ^ 31 + r.ovf * 2 ^ 30 + r.fmt * 2 ^ 26 + (r.hlen - 1) * 2 ^ 22 + r.margin * 2 ^ 18 + expByte r.mexp0 * 2 ^ 8
  let w := expByte r.mexp * 2 ^ 24 + (if r.nanSeen then 2 ^ 23 else 0) + r.fill * 2 ^ 18
  leBytes 4 c ++ leBytes 4 w ++ leBytes 4 r.amaxStep.toNat ++ leBytes 4 r.satStep ++ leBytes 4 r.satTotal ++ leBytes 12 0 ++
    (List.range 16).flatMap fun i => leBytes 4 (r.hist.getD i 0).toNat

/-- The magnitude of an amax word: −0 counts as 0. -/
def amaxMag (v : BitVec 32) : Nat := v.toNat % 2 ^ 31

/-- fmax of a format (R241): INT8 127, else the largest element. -/
def fmaxVal (fmt : Nat) : Nat × Int :=
  if fmt = 8 then (127, 0)
  else match decodeVal (fmtOf fmt) (fmtOf fmt).max with
    | .fin _ m e => (m, e)
    | _ => (0, 0)

/-- ⌊log2(fmax / h)⌋ − MARGIN, clamped (R242). -/
def scaleExp (fmt margin h : Nat) : Int :=
  match decodeVal fp32 h with
  | .fin _ m e =>
    let f := fmaxVal fmt
    max (-126) (min 127 (ilog2 f.1 m + f.2 - e - margin))
  | _ => 0

/-- scale_advance of a slot (R242), and whether its multiplier is kept and counted. -/
def advanceSlot (r : ScaleRec) : ScaleRec × Bool :=
  let hist := r.amaxStep :: (r.hist.take (r.hlen - 1)) ++ r.hist.drop r.hlen
  let fill := min (r.fill + 1) r.hlen
  let x := { r with hist := hist, fill := fill, amaxStep := 0, satStep := 0 }
  if r.mode = 0 then ({ x with mexp := r.mexp0 }, false)
  else
    let h := ((hist.take fill).map amaxMag).foldl max 0
    if h = 0 ∨ h = 0x7F800000 then (x, true)
    else ({ x with mexp := scaleExp r.fmt r.margin h }, false)

/-- SCALE_ADVANCE (R242): the step closed and every slot recomputed. One that finds another under way waits. -/
def execScaleAdvance (p sem : Nat) (s : State) : Res :=
  let q := partOf s p
  match q.job, q.advance with
  | some _, none =>
    let xs := q.scale.map fun e => (e.1, advanceSlot e.2)
    let holds := (xs.filter fun e => e.2.2).length
    let s1 := modPart s p fun q => { q with scale := xs.map fun e => (e.1, e.2.1), advance := some sem }
    .next (odAdd (odInc s1 (Ad.partScaleAdvances p)) (Ad.partScaleHolds p) holds)
  | _, _ => .next s

/-- The FP32 code of 2^e. -/
def pow2Code (e : Int) : Nat := encodeVal fp32 (.fin false 1 e)

/-- The dies' copies of MEXP and OVF, and the mirror (R241, R242, R244). -/
def publishScale (s : State) (p : Nat) : State :=
  let q := partOf s p
  let s1 := modPart s p fun q => { q with scaleCopy := q.scale.map fun e => (e.1, (e.2.mexp, e.2.ovf)) }
  let pairs := (List.range 4096).flatMap fun i =>
    let m := ((tget q.scale i).map ScaleRec.mexp).getD 0
    leBytes 4 (pow2Code m) ++ leBytes 4 (pow2Code (-m))
  stratusWrite s1 p none (latched s p (Ad.partScaleMirror p)) pairs false

/-- SCALE_ADVANCE_DONE (R242, R244). -/
def execScaleAdvanceDone (p : Nat) (s : State) : Res :=
  match (partOf s p).advance with
  | none => .next s
  | some sem =>
    let s1 := modPart (publishScale s p) p fun q => { q with advance := none }
    .next (signalSem s1 p (((partOf s1 p).job.map Job.seq).getD 0) sem 1 false)

/-- An advance under way completed, for a switch or a job's end (R242). -/
def settleScale (s : State) (p : Nat) : State :=
  match (partOf s p).advance with
  | none => s
  | some sem =>
    let s1 := modPart (publishScale s p) p fun q => { q with advance := none }
    signalSem s1 p (((partOf s1 p).job.map Job.seq).getD 0) sem 1 false

/-- The scale table written back (R241). -/
def writeScale (s : State) (p : Nat) : State :=
  let q := partOf s p
  if q.scale = [] then s
  else
    let base := latched s p (Ad.partScaleTableBase p)
    farWrite s p (base % 2 ^ 41) (bits base 47 46) .control (q.scale.flatMap fun e => e.2.bytes) false

end Sys2Proof.Machine
end

