-- ==== Sys2Proof/Machine/MediaCore.lean ====
section
/-!
DEFINITION. What the media engines and the tensor writers share: results in ring entries, stream context
records (Table 10.5), reference pools with their marks and layout (R257 to R260), and output records (R269).
-/

namespace Sys2Proof.Machine

/-! ## Ring entries in place -/

/-- The offset of byte `off` of an entry from its queue's base (R363). -/
def entryOff (q : Queue) (index off : Nat) : Nat := 64 + 128 * (index % 2 ^ q.log2) + off

/-- Result fields written in place in a ring entry (R366). -/
def entryWrite (s : State) (r : ReqRef) (off : Nat) (bs : List Byte) : State :=
  match tget (partOf s r.p).queues r.q with
  | none => s
  | some q => forTenant s r.p q.tenant fun t => ringWrite t r.p q.base (entryOff q r.index off) bs

/-- The JOB_SEQ of a partition's running job. -/
def jobSeq (s : State) (p : Nat) : Nat := ((partOf s p).job.map Job.seq).getD 0

/-! ## The media dies' own accesses (R191, R195, R232, R235) -/

/-- A far-tier write of a media engine or tensor writer, with a hint. -/
def mediaWrite (s : State) (p a hint : Nat) (bs : List Byte) (poison : Bool) : State :=
  unitPut s p .media 2 hint a bs poison

/-- What a far-tier read of a media engine or tensor writer does; the bytes it returns are those `farView` gives before. -/
def mediaRead (s : State) (p a n hint : Nat) : State :=
  if n = 0 then s else farRequest s p a (farPath a n hint) n none (.read p a n (farPath a n hint) false)

/-- A base address in an entry that breaks Table 7.2 (R186). -/
def baseBad (v : Nat) : Bool := decide (bits v 47 46 = 3) || decide (bits v 45 41 ≠ 0) || decide (2 ^ 48 ≤ v)

/-- Every byte of a range is zero, as a reserved field must be. -/
def zeros (bs : List Byte) (off n : Nat) : Bool := (slice bs off n).all (· == 0)

/-! ## Context records (Table 10.5) -/

/-- The address of a context's record. -/
def ctxAddr (s : State) (p ctx : Nat) : Nat := latched s p (Ad.partMediaCtxBase p) % 2 ^ 41 + 2048 * ctx

/-- The hint of accesses to the context array. -/
def ctxHint (s : State) (p : Nat) : Nat := bits (latched s p (Ad.partMediaCtxBase p)) 47 46

/-- The part's own state of a context. -/
def ctxSt (s : State) (p ctx : Nat) : CtxSt := (tget (partOf s p).ctxs ctx).getD {}

/-- That state changed. -/
def modCtx (s : State) (p ctx : Nat) (f : CtxSt → CtxSt) : State :=
  modPart s p fun q => { q with ctxs := tset q.ctxs ctx (f ((tget q.ctxs ctx).getD {})) }

/-- OUT_TAIL and BS_TAIL: fields the consumer writes while an engine holds the record (R269, Table 10.8). -/
def consumerField (off : Nat) : Bool := off == 56 || off == 96

/-- A field of a record: from the engine's copy while one holds it (R262, log 160), else from the record. -/
def ctxField (s : State) (p ctx off n : Nat) : Nat :=
  let c := (ctxSt s p ctx).copy
  if c = [] ∨ consumerField off then farField s p (ctxAddr s p ctx + off) n else fieldLE c off n

/-- Bytes laid over a list from an offset. -/
def overlay (l : List Byte) (off : Nat) (bs : List Byte) : List Byte := l.take off ++ bs ++ l.drop (off + bs.length)

/-- A field of a record written by the part, in an engine's copy too. -/
def ctxPut (s : State) (p ctx off n v : Nat) : State :=
  let s1 := if (ctxSt s p ctx).copy = [] then s else modCtx s p ctx fun c => { c with copy := overlay c.copy off (leBytes n v) }
  mediaWrite s1 p (ctxAddr s p ctx + off) (ctxHint s p) (leBytes n v) false

/-- An engine takes a context's record up (R262, R263): it is read with the parameter sets in use. Bytes 256 to 2,047 of
zero are a context that software has created anew: the part holds nothing of it but its requests (R261). -/
def ctxLoad (s : State) (p ctx : Nat) : State :=
  if (ctxSt s p ctx).copy ≠ [] then s
  else
    let a := ctxAddr s p ctx
    let rec_ := (farView s p a 2048).1
    let s1 := mediaRead s p a 2048 (ctxHint s p)
    let s2 := modCtx s1 p ctx fun c => { if zeros rec_ 256 1792 then { reqs := c.reqs, resumed := c.resumed } else c with copy := rec_.take 256 }
    mediaRead s2 p (fieldLE rec_ 32 8 % 2 ^ 41) (ctxSt s2 p ctx).psetLen (bits (fieldLE rec_ 32 8) 47 46)

/-- The part writes a context's record at a picture boundary (R262): whole, but for the consumer's fields. Bytes 256 to
2,047 are the part's own: the model holds their content in `Part.ctxs` and writes a byte that is not zero where they begin
(log 160). -/
def ctxSave (s : State) (p ctx : Nat) : State :=
  let c := (ctxSt s p ctx).copy
  if c = [] then s
  else
    let a := ctxAddr s p ctx
    let v := overlay (overlay c 56 (leBytes 4 (farField s p (a + 56) 4))) 96 (leBytes 4 (farField s p (a + 96) 4))
    let f := fresh s
    mediaWrite f.2 p a (ctxHint s p) (v ++ [BitVec.ofNat 8 (1 + f.1 % 255)]) false

/-- A context's record written and no longer held by an engine. -/
def ctxDrop (s : State) (p ctx : Nat) : State := modCtx (ctxSave s p ctx) p ctx fun c => { c with copy := [] }

/-- KIND. -/
def ctxKind (s : State) (p ctx : Nat) : Nat := bits (ctxField s p ctx 0 1) 5 4

/-- STATE: 0 FREE, 1 READY, 2 RUNNING, 3 PARKED, 4 DRAINING, 5 REJECTED. -/
def ctxState (s : State) (p ctx : Nat) : Nat := bits (ctxField s p ctx 0 1) 3 0

/-- STATE written. -/
def setCtxState (s : State) (p ctx v : Nat) : State := ctxPut s p ctx 0 1 (ctxField s p ctx 0 1 / 16 * 16 + v)

/-- POOL. -/
def ctxPool (s : State) (p ctx : Nat) : Nat := bits (ctxField s p ctx 2 1) 3 2

/-- A value of the record the manual reserves or puts out of its range (R283, R186); what stands in reserved fields is ignored
(R11). -/
def ctxReserved (s : State) (p ctx : Nat) : Bool :=
  let f := ctxField s p ctx
  let kind := bits (f 0 1) 5 4
  let st := bits (f 0 1) 3 0
  let codec := f 1 1
  let b2 := f 2 1
  let slots := f 48 4
  let common := decide (kind = 3) || decide (5 < st) || decide (bits b2 5 4 = 3) || decide (bits b2 1 0 = 3) || decide (63 < f 3 1) ||
    decide (slots < 16) || decide (65536 < slots) || decide (slots ≠ 2 ^ Nat.log2 slots) || decide (f 40 8 % 64 ≠ 0) ||
    baseBad (f 40 8) || decide (farSize s p < f 40 8 % 2 ^ 41 + 32 * slots)
  let dec := decide (3 < codec) || decide (f 8 2 < 16) || decide (8192 < f 8 2) || decide (f 10 2 < 16) || decide (4352 < f 10 2) ||
    !([8, 10].contains (f 12 1)) || decide (f 13 1 = 0) || decide (16 < f 13 1) || decide (f 14 2 = 0) || decide (600 < f 14 2) ||
    decide (f 16 4 = 0) || decide (2 ^ 26 < f 16 4) || decide (f 32 8 % 4096 ≠ 0) || baseBad (f 32 8) ||
    decide (farSize s p < f 32 8 % 2 ^ 41 + 65536)
  let rows := (f 66 2 + 15) / 16
  let enc := !([1, 2].contains codec) || decide (f 64 2 % 2 ≠ 0) || decide (f 66 2 % 2 ≠ 0) || decide (f 64 2 < 16) || decide (f 66 2 < 16) ||
    decide (8192 < f 64 2) || decide (4352 < f 66 2) || decide (f 68 2 = 0) || decide (rows < f 68 2) || decide (1 < f 72 1) ||
    decide (51 < f 73 1) || decide (f 84 8 % 4096 ≠ 0) || decide (f 92 4 % 4096 ≠ 0) || decide (f 92 4 = 0) ||
    baseBad (f 84 8) || decide (farSize s p < f 84 8 % 2 ^ 41 + f 92 4)
  common || (if kind = 0 then dec else if kind = 1 then enc else false)

/-! ## Pools, buffers and marks (R257 to R260) -/

/-- The buffers of a pool. -/
def poolCount (s : State) (p k : Nat) : Nat := latched s p (Ad.partPoolBufCount p k)

/-- The bytes of a pool's buffers. -/
def poolSize (s : State) (p k : Nat) : Nat := latched s p (Ad.partPoolBufSize p k)

/-- The far-tier address of a buffer by its name (R257). -/
def bufAddr (s : State) (p b : Nat) : Nat :=
  latched s p (Ad.partPoolBase p (bits b 17 16)) % 2 ^ 41 + bits b 15 0 * poolSize s p (bits b 17 16)

/-- The marks of a buffer. -/
def markOf (s : State) (p b : Nat) : Mark := (tget (partOf s p).marks b).getD {}

/-- A buffer's marks set; one with no mark is not listed. -/
def setMark (s : State) (p b : Nat) (m : Mark) : State :=
  modPart s p fun q => { q with marks :=
    if m.short || m.long || m.nonref || m.output then tset q.marks b m else tdel q.marks b }

/-- A buffer is free: it has no mark (R259), and no picture of it waits for output (log 24). -/
def bufFree (s : State) (p b : Nat) : Bool :=
  (tget (partOf s p).marks b).isNone && (partOf s p).ctxs.all fun e =>
    !e.2.waiting.contains b && !(e.2.held.any fun r => fieldLE r 0 4 = b)

/-- The lowest-numbered free buffer of a pool. -/
def freeBuf (s : State) (p k : Nat) : Option Nat :=
  ((List.range (poolCount s p k)).map (k * 65536 + ·)).find? (bufFree s p)

/-- SHORT and LONG of a context's buffers cleared (Table 10.4). -/
def clearRefs (s : State) (p ctx : Nat) : State :=
  (partOf s p).marks.foldl (fun t e => if e.2.owner = ctx then setMark t p e.1 { e.2 with short := false, long := false } else t) s

/-- Round up to the next 4 KiB. -/
def up4k (n : Nat) : Nat := (n + 4095) / 4096 * 4096

/-- A frame buffer's layout (Table 10.3). -/
structure Layout where
  pitch : Nat
  h16 : Nat
  chromaAt : Nat
  chromaLines : Nat
  motionAt : Nat
  motionRow : Nat
  motionRows : Nat
  size : Nat
  deriving DecidableEq, Repr

/-- The layout of a picture: chroma 0 for 4:0:0, 1 for 4:2:0, 2 for 4:2:2. -/
def layoutOf (w h depth chroma : Nat) (interlaced av1 motion : Bool) : Layout :=
  let sb := if depth = 8 then 1 else 2
  let pitch := (w * sb + 255) / 256 * 256
  let h16 := if interlaced then (h + 31) / 32 * 32 else (h + 15) / 16 * 16
  let chromaAt := up4k (pitch * h16)
  let lines := if chroma = 1 then h16 / 2 else h16
  let coAt := up4k (chromaAt + pitch * lines)
  let av1At := up4k (coAt + 16 * ((w + 15) / 16) * ((h + 15) / 16))
  let motionAt := up4k (av1At + (if av1 then 20480 else 0))
  let row := ((w + 7) / 8 * 8 + 63) / 64 * 64
  let rows := (h + 7) / 8
  ⟨pitch, h16, chromaAt, lines, motionAt, row, rows, up4k (motionAt + (if motion then row * rows else 0))⟩

/-- The layout of a context's pictures; `depth` is that of an encoder's or analysis' source. -/
def ctxLayout (s : State) (p ctx depth : Nat) : Layout :=
  let c := ctxSt s p ctx
  let kind := ctxKind s p ctx
  if kind = 0 then
    layoutOf (ctxField s p ctx 20 2) (ctxField s p ctx 22 2) c.depth c.chroma c.interlaced (decide (ctxField s p ctx 1 1 = 3))
      (bit (ctxField s p ctx 6 1) 0)
  else layoutOf (ctxField s p ctx 64 2) (ctxField s p ctx 66 2) depth 1 false false (decide (kind = 2))

/-! ## Output records (R269) -/

/-- A record's 32 bytes (Table 10.7). -/
def outRecord (buffer index w h flags qp depth concealed cycles len : Nat) : List Byte :=
  leBytes 4 buffer ++ leBytes 4 index ++ leBytes 2 w ++ leBytes 2 h ++ leBytes 2 flags ++ leBytes 1 qp ++ leBytes 1 depth ++
    leBytes 4 concealed ++ leBytes 4 (min cycles (2 ^ 32 - 1)) ++ leBytes 4 len ++ leBytes 4 0

/-- The output ring is full. -/
def ringFull (s : State) (p ctx : Nat) : Bool :=
  decide ((ctxField s p ctx 52 4 + 2 ^ 32 - ctxField s p ctx 56 4) % 2 ^ 32 = ctxField s p ctx 48 4)

/-- A record written at OUT_HEAD: its buffer OUTPUT_PENDING (a decode or analysis record's), OUT_HEAD advanced,
and counted for the request being served, which the write reaches while an engine is on the context. -/
def writeRec (s : State) (p ctx : Nat) (r : List Byte) : State :=
  let head := ctxField s p ctx 52 4
  let at_ := ctxField s p ctx 40 8 % 2 ^ 41 + 32 * (head % ctxField s p ctx 48 4)
  let s1 := ctxPut (mediaWrite s p at_ (bits (ctxField s p ctx 40 8) 47 46) r false) p ctx 52 4 ((head + 1) % 2 ^ 32)
  let b := fieldLE r 0 4
  let s2 := if ctxKind s p ctx = 1 then s1
    else
      let m := markOf s1 p b
      setMark s1 p b { m with output := true, owner := if (tget (partOf s1 p).marks b).isSome then m.owner else ctx }
  modCtx s2 p ctx fun c =>
    { c with reqs := match c.reqs with | [] => [] | q :: t => { q with outputs := q.outputs + 1 } :: t }

/-- A record written, or held in the context's state when the ring is full (R269). -/
def pushRec (s : State) (p ctx : Nat) (r : List Byte) : State :=
  if (ctxSt s p ctx).held ≠ [] ∨ ringFull s p ctx then modCtx s p ctx fun c => { c with held := c.held ++ [r] }
  else writeRec s p ctx r

/-- The records of a decoded picture under the context's OUTMODE (R251, R253), all of one FRAME_INDEX. -/
def picRecords (s : State) (p ctx b : Nat) (x : OutPic) : List (List Byte) :=
  let mode := bits (ctxField s p ctx 2 1) 1 0
  let index := ctxField s p ctx 24 4
  let rec_ := fun (extra : Nat) => outRecord b index x.width x.height (x.flags ||| extra) x.avgQp x.depth x.concealed x.cycles 0
  let order := if x.bottomFirst then [true, false] else [false, true]
  let field := fun (bob : Bool) (bottom : Bool) => rec_ (2 + (if bottom then 4 else 0) + (if bob then 2048 else 0))
  if !x.interlaced ∨ mode = 1 then [rec_ 0]
  else if mode = 0 then
    match x.oneField with
    | some f => [field false f]
    | none => order.map (field false)
  else order.map (field true)

/-- A picture of a context that waits for output is output (R267, R270). -/
def outputPic (s : State) (p ctx b : Nat) : State :=
  match if (ctxSt s p ctx).waiting.contains b then tget (ctxSt s p ctx).pics b else none with
  | none => s
  | some x =>
    let rs := picRecords s p ctx b x
    let s1 := modCtx s p ctx fun c => { c with waiting := c.waiting.filter (· != b) }
    let s2 := ctxPut s1 p ctx 24 4 ((ctxField s1 p ctx 24 4 + 1) % 2 ^ 32)
    rs.foldl (fun t r => pushRec t p ctx r) s2

end Sys2Proof.Machine
end

