-- ==== Sys2Proof/Machine/Motion.lean ====
section
/-!
DEFINITION. Planes of samples in frame buffers and the motion search of the encode engines (R275, R278, R281), with the
motion tensors it and a decoder's vectors give (R282, Table 10.9).
-/

namespace Sys2Proof.Machine

/-! ## Planes -/

/-- A plane of samples in raster order. -/
structure Plane where
  w : Nat
  h : Nat
  px : Array Nat
  deriving DecidableEq, Repr

/-- A sample; beyond the edges the plane is extended by replication (R278). -/
def Plane.get (f : Plane) (y x : Int) : Nat :=
  f.px.getD ((min y (f.h - 1 : Int)).toNat * f.w + (min x (f.w - 1 : Int)).toNat) 0

/-- The samples of `n` bytes of a line at a depth. -/
def lineSamples (depth : Nat) (bs : List Byte) (n : Nat) : List Nat :=
  (List.range n).map fun x => if depth = 8 then fieldLE bs x 1 else fieldLE bs (2 * x) 2

/-- The bytes of samples as they are stored (R254): U8 at depth 8, else U16 with the value in bits 9 to 0. -/
def sampleBytes (depth : Nat) (vs : List Nat) : List Byte :=
  vs.flatMap fun v => if depth = 8 then leBytes 1 (v % 256) else leBytes 2 (v % 1024)

/-- The luma plane of a buffer, and whether any of it reads poisoned. -/
def lumaPlane (s : State) (p at_ pitch depth w h : Nat) : Plane × Bool :=
  let sb := if depth = 8 then 1 else 2
  let ls := (List.range h).map fun y => farView s p (at_ + y * pitch) (w * sb)
  (⟨w, h, (ls.flatMap fun l => lineSamples depth l.1 w).toArray⟩, ls.any (·.2))

/-- A source sample as it is coded (R275): a 10-bit one narrowed for an 8-bit profile. -/
def narrowed (v : Nat) : Nat := min 255 ((v + 2) / 4)

/-- A plane narrowed. -/
def Plane.narrow (f : Plane) : Plane := { f with px := f.px.map narrowed }

/-- A plane at one `k`-th of its resolution. -/
def Plane.shrink (f : Plane) (k : Nat) : Plane :=
  let w := (f.w + k - 1) / k
  let h := (f.h + k - 1) / k
  ⟨w, h, ((List.range (w * h)).map fun i =>
    Config.shrink ((List.range (k * k)).map fun j => f.get (i / w * k + j / k : Nat) (i % w * k + j % k : Nat))).toArray⟩

/-! ## Interpolation -/

/-- The 8-tap luma filter of HEVC by quarter-sample phase (R281, log 161). -/
def hevcTaps (phase : Nat) : List Int :=
  match phase with
  | 1 => [-1, 4, -10, 58, 17, -5, 1, 0]
  | 2 => [-1, 4, -11, 40, 40, -11, 4, -1]
  | 3 => [0, 1, -5, 17, 58, -10, 4, -1]
  | _ => [0, 0, 0, 64, 0, 0, 0, 0]

/-- A filter over eight samples, the fourth at the place itself. -/
def tapSum (taps : List Int) (v : Int → Int) : Int :=
  ((List.range 8).map fun i => taps.getD i 0 * v ((i : Int) - 3)).sum

/-- A reference sample at a place in quarter samples by HEVC's interpolation (log 161). -/
def hevcSample (f : Plane) (depth : Nat) (qy qx : Int) : Nat :=
  let y := qy.fdiv 4
  let x := qx.fdiv 4
  let py := (qy.fmod 4).toNat
  let px := (qx.fmod 4).toNat
  if py = 0 ∧ px = 0 then f.get y x
  else
    let sh := (2 : Int) ^ (depth - 8)
    let row := fun (dy : Int) => (tapSum (hevcTaps px) fun d => (f.get (y + dy) (x + d) : Int)).fdiv sh
    let v := if py = 0 then row 0
      else if px = 0 then (tapSum (hevcTaps py) fun d => (f.get (y + d) x : Int)).fdiv sh
      else (tapSum (hevcTaps py) row).fdiv 64
    let k := 14 - depth
    (max 0 (min (2 ^ depth - 1) ((v + 2 ^ (k - 1)).fdiv (2 ^ k)))).toNat

/-- The six taps of H.264's half-sample filter over offsets −2 to 3. -/
def avcTaps : List Int := [0, 1, -5, 20, 20, -5, 1, 0]

/-- A reference sample of H.264 at a place in half samples (log 161), 8-bit. -/
def avcHalf (f : Plane) (hy hx : Int) : Nat :=
  let y := hy.fdiv 2
  let x := hx.fdiv 2
  let clip := fun (v : Int) => (max 0 (min 255 v)).toNat
  let row := fun (dy : Int) => tapSum avcTaps fun d => (f.get (y + dy) (x + d) : Int)
  if hy.fmod 2 = 0 ∧ hx.fmod 2 = 0 then f.get y x
  else if hy.fmod 2 = 0 then clip ((row 0 + 16).fdiv 32)
  else if hx.fmod 2 = 0 then clip ((tapSum avcTaps (fun d => (f.get (y + d) x : Int)) + 16).fdiv 32)
  else clip ((tapSum avcTaps row + 512).fdiv 1024)

/-- A reference sample at a place in quarter samples by H.264's interpolation (log 161). -/
def avcSample (f : Plane) (qy qx : Int) : Nat :=
  let h := fun (a b : Int) => avcHalf f (a.fdiv 2) (b.fdiv 2)
  let oy := qy.fmod 2 ≠ 0
  let ox := qx.fmod 2 ≠ 0
  let mean := fun (a b : Nat) => (a + b + 1) / 2
  if !oy ∧ !ox then h qy qx
  else if !oy then mean (h qy (qx - 1)) (h qy (qx + 1))
  else if !ox then mean (h (qy - 1) qx) (h (qy + 1) qx)
  else
    let y4 := qy.fdiv 4 * 4
    let x4 := qx.fdiv 4 * 4
    mean (h (if qy.fmod 4 = 1 then y4 else y4 + 4) (x4 + 2)) (h (y4 + 2) (if qx.fmod 4 = 1 then x4 else x4 + 4))

/-! ## The search (R278) -/

/-- What a motion search works on: the source and reference planes, the interpolation of the codec, and the rate term of a
vector in quarter samples. -/
structure Search where
  cur : Plane
  ref : Plane
  hevc : Bool
  depth : Nat
  codec : Nat
  qp : Option Nat

/-- λ(QP) times a vector's coded bits; none for an analysis (R281). -/
def Search.rate (q : Search) (mx my : Int) : Nat := (q.qp.map fun qp => Config.motionRate q.codec qp mx my).getD 0

/-- SAD of an n × n block against samples of the reference. -/
def sadOf (cur : Plane) (y x n : Nat) (at_ : Int → Int → Nat) : Nat :=
  ((List.range (n * n)).map fun i =>
    let cy := y + i / n
    let cx := x + i % n
    ((cur.get cy cx : Int) - at_ cy cx).natAbs).sum

/-- A vector in its stage's units, with its cost. -/
abbrev Cand := Int × Int × Nat

/-- One candidate goes before another: by cost, and by the open order of equals. -/
def candLess (a b : Cand) : Bool :=
  decide (a.2.2 < b.2.2) || (decide (a.2.2 = b.2.2) && decide (Config.motionTie a.1 a.2.1 ≤ Config.motionTie b.1 b.2.1))

/-- A candidate put into a list ordered by cost, of which `n` are kept. -/
def insertCand (n : Nat) (l : List Cand) (c : Cand) : List Cand :=
  (l.takeWhile (candLess · c) ++ c :: l.dropWhile (candLess · c)).take n

/-- The `n` lowest-cost candidates of vectors. -/
def lowest (n : Nat) (cost : Int → Int → Nat) (vs : List (Int × Int)) : List Cand :=
  vs.foldl (fun l v => insertCand n l (v.1, v.2, cost v.1 v.2)) []

/-- The vectors within ±rx × ±ry of a centre, `step` apart. -/
def around (cx cy : Int) (rx ry : Nat) (step : Int) : List (Int × Int) :=
  (List.range (2 * ry + 1)).flatMap fun j => (List.range (2 * rx + 1)).map fun i =>
    (cx + ((i : Int) - rx) * step, cy + ((j : Int) - ry) * step)

/-- The best of vectors. -/
def bestOf (cost : Int → Int → Nat) (vs : List (Int × Int)) : Int × Int :=
  ((lowest 1 cost vs).head?.map fun c => (c.1, c.2.1)).getD (0, 0)

/-- Cost at one `k`-th of the resolution of the n × n block at (y, x) of that resolution. -/
def Search.coarse (q : Search) (cur ref : Plane) (k : Int) (y x n : Nat) (vx vy : Int) : Nat :=
  sadOf cur y x n (fun cy cx => ref.get (cy + vy) (cx + vx)) + q.rate (4 * k * vx) (4 * k * vy)

/-- SAD of a block with a vector in quarter samples. -/
def Search.sad (q : Search) (y x n : Nat) (mx my : Int) : Nat :=
  sadOf q.cur y x n fun cy cx =>
    let qy := 4 * cy + my
    let qx := 4 * cx + mx
    if q.hevc then hevcSample q.ref q.depth qy qx else avcSample q.ref qy qx

/-- Stages 3 and 4 for one block, from a full-resolution centre (R278): its final vector in quarter samples. -/
def Search.refine (q : Search) (y x n : Nat) (cx cy : Int) : Int × Int :=
  let cost := fun (mx my : Int) => q.sad y x n mx my + q.rate mx my
  let a := bestOf cost (around (4 * cx) (4 * cy) 2 2 4)
  let b := bestOf cost (around a.1 a.2 1 1 2)
  bestOf cost (around b.1 b.2 1 1 1)

/-- A final vector in half-resolution samples. -/
def halfUnits (v : Int) : Int := v.fdiv 8 + (if v.fmod 8 ≠ 0 ∧ Config.motionRound v then 1 else 0)

/-- The four stages for the 16 × 16 block at (by, bx): the block's final vector and those of its 8 × 8 blocks. `near`: its
left, top and top-right neighbours' final vectors. -/
def Search.block (q : Search) (cur4 ref4 cur2 ref2 : Plane) (near : List (Int × Int)) (by_ bx : Nat) :
    (Int × Int) × List (Int × Int) :=
  let kept := lowest 4 (q.coarse cur4 ref4 4 (4 * by_) (4 * bx) 4) (around 0 0 128 64 1)
  let centres := kept.map (fun c => (2 * c.1, 2 * c.2.1)) ++ (0, 0) :: near.map fun v => (halfUnits v.1, halfUnits v.2)
  let h := bestOf (q.coarse cur2 ref2 2 (8 * by_) (8 * bx) 8) (centres.flatMap fun c => around c.1 c.2 4 4 1)
  let fine := fun (dy dx n : Nat) => q.refine (16 * by_ + dy) (16 * bx + dx) n (2 * h.1) (2 * h.2)
  (fine 0 0 16, [fine 0 0 8, fine 0 8 8, fine 8 0 8, fine 8 8 8])

/-- The search over a picture: the final vectors of its 16 × 16 blocks and of their 8 × 8 blocks, in raster order. -/
def Search.field (q : Search) : Array ((Int × Int) × List (Int × Int)) :=
  let cur4 := q.cur.shrink 4
  let ref4 := q.ref.shrink 4
  let cur2 := q.cur.shrink 2
  let ref2 := q.ref.shrink 2
  let bw := (q.cur.w + 15) / 16
  let bh := (q.cur.h + 15) / 16
  (List.range (bw * bh)).foldl (fun (done : Array ((Int × Int) × List (Int × Int))) k =>
    let by_ := k / bw
    let bx := k % bw
    let at_ := fun (ok : Bool) (j : Nat) => if ok then (done[j]?.map Prod.fst).toList else []
    let near := at_ (decide (0 < bx)) (k - 1) ++ at_ (decide (0 < by_)) (k - bw) ++
      at_ (decide (0 < by_) && decide (bx + 1 < bw)) (k - bw + 1)
    done.push (q.block cur4 ref4 cur2 ref2 near by_ bx)) #[]

/-- The vector and SAD of each 8 × 8 block of a picture, in raster order (R281). -/
def Search.blocks (q : Search) : List (Int × Int × Nat) :=
  let f := q.field
  let bw := (q.cur.w + 15) / 16
  let cw := (q.cur.w + 7) / 8
  (List.range (cw * ((q.cur.h + 7) / 8))).map fun i =>
    let r := i / cw
    let c := i % cw
    let v := ((f[r / 2 * bw + c / 2]?.map Prod.snd).getD []).getD (r % 2 * 2 + c % 2) (0, 0)
    (v.1, v.2, q.sad (8 * r) (8 * c) 8 v.1 v.2)

/-! ## Motion tensors (Table 10.9) -/

/-- An element: vector in quarter samples, COST and its flags. -/
def motionElem (mx my : Int) (cost flags : Nat) : List Byte :=
  leBytes 2 (mx % 65536).toNat ++ leBytes 2 (my % 65536).toNat ++ leBytes 2 (min cost 65535) ++ leBytes 2 flags

/-- A tensor's rows from its elements in raster order, the bytes beyond each row's elements 0 (R282). -/
def motionRows (lay : Layout) (w : Nat) (es : List (List Byte)) : List (List Byte) :=
  let n := (w + 7) / 8
  (List.range lay.motionRows).map fun r =>
    ((es.drop (n * r)).take n).flatten ++ List.replicate (lay.motionRow - 8 * n) 0

/-- The motion tensor of a source with no reference (R281): vectors 0, costs 0xFFFF. -/
def zeroMotion (lay : Layout) (w : Nat) : List (List Byte) :=
  motionRows lay w (List.replicate ((w + 7) / 8 * lay.motionRows) (motionElem 0 0 0xFFFF 0))

/-- An exported vector's component in quarter samples (R282): MPEG-2's half samples doubled, AV1's eighths halved with ties
away from zero. -/
def quarterMv (codec : Nat) (v : Int) : Int :=
  if codec = 0 then 2 * v
  else if codec = 3 then (if v < 0 then -((v.natAbs + 1) / 2 : Nat) else ((v.natAbs + 1) / 2 : Nat))
  else v

/-- An exported element (R282) of a block with its list-0 and list-1 vectors. -/
def exportElem (codec : Nat) (concealed : Bool) (v : Option (Int × Int) × Option (Int × Int)) : List Byte :=
  if concealed then motionElem 0 0 0 4
  else
    match v.1, v.2 with
    | some m, _ => motionElem (quarterMv codec m.1) (quarterMv codec m.2) 0 0
    | none, some m => motionElem (quarterMv codec m.1) (quarterMv codec m.2) 0 1
    | none, none => motionElem 0 0 0 2

end Sys2Proof.Machine
end

