-- ==== Sys2Proof/Machine/Writer.lean ====
section
/-!
DEFINITION. The tensor writers (R286 to R304) and the sample cache (R305 to R308): operation lists, phases,
boxes, the forming of a slot's frame into tokens and statistics, and how a sample completes.
-/

namespace Sys2Proof.Machine

/-! ## Requests (Table 11.1) -/

/-- A little-endian field of a sample's request. -/
def Sample.field (x : Sample) (off n : Nat) : Nat := fieldLE x.raw off n

/-- FIRST. -/
def Sample.first (x : Sample) : Nat := x.field 8 4

/-- COUNT. -/
def Sample.count (x : Sample) : Nat := x.field 12 2

/-- STEP. -/
def Sample.step (x : Sample) : Nat := x.field 14 2

/-- SLOTS. -/
def Sample.nslots (x : Sample) : Nat := x.field 16 2

/-- END = FIRST + COUNT × STEP (R288). -/
def Sample.last (x : Sample) : Nat := x.first + x.count * x.step

/-- STATS is set. -/
def Sample.stats (x : Sample) : Bool := bit (x.field 1 1) 0

/-- ROW_END is set. -/
def Sample.rowEnd (x : Sample) : Bool := bit (x.field 1 1) 1

/-- The far-tier address of the operation list. -/
def Sample.list (x : Sample) : Nat := x.field 24 8 % 2 ^ 41

/-! ## Operation lists (Table 11.2) -/

/-- Phase `i` of a list as its 128 bytes. -/
def phaseBytes (s : State) (p list i : Nat) : List Byte := (farView s p (list + 64 + 128 * i) 128).1

/-- A phase's fields, from its bytes. -/
structure Phase where
  from_ : Nat
  matrix : Nat
  range : Nat
  outc : Nat
  flipEn : Bool
  centre : Bool
  boxmode : Nat
  area : Bool
  nbox : Nat
  outfmt : Nat
  ow : Nat
  oh : Nat
  ft : Nat
  fh : Nat
  fw : Nat
  smin : Nat
  smax : Nat
  rmin : Nat
  rmax : Nat
  boxlist : Nat
  mean : List Nat
  istd : List Nat
  fill : List Nat
  bad : Bool
  deriving DecidableEq, Repr

/-- The channels of a phase's output (R292). -/
def Phase.c (x : Phase) : Nat := if x.outc = 2 then 1 else 3

/-- The boxes of a phase (R287). -/
def Phase.boxes (x : Phase) : Nat := if x.boxmode = 2 then x.nbox else 1

/-- The bytes of an output element. -/
def Phase.e (x : Phase) : Nat := if x.outfmt = 0 then 2 else 1

/-- The elements of a token. -/
def Phase.k (x : Phase) : Nat := x.ft * x.fh * x.fw * x.c

/-- The tokens of one box for a number of slots: ⌈slots/FT⌉ × ⌈OH/FH⌉ × ⌈OW/FW⌉. -/
def Phase.tokens (x : Phase) (slots : Nat) : Nat :=
  (slots + x.ft - 1) / x.ft * ((x.oh + x.fh - 1) / x.fh) * ((x.ow + x.fw - 1) / x.fw)

/-- A positive finite FP32 value, or with `one` one of at most 1. -/
def posFinite (c : Nat) (one : Bool) : Bool :=
  match (decodeVal fp32 c).rat with
  | some q => decide (0 < q) && (!one || decide (q ≤ 1))
  | none => false

/-- The fields of 128 bytes; `bad` for a reserved value or one out of its range (R292). -/
def Phase.ofBytes (s : State) (p : Nat) (bs : List Byte) : Phase :=
  let col := fieldLE bs 4 1
  let box := fieldLE bs 5 1
  let w4 := fun off => (List.range 4).map fun i => fieldLE bs (off + 4 * i) 4
  let mode := bits box 2 1
  let c := if bits col 1 0 = 2 then 1 else 3
  let ow := fieldLE bs 8 2
  let oh := fieldLE bs 10 2
  let ft := fieldLE bs 12 1
  let fh := fieldLE bs 13 1
  let fw := fieldLE bs 14 1
  let smin := fieldLE bs 16 4
  let smax := fieldLE bs 20 4
  let rmin := fieldLE bs 24 4
  let rmax := fieldLE bs 28 4
  let lst := fieldLE bs 32 8
  let nbox := fieldLE bs 6 1
  let bad := decide (bits col 7 6 ≠ 0) || decide (bits col 3 2 = 3) || decide (bits col 1 0 = 3) || decide (1 < bits box 6 5) ||
    decide (bits box 4 3 ≠ 0) || decide (mode = 3) || decide (63 < nbox) || (decide (mode ≠ 2) && decide (nbox ≠ 0)) ||
    decide (2 < fieldLE bs 7 1) || decide (ow = 0) || decide (4096 < ow) || decide (oh = 0) || decide (4096 < oh) ||
    decide (ft = 0) || decide (4 < ft) || decide (fh = 0) || decide (16 < fh) || decide (fw = 0) || decide (16 < fw) ||
    !zeros bs 15 1 || !zeros bs 88 40 || decide (16384 < ft * fh * fw * c) ||
    (decide (mode = 1) && (!posFinite smin true || !posFinite smax true || decide (order32 smax < order32 smin) ||
      !posFinite rmin false || !posFinite rmax false || decide (order32 rmax < order32 rmin))) ||
    (decide (mode = 2) && (addrFault s p 2 (lst % 2 ^ 48) (32 * (nbox + 1))).isSome)
  { from_ := fieldLE bs 0 4, matrix := bits col 5 4, range := bits col 3 2, outc := bits col 1 0, flipEn := bit box 7,
    centre := decide (bits box 6 5 = 1), boxmode := mode, area := bit box 0, nbox := nbox + 1, outfmt := bits (fieldLE bs 7 1) 3 0,
    ow := ow, oh := oh, ft := ft, fh := fh, fw := fw, smin := smin, smax := smax, rmin := rmin, rmax := rmax,
    boxlist := lst % 2 ^ 41, mean := w4 40, istd := w4 56, fill := w4 72, bad := bad }

/-- Phase `i` of a list. -/
def phaseAt (s : State) (p list i : Nat) : Phase := Phase.ofBytes s p (phaseBytes s p list i)

/-- COUNT of a list. -/
def listCount (s : State) (p list : Nat) : Nat := farField s p list 4

/-- A list is invalid (R292), or reads poisoned (log 164). -/
def listInvalid (s : State) (p list : Nat) : Bool :=
  let n := listCount s p list
  (farView s p list (64 + 128 * min n 16)).2 ||
  let ps := (List.range n).map (phaseAt s p list)
  decide (n = 0) || decide (16 < n) || ps.any (·.bad) || (ps.zip (ps.drop 1)).any fun x => decide (x.2.from_ < x.1.from_)

/-- The phase of highest number whose FROM_INDEX does not exceed `f` (R290). -/
def phaseFor (s : State) (p list f : Nat) : Option Nat :=
  (List.range (listCount s p list)).foldl (fun a i => if (phaseAt s p list i).from_ ≤ f then some i else a) none

/-- The shape fields (R291). -/
def Phase.shape (x : Phase) : List Nat := [x.outc, x.boxmode, x.nbox, x.ow, x.oh, x.ft, x.fh, x.fw, x.outfmt]

/-! ## Boxes (R295) -/

/-- An unsigned integer as an FP32 code. -/
def natCode (n : Nat) : Nat := encodeVal fp32 (.fin false n 0)

/-- random_box of R295: the corners y0, x0, y1, x1 as FP32 codes, and whether the output is flipped. -/
def randomBox (key w h : Nat) (x : Phase) : List Nat × Bool :=
  let u := fun (k : Nat) =>
    encodeVal fp32 (.fin false ((mix64 (BitVec.ofNat 64 (key + (k + 1) * 0x9B3F2C71E5A84D0B))).toNat / 2 ^ 40) (-24))
  let a := add32 x.smin (mul32 (u 0) (sub32 x.smax x.smin))
  let lg := fun c => log2Code fp32 (decodeVal fp32 c)
  let rho := exp2Code fp32 (decodeVal fp32 (add32 (lg x.rmin) (mul32 (u 1) (sub32 (lg x.rmax) (lg x.rmin)))))
  let wf := natCode w
  let hf := natCode h
  let area := mul32 (mul32 a wf) hf
  let bw := min32 (sqrt32 (mul32 area rho)) wf
  let bh := min32 (sqrt32 (div32 area rho)) hf
  let x0 := mul32 (u 2) (sub32 wf bw)
  let y0 := mul32 (u 3) (sub32 hf bh)
  ([y0, x0, add32 y0 bh, add32 x0 bw], x.flipEn && decide (order32 0x3F000000 ≤ order32 (u 4)))

/-- The boxes of a phase as it comes to apply to a frame of w × h: their corners, and the flip. -/
def drawBoxes (s : State) (p key w h : Nat) (x : Phase) : List Nat × Bool :=
  match x.boxmode with
  | 1 => randomBox key w h x
  | 2 =>
    let bs := (farView s p x.boxlist (32 * x.nbox)).1
    ((List.range x.nbox).flatMap (boxCodes bs), false)
  | _ => ([], false)

/-! ## A slot's frame (R293, R294) -/

/-- Where a frame's samples come from. -/
structure Frame where
  buf : Nat
  lay : Layout
  depth : Nat
  chroma : Nat
  w : Nat
  h : Nat
  field : Bool
  bottom : Bool
  bob : Bool
  deriving DecidableEq, Repr

/-- The frame of an output record of a context; a FIELDS record gives the field's lines. -/
def Frame.of (s : State) (p ctx : Nat) (r : List Byte) : Frame :=
  let b := fieldLE r 0 4
  let fl := fieldLE r 12 2
  let x := (tget (ctxSt s p ctx).pics b).getD {}
  let fld := bit fl 1 && !bit fl 11
  let h := fieldLE r 10 2
  { buf := bufAddr s p b, depth := fieldLE r 15 1, chroma := x.chroma, w := fieldLE r 8 2, h := if fld then h / 2 else h,
    lay := layoutOf (fieldLE r 8 2) h (fieldLE r 15 1) x.chroma x.interlaced (decide (ctxField s p ctx 1 1 = 3)) false,
    field := fld, bottom := bit fl 2, bob := bit fl 11 }

/-- One sample of a plane in the buffer, and its poison. -/
def Frame.raw (s : State) (p : Nat) (f : Frame) (plane y x : Nat) : Nat × Bool :=
  let n := if f.depth = 8 then 1 else 2
  let at_ := f.buf + (if plane = 0 then 0 else f.lay.chromaAt) + y * f.lay.pitch +
    (if plane = 0 then x else 2 * x + (plane - 1)) * n
  let v := farView s p at_ n
  (leNat v.1, v.2)

/-- A sample of a plane of `lines` buffer lines, through the field and BOB rules (R251, R252). -/
def Frame.line (s : State) (p : Nat) (f : Frame) (plane lines y x : Nat) : Nat × Bool :=
  let par := if f.bottom then 1 else 0
  if f.field then f.raw s p plane (2 * y + par) x
  else if f.bob ∧ y % 2 ≠ par then
    let a := f.raw s p plane (if y = 0 then y + 1 else y - 1) x
    let b := f.raw s p plane (if y + 1 < lines then y + 1 else y - 1) x
    ((a.1 + b.1 + 1) / 2, a.2 || b.2)
  else f.raw s p plane y x

/-- The luma sample at (y, x). -/
def Frame.luma (s : State) (p : Nat) (f : Frame) (y x : Nat) : Nat × Bool := f.line s p 0 f.h y x

/-- A chroma sample, plane 1 Cb and 2 Cr, of the cell that covers (y, x): upsampled by replication. -/
def Frame.chr (s : State) (p : Nat) (f : Frame) (plane y x : Nat) : Nat × Bool :=
  if f.chroma = 1 then f.line s p plane (f.h / 2) (y / 2) (x / 2) else f.line s p plane f.h y (x / 2)

/-- The matrix and the range in force (R294): AUTO takes what the bitstream signals. -/
def colourOf (x : Phase) (h : Nat) (sig : ColourSignal) : Nat × Bool :=
  (if x.matrix ≠ 0 then x.matrix else sig.hasMatrix.getD (if 576 < h then 2 else 1),
   if x.range ≠ 0 then decide (x.range = 2) else sig.full.getD false)

/-- Y, Cb or Cr of a sample (R294), rounded once to FP32: plane 0 is luma. -/
def unitCode (depth : Nat) (full : Bool) (plane v : Nat) : Nat :=
  let k : Nat := 2 ^ (depth - 8)
  let off : Nat := if full then (if plane = 0 then 0 else 2 ^ (depth - 1)) else if plane = 0 then 16 * k else 128 * k
  let den : Nat := if full then 2 ^ depth - 1 else if plane = 0 then 219 * k else 224 * k
  let d : Int := (v : Int) - off
  encodeRat fp32 (decide (d < 0)) d.natAbs den 0

/-- Channel `ch` of the frame at (y, x) after colour: its FP32 code and poison. -/
def Frame.chan (s : State) (p : Nat) (f : Frame) (ph : Phase) (col : Nat × Bool) (ch y x : Nat) : Nat × Bool :=
  let l := f.luma s p y x
  let yc := unitCode f.depth col.2 0 l.1
  if ph.outc = 2 then (yc, l.2)
  else
    let b := f.chr s p 1 y x
    let r := f.chr s p 2 y x
    let cb := unitCode f.depth col.2 1 b.1
    let cr := unitCode f.depth col.2 2 r.1
    if ph.outc = 1 then (if ch = 0 then (yc, l.2) else if ch = 1 then (cb, b.2) else (cr, r.2))
    else
      let poi := l.2 || b.2 || r.2
      if ch = 0 ∧ cr = 0 then (yc, poi)
      else if ch = 2 ∧ cb = 0 then (yc, poi)
      else (Config.writerValue [col.1, ch, yc, cb, cr] % 2 ^ 32, poi)

/-- A source pixel's channel, FILL outside the frame. -/
def Frame.pixel (s : State) (p : Nat) (f : Frame) (ph : Phase) (col : Nat × Bool) (ch : Nat) (y x : Int) : Nat × Bool :=
  if 0 ≤ y ∧ y < (f.h : Nat) ∧ 0 ≤ x ∧ x < (f.w : Nat) then f.chan s p ph col ch y.toNat x.toNat
  else (ph.fill.getD ch 0, false)

/-- The corners of box `b` as rationals. -/
def cornersOf (codes : List Nat) (b : Nat) : Option (Rat × Rat × Rat × Rat) :=
  match (List.range 4).map fun i => (decodeVal fp32 (codes.getD (4 * b + i) 0)).rat with
  | [some a, some x, some y, some z] => some (a, x, y, z)
  | _ => none

/-- A box is REJECTED (R128). -/
def boxRejected (ph : Phase) (codes : List Nat) (b : Nat) : Bool :=
  decide (ph.boxmode = 2) &&
    match cornersOf codes b with
    | none => true
    | some (y0, x0, y1, x1) =>
      decide (y1 ≤ y0) || decide (x1 ≤ x0) ||
        (ph.area && (decide (16 * (ph.oh : Rat) < y1 - y0) || decide (16 * (ph.ow : Rat) < x1 - x0)))

/-- FULL's origin (R295). -/
def fullOrigin (ph : Phase) (w h : Nat) : Int × Int :=
  if ph.centre then (((h : Int) - ph.oh) / 2, ((w : Int) - ph.ow) / 2) else (0, 0)

/-- Channel `ch` of box `b`'s output pixel (a, c), before normalisation (R295, R296). -/
def boxPixel (s : State) (p : Nat) (f : Frame) (ph : Phase) (col : Nat × Bool) (bx : List Nat × Bool) (b a c ch : Nat) : Nat × Bool :=
  let c := if bx.2 then ph.ow - 1 - c else c
  if ph.boxmode = 0 then
    let o := fullOrigin ph f.w f.h
    f.pixel s p ph col ch (o.1 + a) (o.2 + c)
  else if boxRejected ph bx.1 b then (ph.fill.getD ch 0, false)
  else
    match cornersOf bx.1 b with
    | none => (ph.fill.getD ch 0, false)
    | some (y0, x0, y1, x1) =>
      let mode := if ph.area then 1 else 0
      let ys := axisWeights mode ph.oh a y0 y1
      let xs := axisWeights mode ph.ow c x0 x1
      let px := ys.map fun y => (y.2, xs.map fun x => (x.2, f.pixel s p ph col ch y.1 x.1))
      let poi := px.any fun r => r.2.any fun v => v.2.2
      let ops := [mode, ph.oh, ph.ow, a, c] ++ bx.1 ++ px.flatMap fun r => r.2.map fun v => v.2.1
      match blendExact (px.map fun r => (r.1, r.2.map fun v => (v.1, decodeVal fp32 v.2.1))) with
      | some q => (ratCode fp32 q, poi)
      | none => (Config.writerValue ops % 2 ^ 32, poi)

/-- A value normalised and converted (R297): FP32 steps, then OUTFMT to nearest even in SATURATE mode. -/
def tokenElem (ph : Phase) (ch v : Nat) : List Byte :=
  let n := mul32 (sub32 v (ph.mean.getD ch 0)) (ph.istd.getD ch 0)
  leBytes ph.e (convertVal (fmtOf ph.outfmt) false false .nearest (decodeVal fp32 n)).1

/-- Where a slot's part of a token lies, and its bytes (R297): its offset from the sample's first token, the
bytes of FT position `slot mod FT`, and their poison. `px b a c ch` is a channel of an output pixel. -/
def slotRuns (ph : Phase) (nslots slot : Nat) (px : Nat → Nat → Nat → Nat → Nat × Bool) : List (Nat × List Byte × Bool) :=
  let gh := (ph.oh + ph.fh - 1) / ph.fh
  let gw := (ph.ow + ph.fw - 1) / ph.fw
  let gt := (nslots + ph.ft - 1) / ph.ft
  let per := ph.fh * ph.fw * ph.c
  (List.range ph.boxes).flatMap fun b => (List.range (gh * gw)).map fun q =>
    let tok := b * (gt * gh * gw) + slot / ph.ft * (gh * gw) + q
    let es := (List.range per).map fun i =>
      let ch := i % ph.c
      let x := q % gw * ph.fw + i / ph.c % ph.fw
      let y := q / gw * ph.fh + i / ph.c / ph.fw
      let v := if y < ph.oh ∧ x < ph.ow ∧ slot < nslots then px b y x ch else (0, false)
      (tokenElem ph ch v.1, v.2)
    (tok * (ph.k * ph.e) + slot % ph.ft * (per * ph.e), es.flatMap (·.1), es.any (·.2))

/-! ## Writing -/

/-- Bytes written by a writer in OUT_SPACE. -/
def writerPut (s : State) (p space base off : Nat) (bs : List Byte) (poison : Bool) : State :=
  unitPut s p .media space (bits base 47 46) (if space = 2 then base % 2 ^ 41 + off else base + off) bs poison

/-- The read of an operation list by a writer (R290). -/
def readList (s : State) (p : Nat) (x : Sample) : State :=
  mediaRead s p x.list (64 + 128 * min (listCount s p x.list) 16) (bits (x.field 24 8) 47 46)

/-- The address of a way's slot in the sample cache (R305). -/
def cacheSlot (s : State) (p way : Nat) : Nat :=
  latched s p (Ad.partSampleCacheBase p) % 2 ^ 41 + 512 * latched s p (Ad.partSampleCacheSets p) +
    way * latched s p (Ad.partSampleCacheSlotBytes p)

/-- A sample replaced. -/
def setSample (s : State) (p : Nat) (x : Sample) : State :=
  modPart s p fun q => { q with samples := q.samples.map fun y => if y.ref = x.ref then x else y }

/-- The runs of a slot written to OUT and to the claimed way. -/
def writeRuns (s : State) (p : Nat) (x : Sample) (ph : Phase) (rs : List (Nat × List Byte × Bool)) : State :=
  let row := x.field 80 4 * (ph.k * ph.e)
  rs.foldl (fun t r =>
    let t1 := writerPut t p (x.field 19 1) (x.field 48 8) (row + r.1) r.2.1 r.2.2
    match x.way with
    | some w => writerPut t1 p 2 (cacheSlot t p w) r.1 r.2.1 r.2.2
    | none => t1) s

/-- The token bytes of a sample. -/
def Sample.tokenBytes (x : Sample) (ph : Phase) : Nat := ph.boxes * ph.tokens x.nslots * (ph.k * ph.e)

/-- A statistics record written at its slot, and in the claimed way. -/
def writeStats (s : State) (p : Nat) (x : Sample) (ph : Phase) (slot : Nat) (bs : List Byte) (poison : Bool) : State :=
  if !x.stats then s
  else
    let s1 := writerPut s p 2 (x.field 56 8) (128 * slot) bs poison
    match x.way with
    | some w => writerPut s1 p 2 (cacheSlot s p w) (x.tokenBytes ph + 128 * slot) bs poison
    | none => s1

/-- The slot's frame is wholly FILL. -/
def fillPx (ph : Phase) : Nat → Nat → Nat → Nat → Nat × Bool := fun _ _ _ ch => (ph.fill.getD ch 0, false)

/-- Marks and positions of the sample's tokens, and the rest of a row that ends with it (R304). -/
def writeMarks (s : State) (p : Nat) (x : Sample) (ph : Phase) (tokens : Nat) : State :=
  let sp := x.field 19 1
  let off := x.field 80 4
  let len := x.field 84 4
  let s1 := writerPut s p sp (x.field 64 8) (2 * off) ((List.range tokens).flatMap fun _ => leBytes 2 (x.field 22 2)) false
  let s2 := writerPut s1 p sp (x.field 72 8) (2 * off) ((List.range tokens).flatMap (leBytes 2)) false
  if !x.rowEnd then s2
  else
    let n := len - (off + tokens)
    let kb := ph.k * ph.e
    let s3 := writerPut s2 p sp (x.field 48 8) ((off + tokens) * kb) (List.replicate (n * kb) 0) false
    let s4 := writerPut s3 p sp (x.field 64 8) (2 * (off + tokens)) (List.replicate (2 * n) 0xFF) false
    writerPut s4 p sp (x.field 72 8) (2 * (off + tokens)) (List.replicate (2 * n) 0) false

/-! ## The sample cache (R305 to R307) -/

/-- OPHASH: the header and the phases below COUNT. -/
def opHash (s : State) (p list : Nat) : Nat := crc32c (farView s p list (64 + 128 * listCount s p list)).1

/-- The full key of a sample. -/
def Sample.key (x : Sample) : List Nat := [x.field 40 8, x.first, x.count, x.step, x.nslots, x.field 32 8, x.opHash]

/-- The set of a sample. -/
def cacheSet (s : State) (p : Nat) (x : Sample) : Nat :=
  let inner := BitVec.ofNat 64 (x.field 32 8) ^^^ BitVec.ofNat 64 (x.first + 2 ^ 32 * x.opHash)
  (mix64 (BitVec.ofNat 64 (x.field 40 8) ^^^ mix64 inner)).toNat % max (latched s p (Ad.partSampleCacheSets p)) 1

/-- A directory entry. -/
def cacheEnt (s : State) (p way : Nat) : CacheEnt := (tget (partOf s p).cache way).getD {}

/-- A directory entry set: what it holds is kept in the partition, and the 64 B it takes at the cache's base, whose layout
R305 does not give, are open values (log 117). -/
def setCache (s : State) (p way : Nat) (e : CacheEnt) : State :=
  let f := fresh (modPart s p fun q => { q with cache := tset q.cache way e })
  let base := latched s p (Ad.partSampleCacheBase p)
  unitPut f.2 p .media 2 (bits base 47 46) (base % 2 ^ 41 + 64 * way) (leBytes 64 f.1) false

/-- The next LAST_USE stamp. -/
def cacheStamp (s : State) (p : Nat) : Nat := ((partOf s p).cache.map fun e => e.2.lastUse).foldl max 0 + 1

/-- The way a sample claims (R307): the lowest FREE one, else the VALID one used longest ago among those whose
pin is below the epoch and that no reader holds. -/
def claimWay (s : State) (p : Nat) (x : Sample) : Option Nat :=
  let ways := (List.range 8).map (8 * cacheSet s p x + ·)
  match ways.find? fun w => (cacheEnt s p w).state = 0 with
  | some w => some w
  | none =>
    let ok := ways.filter fun w =>
      let e := cacheEnt s p w
      decide (e.state = 2) && decide (e.pin < odGet s (Ad.partSampleEpoch p)) && decide (e.readers = 0)
    ok.foldl (fun a w => match a with
      | none => some w
      | some b => if (cacheEnt s p w).lastUse < (cacheEnt s p b).lastUse then some w else some b) none

/-- CACHE_CLAIM (R307): with INSERT, at the sample's start. -/
def claimCache (s : State) (p : Nat) (x : Sample) (ph : Phase) : State × Sample :=
  if !bit (x.field 1 1) 2 then (s, x)
  else
    let ways := (List.range 8).map (8 * cacheSet s p x + ·)
    let held := ways.any fun w => decide ((cacheEnt s p w).state ≠ 0) && decide ((cacheEnt s p w).key = x.key)
    let need := x.tokenBytes ph + (if x.stats then 128 * x.nslots else 0)
    let fits := decide (need ≤ latched s p (Ad.partSampleCacheSlotBytes p)) && decide (latched s p (Ad.partSampleCacheSets p) ≠ 0)
    if held then (s, x)
    else
      match if fits then claimWay s p x else none with
      | some w => (setCache s p w { state := 1, key := x.key, pin := x.field 20 2 }, { x with way := some w })
      | none => (odInc s (Ad.partSampleCacheNoroom p), x)

/-! ## Completion (R289, R307) -/

/-- A sample request's result (R286): STATUS, RESULT, FRAMES and TOKENS, then SEM. -/
def sampleDone (s : State) (x : Sample) (code result frames tokens : Nat) : State :=
  let s1 := entryWrite s x.ref 120 (leBytes 1 code ++ leBytes 1 result ++ leBytes 2 frames ++ leBytes 4 tokens)
  signalSem s1 x.ref.p x.jobSeq (x.field 18 1) 1 false

/-- RESULT with a bit set. -/
def Sample.flag (x : Sample) (b : Nat) : Sample := { x with result := x.result ||| 2 ^ b }

/-- An active sample completed with a code. With `fill`, slots that remain are written as FILL and PARTIAL set
(R289); a list found invalid or changed in shape leaves them (log 29). -/
def endSampleWith (s : State) (p : Nat) (x : Sample) (code : Nat) (fill : Bool) : State :=
  let ph := phaseAt s p x.list x.phase
  let left := (List.range x.nslots).filter (x.slots ≤ ·)
  let part := decide (left ≠ [])
  let s1 := if fill then
      left.foldl (fun t k =>
        writeStats (writeRuns t p x ph (slotRuns ph x.nslots k (fillPx ph))) p x ph k (leBytes 4 0 ++ leBytes 4 0xFFFFFFFF ++ leBytes 120 0) false) s
    else s
  let pad := (List.range (((x.nslots + ph.ft - 1) / max ph.ft 1) * ph.ft)).filter (x.nslots ≤ ·)
  let s2 := if fill then pad.foldl (fun t k => writeRuns t p x ph (slotRuns ph x.nslots k (fillPx ph))) s1 else s1
  let tokens := ph.boxes * ph.tokens (if fill then x.nslots else x.slots)
  let x1 := if fill && part then x.flag 0 else x
  let clean := decide (code = 0) && decide (x1.result &&& 0x23 = 0) && decide (listCount s2 p x.list = x.listCount)
  let r := match x.way with
    | none => (s2, x1)
    | some w =>
      if clean then
        (setCache s2 p w { cacheEnt s2 p w with state := 2, lastUse := cacheStamp s2 p, frames := x.slots, tokens := tokens,
                                                 result := x1.result }, x1.flag 7)
      else (setCache s2 p w {}, x1)
  let s3 := writeMarks r.1 p x ph tokens
  let s4 := modPart s3 p fun q => { q with samples := q.samples.filter fun y => y.ref ≠ x.ref }
  sampleDone (odInc s4 (Ad.partSamples p)) x code r.2.result x.slots tokens

/-- The sample active on a context: the first in submission order whose job is not parked. -/
def activeSample (s : State) (p ctx : Nat) : Option Sample :=
  (partOf s p).samples.find? fun x => x.ctx = ctx && !((partOf s p).parked.any fun j => j.seq = x.jobSeq)

/-- The writer at a context's frame is idle again. -/
def dropWriter (s : State) (p ctx : Nat) : State :=
  s.engines.foldl (fun t e =>
    if 18 ≤ e.1 ∧ e.2.busy = some (p, ctx) then modEngine t e.1 fun y => { y with busy := none } else t) s

/-- The sample active on a context ends because of its context (R289): 6 rejected, 7 FLUSH or RESET. -/
def endSample (s : State) (p ctx code : Nat) : State :=
  match activeSample s p ctx with
  | none => s
  | some x => endSampleWith (dropWriter s p ctx) p { x with forming := none } code true

end Sys2Proof.Machine
end

