-- ==== Sys2Proof/Machine/Media.lean ====
section
/-!
DEFINITION. The media engines (R249 to R285): requests, contexts, pictures, damaged streams and encoding.
What a codec's syntax says comes with the command, as do the samples and bytes its standard makes of it; what the part does
with them is here.
-/

namespace Sys2Proof.Machine

/-! ## Engines and the contexts they are on (R262 to R264) -/

/-- An engine is at work: at a picture, or draining the context it is on. -/
def engineBusy (s : State) (e : Nat) : Bool :=
  (engineOf s e).busy.isSome || (engineOf s e).on.any fun c => decide (ctxState s c.1 c.2 = 4)

/-- No engine is on a context any more. -/
def leaveEngine (s : State) (p ctx : Nat) : State :=
  s.engines.foldl (fun t e => if e.2.on = some (p, ctx) then modEngine t e.1 fun x => { x with on := none } else t) s

/-- An engine goes on a context (R263): the record of the one before is written back, which reads READY from then on if it
was RUNNING (log 160), and the new one's is read. -/
def takeOn (s : State) (e p ctx : Nat) : State :=
  if (engineOf s e).on = some (p, ctx) then modEngine (ctxLoad s p ctx) e fun x => { x with switched := false }
  else
    let s1 := match (engineOf s e).on with
      | none => s
      | some c => ctxDrop (if ctxState s c.1 c.2 = 2 then setCtxState s c.1 c.2 1 else s) c.1 c.2
    modEngine (ctxLoad (leaveEngine s1 p ctx) p ctx) e fun x => { x with on := some (p, ctx), switched := true }

/-- The context parks for its output (R269, R276), and its engine goes on to other requests. -/
def parkOutput (s : State) (p ctx : Nat) : State :=
  leaveEngine (ctxSave (ctxPut (setCtxState s p ctx 3) p ctx 4 1 2) p ctx) p ctx

/-- The context parks for a buffer (R260). -/
def parkBuffer (s : State) (p ctx : Nat) : State :=
  let s1 := odInc (ctxPut (setCtxState s p ctx 3) p ctx 4 1 1) (Ad.partMediaParks p)
  leaveEngine (modPart s1 p fun q => { q with parkedBuf := q.parkedBuf ++ [(ctxPool s p ctx, ctx)] }) p ctx

/-! ## Requests served and completed -/

/-- A media request's result: STATUS and OUTPUTS in its entry, and SEM released (R268). -/
def mediaDone (s : State) (q : MediaReq) (code : Nat) : State :=
  signalSem (entryWrite s q.ref 56 (leBytes 4 code ++ leBytes 4 q.outputs)) q.ref.p q.jobSeq q.sem 1 false

/-- A request's job is parked: the request waits for it. -/
def jobParked (s : State) (p : Nat) (q : MediaReq) : Bool := (partOf s p).parked.any fun j => j.seq = q.jobSeq

/-- A request may start: every earlier one of its queue has, but those of parked jobs (R265, log 160). -/
def mayStart (s : State) (p : Nat) (q : MediaReq) : Bool :=
  ((partOf s p).ctxs.flatMap (fun c => c.2.reqs) ++ (partOf s p).mediaWait.map Prod.snd).all fun r =>
    decide (r.ref.q ≠ q.ref.q) || decide (q.serial ≤ r.serial) || r.started || jobParked s p r

/-- RELEASE or KEY performed (R267, R277). -/
def instantReq (s : State) (p ctx : Nat) (q : MediaReq) : State :=
  if q.op = 7 then mediaDone (modCtx s p ctx fun c => { c with keyAsked := true }) q 0
  else
    let m := markOf s p q.buffer
    if (tget (partOf s p).marks q.buffer).isSome ∧ m.owner = ctx then mediaDone (setMark s p q.buffer { m with output := false }) q 0
    else mediaDone s q 5

/-- The RELEASE and KEY requests whose turn has come are performed: they take no engine. -/
def runInstant : Nat → State → Nat → State
  | 0, s, _ => s
  | n + 1, s, p =>
    match takeFirst (fun x => mayStart s p x.2) (partOf s p).mediaWait with
    | none => s
    | some (x, rest) => runInstant n (instantReq (modPart s p fun q => { q with mediaWait := rest }) p x.1 x.2) p

/-- Those whose turn a start has brought. -/
def afterStart (s : State) (p : Nat) : State := runInstant (partOf s p).mediaWait.length s p

/-- The request at the head of a context has started. -/
def startHead (s : State) (p ctx : Nat) : State :=
  afterStart (modCtx s p ctx fun c =>
    { c with reqs := match c.reqs with | [] => [] | q :: t => { q with started := true } :: t }) p

/-- The request at the head of a context completed, and the context left in a STATE. -/
def finishReq (s : State) (p ctx code st : Nat) : State :=
  match (ctxSt s p ctx).reqs with
  | [] => s
  | q :: t =>
    let s1 := modCtx (ctxDrop (setCtxState s p ctx st) p ctx) p ctx fun c => { c with reqs := t, lastDone := false, drainKind := 0 }
    afterStart (mediaDone s1 q code) p

/-- Every request of a context completed with a code, the context left in a STATE. -/
def failReqs (s : State) (p ctx code st : Nat) : State :=
  let qs := (ctxSt s p ctx).reqs
  let s1 := modCtx (ctxDrop (setCtxState s p ctx st) p ctx) p ctx fun c => { c with reqs := [], lastDone := false, drainKind := 0 }
  afterStart (qs.foldl (fun t q => mediaDone t q code) s1) p

/-- A request's fields (Table 10.6). -/
def MediaReq.ofBytes (r : ReqRef) (op seq : Nat) (bs : List Byte) : MediaReq :=
  { ref := r, op := op, input := fieldLE bs 8 8, length := fieldLE bs 16 4, buffer := fieldLE bs 20 4
    refbuf := fieldLE bs 24 4, start := fieldLE bs 28 4, sem := fieldLE bs 32 1, jobSeq := seq }

/-- The picture a buffer holds, where a context of the partition decoded it. -/
def pictureIn (s : State) (p b : Nat) : Option OutPic :=
  (tget (partOf s p).marks b).bind fun m => tget (ctxSt s p m.owner).pics b

/-- A source or reference buffer an encoder may read: within the context's pool (log 25), large enough for a 4:2:0 picture
of the context's size (R258), and where the part decoded what it holds, 4:2:0 of that size (R275, log 162). -/
def sourceOk (s : State) (p ctx b depth : Nat) : Bool :=
  let k := ctxPool s p ctx
  decide (b < 2 ^ 18) && decide (bits b 17 16 = k) && decide (bits b 15 0 < poolCount s p k) &&
    decide ((ctxLayout s p ctx depth).size ≤ poolSize s p k) &&
    (pictureIn s p b).all fun x => decide (x.chroma = 1) && decide (x.width = ctxField s p ctx 64 2) && decide (x.height = ctxField s p ctx 66 2)

/-- The code a request completes with at once (Table 10.10), checks in code order but that a poisoned record
is not read further; none when it is accepted. RELEASE's own check is made when it is performed. -/
def mediaCheck (s : State) (r : ReqRef) (op : Nat) (raw : List Byte) (q : MediaReq) : Option Nat :=
  let p := r.p
  let ctx := fieldLE raw 4 4 % 2 ^ 20
  let kind := ctxKind s p ctx
  let k := ctxPool s p ctx
  let inputBad := decide (op = 1) && (decide (q.length = 0) || decide (2 ^ 26 < q.length) || baseBad q.input ||
    decide (farSize s p < q.input % 2 ^ 41 + q.length))
  let kindBad := (decide (op = 1) && decide (kind ≠ 0)) || ((decide (op = 5) || decide (op = 7)) && decide (kind ≠ 1)) ||
    (decide (op = 6) && decide (kind ≠ 2))
  let reserved := !zeros raw 1 3 || decide (2 ^ 20 ≤ fieldLE raw 4 4) || decide (1 < fieldLE raw 33 1) || !zeros raw 34 22
  if latched s p (Ad.partMediaCtxCount p) ≤ ctx then some 1
  else if (farView s p (ctxAddr s p ctx) 256).2 then some 6
  else if ctxState s p ctx = 0 ∨ kindBad then some 1
  else if ctxField s p ctx 3 1 ≠ r.q then some 2
  else if reserved ∨ inputBad ∨ ctxReserved s p ctx then some 3
  else if ctxState s p ctx = 5 then some 4
  else if op = 5 ∧ !sourceOk s p ctx q.buffer q.depth then some 5
  else if op = 6 ∧ !(sourceOk s p ctx q.buffer q.depth && (decide (q.refbuf = 0xFFFFFFFF) || sourceOk s p ctx q.refbuf q.depth)) then some 5
  else if poolCount s p k = 0 then some 7
  else none

/-- The depth of the source a request names: what the part decoded there, else no field gives it and it is free, 8 or 10. -/
def sourceDepth (s : State) (p b : Nat) : Nat × State :=
  match pictureIn s p b with
  | some x => (x.depth, s)
  | none => let f := fresh s; (8 + 2 * (f.1 % 2), f.2)

/-- A media request as it issues (R265 to R268). -/
def mediaIssue (s : State) (r : ReqRef) (op : Nat) (raw : List Byte) : State :=
  match (partOf s r.p).job with
  | none => s
  | some j =>
    let q0 := MediaReq.ofBytes r op j.seq raw
    let ctx := fieldLE raw 4 4 % 2 ^ 20
    let d := if op = 5 ∨ op = 6 then sourceDepth s r.p q0.buffer else (8, s)
    let q := { q0 with depth := d.1, serial := (partOf s r.p).mediaSerial }
    let s := modPart d.2 r.p fun x => { x with mediaSerial := x.mediaSerial + 1 }
    match mediaCheck s r op raw q with
    | some code =>
      mediaDone (if code = 6 then endSample (modCtx (setCtxState s r.p ctx 5) r.p ctx fun c => { c with copy := [] }) r.p ctx 6 else s) q code
    | none =>
      if op = 4 ∨ op = 7 then afterStart (modPart s r.p fun x => { x with mediaWait := x.mediaWait ++ [(ctx, q)] }) r.p
      else
        modCtx s r.p ctx fun c =>
          { c with reqs := c.reqs ++ [q], keyAsked := c.keyAsked || (decide (op = 5) && bit (fieldLE raw 33 1) 0) }

/-- DECODE (R267). -/
def execDecode (r : ReqRef) (raw : List Byte) (s : State) : Res := .next (mediaIssue s r 1 raw)

/-- FLUSH (R267). -/
def execFlush (r : ReqRef) (raw : List Byte) (s : State) : Res := .next (mediaIssue s r 2 raw)

/-- RESET (R267). -/
def execReset (r : ReqRef) (raw : List Byte) (s : State) : Res := .next (mediaIssue s r 3 raw)

/-- RELEASE (R267). -/
def execRelease (r : ReqRef) (raw : List Byte) (s : State) : Res := .next (mediaIssue s r 4 raw)

/-- ENCODE (R275). -/
def execEncode (r : ReqRef) (raw : List Byte) (s : State) : Res := .next (mediaIssue s r 5 raw)

/-- ANALYSE (R281). -/
def execAnalyse (r : ReqRef) (raw : List Byte) (s : State) : Res := .next (mediaIssue s r 6 raw)

/-- KEY (R277). -/
def execKey (r : ReqRef) (raw : List Byte) (s : State) : Res := .next (mediaIssue s r 7 raw)

/-! ## The choice of the next picture (R280) -/

/-- The weight of an engine for a partition (R360). Engines 18 to 25 are the tensor writers TW0 to TW7, whose weight is the sum
of the decode shares on their die. -/
def engineShare (s : State) (p e : Nat) : Nat :=
  if e < 16 then formed s p (Ad.partDecShare p e)
  else if e < 18 then formed s p (Ad.partEncShare p (e - 16))
  else ((List.range 8).map fun i => formed s p (Ad.partDecShare p (8 * ((e - 18) / 4) + i))).sum

/-- The request an engine serves next for a context: DECODE on a decode engine, ENCODE or ANALYSE on an encode engine, FLUSH
and RESET on one of the context's KIND (R264); none when the context is not ready or is on another engine, its request's
turn in the queue has not come, or its job is parked. -/
def ctxReady (s : State) (p ctx e : Nat) : Option MediaReq :=
  match (ctxSt s p ctx).reqs with
  | [] => none
  | q :: _ =>
    let st := ctxState s p ctx
    let free := decide (st = 1) || (decide (st = 2) && decide ((engineOf s e).on = some (p, ctx)))
    if decide (e < 16) = decide (ctxKind s p ctx = 0) && free && !(ctxSt s p ctx).lastDone && (q.started || mayStart s p q) &&
        !jobParked s p q then some q
    else none

/-- A partition has a ready request for an engine. -/
def partReady (s : State) (p e : Nat) : Bool :=
  decide (0 < engineShare s p e) && (partOf s p).ctxs.any fun c => (ctxReady s p c.1 e).isSome

/-- A partition's credit with an engine. -/
def creditOf (s : State) (e p : Nat) : Int := (tget (engineOf s e).credit p).getD 0

/-- The engine serves the partition next (R280). -/
def servesNext (s : State) (e p : Nat) : Bool :=
  partReady s p e && s.parts.all fun x => !partReady s x.1 e || decide (creditOf s e x.1 ≤ creditOf s e p)

/-- A picture's VCLK charged to its partition; every partition's credit grows by its share of them (R280,
log 26). -/
def charge (s : State) (e p cycles : Nat) : State :=
  let total := (s.parts.map fun x => engineShare s x.1 e).foldl (· + ·) 0
  let grown := s.parts.map fun x =>
    (x.1, creditOf s e x.1 + (cycles * engineShare s x.1 e / max total 1 : Nat) - (if x.1 = p then (cycles : Int) else 0))
  let s1 := if e < 16 then anem s (0x14 + e / 8) 0x20 cycles else if e < 18 then s else anem s (0x14 + (e - 18) / 4) 0x21 cycles
  modEngine s1 e fun y => { y with credit := grown }

/-- A time held between bounds. -/
def within (lo hi n : Nat) : Nat := max lo (min hi n)

/-! ## Headers and limits (R249, R300) -/

/-- A row of Table 10.1 has the depth and chroma format (0 4:0:0, 1 4:2:0, 2 4:2:2), and interlace tools where asked. -/
def decodable (codec depth chroma : Nat) (interlaced : Bool) : Bool :=
  match codec with
  | 0 => decide (depth = 8) && [1, 2].contains chroma
  | 1 => [8, 10].contains depth && [0, 1, 2].contains chroma
  | 2 => [8, 10].contains depth && [1, 2].contains chroma
  | 3 => [8, 10].contains depth && [0, 1].contains chroma && !interlaced
  | _ => false

/-- The first failing check of R300, in the code order of Table 11.3. -/
def rejectCode (s : State) (p ctx : Nat) (h : Option SeqHdr) (psets : List (Nat × List Byte)) (au : Nat) : Option Nat :=
  let f := ctxField s p ctx
  let psetsFull := psets.any fun x => decide (65536 < x.1 + x.2.length)
  match h with
  | none => if f 16 4 < au then some 6 else if psetsFull then some 8 else none
  | some x =>
    let lay := layoutOf x.width x.height x.depth x.chroma x.interlaced (decide (f 1 1 = 3)) (bit (f 6 1) 0)
    if f 8 2 < x.width ∨ x.width < 16 then some 1
    else if f 10 2 < x.height ∨ x.height < 16 then some 2
    else if f 12 1 < x.depth then some 3
    else if f 13 1 < x.refs then some 4
    else if f 14 2 < x.tiles then some 5
    else if f 16 4 < au then some 6
    else if !x.supported || !decodable (f 1 1) x.depth x.chroma x.interlaced then some 7
    else if psetsFull then some 8
    else if poolSize s p (ctxPool s p ctx) < lay.size then some 9
    else none

/-- Parameter sets put in the context's store (R263). -/
def storePsets (s : State) (p ctx : Nat) (xs : List (Nat × List Byte)) : State :=
  let base := ctxField s p ctx 32 8
  let s1 := xs.foldl (fun t x => mediaWrite t p (base % 2 ^ 41 + x.1) (bits base 47 46) x.2 false) s
  modCtx s1 p ctx fun c => { c with psetLen := xs.foldl (fun n x => max n (x.1 + x.2.length)) c.psetLen }

/-- A sequence header taken into effect without a drain: the first of a sequence, or an unchanged one. -/
def takeHeader (s : State) (p ctx : Nat) (x : SeqHdr) : State :=
  let s1 := ctxPut (ctxPut s p ctx 20 2 x.width) p ctx 22 2 x.height
  modCtx s1 p ctx fun c => { c with sequenced := true, depth := x.depth, chroma := x.chroma, interlaced := x.interlaced }

/-! ## Sizes and times of pictures -/

/-- 16 × 16 blocks of a picture. -/
def blocks16 (w h : Nat) : Nat := (w + 15) / 16 * ((h + 15) / 16)

/-- c_block of Table 10.2. -/
def blockCost (codec : Nat) : Nat := match codec with | 0 => 150 | 3 => 600 | _ => 300

/-- The lines of the picture an engine decodes: half the frame's for a field (R255). -/
def codedLines (h : Nat) (field : Option Bool) : Nat := if field.isSome then h / 2 else h

/-- T of R255, without a context's change. -/
def decodeTime (codec nblk nbit : Nat) : Nat := max (nblk * blockCost codec) nbit + 10000

/-- The budget B of R271. -/
def decodeBudget (codec nblk nbit : Nat) : Nat := 2 * (nblk * blockCost codec + nbit) + 40000

/-- A decoded picture's CYCLES (R255, R271): its time, and up to 14,400 VCLK where the context changed; no more than a
damaged picture's bound, and no less than B where the budget ended. -/
def decodeCycles (x : Engine) (codec nblk concealed n : Nat) : Nat :=
  let b := decodeBudget codec nblk (8 * x.au)
  let t := decodeTime codec nblk (8 * x.au)
  if x.budget.isSome then within b (b + 40 * nblk + 2000) n
  else if concealed ≠ 0 then min n (b + 40 * nblk + 2000)
  else within t (t + if x.switched then 14400 else 0) n

/-- An encoded frame's or analysis' CYCLES (R256): `c` VCLK a block. -/
def encodeCycles (x : Engine) (c nblk n : Nat) : Nat :=
  within (nblk * c + 10000) (nblk * c + 10000 + if x.switched then 14400 else 0) n

/-! ## Writing samples (R251, R253, R254, R273) -/

/-- A buffer is a reference picture of the context. -/
def isRefOf (s : State) (p ctx b : Nat) : Bool :=
  let m := markOf s p b
  (tget (partOf s p).marks b).isSome && decide (m.owner = ctx) && (m.short || m.long)

/-- The uniform value at a depth (R273). -/
def uniform (depth n : Nat) : List Byte := sampleBytes depth (List.replicate n (2 ^ (depth - 1)))

/-- `n` samples of a reference's line, uniform where there is none or it reads poisoned (R273). -/
def refSamples (s : State) (p : Nat) (src : Option Nat) (off depth n : Nat) : List Byte :=
  match src with
  | none => uniform depth n
  | some b =>
    let v := farView s p (bufAddr s p b + off) (n * if depth = 8 then 1 else 2)
    if v.2 then uniform depth n else v.1

/-- A picture being written: its buffer and layout, its samples, the blocks rebuilt, and where concealed blocks come from. -/
structure Canvas where
  buf : Nat
  hint : Nat
  lay : Layout
  depth : Nat
  w : Nat
  h : Nat
  chroma : Nat
  field : Option Bool
  luma : Array Nat
  cbcr : Array Nat
  good : Array Bool
  src : Option Nat

/-- The line of the woven buffer a picture's line lies on (R251): top field lines are even. -/
def wovenLine (field : Option Bool) (y : Nat) : Nat := match field with | none => y | some b => 2 * y + if b then 1 else 0

/-- A line of a plane written: `row` is its row of blocks, `n` its samples, `at_` the plane's place in the buffer. -/
def Canvas.line (f : Canvas) (s : State) (p at_ row y n : Nat) (px : Array Nat) : State :=
  let bw := (f.w + 15) / 16
  let place := at_ + wovenLine f.field y * f.lay.pitch
  let sb := if f.depth = 8 then 1 else 2
  let bs := (List.range ((n + 15) / 16)).flatMap fun bx =>
    let k := min 16 (n - 16 * bx)
    if f.good.getD (row * bw + min bx (bw - 1)) false then
      sampleBytes f.depth ((List.range k).map fun i => px.getD (y * n + 16 * bx + i) 0)
    else refSamples s p f.src (place + 16 * bx * sb) f.depth k
  mediaWrite s p (bufAddr s p f.buf + place) f.hint bs false

/-- The samples of a chroma line: Cb and Cr interleaved. -/
def chromaWidth (w : Nat) : Nat := 2 * ((w + 1) / 2)

/-- Chroma lines of `h` luma lines. -/
def chromaLines (h chroma : Nat) : Nat := if chroma = 1 then (h + 1) / 2 else h

/-- A picture's samples written in its buffer: rebuilt blocks as decoded, the others concealed (R273), and 2^(depth − 1) in
the chroma plane of a 4:0:0 picture (R254). -/
def Canvas.write (f : Canvas) (s : State) (p : Nat) : State :=
  let s1 := (List.range f.h).foldl (fun t y => f.line t p 0 (y / 16) y f.w f.luma) s
  let n := chromaWidth f.w
  (List.range (chromaLines f.h f.chroma)).foldl (fun t y =>
    if f.chroma = 0 then
      mediaWrite t p (bufAddr t p f.buf + f.lay.chromaAt + wovenLine f.field y * f.lay.pitch) f.hint (uniform f.depth n) false
    else f.line t p f.lay.chromaAt (if f.chroma = 1 then y / 8 else y / 16) y n f.cbcr) s1

/-- The lines of a missing field copied from the present field's line above, or below at the top (R253):
`bottom` is the parity present. -/
def concealField (s : State) (p b hint : Nat) (lay : Layout) (h chroma : Nat) (bottom : Bool) : State :=
  let plane := fun (t : State) (at_ lines : Nat) =>
    (List.range lines).foldl (fun u y =>
      if decide (y % 2 = 1) = bottom then u
      else
        let src := if y = 0 then 1 else y - 1
        let row := farView u p (bufAddr u p b + at_ + src * lay.pitch) lay.pitch
        mediaWrite u p (bufAddr u p b + at_ + y * lay.pitch) hint row.1 row.2) t
  plane (plane s 0 h) lay.chromaAt (chromaLines h chroma)

/-! ## Decoding: the start of a picture -/

/-- The buffer a context's next picture may take (R260): contexts that a free buffer has let go on come first. -/
def bufferFor (s : State) (p ctx : Nat) : Option Nat :=
  let k := ctxPool s p ctx
  let ahead := ((partOf s p).ctxs.filter fun c => c.2.resumed && decide (ctxPool s p c.1 = k)).length
  if (ctxSt s p ctx).resumed || decide (ahead = 0) then freeBuf s p k
  else if ahead < (((List.range (poolCount s p k)).map (k * 65536 + ·)).filter (bufFree s p)).length then freeBuf s p k
  else none

/-- An engine starts a picture in a buffer (R259): `x` sets what it works from. -/
def openPicture (s : State) (e p ctx b : Nat) (x : Engine → Engine) : State :=
  let s1 := setMark s p b { markOf s p b with nonref := true, owner := ctx }
  modEngine (setCtxState (modCtx s1 p ctx fun c => { c with resumed := false }) p ctx 2) e fun y =>
    { x y with busy := some (p, ctx), buffer := b, budget := none, slices := 0, emitted := 0 }

/-- The decoded frame's mark and its place among pictures that wait for output, once all of it is there. -/
def frameReady (s : State) (p ctx b : Nat) (x : OutPic) (waits : Bool) : State :=
  let s1 := setMark s p b { markOf s p b with nonref := false }
  modCtx s1 p ctx fun y =>
    { y with pics := tset y.pics b x, half := none, waiting := if waits then y.waiting ++ [b] else y.waiting }

/-- Blocks counted as concealed, and their picture (R272). -/
def countConcealed (s : State) (p n : Nat) : State :=
  if n = 0 then s else odAdd (odInc s (Ad.partDecConcealedFrames p)) (Ad.partDecConcealedBlocks p) n

/-- A frame whose second field does not come (R253): under WEAVE and BOB its lines and blocks are concealed. -/
def loneField (s : State) (p ctx : Nat) (h : Half) : State :=
  let x := h.pic
  let hint := bits (ctxField s p ctx 2 1) 5 4
  if bits (ctxField s p ctx 2 1) 1 0 = 0 then frameReady s p ctx h.buffer { x with oneField := some h.bottom } h.waits
  else
    let n := blocks16 x.width (x.height / 2)
    let s1 := concealField s p h.buffer hint (ctxLayout s p ctx x.depth) x.height x.chroma h.bottom
    let s2 := modCtx (countConcealed s1 p n) p ctx fun c => { c with concealedRefs := addTo c.concealedRefs h.buffer }
    frameReady s2 p ctx h.buffer { x with flags := x.flags ||| 8, concealed := x.concealed + n, oneField := some h.bottom } h.waits

/-- A first field left without its second. -/
def closeHalf (s : State) (p ctx : Nat) : State :=
  match (ctxSt s p ctx).half with
  | none => s
  | some h => loneField s p ctx h

/-- A context that has drained, parked or come to the end of its request as its engine leaves a picture (R264, R268,
R269): a held record parks it; else the request completes once its last picture has ended. -/
def settleCtx (s : State) (p ctx : Nat) : State :=
  let c := ctxSt s p ctx
  if c.held ≠ [] then parkOutput s p ctx
  else if c.lastDone ∧ c.drainKind = 0 then finishReq s p ctx 0 1
  else ctxSave s p ctx

/-- Waiting buffers in output order (R267). -/
def inOrder (pics : Tbl OutPic) (bs : List Nat) : List Nat :=
  let key := fun b => ((tget pics b).map OutPic.order).getD 0
  bs.foldl (fun l b => l.takeWhile (fun c => decide (key c ≤ key b)) ++ b :: l.dropWhile fun c => decide (key c ≤ key b)) []

/-- A context starts draining (R264): kind 1 FLUSH, 2 RESET, 3 rejection, 4 size change. What waits for output is output in
output order, but at a RESET or where the bitstream discards it. -/
def startDrain (s0 : State) (p ctx kind : Nat) (discard : Bool) : State :=
  let s := closeHalf s0 p ctx
  let c := ctxSt s p ctx
  let s1 := modCtx (setCtxState s p ctx 4) p ctx fun c =>
    { c with drainKind := kind, waiting := if kind = 2 ∨ discard then [] else c.waiting }
  let s2 := (inOrder c.pics (ctxSt s1 p ctx).waiting).foldl (fun t b => outputPic t p ctx b) s1
  if (ctxSt s2 p ctx).held ≠ [] then parkOutput s2 p ctx else s2

/-- A decode engine starts its next picture (R260, R266, R271, R300 to R302). -/
def startDecode (s : State) (e p ctx : Nat) (pic : PicStart) (q : MediaReq) : State :=
  let left := q.length - q.pos
  let au := min pic.auBytes left
  if au = 0 then settleCtx (modCtx (setCtxState s p ctx 2) p ctx fun c => { c with lastDone := true }) p ctx
  else
    match rejectCode s p ctx pic.header pic.psets pic.auBytes with
    | some c => startDrain (modCtx s p ctx fun y => { y with rejectTo := c }) p ctx 3 false
    | none =>
      let c := ctxSt s p ctx
      let changed := pic.header.any fun x => c.sequenced && (decide (ctxField s p ctx 20 2 ≠ x.width) ||
        decide (ctxField s p ctx 22 2 ≠ x.height) || decide (c.depth ≠ x.depth) || decide (c.chroma ≠ x.chroma))
      if changed then
        let x := pic.header
        let s1 := modCtx s p ctx fun y =>
          { y with nextSize := ((x.map SeqHdr.width).getD 0, (x.map SeqHdr.height).getD 0),
                   nextForm := ((x.map SeqHdr.depth).getD 8, (x.map SeqHdr.chroma).getD 1) }
        startDrain s1 p ctx 4 (x.any SeqHdr.discardPrior)
      else
        let joins := pic.second && c.half.any fun h => decide (pic.field = some (!h.bottom))
        let s1 := if joins then s else closeHalf s p ctx
        match if joins then c.half.map Half.buffer else bufferFor s1 p ctx with
        | none => parkBuffer s1 p ctx
        | some b =>
          let a := q.input % 2 ^ 41 + q.pos
          let bad := (farView s1 p a au).2
          let s2 := mediaRead s1 p a au (bits q.input 47 46)
          let s3 := storePsets (match pic.header with | some x => takeHeader s2 p ctx x | none => s2) p ctx pic.psets
          openPicture s3 e p ctx b fun y =>
            { y with au := au, cut := bad || decide (left < pic.auBytes), field := pic.field, second := joins, isKey := false }

/-! ## Encoding: the start of a frame -/

/-- The bytes free in an encoder's ring between its position and BS_TAIL (R276, log 27). -/
def bsFree (s : State) (p ctx : Nat) : Nat :=
  let size := ctxField s p ctx 92 4
  let tail := ctxField s p ctx 96 4
  let pos := (ctxSt s p ctx).bsPos
  if pos = tail then size else (tail + size - pos) % max size 1

/-- The next frame is a key picture (R277). -/
def keyDue (s : State) (p ctx : Nat) : Bool :=
  let c := ctxSt s p ctx
  let n := ctxField s p ctx 70 2
  !c.coded || c.keyAsked || (decide (n ≠ 0) && decide (n ≤ c.sinceKey))

/-- The bytes a frame's slices may take: under CBR VBV_BITS / 8 (R276). -/
def frameLimit (s : State) (p ctx au : Nat) : Nat :=
  if ctxField s p ctx 72 1 = 1 then min au (ctxField s p ctx 80 4 / 8) else au

/-- The depth a source is coded at (R275): 8 for H.264, and for HEVC of a 10-bit source Main 10 or Main, which no field
chooses: a free value. -/
def codedDepth (s : State) (p ctx depth : Nat) : Nat × State :=
  if ctxField s p ctx 1 1 = 1 ∨ depth = 8 then (8, s)
  else
    let f := fresh s
    (8 + 2 * (f.1 % 2), f.2)

/-- The plane of a buffer's luma as an encoder codes it, and its poison. -/
def sourcePlane (s : State) (p ctx b depth coded : Nat) : Plane × Bool :=
  let v := lumaPlane s p (bufAddr s p b) (ctxLayout s p ctx depth).pitch depth (ctxField s p ctx 64 2) (ctxField s p ctx 66 2)
  (if depth ≠ coded then v.1.narrow else v.1, v.2)

/-- The read of a source's or reference's luma and chroma by the encode engine. -/
def readSource (s : State) (p ctx b depth : Nat) : State :=
  let lay := ctxLayout s p ctx depth
  mediaRead s p (bufAddr s p b) (lay.chromaAt + lay.pitch * lay.chromaLines) (bits (latched s p (Ad.partPoolBase p (bits b 17 16))) 47 46)

/-- The motion search of a P frame (R278). -/
def encodeSearch (s : State) (p ctx : Nat) (q : MediaReq) (coded ref : Nat) : List (Int × Int × Nat) :=
  let cur := (sourcePlane s p ctx q.buffer q.depth coded).1
  let old := (sourcePlane s p ctx ref coded coded).1
  Search.blocks ⟨cur, old, decide (ctxField s p ctx 1 1 = 2), coded, ctxField s p ctx 1 1, some (ctxField s p ctx 73 1)⟩

/-- An encode engine starts a frame, or parks the context when the frame's slices do not fit (R276). -/
def startEncode (s : State) (e p ctx : Nat) (pic : PicStart) (q : MediaReq) : State :=
  let need := frameLimit s p ctx pic.auBytes
  if bsFree s p ctx < need then parkOutput (modCtx s p ctx fun c => { c with need := need }) p ctx
  else
    match bufferFor s p ctx with
    | none => parkBuffer s p ctx
    | some b =>
      let key := keyDue s p ctx
      let d := codedDepth (readSource s p ctx q.buffer q.depth) p ctx q.depth
      let mv := match (ctxSt s p ctx).encRef with
        | some r => if key then [] else encodeSearch d.2 p ctx q d.1 r
        | none => []
      let s1 := openPicture d.2 e p ctx b fun y => { y with au := need, isKey := key, depth := d.1, motion := mv }
      modCtx s1 p ctx fun c => { c with keyAsked := false }

/-- An encode engine starts an analysis (R281). -/
def startAnalyse (s : State) (e p ctx : Nat) (q : MediaReq) : State :=
  let s1 := readSource s p ctx q.buffer q.depth
  modEngine (setCtxState s1 p ctx 2) e fun x => { x with busy := some (p, ctx), buffer := q.buffer, depth := q.depth, budget := none }

/-! ## Faults -/

/-- The block of Table 15.1 an engine lies in: DE0 to DE7, EE0 and TW0 to TW3 on VD0, the rest on VD1. -/
def engineBlock (e : Nat) : Nat := if e < 16 then 20 + e / 8 else if e < 18 then 20 + (e - 16) else 20 + (e - 18) / 4

/-- The partitions that use a media die (R383). -/
def vdUsers (s : State) (b : Nat) : List Nat :=
  (s.parts.filter fun e => !inState s e.1 .absent &&
    (List.range 18).any fun e' => decide (engineBlock e' = b) && decide (engineShare s e.1 e' ≠ 0)).map (·.1)

/-- A fault of a media engine (R442): its reset starts, or within a recovery window its die's (Table 17.6). -/
def mediaFault (s : State) (c : Code) (p : Option Nat) (e : Nat) : State :=
  let b := engineBlock e
  sharedFault s c p (b * 256 + (if e < 16 then e % 8 else 8)) { kind := 5, target := e } (some (b - 20)) (vdUsers s b)

/-- An access outside an engine's window (R274): counted and recorded. -/
def windowBlocked (s : State) (p e : Nat) : State := mediaFault (odInc s Ad.mediaWindowBlocked) .mediaWindowBlocked (some p) e

/-- PICTURE_START (R263, R264, R280). -/
def execPictureStart (e : Nat) (pic : PicStart) (s0 : State) : Res :=
  if engineBusy s0 e ∨ !servesNext s0 e pic.p ∨ blockCut s0 (engineBlock e) then .next s0
  else
    match ctxReady s0 pic.p pic.ctx e with
    | none => .next s0
    | some q =>
      let p := pic.p
      let ctx := pic.ctx
      let bad := (farView s0 p (ctxAddr s0 p ctx) 2048).2 ||
        (farView s0 p (ctxField s0 p ctx 32 8 % 2 ^ 41) (ctxSt s0 p ctx).psetLen).2
      let s := startHead (takeOn s0 e p ctx) p ctx
      if bad then .next (endSample (failReqs s p ctx 6 5) p ctx 6)
      else
        match q.op with
        | 1 => .next (startDecode s e p ctx pic q)
        | 5 => .next (startEncode s e p ctx pic q)
        | 6 => .next (startAnalyse s e p ctx q)
        | op => .next (startDrain s p ctx (op - 1) false)

/-- The engine a parked context goes on again: the lowest-numbered one of its KIND that its partition uses and that is idle. -/
def idleEngine (s : State) (p ctx : Nat) : Option Nat :=
  (List.range 18).find? fun e =>
    (decide (e < 16) == decide (ctxKind s p ctx = 0)) && decide (0 < engineShare s p e) && !engineBusy s e && !blockCut s (engineBlock e)

/-- BUFFER_UNPARK (R260): the first context parked for the pool goes on when a buffer is free for it. -/
def execBufferUnpark (p pool : Nat) (s : State) : Res :=
  match takeFirst (fun x => x.1 == pool) (partOf s p).parkedBuf with
  | none => .next s
  | some (x, rest) =>
    match bufferFor s p x.2, idleEngine s p x.2 with
    | some _, some e =>
      let s1 := modCtx (modPart (takeOn s e p x.2) p fun q => { q with parkedBuf := rest }) p x.2 fun c => { c with resumed := true }
      .next (ctxPut (setCtxState s1 p x.2 2) p x.2 4 1 0)
    | _, _ => .next s

/-! ## Decoding: the end of a picture -/

/-- Slices or tiles with their blocks in order, and the place of each's first error. -/
abbrev Units := List (List Nat × Option Nat)

/-- The blocks of a slice up to the first that overlaps another's or exceeds the picture of `n` blocks (R272), with the blocks
taken so far. -/
def takeBlocks (n : Nat) : Array Bool → List Nat → Array Bool × List Nat
  | m, [] => (m, [])
  | m, k :: t =>
    if n ≤ k ∨ m.getD k false then (m, [])
    else
      let r := takeBlocks n (m.setIfInBounds k true) t
      (r.1, k :: r.2)

/-- The blocks rebuilt, in decoding order (R272): each slice or tile up to its first error. -/
def rebuiltOf (n : Nat) (us : Units) : List Nat :=
  (us.foldl (fun (a : Array Bool × List Nat) u =>
    let r := takeBlocks n a.1 (u.1.take (u.2.getD u.1.length))
    (r.1, a.2 ++ r.2)) (Array.replicate n false, [])).2

/-- An error at a block. -/
def errIn (us : Units) (b : Nat) : Units :=
  us.map fun u => if u.1.contains b then (u.1, some (min (u.2.getD u.1.length) (u.1.idxOf b))) else u

/-- An error at a place of the decoding order. -/
def errAt : Nat → Units → Units
  | _, [] => []
  | k, u :: t => if k < u.1.length then (u.1, some (min k (u.2.getD u.1.length))) :: t else u :: errAt (k - u.1.length) t

/-- The ranges an engine may read for a context (R274): the request's input, the record, the parameter-set store and the
buffers marked for the context. -/
def readWindows (s : State) (p ctx : Nat) : List (Nat × Nat) :=
  let inp := ((ctxSt s p ctx).reqs.head?.map fun q => (q.input % 2 ^ 41, q.length)).toList
  let own := (partOf s p).marks.filter fun m => decide (m.2.owner = ctx)
  (inp ++ [(ctxAddr s p ctx, 2048), (ctxField s p ctx 32 8 % 2 ^ 41, 65536)]) ++
    own.map fun m => (bufAddr s p m.1, poolSize s p (bits m.1 17 16))

/-- A range lies in one of the ranges. -/
def inWindows (ws : List (Nat × Nat)) (a n : Nat) : Bool := ws.any fun w => decide (w.1 ≤ a) && decide (a + n ≤ w.1 + w.2)

/-- What an engine finds of a picture beside its syntax: errors of poisoned or missing input, blocks with a poisoned
reference sample, the reads outside the window, the first write outside it, and whether the syntax errors were open. -/
structure Damage where
  units : Units
  poisoned : List Nat
  outside : Nat
  blocked : Option Nat
  deriving DecidableEq, Repr

/-- The damage of a picture (R272 to R274). A cut or poisoned input whose first affected block the syntax does not give has
it at a free place (log 163). -/
def damageOf (s : State) (p ctx : Nat) (x : Engine) (size : Nat) (fin : PicEnd) : Damage × State :=
  let ws := readWindows s p ctx
  let inp := ((ctxSt s p ctx).reqs.head?.map fun q => (q.input % 2 ^ 41, q.length)).toList
  let bad := fun (r : Nat × Nat × Nat) => inWindows ws r.2.1 r.2.2 && (farView s p r.2.1 r.2.2).2
  let us0 := if fin.headerBad then [] else fin.units
  let us1 := (fin.reads.filter fun r => bad r && inWindows inp r.2.1 r.2.2).foldl (fun u r => errIn u r.1) us0
  let open_ := x.cut && us1.all (·.2.isNone)
  let f := fresh s
  let us := if open_ then errAt (f.1 % max 1 ((us1.map fun u => u.1.length).sum)) us1 else us1
  ({ units := us, poisoned := (fin.reads.filter fun r => bad r && !inWindows inp r.2.1 r.2.2).map (·.1),
     outside := (fin.reads.filter fun r => !inWindows ws r.2.1 r.2.2).length,
     blocked := (fin.writes.find? fun w => decide (size < w.2.1 + w.2.2.length)).map (·.1) },
   if open_ then f.2 else s)

/-- The blocks that keep what was decoded: rebuilt before an error, the budget's end and a write outside the window, with no
poisoned reference sample. -/
def keptBlocks (n : Nat) (x : Engine) (d : Damage) : List Nat :=
  let l := (rebuiltOf n d.units).take (x.budget.getD n)
  (match d.blocked with
   | none => l
   | some b => l.takeWhile (· ≠ b)).filter fun b => !d.poisoned.contains b

/-- Marks at a picture's end (Table 10.4). NONREF stays until the frame is whole. -/
def endMarks (s : State) (p ctx b : Nat) (fin : PicEnd) : State :=
  let own := fun (t : State) (x : Nat) => (tget (partOf t p).marks x).isSome && decide ((markOf t p x).owner = ctx)
  let m := markOf s p b
  let s1 := setMark s p b { m with short := m.short || decide (fin.isRef = 1), long := m.long || decide (fin.isRef = 2) }
  let s2 := fin.unmark.foldl (fun t x => if own t x then setMark t p x { markOf t p x with short := false, long := false } else t) s1
  fin.toLong.foldl (fun t x =>
    if own t x ∧ (markOf t p x).short then setMark t p x { markOf t p x with short := false, long := true } else t) s2

/-- A picture's vectors written in its motion tensor (R282). A field's elements take the rows of its parity (log 162). -/
def writeVectors (s : State) (p b hint : Nat) (lay : Layout) (codec w : Nat) (field : Option Bool) (good : Array Bool)
    (vs : List (Option (Int × Int) × Option (Int × Int))) : State :=
  let n := (w + 7) / 8
  let bw := (w + 15) / 16
  let rows := motionRows lay w ((List.range (n * lay.motionRows)).map fun i =>
    exportElem codec (!good.getD (i / n / 2 * bw + i % n / 2) false) (vs.getD i (none, none)))
  (List.range lay.motionRows).foldl (fun t r =>
    let y := wovenLine field r
    if y < lay.motionRows then mediaWrite t p (bufAddr t p b + lay.motionAt + y * lay.motionRow) hint (rows.getD r []) false else t) s

/-- A decoded field or frame's figures joined to those of its frame's first field. -/
def joinPic (h : Option Half) (x : OutPic) : OutPic :=
  match h with
  | none => x
  | some y => { x with flags := x.flags ||| y.pic.flags, concealed := x.concealed + y.pic.concealed, cycles := x.cycles + y.pic.cycles,
                       interlaced := true, bottomFirst := y.bottom }

/-- What was decoded of a picture is written to its buffer (R254, R273, R274, R282): samples, the other regions' bytes up to
the first that leaves it, and the vectors it exports. -/
def writePicture (s : State) (p ctx : Nat) (x : Engine) (d : Damage) (good : List Nat) (fin : PicEnd) : State :=
  let c := ctxSt s p ctx
  let w := ctxField s p ctx 20 2
  let h := codedLines (ctxField s p ctx 22 2) x.field
  let lay := ctxLayout s p ctx 8
  let hint := bits (ctxField s p ctx 2 1) 5 4
  let marks := good.foldl (fun (a : Array Bool) k => a.setIfInBounds k true) (Array.replicate (blocks16 w h) false)
  let src := (fin.list0.toList ++ c.lastRef.toList).find? (isRefOf s p ctx)
  let f : Canvas := { buf := x.buffer, hint := hint, lay := lay, depth := c.depth, w := w, h := h, chroma := c.chroma, field := x.field,
                      luma := fin.luma.toArray, cbcr := fin.chroma.toArray, good := marks, src := src }
  let s1 := (fin.writes.takeWhile fun r => decide (some r.1 ≠ d.blocked)).foldl (fun t r =>
    mediaWrite t p (bufAddr t p x.buffer + r.2.1) hint r.2.2 false) (f.write s p)
  if bit (ctxField s p ctx 6 1) 0 then writeVectors s1 p x.buffer hint lay (ctxField s p ctx 1 1) w x.field marks fin.vectors else s1

/-- A decoded picture's record figures (Table 10.7). -/
def pictureFigures (s : State) (p ctx : Nat) (x : Engine) (concealed : Nat) (missing : Bool) (fin : PicEnd) : OutPic :=
  let c := ctxSt s p ctx
  let w := ctxField s p ctx 20 2
  let h := ctxField s p ctx 22 2
  let flag := fun (v : Bool) (n : Nat) => if v then 2 ^ n else 0
  let flags := flag fin.key 0 + flag (decide (concealed ≠ 0)) 3 + flag x.budget.isSome 4 + flag missing 5 +
    flag (fin.refs.any fun r => r.any c.concealedRefs.contains) 6 + flag fin.grain 7 + flag (bit (ctxField s p ctx 6 1) 0) 8
  { flags := flags, avgQp := fin.avgQp, depth := c.depth, chroma := c.chroma, concealed := concealed, width := w, height := h
    cycles := decodeCycles x (ctxField s p ctx 1 1) (blocks16 w (codedLines h x.field)) concealed fin.cycles
    interlaced := fin.interlaced || x.field.isSome, bottomFirst := (x.field.map id).getD fin.bottomFirst, order := fin.order }

/-- A picture's counts (R271 to R273, R284). -/
def countPicture (s : State) (e p : Nat) (x : OutPic) (missing : Bool) : State :=
  let s1 := countConcealed s p x.concealed
  let s2 := if missing then odInc s1 (Ad.partDecMissingRefs p) else s1
  charge (odAdd (odInc s2 (Ad.decPictures e)) (Ad.decBusyVclk e) x.cycles) e p x.cycles

/-- The pictures a decoded one leaves to its context: a first field waits for the second unless it is alone; else the frame
is whole (R251, R253). -/
def placePicture (s : State) (p ctx : Nat) (x : Engine) (pic : OutPic) (fin : PicEnd) : State :=
  let c := ctxSt s p ctx
  let h := if x.second then c.half else none
  match x.field, h with
  | some bottom, none =>
    let y : Half := ⟨x.buffer, bottom, pic, fin.waits⟩
    if fin.alone then loneField s p ctx y else modCtx s p ctx fun c => { c with half := some y }
  | _, _ => frameReady s p ctx x.buffer (joinPic h pic) (fin.waits || h.any Half.waits)

/-- A decoded picture's end (R251 to R254, R259, R266, R267, R271 to R274). -/
def endDecode (s : State) (e p ctx : Nat) (fin : PicEnd) : State :=
  let x := engineOf s e
  let n := blocks16 (ctxField s p ctx 20 2) (codedLines (ctxField s p ctx 22 2) x.field)
  let d := damageOf s p ctx x (ctxLayout s p ctx 8).size fin
  let good := keptBlocks n x d.1
  let concealed := n - good.length
  let missing := fin.refs.any fun r => !r.any fun b => isRefOf s p ctx b || decide (b = x.buffer)
  let pic := pictureFigures s p ctx x concealed missing fin
  let s1 := countPicture (writePicture d.2 p ctx x d.1 good fin) e p pic missing
  let s2 := placePicture (endMarks s1 p ctx x.buffer fin) p ctx x pic fin
  let pos := ((ctxSt s2 p ctx).reqs.head?.map fun q => q.pos + x.au).getD 0
  let s3 := modCtx s2 p ctx fun y =>
    { y with lastDone := fin.last || y.reqs.head?.any (fun q => decide (q.length ≤ pos)),
             lastRef := if fin.isRef = 0 then y.lastRef else some x.buffer,
             concealedRefs := if concealed ≠ 0 then addTo y.concealedRefs x.buffer else if x.second then y.concealedRefs
               else y.concealedRefs.filter (· != x.buffer),
             reqs := match y.reqs with | [] => [] | q :: t => { q with pos := pos } :: t }
  let s4 := ctxPut (modEngine s3 e fun y => { y with busy := none }) p ctx 28 4 pos
  let s5 := (List.range (d.1.outside + d.1.blocked.toList.length)).foldl (fun t _ => windowBlocked t p e) s4
  settleCtx (fin.release.foldl (fun t r => outputPic t p ctx r) s5) p ctx

/-- The motion tensor of an analysis (R281), by rows, and whether a sample it comes from read poisoned. -/
def analysisRows (s : State) (p ctx : Nat) (q : MediaReq) : List (List Byte) × Bool :=
  let lay := ctxLayout s p ctx q.depth
  let w := ctxField s p ctx 64 2
  match if q.refbuf = 0xFFFFFFFF then (ctxSt s p ctx).prevSource else some q.refbuf with
  | none => (zeroMotion lay w, false)
  | some r =>
    let cur := sourcePlane s p ctx q.buffer q.depth q.depth
    let ref := sourcePlane s p ctx r q.depth q.depth
    let bs := Search.blocks ⟨cur.1, ref.1, true, q.depth, 2, none⟩
    (motionRows lay w (bs.map fun b => motionElem b.1 b.2.1 b.2.2 0), cur.2 || ref.2)

/-- An analysis' end (R281): the motion tensor and one record with MV_VALID. -/
def endAnalyse (s : State) (e p ctx : Nat) (fin : PicEnd) : State :=
  match (ctxSt s p ctx).reqs with
  | [] => s
  | q :: _ =>
    let lay := ctxLayout s p ctx q.depth
    let w := ctxField s p ctx 64 2
    let h := ctxField s p ctx 66 2
    let hint := bits (ctxField s p ctx 2 1) 5 4
    let rows := analysisRows s p ctx q
    let s1 := (List.range lay.motionRows).foldl (fun t r =>
      mediaWrite t p (bufAddr t p q.buffer + lay.motionAt + r * lay.motionRow) hint (rows.1.getD r []) rows.2) s
    let index := ctxField s1 p ctx 24 4
    let cycles := encodeCycles (engineOf s e) 150 (blocks16 w h) fin.cycles
    let r := outRecord q.buffer index w h 256 0 q.depth 0 cycles 0
    let s2 := modCtx (ctxPut s1 p ctx 24 4 ((index + 1) % 2 ^ 32)) p ctx fun y => { y with prevSource := some q.buffer, lastDone := true }
    let s3 := modEngine (charge (odInc s2 (Ad.encFrames (e - 16))) e p cycles) e fun y => { y with busy := none }
    settleCtx (pushRec s3 p ctx r) p ctx

/-- PICTURE_END (R259). An encoded frame ends with its last slice (ENCODE_SLICE). -/
def execPictureEnd (e : Nat) (fin : PicEnd) (s : State) : Res :=
  match (engineOf s e).busy with
  | none => .next s
  | some (p, ctx) =>
    if e < 16 then .next (endDecode s e p ctx fin)
    else if ctxKind s p ctx = 2 then .next (endAnalyse s e p ctx fin)
    else .next s

/-- OUTPUT_UNPARK (R264, R269, R276): an engine goes on the context again, the held records are written while the ring has
space, and the context goes on as it was; a frame that waits for its ring starts once its bytes fit. -/
def execOutputUnpark (p ctx : Nat) (s : State) : Res :=
  let c := ctxSt s p ctx
  if ctxState s p ctx ≠ 3 ∨ ctxField s p ctx 4 1 ≠ 2 ∨ ringFull s p ctx ∨ (c.held = [] ∧ bsFree s p ctx < c.need) then .next s
  else
    match idleEngine s p ctx with
    | none => .next s
    | some e =>
      let s1 := modCtx (takeOn s e p ctx) p ctx fun c => { c with held := [], need := 0 }
      let s2 := ctxPut (setCtxState s1 p ctx (if c.drainKind = 0 then 2 else 4)) p ctx 4 1 0
      .next (settleCtx (c.held.foldl (fun t r => pushRec t p ctx r) s2) p ctx)

/-- DECODE_BUDGET_ABORT (R271). -/
def execDecodeBudgetAbort (e rebuilt : Nat) (s : State) : Res :=
  match (engineOf s e).busy with
  | none => .next s
  | some (p, _) =>
    if e < 16 ∧ (engineOf s e).budget = none then
      .next (odInc (modEngine s e fun x => { x with budget := some rebuilt }) (Ad.partDecBudgetAborts p))
    else .next s

/-! ## Encoding: slices -/

/-- The slices of a frame (Table 10.8). -/
def frameSlices (s : State) (p ctx : Nat) : Nat :=
  let n := ctxField s p ctx 68 2
  ((ctxField s p ctx 66 2 + 15) / 16 + n - 1) / max n 1

/-- The reconstructed samples of a slice written to the frame's buffer. -/
def writeSlice (s : State) (p ctx : Nat) (x : Engine) (luma chroma : List Nat) : State :=
  let w := ctxField s p ctx 64 2
  let h := ctxField s p ctx 66 2
  let rows := 16 * ctxField s p ctx 68 2
  let y0 := rows * x.slices
  let lay := ctxLayout s p ctx x.depth
  let hint := bits (ctxField s p ctx 2 1) 5 4
  let put := fun (at_ n : Nat) (px : Array Nat) (t : State) (y i : Nat) =>
    mediaWrite t p (bufAddr t p x.buffer + at_ + y * lay.pitch) hint (sampleBytes x.depth ((List.range n).map fun j => px.getD (i * n + j) 0)) false
  let s1 := (List.range (min rows (h - y0))).foldl (fun t i => put 0 w luma.toArray t (y0 + i) i) s
  (List.range (min rows (h - y0) / 2)).foldl (fun t i => put lay.chromaAt (chromaWidth w) chroma.toArray t (y0 / 2 + i) i) s1

/-- A coded slice written to the context's bitstream ring, and its output record (R276). A frame's slices take no more
bytes than it started with. -/
def sliceCoded (s : State) (e p ctx : Nat) (data0 : List Byte) (last : Bool) (qp cycles : Nat) : State × List Byte :=
  let c := ctxSt s p ctx
  let x := engineOf s e
  let data := data0.take (x.au - x.emitted)
  let size := ctxField s p ctx 92 4
  let ring := ctxField s p ctx 84 8
  let n := min data.length (size - c.bsPos)
  let s1 := mediaWrite (mediaWrite s p (ring % 2 ^ 41 + c.bsPos) (bits ring 47 46) (data.take n) false)
    p (ring % 2 ^ 41) (bits ring 47 46) (data.drop n) false
  let r := outRecord c.bsPos (ctxField s p ctx 24 4) (ctxField s p ctx 64 2) (ctxField s p ctx 66 2)
    ((if x.isKey then 1 else 0) + (if last then 512 else 0)) qp x.depth 0 cycles data.length
  (modEngine (modCtx s1 p ctx fun y => { y with bsPos := (y.bsPos + data.length) % max size 1 }) e fun y =>
    { y with slices := y.slices + 1, emitted := y.emitted + data.length }, r)

/-- A frame whose last slice is coded (R276, R277): its reconstruction becomes the reference in place of the one before, and
FRAME_INDEX, the key count and the engine's counters move on. -/
def frameCoded (s : State) (e p ctx index cycles : Nat) (old : Option Nat) : State :=
  let x := engineOf s e
  let s1 := setMark s p x.buffer { markOf s p x.buffer with nonref := false, short := true, owner := ctx }
  let s2 := match old with
    | some o => if isRefOf s1 p ctx o then setMark s1 p o { markOf s1 p o with short := false } else s1
    | none => s1
  let s3 := modCtx (ctxPut s2 p ctx 24 4 ((index + 1) % 2 ^ 32)) p ctx fun y =>
    { y with encRef := some x.buffer, coded := true, sinceKey := if x.isKey then 1 else y.sinceKey + 1, lastDone := true }
  let s4 := odInc (if x.isKey then odInc s3 (Ad.partEncKeyPictures p) else s3) (Ad.encFrames (e - 16))
  modEngine (charge s4 e p cycles) e fun y => { y with busy := none }

/-- ENCODE_SLICE (R276, R277). -/
def execEncodeSlice (e : Nat) (data : List Byte) (luma chroma : List Nat) (qp cycles : Nat) (s : State) : Res :=
  match (engineOf s e).busy with
  | none => .next s
  | some (p, ctx) =>
    if e < 16 ∨ ctxKind s p ctx ≠ 1 then .next s
    else
      let x := engineOf s e
      let last := decide (frameSlices s p ctx ≤ x.slices + 1)
      let n := blocks16 (ctxField s p ctx 64 2) (ctxField s p ctx 66 2)
      let cyc := if last then encodeCycles x 600 n cycles else min cycles (encodeCycles x 600 n cycles)
      let d := sliceCoded (writeSlice s p ctx x luma chroma) e p ctx data last qp cyc
      if last then
        let s1 := frameCoded d.1 e p ctx (ctxField s p ctx 24 4) cyc (ctxSt s p ctx).encRef
        .next (settleCtx (pushRec s1 p ctx d.2) p ctx)
      else .next (pushRec d.1 p ctx d.2)

/-! ## Drains (R264) -/

/-- What a drain leads to. A FLUSH or RESET that ends completes the context's sample ABORTED, a rejection CONTEXT_REJECTED
(R289). -/
def drainEnd (s : State) (p ctx : Nat) : State :=
  let c := ctxSt s p ctx
  match c.drainKind with
  | 1 =>
    let s1 := modCtx (clearRefs s p ctx) p ctx fun y => { y with encRef := none, lastRef := none }
    endSample (finishReq s1 p ctx 0 1) p ctx 7
  | 2 =>
    let start := (c.reqs.map MediaReq.start).headD 0
    let s1 := modCtx (ctxPut (clearRefs s p ctx) p ctx 24 4 start) p ctx fun y =>
      { y with sequenced := false, pics := [], concealedRefs := [], coded := false, sinceKey := 0, encRef := none, lastRef := none,
               prevSource := none }
    endSample (finishReq s1 p ctx 0 1) p ctx 7
  | 3 =>
    let s1 := odInc (ctxPut s p ctx 5 1 c.rejectTo) (Ad.partMediaRejects p)
    endSample (failReqs s1 p ctx 4 5) p ctx 6
  | 4 =>
    let s1 := ctxPut (ctxPut (clearRefs s p ctx) p ctx 20 2 c.nextSize.1) p ctx 22 2 c.nextSize.2
    let s2 := modCtx (setCtxState s1 p ctx 2) p ctx fun y =>
      { y with drainKind := 0, depth := c.nextForm.1, chroma := c.nextForm.2, lastRef := none }
    odInc (ctxSave s2 p ctx) (Ad.partMediaSizeChanges p)
  | _ => s

/-- DRAIN_END (R264): the drain's records are all written, and it leads to what began it. -/
def execDrainEnd (p ctx : Nat) (s : State) : Res :=
  if ctxState s p ctx ≠ 4 ∨ (ctxSt s p ctx).held ≠ [] then .next s else .next (drainEnd s p ctx)

/-! ## Quiescing (R279) -/

/-- The request at the head of a context back at the head of its queue. -/
def requeueHead (s : State) (p ctx : Nat) : State :=
  modCtx s p ctx fun c => { c with reqs := match c.reqs with | [] => [] | q :: t => { q with started := false } :: t }

/-- The picture an engine works at given up: a decoder forgets it, to be decoded again from RESUME; an encoder's frame is
coded again after a record with ABANDONED. A second field's buffer keeps its first field. -/
def giveUp (s : State) (e p ctx : Nat) : State :=
  let x := engineOf s e
  let s1 := modEngine s e fun y => { y with busy := none }
  let free := fun (t : State) => setMark t p x.buffer { markOf t p x.buffer with nonref := false }
  if e < 16 then (if x.second then s1 else free s1)
  else if ctxKind s p ctx = 1 then
    let s2 := free s1
    let s3 := if x.isKey then modCtx s2 p ctx fun c => { c with keyAsked := true } else s2
    pushRec s3 p ctx (outRecord (ctxSt s p ctx).bsPos (ctxField s3 p ctx 24 4) (ctxField s3 p ctx 64 2) (ctxField s3 p ctx 66 2) 1024 0
      x.depth 0 0 0)
  else s1

/-- One engine stopped: its picture given up, a drain brought to its end, and the context left as it stood, its request at
the head of its queue. -/
def stopEngine (s : State) (e : Nat) : State :=
  let s1 := match (engineOf s e).busy with
    | none => s
    | some (p, ctx) => requeueHead (giveUp s e p ctx) p ctx
  match (engineOf s1 e).on with
  | none => s1
  | some (p, ctx) =>
    let s2 := if ctxState s1 p ctx = 4 then drainEnd s1 p ctx else s1
    let s3 := modEngine s2 e fun y => { y with on := none }
    if (ctxSt s3 p ctx).held ≠ [] then parkOutput s3 p ctx
    else ctxDrop (if ctxState s3 p ctx = 2 then setCtxState s3 p ctx 1 else s3) p ctx

/-- Every engine at work for a partition stopped. -/
def stopEngines (s : State) (p : Nat) : State :=
  s.engines.foldl (fun t e => if e.2.on.any (fun b => b.1 = p) then stopEngine t e.1 else t) s

end Sys2Proof.Machine
end

