-- ==== Sys2Proof/Machine/Samples.lean ====
section
/-!
DEFINITION. The rows of the sample pipeline: SAMPLE and LOOKUP requests, the taking of records and the
forming of slots (R286 to R309).
-/

namespace Sys2Proof.Machine

/-- A reserved field used, or a field out of its range, that needs no list (R287). -/
def sampleReserved (x : Sample) : Bool :=
  let sp := x.field 19 1
  decide (7 < x.field 1 1) || !zeros x.raw 2 2 || decide (bits (x.field 4 4) 31 20 ≠ 0) || !zeros x.raw 88 32 ||
    decide (x.count = 0) || decide (1024 < x.count) || decide (x.step = 0) || decide (256 < x.step) ||
    decide (x.nslots = 0) || decide (2048 < x.nslots) || (decide (sp ≠ 1) && decide (sp ≠ 2)) ||
    decide (x.field 22 2 = 0xFFFF) || decide (x.field 24 8 % 64 ≠ 0) || (x.stats && decide (x.field 56 8 % 128 ≠ 0)) ||
    decide (65535 < x.field 80 4) || (x.rowEnd && (decide (x.field 84 4 = 0) || decide (65536 < x.field 84 4)))

/-- An extent the request will write leaves the partition's range (R287). -/
def sampleOutside (s : State) (p : Nat) (x : Sample) (ph : Phase) (tokens : Nat) : Bool :=
  let sp := x.field 19 1
  let off := x.field 80 4
  let n := if x.rowEnd then x.field 84 4 else off + tokens
  let out := fun (space base len : Nat) => decide (2 ^ 48 ≤ base) || (addrFault s p space base len).isSome
  out sp (x.field 48 8) (n * (ph.k * ph.e)) || (x.stats && out 2 (x.field 56 8) (128 * x.nslots)) ||
    out sp (x.field 64 8) (2 * n) || out sp (x.field 72 8) (2 * n)

/-- The checks of R287 but the context's: a code of Table 11.5, or the phase for the first frame. -/
def sampleCheck (s : State) (p : Nat) (x : Sample) : Nat ⊕ Nat :=
  if sampleReserved x then .inl 2
  else if (addrFault s p 2 (x.field 24 8 % 2 ^ 48) 64).isSome ∨ listInvalid s p x.list then .inl 3
  else
    match phaseFor s p x.list x.first with
    | none => .inl 3
    | some i =>
      let ph := phaseAt s p x.list i
      let tokens := ph.boxes * ph.tokens x.nslots
      let off := x.field 80 4
      if 65536 < off + tokens ∨ (x.rowEnd ∧ x.field 84 4 < off + tokens) ∨ sampleOutside s p x ph tokens then .inl 2
      else .inr i

/-- The partition uses a tensor writer: it has a decode share (R360). -/
def hasWriter (s : State) (p : Nat) : Bool := (List.range 16).any fun e => decide (0 < engineShare s p e)

/-- A partition has a frame for a writer to form (R286): a context with an active sample, none of whose frames is being
formed, and a record in its ring. -/
def writerReady (s : State) (p e : Nat) : Bool :=
  decide (0 < engineShare s p e) && (partOf s p).samples.any fun x =>
    decide ((activeSample s p x.ctx).map Sample.ref = some x.ref) && x.forming.isNone &&
      decide (ctxField s p x.ctx 52 4 ≠ ctxField s p x.ctx 56 4)

/-- The writer that forms a partition's next frame (R280, R286): the lowest-numbered idle one of which the partition has the
largest credit. -/
def writerFor (s : State) (p : Nat) : Option Nat :=
  ((List.range 8).map (18 + ·)).find? fun e => (engineOf s e).busy.isNone && !blockCut s (engineBlock e) && writerReady s p e &&
    s.parts.all fun x => !writerReady s x.1 e || decide (creditOf s e x.1 ≤ creditOf s e p)

/-- The writers at a context's frame. -/
def writersAt (s : State) (p ctx : Nat) : List Nat :=
  (s.engines.filter fun e => decide (18 ≤ e.1) && decide (e.2.busy = some (p, ctx))).map (·.1)

/-- A frame left: its writer is idle again, and the VCLK it took are charged to the partition. -/
def freeWriter (s : State) (p ctx cycles : Nat) : State :=
  (writersAt s p ctx).foldl (fun t e => modEngine (charge t e p cycles) e fun x => { x with busy := none }) s

/-- SAMPLE as it issues (R287): not accepted while another sample is active on its context (R288). -/
def sampleIssue (s : State) (r : ReqRef) (raw : List Byte) : State :=
  match (partOf s r.p).job with
  | none => s
  | some j =>
    let x : Sample := { ref := r, raw := raw, ctx := fieldLE raw 4 4 % 2 ^ 20, jobSeq := j.seq }
    if (activeSample s r.p x.ctx).isSome ∨ !hasWriter s r.p then s
    else
      match sampleCheck s r.p x with
      | .inl c => sampleDone s x c 0 0 0
      | .inr i =>
        let st := ctxState s r.p x.ctx
        let bad := decide (latched s r.p (Ad.partMediaCtxCount r.p) ≤ x.ctx) || decide (ctxKind s r.p x.ctx ≠ 0) || !([1, 2, 3].contains st)
        if bad then sampleDone s x 5 0 0 0
        else
          let ph := phaseAt s r.p x.list i
          let n := listCount s r.p x.list
          let lists := (List.range n).filterMap fun k =>
            let y := phaseAt s r.p x.list k
            if y.boxmode = 2 then some (k, drawBoxes s r.p 0 0 0 y) else none
          let x1 := { x with phase := i, shape := ph.shape, listCount := n, opHash := opHash s r.p x.list, boxes := lists }
          let c := claimCache (readList s r.p x) r.p x1 ph
          modPart c.1 r.p fun q => { q with samples := q.samples ++ [c.2] }

/-- SAMPLE (R287). -/
def execSample (r : ReqRef) (raw : List Byte) (s : State) : Res := .next (sampleIssue s r raw)

/-- LOOKUP as it issues (R306). -/
def lookupIssue (s : State) (r : ReqRef) (raw : List Byte) : State :=
  match (partOf s r.p).job with
  | none => s
  | some j =>
    let p := r.p
    let x0 : Sample := { ref := r, raw := raw, ctx := 0, jobSeq := j.seq }
    match sampleCheck s p x0 with
    | .inl c => sampleDone s x0 c 0 0 0
    | .inr i =>
      let x := { x0 with opHash := opHash s p x0.list, phase := i }
      let ph := phaseAt s p x.list i
      let ways := (List.range 8).map (8 * cacheSet s p x + ·)
      match ways.find? fun w => (cacheEnt s p w).state = 2 && (cacheEnt s p w).key = x.key with
      | none => sampleDone (odInc s (Ad.partSampleCacheMisses p)) x 1 0 0 0
      | some w =>
        let e := cacheEnt s p w
        let s1 := setCache (odInc s (Ad.partSampleCacheHits p)) p w { e with pin := max e.pin (x.field 20 2), lastUse := cacheStamp s p }
        let kb := ph.k * ph.e
        let v := farView s1 p (cacheSlot s1 p w) (e.tokens * kb)
        let s2 := writerPut s1 p (x.field 19 1) (x.field 48 8) (x.field 80 4 * kb) v.1 v.2
        let s3 := if x.stats then
            let st := farView s2 p (cacheSlot s2 p w + e.tokens * kb) (128 * x.nslots)
            writerPut s2 p 2 (x.field 56 8) 0 st.1 st.2
          else s2
        sampleDone (writeMarks s3 p x ph e.tokens) x 0 (e.result ||| 64) e.frames e.tokens

/-- LOOKUP (R306). -/
def execLookup (r : ReqRef) (raw : List Byte) (s : State) : Res := .next (lookupIssue s r raw)

/-! ## Records and slots -/

/-- A record handled: its buffer released as RELEASE does, OUT_TAIL advanced, its index remembered (R288). -/
def consumeRec (s : State) (p : Nat) (x : Sample) (rec_ : List Byte) : State × Sample :=
  let b := fieldLE rec_ 0 4
  let s1 := setMark s p b { markOf s p b with output := false }
  let tail := ctxField s1 p x.ctx 56 4
  (ctxPut s1 p x.ctx 56 4 ((tail + 1) % 2 ^ 32), { x with lastIndex := some (fieldLE rec_ 4 4) })

/-- The last wanted frame is complete with this record (R289). -/
def lastWanted (x : Sample) (rec_ : List Byte) (before : Option Nat) : Bool :=
  let f := fieldLE rec_ 4 4
  decide (f + x.step = x.last) && (!bit (fieldLE rec_ 12 2) 1 || decide (before = some f))

/-- PHASE_SELECT (R290): the phase for a frame, with the boxes drawn when it first applies; late phases are
counted. -/
def selectPhase (s : State) (p : Nat) (x : Sample) (f w h : Nat) : Option (State × Sample) :=
  if listInvalid s p x.list then none
  else
    (phaseFor s p x.list f).map fun i =>
      let ph := phaseAt s p x.list i
      let n := listCount s p x.list
      let late := match x.lastIndex with
        | none => 0
        | some g => ((List.range n).filter fun k => x.seen ≤ k && decide ((phaseAt s p x.list k).from_ ≤ g)).length
      let bx := if (tget x.boxes i).isSome then x.boxes else tset x.boxes i (drawBoxes s p (x.field 32 8) w h ph)
      (odAdd s (Ad.partSampleLatePhases p) late, { x with phase := i, boxes := bx, seen := n })

/-- The frame a sample takes into its next slot: the phase that holds for it, and the sample ends where the list gives
    none or one of another shape (R305 to R307). -/
def formFrame (s : State) (p e : Nat) (x : Sample) (f : Nat) (r : List Byte) (w h : Nat) : State :=
  match selectPhase (readList s p x) p x f w h with
  | none => endSampleWith s p x 3 false
  | some (s1, x1) =>
    if (phaseAt s1 p x.list x1.phase).shape ≠ x.shape then endSampleWith s1 p x 4 false
    else
      modEngine (setSample s1 p { x1 with forming := some ⟨x.slots, r, x1.phase⟩ }) e fun y => { y with busy := some (p, x.ctx) }

/-- SAMPLE_RECORD_TAKE (R286, R288 to R291): a frame is formed only where a writer is free for the partition. -/
def execSampleRecordTake (p ctx : Nat) (s : State) : Res :=
  match activeSample s p ctx with
  | none => .next s
  | some x =>
    let head := ctxField s p ctx 52 4
    let tail := ctxField s p ctx 56 4
    if ctxState s p ctx = 5 then .next (endSample s p ctx 6)
    else if x.forming.isSome ∨ head = tail then .next s
    else
      let r := (farView s p (ctxField s p ctx 40 8 % 2 ^ 41 + 32 * (tail % max (ctxField s p ctx 48 4) 1)) 32).1
      let f := fieldLE r 4 4
      if x.last ≤ f ∨ x.lastIndex.any (f < ·) then .next (endSampleWith s p x 0 true)
      else if f < x.first ∨ (f - x.first) % x.step ≠ 0 then
        let c := consumeRec s p x r
        .next (setSample c.1 p c.2)
      else if x.nslots ≤ x.slots then
        let c := consumeRec s p (x.flag 1) r
        if lastWanted x r x.lastIndex then .next (endSampleWith c.1 p c.2 0 true) else .next (setSample c.1 p c.2)
      else
        match writerFor s p with
        | none => .next s
        | some e =>
          let fr := Frame.of s p ctx r
          .next (formFrame s p e x f r fr.w fr.h)

/-- The picture the luma figures cover (R303): of a BOB record the field's own lines. -/
def Frame.ofRecord (f : Frame) : Frame := if f.bob then { f with field := true, bob := false, h := f.h / 2 } else f

/-- Σv and the histogram of a frame's luma samples, and their poison (R303). -/
def lumaStats (s : State) (p : Nat) (f : Frame) : Nat × List Nat × Bool :=
  let vs := (List.range (f.h * f.w)).map fun i => f.luma s p (i / f.w) (i % f.w)
  let bins := (List.range 16).map fun b => (vs.filter fun v => v.1 / 2 ^ (f.depth - 4) = b).length
  ((vs.map (·.1)).foldl (· + ·) 0, bins, vs.any (·.2))

/-- SCENE (R303): 0xFFFF for slot 0. -/
def sceneOf (prev cur : List Nat) (slot : Nat) : Nat :=
  if slot = 0 then 0xFFFF
  else
    let tot := fun (l : List Nat) => ((l.foldl (· + ·) 0 : Nat) : Rat)
    let d := (prev.zip cur).foldl (fun (a : Rat) x => a + |(x.1 : Rat) / tot prev - (x.2 : Rat) / tot cur|) 0
    min 65535 (32768 * d).floor.toNat

/-- A slot's flags (R296): bit 0 PADDED, 1 CROPPED, 2 CLIPPED. -/
def slotFlags (ph : Phase) (f : Frame) (bx : List Nat × Bool) : Nat :=
  if ph.boxmode = 0 then
    (if f.w < ph.ow ∨ f.h < ph.oh then 1 else 0) + (if ph.ow < f.w ∨ ph.oh < f.h then 2 else 0)
  else
    let beyond := (List.range ph.boxes).any fun b =>
      !boxRejected ph bx.1 b && (cornersOf bx.1 b).any fun (y0, x0, y1, x1) =>
        decide (y0 < 0) || decide (x0 < 0) || decide ((f.h : Rat) < y1) || decide ((f.w : Rat) < x1)
    if beyond then 4 else 0

/-- A frame formed: its tokens, the padding of its tubelet and its statistics written, its marks folded into RESULT, and
its record consumed (R293 to R299, R303). -/
def frameFormed (s : State) (p ctx : Nat) (x : Sample) (y : SampleSlot) (sig : ColourSignal) : State × Sample :=
  let ph := phaseAt s p x.list y.phase
  let f := Frame.of s p ctx y.record
  let bx := (tget x.boxes y.phase).getD ([], false)
  let col := colourOf ph (fieldLE y.record 10 2) sig
  let runs := slotRuns ph x.nslots y.slot (boxPixel s p f ph col bx)
  let poison := runs.any fun r => r.2.2
  let s1 := writeRuns s p x ph runs
  let pads := (List.range ph.ft).filter fun k => x.nslots ≤ y.slot / ph.ft * ph.ft + k && decide (y.slot + 1 = x.nslots)
  let s2 := pads.foldl (fun t k => writeRuns t p x ph (slotRuns ph x.nslots (y.slot / ph.ft * ph.ft + k) (fillPx ph))) s1
  let fl := slotFlags ph f bx
  let rejected := ((List.range ph.boxes).filter (boxRejected ph bx.1)).length
  let s3 := odAdd (if fl = 0 then s2 else odInc s2 (Ad.partSampleClipped p)) (Ad.partBoxRejected p) rejected
  let ls := lumaStats s p f.ofRecord
  let r := y.record
  let bytes := leBytes 4 ctx ++ slice r 4 4 ++ leBytes 2 y.slot ++ leBytes 2 (fieldLE r 12 2 % 4096) ++
    leBytes 1 (fl + (if poison then 8 else 0)) ++ slice r 14 2 ++ leBytes 1 0 ++
    leBytes 2 (ls.1 * 2 ^ (16 - f.depth) / max (f.w * f.ofRecord.h) 1) ++ leBytes 2 (sceneOf x.hist ls.2.1 y.slot) ++ slice r 16 8 ++
    slice r 8 4 ++ ls.2.1.flatMap (leBytes 4) ++ leBytes 32 0
  let s4 := writeStats s3 p x ph y.slot bytes ls.2.2
  let flagged := x.result ||| (if bit fl 0 then 16 else 0) ||| (if bit fl 1 then 8 else 0) ||| (if bit fl 2 then 4 else 0) |||
    (if poison then 32 else 0)
  consumeRec (odInc s4 (Ad.partSampleFrames p)) p
    { x with slots := x.slots + 1, forming := none, hist := ls.2.1, result := flagged } r

/-- The extent a slot's tokens may be written in waits for a move or a clear, or the frame's buffer does (R175, R232). -/
def frameWaits (s : State) (p : Nat) (x : Sample) (y : SampleSlot) : Bool :=
  let sp := x.field 19 1
  let base := x.field 48 8
  let ph := phaseAt s p x.list y.phase
  let at_ := (if sp = 2 then base % 2 ^ 41 else base) + x.field 80 4 * (ph.k * ph.e)
  unitHolds s p sp at_ (x.tokenBytes ph) ||
    unitHolds s p 2 (bufAddr s p (fieldLE y.record 0 4)) (poolSize s p (bits (fieldLE y.record 0 4) 17 16))

/-- The reads of a frame's planes by its writer. -/
def readFrame (s : State) (p : Nat) (f : Frame) (b : Nat) : State :=
  mediaRead s p f.buf (f.lay.chromaAt + f.lay.pitch * f.lay.chromaLines) (bits (latched s p (Ad.partPoolBase p (bits b 17 16))) 47 46)

/-- WRITER_FRAME_DONE (R293 to R299, R303): the slot's tokens and statistics written, its record handled, and
the sample completed when it was the last wanted. -/
def execWriterFrameDone (p ctx : Nat) (sig : ColourSignal) (cycles : Nat) (s : State) : Res :=
  match activeSample s p ctx with
  | none => .next s
  | some x =>
    match x.forming with
    | none => .next s
    | some y =>
      if frameWaits s p x y then .next s else
      let c := frameFormed (freeWriter (readFrame s p (Frame.of s p ctx y.record) (fieldLE y.record 0 4)) p ctx cycles) p ctx x y sig
      if lastWanted x y.record x.lastIndex then .next (endSampleWith c.1 p c.2 0 true) else .next (setSample c.1 p c.2)

/-- The writers stopped for a partition (R299): a frame being formed is forgotten, its record unconsumed. -/
def stopWriters (s : State) (p : Nat) : State :=
  let s1 := s.engines.foldl (fun t e =>
    if 18 ≤ e.1 ∧ e.2.busy.any (fun b => b.1 = p) then modEngine t e.1 fun y => { y with busy := none } else t) s
  modPart s1 p fun q => { q with samples := q.samples.map fun x => { x with forming := none } }

/-- A writer reset: the frame it forms starts over (R299, R442). -/
def stopWriter (s : State) (e : Nat) : State :=
  match (engineOf s e).busy with
  | none => s
  | some b =>
    modPart (modEngine s e fun y => { y with busy := none }) b.1 fun q =>
      { q with samples := q.samples.map fun x => if x.ctx = b.2 then { x with forming := none } else x }

end Sys2Proof.Machine
end

