-- ==== Sys2Proof/Machine/NetCore.lean ====
section
/-!
DEFINITION. What the rows of the NCT transport and of the collective engines share: credits, ports, the packets a
session sends and receives, its acknowledgements and window, and the ends of its messages (R311 to R335).
-/

namespace Sys2Proof.Machine

/-! ## Sessions -/

/-- The state of the network dies changed. -/
def modNet (s : State) (f : Net → Net) : State := { s with net := f s.net }

/-- A session packets may name: its keys are installed and it has not failed (R316). -/
def Sess.live (x : Sess) : Bool :=
  match x.state with
  | .opened => true
  | .rekeying => true
  | .parked => true
  | .closing => true
  | _ => false

/-- A session that sends: live and not parked (R334). -/
def Sess.sends (x : Sess) : Bool := x.live && x.state != .parked

/-- The session's job is the running one. -/
def sessRuns (s : State) (x : Sess) : Bool := (partOf s x.part).job.any fun j => j.seq = x.jobSeq

/-- A session's new transport state, keys installed, with the values that apply at its open (R329, Table 12.11). -/
def Sess.open (s : State) (x : Sess) : Sess :=
  { x with state := .opened, window := (odGet s (Ad.partNctWindowPkts x.part) : Rat),
           windowMax := odGet s (Ad.partNctWindowPkts x.part), failMs := odGet s (Ad.partNctFailMs x.part),
           policy := odGet s (Ad.partNctPeerPolicy x.part) }

/-- The lowest-numbered CLOSED session. -/
def freeSess (s : State) : Option Nat :=
  let rec go : Nat → Nat → Option Nat
    | 0, _ => none
    | f + 1, n => if (tget s.net.sessions n).isNone then (if n < 65536 then some n else none) else go f (n + 1)
  go (s.net.sessions.length + 1) 0

/-- The sessions a partition holds (R317). -/
def sessCount (s : State) (p : Nat) : Nat := (s.net.sessions.filter fun e => e.2.part = p).length

/-! ## Credits (R332) -/

/-- A partition uses network die `d`: it has a port there. -/
def usesNd (s : State) (p d : Nat) : Bool := (formed s p (Ad.partNctPortMask p)) / 2 ^ (16 * d) % 65536 != 0

/-- The credits a partition reserves on a die. -/
def reservedCredits (s : State) (p d : Nat) : Nat := if usesNd s p d then formed s p (Ad.partNetCreditMin p) else 0

/-- The credits of a die that no partition reserves. -/
def sharedCredits (s : State) (d : Nat) : Nat :=
  16384 - ((List.range 16).map fun p => reservedCredits s p d).sum

/-- Whether a credit of a die is free for a partition, and whether it is a shared one: its reserved credits go
first. -/
def creditFor (s : State) (p d : Nat) : Option Bool :=
  let own := (s.net.inPkts.filter fun c => c.die = d && c.part = p && !c.shared).length
  let used := (s.net.inPkts.filter fun c => c.die = d && c.shared).length
  if own < reservedCredits s p d then some false
  else if used < sharedCredits s d then some true
  else none

/-- A packet's credit given back. -/
def giveCredit (s : State) (n psn : Nat) : State :=
  modNet s fun x => { x with inPkts := x.inPkts.filter fun c => !(c.sess = n && c.psn = psn) }

/-! ## Ports and packets (R311 to R317) -/

/-- The network die of a logical port (R311). -/
def portDie (port : Nat) : Nat := port / 16

/-- The logical ports of a partition whose link is up. -/
def upPorts (s : State) (p : Nat) : List Nat :=
  (List.range 32).filter fun n => (formed s p (Ad.partNctPortMask p)).testBit n && odGet s (Ad.netPortState n) == 2 &&
    !blockCut s (22 + n / 16)

/-- The next port of a session, in round robin by packet (R317). -/
def nextPort (s : State) (x : Sess) : Option Nat :=
  let ps := upPorts s x.part
  match ps.find? fun n => decide (x.nextPort ≤ n) with
  | some n => some n
  | none => ps.head?

/-- The 48 B header of a packet (Table 12.2), little-endian (R10). -/
def headerOf (k : Pkt) : List Byte :=
  leBytes 1 (16 + k.type) ++ leBytes 1 ((if k.keyPhase then 128 else 0) + if k.retrans then 64 else 0) ++ leBytes 2 k.payload.length ++
    leBytes 2 k.dst ++ leBytes 2 k.src ++ leBytes 8 k.psn ++ leBytes 4 k.msg ++ leBytes 4 k.msn ++ leBytes 4 k.index ++
    leBytes 4 k.count ++ leBytes 4 k.rkey ++ leBytes 4 0 ++ leBytes 8 k.offset

/-- The packet a header and a payload make, with what no bit of the header says (log 31). -/
def pktOf (h payload : List Byte) (ce response : Bool) (poison : List Nat) : Pkt :=
  { type := bits (fieldLE h 0 1) 3 0, keyPhase := bit (fieldLE h 1 1) 7, retrans := bit (fieldLE h 1 1) 6, dst := fieldLE h 4 2
    src := fieldLE h 6 2, psn := fieldLE h 8 8, msg := fieldLE h 16 4, msn := fieldLE h 20 4, index := fieldLE h 24 4
    count := fieldLE h 28 4, rkey := fieldLE h 32 4, offset := fieldLE h 40 8, payload := payload, ce := ce, response := response
    poison := poison }

/-- A header whose VERSION is not 1, or with a reserved bit set (R315). -/
def headerBad (h : List Byte) : Bool :=
  decide (bits (fieldLE h 0 1) 7 4 ≠ 1) || decide (bits (fieldLE h 1 1) 5 0 ≠ 0) || decide (fieldLE h 36 4 ≠ 0)

/-- A received frame's packet. -/
def framePkt (f : EthFrame) : Pkt := pktOf f.header f.payload f.ce f.response f.poison

/-- The MAC address of a logical port (R313). -/
def portMac (s : State) (port : Nat) : Nat := odGet s Ad.netMacBase + port

/-- The IPv6 address of a partition (R313). -/
def partIp (s : State) (p : Nat) : Nat := odGet s Ad.netSrcPrefix * 2 ^ 64 + latched s p (Ad.partNctIid p)

/-- A handshake packet: HELLO or REPLY, which carry no tag (R315). -/
def isShake (k : Pkt) : Bool := decide (k.type = 6 ∨ k.type = 7)

/-- The keys a packet of a session goes under: by its KEY_PHASE (R318). -/
def Sess.keysFor (x : Sess) (phase : Bool) : Option LinkKeys := if phase = x.keyPhase then x.keys else x.oldKeys

/-- A payload as it leaves: encrypted with its tag, the header as additional data, the nonce of salt and PSN (R316). -/
def sealPkt (x : Sess) (k : Pkt) : List Byte :=
  if isShake k then k.payload
  else
    match x.keysFor k.keyPhase with
    | some ks => Config.gcm ks.sendKey (ks.sendSalt ++ leBytes 8 k.psn) (headerOf k) k.payload
    | none => k.payload

/-- A packet's frame on a port (R313, R315, R316). -/
def wireOf (s : State) (x : Sess) (n port : Nat) (k : Pkt) : Wire :=
  let h := Config.flowHash n k.psn
  { dstMac := odGet s (Ad.netPortNexthopMac port), srcMac := portMac s port, traffic := odGet s Ad.netNctDscp * 4 + 2, hopLimit := 64
    flow := h % 2 ^ 20, srcIp := partIp s x.part, dstIp := x.peer, srcPort := 49152 + h % 16384
    dstPort := atReset s Ad.netNctUdpPort, header := headerOf k, payload := sealPkt x k }

/-- The bytes of an NCT frame (Table 12.2): 130 B around its payload, 114 B where it carries no tag. -/
def frameBytes (k : Pkt) : Nat := (if isShake k then 114 else 130) + k.payload.length

/-- A packet leaves on a port (R313, R315), and is counted. A frame whose source address is not the part's is
dropped by hardware. -/
def emitAs (s : State) (x : Sess) (n port : Nat) (srcOk : Bool) (k : Pkt) : State :=
  let s0 := anem (odInc s (Ad.partNctTxPackets x.part)) (0x16 + portDie port) 0x30 1
  let s1 := if k.retrans then anem s0 (0x16 + portDie port) 0x31 1 else s0
  if srcOk then
    emit (odAdd s1 (Ad.netPortTxBytes port) (frameBytes k))
      (.packet port (wireOf s x n port k) k)
  else odInc s1 Ad.netTxFenceDrops

/-- A packet of a session leaves on a port. -/
def emitPkt (s : State) (n port : Nat) (srcOk : Bool) (k : Pkt) : State := emitAs s (sessOf s n) n port srcOk k

/-- A packet of a session with nothing filled in but its addressing. -/
def Sess.pkt (x : Sess) (n type : Nat) : Pkt :=
  { type := type, keyPhase := x.keyPhase, retrans := false, dst := x.peerSess, src := n, psn := 0, msg := 0, msn := 0,
    index := 0, count := 1, rkey := 0, offset := 0, payload := [], ce := false, response := false, poison := [] }

/-- The SACK bits: bit i for PSN CUM_PSN + 1 + i (R326). -/
def Sess.sack (x : Sess) : Nat :=
  (List.range 64).foldl (fun m i => if x.rxSack.contains (x.rxCum + 1 + i) then m + 2 ^ i else m) 0

/-- An ACK sent (R326), numbered by the second counter with PSN bit 63 set (R316). -/
def sendAck (s : State) (n : Nat) : State :=
  let x := sessOf s n
  match nextPort s x with
  | none => s
  | some port =>
    let body := leBytes 8 x.rxCum ++ leBytes 8 x.sack ++ leBytes 4 x.rxCe ++ leBytes 4 x.rxMark
    let k := { x.pkt n 4 with psn := 2 ^ 63 + x.ackPsn, msg := x.rxMsg, payload := body }
    modSess (emitPkt s n port true k) n fun y =>
      { y with ackPsn := y.ackPsn + 1, rxPend := 0, rxCe := 0, nextPort := port + 1 }

/-- A packet queued ahead of new messages. -/
def queuePkt (s : State) (n : Nat) (k : Pkt) : State := modSess s n fun x => { x with outq := x.outq ++ [k] }

/-- A packet's tracked form: what DATA carries is read again when it is sent again. -/
def pktSkeleton (k : Pkt) : Pkt := if k.type = 1 then { k with payload := [], poison := [] } else k

/-- New keys take effect at the next KEY_PHASE, the old ones kept (R318). -/
def switchKeys (s : State) (n : Nat) (ks : LinkKeys) : State :=
  modSess (odInc s (Ad.partNctRekeys (sessOf s n).part)) n fun x =>
    { x with keyPhase := !x.keyPhase, oldKeys := x.keys, keys := some ks, newKeys := none, eph := none, keyPkts := 0 }

/-- A REKEY_REPLY has left: the responder's new keys follow it (R393). -/
def afterReply (s : State) (n : Nat) (k : Pkt) : State :=
  match (sessOf s n).newKeys with
  | some ks => if k.type = 9 then switchKeys s n ks else s
  | none => s

/-- The KEY_PHASE a packet goes under: the current one; a REKEY_REPLY sent again goes under the keys it first went under,
while they are kept (R393, log 167). -/
def Sess.phaseFor (x : Sess) (k : Pkt) : Bool :=
  if k.type = 9 ∧ k.retrans ∧ x.oldKeys.isSome then !x.keyPhase else x.keyPhase

/-- A reliable packet transmitted on a port: it takes the next PSN and is tracked until acknowledged. -/
def sendOn (s : State) (n port now : Nat) (srcOk : Bool) (k : Pkt) : State :=
  let x := sessOf s n
  let k1 := { k with psn := x.psn, keyPhase := x.phaseFor k }
  let s1 := emitPkt s n port srcOk k1
  let s2 := if k.retrans then odInc s1 (Ad.partNctRetransmits x.part) else s1
  let s3 := modSess s2 n fun y =>
    { y with psn := y.psn + 1, keyPkts := y.keyPkts + 1, nextPort := port + 1,
             unacked := y.unacked ++ [⟨pktSkeleton k1, now⟩] }
  afterReply s3 n k1

/-- The window and the key allow one packet more (R318, R322). -/
def Sess.mayTransmit (x : Sess) : Bool :=
  x.sends && decide ((x.unacked.length : Rat) + 1 ≤ x.window) && decide (x.keyPkts < 2 ^ 48 - 1)

/-- A control packet sent at once where window, port and credit allow, and else queued. -/
def sendCtl (s : State) (n : Nat) (k : Pkt) : State :=
  let x := sessOf s n
  match nextPort s x with
  | some port =>
    if x.mayTransmit ∧ x.outq = [] ∧ (creditFor s x.part (portDie port)).isSome then sendOn s n port (nowNs s) true k
    else queuePkt s n k
  | none => queuePkt s n k

/-! ## Local and remote bytes -/

/-- Bytes of a place SPACE [51:48], address [47:0] (Table 12.5), and their poison. -/
def netRead (s : State) (p place n : Nat) : List Byte × Bool :=
  match place / 2 ^ 48 % 16 with
  | 1 => stratusRead s p none (place % 2 ^ 48) n
  | 2 => farView s p (place % 2 ^ 41) n
  | _ => hostView s p place n

/-- The space and address of a place. -/
def placeAddr (place : Nat) : Nat × Nat :=
  let space := place / 2 ^ 48 % 16
  (space, if space = 2 then place % 2 ^ 41 else place % 2 ^ 48)

/-- A read of a place that does not go on (R175, R232, R235). -/
def netStop (s : State) (p place n : Nat) : Option State := unitReadStop s p (placeAddr place).1 (placeAddr place).2 n

/-- What a read of a place does. -/
def netSeen (s : State) (p place n : Nat) : State := unitReads s p (placeAddr place).1 (bits place 47 46) (placeAddr place).2 n

/-- Bytes placed at an offset from such a place (R323). What meets the source of a MOVING record is held there
(R232); what meets a VACATED source ends the job (R235). -/
def netWrite (s : State) (p place off : Nat) (bs : List Byte) (poison : Bool) : State :=
  unitPut s p .network (placeAddr place).1 (bits place 47 46) ((placeAddr place).2 + off) bs poison

/-- A write of a place waits (R175, R194, R232). -/
def netHolds (s : State) (p place off n : Nat) : Bool :=
  let a := placeAddr place
  unitHolds s p a.1 (a.2 + off) n || (decide (a.1 = 2) && maintRuns s p (a.2 + off) n)

/-- A place's range leaves the partition's range in its space, or its space is none of 1 to 3. -/
def placeBad (s : State) (p place n : Nat) : Bool :=
  let space := place / 2 ^ 48
  decide (space = 0) || decide (3 < space) || (addrFault s p space (place % 2 ^ 48) n).isSome

/-! ## Regions (Table 12.6) -/

/-- What a packet of `n` bytes finds at its RKEY and OFFSET (R323): the place and offset its bytes go to or come
from, or the NAK code. -/
def regionAccess (s : State) (p rkey offset n : Nat) (put : Bool) : Nat ⊕ (Nat × Nat) :=
  let k := rkey / 65536
  let base := latched s p (Ad.partNctRegionBase p) % 2 ^ 41
  let v := farView s p (base + 32 * k) 32
  let b := fieldLE v.1 0 1
  let place := bits b 3 2 * 2 ^ 48 + fieldLE v.1 8 8 % 2 ^ 48
  if latched s p (Ad.partNctRegionCount p) ≤ k ∨ (addrFault s p 2 (latched s p (Ad.partNctRegionBase p)) (32 * k + 32)).isSome ∨ v.2 ∨ !bit b 7 ∨ fieldLE v.1 2 2 ≠ rkey % 65536 ∨ bits b 3 2 = 0 then .inl 2
  else if !bit b (if put then 6 else 5) then .inl 3
  else if fieldLE v.1 16 8 < offset + n ∨ placeBad s p (place + offset) n then .inl 4
  else .inr (place, offset)

/-- The read of a region record by a network die (R195, R323). A base that breaks R186 ends the job. -/
def regionSeen (s : State) (p rkey : Nat) : State :=
  let base := latched s p (Ad.partNctRegionBase p)
  if rkey / 65536 < latched s p (Ad.partNctRegionCount p) then
    match addrFault s p 2 base (32 * (rkey / 65536) + 32) with
    | some c => coreErr s p c base
    | none => farRead s p (base % 2 ^ 41 + 32 * (rkey / 65536)) 32 3
  else s

/-! ## The error queue (R331) -/

/-- An error record written (Table 12.8), or lost with the overflow bit set when the ring is full. -/
def writeErrRec (s : State) (p : Nat) (m : Msg) (id code offset : Nat) : State :=
  let base := latched s p (Ad.partNctErrqBase p)
  let slots := latched s p (Ad.partNctErrqSlots p)
  let head := leNat (ringRead s p base 0 4).1
  let tail := leNat (ringRead s p base 4 4).1
  match ringFault s p base 0 (64 + 32 * slots) with
  | some c => coreErr s p c (base % 2 ^ 48)
  | none =>
    if slots ≤ (head + 2 ^ 32 - tail) % 2 ^ 32 then odSet s (Ad.partNctErrqOverflow p) 1
    else
      let gen := (tget s.net.gens id).getD 0
      let rec_ := leBytes 8 m.tag ++ leBytes 2 m.sess ++ leBytes 1 m.op ++ leBytes 1 code ++ leBytes 4 (id * 4096 + gen) ++
        leBytes 8 offset ++ leBytes 8 (nowNs s * 3 / 2)
      ringWrite (ringWrite (ringSeen s p base 0 8) p base (64 + 32 * (head % slots)) rec_) p base 0 (leBytes 4 ((head + 1) % 2 ^ 32))

/-! ## Messages (R321, R322, R325, R330) -/

/-- A message ID whose holder is free, from the next one due. -/
def freeId (s : State) : Option Nat :=
  let rec go : Nat → Nat → Option Nat
    | 0, _ => none
    | f + 1, n => if (tget s.net.msgs n).isNone then some n else go f ((n + 1) % 2 ^ 20)
  if 2 ^ 20 ≤ s.net.msgs.length then none else go (s.net.msgs.length + 1) s.net.nextId

/-- A message given an ID and the session's next MSN; none while every ID is in use (R320). -/
def newMsg (s : State) (m : Msg) : Option State :=
  (freeId s).map fun id =>
    let x := sessOf s m.sess
    let s1 := modSess s m.sess fun y => { y with nextMsn := (y.nextMsn + 1) % 2 ^ 32 }
    modNet s1 fun w => { w with msgs := tset w.msgs id { m with msn := x.nextMsn }, nextId := (id + 1) % 2 ^ 20 }

/-- A message changed. -/
def modMsg (s : State) (id : Nat) (f : Msg → Msg) : State :=
  match tget s.net.msgs id with
  | none => s
  | some m => modNet s fun w => { w with msgs := tset w.msgs id (f m) }

/-- The MSG field of an ID (Table 12.2). -/
def msgField (s : State) (id : Nat) : Nat := id * 4096 + (tget s.net.gens id).getD 0

/-- The messages of a session not yet released, by MSN. -/
def sessMsgs (s : State) (n : Nat) : List (Nat × Msg) :=
  (s.net.msgs.filter fun e => e.2.sess = n).mergeSort fun a b => decide (a.2.msn ≤ b.2.msn)

/-- A request's STATUS written and its SEM released (R88, R366; log 30). -/
def netStatus (s : State) (r : ReqRef) (jobSeq sem code : Nat) : State :=
  signalSem (entryWrite s r 60 (leBytes 1 code)) r.p jobSeq sem 1 false

/-- An asked CLOSE is sent once every message of the session is released (Table 12.4). -/
def closeIfDone (s : State) (n : Nat) : State :=
  let x := sessOf s n
  if x.closeAsked ∧ x.state = .opened ∧ sessMsgs s n = [] then
    modSess (sendCtl s n (x.pkt n 10)) n fun y => { y with state := .closing }
  else s

/-- An ID released: its generation increments (R321), and a waiting CLOSE may go. -/
def releaseId (s : State) (id n : Nat) : State :=
  let s1 := modNet s fun w =>
    { w with msgs := tdel w.msgs id, gens := tset w.gens id (((tget w.gens id).getD 0 + 1) % 4096) }
  closeIfDone s1 n

/-- A message's local completion: SEM is released once (R325). -/
def completeLocal (s : State) (id : Nat) : State :=
  match tget s.net.msgs id with
  | none => s
  | some m =>
    if m.completed ∨ m.coll.isSome then s
    else
      let s1 := modMsg s id fun y => { y with completed := true }
      match m.ref with
      | some r => netStatus s1 r m.jobSeq m.sem 0
      | none => signalSem s1 (sessOf s1 m.sess).part m.jobSeq m.sem 1 false

/-- The message is released when all it waits for has come (R321): every packet acknowledged, and for a GET every
response byte placed. -/
def releaseIfDone (s : State) (id : Nat) : State :=
  match tget s.net.msgs id with
  | none => s
  | some m =>
    if m.acked.length = m.count ∧ (m.op ≠ 0x21 ∨ m.completed) then releaseId s id m.sess else s

/-- A message ended under R330: its packets are finished, the error record written, the error bit set, the SEM of
a PUT released if it was not, and the ID released. -/
def endMsg (s : State) (id code offset : Nat) : State :=
  match tget s.net.msgs id with
  | none => s
  | some m =>
    let n := m.sess
    let mine := fun (k : Pkt) => k.msg / 4096 = id && !k.response && (k.type = 1 || k.type = 2 || k.type = 3)
    let s1 := modSess s n fun x =>
      { x with unacked := x.unacked.filter fun t => !mine t.pkt, outq := x.outq.filter fun k => !mine k }
    let s2 := if m.coll.isSome then s1 else writeErrRec s1 (sessOf s1 n).part m id code offset
    let s3 := modSess s2 n fun x => { x with errorBit := true }
    let s4 := if m.op = 0x20 then completeLocal s3 id else s3
    releaseId s4 id n

/-- Every outstanding message of a session ended with a code (Table 12.4). -/
def endAll (s : State) (n code : Nat) : State :=
  (sessMsgs s n).foldl (fun t e => endMsg t e.1 code 0) s

/-- The fences of a session completed with its error bit (R331): those whose earlier messages are all released. -/
def completeFences (s : State) (n : Nat) (all : Bool) : State :=
  let open_ := (sessMsgs s n).map (·.2.msn)
  let met := fun (f : FenceReq) => f.sess = n && (all || !(open_.any fun m => decide (m < f.msn)))
  let s1 := modNet s fun w => { w with fences := w.fences.filter fun f => !met f }
  (s.net.fences.filter met).foldl (fun t f => netStatus t f.ref f.jobSeq f.sem (if (sessOf s n).errorBit then 0x20 else 0)) s1

/-- A session's entry freed, its keys zeroised (Table 12.4); a CLOSE request that waits completes. -/
def dropSess (s : State) (n code : Nat) : State :=
  let x := sessOf s n
  let s1 := completeFences s n true
  let s2 := modNet s1 fun w =>
    { w with sessions := tdel w.sessions n, inPkts := w.inPkts.filter fun c => c.sess ≠ n,
             waitCredit := w.waitCredit.filter (· ≠ n) }
  match x.ref with
  | some r => netStatus s2 r x.jobSeq x.sem code
  | none => s2

/-! ## Receiving (R326, R327) -/

/-- PSN received: CUM_PSN and SACK follow. -/
def Sess.notePsn (x : Sess) (psn : Nat) : Sess :=
  let rec go : Nat → Nat → List Nat → Nat × List Nat
    | 0, c, l => (c, l)
    | f + 1, c, l => if l.contains c then go f (c + 1) (l.filter (· ≠ c)) else (c, l)
  if psn < x.rxCum then x
  else
    let r := go (x.rxSack.length + 2) x.rxCum (addTo x.rxSack psn)
    { x with rxCum := r.1, rxSack := r.2 }

/-- An acknowledged-class packet received: its PSN and CE mark noted, its credit given back, and an ACK sent after
16 of them (R326). -/
def noteRx (s : State) (n : Nat) (k : Pkt) : State :=
  let s1 := giveCredit s n k.psn
  let nd := ((s.net.inPkts.find? fun c => c.sess = n ∧ c.psn = k.psn).map InPkt.die).getD 0
  let s2 := if k.ce then anem (odInc s1 (Ad.partNctCeMarks (sessOf s n).part)) (0x16 + nd) 0x32 1 else s1
  let s3 := modSess s2 n fun x =>
    { x.notePsn k.psn with rxPend := x.rxPend + 1, rxCe := x.rxCe + (if k.ce then 1 else 0), rxMsg := if k.type ≤ 3 then k.msg else x.rxMsg }
  if 16 ≤ (sessOf s3 n).rxPend then sendAck s3 n else s3

/-- MSN `a` lies below `b`, as U32 sequence numbers. -/
def msnBelow (a b : Nat) : Bool := decide (2 ^ 31 ≤ (a + 2 ^ 32 - b) % 2 ^ 32)

/-- The watermark moves over the messages placed or ended. -/
def Sess.advance (x : Sess) : Sess :=
  let rec go : Nat → Nat → List Nat → Nat × List Nat
    | 0, m, l => (m, l)
    | f + 1, m, l => if l.contains m then go f ((m + 1) % 2 ^ 32) (l.filter (· ≠ m)) else (m, l)
  let r := go (x.rxEnded.length + 1) x.rxMark x.rxEnded
  { x with rxMark := r.1, rxEnded := r.2 }

/-- A received message placed or ended: its MSN marked (R327). -/
def markMsn (s : State) (n msn : Nat) : State :=
  modSess s n fun x =>
    ({ x with rxEnded := addTo x.rxEnded msn, rxGot := x.rxGot.filter fun g => g.1 ≠ msn }).advance

/-- A late packet dropped and counted (R321). -/
def lateDrop (s : State) (p : Nat) : State := odSet (odInc s (Ad.partNctLateDropped p)) (Ad.partNctLateSticky p) 1

/-- The MSG field names an ID under another generation (R321). -/
def staleMsg (s : State) (msg : Nat) : Bool := (tget s.net.gens (msg / 4096)).getD 0 != msg % 4096

/-- A NAK sent (R330): MSG, MSN, code and the failing OFFSET. -/
def sendNak (s : State) (n : Nat) (k : Pkt) (code : Nat) : State :=
  let x := sessOf s n
  sendCtl s n { x.pkt n 5 with msg := k.msg, msn := k.msn,
                               payload := leBytes 4 k.msg ++ leBytes 4 k.msn ++ leBytes 8 code ++ leBytes 8 k.offset }

/-- A message refused at its first failing packet: NAK, and its MSN ended (R330). -/
def refuseMsg (s : State) (n : Nat) (k : Pkt) (code : Nat) : State := markMsn (sendNak s n k code) n k.msn

/-- NAK RNR for a packet to a parked session, or to one whose job does not run (R334): it goes out although
the session sends nothing else, is not placed, and is not acknowledged. -/
def sendRnr (s : State) (n : Nat) (k : Pkt) : State :=
  let s1 := odInc (giveCredit s n k.psn) (Ad.partNctRnrSent (sessOf s n).part)
  let x := sessOf s1 n
  let nak := { x.pkt n 5 with msg := k.msg, msn := k.msn,
                              payload := leBytes 4 k.msg ++ leBytes 4 k.msn ++ leBytes 8 1 ++ leBytes 8 k.offset }
  match nextPort s1 x with
  | some port => sendOn s1 n port (nowNs s1) true nak
  | none => queuePkt s1 n nak

/-- What R327 makes of a packet of a message: dropped as late, dropped as a repeat, or taken. -/
def rxFilter (s : State) (n : Nat) (k : Pkt) : Option State :=
  let x := sessOf s n
  if msnBelow k.msn x.rxMark ∨ x.rxEnded.contains k.msn then some (lateDrop s x.part)
  else if x.rxGot.contains (k.msn, k.index) then some (odInc s (Ad.partNctDupDropped x.part))
  else none

/-- A packet of a message placed; the message is complete when all its packets are. -/
def rxPlaced (s : State) (n : Nat) (k : Pkt) : State :=
  let s1 := modSess s n fun x => { x with rxGot := x.rxGot ++ [(k.msn, k.index)] }
  if k.count ≤ ((sessOf s1 n).rxGot.filter fun g => g.1 = k.msn).length then markMsn s1 n k.msn else s1

/-! ## Acting on a SIGNAL or GET_REQ in MSN order (R324) -/

/-- A SIGNAL takes effect at its home, or draws SEM_OVERFLOW. -/
def actSignal (s : State) (n : Nat) (k : Pkt) : State :=
  let p := (sessOf s n).part
  let v := fieldLE k.payload 0 2
  let coming := ((((partOf s p).job.map Job.incs).getD []).filter fun i => i.sem = bits v 15 8).map (·.count)
  if 65535 < semCount s p (bits v 15 8) + coming.sum + (bits v 7 0 + 1) then refuseMsg s n k 7
  else markMsn (addSem s p (bits v 15 8) (bits v 7 0 + 1) none) n k.msn

/-- A GET_REQ is checked, and its response set up. -/
def actGet (s : State) (n : Nat) (k : Pkt) : State :=
  let p := (sessOf s n).part
  let len := fieldLE k.payload 0 4
  match regionAccess s p k.rkey k.offset len false with
  | .inl c => refuseMsg s n k c
  | .inr w =>
    let r : Resp := { msg := k.msg, msn := k.msn, rkey := k.rkey, source := w.1 + w.2, length := len }
    markMsn (modSess (regionSeen s p k.rkey) n fun x => { x with resps := x.resps ++ [r] }) n k.msn

/-- The held packets whose turn has come, in MSN order. -/
def actHeld (n : Nat) : Nat → State → State
  | 0, s => s
  | f + 1, s =>
    let x := sessOf s n
    match x.rxHeld.find? fun k => k.msn = x.rxMark with
    | none => s
    | some k =>
      let s1 := modSess s n fun y => { y with rxHeld := y.rxHeld.filter fun h => h.msn ≠ k.msn }
      actHeld n f (if k.type = 2 then actGet s1 n k else actSignal s1 n k)

/-- Every held packet whose turn has come. -/
def settleRx (s : State) (n : Nat) : State := actHeld n ((sessOf s n).rxHeld.length) s

/-! ## Acknowledged packets and the window (R328, R329) -/

/-- A PSN an ACK covers. -/
def ackCovers (cum sack psn : Nat) : Bool :=
  decide (psn < cum) || (decide (cum < psn) && decide (psn ≤ cum + 64) && sack.testBit (psn - cum - 1))

/-- The PSNs above this one an ACK reports received. -/
def ackAbove (cum sack psn : Nat) : Nat :=
  (cum - (psn + 1)) + ((List.range 64).filter fun i => decide (psn < cum + 1 + i) && sack.testBit i).length

/-- on_ack of R329. -/
def Sess.onAck (x : Sess) (acked ce now : Nat) : Sess :=
  let na := x.nAcked + acked
  let nc := x.nCe + ce
  let cut := decide (0 < ce) && decide (x.srtt ≤ ((now - x.tCut : Nat) : Rat))
  let w1 : Rat := if cut then max 1 (x.window * (1 - x.alpha / 2)) else x.window
  let t1 := if cut then now else x.tCut
  if w1 ≤ (na : Rat) then
    { x with alpha := x.alpha * 15 / 16 + ((nc : Rat) / (na : Rat)) / 16,
             window := if nc = 0 then min (x.windowMax : Rat) (w1 + 1) else w1,
             tCut := t1, nAcked := 0, nCe := 0 }
  else { x with window := w1, tCut := t1, nAcked := na, nCe := nc }

/-- on_timeout of R329. -/
def Sess.onTimeout (x : Sess) (now : Nat) : Sess := { x with window := max 1 (x.window / 2), tCut := now }

/-- A round-trip measurement (R328): the first sets the averages (log 32), later ones move them by 1/8 and 1/4. -/
def Sess.measure (x : Sess) (rtt : Nat) : Sess :=
  let r : Rat := rtt
  if x.measured then
    let d := if x.srtt ≤ r then r - x.srtt else x.srtt - r
    { x with rttvar := x.rttvar * 3 / 4 + d / 4, srtt := x.srtt * 7 / 8 + r / 8 }
  else { x with measured := true, srtt := r, rttvar := r / 2 }

/-- The retransmission timer of a session in ns (R328). -/
def Sess.timer (x : Sess) : Rat :=
  let base : Rat := if x.measured then max (x.srtt + 4 * x.rttvar) 20000 else 200000
  min (base * 2 ^ x.backoff) 16000000

/-- Packets deemed lost are queued to be sent again (R328). -/
def resend (s : State) (n : Nat) (lost : Pkt → Bool) : State :=
  modSess s n fun x =>
    { x with unacked := x.unacked.filter fun t => !lost t.pkt,
             outq := x.outq ++ ((x.unacked.filter fun t => lost t.pkt).map fun t => { t.pkt with retrans := true }) }

/-- A packet of the part's acknowledged: the message's progress, the GET response's, and a CLOSE's. -/
def ackedPkt (s : State) (n : Nat) (k : Pkt) : State :=
  if k.response then
    modSess s n fun x =>
      let rs := x.resps.map fun r => if r.msg = k.msg then { r with acked := addTo r.acked k.index } else r
      { x with resps := rs.filter fun r => !(r.msg = k.msg && decide ((r.length + 4095) / 4096 ≤ r.acked.length)) }
  else if k.type = 1 ∨ k.type = 2 ∨ k.type = 3 then
    let id := k.msg / 4096
    let s1 := modMsg s id fun m => { m with acked := addTo m.acked k.index }
    releaseIfDone (if k.type = 3 then completeLocal s1 id else s1) id
  else s

/-! ## Transmitting (R317, R322, R332) -/

/-- What a session sends next. -/
inductive NextTx where
  | again (k : Pkt)
  | response (r : Resp)
  | message (id : Nat) (m : Msg)
  | nothing
  deriving DecidableEq, Repr

/-- The packet due (log 33): control packets and those to be sent again, then GET responses, then messages by MSN
within 4,096 of the peer's watermark (R322), none of a message that waits under R334. -/
def nextTx (s : State) (n : Nat) : NextTx :=
  let x := sessOf s n
  let ok := fun (k : Pkt) => decide (3 < k.type) ||
    (if k.response then !(x.resps.any fun r => r.msg = k.msg && r.rnr) else !((tget s.net.msgs (k.msg / 4096)).any (·.rnr)))
  match x.outq.find? ok with
  | some k => .again k
  | none =>
    match x.resps.find? fun r => decide (r.sent < (r.length + 4095) / 4096) && !r.rnr with
    | some r => .response r
    | none =>
      match (sessMsgs s n).find? fun e => decide (e.2.sent < e.2.count) && !e.2.rnr &&
          decide ((e.2.msn + 2 ^ 32 - x.peerMark) % 2 ^ 32 < 4096) with
      | some e => .message e.1 e.2
      | none => .nothing

/-- The payload of packet `i` of a message of the part, its poison as a whole, and its poisoned bytes. -/
def msgPayload (s : State) (p : Nat) (m : Msg) (i : Nat) : List Byte × Bool × List Nat :=
  if m.coll.isSome then
    let d := (m.data.drop (4096 * i)).take 4096
    (d.map (·.1), false, (d.zipIdx.filter fun b => b.1.2).map (·.2))
  else if m.op = 0x20 then
    let v := netRead s p (m.source + 4096 * i) (min 4096 (m.length - 4096 * i))
    (v.1, v.2, [])
  else if m.op = 0x21 then (leBytes 4 m.length, false, [])
  else (leBytes 1 m.rcount ++ leBytes 1 m.rsem, false, [])

/-- Packet `i` of a message of the part. -/
def msgPkt (s : State) (n id : Nat) (m : Msg) (i : Nat) (v : List Byte × Bool × List Nat) : Pkt :=
  let x := sessOf s n
  { x.pkt n (if m.op = 0x21 then 2 else if m.op = 0x22 then 3 else 1) with
    msg := msgField s id, msn := m.msn, index := i, count := m.count, rkey := m.rkey,
    offset := if m.coll.isSome then m.roffset else m.roffset + 4096 * i, payload := v.1, poison := v.2.2 }

/-- Packet `i` of a GET response: its bytes as its source holds them now, and their poison. -/
def respPkt (s : State) (n : Nat) (r : Resp) (i : Nat) : Pkt × Bool :=
  let x := sessOf s n
  let len := min 4096 (r.length - 4096 * i)
  let v := netRead s x.part (r.source + 4096 * i) len
  ({ x.pkt n 1 with msg := r.msg, msn := r.msn, index := i, count := (r.length + 4095) / 4096, rkey := r.rkey,
                    offset := 4096 * i, payload := v.1, response := true }, v.2)

/-- A GET response ended because its source is poisoned (Table 12.7). -/
def failResp (s : State) (n : Nat) (k : Pkt) : State :=
  let s1 := modSess s n fun x =>
    { x with resps := x.resps.filter fun r => r.msg ≠ k.msg,
             outq := x.outq.filter fun h => !(h.response && h.msg = k.msg),
             unacked := x.unacked.filter fun t => !(t.pkt.response && t.pkt.msg = k.msg) }
  sendNak s1 n k 6

/-- A packet taken out of the queue of those due first. -/
def unqueue (s : State) (n : Nat) (k : Pkt) : State := modSess s n fun x => { x with outq := x.outq.erase k }

/-- One packet transmitted on a port. `poison` is an error met in reading its source. -/
def transmitOn (s : State) (n port now : Nat) (srcOk poison : Bool) : State :=
  let p := (sessOf s n).part
  match nextTx s n with
  | .nothing => s
  | .response r =>
    let v := respPkt s n r r.sent
    if v.2 || poison then failResp s n v.1
    else
      let s1 := modSess s n fun x =>
        { x with resps := x.resps.map fun y => if y.msg = r.msg then { y with sent := y.sent + 1 } else y }
      sendOn s1 n port now srcOk v.1
  | .message id m =>
    let v := msgPayload s p m m.sent
    if v.2.1 || (poison && decide (m.op = 0x20)) then endMsg s id 0x12 0
    else
      let s1 := sendOn s n port now srcOk (msgPkt s n id m m.sent v)
      let s2 := modMsg s1 id fun y => { y with sent := y.sent + 1 }
      if m.op = 0x20 ∧ m.sent + 1 = m.count then completeLocal s2 id else s2
  | .again k =>
    let s0 := unqueue s n k
    if k.type ≠ 1 then sendOn s0 n port now srcOk k
    else if k.response then
      match (sessOf s0 n).resps.find? fun r => r.msg = k.msg with
      | none => s0
      | some r =>
        let v := respPkt s0 n r k.index
        if v.2 || poison then failResp s0 n k else sendOn s0 n port now srcOk { v.1 with retrans := true }
    else
      let id := k.msg / 4096
      match tget s0.net.msgs id with
      | none => s0
      | some m =>
        let v := msgPayload s0 p m k.index
        if v.2.1 || (poison && decide (m.op = 0x20)) then endMsg s0 id 0x12 0
        else sendOn s0 n port now srcOk { msgPkt s0 n id m k.index v with retrans := true }

/-- The place a session's next packet takes its payload from, and its length. -/
def txSource (s : State) (n : Nat) : Option (Nat × Nat) :=
  let put := fun (m : Msg) (i : Nat) =>
    if m.op = 0x20 ∧ m.coll.isNone then some (m.source + 4096 * i, min 4096 (m.length - 4096 * i)) else none
  let resp := fun (r : Resp) (i : Nat) => (r.source + 4096 * i, min 4096 (r.length - 4096 * i))
  match nextTx s n with
  | .nothing => none
  | .response r => some (resp r r.sent)
  | .message _ m => put m m.sent
  | .again k =>
    if k.type ≠ 1 then none
    else if k.response then ((sessOf s n).resps.find? fun r => r.msg = k.msg).map fun r => resp r k.index
    else (tget s.net.msgs (k.msg / 4096)).bind fun m => put m k.index

/-- A session has a packet for a port. -/
def sendsOn (s : State) (n port : Nat) : Bool :=
  let x := sessOf s n
  x.mayTransmit && decide (nextTx s n ≠ .nothing) && decide (nextPort s x = some port) && (creditFor s x.part (portDie port)).isSome

/-- A partition's share of a logical port, of which 0 counts as 1 (R360). -/
def portShare (s : State) (p port : Nat) : Nat := max 1 (formed s p (Ad.partPortShare p port))

/-- A partition's credit on a port. -/
def portCreditOf (s : State) (port p : Nat) : Int := (tget ((tget s.net.portCredit port).getD []) p).getD 0

/-- The port's turn is the partition's (R333): no other with a packet for it has a larger credit. -/
def portServes (s : State) (port p : Nat) : Bool :=
  s.net.sessions.all fun e => decide (e.2.part = p) || !sendsOn s e.1 port || decide (portCreditOf s port e.2.part ≤ portCreditOf s port p)

/-- A packet of a partition charged on its port; every partition's credit grows by its share (R333, log 26). -/
def chargePort (s : State) (port p : Nat) : State :=
  let users := s.parts.filter fun x => (formed s x.1 (Ad.partNctPortMask x.1)).testBit port
  let total := ((users.map fun x => portShare s x.1 port).sum : Nat)
  let grown := users.map fun x =>
    (x.1, portCreditOf s port x.1 + (portShare s x.1 port : Int) - if x.1 = p then (total : Int) else 0)
  modNet s fun w => { w with portCredit := tset w.portCredit port grown }

/-- A session transmits its next packet (R317, R333): window, key, the port's turn and its source allow it; without a credit
it waits. -/
def transmitNext (s : State) (n now : Nat) (srcOk poison : Bool) : State :=
  let x := sessOf s n
  if !x.mayTransmit || decide (nextTx s n = .nothing) then s
  else
    match nextPort s x with
    | none => s
    | some port =>
      if (creditFor s x.part (portDie port)).isNone then
        modNet s fun w => { w with waitCredit := addTo w.waitCredit n }
      else if !portServes s port x.part then s
      else
        let s1 := chargePort (modNet s fun w => { w with waitCredit := w.waitCredit.filter (· ≠ n) }) port x.part
        match txSource s n with
        | none => transmitOn s1 n port now srcOk poison
        | some a =>
          match netStop s x.part a.1 a.2 with
          | some t => t
          | none => transmitOn (netSeen s1 x.part a.1 a.2) n port now srcOk poison

end Sys2Proof.Machine
end

