-- ==== Sys2Proof/Machine/CollCore.lean ====
section
/-!
DEFINITION. The collective engines: communicators and their members (R339, R340), calls and their checks (R341 to
R348), the algorithms as schedules of messages and result pieces (R347), and the ends of calls (R345, R353, R354).
-/

namespace Sys2Proof.Machine

/-! ## Communicators (Tables 13.1 and 13.2) -/

/-- The address of a communicator's record. -/
def commAddr (s : State) (p k : Nat) : Nat := latched s p (Ad.partCollCommBase p) % 2 ^ 41 + 64 * k

/-- A field of a record. -/
def commField (s : State) (p k off n : Nat) : Nat := farField s p (commAddr s p k + off) n

/-- A field written by the part, with the hint of the array's base (R186). -/
def commPut (s : State) (p k off n v : Nat) : State :=
  unitPut s p .network 2 (bits (latched s p (Ad.partCollCommBase p)) 47 46) (commAddr s p k + off) (leBytes n v) false

/-- A communicator's fields as the engine uses them. -/
structure Comm where
  slot : Nat
  state : Nat
  engine : Nat
  level : Nat
  n : Nat
  r : Nat
  alpha : Nat
  beta : Nat
  members : Nat
  deriving DecidableEq, Repr

/-- The communicator of a slot. -/
def commOf (s : State) (p k : Nat) : Comm :=
  let f := commField s p k
  ⟨k, bits (f 0 1) 7 6, bits (f 0 1) 5 4, f 2 2, f 4 4, f 8 4, f 12 4, f 16 4, f 24 8 % 2 ^ 41⟩

/-- A member entry's fields. -/
structure Member where
  slot : Nat
  dclass : Nat
  none_ : Bool
  sess : Nat
  deriving DecidableEq, Repr

/-- Member `m` of a communicator. -/
def memberOf (s : State) (p : Nat) (c : Comm) (m : Nat) : Member :=
  let v := farField s p (c.members + 8 * m) 8
  ⟨bits v 51 40, bits v 39 38, bit v 16, bits v 15 0⟩

/-- What an engine's read of a communicator's record and of the entries of some members does (R191, R195, R340). -/
def commSeen (s : State) (p : Nat) (c : Comm) (ms : List Nat) : State :=
  ms.foldl (fun t m => farRead t p (c.members + 8 * m) 8 3)
    (farRead s p (commAddr s p c.slot) 64 (bits (latched s p (Ad.partCollCommBase p)) 47 46))

/-- The member a session of the part leads to. -/
def memberBySess (s : State) (p : Nat) (c : Comm) (n : Nat) : Option Nat :=
  (List.range c.n).find? fun m => m ≠ c.r && !(memberOf s p c m).none_ && (memberOf s p c m).sess = n

/-! ## Calls (Table 13.3) -/

/-- A field of a call. -/
def Call.field (c : Call) (off n : Nat) : Nat := fieldLE c.raw off n

/-- OP. -/
def Call.op (c : Call) : Nat := c.field 0 1

/-- REDOP: 0 SUM, 1 MAX, 2 MIN, 3 MEAN. -/
def Call.redop (c : Call) : Nat := bits (c.field 1 1) 1 0

/-- PARTIAL: the partials are BF16. -/
def Call.narrow (c : Call) : Bool := bit (c.field 2 1) 4

/-- The bytes of an element. -/
def Call.e (c : Call) : Nat := etypeBytes (bits (c.field 2 1) 3 0)

/-- The bytes of a partial on the wire. -/
def Call.pb (c : Call) : Nat := if c.narrow then 2 else 4

/-- SEND. -/
def Call.send (c : Call) : Nat := c.field 8 8

/-- RECV. -/
def Call.recv (c : Call) : Nat := c.field 16 8

/-- COUNT. -/
def Call.cnt (c : Call) : Nat := c.field 24 8

/-- B, the bytes of a block. -/
def Call.b (c : Call) : Nat := c.cnt * c.e

/-- ROOT. -/
def Call.root (c : Call) : Nat := c.field 32 4

/-- A reducing operation. -/
def Call.reduces (c : Call) : Bool := decide (c.op = 0x30) || decide (c.op = 0x31)

/-- The bytes of SEND and of RECV at rank `r` of `n` (Table 13.4). -/
def Call.extents (c : Call) (n r : Nat) : Nat × Nat :=
  match c.op with
  | 0x30 => (c.b, c.b)
  | 0x31 => (n * c.b, c.b)
  | 0x32 => (c.b, n * c.b)
  | 0x33 => (n * c.b, n * c.b)
  | 0x35 => (if r = c.root then c.b else 0, c.b)
  | _ => (0, 0)

/-! ## Bytes with their poison -/

/-- Bytes of a place, each with its poison. -/
def pbRead (s : State) (p place n : Nat) : List (Byte × Bool) :=
  (List.range n).map fun i => let v := netRead s p (place + i) 1; (v.1.headD 0, v.2)

/-- Bytes written from a place upwards, 64 B by 64 B, each unit with its poison (R349). -/
def pbWrite : Nat → State → Nat → Nat → Nat → List (Byte × Bool) → State
  | 0, s, _, _, _, _ => s
  | f + 1, s, p, place, off, l =>
    if l = [] then s
    else
      let k := 64 - (place + off) % 64
      let u := l.take k
      pbWrite f (netWrite s p place off (u.map (·.1)) (u.any (·.2))) p place (off + k) (l.drop k)

/-- Elements of `w` bytes of a byte string, as codes with their poison. -/
def pbElems (w : Nat) (l : List (Byte × Bool)) : List (Nat × Bool) :=
  (List.range (l.length / w)).map fun i =>
    let u := (l.drop (w * i)).take w
    (leNat (u.map (·.1)), u.any (·.2))

/-- Codes as bytes of `w`. -/
def pbBytes (w : Nat) (l : List (Nat × Bool)) : List (Byte × Bool) :=
  l.flatMap fun x => (leBytes w x.1).map fun b => (b, x.2)

/-! ## Arithmetic (R348) -/

/-- The format of an element type of Table 4.3. -/
def etypeFormat (t : Nat) : Fmt :=
  match t with
  | 0 => fp32
  | 1 => bf16
  | 2 => e4m3
  | _ => e5m2

/-- A value rounded to the partial format, as an FP32 code. -/
def Call.toPartial (c : Call) (v : Val) : Nat := if c.narrow then encodeVal bf16 v * 65536 else encodeVal fp32 v

/-- IN_EXP. -/
def Call.inExp (c : Call) : Int := signed 8 (c.field 36 1)

/-- OUT_EXP. -/
def Call.outExp (c : Call) : Int := signed 8 (c.field 37 1)

/-- The elements of SEND from one on, widened exactly and multiplied by 2^IN_EXP. -/
def Call.own (c : Call) (s : State) (p first n : Nat) : List (Val × Bool) :=
  (pbElems c.e (pbRead s p (c.send + c.e * first) (c.e * n))).map fun x =>
    ((decodeVal (etypeFormat (bits (c.field 2 1) 3 0)) x.1).shift c.inExp, x.2)

/-- acc = round(acc + x), or the extremum. -/
def Call.combine (c : Call) (a x : Val) : Nat :=
  if c.redop = 1 ∨ c.redop = 2 then extremum32 (c.redop = 1) (c.toPartial a) (c.toPartial x)
  else c.toPartial (a.add x)

/-- Two runs of values combined element by element; poison of either poisons the result (R349). -/
def Call.join (c : Call) (a b : List (Val × Bool)) : List (Val × Bool) :=
  List.zipWith (fun x y => (decodeVal fp32 (c.combine x.1 y.1), x.2 || y.2)) a b

/-- Values as partials on the wire. -/
def Call.wire (c : Call) (l : List (Val × Bool)) : List (Byte × Bool) :=
  pbBytes c.pb (l.map fun x => (if c.narrow then c.toPartial x.1 / 65536 else c.toPartial x.1, x.2))

/-- Partials of the wire as values. -/
def Call.unwire (c : Call) (l : List (Byte × Bool)) : List (Val × Bool) :=
  (pbElems c.pb l).map fun x => (decodeVal fp32 (if c.narrow then x.1 * 65536 else x.1), x.2)

/-- A final value: MEAN's factor, then 2^OUT_EXP, rounded once to DTYPE in SATURATE mode; and whether it
saturates. -/
def Call.final (c : Call) (n : Nat) (v : Val) : Nat × Bool :=
  let v1 := decodeVal fp32 (c.toPartial v)
  let v2 := if c.redop = 3 then v1.mul (decodeVal fp32 (encodeRat fp32 false 1 n 0)) else v1
  convertVal (etypeFormat (bits (c.field 2 1) 3 0)) false false .nearest (v2.shift c.outExp)

/-- A run of final values as result bytes. -/
def Call.finish (c : Call) (n : Nat) (l : List (Val × Bool)) : List (Byte × Bool) :=
  pbBytes c.e (l.map fun x => ((c.final n x.1).1, x.2))

/-- The saturations of a run of final values. -/
def Call.saturations (c : Call) (n : Nat) (l : List (Val × Bool)) : Nat := (l.filter fun x => (c.final n x.1).2).length

/-! ## Schedules (R347) -/

/-- A message of a schedule: the member, the STEP, its bytes once they can be sent, and the places of SEND it reads for
them. -/
structure SendItem where
  peer : Nat
  step : Nat
  data : Option (List (Byte × Bool))
  reads : List (Nat × Nat)
  deriving DecidableEq, Repr

/-- A piece of a call's result: its offset in RECV, its bytes once they are known, the saturations counted in forming it,
and the places of SEND it reads. -/
structure PlaceItem where
  off : Nat
  data : Option (List (Byte × Bool))
  sats : Nat
  reads : List (Nat × Nat)
  deriving DecidableEq, Repr

/-- A message received whole: its bytes. A message of no bytes is not sent. -/
def Call.recvd (c : Call) (src step bytes : Nat) : Option (List (Byte × Bool)) :=
  if bytes = 0 then some []
  else
    match c.inbox.find? fun m => m.src = src && m.step = step with
    | none => none
    | some m =>
      if 0 < m.count ∧ m.count ≤ m.got.length then some ((List.range m.count).flatMap fun i => (tget m.data i).getD [])
      else none

/-- First element and element count of block `j`: of an ALL_REDUCE its n-th part (log 34), else COUNT elements. -/
def Call.block (c : Call) (n j : Nat) : Nat × Nat :=
  if c.op = 0x30 then (j * c.cnt / n, (j + 1) * c.cnt / n - j * c.cnt / n) else (j * c.cnt, c.cnt)

/-- The own values of block `j`. -/
def Call.ownBlock (c : Call) (s : State) (p n j : Nat) : List (Val × Bool) :=
  c.own s p (c.block n j).1 (c.block n j).2

/-- The place in SEND of block `j`. -/
def Call.ownAt (c : Call) (n j : Nat) : Nat × Nat := (c.send + c.e * (c.block n j).1, c.e * (c.block n j).2)

/-- The offset in RECV of block `j` of the gathered result. -/
def Call.blockOff (c : Call) (n j : Nat) : Nat := c.e * (c.block n j).1

/-- RING's block sent at a step of the reduction: its own contribution joined to what came before. -/
def Call.ringOut (c : Call) (s : State) (p n r t : Nat) : Option (List (Val × Bool)) :=
  let j := (r + 2 * n - 1 - t) % n
  let own := c.ownBlock s p n j
  if t = 0 then some own
  else (c.recvd ((r + n - 1) % n) (t - 1) (c.pb * (c.block n j).2)).map fun d => c.join (c.unwire d) own

/-- RING's own block reduced over every member. -/
def Call.ringOwn (c : Call) (s : State) (p n r : Nat) : Option (List (Val × Bool)) :=
  if n = 1 then some (c.ownBlock s p n r) else c.ringOut s p n r (n - 1)

/-- A reduced block as a piece of the result at an offset, its own contribution read from a place. -/
def Call.reduced (c : Call) (n off : Nat) (v : Option (List (Val × Bool))) (own : Nat × Nat) : PlaceItem :=
  ⟨off, v.map (c.finish n), ((v.map (c.saturations n)).getD 0), [own]⟩

/-- RING of a reduction: the messages of its first phase. -/
def Call.ringSends (c : Call) (s : State) (p n r : Nat) : List SendItem :=
  (List.range (n - 1)).map fun t => ⟨(r + 1) % n, t, (c.ringOut s p n r t).map c.wire, [c.ownAt n ((r + 2 * n - 1 - t) % n)]⟩

/-- RING's gather from STEP `base`: block `r - u` goes on at step `base + u`; the own one is read from `at_`. -/
def Call.ringGather (c : Call) (n r base : Nat) (own : Option (List (Byte × Bool))) (at_ : List (Nat × Nat)) :
    List SendItem × List PlaceItem :=
  let got := fun u => c.recvd ((r + n - 1) % n) (base + u) (c.e * (c.block n ((r + 2 * n - 1 - u) % n)).2)
  ((List.range (n - 1)).map fun u => ⟨(r + 1) % n, base + u, if u = 0 then own else got (u - 1), if u = 0 then at_ else []⟩,
   (List.range (n - 1)).map fun u => ⟨c.blockOff n ((r + 2 * n - 1 - u) % n), got u, 0, []⟩)

/-- RING (R347) of ALL_REDUCE, REDUCE_SCATTER, ALL_GATHER and BROADCAST. -/
def Call.ring (c : Call) (s : State) (p n r : Nat) : List SendItem × List PlaceItem :=
  match c.op with
  | 0x30 =>
    let own := c.ringOwn s p n r
    let g := c.ringGather n r (n - 1) (own.map (c.finish n)) [c.ownAt n r]
    (c.ringSends s p n r ++ g.1, c.reduced n (c.blockOff n r) own (c.ownAt n r) :: g.2)
  | 0x31 => (c.ringSends s p n r, [c.reduced n 0 (c.ringOwn s p n r) (c.ownAt n r)])
  | 0x32 =>
    let own := some (pbRead s p c.send c.b)
    let g := c.ringGather n r 0 own [(c.send, c.b)]
    (g.1, ⟨r * c.b, own, 0, [(c.send, c.b)]⟩ :: g.2)
  | _ =>
    let d := (r + n - c.root) % n
    let v := if d = 0 then some (pbRead s p c.send c.b) else c.recvd ((r + n - 1) % n) (d - 1) c.b
    let at_ := if d = 0 then [(c.send, c.b)] else []
    (if d + 1 < n then [⟨(r + 1) % n, d, v, at_⟩] else [], [⟨0, v, 0, at_⟩])

/-- A rank's place in the tree of a chunk: T0 for even chunks, the mirror for odd ones. A BROADCAST's trees have
its ROOT at their root (log 35). -/
def Call.treeRank (c : Call) (n k r : Nat) : Nat :=
  if c.op = 0x35 then (if k % 2 = 0 then (r + n - c.root) % n else (c.root + n - r) % n)
  else if k % 2 = 0 then r else n - 1 - r

/-- The rank at a place of the tree of a chunk. -/
def Call.treeMember (c : Call) (n k q : Nat) : Nat :=
  if c.op = 0x35 then (if k % 2 = 0 then (q + c.root) % n else (c.root + n - q) % n)
  else if k % 2 = 0 then q else n - 1 - q

/-- The children of a place in a tree of `n`. -/
def treeKids (n q : Nat) : List Nat := [2 * q + 1, 2 * q + 2].filter (· < n)

/-- TREE's work on one 256 KiB chunk (R347). -/
def Call.treeChunk (c : Call) (s : State) (p n r k : Nat) : List SendItem × List PlaceItem :=
  let per := 262144 / c.e
  let first := per * k
  let m := min per (c.cnt - first)
  let q := c.treeRank n k r
  let kids := (treeKids n q).map (c.treeMember n k)
  let up := c.treeMember n k ((q - 1) / 2)
  if c.op = 0x35 then
    let v := if q = 0 then some (pbRead s p (c.send + c.e * first) (c.e * m)) else c.recvd up k (c.e * m)
    let at_ := if q = 0 then [(c.send + c.e * first, c.e * m)] else []
    (kids.map fun j => ⟨j, k, v, at_⟩, [⟨c.e * first, v, 0, at_⟩])
  else
    let sum := kids.foldl (fun acc j =>
      match acc, c.recvd j k (c.pb * m) with
      | some a, some d => some (c.join a (c.unwire d))
      | _, _ => none) (some (c.own s p first m))
    let at_ := (c.send + c.e * first, c.e * m)
    if q = 0 then
      let out := c.reduced n (c.e * first) sum at_
      (kids.map fun j => ⟨j, k, out.data, [at_]⟩, [out])
    else
      let v := c.recvd up k (c.e * m)
      (⟨up, k, sum.map c.wire, [at_]⟩ :: kids.map fun j => ⟨j, k, v, []⟩, [⟨c.e * first, v, 0, []⟩])

/-- TREE over every chunk. -/
def Call.tree (c : Call) (s : State) (p n r : Nat) : List SendItem × List PlaceItem :=
  let ks := (List.range ((c.b + 262143) / 262144)).map (c.treeChunk s p n r)
  (ks.flatMap (·.1), ks.flatMap (·.2))

/-- DIRECT's block of this member: summed over the ranks in ascending order. -/
def Call.directOwn (c : Call) (s : State) (p n r : Nat) : Option (List (Val × Bool)) :=
  let at_ := fun k => if k = r then some (c.ownBlock s p n r)
    else (c.recvd k 0 (c.pb * (c.block n r).2)).map c.unwire
  (List.range (n - 1)).foldl (fun acc k =>
    match acc, at_ (k + 1) with
    | some a, some d => some (c.join a d)
    | _, _ => none) (at_ 0)

/-- DIRECT (R347). Its steps are 0, and 1 for the results of an ALL_REDUCE (log 34). -/
def Call.direct (c : Call) (s : State) (p n r : Nat) : List SendItem × List PlaceItem :=
  let others := (List.range n).filter (· ≠ r)
  match c.op with
  | 0x30 =>
    let own := c.reduced n (c.blockOff n r) (c.directOwn s p n r) (c.ownAt n r)
    (others.map (fun j => ⟨j, 0, some (c.wire (c.ownBlock s p n j)), [c.ownAt n j]⟩) ++
       others.map (fun j => ⟨j, 1, own.data, [c.ownAt n r]⟩),
     own :: others.map fun j => ⟨c.blockOff n j, c.recvd j 1 (c.e * (c.block n j).2), 0, []⟩)
  | 0x31 =>
    (others.map (fun j => ⟨j, 0, some (c.wire (c.ownBlock s p n j)), [c.ownAt n j]⟩),
     [c.reduced n 0 (c.directOwn s p n r) (c.ownAt n r)])
  | 0x32 =>
    let own := some (pbRead s p c.send c.b)
    (others.map (fun j => ⟨j, 0, own, [(c.send, c.b)]⟩),
     ⟨r * c.b, own, 0, [(c.send, c.b)]⟩ :: others.map fun j => ⟨j * c.b, c.recvd j 0 c.b, 0, []⟩)
  | _ =>
    (others.map (fun j => ⟨j, 0, some (pbRead s p (c.send + j * c.b) c.b), [(c.send + j * c.b, c.b)]⟩),
     ⟨r * c.b, some (pbRead s p (c.send + r * c.b) c.b), 0, [(c.send + r * c.b, c.b)]⟩ ::
       others.map fun j => ⟨j * c.b, c.recvd j 0 c.b, 0, []⟩)

/-- The bytes of block `j` among those of the blocks congruent to it modulo `m`, in ascending order. -/
def Call.blockSlice (c : Call) (n m j w : Nat) (l : List (Byte × Bool)) : List (Byte × Bool) :=
  let before := ((List.range j).filter fun i => i % m = j % m).map fun i => w * (c.block n i).2
  (l.drop before.sum).take (w * (c.block n j).2)

/-- The bytes of the blocks congruent to `r` modulo `m`. -/
def Call.classBytes (c : Call) (n m r w : Nat) : Nat :=
  (((List.range n).filter fun i => i % m = r % m).map fun i => w * (c.block n i).2).sum

/-- HALVING's partial of block `j` before stage `k`: lower rank + higher rank at each stage (R347). -/
def Call.halved (c : Call) (s : State) (p n r : Nat) : Nat → Nat → Option (List (Val × Bool))
  | 0, j => some (c.ownBlock s p n j)
  | k + 1, j =>
    let q := r ^^^ 2 ^ k
    let m := 2 ^ (k + 1)
    match c.halved s p n r k j, c.recvd q k (c.classBytes n m r c.pb) with
    | some a, some d =>
      let b := c.unwire (c.blockSlice n m j c.pb d)
      some (if r < q then c.join a b else c.join b a)
    | _, _ => none

/-- Every element of a list of options. -/
def allSome {α : Type} : List (Option (List α)) → Option (List α)
  | [] => some []
  | none :: _ => none
  | some x :: t => (allSome t).map (x ++ ·)

/-- HALVING's result of block `j` at this member, from the stage that delivers it; its own block is given. -/
def Call.doubled (c : Call) (n r lg base : Nat) (own : Option (List (Byte × Bool))) (j : Nat) : Option (List (Byte × Bool)) :=
  if j = r then own
  else
    let k := ((List.range lg).find? fun b => (j ^^^ r).testBit b).getD 0
    let q := r ^^^ 2 ^ k
    (c.recvd q (base + (lg - 1 - k)) (c.classBytes n (2 ^ (k + 1)) q c.e)).map (c.blockSlice n (2 ^ (k + 1)) j c.e)

/-- HALVING (R347): recursive halving from stage 0 upward, then the gather back (log 34), which sends the own block on as it
stands in RECV once it has been placed there. -/
def Call.halving (c : Call) (s : State) (p n r : Nat) : List SendItem × List PlaceItem :=
  let lg := Nat.log2 n
  let done := c.placed.contains 0
  let down := (List.range lg).map fun k =>
    let q := r ^^^ 2 ^ k
    let js := (List.range n).filter fun j => j % 2 ^ (k + 1) = q % 2 ^ (k + 1)
    (⟨q, k, allSome (js.map fun j => (c.halved s p n r k j).map c.wire), js.map (c.ownAt n)⟩ : SendItem)
  let own := c.halved s p n r lg r
  let gather := fun (base : Nat) (mine : Option (List (Byte × Bool))) (at_ : List (Nat × Nat)) =>
    let sends := (List.range lg).map fun i =>
      let k := lg - 1 - i
      let js := (List.range n).filter fun j => j % 2 ^ (k + 1) = r % 2 ^ (k + 1)
      (⟨r ^^^ 2 ^ k, base + i, allSome (js.map (c.doubled n r lg base mine)), if done then [] else at_⟩ : SendItem)
    let places := ((List.range n).filter (· ≠ r)).map fun j =>
      (⟨c.blockOff n j, c.doubled n r lg base mine j, 0, []⟩ : PlaceItem)
    (sends, places)
  match c.op with
  | 0x30 =>
    let mine := c.reduced n (c.blockOff n r) own (c.ownAt n r)
    let g := gather lg (if done then some (pbRead s p (c.recv + c.blockOff n r) (c.ownAt n r).2) else mine.data) [c.ownAt n r]
    (down ++ g.1, mine :: g.2)
  | 0x31 => (down, [c.reduced n 0 own (c.ownAt n r)])
  | _ =>
    let mine := some (pbRead s p c.send c.b)
    let g := gather 0 mine [(c.send, c.b)]
    (g.1, ⟨r * c.b, mine, 0, [(c.send, c.b)]⟩ :: g.2)

/-! ## PERMUTE (Table 13.9, R352) -/

/-- A permute entry. -/
structure PermEnt where
  dst : Nat
  src : Nat
  off : Nat
  length : Nat
  deriving DecidableEq, Repr

/-- Entry `i` of a call's table. -/
def Call.entry (c : Call) (s : State) (p i : Nat) : PermEnt :=
  let a := c.field 48 8 % 2 ^ 41 + 32 * i
  ⟨farField s p a 4 % 2 ^ 17, farField s p (a + 8) 8, farField s p (a + 16) 8, farField s p (a + 24) 8⟩

/-- The 32 B of a control message (R344): its KIND, then what it carries (log 36). -/
def ctlBytes (kind : Nat) (body : List Byte) : List (Byte × Bool) :=
  ((leBytes 4 kind ++ body ++ List.replicate 32 0).take 32).map fun b => (b, false)

/-- PERMUTE: each entry's PLACE, then its data; entries to itself are copied, and a received entry goes where its
PLACE says. -/
def Call.permute (c : Call) (s : State) (p r : Nat) : List SendItem × List PlaceItem :=
  let es := (List.range c.cnt).map fun i => (i, c.entry s p i)
  (es.flatMap fun e => if e.2.dst = r then [] else
     [⟨e.2.dst, 0x3FFFF, some (ctlBytes 5 (leBytes 4 e.1 ++ leBytes 8 e.2.off ++ leBytes 8 e.2.length)),
        [(c.send + e.2.src, e.2.length)]⟩,
      ⟨e.2.dst, e.1, some (pbRead s p (c.send + e.2.src) e.2.length), [(c.send + e.2.src, e.2.length)]⟩],
   (es.filter fun e => e.2.dst = r).map (fun e =>
       ⟨e.2.off, some (pbRead s p (c.send + e.2.src) e.2.length), 0, [(c.send + e.2.src, e.2.length)]⟩) ++
     c.places.map fun x => ⟨x.offset, c.recvd x.src x.entry x.length, 0, []⟩)

/-- The schedule of a call at rank `r` of `n`. -/
def Call.schedule (c : Call) (s : State) (p n r : Nat) : List SendItem × List PlaceItem :=
  if c.op = 0x34 then c.permute s p r
  else
    match c.alg with
    | 1 => c.ring s p n r
    | 2 => c.tree s p n r
    | 3 => c.direct s p n r
    | _ => c.halving s p n r

/-- The members a call exchanges with (R340). -/
def Call.peers (c : Call) (s : State) (p n r : Nat) : List Nat :=
  let l := if c.op = 0x34 then (List.range c.cnt).map fun i => (c.entry s p i).dst
    else
      match c.alg with
      | 1 => [(r + 1) % n, (r + n - 1) % n]
      | 2 => [0, 1].flatMap fun k =>
          let q := c.treeRank n k r
          ((if q = 0 then [] else [(q - 1) / 2]) ++ treeKids n q).map (c.treeMember n k)
      | 3 => List.range n
      | _ => (List.range (Nat.log2 n)).map fun k => r ^^^ 2 ^ k
  (l.filter (· ≠ r)).eraseDups

/-- ANNOUNCE's content: the call's fields of R342 and ALG_USED; PERMUTE's COUNT, ROOT and PERM are exempt. -/
def Call.announce (c : Call) : List Byte :=
  leBytes 1 c.op ++ slice c.raw 1 2 ++
    (if c.op = 0x34 then List.replicate 12 0 else slice c.raw 24 12) ++ slice c.raw 36 2 ++ leBytes 1 c.alg

/-! ## AUTO (R346, Table 13.7) -/

/-- ⌈log2 n⌉. -/
def clog2 (n : Nat) : Nat := if 2 ^ Nat.log2 n = n then Nat.log2 n else Nat.log2 n + 1

/-- The algorithms an operation has at all (Table 13.6). -/
def algsOf (op : Nat) : List Nat :=
  match op with
  | 0x30 => [1, 2, 3, 4]
  | 0x31 => [1, 3, 4]
  | 0x32 => [1, 3, 4]
  | 0x35 => [1, 2]
  | _ => [3]

/-- An algorithm runs on `n` members: HALVING needs a power of two. -/
def algFits (alg n : Nat) : Bool := alg ≠ 4 || 2 ^ Nat.log2 n = n

/-- The lowest feature level of an algorithm. -/
def algLevel (alg : Nat) : Nat := if alg = 4 then 9 else 8

/-- The model time of an algorithm in ns (Table 13.7); none where the table gives no formula. -/
def Call.time (c : Call) (k : Comm) (alg : Nat) : Option Rat :=
  let a : Rat := k.alpha
  let beta : Rat := (k.beta : Rat) / 1000
  let n : Rat := k.n
  let elems : Nat := if c.op = 0x30 then c.cnt else k.n * c.cnt
  let sr : Rat := ((elems * c.pb : Nat) : Rat)
  let sg : Rat := ((elems * c.e : Nat) : Rat)
  let cc : Rat := 262144
  match c.op, alg with
  | 0x30, 1 => some ((n - 1) * (2 * a + (sr + sg) / (n * beta)))
  | 0x30, 2 => some (2 * (clog2 k.n : Rat) * (a + cc / beta) + (sr + sg) / beta)
  | 0x30, 4 => some (2 * (Nat.log2 k.n : Rat) * a + (sr + sg) * (n - 1) / (n * beta))
  | 0x31, 1 => some ((n - 1) * (a + sr / (n * beta)))
  | 0x31, 4 => some ((Nat.log2 k.n : Rat) * a + sr * (n - 1) / (n * beta))
  | 0x32, 1 => some ((n - 1) * (a + sg / (n * beta)))
  | 0x32, 4 => some ((Nat.log2 k.n : Rat) * a + sg * (n - 1) / (n * beta))
  | 0x35, 2 => some (2 * (clog2 k.n : Rat) * (a + cc / beta) + 2 * ((c.b : Nat) : Rat) / beta)
  | _, _ => none

/-- The algorithm AUTO takes: the least time, on a tie the lowest code (R346, log 37). -/
def Call.auto (c : Call) (k : Comm) : Nat :=
  let cs := (algsOf c.op).filter fun x => x ≠ 3 && algFits x k.n && decide (algLevel x ≤ k.level)
  let ts := cs.filterMap fun x => (c.time k x).map fun t => (x, t)
  match ts with
  | [] => 3
  | x :: t => (t.foldl (fun b y => if y.2 < b.2 then y else b) x).1

/-! ## Checks at issue (R341, R346, R348, R351, R356) -/

/-- A reserved field or value of a call (Table 13.3). -/
def Call.reserved (c : Call) : Bool :=
  let e := fun (v : Nat) => decide (v = 128) || decide (v = 129)
  decide (bits (c.field 1 1) 3 2 ≠ 0) || decide (4 < bits (c.field 1 1) 7 4) || decide (bits (c.field 2 1) 7 5 ≠ 0) ||
    decide (4 < bits (c.field 2 1) 3 0) || decide (bits (c.field 4 2) 15 12 ≠ 0) || e (c.field 36 1) || e (c.field 37 1) ||
    decide (c.send / 2 ^ 52 ≠ 0) || decide (c.recv / 2 ^ 52 ≠ 0) || !zeros c.raw 38 2 || !zeros c.raw 56 4 || !zeros c.raw 62 66 ||
    (if c.op = 0x34 then decide (65536 < c.cnt) || decide (65536 < c.root) || decide (c.field 48 8 % 32 ≠ 0)
     else decide (c.cnt = 0) || decide (2 ^ 36 < c.cnt))

/-- Two places' ranges overlap. -/
def placesMeet (a an b bn : Nat) : Bool :=
  let key := fun (x : Nat) => if x / 2 ^ 48 = 2 then x % 2 ^ 41 else x % 2 ^ 48
  decide (a / 2 ^ 48 = b / 2 ^ 48) && decide (key a < key b + bn) && decide (key b < key a + an)

/-- The buffers break R341: a range outside the partition's, or an overlap it does not allow. -/
def Call.buffersBad (c : Call) (s : State) (p n r : Nat) : Bool :=
  let x := c.extents n r
  let same := fun (a b : Nat) => a / 2 ^ 48 = b / 2 ^ 48 && a % 2 ^ 41 = b % 2 ^ 41
  let allowed := match c.op with
    | 0x30 => same c.send c.recv
    | 0x31 => same (c.send + r * c.b) c.recv
    | 0x32 => same (c.recv + r * c.b) c.send
    | _ => false
  (decide (0 < x.1) && placeBad s p c.send x.1) || (decide (0 < x.2) && placeBad s p c.recv x.2) ||
    (placesMeet c.send x.1 c.recv x.2 && !allowed)

/-- A PERMUTE entry is invalid: a reserved field, a destination or length out of range, a range outside. -/
def Call.entriesBad (c : Call) (s : State) (p n r : Nat) : Bool :=
  (addrFault s p 2 (c.field 48 8) (32 * c.cnt)).isSome ||
    (List.range c.cnt).any fun i =>
      let a := c.field 48 8 % 2 ^ 41 + 32 * i
      let x := c.entry s p i
      decide (farField s p a 8 / 2 ^ 17 ≠ 0) || decide (n ≤ x.dst) || decide (x.length = 0) || decide (2 ^ 36 < x.length) ||
        placeBad s p (c.send + x.src) x.length || (decide (x.dst = r) && placeBad s p (c.recv + x.off) x.length)

/-- A communicator's record holds a reserved value or breaks its ranges. -/
def commBad (s : State) (p : Nat) (k : Comm) : Bool :=
  let f := commField s p k.slot
  decide (k.state ≠ 1) || decide (k.engine = 3) || decide (bits (f 0 1) 3 0 ≠ 0) || decide (f 1 1 ≠ 0) || decide (f 20 4 ≠ 0) || decide (f 40 24 ≠ 0) ||
    decide (k.n = 0) || decide (131072 < k.n) || decide (k.n ≤ k.r) || decide (f 24 8 % 64 ≠ 0) ||
    (addrFault s p 2 (f 24 8) (8 * k.n)).isSome

/-- The current layout epoch of a partition (R351). -/
def epochOf (s : State) (p : Nat) : Nat := latched s p (Ad.partCollEpoch p)

/-- What is wrong with a call (Table 13.11, log 38); none when it is accepted. `alg` is the algorithm it would run. -/
def Call.check (c : Call) (s : State) (p : Nat) (alg : Nat) : Option Nat :=
  let k := commOf s p c.comm
  let named := bits (c.field 1 1) 7 4
  let cur := epochOf s p
  let x := { c with alg := alg }
  if c.reserved ∨ formed s p (Ad.partCollCommCount p) ≤ c.comm then some 1
  else if k.state = 2 then some 8
  else if commBad s p k then some 1
  else if (partOf s p).lastEpoch = some c.epoch ∧ c.epoch ≠ cur then some 6
  else if c.epoch ≠ (if c.op = 0x34 then (cur + 1) % 65536 else cur) then some 1
  else if (named ≠ 0 ∧ !((algsOf c.op).contains named && algFits named k.n)) ∨
      (c.reduces ∧ (bits (c.field 2 1) 3 0 = 4 ∨ (c.narrow ∧ bits (c.field 2 1) 3 0 ≠ 1) ∨ (named = 3 ∧ 4096 < k.n))) ∨
      (c.op = 0x35 ∧ k.n ≤ c.root) ∨ c.buffersBad s p k.n k.r ∨ (c.op = 0x34 ∧ c.entriesBad s p k.n k.r) then some 1
  else if (memberOf s p k k.r).dclass ≠ 0 ∨ (x.peers s p k.n k.r).any (fun m => (memberOf s p k m).dclass = 0) then some 1
  else if k.level < algLevel alg then some 2
  else
    let ms := (x.peers s p k.n k.r).map (memberOf s p k)
    let ok := fun (m : Member) => !m.none_ && (sessOf s m.sess).state = .opened && (sessOf s m.sess).part = p &&
      (sessOf s m.sess).jobSeq = c.jobSeq
    if ms.any fun m => !ok m then some 3
    else if ms.any fun m => decide ((sessOf s m.sess).level < k.level) then some 4
    else none

/-! ## Calls in progress -/

/-- A call's identity: slot, EPOCH and SEQ's low 20 bits (R345). -/
def Call.isId (c : Call) (comm epoch seq : Nat) : Bool :=
  c.comm = comm && c.epoch = epoch && c.seq % 2 ^ 20 = seq && (c.op ≠ 0x34 || c.started)

/-- A call replaced. -/
def setCall (s : State) (p : Nat) (c : Call) : State :=
  modPart s p fun q => { q with calls := q.calls.map fun x => if x.ref = c.ref then c else x }

/-- A message of a collective: to member `m` of a communicator, of a STEP of a call (R344). -/
def collSend (s : State) (p : Nat) (k : Comm) (m epoch seq step jobSeq : Nat) (d : List (Byte × Bool)) : Option State :=
  let x := memberOf s p k m
  newMsg s { sess := x.sess, msn := 0, op := 0x30, jobSeq := jobSeq, rkey := 0xFFFF0000 + x.slot,
             roffset := epoch * 2 ^ 48 + seq % 2 ^ 20 * 2 ^ 28 + step * 2 ^ 10, length := d.length,
             count := max 1 ((d.length + 4095) / 4096), coll := some ⟨k.slot, epoch, seq % 2 ^ 20, step⟩, data := d }

/-- A control message of kind 2 to 4, which carries only EPOCH and SEQ (R344), on a session to a member. -/
def collNotice (s : State) (p : Nat) (k : Comm) (m kind epoch seq jobSeq : Nat) : State :=
  (collSend s p k m epoch seq 0x3FFFF jobSeq (ctlBytes kind (leBytes 4 (seq % 2 ^ 20) ++ leBytes 2 epoch))).getD s

/-- Messages of a call that are not acknowledged yet. -/
def collOwing (s : State) (p : Nat) (c : Call) : Bool :=
  s.net.msgs.any fun e => e.2.coll.any (fun t => t.comm = c.comm && t.epoch = c.epoch && t.seq = c.seq % 2 ^ 20) &&
    (sessOf s e.2.sess).part = p

/-- A call's messages given up, their IDs released. -/
def cancelMsgs (s : State) (p : Nat) (c : Call) : State :=
  (s.net.msgs.filter fun e => e.2.coll.any (fun t => t.comm = c.comm && t.epoch = c.epoch && t.seq = c.seq % 2 ^ 20) &&
      (sessOf s e.2.sess).part = p).foldl (fun t e =>
    let mine := fun (k : Pkt) => k.msg / 4096 = e.1 && !k.response && k.type = 1
    let t1 := modSess t e.2.sess fun x =>
      { x with unacked := x.unacked.filter fun u => !mine u.pkt, outq := x.outq.filter fun h => !mine h }
    releaseId t1 e.1 e.2.sess) s

/-- A call completed with a code: STATUS, ALG_USED, and its SEM released (R356). -/
def collDone (s : State) (p : Nat) (c : Call) (code : Nat) : State :=
  let s1 := cancelMsgs s p c
  let s2 := modPart s1 p fun q => { q with calls := q.calls.filter fun x => x.ref ≠ c.ref }
  signalSem (entryWrite s2 c.ref 60 (leBytes 1 code ++ leBytes 1 c.alg)) p c.jobSeq (c.field 3 1) 1 false

/-- A piece of the result placed in RECV: counted per engine (Table 13.1) and in PART_COLL_BYTES (log 39). -/
def collPlace (s : State) (p : Nat) (k : Comm) (c : Call) (off : Nat) (d : List (Byte × Bool)) : State :=
  let s1 := pbWrite (d.length + 1) s p c.recv off d
  let s2 := odAdd s1 (Ad.partCollBytes p) d.length
  let odd := ((List.range d.length).filter fun i => (off + i) / 262144 % 2 = 1).length
  match k.engine with
  | 0 => odAdd s2 (Ad.collEngineBytes 0) d.length
  | 1 => odAdd s2 (Ad.collEngineBytes 1) d.length
  | _ => odAdd (odAdd s2 (Ad.collEngineBytes 0) (d.length - odd)) (Ad.collEngineBytes 1) odd

/-- The messages of a call in order: its ANNOUNCEs, then its schedule's. -/
def Call.sends (c : Call) (s : State) (p : Nat) (k : Comm) : List SendItem :=
  ((c.peers s p k.n k.r).map fun m => (⟨m, 0x3FFFF, some (ctlBytes 1 c.announce), []⟩ : SendItem)) ++ (c.schedule s p k.n k.r).1

/-- The places a call writes as far as they are known: RECV, and of a PERMUTE its own entries' and those announced to it. -/
def Call.writesAt (c : Call) (s : State) (p : Nat) : List (Nat × Nat) :=
  let k := commOf s p c.comm
  if c.op = 0x34 then
    (((List.range c.cnt).map (c.entry s p)).filter fun e => e.dst = k.r).map (fun e => (c.recv + e.off, e.length)) ++
      c.places.map fun x => (c.recv + x.offset, x.length)
  else [(c.recv, (c.extents k.n k.r).2)]

/-- The places of SEND a call has still to read. -/
def Call.unread (c : Call) (s : State) (p : Nat) : List (Nat × Nat) :=
  let k := commOf s p c.comm
  (((c.sends s p k).zipIdx.filter fun x => !c.sent.contains x.2).flatMap (·.1.reads)) ++
    (((c.schedule s p k.n k.r).2.zipIdx.filter fun x => !c.placed.contains x.2).flatMap (·.1.reads))

/-- Places that overlap one of others. -/
def anyMeet (l m : List (Nat × Nat)) : Bool := l.any fun a => m.any fun b => placesMeet a.1 a.2 b.1 b.2

/-- The calls of the partition issued before this one and not complete. -/
def Call.before (c : Call) (s : State) (p : Nat) : List Call := (partOf s p).calls.takeWhile fun x => x.ref ≠ c.ref

/-- A call may not read some places of SEND yet: an earlier call of its communicator writes them (R343), or, for a PERMUTE,
any earlier call of the partition (R352). -/
def Call.readWaits (c : Call) (s : State) (p : Nat) (l : List (Nat × Nat)) : Bool :=
  l ≠ [] && (c.before s p).any fun x => (decide (c.op = 0x34) || decide (x.comm = c.comm)) && anyMeet l (x.writesAt s p)

/-- A call may not write a place of RECV yet: an earlier call of its communicator has still to read it (R343), or the call
itself, in place, for another of its messages. -/
def Call.writeWaits (c : Call) (s : State) (p i off n : Nat) : Bool :=
  let k := commOf s p c.comm
  let own := ((c.sends s p k).zipIdx.filter fun x => !c.sent.contains x.2).flatMap (·.1.reads) ++
    ((c.schedule s p k.n k.r).2.zipIdx.filter fun x => x.2 ≠ i && !c.placed.contains x.2).flatMap (·.1.reads)
  ((c.before s p).any fun x => decide (x.comm = c.comm) && anyMeet [(c.recv + off, n)] (x.unread s p)) ||
    (decide (c.op ≠ 0x34) && anyMeet [(c.recv + off, n)] own)

/-- The reads of places of SEND: stopped by one of them, or made (R172, R191, R195, R232, R235). -/
def placesStop (s : State) (p : Nat) : List (Nat × Nat) → Option State
  | [] => none
  | a :: t =>
    match netStop s p a.1 a.2 with
    | some u => some u
    | none => placesStop s p t

/-- What those reads do. -/
def placesSeen (s : State) (p : Nat) (l : List (Nat × Nat)) : State := l.foldl (fun t a => netSeen t p a.1 a.2) s

/-- One message of the schedule sent when its bytes are ready and may be read; a PERMUTE's go in table order (R352). -/
def sendItem (p : Nat) (k : Comm) (s : State) (c : Call) (i : Nat) (x : SendItem) : State × Call :=
  match x.data with
  | none => (s, c)
  | some d =>
    let turn := c.op ≠ 0x34 || (List.range i).all c.sent.contains
    if c.sent.contains i || !turn || c.readWaits s p x.reads then (s, c)
    else if d = [] then (s, { c with sent := c.sent ++ [i] })
    else
      match placesStop s p x.reads with
      | some t => (t, c)
      | none =>
        match collSend (placesSeen s p x.reads) p k x.peer c.epoch c.seq x.step c.jobSeq d with
        | none => (s, c)
        | some t => (t, { c with sent := c.sent ++ [i], poisoned := c.poisoned || d.any (·.2) })

/-- One piece of the result placed when it is known and may be. -/
def placeItem (p : Nat) (k : Comm) (s : State) (c : Call) (i : Nat) (x : PlaceItem) : State × Call :=
  match x.data with
  | none => (s, c)
  | some d =>
    if c.placed.contains i || c.readWaits s p x.reads || c.writeWaits s p i x.off d.length || netHolds s p c.recv x.off d.length then (s, c)
    else
      match placesStop s p x.reads with
      | some t => (t, c)
      | none =>
        (odAdd (collPlace (placesSeen s p x.reads) p k c x.off d) (Ad.partCollSaturations p) x.sats,
         { c with placed := c.placed ++ [i], poisoned := c.poisoned || d.any (·.2) })

/-- The call's job runs. -/
def callRuns (s : State) (p : Nat) (c : Call) : Bool := (partOf s p).job.any fun j => j.seq = c.jobSeq

/-- A step of a call's work while its job runs. -/
def whileRuns (p : Nat) (f : State → Call → State × Call) (acc : State × Call) : State × Call :=
  if callRuns acc.1 p acc.2 then f acc.1 acc.2 else acc

/-- A started call goes on: every message ready is sent and every piece known is placed. -/
def collAdvance (s : State) (p : Nat) (c : Call) : State :=
  if !c.started || !callRuns s p c then s
  else
    let k := commOf s p c.comm
    let r1 := (c.sends s p k).zipIdx.foldl (fun acc x => whileRuns p (fun t y => sendItem p k t y x.2 x.1) acc) (s, c)
    let r2 := (c.schedule s p k.n k.r).2.zipIdx.foldl (fun acc x => whileRuns p (fun t y => placeItem p k t y x.2 x.1) acc) r1
    setCall r2.1 p r2.2

/-- Every call of a partition goes on, in issue order. -/
def collAdvanceAll (s : State) (p : Nat) : State :=
  (partOf s p).calls.foldl (fun t c =>
    match (partOf t p).calls.find? fun x => x.ref = c.ref with
    | some x => collAdvance t p x
    | none => t) s

/-- A call has placed all it awaits, sent all it owes, and every byte it sent is acknowledged (R343). -/
def Call.complete (c : Call) (s : State) (p : Nat) : Bool :=
  let k := commOf s p c.comm
  c.started && (List.range (c.sends s p k).length).all c.sent.contains &&
    (List.range ((c.schedule s p k.n k.r).2).length).all c.placed.contains &&
    (c.op ≠ 0x34 || decide (c.root ≤ c.places.length + ((List.range c.cnt).filter fun i => (c.entry s p i).dst = k.r).length)) &&
    !collOwing s p c

/-! ## Broken communicators (R354) -/

/-- A communicator breaks: its calls complete with PEER_FAILED, those still waiting with COMM_BROKEN; STATE is
BROKEN, and every member it holds a session with is sent ABORT. -/
def breakComm (s : State) (p slot : Nat) : State :=
  let k := commOf s p slot
  if k.state ≠ 1 then s
  else
    let s1 := commPut s p slot 0 1 (commField s p slot 0 1 % 64 + 128)
    let mine := (partOf s p).calls.filter fun c => c.comm = slot
    let s2 := mine.foldl (fun t c => collDone t p c (if c.started then 7 else 8)) s1
    (List.range k.n).foldl (fun t m =>
      let x := memberOf t p k m
      if m = k.r ∨ x.none_ ∨ !(sessOf t x.sess).sends ∨ (sessOf t x.sess).part ≠ p then t
      else collNotice t p k m 4 (epochOf t p) (commField t p slot 32 4) (jobSeq t p)) s2

/-- The communicators of a partition that use a session break. -/
def breakBySess (s : State) (n : Nat) : State :=
  let p := (sessOf s n).part
  (List.range (formed s p (Ad.partCollCommCount p))).foldl (fun t slot =>
    let k := commOf t p slot
    if k.state = 1 ∧ (memberBySess t p k n).isSome then breakComm t p slot else t) s

/-- A session becomes FAILED: its outstanding messages end with a code, its error bit is set (Table 12.4), and
the communicators that use it break (R354). -/
def failSess (s : State) (n code : Nat) : State :=
  let s1 := modSess s n fun x => { x with state := .failed, errorBit := true }
  let s2 := breakBySess s1 n
  modSess (endAll s2 n code) n fun x => { x with unacked := [], outq := [], resps := [] }

/-! ## Epochs (R351 to R353) -/

/-- How an epoch stands to the partition's: current, coming, or closed. -/
inductive EpochIs where
  | current
  | coming
  | closed
  deriving DecidableEq, Repr

/-- Epochs compare modulo 2^16. -/
def epochIs (s : State) (p epoch : Nat) : EpochIs :=
  let d := (epoch + 65536 - epochOf s p) % 65536
  if d = 0 then .current else if d < 32768 then .coming else .closed

/-- A packet of a closed epoch still belongs to a call of it: the last closed epoch, and SEQ below
CLOSED_COUNT. -/
def closedCounts (s : State) (p slot epoch seq : Nat) : Bool :=
  (partOf s p).lastEpoch = some epoch && decide (seq < commField s p slot 36 4 % 2 ^ 20)

/-- LATE_EPOCH (R353): counted, the first recorded, and the sender told EPOCH_CLOSED. -/
def lateEpoch (s : State) (p n slot epoch seq : Nat) : State :=
  let k := commOf s p slot
  let m := memberBySess s p k n
  let s1 := odInc s (Ad.partCollLateEpoch p)
  let s2 := if odGet s (Ad.partCollLateEpochSticky p) = 0 then
      odSet s1 (Ad.partCollFirstLate p) (epoch * 2 ^ 48 + slot * 2 ^ 36 + seq % 2 ^ 19 * 2 ^ 17 + m.getD 0)
    else s1
  let s3 := odSet s2 (Ad.partCollLateEpochSticky p) 1
  match m with
  | some i => collNotice s3 p k i 2 epoch seq (jobSeq s3 p)
  | none => s3

/-- The old epoch closes on every communicator (R352): SEQ to CLOSED_COUNT, SEQ 0, and the epoch advances. -/
def closeEpoch (s : State) (p : Nat) : State :=
  let old := epochOf s p
  let s1 := (List.range (formed s p (Ad.partCollCommCount p))).foldl (fun t slot =>
    commPut (commPut t p slot 36 4 (commField t p slot 32 4)) p slot 32 4 0) s
  let new := (old + 1) % 65536
  modPart (odSet s1 (Ad.partCollEpoch p) new) p fun q =>
    { q with lastEpoch := some old, latched := tset q.latched (Ad.partCollEpoch p) new }

end Sys2Proof.Machine
end

