-- ==== Sys2Proof/Machine/Identity.lean ====
section
/-!
DEFINITION. The part's identity (R386, R387): what it derives from its fused secret, its running images and its debug state,
what it signs, and the HKDF of R386 and R393 over the SHA-384 of `Config`.
-/

namespace Sys2Proof.Machine

/-! ## Images and fuses -/

/-- The image in a firmware slot. -/
def FwSlots.at (x : FwSlots) (b : Bool) : Option FwImage := if b then x.imageB else x.imageA

/-- The digest, version or security version of an image, as written or as shipped. -/
def imageDigest (x : FwSlots) (oc : Bool) : Nat :=
  ((x.at x.active).map FwImage.digest).getD (Config.shipped (if oc then 2 else 1))

/-- The firmware version: the running OC image's. -/
def fwVersion (s : State) : Nat := ((s.nv.oc.at s.nv.oc.active).map FwImage.version).getD (Config.shipped 3) % 2 ^ 32

/-- The security version of the image in a slot, a U16 as SEC_SVN. -/
def slotSvn (x : FwSlots) (oc b : Bool) : Nat :=
  ((x.at b).map FwImage.svn).getD (Config.shipped (if oc then 5 else 4)) % 65536

/-- SEC_FUSE_STATE (R404): the power limit and the CCLK ceiling in 50 MHz steps; its two flags are set at test. -/
def fuseState : Nat :=
  Config.setAtTest Ad.secFuseState % 4 + 16 * Config.powerLimitW + 65536 * (Config.cclkCeilingMHz / 50)

/-! ## Keys derived (R386, R393; log 168) -/

/-- SHA-384 as 48 bytes. -/
def sha48 (bs : List Byte) : List Byte := leBytes 48 (Config.sha384 bs)

/-- HMAC with SHA-384. -/
def hmac (key bs : List Byte) : List Byte :=
  let k := padTo 128 (if 128 < key.length then sha48 key else key)
  sha48 (k.map (· ^^^ 0x5C#8) ++ sha48 (k.map (· ^^^ 0x36#8) ++ bs))

/-- HKDF-Extract. -/
def hkdfExtract (salt ikm : List Byte) : List Byte := hmac salt ikm

/-- HKDF-Expand to `n` bytes. -/
def hkdfExpand (prk info : List Byte) (n : Nat) : List Byte :=
  let rec go : Nat → Nat → List Byte → List Byte
    | 0, _, _ => []
    | f + 1, i, t => let x := hmac prk (t ++ info ++ leBytes 1 i); x ++ go f (i + 1) x
  (go ((n + 47) / 48) 1 []).take n

/-- The order of the P-384 group. -/
def p384Order : Nat :=
  0xFFFFFFFFFFFFFFFFFFFFFFFFFFFFFFFFFFFFFFFFFFFFFFFFC7634D81F4372DDF581A0DB248B0A77AECEC196ACCC52973

/-- A private scalar from extra random bits (R386). -/
def scalarOf (n : Nat) : Nat := n % (p384Order - 1) + 1

/-- A private scalar from 512 bits of HKDF output. -/
def derivedScalar (ikm info : List Byte) : Nat := scalarOf (leNat (hkdfExpand (hkdfExtract [] ikm) info 64).reverse)

/-- The DeviceID key: of the UDS alone. -/
def deviceKey : Nat := derivedScalar Config.uds []

/-- SHA-384 of the DeviceID public key (Table 15.5). -/
def deviceId : Nat := Config.sha384 (padTo 96 (Config.point deviceKey))

/-- CDI: the UDS as input key, the SC image's digest as salt. -/
def cdi (s : State) : List Byte := hkdfExpand (hkdfExtract (leBytes 48 (imageDigest s.nv.sc false)) Config.uds) [] 48

/-- The attestation key: of CDI, for the OC image the SC found at this reset, the fuse and the debug state. -/
def akKey (s : State) : Nat :=
  derivedScalar (cdi s)
    (leBytes 48 (s.sec.akOc.getD (imageDigest s.nv.oc true)) ++ leBytes 4 fuseState ++ leBytes 4 (odGet s Ad.secDebugState))

/-- A signature under the AK. -/
def signAk (s : State) (bs : List Byte) : List Byte := padTo 96 (Config.ecdsa (akKey s) bs)

/-! ## Certificates (R387) -/

/-- The AK certificate. -/
def akCert (s : State) : List Byte :=
  Config.akCert deviceKey (padTo 96 (Config.point (akKey s)))
    [Config.shipped 0, imageDigest s.nv.sc false, s.sec.akOc.getD (imageDigest s.nv.oc true), fuseState, odGet s Ad.secDebugState]

/-- The certificates a handshake carries: DeviceID, then AK (Table 15.3). -/
def shakeChain (s : State) : List Byte := Config.deviceCert ++ akCert s

/-- The certificate chain of R387. -/
def certChain (s : State) : List Byte := Config.rootCert ++ Config.caCert ++ shakeChain s

end Sys2Proof.Machine
end

