-- ==== Sys2Proof/Machine/Transport.lean ====
section
/-!
DEFINITION. The rows of the NCT transport (R311 to R335): frames, received packets, requests, transmission,
timers and handshakes.
-/

namespace Sys2Proof.Machine

/-! ## Frames -/

/-- A received frame dropped by its port. -/
def dropFrame (s : State) (port : Nat) : State := odInc s (Ad.netPortRxDropped port)

/-- An NCT packet whose header or tag is refused, or that names no open session (R315, R316). -/
def unauthentic (s : State) (f : EthFrame) (p : Nat) : Bool :=
  let k := framePkt f
  let x := sessOf s k.dst
  let known := k.type ≠ 0 && decide (k.type ≤ 10)
  let sess := if k.type = 6 then true
    else if k.type = 7 then x.state == .opening && x.part == p
    else f.tagOk && x.live && x.part == p && (k.keyPhase == x.keyPhase || x.oldKeys.isSome)
  headerBad f.header || !known || !sess

/-- ETH_FRAME_RECEIVE (R312, R314 to R316, R332): the frame is dropped, handed to the OC, or sorted as NCT; an NCT
packet needs a credit, and one that is placed holds it until then. -/
def execEthFrameReceive (port : Nat) (f : EthFrame) (s : State) : Res :=
  let s1 := odAdd s (Ad.netPortRxBytes port) f.bytes
  if f.pause then .next (odInc s1 Ad.netPauseIgnored)
  else if 4226 < f.bytes ∨ f.vlan ∨ !f.macOk then .next (dropFrame s1 port)
  else
    match f.dstPart with
    | none => .next (dropFrame s1 port)
    | some p =>
      if f.icmp then
        .next (modNet s1 fun w => { w with icmp := tset w.icmp port ((tget w.icmp port).getD 0 + 1) })
      else if f.udpPort ≠ some (atReset s Ad.netNctUdpPort) ∨ !f.checksumOk then .next (dropFrame s1 port)
      else if unauthentic s f p then .next (odInc s1 Ad.netRxAuthFail)
      else
        match creditFor s p (portDie port) with
        | none => .next (dropFrame s1 port)
        | some shared =>
          if [1, 2, 3].contains (framePkt f).type then
            let c : InPkt := ⟨(framePkt f).dst, (framePkt f).psn, portDie port, p, shared⟩
            .next (modNet s1 fun w => { w with inPkts := w.inPkts ++ [c] })
          else .next s1

/-- OC_ICMP_REPLY (R313, R314): the OC's answer to a request handed to it leaves, unless hardware drops it: beyond 10,000 in
a second on the port (log 165), or for its source address. -/
def execOcIcmpReply (port : Nat) (f : OcFrame) (s : State) : Res :=
  let left := (tget s.net.icmp port).getD 0
  if left = 0 then .next s
  else
    let s1 := modNet s fun w => { w with icmp := tset w.icmp port (left - 1) }
    let sec := nowNs s / 10 ^ 9
    let sent := ((tget s.net.ocSent port).filter fun x => x.1 = sec).elim 0 Prod.snd
    if 10000 ≤ sent then .next (odInc s1 Ad.netOcTxCapped)
    else
      let s2 := modNet s1 fun w => { w with ocSent := tset w.ocSent port (sec, sent + 1) }
      if !f.srcMacOk ∨ !f.srcPrefixOk then .next (odInc s2 Ad.netTxFenceDrops) else .next (emit s2 (.ocFrame port))

/-! ## Received packets -/

/-- What every acknowledged-class packet meets first: a session that is not open drops it uncounted by ACKs (R316),
a parked one or one whose job does not run answers RNR (R334), and R327 drops repeats. `none` when the packet is to be acted on. -/
def rxStop (s : State) (k : Pkt) : Option State :=
  let x := sessOf s k.dst
  if !x.live then some (odInc s Ad.netRxAuthFail)
  else if x.state = .parked ∨ !sessRuns s x then some (sendRnr s k.dst k)
  else (rxFilter s k.dst k).map fun t => noteRx t k.dst k

/-- A GET response placed (R325). -/
def placeResponse (s : State) (n : Nat) (k : Pkt) : State :=
  let id := k.msg / 4096
  let p := (sessOf s n).part
  match tget s.net.msgs id with
  | none => s
  | some m =>
    if m.got.contains k.index then odInc s (Ad.partNctDupDropped p)
    else
      let s1 := netWrite s p m.source k.offset k.payload false
      let s2 := modMsg s1 id fun y => { y with got := y.got ++ [k.index] }
      if (m.length + 4095) / 4096 ≤ m.got.length + 1 then releaseIfDone (completeLocal s2 id) id else s2

/-- A GET response's bytes must wait at their place (R175, R232). -/
def respHolds (s : State) (n : Nat) (k : Pkt) : Bool :=
  (tget s.net.msgs (k.msg / 4096)).any fun m => netHolds s (sessOf s n).part m.source k.offset k.payload.length

/-- DATA (R321, R323, R327): a put's packet checked and placed, or a GET response placed. A packet whose RKEY names
region 0xFFFF belongs to a collective engine (R344), whose rows take it. -/
def execData (k : Pkt) (s : State) : Res :=
  let n := k.dst
  let x := sessOf s n
  if k.response then
    if !x.live then .next (odInc s Ad.netRxAuthFail)
    else if x.state = .parked then .next (sendRnr s n k)
    else if staleMsg s k.msg then .next (noteRx (lateDrop s x.part) n k)
    else if respHolds s n k then .next s
    else .next (placeResponse (noteRx s n k) n k)
  else if k.rkey / 65536 = 0xFFFF then .next s
  else
    match rxStop s k with
    | some t => .next t
    | none =>
      let s1 := noteRx s n k
      match regionAccess s x.part k.rkey k.offset k.payload.length true with
      | .inl c => .next (settleRx (refuseMsg (regionSeen s1 x.part k.rkey) n k c) n)
      | .inr w =>
        if netHolds s x.part w.1 w.2 k.payload.length then .next s
        else .next (settleRx (rxPlaced (netWrite (regionSeen s1 x.part k.rkey) x.part w.1 w.2 k.payload false) n k) n)

/-- A SIGNAL or GET_REQ taken into MSN order (R324): acted on once every lower MSN is placed or ended. -/
def takeOrdered (k : Pkt) (s : State) : State :=
  match rxStop s k with
  | some t => t
  | none =>
    let s1 := modSess (noteRx s k.dst k) k.dst fun x => { x with rxGot := x.rxGot ++ [(k.msn, k.index)], rxHeld := x.rxHeld ++ [k] }
    settleRx s1 k.dst

/-- GET_REQ (R324). -/
def execGetReq (k : Pkt) (s : State) : Res := .next (takeOrdered { k with type := 2 } s)

/-- SIGNAL (R324). -/
def execSignal (k : Pkt) (s : State) : Res := .next (takeOrdered { k with type := 3 } s)

/-- An acknowledged CLOSE of a CLOSING session frees it (Table 12.4). -/
def closeAcked (s : State) (n : Nat) (acked : List Pkt) : State :=
  if (sessOf s n).state = .closing ∧ acked.any fun k => k.type = 10 then dropSess s n 0 else s

/-- ACK (R321, R326, R328, R329). Progress resets the timer's doubling. A session PARKED drops it (R334). -/
def execAck (k : Pkt) (now : Nat) (s : State) : Res :=
  let n := k.dst
  let x := sessOf s n
  if !x.live then .next (odInc s Ad.netRxAuthFail)
  else if x.state = .parked then .next s
  else if staleMsg s k.msg ∧ !(x.resps.any fun r => r.msg = k.msg) then .next (lateDrop s x.part)
  else
    let cum := fieldLE k.payload 0 8
    let sack := fieldLE k.payload 8 8
    let hit := x.unacked.filter fun t => ackCovers cum sack t.pkt.psn
    let rest := x.unacked.filter fun t => !ackCovers cum sack t.pkt.psn
    let fresh := hit.filter fun t => !t.pkt.retrans
    let x1 := { x with unacked := rest, peerMark := fieldLE k.payload 20 4 }
    let x2 := match fresh.getLast? with
      | some t => x1.measure (now - t.sentAt)
      | none => x1
    let x3 := (x2.onAck hit.length (fieldLE k.payload 16 4) now)
    let x4 := if hit = [] then x3 else { x3 with backoff := 0 }
    let s1 := modSess s n fun _ => x4
    let s2 := hit.foldl (fun t h => ackedPkt t n h.pkt) s1
    let s3 := resend s2 n fun h => decide (3 ≤ ackAbove cum sack h.psn)
    .next (closeAcked s3 n (hit.map (·.pkt)))

/-- NAK (R321, R328, R330, R334): RNR makes the message wait; any other code ends it. -/
def execNak (k : Pkt) (s : State) : Res :=
  let n := k.dst
  let x := sessOf s n
  if !x.live then .next (odInc s Ad.netRxAuthFail)
  else if x.state = .parked then .next s
  else
    let msg := fieldLE k.payload 0 4
    let code := fieldLE k.payload 8 1
    let s1 := modSess (noteRx s n k) n fun y => { y with backoff := 0 }
    if code = 1 ∧ x.resps.any (fun r => r.msg = msg) then
      .next (modSess (odInc s1 (Ad.partNctRnrReceived x.part)) n fun y =>
        { y with resps := y.resps.map fun r => if r.msg = msg then { r with rnr := true } else r })
    else if staleMsg s1 msg then .next (lateDrop s1 x.part)
    else if code = 1 then
      let s2 := odInc s1 (Ad.partNctRnrReceived x.part)
      .next (modMsg s2 (msg / 4096) fun m => { m with rnr := true })
    else .next (endMsg s1 (msg / 4096) code (fieldLE k.payload 16 8))

/-! ## Handshakes (R318, R319, R388, R392 to R394) -/

/-- Keys can be generated: no entropy health test has failed since reset (R388). -/
def keysMade (s : State) : Bool := odGet s Ad.secEntropyState == 0

/-- A received handshake's LEVEL, EPH_PUB and CODE (Table 15.3). -/
def shakeLevel (h : Shake) : Nat := fieldLE h.payload 0 2
def shakePub (h : Shake) : List Byte := slice h.payload 8 96
def shakeCode (h : Shake) : Nat := fieldLE h.payload 106 1

/-- The identity check of R394; a CHAIN_LEN outside 1 to 3,900 holds no chain. -/
def identityOk (s : State) (p : Nat) (h : Shake) : Bool :=
  let policy := odGet s (Ad.partNctPeerPolicy p)
  let len := fieldLE h.payload 104 2
  let allowed := (List.range 4).any fun i =>
    match tget s.server.doms (Ad.partNctFwAllow p i) with
    | some b => b.length = 48 && leNat b = h.fwDigest
    | none => false
  decide (1 ≤ len) && decide (len ≤ 3900) && h.chainOk && h.sigOk && (!bit policy 0 || allowed) && (!bit policy 1 || h.debugState = 0)

/-- The refusal code of a HELLO, in the order level, quota, accept, identity (R318); none when it is accepted. -/
def helloRefusal (s : State) (h : Shake) : Option Nat :=
  if shakeLevel h < s.nv.level - 1 then some 0x24
  else if formed s h.p (Ad.partNctSessionQuota h.p) ≤ sessCount s h.p then some 0x25
  else if odGet s (Ad.partNctAccept h.p) = 0 ∨ (partOf s h.p).job.isNone then some 0x26
  else if !identityOk s h.p h then some 0x27
  else none

/-- A handshake packet handed to the key store's queue (R318). -/
def queueShake (s : State) (x : Handshake) : State := modNet s fun w => { w with handshakes := w.handshakes ++ [x] }

/-- The session an earlier HELLO of the same peer, SRC_SESSION and public key created (R318). -/
def repeatOf (s : State) (h : Shake) : Option Nat :=
  (s.net.sessions.find? fun e =>
    e.2.part = h.p && e.2.live && e.2.peer = h.peer && e.2.peerSess = h.src && e.2.peerPub = shakePub h).map (·.1)

/-- HELLO (Table 12.4, R388): answered through the key store's queue; no answer while keys cannot be made. -/
def execHello (h : Shake) (s : State) : Res :=
  if !keysMade s then .next s
  else
    match repeatOf s h with
    | some n => .next (queueShake s ⟨n, h.peer, h.src, false, 0, h.p⟩)
    | none =>
      match helloRefusal s h, freeSess s with
      | none, some n =>
        let x : Sess := { part := h.p, jobSeq := jobSeq s h.p, peer := h.peer, peerSess := h.src, peerPub := shakePub h,
                          level := min (shakeLevel h) s.nv.level }
        let s1 := modSess s n fun _ => x.open s
        .next (queueShake s1 ⟨n, h.peer, h.src, false, 0, h.p⟩)
      | some c, _ => .next (queueShake s ⟨0xFFFF, h.peer, h.src, false, c, h.p⟩)
      | none, none => .next (queueShake s ⟨0xFFFF, h.peer, h.src, false, 0x25, h.p⟩)

/-! ## Link keys (R393) -/

/-- The 72 bytes of R393 from Z, the two public points, the initiator's and the responder's session, and the KEY_PHASE. -/
def linkBytes (z pubI pubR : List Byte) (sessI sessR : Nat) (phase : Bool) : List Byte :=
  let prk := hkdfExtract (sha48 (pubI ++ pubR)) z
  let info := [0x4E#8, 0x43#8, 0x54#8, 0x31#8] ++ leBytes 2 sessI ++ leBytes 2 sessR ++ leBytes 1 (if phase then 1 else 0)
  hkdfExpand prk info 72

/-- The key set of one end: the initiator sends under bytes 0 to 35, the responder under bytes 36 to 71. -/
def keySet (bs : List Byte) (initiator : Bool) : LinkKeys :=
  let i := if initiator then 0 else 36
  ⟨slice bs i 32, slice bs (i + 32) 4, slice bs (36 - i) 32, slice bs (68 - i) 4⟩

/-- The public point of an ephemeral scalar. -/
def ephPoint (scalar : Nat) : List Byte := padTo 96 (Config.point scalar)

/-- The keys an initiator derives of its ephemeral scalar and the responder's point. -/
def initiatorKeys (x : Sess) (n scalar : Nat) (pub : List Byte) (phase : Bool) : LinkKeys :=
  keySet (linkBytes (padTo 48 (Config.ecdhX scalar pub)) (ephPoint scalar) pub n x.peerSess phase) true

/-- The keys a responder derives of its ephemeral scalar and the initiator's point. -/
def responderKeys (x : Sess) (n scalar : Nat) (pub : List Byte) (phase : Bool) : LinkKeys :=
  keySet (linkBytes (padTo 48 (Config.ecdhX scalar pub)) pub (ephPoint scalar) x.peerSess n phase) false

/-- A REPLY whose sender this part does not accept (R394): one CLOSE under the new keys, which then go, and the OPEN ends. -/
def refuseReply (s : State) (n : Nat) (y : Sess) (code : Nat) : State :=
  let s1 := modSess s n fun _ => y
  let s2 := match nextPort s1 y with
    | some port => emitPkt s1 n port true (y.pkt n 10)
    | none => s1
  dropSess s2 n code

/-- REPLY (Table 12.4, R394): an accepting one installs the keys and completes the OPEN; a refusing one, or one whose level
or identity fails, ends it (log 167). -/
def execReply (h : Shake) (s : State) : Res :=
  let n := h.dst
  let x := sessOf s n
  match x.state, x.eph with
  | .opening, some scalar =>
    if shakeCode h ≠ 0 then .next (dropSess s n (shakeCode h))
    else
      let x1 := { x with peerSess := h.src, peerPub := shakePub h, level := min (shakeLevel h) s.nv.level, eph := none }
      let y := { x1 with keys := some (initiatorKeys x1 n scalar (shakePub h) x.keyPhase) }
      if shakeLevel h < s.nv.level - 1 then .next (refuseReply s n y 0x24)
      else if !identityOk s x.part h then .next (refuseReply s n y 0x27)
      else
        let s1 := modSess s n fun _ => { y with ref := none }.open s
        match x.ref with
        | some r => .next (netStatus s1 r x.jobSeq x.sem 0)
        | none => .next s1
  | _, _ => .next s

/-- One generate request of the DRBG (R388). -/
def generate (s : State) : State := { s with sec := { s.sec with drbg := s.sec.drbg + 1 } }

/-- A fresh ephemeral scalar (R388, R389); what the DRBG gives is an open value (log 4). -/
def freshScalar (s : State) : Nat × State :=
  let f := fresh (generate s)
  (scalarOf f.1, f.2)

/-- The payload of a REKEY or REKEY_REPLY (R393). -/
def rekeyPayload (scalar : Nat) : List Byte := ephPoint scalar ++ List.replicate 32 0

/-- REKEY (R318, R393): answered with REKEY_REPLY under the current keys, and the new ones follow it. -/
def execRekey (k : Pkt) (s : State) : Res :=
  let n := k.dst
  let x := sessOf s n
  if !x.sends then .next (if x.live then s else odInc s Ad.netRxAuthFail)
  else
    let s1 := noteRx s n k
    if !keysMade s then .next s1
    else
      let r := freshScalar s1
      let s2 := modSess r.2 n fun y => { y with newKeys := some (responderKeys y n r.1 (slice k.payload 0 96) (!y.keyPhase)) }
      .next (sendCtl s2 n { (sessOf s2 n).pkt n 9 with payload := rekeyPayload r.1 })

/-- REKEY_REPLY (Table 12.4, R393): the initiator derives the new keys, which take effect at the next KEY_PHASE. -/
def execRekeyReply (k : Pkt) (s : State) : Res :=
  let n := k.dst
  let x := sessOf s n
  if !x.sends then .next (if x.live then s else odInc s Ad.netRxAuthFail)
  else
    let s1 := noteRx s n k
    match x.eph with
    | none => .next s1
    | some scalar =>
      let s2 := switchKeys s1 n (initiatorKeys x n scalar (slice k.payload 0 96) (!x.keyPhase))
      .next (modSess s2 n fun y => { y with state := .opened })

/-- CLOSE (Table 12.4, R354): acknowledged at once; every outstanding message ends with PEER_CLOSED. -/
def execClose (k : Pkt) (s : State) : Res :=
  let n := k.dst
  let x := sessOf s n
  if !x.live then .next (odInc s Ad.netRxAuthFail)
  else if x.state = .parked then .next s
  else
    let s1 := sendAck (noteRx s n k) n
    if x.state = .opened ∨ x.state = .rekeying then .next (failSess s1 n 0x11) else .next s1

/-! ## Requests (Table 12.5) -/

/-- The request's session. -/
def reqSess (raw : List Byte) : Nat := fieldLE raw 2 2

/-- A reserved field of a request. -/
def reqReserved (raw : List Byte) : Bool :=
  !zeros raw 1 1 || !zeros raw 20 4 || !zeros raw 43 1 || !zeros raw 61 3

/-- A request completes at submission with a code (R320); its SEM is released with every completion (log 30). -/
def reqDone (s : State) (r : ReqRef) (raw : List Byte) (code : Nat) : State :=
  netStatus s r (jobSeq s r.p) (fieldLE raw 40 1) code

/-- The session is not OPEN, or belongs to another job (R320). -/
def sessInvalid (s : State) (p n : Nat) : Bool :=
  let x := sessOf s n
  x.state ≠ .opened || x.part ≠ p || x.jobSeq ≠ jobSeq s p

/-- PUT, GET or SIGNAL as it issues (R320, R322): not taken while every message ID is in use. -/
def messageIssue (s : State) (r : ReqRef) (raw : List Byte) : State :=
  if (partOf s r.p).job.isNone then s
  else
    let op := fieldLE raw 0 1
    let n := reqSess raw
    let len := fieldLE raw 4 4
    let local_ := fieldLE raw 8 8
    let data := op ≠ 0x22
    let bad := reqReserved raw || (data && (decide (len = 0) || decide (2 ^ 30 < len) || placeBad s r.p local_ len ||
      decide (fieldLE raw 18 2 = 0xFFFF)))
    if bad then reqDone s r raw 0x21
    else if sessInvalid s r.p n then reqDone s r raw 0x22
    else
      let m : Msg := { sess := n, msn := 0, op := op, ref := some r, sem := fieldLE raw 40 1, jobSeq := jobSeq s r.p,
                       source := local_, rkey := fieldLE raw 16 4, roffset := fieldLE raw 24 8, length := len,
                       tag := fieldLE raw 32 8, rsem := fieldLE raw 41 1, rcount := fieldLE raw 42 1,
                       count := if op = 0x20 then (len + 4095) / 4096 else 1 }
      (newMsg s (if data then m else { m with rkey := 0, roffset := 0, length := 0 })).getD s

/-- NCT_PUT (R320 to R322). -/
def execNctPut (r : ReqRef) (raw : List Byte) (s : State) : Res := .next (messageIssue s r (leBytes 1 0x20 ++ raw.drop 1))

/-- NCT_GET (R320 to R322). -/
def execNctGet (r : ReqRef) (raw : List Byte) (s : State) : Res := .next (messageIssue s r (leBytes 1 0x21 ++ raw.drop 1))

/-- NCT_SIGNAL (R320 to R322, R324). -/
def execNctSignal (r : ReqRef) (raw : List Byte) (s : State) : Res := .next (messageIssue s r (leBytes 1 0x22 ++ raw.drop 1))

/-- FENCE as it issues (R331): it waits for every earlier message of its session. -/
def fenceIssue (s : State) (r : ReqRef) (raw : List Byte) : State :=
  if (partOf s r.p).job.isNone then s
  else if reqReserved raw then reqDone s r raw 0x21
  else if sessInvalid s r.p (reqSess raw) then reqDone s r raw 0x22
  else
    let n := reqSess raw
    let f : FenceReq := ⟨r, n, (sessOf s n).nextMsn, fieldLE raw 40 1, jobSeq s r.p⟩
    modNet s fun w => { w with fences := w.fences ++ [f] }

/-- NCT_FENCE (R331). -/
def execNctFence (r : ReqRef) (raw : List Byte) (s : State) : Res := .next (fenceIssue s r raw)

/-- OPEN as it issues (R318, R320, R388): a session OPENING, its HELLO queued at the key store. -/
def openIssue (s : State) (r : ReqRef) (raw : List Byte) : State :=
  if (partOf s r.p).job.isNone then s
  else if reqReserved raw then reqDone s r raw 0x21
  else if formed s r.p (Ad.partNctSessionQuota r.p) ≤ sessCount s r.p then reqDone s r raw 0x28
  else
    match freeSess s with
    | none => reqDone s r raw 0x28
    | some n =>
      if !keysMade s then reqDone s r raw 0x23
      else
        let x : Sess := { state := .opening, part := r.p, jobSeq := jobSeq s r.p, peer := fieldLE raw 44 16, ref := some r,
                          sem := fieldLE raw 40 1, hellos := 1 }
        let s1 := modSess (entryWrite s r 2 (leBytes 2 n)) n fun _ => x
        queueShake s1 ⟨n, x.peer, 0, true, 0, r.p⟩

/-- NCT_OPEN (R318). -/
def execNctOpen (r : ReqRef) (raw : List Byte) (s : State) : Res := .next (openIssue s r raw)

/-- CLOSE as it issues (Table 12.4): an OPEN session closes once its messages are released, a FAILED one at once. -/
def closeIssue (s : State) (r : ReqRef) (raw : List Byte) : State :=
  let n := reqSess raw
  let x := sessOf s n
  if (partOf s r.p).job.isNone then s
  else if reqReserved raw then reqDone s r raw 0x21
  else if x.state = .failed ∧ x.part = r.p ∧ x.jobSeq = jobSeq s r.p then
    dropSess (modSess s n fun y => { y with ref := some r, sem := fieldLE raw 40 1 }) n 0
  else if sessInvalid s r.p n then reqDone s r raw 0x22
  else closeIfDone (modSess s n fun y => { y with closeAsked := true, ref := some r, sem := fieldLE raw 40 1 }) n

/-- NCT_CLOSE (Table 12.4). -/
def execNctClose (r : ReqRef) (raw : List Byte) (s : State) : Res := .next (closeIssue s r raw)

/-- CLEAR_ERROR as it issues (R331). -/
def clearErrorIssue (s : State) (r : ReqRef) (raw : List Byte) : State :=
  if (partOf s r.p).job.isNone then s
  else if reqReserved raw then reqDone s r raw 0x21
  else if sessInvalid s r.p (reqSess raw) then reqDone s r raw 0x22
  else reqDone (modSess s (reqSess raw) fun x => { x with errorBit := false }) r raw 0

/-- NCT_CLEAR_ERROR (R331). -/
def execNctClearError (r : ReqRef) (raw : List Byte) (s : State) : Res := .next (clearErrorIssue s r raw)

/-- Any NCT request by its OP (R366). -/
def nctIssue (s : State) (r : ReqRef) (raw : List Byte) : State :=
  match fieldLE raw 0 1 with
  | 0x23 => fenceIssue s r raw
  | 0x24 => openIssue s r raw
  | 0x25 => closeIssue s r raw
  | 0x26 => clearErrorIssue s r raw
  | _ => messageIssue s r raw

/-- NCT_FENCE_COMPLETE (R331). -/
def execNctFenceComplete (sess : Nat) (s : State) : Res := .next (completeFences s sess false)

/-! ## Transmission and timers -/

/-- PACKET_TRANSMIT (R317, R322, R332). -/
def execPacketTransmit (sess now : Nat) (srcOk poison : Bool) (s : State) : Res :=
  .next (transmitNext s sess now srcOk poison)

/-- NET_CREDIT_AVAILABLE (R332): the first session waiting for a credit of the die sends. -/
def execNetCreditAvailable (nd now : Nat) (s : State) : Res :=
  match s.net.waitCredit.find? fun n => (nextPort s (sessOf s n)).any fun q => portDie q = nd with
  | none => .next s
  | some n => .next (transmitNext s n now true false)

/-- ACK_TIMER (R326). -/
def execAckTimer (sess : Nat) (s : State) : Res :=
  if (sessOf s sess).sends && decide (0 < (sessOf s sess).rxPend) then .next (sendAck s sess) else .next s

/-- RETRANSMIT_TIMEOUT (R328, R329). -/
def execRetransmitTimeout (sess now : Nat) (s : State) : Res :=
  let x := sessOf s sess
  if x.sends && x.unacked ≠ [] then
    .next (modSess (resend s sess fun _ => true) sess fun y => { y.onTimeout now with backoff := y.backoff + 1 })
  else .next s

/-- HELLO_TIMEOUT (Table 12.4). -/
def execHelloTimeout (sess : Nat) (s : State) : Res :=
  let x := sessOf s sess
  if x.state ≠ .opening then .next s
  else if x.hellos < 5 then
    .next (queueShake (modSess s sess fun y => { y with hellos := y.hellos + 1 }) ⟨sess, x.peer, 0, true, 0, x.part⟩)
  else .next (dropSess s sess 0x23)

/-- SESSION_FAIL (R328, R354): a session with outstanding packets that made no progress. -/
def execSessionFail (sess : Nat) (s : State) : Res :=
  let x := sessOf s sess
  if (x.state = .opened ∨ x.state = .rekeying) ∧ (x.unacked ≠ [] ∨ x.outq ≠ []) then .next (failSess s sess 0x10) else .next s

/-- CLOSE_TIMEOUT (Table 12.4, R334): a CLOSING session is freed; one whose job has ended is closed with its
messages still outstanding. -/
def execCloseTimeout (sess : Nat) (s : State) : Res :=
  let x := sessOf s sess
  let ended := !(sessRuns s x) && !((partOf s x.part).parked.any fun j => j.seq = x.jobSeq)
  if x.state = .closing then .next (dropSess s sess 0)
  else if x.closeAsked ∧ ended then .next (dropSess (endAll s sess 0x11) sess 0)
  else .next s

/-- OLD_KEY_EXPIRY (R318). -/
def execOldKeyExpiry (sess : Nat) (s : State) : Res :=
  if (tget s.net.sessions sess).isSome then .next (modSess s sess fun x => { x with oldKeys := none }) else .next s

/-- REKEY_START (R318, Table 12.4). -/
def execRekeyStart (sess : Nat) (s : State) : Res :=
  let x := sessOf s sess
  if x.state = .opened ∧ 2 ^ 47 ≤ x.keyPkts ∧ keysMade s ∧ x.eph = none ∧ x.newKeys = none then
    let r := freshScalar s
    let s1 := modSess r.2 sess fun y => { y with state := .rekeying, eph := some r.1 }
    .next (sendCtl s1 sess { x.pkt sess 8 with payload := rekeyPayload r.1 })
  else .next s

/-- RNR_RESEND (R334): the message's unacknowledged packets go again, and the next delay doubles up to 5 ms. `msg`
is the ID of a message of the part, or of the GET whose response it serves. -/
def execRnrResend (sess msg : Nat) (s : State) : Res :=
  let slower := fun (t : State) => modSess t sess fun x => { x with rnrUs := min 5000 (2 * x.rnrUs) }
  match (sessOf s sess).resps.find? fun r => r.msg / 4096 = msg && r.rnr with
  | some r =>
    let s1 := modSess s sess fun x => { x with resps := x.resps.map fun y => if y.msg = r.msg then { y with rnr := false } else y }
    .next (slower (resend s1 sess fun k => k.response && k.msg = r.msg))
  | none =>
    match tget s.net.msgs msg with
    | none => .next s
    | some m =>
      if m.sess = sess ∧ m.rnr then
        let s1 := modMsg s msg fun y => { y with rnr := false }
        .next (slower (resend s1 sess fun k => k.msg / 4096 = msg && !k.response && decide (k.type ≤ 3)))
      else .next s

/-- The bytes a handshake's SIG covers, but for the header and the HELLO's point (R392, Table 15.3). -/
def shakeFields (s : State) (pub : List Byte) : List Byte :=
  leBytes 2 s.nv.level ++ leBytes 2 (s.nv.level - 1) ++ leBytes 4 (fwVersion s) ++ padTo 96 pub ++
    leBytes 2 (min (shakeChain s).length 3900) ++ List.replicate 6 0 ++ padTo 3904 ((shakeChain s).take 3900)

/-- The packet of a handshake (R392): a refusing REPLY carries LEVEL and CODE alone. -/
def shakePkt (s : State) (h : Handshake) : Pkt :=
  let x := sessOf s h.sess
  let k : Pkt := { x.pkt h.sess (if h.hello then 6 else 7) with
    keyPhase := false, dst := if h.hello then 0xFFFF else h.peerSess, payload := List.replicate 4112 0 }
  if h.code ≠ 0 then { k with payload := padTo 4112 (padTo 106 (leBytes 2 s.nv.level) ++ leBytes 1 h.code) }
  else
    let b := shakeFields s (x.ephPub.getD [])
    { k with payload := b ++ signAk s (b ++ headerOf k ++ if h.hello then [] else x.peerPub) }

/-- A handshake packet leaves: HELLO and accepting REPLY on the session's next port, a refusal on one of the partition's. -/
def sendShake (s : State) (h : Handshake) : State :=
  let x := if h.code = 0 then sessOf s h.sess else { part := h.part, peer := h.peer }
  match nextPort s x with
  | none => s
  | some port =>
    let s1 := emitAs s x h.sess port true (shakePkt s h)
    if h.code = 0 then modSess s1 h.sess fun y => { y with nextPort := port + 1 } else s1

/-- The ephemeral key of a session's HELLO or REPLY made (R388, R389): an initiator keeps the scalar until the REPLY, a
responder's agreement completes at once. -/
def makeEph (s : State) (h : Handshake) : State :=
  let r := freshScalar s
  modSess r.2 h.sess fun x =>
    if h.hello then { x with eph := some r.1, ephPub := some (ephPoint r.1) }
    else { x with ephPub := some (ephPoint r.1), keys := some (responderKeys x h.sess r.1 x.peerPub x.keyPhase) }

/-- The session a queued handshake was for waits for it still. -/
def shakeDue (s : State) (h : Handshake) : Bool :=
  let x := sessOf s h.sess
  if h.hello then x.state == .opening else x.live && x.peer == h.peer && x.peerSess == h.peerSess

/-- KEY_STORE_HANDSHAKE (R318, R388): the next queued HELLO or REPLY leaves, with a fresh ephemeral key the first time; while
keys cannot be made the OPEN times out and no REPLY is drawn. -/
def execKeyStoreHandshake (s : State) : Res :=
  match s.net.handshakes with
  | [] => .next s
  | h :: t =>
    let s1 := modNet s fun w => { w with handshakes := t }
    if h.code ≠ 0 then .next (sendShake s1 h)
    else if !shakeDue s1 h then .next s1
    else if (sessOf s1 h.sess).ephPub.isSome then .next (sendShake s1 h)
    else if !keysMade s1 then .next (dropSess s1 h.sess 0x23)
    else .next (sendShake (makeEph s1 h) h)

/-! ## Parking and closing (R334, R335) -/

/-- The sessions of a partition's job. -/
def jobSessions (s : State) (p jobSeq : Nat) : List Nat :=
  (s.net.sessions.filter fun e => e.2.part = p && e.2.jobSeq = jobSeq).map (·.1)

/-- The sessions of the running job parked (R334): they hold no credit. -/
def parkSessions (s : State) (p : Nat) : State :=
  (jobSessions s p (jobSeq s p)).foldl (fun t n =>
    let x := sessOf t n
    if x.state = .opened ∨ x.state = .rekeying then
      modNet (modSess t n fun y => { y with state := .parked }) fun w =>
        { w with inPkts := w.inPkts.filter fun c => c.sess ≠ n }
    else t) s

/-- The parked sessions of a resumed job OPEN again, their unacknowledged packets sent again (Table 12.4). -/
def resumeSessions (s : State) (p jobSeq : Nat) : State :=
  (jobSessions s p jobSeq).foldl (fun t n =>
    if (sessOf t n).state = .parked then resend (modSess t n fun y => { y with state := .opened }) n fun _ => true
    else t) s

/-- Every session of an ended job closed as CLOSE requests do (R334). -/
def closeSessions (s : State) (p jobSeq : Nat) : State :=
  (jobSessions s p jobSeq).foldl (fun t n =>
    match (sessOf t n).state with
    | .opened => closeIfDone (modSess t n fun y => { y with closeAsked := true }) n
    | .rekeying => closeIfDone (modSess t n fun y => { y with state := .opened, closeAsked := true }) n
    | .parked => closeIfDone (modSess t n fun y => { y with state := .opened, closeAsked := true }) n
    | .closing => t
    | _ => dropSess t n 0x23) s

/-- At teardown (R335): NAK PARTITION_GONE to every inbound message in progress, CLOSE on every session, then the
keys are gone. -/
def tearSessions (s : State) (p : Nat) : State :=
  (s.net.sessions.filter fun e => e.2.part = p).foldl (fun t e =>
    let n := e.1
    let open_ := (sessOf t n).rxGot.map (·.1) |>.eraseDups
    let t1 := if (sessOf t n).live then
        let t2 := open_.foldl (fun u msn => refuseMsg u n { (sessOf u n).pkt n 1 with msn := msn } 5) t
        sendCtl t2 n ((sessOf t2 n).pkt n 10)
      else t
    let t3 := (sessMsgs t1 n).foldl (fun u m => releaseId u m.1 n) t1
    dropSess { t3 with net := { t3.net with fences := t3.net.fences.filter fun f => f.sess ≠ n } } n 0x11) s

end Sys2Proof.Machine
end

