-- ==== Sys2Proof/Machine/Collectives.lean ====
section
/-!
DEFINITION. The rows of the collective engines (R338 to R357): calls issued, started and completed, and the packets
and control messages they receive.
-/

namespace Sys2Proof.Machine

/-! ## Receiving for a call -/

/-- The identity in a collective packet's OFFSET (Table 13.5): EPOCH, SEQ and STEP. -/
def collId (k : Pkt) : Nat × Nat × Nat := (bits k.offset 63 48, bits k.offset 47 28, bits k.offset 27 10)

/-- The communicator slot of a collective packet. -/
def collSlot (k : Pkt) : Nat := k.rkey % 4096

/-- KIND of a control message: 1 ANNOUNCE, 2 EPOCH_CLOSED, 3 MISMATCH, 4 ABORT, 5 PLACE; 0 for data. -/
def collKind (k : Pkt) : Nat := if (collId k).2.2 = 0x3FFFF then fieldLE k.payload 0 1 else 0

/-- The call of the partition a packet is for. -/
def callFor (s : State) (p : Nat) (k : Pkt) : Option Call :=
  (partOf s p).calls.find? fun c => c.isId (collSlot k) (collId k).1 (collId k).2.1

/-- The bytes of a packet with their poison. -/
def pktData (k : Pkt) : List (Byte × Bool) := k.payload.zipIdx.map fun b => (b.1, k.poison.contains b.2)

/-- A packet of a message put into a call's inbox. -/
def Call.take (c : Call) (src : Nat) (k : Pkt) : Call :=
  let step := (collId k).2.2
  let put := fun (m : CollIn) =>
    if m.got.contains k.index then m
    else { m with got := m.got ++ [k.index], count := k.count, data := tset m.data k.index (pktData k) }
  if c.inbox.any fun m => m.src = src && m.step = step then
    { c with inbox := c.inbox.map fun m => if m.src = src && m.step = step then put m else m }
  else { c with inbox := c.inbox ++ [put { src := src, step := step }] }

/-- Both members complete a call with COLL_MISMATCH (R345): here, and there by a MISMATCH message. -/
def mismatchCall (s : State) (p : Nat) (c : Call) (src : Option Nat) : State :=
  let s1 := odInc (collDone s p c 5) (Ad.partCollMismatch p)
  match src with
  | some m => collNotice s1 p (commOf s p c.comm) m 3 c.epoch c.seq c.jobSeq
  | none => s1

/-- A packet or message given to its call. -/
def giveCall (s : State) (p n : Nat) (c : Call) (k : Pkt) : State :=
  let src := memberBySess s p (commOf s p c.comm) n
  match collKind k with
  | 0 =>
    let c1 := c.take (src.getD 0) k
    collAdvance (setCall s p c1) p c1
  | 1 => if slice k.payload 4 18 = padTo 18 c.announce then s else mismatchCall s p c src
  | 5 =>
    if c.root ≤ c.places.length then mismatchCall s p c src
    else
      let x : PlaceRec := ⟨src.getD 0, fieldLE k.payload 4 4, fieldLE k.payload 8 8, fieldLE k.payload 16 8⟩
      let c1 := { c with places := c.places ++ [x] }
      collAdvance (setCall s p c1) p c1
  | _ => s

/-- A packet held for a call not yet issued, with one shared credit (R345); without one it is dropped. -/
def holdPkt (s : State) (p n : Nat) (k : Pkt) : Option State :=
  let keep := fun (t : State) => modPart t p fun q => { q with heldPkts := q.heldPkts ++ [⟨n, k⟩] }
  let take := fun (t : State) (die : Nat) =>
    let used := (t.net.inPkts.filter fun c => c.die = die && c.shared).length
    if used < sharedCredits t die then
      some (keep (modNet t fun w => { w with inPkts := w.inPkts ++ [⟨n, k.psn, die, p, true⟩] }))
    else none
  match s.net.inPkts.find? fun c => c.sess = n && c.psn = k.psn with
  | some c => if c.shared then some (keep s) else take (giveCredit s n k.psn) c.die
  | none => take s ((commOf s p (collSlot k)).engine % 2)

/-- An acknowledged-class packet noted as `noteRx` does, its credit kept while it is held. -/
def noteHeld (s : State) (n : Nat) (k : Pkt) : State :=
  let mine := s.net.inPkts.filter fun c => c.sess = n && c.psn = k.psn
  let s1 := noteRx s n k
  modNet s1 fun w => { w with inPkts := w.inPkts ++ mine }

/-- A collective packet (R345, R353): late, for a call in progress, or held. -/
def collReceive (s : State) (k : Pkt) : State :=
  let n := k.dst
  let p := (sessOf s n).part
  let id := collId k
  let slot := collSlot k
  match rxStop s k with
  | some t => t
  | none =>
    if epochIs s p id.1 = .closed ∧ !closedCounts s p slot id.1 id.2.1 then
      lateEpoch (rxPlaced (noteRx s n k) n k) p n slot id.1 id.2.1
    else
      match callFor s p k with
      | some c => giveCall (rxPlaced (noteRx s n k) n k) p n c k
      | none =>
        match holdPkt s p n k with
        | some t => rxPlaced (noteHeld t n k) n k
        | none => giveCredit s n k.psn

/-- A control message of another kind: acknowledged, and acted on where it applies. -/
def noticeReceive (s : State) (k : Pkt) (act : State → Nat → State) : State :=
  match rxStop s k with
  | some t => t
  | none => act (rxPlaced (noteRx s k.dst k) k.dst k) (sessOf s k.dst).part

/-- COLL_PACKET (R345). -/
def execCollPacket (k : Pkt) (s : State) : Res :=
  if k.rkey / 65536 = 0xFFFF then .next (collReceive s k) else .next s

/-- ANNOUNCE (R345). -/
def execAnnounce (k : Pkt) (s : State) : Res :=
  if k.rkey / 65536 = 0xFFFF ∧ collKind k = 1 then .next (collReceive s k) else .next s

/-- PLACE (R352). -/
def execPlace (k : Pkt) (s : State) : Res :=
  if k.rkey / 65536 = 0xFFFF ∧ collKind k = 5 then .next (collReceive s k) else .next s

/-- EPOCH_CLOSED (R353): the sender's call completes with EPOCH_CLOSED. -/
def execEpochClosed (k : Pkt) (s : State) : Res :=
  if k.rkey / 65536 = 0xFFFF ∧ collKind k = 2 then
    .next (noticeReceive s k fun t p =>
      match callFor t p k with
      | some c => collAdvanceAll (collDone t p c 6) p
      | none => t)
  else .next s

/-- MISMATCH (R345). -/
def execMismatch (k : Pkt) (s : State) : Res :=
  if k.rkey / 65536 = 0xFFFF ∧ collKind k = 3 then
    .next (noticeReceive s k fun t p =>
      match callFor t p k with
      | some c => collAdvanceAll (mismatchCall t p c none) p
      | none => t)
  else .next s

/-- COLL_ABORT (R354): the member breaks its communicator too. -/
def execCollAbort (k : Pkt) (s : State) : Res :=
  if k.rkey / 65536 = 0xFFFF ∧ collKind k = 4 then .next (noticeReceive s k fun t p => breakComm t p (collSlot k)) else .next s

/-! ## Issue -/

/-- The held packets of a call given to it, their credits returned. -/
def takeHeld (s : State) (p : Nat) (ref : ReqRef) : State :=
  match (partOf s p).calls.find? fun c => c.ref = ref with
  | none => s
  | some c =>
    let mine := fun (h : HeldPkt) => c.isId (collSlot h.pkt) (collId h.pkt).1 (collId h.pkt).2.1
    let hs := (partOf s p).heldPkts.filter mine
    let s1 := modPart s p fun q => { q with heldPkts := q.heldPkts.filter fun h => !mine h }
    hs.foldl (fun t h =>
      let t1 := giveCredit t h.sess h.pkt.psn
      match (partOf t1 p).calls.find? fun x => x.ref = ref with
      | some x => giveCall t1 p h.sess x h.pkt
      | none => t1) s1

/-- A call as it issues (R342, R356): checked, numbered and counted, or completed with its code at once. A PERMUTE
takes its SEQ at its start. -/
def collIssue (s : State) (r : ReqRef) (raw : List Byte) : State :=
  let p := r.p
  if (partOf s p).job.isNone then s
  else
    let comm := fieldLE raw 4 2 % 4096
    let k := commOf s p comm
    let c0 : Call := { ref := r, raw := raw, comm := comm, jobSeq := jobSeq s p, epoch := fieldLE raw 6 2, seq := 0, alg := 0 }
    let named := bits (fieldLE raw 1 1) 7 4
    let alg := if named = 0 then (if c0.op = 0x33 ∨ c0.op = 0x34 then 3 else c0.auto k) else named
    let base := latched s p (Ad.partCollCommBase p)
    match (if comm < formed s p (Ad.partCollCommCount p) then addrFault s p 2 base (64 * comm + 64) else none), c0.check s p alg with
    | some code, _ => coreErr s p code base
    | none, some code => collDone (commSeen s p k []) p { c0 with alg := alg } code
    | none, none =>
      let seq := commField s p comm 32 4
      let c := { c0 with alg := alg, seq := if c0.op = 0x34 then 0 else seq }
      let s1 := if c0.op = 0x34 then s else commPut s p comm 32 4 ((seq + 1) % 2 ^ 32)
      let seen := (List.range (if c0.op = 0x34 then c.cnt else 0)).foldl (fun t i => farRead t p (c.field 48 8 % 2 ^ 41 + 32 * i) 32 3)
        (commSeen s1 p k (k.r :: c.peers s p k.n k.r))
      let s2 := modPart (odInc seen (Ad.partCollCalls p)) p fun q => { q with calls := q.calls ++ [c] }
      takeHeld s2 p r

/-- ALL_REDUCE (R341). -/
def execAllReduce (r : ReqRef) (raw : List Byte) (s : State) : Res := .next (collIssue s r (leBytes 1 0x30 ++ raw.drop 1))

/-- REDUCE_SCATTER (R341). -/
def execReduceScatter (r : ReqRef) (raw : List Byte) (s : State) : Res := .next (collIssue s r (leBytes 1 0x31 ++ raw.drop 1))

/-- ALL_GATHER (R341). -/
def execAllGather (r : ReqRef) (raw : List Byte) (s : State) : Res := .next (collIssue s r (leBytes 1 0x32 ++ raw.drop 1))

/-- ALL_TO_ALL (R341). -/
def execAllToAll (r : ReqRef) (raw : List Byte) (s : State) : Res := .next (collIssue s r (leBytes 1 0x33 ++ raw.drop 1))

/-- PERMUTE (R351, R352). -/
def execPermute (r : ReqRef) (raw : List Byte) (s : State) : Res := .next (collIssue s r (leBytes 1 0x34 ++ raw.drop 1))

/-- BROADCAST (R341). -/
def execBroadcast (r : ReqRef) (raw : List Byte) (s : State) : Res := .next (collIssue s r (leBytes 1 0x35 ++ raw.drop 1))

/-! ## Start and completion -/

/-- The engines a communicator uses: 0 CE0, 1 CE1, both for SPLIT. -/
def Comm.engines (k : Comm) : List Nat := if k.engine = 2 then [0, 1] else [k.engine]

/-- A slot is free for a call: fewer than 8 in progress on its communicator and 256 on each of its engines (R343). -/
def slotFree (s : State) (p : Nat) (c : Call) : Bool :=
  let k := commOf s p c.comm
  let mine := (partOf s p).calls.filter fun x => x.started && x.comm = c.comm
  let on : Nat → Nat := fun e => (s.parts.map fun q => (q.2.calls.filter fun x =>
    x.started && (commOf s q.1 x.comm).engines.contains e).length).sum
  decide (mine.length < 8) && k.engines.all fun e => decide (on e < 256)

/-- COLL_CALL_START (R343): the communicator's next waiting call. -/
def execCollCallStart (p comm : Nat) (s : State) : Res :=
  match (partOf s p).calls.find? fun c => c.comm = comm && !c.started with
  | none => .next s
  | some c =>
    if c.op = 0x34 ∨ !slotFree s p c ∨ !callRuns s p c then .next s
    else
      let c1 := { c with started := true }
      .next (collAdvance (setCall s p c1) p c1)

/-- PERMUTE_START (R352): the partition's next PERMUTE, once no earlier one is in progress and it is its communicator's turn; it closes the old epoch
and takes the first SEQ of the new one. -/
def execPermuteStart (p : Nat) (s : State) : Res :=
  match (partOf s p).calls.find? fun c => c.op = 0x34 with
  | none => .next s
  | some c =>
    let first := ((partOf s p).calls.find? fun x => x.comm = c.comm && !x.started).map (·.ref)
    if c.started ∨ first ≠ some c.ref ∨ !slotFree s p c ∨ !callRuns s p c then .next s
    else
      let s1 := commPut (closeEpoch s p) p c.comm 32 4 1
      let c1 := { c with started := true, seq := 0 }
      let s2 := collAdvance (setCall s1 p c1) p c1
      .next (takeHeld s2 p c.ref)

/-- COLL_CALL_COMPLETE (R343, R349): what waited for a move or a clear goes on first. -/
def execCollCallComplete (p comm seq : Nat) (s0 : State) : Res :=
  let s := collAdvanceAll s0 p
  match (partOf s p).calls.find? fun c => c.comm = comm && c.seq = seq && c.complete s p with
  | none => .next s
  | some c => .next (collAdvanceAll (collDone s p c (if c.poisoned then 9 else 0)) p)

/-- The calls of a job given up with it. -/
def dropCalls (s : State) (p jobSeq : Nat) : State :=
  let mine := (partOf s p).calls.filter fun c => c.jobSeq = jobSeq
  let s1 := mine.foldl (fun t c => cancelMsgs t p c) s
  modPart s1 p fun q => { q with calls := q.calls.filter fun c => c.jobSeq ≠ jobSeq }

end Sys2Proof.Machine
end

