-- ==== Sys2Proof/Machine/Queues.lean ====
section
/-!
DEFINITION. Submission queues (R363 to R367) with their Barometer accounts (R379), completion records
(R370), the stop of a partition's work (Table 14.10), and the end of a job.
-/

namespace Sys2Proof.Machine

/-! ## Submission queues -/

/-- Queue `q` of a partition. -/
def queueOf (s : State) (p q : Nat) : Queue := (tget (partOf s p).queues q).getD {}

/-- The state with a queue changed. -/
def modQueue (s : State) (p q : Nat) (f : Queue → Queue) : State :=
  modPart s p fun x => { x with queues := tset x.queues q (f (queueOf s p q)) }

/-- A queue has an entry pending (R365). -/
def headPending (s : State) (p q : Nat) : Bool := (queueOf s p q).enabled && decide ((queueOf s p q).head ≠ (queueOf s p q).tail)

/-- The 128 bytes of the entry at a queue's head, and their poison; the ring is read for the queue's tenant. -/
def headEntry (s : State) (p q : Nat) : List Byte × Bool :=
  let x := queueOf s p q
  ringRead (asTenant s p x.tenant) p x.base (entryOff x x.head 0) 128

/-- The OP of the head entry. -/
def headOp (s : State) (p q : Nat) : Nat := fieldLE (headEntry s p q).1 0 1

/-- The head of a queue is a job entry. -/
def jobHead (s : State) (p q : Nat) : Bool := headPending s p q && decide (headOp s p q = 0x40)

/-- The bucket of a waiting time (R379). -/
def waitBucket (ns : Nat) : Nat := if ns < 1000 then 0 else min 15 (Nat.log2 (ns / 1000) + 1)

/-- An entry's issue in Barometer (R379): it waited `ns`. -/
def accountWait (s : State) (p q ns : Nat) : State :=
  let s1 := odAdd (odInc s (Ad.baroEntries p q)) (Ad.baroWaitSumNs p q) ns
  let s2 := odSet s1 (Ad.baroWaitMaxNs p q) (max (odGet s1 (Ad.baroWaitMaxNs p q)) ns)
  odInc s2 (Ad.baroWaitHist p (waitBucket ns) q)

/-- The head entry issues (R363, R366): HEAD moves on, in the ring too, and the wait is accounted. -/
def takeEntry (s : State) (p q ns : Nat) : State :=
  let x := queueOf s p q
  let h := (x.head + 1) % 2 ^ 32
  let s1 := modQueue s p q fun y => { y with head := h }
  accountWait (forTenant s1 p x.tenant fun t => ringWrite t p x.base 0 (leBytes 4 h)) p q ns

/-- A queue faults (R365): ENABLE cleared, its bit set, and a record written. -/
def faultQueue (s : State) (p q : Nat) : State :=
  let cfg := odGet s (Ad.partQueueConfig p q)
  let s1 := odSet (modQueue s p q fun y => { y with enabled := false }) (Ad.partQueueConfig p q) (cfg % 2 ^ 31)
  recordOnly (odOr s1 (Ad.partQueueFault p) (2 ^ q)) .queueFault 0 (some p) 0x1600 q

/-- The first of a list of queues after one, in round robin. -/
def afterQueue (qs : List Nat) (last : Nat) : Option Nat :=
  (qs.find? fun q => decide (last < q)).orElse fun _ => qs.head?

/-- The queues, in order, whose CLASS is the lowest among a list. -/
def lowestClass (s : State) (p : Nat) (qs : List Nat) : List Nat :=
  qs.filter fun q => qs.all fun r => decide ((queueOf s p q).cls ≤ (queueOf s p r).cls)

/-! ## The units of non-job entries (R366) -/

/-- The unit an OP selects: 0 media, 1 sample, 2 NCT, 3 collectives; none for no table's OP. -/
def unitOfOp (op : Nat) : Option Nat :=
  if 1 ≤ op ∧ op ≤ 7 then some 0
  else if op = 0x10 ∨ op = 0x11 then some 1
  else if 0x20 ≤ op ∧ op ≤ 0x26 then some 2
  else if 0x30 ≤ op ∧ op ≤ 0x35 then some 3
  else none

/-- What is wrong with reading the entry at a queue's head (R186, R202). -/
def headFault (s : State) (p q : Nat) : Option Code :=
  let x := queueOf s p q
  ringFault (asTenant s p x.tenant) p x.base (entryOff x x.head 0) 128

/-- The unit can take the head entry now: a tensor writer for a SAMPLE with no other active on its context
(R288), a free message ID for a message (R320). -/
def unitTakes (s : State) (p : Nat) (raw : List Byte) : Bool :=
  match fieldLE raw 0 1 with
  | 0x10 => hasWriter s p && (activeSample s p (fieldLE raw 4 4 % 2 ^ 20)).isNone
  | 0x20 => decide (s.net.msgs.length < 2 ^ 20)
  | 0x21 => decide (s.net.msgs.length < 2 ^ 20)
  | 0x22 => decide (s.net.msgs.length < 2 ^ 20)
  | _ => true

/-- The head of a queue may issue: a job of the queue's TENANT runs (R367) and its unit can take it. -/
def entryReady (s : State) (p q : Nat) : Bool :=
  headPending s p q && inState s p .running &&
    ((partOf s p).job.any fun j => j.tenant = (queueOf s p q).tenant) && unitTakes s p (headEntry s p q).1

/-- The queues with a head for a unit. -/
def readyFor (s : State) (p u : Nat) : List Nat :=
  (List.range 64).filter fun q => entryReady s p q && decide (unitOfOp (headOp s p q) = some u)

/-- An entry handed to its unit (R366). -/
def issueTo (s : State) (r : ReqRef) (raw : List Byte) : State :=
  let op := fieldLE raw 0 1
  match unitOfOp op with
  | some 0 => mediaIssue s r op raw
  | some 1 => if op = 0x10 then sampleIssue s r raw else lookupIssue s r raw
  | some 2 => nctIssue s r raw
  | some 3 => collIssue s r raw
  | _ => s

/-! ## Completion records (Table 14.7) -/

/-- The 64 bytes of a record. -/
def jobRecord (j : Job) (status code wher endNs miss : Nat) : List Byte :=
  leBytes 8 j.tag ++ leBytes 1 (j.queue % 64) ++ leBytes 1 status ++ leBytes 2 j.seq ++ leBytes 4 code ++ leBytes 4 wher ++
    leBytes 2 (min j.preempts 65535) ++ leBytes 2 0 ++ leBytes 8 j.startNs ++ leBytes 8 endNs ++ leBytes 8 j.runNs ++
    leBytes 8 miss ++ leBytes 8 0

/-- HEAD of the completion ring, whose layout R331 gives. -/
def compHead (s : State) (p : Nat) : Nat := leNat (ringRead s p (latched s p (Ad.partCompletionBase p)) 0 4).1

/-- The completion ring is full. -/
def compFull (s : State) (p : Nat) : Bool :=
  let tail := leNat (ringRead s p (latched s p (Ad.partCompletionBase p)) 4 4).1
  decide (latched s p (Ad.partCompletionSlots p) ≤ (compHead s p + 2 ^ 32 - tail) % 2 ^ 32)

/-- A record written to the ring, then the descriptor's STATUS, then the MSI-X message (R370). -/
def deliverRecord (s : State) (p : Nat) (h : HeldRec) : State :=
  let base := latched s p (Ad.partCompletionBase p)
  let head := compHead s p
  let s1 := ringWrite s p base (64 + 64 * (head % max 1 (latched s p (Ad.partCompletionSlots p)))) h.record
  let s2 := ringWrite s1 p base 0 (leBytes 4 ((head + 1) % 2 ^ 32))
  let s3 := entryWrite s2 ⟨p, h.queue, h.index⟩ 120 (slice h.record 9 1)
  emit s3 (.msix h.vector)

/-- A record delivered, or held while the ring is full and the stall counted (R370). -/
def completeJob (s : State) (p : Nat) (h : HeldRec) : State :=
  if compFull s p ∨ (partOf s p).heldRecs ≠ [] then
    odInc (modPart s p fun q => { q with heldRecs := q.heldRecs ++ [h] }) (Ad.partCompletionStalls p)
  else deliverRecord s p h

/-- Held records delivered in order while the ring has space. -/
def releaseRecords : Nat → State → Nat → State
  | 0, s, _ => s
  | n + 1, s, p =>
    match (partOf s p).heldRecs with
    | [] => s
    | h :: t =>
      if compFull s p then s
      else releaseRecords n (deliverRecord (modPart s p fun q => { q with heldRecs := t }) p h) p

/-! ## Stopping a partition's work (Table 14.10, Table 17.5) -/

/-- The time now, and the state with the next open sub-millisecond part due. -/
def readTime (s : State) : Nat × State := (nowNs s, (fresh s).2)

/-- A cell's requests that lost their banks completed, one CCLK after another. -/
def settleBanks : Nat → State → Nat → Nat → State
  | 0, s, _, _ => s
  | n + 1, s, p, g =>
    if (cellOf s g).scratch.losers = [] then s
    else settleBanks n (bankRound (modCell s g fun c => { c with scratch := { c.scratch with asked := [] } }) p g [] false) p g

/-- A cell's writes that wait at its Stratus port carried out (R374). -/
def settlePort (s : State) (p g : Nat) : State :=
  let ws := (cellOf s g).outs.flatMap fun e => e.2.port
  let s1 := modCell s g fun c => { c with outs := c.outs.map fun e => (e.1, { e.2 with port := [] }) }
  ws.foldl (fun t w => stratusWrite t p (some g) w.addr w.bytes w.poison) s1

/-- The writes that wait for a grant of a die carried out, the reads that wait abandoned (R374). -/
def settleDie (s : State) (d : Nat) : State :=
  let ws := (dieOf s d).waiting.filter fun w => w.write.isSome
  ws.foldl (fun t w => grantWait t d w) (modDie s d fun x => { x with waiting := [], ungranted := [] })

/-- The far-tier reads of a partition's cells that wait in the fabric abandoned (R374). -/
def settleFabric (s : State) (p : Nat) : State :=
  let gs := partCells (partOf s p)
  { s with fabric := { s.fabric with held := s.fabric.held.filter fun k => !(k.req.any fun r => gs.contains r.1) } }

/-- A read stream as a switch leaves it (R374, R375): reads in flight abandoned, to be issued again at resume,
and no contract time until its next SSTART. Units of a group already issued to its members are kept. -/
def quiesceStream (x : InStream) : InStream :=
  if x.group.isSome then { x with contract := false }
  else { x with landing := [], requested := needReqs x x.deposited, failed := [], contract := false }

/-- Every cell of a partition stopped at its bundle boundary, its issued operations finished and its writes already issued
carried out. -/
def haltCells (s : State) (p : Nat) : State :=
  let s1 := (partCells (partOf s p)).foldl (fun t g =>
    match tget t.cells g with
    | none => t
    | some _ =>
      modCell (settlePort (settleBanks 64 t p g) p g) g fun c => { c with seq := { c.seq with status := .halted, ready := [] } }) s
  settleFabric ((partOf s p).dies.foldl settleDie s1) p

/-- The CCLK that the cells an error halted have stood since, added to PART_WAIT_CYCLES (R82): how many is an open value. -/
def countHalts (s : State) (p : Nat) : State :=
  ((partCells (partOf s p)).filter fun g => (tget s.cells g).any fun c => decide (c.seq.status = .halted)).foldl (fun t _ =>
    let f := fresh t
    countWait f.2 (some p) f.1) s

/-- Moves, scale table, engines and writers brought to rest: MOVING records abort (R236), an advance completes
and the table is written back (R241, R242), engines and writers stop (R279, R299). -/
def restUnits (s : State) (p : Nat) : State :=
  let ms := (partOf s p).moves.filter fun m => !m.vacated
  let s1 := ms.foldl (fun t m => abortMove t p m) s
  let s2 := stopWriters (stopEngines s1 p) p
  writeScale (settleScale s2 p) p

/-! ## The end of a job (R370) -/

/-- The stalled cycles of contract misses in a partition's cells. -/
def missSum (s : State) (p : Nat) : Nat := ((partCells (partOf s p)).map fun g => (cellOf s g).seq.miss).sum

/-- The control cores' work of a job dropped, and the dies' completion trees cleared. -/
def dropControl (s : State) (p : Nat) : State :=
  let s1 := (partOf s p).dies.foldl (fun t d => modDie t d fun x => { x with treeDone := false, groups := [] }) s
  modPart s1 p fun q =>
    { q with walks := [], moves := [], unitWaits := [], prefetchPos := none, prefetchBusy := false, scale := [], scaleCopy := [], advance := none, job := none }

/-- The running job ended with its record, its work at rest and its sessions and calls closed (R317, R334).
`ran` is false for a job that never issued. -/
def endJob (s : State) (p status code wher : Nat) (ran : Bool) : State :=
  match (partOf s p).job with
  | none => s
  | some j =>
    let miss := missSum s p
    let t := readTime s
    let s0 := if ran ∧ inState s p .running then countHalts t.2 p else t.2
    let s1 := if ran then restUnits (haltCells s0 p) p else s0
    let s2 := dropCalls (closeSessions s1 p j.seq) p j.seq
    let run := if ran ∧ inState s p .running then j.runNs + (t.1 - j.sinceNs) else j.runNs
    let rec_ := jobRecord { j with runNs := run } status code wher t.1 (if ran then miss else 0)
    completeJob (dropControl s2 p) p ⟨rec_, j.vector, j.queue, j.index⟩

/-- A parked job ended ABORTED: its record, its lost time (R379), its sessions and calls gone. -/
def abortParked (s : State) (p : Nat) (j : Job) (code : Nat) : State :=
  let t := readTime s
  let s1 := dropCalls (closeSessions t.2 p j.seq) p j.seq
  let s2 := odAdd s1 (Ad.baroPreemptLostNs p j.queue) (t.1 - j.preemptNs)
  let s3 := modPart s2 p fun q => { q with parked := q.parked.filter fun x => x.seq ≠ j.seq }
  let miss := ((j.saved.map Saved.cells).getD []).map fun c => c.2.seq.miss
  completeJob s3 p ⟨jobRecord j 3 code 0 t.1 miss.sum, j.vector, j.queue, j.index⟩

/-- Every parked job ended ABORTED. -/
def abortAllParked (s : State) (p code : Nat) : State :=
  (partOf s p).parked.foldl (fun t j => abortParked t p j code) s

end Sys2Proof.Machine
end

