-- ==== Sys2Proof/Machine/JobStart.lean ====
section
/-!
DEFINITION. The program image (Table 14.6), the checks of a job start (R368, R78, R209, R228, R241, R285,
R308), and the loads that follow them.
-/

namespace Sys2Proof.Machine

/-! ## Failing checks -/

/-- A failed check of a job start: the job's code, and the address its record gives. -/
abbrev Fail := Option (Code × Nat)

/-- A check. -/
def failIf (b : Bool) (c : Code) (a : Nat) : Fail := if b then some (c, a) else none

/-- A range of the far tier that a start step reads: outside the partition's far tier it fails with a code of its
own, and poison in it is POISON_CONSUMED (R368). -/
def failRead (s : State) (p a n : Nat) (c : Code) : Fail :=
  if (addrFault s p 2 a n).isSome then some (c, a)
  else if (farView s p (spaceAddr 2 a) n).2 then some (.poisonConsumed, a)
  else none

/-- The first check of a list that fails. -/
def firstFail {α : Type} (l : List α) (f : α → Fail) : Fail := l.findSome? f

/-! ## The image -/

/-- `n` bytes of the far tier at a far-tier address, as a number. -/
def imgField (s : State) (p image off n : Nat) : Nat := farField s p (spaceAddr 2 image + off) n

/-- A cell record (Table 14.8). -/
structure CellRec where
  bundles : Nat
  count : Nat
  start : Nat
  ns : Nat
  ext : Nat
  nrange : Nat
  bad : Bool
  deriving DecidableEq, Repr

/-- Record `i` of an image, in partition cell order. -/
def cellRec (s : State) (p image i : Nat) : CellRec :=
  let b := (farView s p (spaceAddr 2 image + imgField s p image 16 4 + 32 * i) 32).1
  ⟨fieldLE b 0 4, fieldLE b 4 2, fieldLE b 6 2, fieldLE b 8 1, fieldLE b 12 4, fieldLE b 16 2, !zeros b 9 3 || !zeros b 18 14⟩

/-- An initial scratchpad range (Table 14.14): the offset of its bytes, its address, its length. -/
def rangeOf (s : State) (p image : Nat) (r : CellRec) (i : Nat) : Nat × Nat × Nat :=
  let b := (farView s p (spaceAddr 2 image + r.ext + 64 + 16 * i) 16).1
  (fieldLE b 0 4, fieldLE b 4 4, fieldLE b 8 4)

/-- The ranges of a cell, in the order of its extension. -/
def rangesOf (s : State) (p image : Nat) (r : CellRec) : List (Nat × Nat × Nat) :=
  (List.range r.nrange).map (rangeOf s p image r)

/-- A range breaks R489 or Table 14.14. -/
def rangeBad (x : Nat × Nat × Nat) : Bool :=
  decide (x.2.1 % 64 ≠ 0) || decide (2 ^ 21 ≤ x.2.1) || decide (x.2.2 % 64 ≠ 0) || decide (x.2.2 < 64) || decide (2 ^ 21 < x.2.1 + x.2.2)

/-- Two of a cell's ranges overlap. -/
def rangesMeet : List (Nat × Nat × Nat) → Bool
  | [] => false
  | x :: t => (t.any fun y => decide (x.2.1 < y.2.1 + y.2.2) && decide (y.2.1 < x.2.1 + x.2.2)) || rangesMeet t

/-- A cell's record and extension checked (R368, R489). -/
def cellCheck (s : State) (p image i : Nat) : Fail :=
  let r := cellRec s p image i
  let inv : Code := .imageInvalid
  let ext := (farView s p (spaceAddr 2 image + r.ext) 64).1
  let extBad := !zeros ext 32 32 || (List.range r.nrange).any fun k =>
    !zeros (farView s p (spaceAddr 2 image + r.ext + 76 + 16 * k) 4).1 0 4
  (failIf (r.bad || decide (r.bundles % 32 ≠ 0) || decide (r.count = 0) || decide (4096 < r.count) || decide (r.count ≤ r.start) ||
      decide (64 < r.ns) || decide (r.ext % 64 ≠ 0) || decide (256 < r.nrange) ||
      (addrFault s p 2 (image + r.bundles) (32 * r.count)).isSome) inv image).orElse fun _ =>
  (failRead s p (image + r.ext) (64 + 16 * r.nrange) inv).orElse fun _ =>
  failIf (extBad || (rangesOf s p image r).any rangeBad || rangesMeet (rangesOf s p image r) ||
    (rangesOf s p image r).any fun x => (addrFault s p 2 (image + x.1) x.2.2).isSome) inv image

/-- A control-core program record: its offset and length, two U64 (log 41). -/
def controlRec (s : State) (p image i : Nat) : Nat × Nat :=
  let a := imgField s p image 24 4 + 16 * i
  (imgField s p image a 8, imgField s p image (a + 8) 8)

/-- The image checked (R368 step 1). -/
def imageCheck (s : State) (p image : Nat) : Fail :=
  let n := (partOf s p).dies.length
  let inv : Code := .imageInvalid
  let h := (farView s p (spaceAddr 2 image) 256).1
  let at_ := fun (off : Nat) => image + fieldLE h off 4
  (failIf (decide (spaceAddr 2 image % 4096 ≠ 0)) inv image).orElse fun _ =>
  (failRead s p image 256 inv).orElse fun _ =>
  (failIf (decide (fieldLE h 0 2 ≠ 1) || decide (fieldLE h 2 1 ≠ n) || !zeros h 3 1 || !zeros h 6 2 || !zeros h 36 220) inv image).orElse fun _ =>
  (failRead s p (at_ 16) (2560 * n) inv).orElse fun _ =>
  (failRead s p (at_ 20) (1280 * n) inv).orElse fun _ =>
  (failRead s p (at_ 24) (16 * n) inv).orElse fun _ =>
  (failRead s p (at_ 28) (8192 * n) inv).orElse fun _ =>
  (failIf (decide (fieldLE h 32 4 ≠ 0) && (addrFault s p 2 (at_ 32) 32).isSome) inv image).orElse fun _ =>
  (firstFail (List.range n) fun d =>
    let c := controlRec s p image d
    failIf (addrFault s p 2 (image + c.1) c.2).isSome inv image).orElse fun _ =>
  firstFail (List.range (80 * n)) (cellCheck s p image)

/-! ## The save area and the patch list -/

/-- The compressed regions in effect. -/
def regionsOf (s : State) (p : Nat) : List Region := (List.range 16).filterMap (regionOf s p)

/-- A range of the far tier meets a compressed region. -/
def meetsRegion (s : State) (p a n : Nat) : Bool :=
  (regionsOf s p).any fun r => decide (a < r.base + r.size) && decide (r.base < a + n)

/-- A table the part keeps in the far tier is out of place: its base is no far-tier address of Table 7.2 (log 166), or it
lies partly outside the partition's usable space or inside a compressed region. -/
def misplaced (s : State) (p base n : Nat) : Bool :=
  baseBad base || decide (farSize s p < base % 2 ^ 41 + n) || meetsRegion s p (base % 2 ^ 41) n

/-- The save area checked (R368 step 1); SAVE 0 has none. -/
def saveCheck (s : State) (p save bytes : Nat) : Fail :=
  failIf (decide (save ≠ 0) && (decide (spaceAddr 2 save % 4096 ≠ 0) || (addrFault s p 2 save bytes).isSome ||
    meetsRegion s p (spaceAddr 2 save) bytes)) .saveAreaInvalid save

/-- A patch entry's cell index, offset and value, and whether its fields are out of range; its reserved bytes are ignored
(R11). -/
def patchOf (s : State) (p list i : Nat) : Nat × Nat × Nat × Bool :=
  let b := (farView s p (spaceAddr 2 list + 16 * i) 16).1
  let cell := fieldLE b 0 2
  let off := fieldLE b 4 4
  (cell, off, fieldLE b 8 4,
    decide (off % 4 ≠ 0) || decide (2 ^ 21 ≤ off) ||
      (decide (cell ≠ 0xFFFF) && decide (80 * (partOf s p).dies.length ≤ cell)))

/-- The patch list checked (R368 step 1). -/
def patchCheck (s : State) (p list n : Nat) : Fail :=
  (failIf (decide (65536 < n) || (decide (n ≠ 0) && decide (spaceAddr 2 list % 16 ≠ 0))) .patchInvalid list).orElse fun _ =>
  if n = 0 then none
  else
    (failRead s p list (16 * n) .patchInvalid).orElse fun _ =>
    failIf ((List.range n).any fun i => (patchOf s p list i).2.2.2) .patchInvalid list

/-! ## The start checks of the other chapters -/

/-- The four budgets of a cell (Table 3.2). -/
def budgetsOf (s : State) (p image i : Nat) : List Nat :=
  (List.range 4).map fun k => imgField s p image (imgField s p image 20 4 + 16 * i + 2 * k) 2

/-- The reservation plan (R78). -/
def planCheck (s : State) (p image : Nat) : Fail :=
  let q := partOf s p
  let sums := (List.range (80 * q.dies.length)).map fun i => (budgetsOf s p image i).sum
  let mhz := odGet s (Ad.cdCclkMhz (q.dies.headD 0))
  failIf (sums.any (fun n => decide (400 < n)) ||
    decide (latched s p (Ad.partReservedCeilingPct p) * 512000 * q.usable.length * 1024 < sums.sum * 64 * mhz * 100))
    .reservationExceeded image

/-- The compressed regions (R209, R224). -/
def regionCheck (s : State) (p : Nat) : Fail :=
  let rs := (List.range 16).filterMap (regionEntry s p)
  let raw := (List.range 16).filter fun r => bit (latched s p (Ad.partCompressRegion p r)) 63
  let badBits := raw.any fun r =>
    let v := latched s p (Ad.partCompressRegion p r)
    decide (bits v 58 41 ≠ 0) || decide (bits v 11 0 ≠ 0) || decide (bits (latched s p (Ad.partCompressMetaBase p r)) 63 41 ≠ 0)
  let bad := fun (r : Region) =>
    decide (r.dtype = 3) || (decide (r.enc = 3) && decide (r.dtype = 2)) || decide (r.size % 4096 ≠ 0) || decide (r.size = 0) ||
      decide (r.metaBase % 256 ≠ 0) || decide (farSize s p < r.base + r.size) || decide (farSize s p < r.metaBase + r.size / 64) ||
      (rs.any fun x => decide (r.metaBase < x.base + x.size) && decide (x.base < r.metaBase + r.size / 64))
  let rec meet : List Region → Bool
    | [] => false
    | x :: t => (t.any fun y => decide (x.base < y.base + y.size) && decide (y.base < x.base + x.size)) || meet t
  failIf (badBits || rs.any bad || meet rs || (!rs.isEmpty && (partOf s p).confidential)) .compressRegionInvalid 0

/-- The object table (R228). -/
def objectCheck (s : State) (p : Nat) : Fail :=
  let a := latched s p (Ad.partObjTableBase p)
  failIf (misplaced s p a (32 * latched s p (Ad.partObjTableCount p))) .objectTableInvalid a

/-- The scratchpad shadow frames an image gives each cell of a partition. -/
def nsOf (s : State) (p image i : Nat) : Nat := (cellRec s p image i).ns

/-- The first Stratus shadow frame of cell `c` of a die: 64 to a cell, from the top of the map (log 40). -/
def stratusFrame (c : Nat) : Nat := 65536 - 5120 + 64 * c

/-- The scale mirror is out of place (R241): misaligned, outside the partition's Stratus space, or over a page
withheld from a cell of the job. -/
def mirrorBad (s : State) (p image : Nat) : Bool :=
  let a := latched s p (Ad.partScaleMirror p)
  let n := (partOf s p).dies.length
  decide (a % 64 ≠ 0) || decide (n * 2 ^ 29 < a + 32768) ||
    (List.range 5).any fun k =>
      let x := a + min (8192 * k) 32767
      let page := x % 2 ^ 29 / 8192
      let d := x / 2 ^ 29
      (List.range 80).any fun c =>
        decide (stratusFrame c ≤ page) && decide (page < stratusFrame c + (64 - nsOf s p image (80 * d + c)))

/-- The bytes of scale record `i`, and their poison. -/
def scaleRead (s : State) (p i : Nat) : List Byte × Bool := farView s p (latched s p (Ad.partScaleTableBase p) % 2 ^ 41 + 96 * i) 96

/-- The first record of the scale table that is poisoned or invalid (R241). -/
def scaleRecords (s : State) (p : Nat) : Fail :=
  let a := latched s p (Ad.partScaleTableBase p)
  firstFail (List.range 4096) fun i =>
    let v := scaleRead s p i
    if v.2 then some (.poisonConsumed, a + 96 * i) else failIf (scaleBad v.1) .scaleTableInvalid (a + 96 * i)

/-- The scale table and its mirror (R241). -/
def scaleCheck (s : State) (p image : Nat) : Fail :=
  let a := latched s p (Ad.partScaleTableBase p)
  (failIf (baseBad a || decide (farSize s p < a % 2 ^ 41 + 96 * 4096) || mirrorBad s p image) .scaleTableInvalid a).orElse fun _ =>
  scaleRecords s p

/-- The context array and the four pools: base and size. -/
def mediaTables (s : State) (p : Nat) : List (Nat × Nat) :=
  (latched s p (Ad.partMediaCtxBase p), 2048 * latched s p (Ad.partMediaCtxCount p)) ::
    (List.range 4).map fun k => (latched s p (Ad.partPoolBase p k), poolSize s p k * poolCount s p k)

/-- Pools and the context array (R285). -/
def mediaCheckStart (s : State) (p : Nat) : Fail :=
  let ts := (mediaTables s p).filter fun t => t.2 ≠ 0
  let rec meet : List (Nat × Nat) → Bool
    | [] => false
    | x :: t => (t.any fun y => decide (x.1 < y.1 + y.2) && decide (y.1 < x.1 + x.2)) || meet t
  failIf ((ts.any fun t => misplaced s p t.1 t.2) || meet (ts.map fun t => (t.1 % 2 ^ 41, t.2))) .mediaTableInvalid 0

/-- The sample-cache directory (R308). -/
def cacheCheck (s : State) (p : Nat) : Fail :=
  let a := latched s p (Ad.partSampleCacheBase p)
  let n := 512 * latched s p (Ad.partSampleCacheSets p)
  failIf (decide (n ≠ 0) && misplaced s p a n) .sampleCacheInvalid a

/-- The bytes of step 3 of R368 in the order of that step: instruction memories, initial ranges, the reservation
plan, the control-core programs; each as address and length. -/
def loadRuns (s : State) (p image : Nat) : List (Nat × Nat) :=
  let n := (partOf s p).dies.length
  let cells := (List.range (80 * n)).map (cellRec s p image)
  (cells.map fun r => (image + r.bundles, 32 * r.count)) ++
    (cells.flatMap fun r => (rangesOf s p image r).map fun x => (image + x.1, x.2.2)) ++
    [(image + imgField s p image 20 4, 1280 * n)] ++
    (List.range n).map fun d => (image + (controlRec s p image d).1, (controlRec s p image d).2)

/-- Poison in what step 3 loads (R368). -/
def loadCheck (s : State) (p image : Nat) : Fail :=
  firstFail (loadRuns s p image) fun x => failRead s p x.1 x.2 .imageInvalid

/-- Every check of a job start, in order (R368 steps 1 to 3). -/
def startCheck (s : State) (p : Nat) (j : Job) (patches npatch : Nat) : Fail :=
  (imageCheck s p j.image).orElse fun _ =>
  (saveCheck s p j.save (imgField s p j.image 8 8)).orElse fun _ =>
  (patchCheck s p patches npatch).orElse fun _ =>
  (planCheck s p j.image).orElse fun _ =>
  (regionCheck s p).orElse fun _ =>
  (objectCheck s p).orElse fun _ =>
  (scaleCheck s p j.image).orElse fun _ =>
  (mediaCheckStart s p).orElse fun _ =>
  (cacheCheck s p).orElse fun _ =>
  loadCheck s p j.image

/-! ## Loads -/

/-- Instruction memory of a cell from an image. -/
def loadImem (s : State) (p image : Nat) (r : CellRec) : Tbl (BitVec 256) :=
  let bs := (farView s p (spaceAddr 2 image + r.bundles) (32 * r.count)).1
  (List.range r.count).map fun k => (k, BitVec.ofNat 256 (fieldLE bs (32 * k) 32))

/-- A cell's initial ranges put into its scratchpad at their frames of identity (R369, R489), whole words whose check bits
are written anew (R155). -/
def loadRanges (s : State) (p image : Nat) (r : CellRec) (c : Cell) : Cell :=
  (rangesOf s p image r).foldl (fun x y =>
    let z := scratchStore x y.2.1 (farView s p (spaceAddr 2 image + y.1) y.2.2).1 false
    { z with scratch := { z.scratch with upsets := z.scratch.upsets.filter fun u =>
      !(decide (y.2.1 ≤ u.word * 64) && decide (u.word * 64 < y.2.1 + y.2.2)) } }) c

/-- The shadow frames of cell `c` of a die under n_s (R91): those in its scratchpad, then those in the Stratus. -/
def shadowFrames (c ns : Nat) : List (Nat × Nat) :=
  (List.range ns).map (fun i => (0, 256 - ns + i)) ++ (List.range (64 - ns)).map fun i => (1, stratusFrame c + i)

/-- The save mask of a cell, from its extension. -/
def saveMaskOf (s : State) (p image : Nat) (r : CellRec) : Nat := imgField s p image r.ext 32

/-- A cell as a job start leaves it (R368 steps 3, 4 and 6): loaded, zeroed, its map of identity, its generators
seeded (R63), running at its start bundle. -/
def startCell (s : State) (p image i g : Nat) : Cell :=
  let r := cellRec s p image i
  let old := (cellOf s g).scratch
  let seed := BitVec.ofNat 64 (latched s p (Ad.partRngSeed p))
  let frames := shadowFrames (g % 80) r.ns
  let fresh_ : Cell :=
    { seq := { pc := r.start, status := .running, budgets := budgetsOf s p image i, ns := r.ns, saveMask := saveMaskOf s p image r }
      imem := loadImem s p image r
      gens := (List.range lanes).map fun l => (l, Gen.seed seed (128 * g + l))
      scratch := { old with map := [], losers := [], vld := none, asked := [] }
      freeFrames := frames
      withheld := frames }
  loadRanges s p image r fresh_

/-- The scale table's reads at a load (R191, R241). -/
def scaleSeen (s : State) (p : Nat) : State :=
  let base := latched s p (Ad.partScaleTableBase p)
  farRead s p (base % 2 ^ 41) (96 * 4096) (bits base 47 46)

/-- A die as a job start leaves it: its map of identity and its counts anew; the Stratus keeps its contents. -/
def startDie (d : Die) : Die :=
  { d with smap := [], groups := [], frame := 0, grants := [], cyc := 0, cycGrants := 0, cycChannels := [], ungranted := [],
           waiting := [], treeDone := false }

/-- Step 3 and 4 of R368 over the whole partition; `s0` is the state whose far tier is read. -/
def loadCells (s : State) (p image : Nat) : State :=
  let s1 := (partOf s p).dies.foldl (fun t d => modDie t d startDie) s
  ((partCells (partOf s p)).zipIdx).foldl (fun t x => setCell t x.1 (startCell s p image x.2 x.1)) s1

/-- The scale table loaded (R241). -/
def loadScale (s : State) (p : Nat) : State :=
  let recs := (List.range 4096).map fun i => (i, ScaleRec.ofBytes (scaleRead s p i).1)
  modPart (scaleSeen s p) p fun q => { q with scale := recs }

/-- One patch applied (R368 step 5): a word of one cell's scratchpad, or of every cell's. -/
def applyPatch (s : State) (p : Nat) (x : Nat × Nat × Nat × Bool) : State :=
  let cells := partCells (partOf s p)
  let hit := if x.1 = 0xFFFF then cells else [cells.getD x.1 0]
  hit.foldl (fun t g => modCell (scratchMerge t g x.2.1 4) g fun c => scratchStore c x.2.1 (leBytes 4 x.2.2.1) false) s

/-- The patches applied in list order. -/
def applyPatches (s : State) (p list n : Nat) : State :=
  (List.range n).foldl (fun t i => applyPatch t p (patchOf s p list i)) s

/-! ## Measurement (R397) -/

/-- The 72 bytes of a log entry (Table 15.4). -/
def MeasEntry.bytes (e : MeasEntry) : List Byte :=
  leBytes 1 e.kind ++ leBytes 1 0 ++ leBytes 2 e.tenant ++ leBytes 4 e.runs ++ leBytes 8 e.addr ++ leBytes 8 e.length ++ leBytes 48 e.digest

/-- An entry added, extending the chain with RUNS taken as 0; one beyond the 4,096th sets LOG_OVERFLOW. -/
def addMeas (s : State) (p : Nat) (e : MeasEntry) : State :=
  let m := (partOf s p).meas
  if 4096 ≤ m.log.length then odOr s (Ad.partMeasReason p) 2
  else
    let d := Config.sha384 (leBytes 48 m.digest ++ MeasEntry.bytes { e with runs := 0 })
    modPart s p fun q => { q with meas := { m with log := m.log ++ [e], digest := d } }

/-- The log, its digest and PART_MEAS_REASON reset. -/
def resetMeas (s : State) (p : Nat) : State :=
  odSet (modPart s p fun q => { q with meas := { q.meas with log := [], digest := 0 } }) (Ad.partMeasReason p) 0

/-- The last PROGRAM entry's RUNS counted once more, held at 2^32 − 1. -/
def countRun : List MeasEntry → List MeasEntry
  | [] => []
  | e :: t => if e.kind = 1 then { e with runs := min (e.runs + 1) (2 ^ 32 - 1) } :: t else e :: countRun t

/-- The PROGRAM entry of a job start: the image header, then every byte loaded. -/
def measureProgram (s : State) (p : Nat) (j : Job) : State :=
  let runs := (j.image, 256) :: loadRuns s p j.image
  let bs := runs.flatMap fun x => (farView s p (spaceAddr 2 x.1) x.2).1
  let d := Config.sha384 bs % 2 ^ 384
  let log := (partOf s p).meas.log
  if (log.reverse.find? fun e => e.kind = 1).any fun e => e.digest = d then
    modPart s p fun q => { q with meas := { q.meas with log := (countRun q.meas.log.reverse).reverse } }
  else addMeas s p ⟨1, j.tenant, 1, spaceAddr 2 j.image, bs.length, d⟩

end Sys2Proof.Machine
end

