-- ==== Sys2Proof/Machine/Jobs.lean ====
section
/-!
DEFINITION. Jobs: which runs next (R372), start (R368), completion (R99, R370), pre-emption with its switch,
save and resume (R373 to R378), doorbells and entries (R365 to R367), and the scrubs of Table 15.6.
-/

namespace Sys2Proof.Machine

/-! ## Scrubs (Table 15.6) -/

/-- A scratchpad cleared: the words it has poisoned stay counted (R440), and the patrol scrub keeps its place. -/
def Scratch.cleared (x : Scratch) : Scratch := { poisonedAt := x.poisonedAt, scrubRow := x.scrubRow }

/-- A cell with nothing in it. -/
def blankCell (c : Cell) : Cell := { scratch := c.scratch.cleared }

/-- Every register, instruction memory and scratchpad of a partition's cells cleared. -/
def clearCells (s : State) (p : Nat) : State :=
  (partCells (partOf s p)).foldl (fun t g =>
    match tget t.cells g with
    | none => t
    | some c => setCell t g (blankCell c)) s

/-- The Stratus of a partition's dies cleared. -/
def clearStratus (s : State) (p : Nat) : State :=
  (partOf s p).dies.foldl (fun t d => modDie t d fun x => { startDie x with stratus := [], stratusPoison := [], upsets := [], scrubBack := [] }) s

/-- Zeros written over a group's raw space, with valid check entries (Table 15.6). -/
def eraseGroup (s : State) (g : Nat) : State :=
  let lo := g * 24 * 2 ^ 33
  let n := 24 * 2 ^ 33
  let inside := fun (k : Nat) => decide (lo ≤ k) && decide (k < lo + n)
  modGrp { s with far := mclear s.far lo n
                  farKeys := s.farKeys.filter fun e => !inside (64 * e.1)
                  farPoison := s.farPoison.filter fun k => !inside (32 * k)
                  farFlips := s.farFlips.filter fun e => !inside (2 * e.1) } g fun x => { x with erased := true, lostKey := 0 }

/-- The parts of Table 15.6 by row: 1 scratchpads and instruction memories, 2 Stratus, 3 registers, 4 cache ways,
5 crypto-erase, 6 far tier, 7 OC memory, 8 dictionary shadow store, 9 session table entries. The OC's memory of a
partition is its control-core state and Barometer's own accounts are not part of it; the shadow store is the OC's
copy of values this model holds once (log 42). -/
def scrubItem (s : State) (p item : Nat) : State :=
  match item with
  | 1 => (partCells (partOf s p)).foldl (fun t g =>
      match tget t.cells g with
      | none => t
      | some c => setCell t g { c with imem := [], scratch := c.scratch.cleared }) s
  | 2 => clearStratus s p
  | 3 => (partCells (partOf s p)).foldl (fun t g =>
      match tget t.cells g with
      | none => t
      | some c => setCell t g { imem := c.imem, scratch := c.scratch }) s
  | 4 => discardWays s p
  | 5 => modPart s p fun q => { q with keys := [] }
  | 6 => ((partOf s p).groups.filter fun g => inState s p .tearingDown || !(grpOf s g).erased).foldl eraseGroup s
  | 7 => modPart (dropControl s p) p fun q =>
      { q with marks := [], ctxs := [], mediaWait := [], mediaSerial := 0, parkedBuf := [], samples := [], cache := [], calls := [], heldPkts := [], lastEpoch := none }
  | 9 => { s with net := { s.net with sessions := s.net.sessions.filter fun e => e.2.part ≠ p } }
  | _ => s

/-- The scrub of a change of tenant: the ways cleaned for the tenant that leaves, then every item the switch column
of Table 15.6 marks. -/
def scrubTenant (s : State) (p : Nat) : State := [1, 2, 3, 4].foldl (fun t i => scrubItem t p i) (cleanWays s p)

/-! ## The next job (R372) -/

/-- A parked job may resume: its queue's TENANT is still set. -/
def mayResume (s : State) (p : Nat) (j : Job) : Bool := decide ((queueOf s p j.queue).tenant = j.tenant)

/-- The job a partition takes next: the one PREEMPT named, else the lowest CLASS, parked before new, most recently
parked first, new ones in round robin. -/
def chooseNext (s : State) (p : Nat) : Option Incoming :=
  let q := partOf s p
  let heads := (List.range 64).filter (jobHead s p)
  match q.nextQueue.filter (jobHead s p) with
  | some x => some (.fresh x)
  | none =>
    let park := q.parked.filter (mayResume s p)
    let best := lowestClass s p (heads ++ park.map Job.queue)
    match park.find? fun j => best.contains j.queue with
    | some j => some (.parked j.seq)
    | none => (afterQueue (heads.filter best.contains) q.lastJobQueue).map Incoming.fresh

/-- The partition can start a job now: no record is held (R370), the OC runs (R400), no scrub is due, it has a
channel group left (R441), and its dies are cleared and not retired (R19, R175). -/
def canStart (s : State) (p : Nat) : Bool :=
  let q := partOf s p
  q.heldRecs.isEmpty && s.server.ready && q.scrubs.isEmpty && !q.usable.isEmpty && q.job.isNone &&
    q.dies.all fun d => dieCleared s d && !s.nv.retired.contains d

/-- The partition takes this job now: it is IDLE and the job is its choice, or its switch restores it. -/
def takesNow (s : State) (p : Nat) (x : Incoming) : Bool :=
  canStart s p &&
    ((inState s p .idle && decide (chooseNext s p = some x)) ||
      (inState s p .switching && (partOf s p).switch.any fun w => w.step = 3 && w.incoming = x))

/-! ## Job start (R368) -/

/-- The far-tier tenant of the partition changes with this job (R369, R397). -/
def changesTenant (s : State) (p tenant : Nat) : Bool :=
  (partOf s p).tenantUsed && decide (odGet s (Ad.partLastTenant p) ≠ tenant)

/-- The tenant of the partition's work becomes `tenant`: contents scrubbed when another's. -/
def becomeTenant (s : State) (p tenant : Nat) : State :=
  let s1 := if changesTenant s p tenant then scrubTenant s p else s
  modPart (odSet s1 (Ad.partLastTenant p) tenant) p fun q => { q with tenantUsed := true }

/-- A memory key made for a tenant of a confidential partition (Table 15.2). -/
def makeKey (s : State) (p tenant : Nat) : State :=
  let n := s.sec.keySerial + 1
  let s1 := { s with sec := { s.sec with keySerial := n, drbg := s.sec.drbg + 1 } }
  modPart s1 p fun q => { q with keys := tset q.keys tenant n }

/-- A tenant needs a memory key it does not have. -/
def needsKey (s : State) (p tenant : Nat) : Bool := (partOf s p).confidential && (tget (partOf s p).keys tenant).isNone

/-- The descriptor's job (Table 14.5), issued from a queue's head. -/
def jobOf (s : State) (p q : Nat) (raw : List Byte) : Job :=
  let x := queueOf s p q
  { tag := fieldLE raw 8 8, seq := (partOf s p).nextSeq, queue := q, index := x.head, tenant := x.tenant, image := fieldLE raw 16 8,
    save := fieldLE raw 24 8, vector := x.vector }

/-- An address is of an entry that gives a compressed region (Table 8.1). -/
def regionAddr (p a : Nat) : Bool :=
  (List.range 16).any fun r => a = Ad.partCompressRegion p r || a = Ad.partCompressRegionSize p r || a = Ad.partCompressMetaBase p r

/-- The regions in effect before a start that failed are in effect again (R224). -/
def keepRegions (s : State) (p : Nat) (old : Tbl Nat) : State :=
  modPart s p fun q => { q with latched := q.latched.filter (fun e => !regionAddr p e.1) ++ old.filter fun e => regionAddr p e.1 }

/-- A job that does not start (R368, R433): its code recorded, its record written, the partition IDLE again. -/
def notStarted (s : State) (p : Nat) (c : Code) (addr : Nat) : State :=
  let s1 := report s { code := c.value, cls := 0, part := some p, unit := (partOf s p).dies.headD 0 * 256, tag := jobTag s p, addr := addr }
  setState (modPart (endJob s1 p 2 c.value 0 false) p fun q => { q with switch := none }) p .idle

/-- Steps 3 to 6 of R368. -/
def launchJob (s : State) (p : Nat) (j : Job) (patches npatch : Nat) : State :=
  let off := imgField s p j.image 32 4
  let s1 := publishScale (loadScale (loadCells (measureProgram s p j) p j.image) p) p
  let s2 := applyPatches s1 p patches npatch
  let t := readTime s2
  setState (modPart t.2 p fun q =>
    { q with job := some { j with startNs := t.1, sinceNs := t.1, prefetch := if off = 0 then 0 else spaceAddr 2 j.image + off,
                                  latched := q.latched },
             prefetchPos := if off = 0 then none else some 0, prefetchBusy := false, switch := none }) p .running

/-- JOB_START (R368): the job at the head of a queue issues into its partition, having waited `waitNs`. The latched
values carry an entry under no address, which tells a job that latched only defaults from none. -/
def execJobStart (p q waitNs : Nat) (s : State) : Res :=
  if !(jobHead s p q && takesNow s p (.fresh q)) then .next s
  else
    let e := headEntry s p q
    let j := jobOf s p q e.1
    let reset := changesTenant s p j.tenant
    let s1 := setState (becomeTenant s p j.tenant) p .starting
    let s2 := if reset then resetMeas s1 p else s1
    let s3 := takeEntry s2 p q waitNs
    let s4 := modPart s3 p fun x =>
      { x with job := some j, nextSeq := (x.nextSeq + 1) % 65536, lastJobQueue := q, nextQueue := none,
               latched := (0, 1) :: valuesOf s3 p .jobStart }
    if needsKey s4 p j.tenant ∧ odGet s4 Ad.secEntropyState ≠ 0 then .next (keepRegions (notStarted s4 p .keystoreFailed 0) p (partOf s p).latched)
    else
      let s5 := if needsKey s4 p j.tenant then makeKey s4 p j.tenant else s4
      let patches := fieldLE e.1 32 8
      let npatch := fieldLE e.1 40 4
      let old := (partOf s p).latched
      let at_ := (queueOf s p q).base % 2 ^ 48
      match if e.2 then some (Code.poisonConsumed, at_) else startCheck s5 p j patches npatch with
      | some (c, a) => .next (keepRegions (notStarted s5 p c a) p old)
      | none => .next (launchJob s5 p j patches npatch)

/-! ## Completion -/

/-- Every die of the partition has its tree output up (R99). -/
def treesUp (s : State) (p : Nat) : Bool :=
  !(partOf s p).dies.isEmpty && (partOf s p).dies.all fun d => (dieOf s d).treeDone

/-- PARTITION_DONE (R99, R370). -/
def execPartitionDone (p : Nat) (s : State) : Res :=
  if inState s p .running && treesUp s p then .next (setState (endJob s p 0 0 0 true) p .idle) else .next s

/-- COMPLETION_RING_SPACE (R370): held records are written while there is space. -/
def execCompletionRingSpace (p : Nat) (s : State) : Res := .next (releaseRecords (partOf s p).heldRecs.length s p)

/-! ## Doorbells and entries -/

/-- DOORBELL (R365). -/
def execDoorbell (p q tail : Nat) (s : State) : Res :=
  let x := queueOf s p q
  if !x.enabled then .next s
  else if 2 ^ x.log2 < (tail + 2 ^ 32 - x.head) % 2 ^ 32 then .next (faultQueue s p q)
  else .next (modQueue s p q fun y => { y with tail := tail % 2 ^ 32 })

/-- ENTRY_ISSUE (R366, R367): the head of a queue is handed to its unit when it is the unit's choice; an OP no table
names faults the queue. -/
def execEntryIssue (p q waitNs : Nat) (s : State) : Res :=
  if !headPending s p q then .next s
  else
    let e := headEntry s p q
    match headFault s p q with
    | some c => if (partOf s p).job.isSome then .next (coreErr s p c ((queueOf s p q).base % 2 ^ 48)) else .next s
    | none =>
      match unitOfOp (fieldLE e.1 0 1) with
      | none => if fieldLE e.1 0 1 = 0x40 then .next s else .next (faultQueue s p q)
      | some u =>
        let last := (tget (partOf s p).lastQueue u).getD 63
        if afterQueue (lowestClass s p (readyFor s p u)) last ≠ some q then .next s
        else
          let r : ReqRef := ⟨p, q, (queueOf s p q).head⟩
          let s1 := modPart (takeEntry s p q waitNs) p fun x => { x with lastQueue := tset x.lastQueue u q }
          if e.2 then .next (coreErr s1 p .poisonConsumed ((queueOf s p q).base % 2 ^ 48))
          else .next (issueTo s1 r e.1)

/-- SEM_SIGNAL on the partition page (R367, Table 14.4). -/
def execPageSemSignal (p seq cnt sem : Nat) (s : State) : Res :=
  .next (signalSem s p (seq % 65536) (sem % 256) (cnt % 256 + 1) false)

/-! ## Pre-emption -/

/-- The code a PREEMPT is judged with (Table 14.9), in the order of log 43. -/
def preemptCode (s : State) (p q : Nat) : Nat :=
  let x := partOf s p
  if !(inState s p .idle || inState s p .running) then 5
  else if !jobHead s p q then 2
  else if inState s p .idle || treesUp s p then 1
  else if x.job.any fun j => j.save = 0 then 3
  else if 8 ≤ x.parked.length then 4
  else 0

/-- PREEMPT (R373): judged, and when ACCEPTED the switch starts. -/
def execPreempt (p q : Nat) (s : State) : Res :=
  let c := preemptCode s p q
  let s1 := modPart s p fun x => { x with preemptStatus := c }
  if c = 1 then .next (modPart s1 p fun x => { x with nextQueue := some q })
  else if c = 0 then
    let jq := ((partOf s p).job.map Job.queue).getD 0
    let t := readTime (odInc (odInc s1 (Ad.partPreemptions p)) (Ad.baroPreemptions p jq))
    let s2 := modJob t.2 p fun j =>
      { j with preempts := j.preempts + 1, preemptNs := t.1, runNs := j.runNs + (t.1 - j.sinceNs) }
    .next (setState (modPart s2 p fun x => { x with switch := some { step := 0, incoming := .fresh q } }) p .switching)
  else .next s1

/-- The bytes of the frames in a list, of a memory of 8 KiB frames. -/
def keepFrames (m : Mem) (fs : List Nat) : Mem := m.filter fun e => fs.contains (e.1 / 8192)

/-- The bytes of every frame but those in a list. -/
def dropFrames (m : Mem) (fs : List Nat) : Mem := m.filter fun e => !fs.contains (e.1 / 8192)

/-- One memory laid over another: its bytes, addresses rising. -/
def layOver (under top : Mem) : Mem := top.foldl (fun m e => mset m e.1 e.2) under

/-- The scratchpad frames of a cell's context (Table 14.11): those of the pages its mask marks, and its OPEN and
DRAINING shadow frames. -/
def savedFrames (c : Cell) : List Nat :=
  ((List.range 256).filter fun n => c.seq.saveMask.testBit n).map (fun n => (tget c.scratch.map n).getD n) ++
    ((c.shadows.filter fun e => e.2.space = 0).map fun e => e.2.frame)

/-- The Stratus frames of a die's context: those of the pages its save map marks, and its cells' shadow frames. -/
def savedStratus (s : State) (p image k d : Nat) : List Nat :=
  let bs := (farView s p (spaceAddr 2 image + imgField s p image 28 4 + 8192 * k) 8192).1
  let pages := (List.range 8192).flatMap fun i =>
    if bs.getD i 0 = 0 then [] else ((List.range 8).filter fun b => (bs.getD i 0).toNat.testBit b).map (8 * i + ·)
  (pages.map fun n => (tget (dieOf s d).smap n).getD n) ++
    (List.range 80).flatMap fun c => ((cellOf s (80 * d + c)).shadows.filter fun e => e.2.space = 1).map fun e => e.2.frame

/-- A cell's saved context. -/
def saveCell (c : Cell) : Cell :=
  let fs := savedFrames c
  { c with imem := []
           ins := c.ins.map fun x => (x.1, quiesceStream x.2)
           scratch := { c.scratch with mem := keepFrames c.scratch.mem fs, poison := c.scratch.poison.filter fun w => fs.contains (w / 128),
                                       losers := [], vld := none, asked := [] } }

/-- A group as a switch leaves it: the requests for its next unit are abandoned. -/
def quiesceGroup (x : BGroup) : BGroup := { x with requested := (groupLead x).elim x.requested fun l => needReqs l.2.2 x.issued }

/-- The reads of the save, checked (R162, R172). -/
def saveReads (s : State) (p image : Nat) : State :=
  let s1 := (partCells (partOf s p)).foldl (fun t g =>
    let fs := savedFrames (cellOf t g)
    scratchCheck t g (((cellOf t g).scratch.upsets.map (·.word)).filter fun w => fs.contains (w / 128))) s
  ((partOf s p).dies.zipIdx).foldl (fun t x =>
    let fs := savedStratus t p image x.2 x.1
    stratusCheck t x.1 (((dieOf t x.1).upsets.map (·.word)).filter fun u => fs.contains (u / 128))) s1

/-- The context of the running job (Table 14.11), cells and dies by their position in the partition. -/
def snapshot (s : State) (p : Nat) (image : Nat) : Saved :=
  let q := partOf s p
  let ds := q.dies.zipIdx
  let fr := ds.map fun x => (x.2, savedStratus s p image x.2 x.1)
  { cells := ((partCells q).zipIdx).map fun x => (x.2, saveCell (cellOf s x.1))
    stratus := ds.map fun x => (x.2, keepFrames (dieOf s x.1).stratus ((tget fr x.2).getD []))
    stratusPoison := ds.map fun x => (x.2, (dieOf s x.1).stratusPoison.filter fun u => ((tget fr x.2).getD []).contains (u / 128))
    smaps := ds.map fun x => (x.2, (dieOf s x.1).smap)
    groups := ds.map fun x => (x.2, (dieOf s x.1).groups.map fun e => (e.1, quiesceGroup e.2))
    clocks := ds.map fun x =>
      let d := dieOf s x.1
      (x.2, { frame := d.frame, grants := d.grants, cyc := d.cyc, cycGrants := d.cycGrants, cycChannels := d.cycChannels })
    walks := q.walks.map fun e => (e.1, { e.2 with fetched := [] })
    moves := q.moves
    prefetchNext := match q.prefetchPos with
      | some n => n + 1
      | none => 0 }

/-- The prefetch position a resume takes up: the earliest record whose move aborts, else the position held (R238). -/
def prefetchBack (q : Part) : Option Nat :=
  let ps := (q.moves.filter fun m => !m.vacated).filterMap MoveRec.prefetch
  match ps with
  | [] => q.prefetchPos
  | n :: t => some (t.foldl min n)

/-- SWITCH_QUIESCED (R374): the work at rest, and the context taken; its save begins. Memory that the save writes lies
where SAVE says, in a layout the manual does not give: the model keeps the context with the job (log 44). -/
def execSwitchQuiesced (p : Nat) (s : State) : Res :=
  match (partOf s p).job, (partOf s p).switch with
  | some j, some w =>
    if !inState s p .switching || decide (w.step ≠ 0) then .next s
    else
      let banks := (partCells (partOf s p)).foldl (fun t g => settleBanks 64 t p g) s
      let s0 := modPart banks p fun q => { q with prefetchPos := prefetchBack q }
      let stat := (partCells (partOf s0 p)).map fun g => (cellOf s0 g).seq.status
      let s1 := saveReads (parkSessions (restUnits (haltCells s0 p) p) p) p j.image
      let shot := snapshot s1 p j.image
      let cells := (shot.cells.zip stat).map fun x => (x.1.1, { x.1.2 with seq := { x.1.2.seq with status := x.2 } })
      .next (modPart s1 p fun q =>
        { q with switch := some { w with step := 1 },
                 job := q.job.map fun y => { y with saved := some { shot with cells := cells } } })
  | _, _ => .next s

/-- The tenant of what a switch starts. -/
def incomingTenant (s : State) (p : Nat) (x : Incoming) : Nat :=
  match x with
  | .fresh q => (queueOf s p q).tenant
  | .parked seq => (((partOf s p).parked.find? fun j => j.seq = seq).map Job.tenant).getD 0

/-- SWITCH_SAVED (R374, R378): VALID is written and the job is parked; one that failed before it ends FAILED instead. The
scrub follows only for another tenant. -/
def execSwitchSaved (p : Nat) (s : State) : Res :=
  match (partOf s p).job, (partOf s p).switch with
  | some j, some w =>
    if !inState s p .switching || decide (w.step ≠ 1) then .next s
    else
      let s1 := match w.outFailed with
        | some (code, wher) => endJob s p 1 code wher true
        | none =>
          let parked := { j with saved := j.saved.map fun x => { x with valid := true } }
          modPart (dropControl s p) p fun q => { q with parked := parked :: q.parked }
      let scrub := decide (incomingTenant s p w.incoming ≠ j.tenant)
      let s2 := if scrub then cleanWays s1 p else s1
      .next (modPart s2 p fun q =>
        { q with switch := some { w with step := if scrub then 2 else 3 }, scrubs := if scrub then [1, 2, 3, 4] else [] })
  | _, _ => .next s

/-- A cell of a resumed job: its saved state over the image's loads, its scratchpad's other frames as they are. -/
def restoreCell (s : State) (p image i g : Nat) (saved : Cell) : Cell :=
  let r := cellRec s p image i
  let under := (loadRanges s p image r { scratch := (cellOf s g).scratch }).scratch
  let fs := savedFrames saved
  { saved with
    imem := loadImem s p image r
    scratch := { under with
      map := saved.scratch.map
      mem := layOver (dropFrames under.mem fs) saved.scratch.mem
      poison := under.poison.filter (fun w => !fs.contains (w / 128)) ++ saved.scratch.poison
      losers := []
      vld := none
      asked := []
      upsets := under.upsets.filter fun u => !fs.contains (u.word / 128) } }

/-- The cells and dies of a partition restored from a context. -/
def restoreAll (s : State) (p image : Nat) (x : Saved) : State :=
  let q := partOf s p
  let s1 := ((partCells q).zipIdx).foldl (fun t y =>
    match tget x.cells y.2 with
    | some c => setCell t y.1 (restoreCell s p image y.2 y.1 c)
    | none => t) s
  (q.dies.zipIdx).foldl (fun t y =>
    modDie t y.1 fun d =>
      let st := (tget x.stratus y.2).getD []
      let fs := (st.map fun e => e.1 / 8192).eraseDups
      let k := (tget x.clocks y.2).getD {}
      { startDie d with
        frame := k.frame
        grants := k.grants
        cyc := k.cyc
        cycGrants := k.cycGrants
        cycChannels := k.cycChannels
        upsets := d.upsets.filter fun u => !fs.contains (u.word / 128)
        smap := (tget x.smaps y.2).getD []
        groups := (tget x.groups y.2).getD []
        stratus := layOver (dropFrames d.stratus fs) st
        stratusPoison := d.stratusPoison.filter (fun u => !fs.contains (u / 128)) ++ (tget x.stratusPoison y.2).getD [] }) s1

/-- Pending increments added to a parked job's saved counts (R376). -/
def addPending (j : Job) : Job :=
  { j with sems := j.pendingIncs.foldl (fun t e => tset t e.1 ((tget t e.1).getD 0 + e.2)) j.sems, pendingIncs := [] }

/-- JOB_RESUME (R375, R376): the parked job chosen is restored, its sessions open again, and issues. A semaphore above
65,535 ends it, and so does a scale record read poisoned or invalid (R241). The CCLK of the pre-emption, of every cell that
has not ended, are added to PART_WAIT_CYCLES (R82). -/
def execJobResume (p : Nat) (s : State) : Res :=
  match (partOf s p).parked.find? fun j => takesNow s p (.parked j.seq) with
  | none => .next s
  | some j0 =>
    match j0.saved with
    | none => .next s
    | some x =>
      let s1 := becomeTenant s p j0.tenant
      let t := readTime s1
      let j := { addPending j0 with saved := none, sinceNs := t.1 }
      let s2 := modPart t.2 p fun q =>
        { q with job := some j, parked := q.parked.filter (fun y => y.seq ≠ j0.seq), latched := j0.latched, walks := x.walks, moves := x.moves,
                 prefetchPos := if x.prefetchNext = 0 then none else some (x.prefetchNext - 1), switch := none }
      let s3 := loadScale (restoreAll s2 p j0.image x) p
      let s4 := modPart s3 p fun q => { q with scaleCopy := q.scale.map fun e => (e.1, (e.2.mexp, e.2.ovf)) }
      let held := (x.cells.filter fun e => e.2.seq.status ≠ .done).length
      let cclk := (t.1 - j0.preemptNs) * cclkActual s4 ((partOf s4 p).dies.headD 0) / 1000
      let s5 := countWait (odAdd s4 (Ad.baroPreemptLostNs p j0.queue) (t.1 - j0.preemptNs)) (some p) (held * cclk)
      let s6 := setState (resumeSessions s5 p j0.seq) p .running
      match j.sems.find? fun e => decide (65535 < e.2) with
      | some e => .next (coreErr s6 p .semaphoreOverflow e.1)
      | none =>
        match (loadCheck s6 p j0.image).orElse fun _ => scaleRecords s p with
        | some (c, a) => .next (coreErr s6 p (if c = .imageInvalid then .poisonConsumed else c) a)
        | none => .next s6

/-! ## Scrubs finished (R402) -/

/-- A partition's resources given back at the end of its teardown. -/
def freePart (s : State) (p : Nat) : State :=
  setState { s with parts := tdel s.parts p } p .absent

/-- SCRUB_DONE (R402): one scrub of a partition completes; when the last has, it becomes IDLE or ABSENT, or the
incoming job restores. -/
def execScrubDone (p item : Nat) (s : State) : Res :=
  if !(partOf s p).scrubs.contains item then .next s
  else
    let s1 := modPart (scrubItem s p item) p fun q => { q with scrubs := q.scrubs.filter (· ≠ item) }
    if (partOf s1 p).scrubs ≠ [] then .next s1
    else if inState s1 p .forming then .next (setState s1 p .idle)
    else if inState s1 p .tearingDown then .next (freePart s1 p)
    else if inState s1 p .switching then
      .next (modPart s1 p fun q => { q with switch := q.switch.map fun w => { w with step := 3 } })
    else .next s1

end Sys2Proof.Machine
end

