-- ==== Sys2Proof/Machine/Partitions.lean ====
section
/-!
DEFINITION. Forming, tearing down and repairing partitions (R358 to R362), and writes of a queue's configuration
(R363, R377). The commands that carry these writes are in Machine/Server.lean.
-/

namespace Sys2Proof.Machine

/-- The bits set in a mask below `n`, ascending. -/
def maskBits (v n : Nat) : List Nat := (List.range n).filter (bit v)

/-- The other partitions that hold resources. -/
def otherParts (s : State) (p : Nat) : Tbl Part := s.parts.filter fun e => decide (e.1 ≠ p) && !e.2.dies.isEmpty

/-! ## The checks of Table 14.2 -/

/-- A compute die is held by another partition, retired, or not cleared. -/
def dieBusy (s : State) (p d : Nat) : Bool :=
  (otherParts s p).any (fun e => e.2.dies.contains d) || s.nv.retired.contains d || !dieCleared s d

/-- A channel group is held by another partition, or not ONLINE. -/
def groupBusy (s : State) (p g : Nat) : Bool :=
  (otherParts s p).any (fun e => e.2.groups.contains g) || decide (odGet s (Ad.memGroupState g) ≠ 0)

/-- The way masks break R190, or name a memory die without a group of the partition. -/
def wayMaskBad (s : State) (p : Nat) (groups : List Nat) : Bool :=
  (List.range 4).any fun m =>
    let v := odGet s (Ad.partMscWayMask p m) % 65536
    decide ((v = 0) = (groups.any fun g => g / 4 = m)) ||
      (otherParts s p).any fun e => decide (v &&& formed s e.1 (Ad.partMscWayMask e.1 m) % 65536 ≠ 0)

/-- A partition's share of an engine (0 to 15 decode, 16 and 17 encode) under one reading of its entries. -/
def shareUnder (get : Nat → Nat) (p e : Nat) : Nat :=
  if e < 16 then get (Ad.partDecShare p e) else get (Ad.partEncShare p (e - 16))

/-- An engine or port of one partition, exclusive to it, is used by another. -/
def clashes (holder user : Nat → Nat) (p q : Nat) : Bool :=
  ((List.range 18).any fun e => bit (holder (Ad.partMediaExclusive p)) e && decide (shareUnder user q e ≠ 0)) ||
    (List.range 32).any fun n => bit (holder (Ad.partPortExclusive p)) n && bit (user (Ad.partNctPortMask q)) n

/-- Exclusive resources clash with another formed partition's shares, either way round. -/
def shareBad (s : State) (p : Nat) : Bool :=
  (otherParts s p).any fun e => clashes (odGet s) (formed s e.1) p e.1 || clashes (formed s e.1) (odGet s) e.1 p

/-- The reservations on a network die would pass 8,192 credits (R332). -/
def creditsBad (s : State) (p : Nat) : Bool :=
  (List.range 2).any fun d =>
    let mine := if odGet s (Ad.partNctPortMask p) / 2 ^ (16 * d) % 65536 ≠ 0 then odGet s (Ad.partNetCreditMin p) else 0
    decide (8192 < mine + ((otherParts s p).map fun e => reservedCredits s e.1 d).sum)

/-- Dies of more than one CD_CCLK_MHZ (R31). -/
def cclkDiffers (s : State) (ds : List Nat) : Bool :=
  ds.any fun d => decide (odGet s (Ad.cdCclkMhz d) ≠ odGet s (Ad.cdCclkMhz (ds.headD 0)))

/-- The code FORM gives (Table 14.2): the first check that fails. -/
def formCode (s : State) (p : Nat) : Nat :=
  let ds := maskBits (odGet s (Ad.partCdMask p)) 16
  let gs := maskBits (odGet s (Ad.partGroupMask p)) 16
  if !inState s p .absent then 1
  else if ds = [] ∨ gs = [] then 2
  else if ds.any (dieBusy s p) then 3
  else if gs.any (groupBusy s p) then 4
  else if gs.any fun g => (grpOf s g).eccInEffect != (grpOf s (gs.headD 0)).eccInEffect then 5
  else if wayMaskBad s p gs then 6
  else if shareBad s p then 7
  else if creditsBad s p then 8
  else if cclkDiffers s ds then 9
  else 0

/-! ## The commands of PART_COMMAND -/

/-- The scrubs a formation waits for (Table 15.6): the far tier's only where a group has not been erased. -/
def formScrubs (s : State) (gs : List Nat) (conf : Bool) : List Nat :=
  [1, 2, 3, 4, 7, 8] ++ if !conf && gs.any fun g => !(grpOf s g).erased then [6] else []

/-- FORM (R359): refused with its code, or FORMING with its resources assigned and their scrubs under way. Queues and
nonces set while ABSENT stay. -/
def formPart (s : State) (p : Nat) : State :=
  let c := formCode s p
  let s1 := odSet s (Ad.partFormResult p) c
  if c ≠ 0 then s1
  else
    let old := partOf s p
    let conf := decide (odGet s (Ad.partEncrypt p) = 1)
    let gs := maskBits (odGet s (Ad.partGroupMask p)) 16
    let q : Part := { dies := maskBits (odGet s (Ad.partCdMask p)) 16, groups := gs, usable := gs, formed := valuesOf s p .formation,
                      confidential := conf, queues := old.queues, meas := old.meas, scrubs := formScrubs s gs conf }
    setState (resetMeas { s1 with parts := tset s1.parts p q } p) p .forming

/-- A partition's queues disabled. -/
def disableQueues (s : State) (p : Nat) : State :=
  (List.range 64).foldl (fun t q =>
    if (queueOf t p q).enabled then
      odSet (modQueue t p q fun y => { y with enabled := false }) (Ad.partQueueConfig p q) (odGet t (Ad.partQueueConfig p q) % 2 ^ 31)
    else t) s

/-- TEARDOWN (R361). -/
def tearPart (s : State) (p : Nat) : State :=
  if !inState s p .idle then odSet s (Ad.partFormResult p) 1
  else
    let conf := (partOf s p).confidential
    let s1 := disableQueues (tearSessions (abortAllParked (odSet s (Ad.partFormResult p) 0) p 0) p) p
    setState (modPart s1 p fun q => { q with scrubs := [1, 2, 3, 4, if conf then 5 else 6, 7, 8, 9] }) p .tearingDown

/-- A cell's number with one die in place of another. -/
def moveCell (old new g : Nat) : Nat := if g / 80 = old then new * 80 + g % 80 else g

/-- A parked job with one die in place of another: its cells are held by position, but its waiters, its increments and
its groups name cells. -/
def moveJob (old new : Nat) (j : Job) : Job :=
  let f := moveCell old new
  let grp := fun (b : BGroup) => { b with members := b.members.map fun x => (f x.1, x.2) }
  { j with waiters := j.waiters.map fun x => (f x.1, x.2)
           incs := j.incs.map fun i => { i with cell := i.cell.map f }
           saved := j.saved.map fun x => { x with groups := x.groups.map fun e => (e.1, e.2.map fun b => (b.1, grp b.2)) } }

/-- The code REPLACE_DIE gives; a die that the partition does not hold, or holds already, is DIE_BUSY (log 48). -/
def replaceCode (s : State) (p old new : Nat) : Nat :=
  let ds := (partOf s p).dies
  let others := ds.filter (· ≠ old)
  if !inState s p .idle then 1
  else if !ds.contains old ∨ dieBusy s p new ∨ others.contains new then 3
  else if cclkDiffers s (others ++ [new]) then 9
  else 0

/-- REPLACE_DIE (R362). -/
def replacePart (s : State) (p : Nat) : State :=
  let v := odGet s (Ad.partReplace p)
  let new := v % 16
  let old := v / 16 % 16
  let c := replaceCode s p old new
  let s1 := odSet s (Ad.partFormResult p) c
  if c ≠ 0 then s1
  else modPart s1 p fun q =>
    { q with dies := q.dies.map fun d => if d = old then new else d
             parked := q.parked.map (moveJob old new) }

/-- A write of PART_COMMAND performed. -/
def partCommand (s : State) (p v : Nat) : State :=
  match v with
  | 1 => formPart s p
  | 2 => tearPart s p
  | _ => replacePart s p

/-! ## Queue configuration (R363, R377) -/

/-- The partition's far tier is, or is to be, encrypted. -/
def encrypts (s : State) (p : Nat) : Bool :=
  if inState s p .absent then decide (odGet s (Ad.partEncrypt p) = 1) else (partOf s p).confidential

/-- A queue configuration that R363, R377 or R380 rejects; ENABLE with a base of a reserved space is one (R11, R363). -/
def queueConfigBad (s : State) (p q v : Nat) : Bool :=
  let cur := odGet s (Ad.partQueueConfig p q)
  decide (bits v 30 27 ≠ 0) || decide (bits v 23 21 ≠ 0) || decide (bits v 15 11 ≠ 0) ||
    decide (bits v 20 16 < 4) || decide (16 < bits v 20 16) ||
    ((queueOf s p q).enabled && decide (v % 2 ^ 31 ≠ cur % 2 ^ 31)) ||
    (bit v 31 && !(queueOf s p q).enabled && decide (bits (odGet s (Ad.partQueueBase p q)) 63 62 < 2)) ||
    (bit v 31 && !(queueOf s p q).enabled && !encrypts s p &&
      (partOf s p).queues.any fun e => e.2.enabled && decide (e.2.tenant ≠ odGet s (Ad.partQueueTenant p q)))

/-- A queue's base or tenant may not change while it is enabled. -/
def queueLocked (s : State) (p q : Nat) : Bool := (queueOf s p q).enabled

/-- A queue configuration written: ENABLE newly set latches the queue's values, with HEAD and the tail at 0. -/
def writeQueueConfig (s : State) (p q v : Nat) : State :=
  let s1 := odSet s (Ad.partQueueConfig p q) v
  if !bit v 31 then modQueue s1 p q fun y => { y with enabled := false }
  else if (queueOf s p q).enabled then s1
  else
    let base := odGet s (Ad.partQueueBase p q)
    let x : Queue := { enabled := true, cls := bits v 26 24, log2 := bits v 20 16, vector := bits v 10 0,
                       base := base, tenant := odGet s (Ad.partQueueTenant p q) }
    let s2 := modQueue s1 p q fun _ => x
    forTenant s2 p x.tenant fun t => ringWrite t p base 0 (leBytes 4 0)

end Sys2Proof.Machine
end

