-- ==== Sys2Proof/Machine/Controls.lean ====
section
/-!
DEFINITION. What a write of an entry does beyond setting its value: CCLK, block cuts, loads, recovery requests,
the Almanac's controls, retraining, margining and pins. Machine/Entries.lean names the entry each belongs to.
-/

namespace Sys2Proof.Machine

/-! ## CCLK (R31) -/

/-- The dies a write for a die sets: those of its formed partition, or it alone. -/
def cclkDies (s : State) (d : Nat) : List Nat :=
  match dieOwner s d with
  | some p => (partOf s p).dies
  | none => [d]

/-- A CCLK that R31 rejects. -/
def cclkBad (s : State) (d v : Nat) : Bool :=
  decide (v < 600) || decide (1600 < v) || decide (v % 50 ≠ 0) ||
    (cclkDies s d).any fun x => decide ((tget s.nv.ceiling x).getD Config.cclkCeilingMHz < v)

/-- A CCLK set for a die and the dies that run with it. -/
def writeCclk (s : State) (d v : Nat) : State :=
  (cclkDies s d).foldl (fun t x => awaitHold t x fun u => odSet u (Ad.cdCclkMhz x) v) s

/-! ## Blocks (R382 to R384) -/

/-- A block serves a partition (R383). -/
def blockServes (s : State) (p b : Nat) : Bool :=
  let q := partOf s p
  if b < 16 then q.dies.contains b
  else if b < 20 then q.groups.any fun g => g / 4 = b - 16
  else if b < 22 then (List.range 18).any fun e => decide (engineBlock e = b) && decide (engineShare s p e ≠ 0)
  else decide (b < 24) && usesNd s p (b - 22)

/-- A block may not be cut by the normal world: the secure world holds it, or it serves an active confidential
partition. -/
def blockHeld (s : State) (b : Nat) : Bool :=
  bit (odGet s Ad.secBlockOwner ||| 0x1F000000) b ||
    s.parts.any fun e => e.2.confidential && !inState s e.1 .absent && blockServes s e.1 b

/-- The lowest block a write would cut that may not be cut (R384); class S is never refused. -/
def refusedBlock (s : State) (cls : Cls) (a v : Nat) : Option Nat :=
  match cls with
  | .S => none
  | _ => (maskBits v 29).find? fun b => !bit (odGet s a) b && blockHeld s b

/-- The number of a caller class in records and cursors (Table 17.8). -/
def Cls.num : Cls → Nat
  | .S => 0
  | .O => 1
  | .P _ => 2
  | .D => 3

/-- ARG of a refusal's record. -/
def refusalArg (c : Caller) : Nat := Cls.num c.cls * 256 + c.transport

/-- UNIT of a block (Table 17.8). -/
def unitBlock (b : Nat) : Nat := if b < 24 then b * 256 else if b = 28 then 0x1800 else 0x1900 + b

/-- A refused cut: counted, and its record written. -/
def refuseCut (s : State) (c : Caller) (b : Nat) : State :=
  recordOnly (odInc s Ad.secDeniedCount) .accessRefused 6 none (unitBlock b) (refusalArg c)

/-- A compute die's rails go down: nothing it held remains, and its CD_CLEAR_DONE bit clears (R174, R175). -/
def dieDown (s : State) (d : Nat) : State :=
  let done := odGet s Ad.cdClearDone
  let s1 := odSet { s with cells := s.cells.map fun e => if e.1 / 80 = d then (e.1, blankCell e.2) else e } Ad.cdClearDone
    (if bit done d then done - 2 ^ d else done)
  { s1 with dies := tset s1.dies d {} }

/-- The contents of a channel group become undefined (R441): what is read of them is a free value until written. -/
def loseGroup (s : State) (g : Nat) : State :=
  let inside := fun (k : Nat) => decide (k / 2 ^ 33 / 24 = g)
  modGrp { s with farKeys := s.farKeys.filter fun e => !inside (64 * e.1)
                  farPoison := s.farPoison.filter fun k => !inside (32 * k)
                  farFlips := s.farFlips.filter fun e => !inside (2 * e.1)
                  fresh := s.fresh + 1 } g fun x => { x with lostKey := 2 ^ 32 + s.fresh, erased := false }

/-- The cached lines and open merges of a memory die gone without write-back. -/
def dropMd (s : State) (m : Nat) : State := modMd s m fun d => { d with lines := [], merges := [] }

/-- A logical port's link down: nothing is sprayed onto it, and its lanes' eyes read 0 (R462, R468). -/
def linkDown (s : State) (n : Nat) : State :=
  if odGet s (Ad.netPortState n) = 3 then s
  else
    let mode := (tget s.net.portMode (n / 4)).getD 0
    let width := 8 / 2 ^ mode
    (List.range width).foldl (fun t i => odSet t (Ad.ethLaneEye (8 * (n / 4) + n % 4 * width + i)) 0) (odSet s (Ad.netPortState n) 0)

/-- The sixteen logical ports of a network die down. -/
def portsDown (s : State) (d : Nat) : State := (List.range 16).foldl (fun t i => linkDown t (16 * d + i)) s

/-- The engines of a media block stopped. -/
def stopBlock (s : State) (b : Nat) : State :=
  (List.range 26).foldl (fun t e =>
    if engineBlock e = b then (if e < 18 then stopEngine t e else stopWriter t e) else t) s

/-- A block loses its power. -/
def blockOff (s : State) (b : Nat) : State :=
  if b < 16 then dieDown s b
  else if b < 20 then (List.range 4).foldl (fun t i => loseGroup t (4 * (b - 16) + i)) (dropMd s (b - 16))
  else if b < 22 then stopBlock s b
  else if b < 24 then portsDown s (b - 22)
  else s

/-- A block's power returns: a compute die clears anew (R174). -/
def blockOn (s : State) (b : Nat) : State := if b < 16 then modDie s b fun d => { d with railsUp := true } else s

/-- A write of BLOCK_CLOCK_STOP or BLOCK_POWER_OFF performed; bits 29 to 31 are reserved. -/
def writeCut (s : State) (a v : Nat) : State :=
  let old := odGet s a
  let new := v % 2 ^ 29
  let s1 := odSet s a new
  if a ≠ Ad.blockPowerOff then s1
  else
    let s2 := (maskBits new 29).foldl (fun t b => if bit old b then t else blockOff t b) s1
    (maskBits old 29).foldl (fun t b => if bit new b then t else blockOn t b) s2

/-! ## Loads (R395) -/

/-- A write of PART_LOAD_TARGET that R395 rejects; one whose tenant needs a memory key that can no longer be made is
rejected too (log 49). -/
def loadBad (s : State) (p v : Nat) : Bool :=
  let n := odGet s (Ad.partLoadLength p)
  (partOf s p).load.isSome || decide (n = 0) || decide (v % 64 ≠ 0) || (addrFault s p 2 v n).isSome ||
    (needsKey s p (odGet s (Ad.partLoadTenant p)) && decide (odGet s Ad.secEntropyState ≠ 0))

/-- A load begins: its length and tenant are latched, and a confidential tenant's first key made (Table 15.2). -/
def startLoad (s : State) (p v : Nat) : State :=
  let t := odGet s (Ad.partLoadTenant p)
  let s1 := if needsKey s p t then makeKey s p t else s
  modPart (odSet s1 (Ad.partLoadTarget p) v) p fun q => { q with load := some { target := v % 2 ^ 41, length := odGet s (Ad.partLoadLength p), tenant := t } }

/-- A load's end: TARGET reads 0. -/
def endLoad (s : State) (p : Nat) : State := odSet (modPart s p fun q => { q with load := none }) (Ad.partLoadTarget p) 0

/-- Bytes of a load stored and hashed; at LENGTH it completes with its log entry. -/
def loadBytes (s : State) (p : Nat) (l : Load) (data : List Byte) : State :=
  let bs := data.take (l.length - l.next)
  let s1 := forTenant s p l.tenant fun t =>
    let a := l.target + l.next
    farRequest t p a 0 bs.length none (.write p a 0 .load bs false)
  let l1 := { l with next := l.next + bs.length, hashed := l.hashed ++ bs }
  if l1.next < l1.length then modPart s1 p fun q => { q with load := some l1 }
  else endLoad (addMeas s1 p ⟨2, l.tenant, 0, l.target, l.length, Config.sha384 l1.hashed % 2 ^ 384⟩) p

/-! ## Recovery requests (R440, R441, R452) -/

/-- No record is related. -/
def noLink : Nat := 0xFFFFFFFF

/-- ERR_PART_RESET performed. -/
def askReset (s : State) (p : Nat) : State := demand s { kind := 2, parts := [p], seq := noLink }

/-- The cell ERR_SPARE_SWAP names. -/
def swapCell (v : Nat) : Nat := 80 * bits v 11 8 + bits v 6 0

/-- ERR_SPARE_SWAP is rejected: no such cell, or its die's partition is not IDLE. -/
def swapBad (s : State) (v : Nat) : Bool :=
  decide (80 ≤ bits v 6 0) || (dieOwner s (bits v 11 8)).any fun p => !inState s p .idle

/-- ERR_SPARE_SWAP performed. -/
def askSwap (s : State) (v : Nat) : State :=
  demand s { kind := 3, target := swapCell v, parts := (dieOwner s (bits v 11 8)).toList, seq := noLink }

/-- ERR_GROUP_RETIRE performed. -/
def askRetire (s : State) (g : Nat) : State := retireErr s g Code.groupRetired.value 0 noLink

/-! ## The Almanac's controls (R447 to R451) -/

/-- The oldest stored record's SEQ, and that of the next. -/
def almOldest (s : State) : Nat :=
  let a := s.nv.alm
  match a.ring.getLast?.orElse fun _ => a.stage.getLast? with
  | some r => r.seq
  | none => a.nextSeq

/-- The state with the Almanac changed. -/
def modAlm (s : State) (f : Almanac → Almanac) : State := { s with nv := { s.nv with alm := f s.nv.alm } }

/-- A record put into the flash ring; one it overwrites at or beyond the read mark is lost (R451). -/
def commitRec (s : State) (r : AlmRec) : State :=
  let a := s.nv.alm
  if a.ring.length < 524288 then modAlm s fun x => { x with ring := r :: x.ring }
  else
    let old := (a.ring.getLast?.map AlmRec.seq).getD 0
    let s1 := modAlm s fun x => { x with ring := r :: x.ring.dropLast }
    if (old + 2 ^ 32 - odGet s Ad.almReadMark) % 2 ^ 32 < 2 ^ 31 then odOr (odInc s1 Ad.almLost) Ad.errModuleStatus 32 else s1

/-- A record of the writer's own: a code with a count. -/
def ownRec (s : State) (c : Code) (count arg : Nat) : AlmRec :=
  { seq := s.nv.alm.nextSeq, ms := s.nv.opMs, powerCycles := s.nv.powerCycles, cls := 0, part := 0xFF, unit := 0x1900,
    code := c.value, count := count, arg := arg }

/-- The next SEQ taken. -/
def takeSeq (s : State) : State := modAlm s fun x => { x with nextSeq := (x.nextSeq + 1) % 2 ^ 32 }

/-- The first record committed after drops is ALMANAC_DROPPED (R448; its SEQ is the next, log 50). -/
def commitDrops (s : State) : State :=
  let n := s.nv.alm.drops
  if n = 0 then s
  else commitRec (takeSeq (modAlm s fun x => { x with drops := 0 })) (ownRec s .almanacDropped n 0)

/-- The `n` oldest staged records committed. -/
def commitStaged : Nat → State → State
  | 0, s => s
  | n + 1, s =>
    match s.nv.alm.stage.getLast? with
    | none => s
    | some r =>
      let s1 := commitDrops s
      commitStaged n (commitRec (modAlm s1 fun x => { x with stage := x.stage.dropLast }) r)

/-- ALM_CLEAR of 1: the erase starts. The ALMANAC_CLEARED record takes its SEQ now, so that the records staged during
the erase follow it; those staged before go with the ring (log 51). -/
def startErase (s : State) : State :=
  if s.nv.alm.erasing then s
  else
    let s1 := commitStaged s.nv.alm.stage.length s
    takeSeq (modAlm s1 fun x => { x with erasing := true, stage := [ownRec s1 .almanacCleared 0 0] })

/-- ALM_READ_MARK may move neither backwards nor beyond ALM_NEXT_SEQ (R451). -/
def markBad (s : State) (v : Nat) : Bool :=
  let cur := odGet s Ad.almReadMark
  decide ((s.nv.alm.nextSeq + 2 ^ 32 - cur) % 2 ^ 32 < (v + 2 ^ 32 - cur) % 2 ^ 32)

/-- A class's ALM_CURSOR. -/
def cursorOf (s : State) (cls : Cls) : Nat := (tget s.server.cursors (Cls.num cls)).getD 0

/-- A class's cursor set. -/
def setCursor (s : State) (cls : Cls) (v : Nat) : State :=
  { s with server := { s.server with cursors := tset s.server.cursors (Cls.num cls) v } }

/-- Records in SEQ order from a SEQ: inserted by their distance from it. -/
def insertSeq (cur : Nat) (r : AlmRec) : List AlmRec → List AlmRec
  | [] => [r]
  | x :: t =>
    if (r.seq + 2 ^ 32 - cur) % 2 ^ 32 < (x.seq + 2 ^ 32 - cur) % 2 ^ 32 then r :: x :: t else x :: insertSeq cur r t

/-- ALM_WINDOW read (R450): the records from the class's cursor, and the state with the cursor advanced; a cursor older
than the oldest record adds the gap to ALM_LOST. -/
def almWindow (s : State) (cls : Cls) : List Byte × State :=
  let a := s.nv.alm
  let cur := cursorOf s cls
  let gap := (almOldest s + 2 ^ 32 - cur) % 2 ^ 32
  let behind := decide (0 < gap) && decide (gap < 2 ^ 31)
  let start := if behind then almOldest s else cur
  let s1 := if behind then odAdd s Ad.almLost gap else s
  let span := (a.nextSeq + 2 ^ 32 - start) % 2 ^ 32
  let all := (a.stage ++ a.ring).filter fun r => decide ((r.seq + 2 ^ 32 - start) % 2 ^ 32 < span)
  let sel := (all.foldl (fun l r => insertSeq start r l) []).take 64
  let next := (sel.getLast?.map fun r => (r.seq + 1) % 2 ^ 32).getD start
  (sel.flatMap almBytes, setCursor s1 cls next)

/-! ## Retraining and margining (R461, R464) -/

/-- A group's retrain begins: it reads TRAINING. -/
def startRetrain (s : State) (g : Nat) : State := odSet (modGrp s g fun x => { x with retraining := true }) (Ad.memGroupState g) 1

/-- A MARGIN_REQUEST that names nothing, or comes while a measurement runs. -/
def marginBad (s : State) (v : Nat) : Bool :=
  decide (odGet s Ad.marginState = 1) || decide (2 ≤ bits v 1 0) ||
    match bits v 63 56 with
    | 1 => decide (384 ≤ bits v 47 32)
    | 2 => decide (16 ≤ bits v 47 32)
    | _ => true

/-- The target cannot be measured: a group TRAINING or ABSENT, a PCIe link not in L0. -/
def marginRefused (s : State) (v : Nat) : Bool :=
  if bits v 63 56 = 1 then
    let st := odGet s (Ad.memGroupState (bits v 47 32 / 24))
    st == 1 || st == 3
  else !s.boot.pcieUp

/-- The value of a DOM entry set. -/
def setDom (s : State) (a : Nat) (bs : List Byte) : State := { s with server := { s.server with doms := tset s.server.doms a bs } }

/-- The value of a DOM entry held. -/
def domOf (s : State) (a : Nat) : List Byte := (tget s.server.doms a).getD []

/-- MARGIN_REQUEST performed. -/
def startMargin (s : State) (v : Nat) : State :=
  if marginRefused s v then setDom (odSet s Ad.marginState 3) Ad.marginResult []
  else
    let s1 := odSet s Ad.marginState 1
    { s1 with boot := { s1.boot with margin := some v } }

/-! ## Pins (R470 to R472) -/

/-- The functions Table 18.7 lists for a pin. -/
def pinTakes (n fn : Nat) : Bool :=
  if fn ≤ 1 then true
  else if fn ≤ 3 then n ≤ 3 && decide (fn = 2 + n / 2)
  else if fn ≤ 5 then decide (4 ≤ n) && decide (n ≤ 7)
  else if fn ≤ 7 then n = 8 || n = 9
  else if fn ≤ 11 then decide (10 ≤ n) && decide (n ≤ 13)
  else if fn = 12 then n = 14 || n = 15 || (decide (24 ≤ n) && decide (n ≤ 31))
  else if fn = 13 then decide (16 ≤ n) && decide (n ≤ 23)
  else fn = 14 && decide (24 ≤ n) && decide (n ≤ 31)

/-- A pin's OE_GRP strap is high (R454). -/
def pinOe (s : State) (n : Nat) : Bool := bit s.boot.straps (4 + n / 8)

/-- A function that drives at its idle: an open-drain one counts as driving only when it pulls low. -/
def fnDrives (fn : Nat) : Bool := fn = 1 || fn = 2 || fn = 8 || fn = 9 || fn = 11 || fn = 12 || fn = 13

/-- The level a pin drives, where the model knows it: a GPIO_OUT's bit, a UART_TX's idle level. -/
def pinLevel (s : State) (n : Nat) : Option Bool :=
  match (pinOf s n).fn with
  | 1 => some (bit (odGet s Ad.gpioOut) n)
  | 2 => some true
  | _ => none

/-- The idle level a new function's input sees, toward which the weak pull goes when the old function did not drive. -/
def idleLevel (fn : Nat) : Option Bool := if 3 ≤ fn ∧ fn ≤ 7 then some true else none

/-- A switch of function begins: for two ACLK the pin drives nothing (R471). -/
def switchPin (s : State) (n fn : Nat) : State :=
  let old := (pinOf s n).fn
  let pull := if pinOe s n ∧ fnDrives old then pinLevel s n else idleLevel fn
  modPin s n fun x => { x with next := some fn, driven := pull }

/-- A pin function written: the switch begins, or is held while one is under way (R472). -/
def writePin (s : State) (n fn : Nat) : State :=
  if (pinOf s n).next.isSome then modPin s n fun x => { x with held := some fn } else switchPin s n fn

end Sys2Proof.Machine
end

