-- ==== Sys2Proof/Machine/Entries.lean ====
section
/-!
DEFINITION. The values of the dictionary's entries as reads find them (R409, R414), the checks the owning chapters
put on writes, and what a write that passes them does.
-/

namespace Sys2Proof.Machine

/-! ## Values derived by the part -/

/-- SEC_SVN. -/
def svnNow (s : State) : Nat := svnOf s.nv

/-- PART_NARROW_REASON (R239). -/
def narrowReason (s : State) (p : Nat) : Nat :=
  let q := partOf s p
  let up := q.usable.any fun g => !(grpOf s g).firstRetrain || decide (odGet s (Ad.memGroupState g) = 1)
  let test := s.boot.startMargin || s.boot.margin.any fun v => decide (bits v 63 56 = 1) && q.groups.contains (bits v 47 32 / 24)
  if inState s p .absent then 0
  else (if up then 1 else 0) + (if test then 2 else 0) + if q.usable.length < q.groups.length then 4 else 0

/-- The key slots in use: a memory key per tenant, and a session's current and old key sets (R389). -/
def keySlots (s : State) : Nat :=
  (s.parts.map fun e => e.2.keys.length).sum +
    (s.net.sessions.map fun e => (if e.2.keys.isSome then 1 else 0) + if e.2.oldKeys.isSome then 1 else 0).sum

/-- CD_SPARES_LEFT (R19): the spares of a compute die still unused, each cell fenced off having taken one. -/
def sparesLeft (s : State) (d : Nat) : Nat := Config.sparesAtShipment - (s.nv.fenced.filter fun c => c / 84 = d).length

/-- PART_RUNNING_JOB (R380). -/
def runningJob (s : State) (p : Nat) : Nat :=
  match (partOf s p).job with
  | none => 2 ^ 31
  | some j => j.queue % 64 * 65536 + j.seq % 65536

/-- A pin's function as its output sees it: at BOOT_FAIL pins 14 and 15 are LEDs, whatever their settings (R459). -/
def pinFn (s : State) (n : Nat) : Nat :=
  if odGet s Ad.bootStage = 7 ∧ (n = 14 ∨ n = 15) then 12 else (pinOf s n).fn

/-- A pin drives now. -/
def pinDriving (s : State) (n : Nat) : Bool := pinOe s n && (pinOf s n).next.isNone && fnDrives (pinFn s n)

/-- A pin's input level: what it drives where the model knows it, else what its surroundings give, a free value. -/
def pinInput (s : State) (n : Nat) : Bool :=
  let open_ := (Config.freeValue s.fresh).testBit n
  if pinDriving s n ∧ (pinOf s n).fn = pinFn s n then (pinLevel s n).getD open_ else open_

/-- PIN_STATE (R473). -/
def pinState (s : State) (n : Nat) : Nat :=
  (if pinInput s n then 1 else 0) + (if pinDriving s n then 2 else 0) +
    (if (pinOf s n).next.isSome then 4 else 0) + if pinOe s n then 0 else 8

/-- GPIO_IN. -/
def gpioIn (s : State) : Nat := ((List.range 32).map fun n => if pinInput s n then 2 ^ n else 0).sum

/-- The Anemometer events whose counts the model does not know: fabric bytes and channel bursts
(log 53). -/
def anemOpen (sel : Nat) : Bool := [5, 6, 0x10, 0x11].contains (sel % 256)

/-- Entries whose read uses a free value. -/
def openEntry (r : Row) : Bool := decide (r.id = .pinState ∨ r.id = .gpioIn ∨ r.id = .anemCount ∨ r.id = .mgmtLinkStatus ∨ r.id = .netPortFecCorrected ∨ r.id = .netPortFecUncorrected)

/-- The number an entry's address gives within its row. -/
def Row.k (r : Row) (a : Nat) : Nat := a % 256 - r.subLo

/-- The partition an address names, by its index. -/
def addrPart (a : Nat) : Nat := (indexPart (a / 256)).getD 0

/-- The value a read of an entry of a fixed size finds, for a caller's class; the reserved bits of a region's entries, which
R209 checks as written, read 0 (R11). -/
def entryValue (s : State) (cls : Cls) (a : Nat) (r : Row) : Nat :=
  let p := addrPart a
  let k := r.k a
  let set := Config.setAtTest a % 2 ^ (8 * r.ty.bytes)
  let free := Config.freeValue s.fresh
  match r.id with
  | .cdCclkActualMhz => cclkActual s k
  | .cdSparesLeft => sparesLeft s k
  | .partNarrowReason => narrowReason s p
  | .partRunningJob => runningJob s p
  | .partParkedJobs => (partOf s p).parked.length
  | .fwSlotState => Config.slotState [s.nv.sc.active, s.nv.oc.active, s.nv.sc.invalidA, s.nv.sc.invalidB, s.nv.oc.invalidA, s.nv.oc.invalidB] % 2 ^ 32
  | .secFuseState => fuseState
  | .secSvn => svnNow s
  | .secKeySlotsUsed => keySlots s
  | .devFwVersion => fwVersion s
  | .devStepping => set
  | .commEthMac => set
  | .commMctpIana => set
  | .netMacBase => set
  | .netSrcPrefix => set
  | .cdScratchRepairColumns => Config.setAtTest a % 5377
  | .partCompressRegion => bits (odGet s a) 63 59 * 2 ^ 59 + bits (odGet s a) 40 12 * 4096
  | .partCompressMetaBase => odGet s a % 2 ^ 41
  | .netFeatureLevel => s.nv.level
  | .netMinPeerLevel => s.nv.level - 1
  | .errResetCause => s.boot.resetCause
  | .almCursor => cursorOf s cls
  | .almNextSeq => s.nv.alm.nextSeq
  | .almOldestSeq => almOldest s
  | .almOpSeconds => s.nv.opMs / 1000
  | .almPowerCycles => s.nv.powerCycles % 2 ^ 32
  | .bootStraps => s.boot.straps % 256
  | .mgmtLinkStatus => free % 2 ^ 32
  | .netPortFecCorrected => free % 2 ^ 64
  | .netPortFecUncorrected => free % 2 ^ 64
  | .pinState => pinState s k
  | .gpioIn => gpioIn s
  | .modEnergyJ => s.boot.energyMj / 1000
  | .holdupCapUf => s.boot.holdupUf
  | .holdupFault => if s.boot.holdupFault then 1 else 0
  | .modTripLatched => if s.boot.tripLatched then 1 else 0
  | .anemCount => if anemOpen (odGet s (Ad.anemSelect k)) then free % 2 ^ 64 else odGet s a
  | _ => odGet s a

/-- The byte string of a VIS entry. -/
def visValue (r : Row) : List Byte :=
  if r.id = .devPartNumber then "FG-1280".toList.map fun c => BitVec.ofNat 8 c.toNat else Config.serial

/-- The measurement state a nonce and report entry belongs to: a partition's, or the module's. -/
def measOf (s : State) (p : Option Nat) : Measure :=
  match p with
  | some q => (partOf s q).meas
  | none => s.sec.meas

/-- The state with it changed. -/
def modMeas (s : State) (p : Option Nat) (f : Measure → Measure) : State :=
  match p with
  | some q => modPart s q fun x => { x with meas := f x.meas }
  | none => { s with sec := { s.sec with meas := f s.sec.meas } }

/-- What a class has in a list kept per class. -/
def classGet (l : List (Cls × List Byte)) (c : Cls) : Option (List Byte) := (l.find? fun e => e.1 = c).map (·.2)

/-- The list with a class's value set. -/
def classSet (l : List (Cls × List Byte)) (c : Cls) (v : List Byte) : List (Cls × List Byte) :=
  l.filter (fun e => e.1 ≠ c) ++ [(c, v)]

/-- The measurement a report entry's address names. -/
def reportPart (r : Row) (a : Nat) : Option Nat := if r.id = .attestReport ∨ r.id = .attestNonce then none else some (addrPart a)

/-- A report that a READ must wait for: its class has set a nonce, and the report over it is not signed yet (R398). -/
def reportDue (s : State) (cls : Cls) (a : Nat) (r : Row) : Bool :=
  decide (r.id = .attestReport ∨ r.id = .partAttestReport) &&
    (classGet (measOf s (reportPart r a)).nonces cls).isSome && (classGet (measOf s (reportPart r a)).reports cls).isNone

/-- The value of a DOM entry for a caller's class, and the state after its snapshot: ALM_WINDOW advances the cursor. -/
def domValue (s : State) (cls : Cls) (a : Nat) (r : Row) : List Byte × State :=
  match r.id with
  | .attestReport => ((classGet s.sec.meas.reports cls).getD [], s)
  | .partAttestReport => ((classGet (partOf s (addrPart a)).meas.reports cls).getD [], s)
  | .attestCertChain => (certChain s, s)
  | .partMeasLog => ((partOf s (addrPart a)).meas.log.flatMap MeasEntry.bytes, s)
  | .secDebugChallenge => (leBytes 32 (Config.freeValue s.sec.challenge), s)
  | .almWindow => almWindow s cls
  | _ => (domOf s a, s)

/-! ## The owning chapters' checks -/

/-- A power of two in a range. -/
def pow2In (v lo hi : Nat) : Bool := decide (lo ≤ v) && decide (v ≤ hi) && decide (2 ^ Nat.log2 v = v)

/-- The sum of an entry over the 16 partitions with one of them set to a new value. -/
def sumWith (s : State) (ad : Nat → Nat) (p v : Nat) : Nat :=
  ((List.range 16).map fun q => if q = p then v else odGet s (ad q)).sum

/-- The buffers of all pools with one count set to a new value (R257). -/
def poolsWith (s : State) (a v : Nat) : Nat :=
  ((List.range 16).flatMap fun q => (List.range 4).map fun k =>
    if Ad.partPoolBufCount q k = a then v else odGet s (Ad.partPoolBufCount q k)).sum

/-- The units and events of Table 16.13. -/
def anemBad (v : Nat) : Bool :=
  let u := bits v 23 16
  let e := v % 256
  if u < 0x10 then decide (e = 0) || decide (6 < e)
  else if u < 0x14 then decide (e < 0x10) || decide (0x13 < e)
  else if u < 0x16 then decide (e ≠ 0x20) && decide (e ≠ 0x21)
  else if u < 0x18 then decide (e < 0x30) || decide (0x32 < e)
  else true

/-- A mask that is not a run of ones from bit 31 downward. -/
def maskBad (v : Nat) : Bool := !((List.range 33).any fun n => decide (v = 2 ^ 32 - 2 ^ n))

/-- A measured region's base or size that R396 rejects. -/
def measBad (s : State) (p base size : Nat) : Bool :=
  decide (base % 4096 ≠ 0) || decide (size % 4096 ≠ 0) || decide (farSize s p < base + size)

/-- A value, or the state it is written in, fails a check of the owning chapter (INVALID_VALUE). -/
def valueBad (s : State) (a : Nat) (r : Row) (v : Nat) : Bool :=
  let p := addrPart a
  let k := r.k a
  match r.id with
  | .cdCclkMhz => cclkBad s k v
  | .partReservedCeilingPct => decide (80 < v)
  | .cellConflictMode => decide (1 < v)
  | .partHostWindowSize => decide (v % 4096 ≠ 0) || decide (2 ^ 36 < v)
  | .memDrizzleWeightPct => decide (v < 10) || decide (90 < v)
  | .partObjTableCount => decide (65536 < v)
  | .partPoolBufSize => decide (v % 4096 ≠ 0)
  | .partPoolBufCount => decide (65536 < poolsWith s a v)
  | .partMediaCtxCount => decide (2 ^ 20 < sumWith s Ad.partMediaCtxCount p v)
  | .partSampleCacheSets => !pow2In v 1 (2 ^ 31)
  | .partSampleCacheSlotBytes => decide (v % 4096 ≠ 0)
  | .partNctIid => decide (v = 0) || (List.range 16).any fun q => decide (q ≠ p) && decide (odGet s (Ad.partNctIid q) = v)
  | .partNctWindowPkts => decide (v < 16) || decide (4096 < v)
  | .partNctFailMs => decide (v < 10) || decide (60000 < v)
  | .partNctErrqSlots => !pow2In v 16 65536
  | .partNctRegionCount => decide (65535 < v)
  | .partNctSessionQuota => decide (65536 < sumWith s Ad.partNctSessionQuota p v)
  | .netPortMode => decide (2 < v)
  | .partCollCommCount => decide (4096 < sumWith s Ad.partCollCommCount p v)
  | .partCommand => decide (v = 0) || decide (3 < v)
  | .partQueueConfig => queueConfigBad s p k v
  | .partQueueBase => queueLocked s p k
  | .partQueueTenant => queueLocked s p k
  | .partCompletionSlots => !pow2In v 16 65536
  | .partLoadLength => decide (v % 64 ≠ 0) || decide (v < 64) || decide (2 ^ 40 < v)
  | .partLoadTarget => loadBad s p v
  | .partMeasRegionBase => measBad s p v (odGet s (Ad.partMeasRegionSize p k))
  | .partMeasRegionSize => measBad s p (odGet s (Ad.partMeasRegionBase p k)) v
  | .fwActivate => decide (v = 0) || decide (3 < v)
  | .errPartReset => decide (16 ≤ v) || inState s v .absent
  | .errSpareSwap => swapBad s v
  | .errGroupRetire => decide (16 ≤ v) || decide (odGet s (Ad.memGroupState v) ≠ 0)
  | .errCellSpareLimit => decide (v = 0) || decide (16 < v)
  | .errGroupRetireLimit => decide (v = 0)
  | .almReadMark => markBad s v
  | .anemSelect => anemBad v
  | .commEthClass => decide (1 < v)
  | .commEthUdpPort => decide (v = 0)
  | .commEthIpv4Mask => maskBad v
  | .commEthAllowMask => maskBad v
  | .commRestoreDefaults => decide (v ≠ 1)
  | .memGroupRetrain => decide (16 ≤ v) || decide (odGet s (Ad.memGroupState v) ≠ 0)
  | .marginRequest => marginBad s v
  | .pinFunction => !pinTakes k v
  | .modPowerCapW => decide (v < 1000) || decide (Config.powerLimitW < v)
  | _ => decide (r.ty = .bool) && decide (1 < v)

/-- The bits of an entry that are not reserved (R11): what is written to the others is ignored. -/
def kept (r : Row) (v : Nat) : Nat :=
  match r.id with
  | .partMscWayMask => v % 65536
  | .partQueueBase => bits v 63 62 * 2 ^ 62 + v % 2 ^ 48
  | .partNctPeerPolicy => v % 4
  | .errNotifyVector => v &&& 0x87FF
  | .anemSelect => v &&& 0x00FF00FF
  | _ => v

/-! ## Writes performed -/

/-- A value kept in the dictionary store as well (R413). -/
def odStore (s : State) (a v : Nat) : State :=
  { odSet s a v with nv := { s.nv with store := tset s.nv.store a v } }

/-- FW_ACTIVATE performed (R400); SEC_SVN rises to the lower of the two running images' versions (log 54). -/
def activateFw (s : State) (v : Nat) : State :=
  match v with
  | 1 => { s with boot := { s.boot with ocPending := true } }
  | 2 => { s with nv := { s.nv with activateAtReset := true } }
  | _ =>
    let now := min (slotSvn s.nv.sc false s.nv.sc.active) (slotSvn s.nv.oc true s.nv.oc.active)
    { s with nv := { s.nv with svn := some (max (svnNow s) now) } }

/-- What a WRITE that passed every check does (R409). -/
def applyWrite (s : State) (c : Caller) (a : Nat) (r : Row) (v : Nat) : State :=
  let p := addrPart a
  let k := r.k a
  let keep := kept r v
  match r.id with
  | .cdCclkMhz => writeCclk s k v
  | .partCommand => partCommand s p v
  | .partQueueConfig => writeQueueConfig s p k v
  | .blockClockStop => writeCut s a v
  | .blockPowerOff => writeCut s a v
  | .secBlockOwner => odSet s a (v % 2 ^ 29 ||| 0x1F000000)
  | .partLoadTarget => startLoad s p v
  | .fwActivate => activateFw s v
  | .errPartReset => askReset s v
  | .errSpareSwap => askSwap s v
  | .errGroupRetire => askRetire s v
  | .almCursor => setCursor s c.cls v
  | .almClear => if v = 1 then startErase s else s
  | .memGroupRetrain => startRetrain s v
  | .marginRequest => startMargin s v
  | .pinFunction => writePin (odStore s a v) k v
  | .anemSelect => odSet (odSet s a keep) (Ad.anemCount k) 0
  | .commRestoreDefaults => { s with nv := { s.nv with restore := true } }
  | _ => if r.persist = .persistent then odStore s a keep else odSet s a keep

/-- A DOM value written whole that fails its chapter's check. -/
def domBad (r : Row) (bs : List Byte) : Bool :=
  match r.id with
  | .partNctFwAllow => decide (bs.length ≠ 48)
  | .attestNonce => decide (bs.length ≠ 32)
  | .partAttestNonce => decide (bs.length ≠ 32)
  | _ => false

/-- A DOM value written whole: a nonce replaces its class's, whose report is to be signed anew (R398). -/
def applyDom (s : State) (c : Caller) (a : Nat) (r : Row) (bs : List Byte) : State :=
  match r.id with
  | .partNctFwAllow => setDom s a bs
  | .attestNonce => modMeas s none fun m => { m with nonces := classSet m.nonces c.cls bs, reports := m.reports.filter fun e => e.1 ≠ c.cls }
  | .partAttestNonce =>
    modMeas s (some (addrPart a)) fun m => { m with nonces := classSet m.nonces c.cls bs, reports := m.reports.filter fun e => e.1 ≠ c.cls }
  | _ => s

end Sys2Proof.Machine
end

