-- ==== Sys2Proof/Machine/Server.lean ====
section
/-!
DEFINITION. The dictionary server (R415 to R419), its transports (R420 to R426) and its counters (R488). A request
is performed by the command of its operation, or of the entry it writes.
-/

namespace Sys2Proof.Machine

/-! ## Frames (Table 16.6) -/

/-- OP of a frame. -/
def frameOp (f : List Byte) : Nat := bits (fieldLE f 0 1) 3 0

/-- The address a frame names. -/
def frameAddr (f : List Byte) : Nat := fieldLE f 2 2 * 256 + fieldLE f 1 1

/-- LENGTH of a frame. -/
def frameLen (f : List Byte) : Nat := fieldLE f 4 2

/-- TAG of a frame. -/
def frameTag (f : List Byte) : Nat := fieldLE f 6 2

/-- The data bytes of a frame. -/
def frameData (f : List Byte) : List Byte := f.drop 8

/-- A request frame. -/
def requestFrame (op a tag : Nat) (data : List Byte) : List Byte :=
  leBytes 1 op ++ leBytes 1 (a % 256) ++ leBytes 2 (a / 256) ++ leBytes 2 data.length ++ leBytes 2 tag ++ data

/-- A WRITE of a value of `n` bytes. -/
def writeFrame (a n v tag : Nat) : List Byte := requestFrame 2 a tag (leBytes n v)

/-- A WRITE that brings a DOM value whole. -/
def domFrame (a tag : Nat) (bs : List Byte) : List Byte := requestFrame 2 a tag (leBytes 4 0 ++ leBytes 4 bs.length ++ bs)

/-- A request's response, with data. -/
def responseTo (f data : List Byte) : List Byte :=
  requestFrame (128 + frameOp f) (frameAddr f) (frameTag f) data

/-- A request's error response. -/
def errorTo (f : List Byte) (code : Nat) : List Byte := requestFrame (192 + frameOp f) (frameAddr f) (frameTag f) (leBytes 4 code)

/-! ## Who asks -/

/-- A request to the SC endpoint (R425). -/
def scEndpoint (c : Caller) : Bool := decide (c.cls = .S) && (decide (c.transport = 2) || decide (c.transport = 3))

/-- A request the OC's server performs; secure firmware and the SC endpoint do not need the OC. -/
def needsOc (c : Caller) : Bool := decide (c.transport ≠ 0) && !scEndpoint c

/-- The module is held in reset (R455, R456): by MOD_RESET_N, or with PERST_MODE high by PERST#. -/
def heldReset (s : State) : Bool := !s.boot.modResetN || (bit s.boot.straps 1 && !s.boot.perstN)

/-- The transport works at all: power is on, the module out of reset, and for class S the SC runs. -/
def transportUp (s : State) (c : Caller) : Bool :=
  s.boot.railsUp && !heldReset s && (needsOc c || s.boot.scUp)

/-- The largest LENGTH of a transport (Table 16.4); secure firmware has none. -/
def maxLen (c : Caller) : Option Nat :=
  match c.transport with
  | 0 => none
  | 1 => some 4096
  | _ => some 1024

/-- The access kind a row gives a class. -/
def Row.access (r : Row) (cls : Cls) : Option Acc :=
  match cls with
  | .S => r.s
  | .O => r.o
  | .P _ => r.p
  | .D => r.d

/-- What class P reaches of an entry (R411). -/
def reaches (s : State) (p a : Nat) (r : Row) : Bool :=
  match r.scope with
  | .part => decide (indexPart (a / 256) = some p)
  | .perPart => decide (a % 256 = p + 1)
  | .perDie => r.p.isSome && (partOf s p).dies.contains (r.k a)
  | .whole => r.p.isSome

/-- Class P reaches something at an index, so that subindex 0 is open to it. -/
def reachesIndex (s : State) (p i : Nat) : Bool :=
  catalogue.any fun r =>
    decide (r.lo ≤ baseIndex i) && decide (baseIndex i ≤ r.hi) &&
      match r.scope with
      | .part => decide (indexPart i = some p)
      | .perPart => true
      | .perDie => r.p.isSome && !(partOf s p).dies.isEmpty
      | .whole => r.p.isSome

/-- Subindex 0 of an index that holds entries (R408). -/
def countEntry (a : Nat) : Bool := decide (a % 256 = 0) && (topSub (a / 256)).isSome

/-- The entries the SC endpoint may address (R425). -/
def scEntry (r : Row) : Bool :=
  decide (r.id = .secFuseState ∨ r.id = .secDebugState ∨ r.id = .secSvn ∨ r.id = .secEntropyState ∨
    r.id = .secDebugChallenge ∨ r.id = .secDebugToken)

/-- A kind permits an operation (R409): ABORT under every kind. -/
def Acc.permits (k : Acc) (op : Nat) : Bool :=
  match op with
  | 4 => true
  | 2 => k = .rw || k = .wo || k = .w1c
  | _ => k ≠ .wo

/-- The request is refused for its caller (R409, R411, R425). -/
def denied (s : State) (c : Caller) (a op : Nat) : Bool :=
  let far := match c.cls, findRow a with
    | .P p, some r => !reaches s p a r
    | .P p, none => !(countEntry a && reachesIndex s p (a / 256))
    | _, _ => false
  far ||
    match findRow a with
    | some r => (scEndpoint c && !scEntry r) || !((r.access c.cls).any fun k => Acc.permits k op)
    | none => scEndpoint c || !Acc.permits .const op

/-! ## Transfers (R417, R418) -/

/-- A transfer's key is its caller, address and tag. -/
def Transfer.isFor (x : Transfer) (c : Caller) (a tag : Nat) : Bool :=
  decide (x.caller = c) && decide (x.addr = a) && decide (x.tag = tag)

/-- The server changed. -/
def modServer (s : State) (f : Server → Server) : State := { s with server := f s.server }

/-- The limits of R417 and R418 that draw BUSY. -/
def transferBusy (s : State) (c : Caller) (a : Nat) (f : List Byte) : Bool :=
  let v := s.server
  let snaps := v.snaps.filter fun x => !Transfer.isFor x c a (frameTag f)
  if frameOp f = 1 then decide (4 ≤ (snaps.filter fun x => x.caller = c).length) || decide (64 ≤ snaps.length)
  else decide (frameOp f = 2) && decide (8 ≤ (frameData f).length) && decide (fieldLE (frameData f) 0 4 = 0) &&
    v.writes.any fun x => decide (x.addr = a) && decide (x.caller ≠ c)

/-- The size check of Table 16.8. -/
def typeBad (a : Nat) (f : List Byte) : Bool :=
  let n := (frameData f).length
  let dom := (findRow a).any fun r => r.ty = .dom
  match frameOp f with
  | 2 => if dom then decide (n < 8) else decide (n ≠ ((findRow a).map fun r => r.ty.bytes).getD 1)
  | 3 => !dom || decide (n ≠ 8)
  | _ => decide (n ≠ 0)

/-- What the checks of a frame before its entry's own say (Table 16.8): a code, or none. -/
def frameCode (s : State) (c : Caller) (f : List Byte) : Option Nat :=
  let b := fieldLE f 0 1
  let a := frameAddr f
  let op := frameOp f
  let isP := match c.cls with
    | .P _ => true
    | _ => false
  if f.length ≠ 8 + frameLen f ∨ bits b 5 4 ≠ 0 ∨ bit b 7 ∨ op = 0 ∨ 4 < op then some 1
  else if (maxLen c).any fun m => m < frameLen f then some 2
  else if (findRow a).any (fun r => r.ty = .dom) && transferBusy s c a f then some 3
  else if !isP && (findRow a).isNone && !countEntry a then some 4
  else if denied s c a op then some 5
  else none

/-! ## Answers -/

/-- What comes of a request: a response with data, an error, or nothing yet. -/
inductive Answer where
  | ok (data : List Byte)
  | err (code : Nat)
  | wait
  deriving DecidableEq, Repr

/-- What published standards decide of a value written: the firmware image an image's bytes are, and whether a debug
token's signature verifies. -/
structure Verdict where
  img : FwImage
  sigOk : Bool
  deriving DecidableEq, Repr

/-- READ (R416, R417): a report not signed yet is waited for. -/
def readEntry (s : State) (c : Caller) (f : List Byte) : State × Answer :=
  let a := frameAddr f
  match findRow a with
  | none => (s, .ok (leBytes 1 ((topSub (a / 256)).getD 0)))
  | some r =>
    match r.ty with
    | .dom =>
      if reportDue s c.cls a r then (modServer s fun v => { v with waitReports := v.waitReports ++ [(c, f)] }, .wait)
      else
        let d := domValue s c.cls a r
        let x : Transfer := { caller := c, addr := a, tag := frameTag f, total := d.1.length, data := d.1 }
        (modServer d.2 fun v => { v with snaps := v.snaps.filter (fun y => !Transfer.isFor y c a (frameTag f)) ++ [x] },
          .ok (leBytes 4 d.1.length))
    | .vis => (s, .ok (visValue r))
    | _ =>
      let v := entryValue s c.cls a r
      let s1 := if openEntry r then (fresh s).2 else s
      let s2 := if r.access c.cls = some .rc then odSet s1 a 0 else s1
      (s2, .ok (leBytes r.ty.bytes v))

/-- READ_SEGMENT (R417). -/
def readSeg (s : State) (c : Caller) (f : List Byte) : State × Answer :=
  let a := frameAddr f
  let off := fieldLE (frameData f) 0 4
  let cnt := fieldLE (frameData f) 4 4
  match s.server.snaps.find? fun x => Transfer.isFor x c a (frameTag f) with
  | some x =>
    if x.total ≤ off then (s, .err 7)
    else
      let n := min cnt (x.total - off)
      (s, .ok (slice x.data off (min n ((maxLen c).getD n))))
  | none =>
    if s.server.aborted.any fun x => Transfer.isFor x c a (frameTag f) then
      (modServer s fun v => { v with aborted := v.aborted.filter fun x => !Transfer.isFor x c a (frameTag f) }, .err 9)
    else (s, .err 7)

/-- ABORT (R416). -/
def abortTransfer (s : State) (c : Caller) (f : List Byte) : State × Answer :=
  let out := fun (l : List Transfer) => l.filter fun x => !Transfer.isFor x c (frameAddr f) (frameTag f)
  (modServer s fun v => { v with snaps := out v.snaps, writes := out v.writes, aborted := out v.aborted }, .ok [])

/-- The slots of one image. -/
def fwSlots (s : State) (oc : Bool) : FwSlots := if oc then s.nv.oc else s.nv.sc

/-- The state with an image's slots set. -/
def setSlots (s : State) (oc : Bool) (x : FwSlots) : State :=
  if oc then { s with nv := { s.nv with oc := x } } else { s with nv := { s.nv with sc := x } }

/-- A slot's image and INVALID mark set. -/
def FwSlots.put (x : FwSlots) (b : Bool) (i : Option FwImage) (bad : Bool) : FwSlots :=
  if b then { x with imageB := i, invalidB := bad } else { x with imageA := i, invalidA := bad }

/-- A segment of a firmware image reaches the inactive slot of the image it names: INVALID until verified (R400,
R418). -/
def programSlot (s : State) (i : FwImage) : State :=
  let x := fwSlots s i.oc
  setSlots s i.oc (x.put (!x.active) (x.at (!x.active)) true)

/-- The SC accepts an image (R400). -/
def imageOk (s : State) (i : FwImage) : Bool := i.sigOk && decide (svnNow s ≤ i.svn)

/-- A firmware image written whole: accepted into its slot, or left INVALID. -/
def endImage (s : State) (i : FwImage) : State × Answer :=
  if imageOk s i then
    let x := fwSlots s i.oc
    (setSlots s i.oc (x.put (!x.active) (some i) false), .ok [])
  else (s, .err 8)

/-- A debug token written whole (R404): it verifies for the next reset, or is refused and recorded. -/
def endToken (s : State) (c : Caller) (bs : List Byte) (sigOk : Bool) : State × Answer :=
  let level := fieldLE bs 80 1
  let good := decide (bs.length = 180) && decide (slice bs 0 48 = leBytes 48 deviceId) &&
    decide (slice bs 48 32 = leBytes 32 (Config.freeValue s.sec.challenge)) && (level = 1 || level = 2) && sigOk
  if good then ({ s with nv := { s.nv with debugNext := level } }, .ok [])
  else (recordOnly (odInc s Ad.secDeniedCount) .debugTokenRefused 6 none 0x1800 (refusalArg c), .err 8)

/-- A DOM value whose last segment has come. -/
def endDom (s : State) (c : Caller) (a : Nat) (r : Row) (bs : List Byte) (v : Verdict) : State × Answer :=
  match r.id with
  | .fwImageWrite => endImage s v.img
  | .secDebugToken => endToken s c bs v.sigOk
  | _ => if domBad r bs then (s, .err 8) else (applyDom s c a r bs, .ok [])

/-- A segment of a DOM value (R418). -/
def writeSegment (s : State) (c : Caller) (f : List Byte) (r : Row) (v : Verdict) : State × Answer :=
  let a := frameAddr f
  let off := fieldLE (frameData f) 0 4
  let total := fieldLE (frameData f) 4 4
  let bs := (frameData f).drop 8
  let mine := fun (x : Transfer) => Transfer.isFor x c a (frameTag f)
  let others := modServer s fun w => { w with writes := w.writes.filter fun x => decide (x.addr ≠ a) }
  let go := fun (got : List Byte) =>
    let t := if r.id = .fwImageWrite then programSlot others v.img else others
    if total < got.length then (others, Answer.err 7)
    else if got.length < total then
      let x : Transfer := { caller := c, addr := a, tag := frameTag f, total := total, data := got }
      (modServer t fun w => { w with writes := w.writes ++ [x] }, Answer.ok [])
    else endDom t c a r got v
  if off = 0 then go bs
  else if s.server.aborted.any mine then
    (modServer s fun w => { w with aborted := w.aborted.filter fun x => !mine x }, .err 9)
  else
    match s.server.writes.find? mine with
    | none => (s, .err 7)
    | some x => if total ≠ x.total ∨ off ≠ x.data.length then (others, .err 7) else go (x.data ++ bs)

/-- WRITE of a value of fixed size (R409, R413): a persistent one is answered after its commit. -/
def writeValue (s : State) (c : Caller) (f : List Byte) (r : Row) : State × Answer :=
  let a := frameAddr f
  let v := leNat (frameData f)
  if valueBad s a r v then (s, .err 8)
  else if r.access c.cls = some .w1c then
    let cur := odGet s a
    (odSet s a (if r.ty = .bool then (if v = 1 then 0 else cur) else cur - (cur &&& v)), .ok [])
  else if r.persist = .persistent then
    (modServer s fun w => { w with store := w.store ++ [⟨c, f, a, v⟩] }, .wait)
  else (applyWrite s c a r v, .ok [])

/-- A cut that R384 refuses: the block. -/
def cutRefused (s : State) (c : Caller) (f : List Byte) : Option Nat :=
  let a := frameAddr f
  if frameOp f = 2 ∧ frameLen f = 4 ∧ (a = Ad.blockClockStop ∨ a = Ad.blockPowerOff) then
    refusedBlock s c.cls a (leNat (frameData f))
  else none

/-- A request performed (R416, R419). -/
def answer (s : State) (c : Caller) (f : List Byte) (v : Verdict) : State × Answer :=
  match frameCode s c f with
  | some code => (s, .err code)
  | none =>
    match cutRefused s c f with
    | some b => (refuseCut s c b, .err 5)
    | none =>
      if typeBad (frameAddr f) f then (s, .err 6)
      else
        match frameOp f, findRow (frameAddr f) with
        | 1, _ => readEntry s c f
        | 3, _ => readSeg s c f
        | 4, _ => abortTransfer s c f
        | _, some r => if r.ty = .dom then writeSegment s c f r v else writeValue s c f r
        | _, none => (s, .err 5)

/-! ## Responses -/

/-- The counters of a response (R488). -/
def countResponse (s : State) (code : Option Nat) : State :=
  let s1 := odInc s Ad.commRequests
  let s2 := if code = some 3 then odInc s1 Ad.commBusy else s1
  if code.isSome then odInc s2 Ad.commErrors else s2

/-- Mailbox page `n`. -/
def pageOf (s : State) (n : Nat) : Page := (tget s.server.pages n).getD {}

/-- The state with a page changed. -/
def modPage (s : State) (n : Nat) (f : Page → Page) : State :=
  modServer s fun v => { v with pages := tset v.pages n (f (pageOf s n)) }

/-- A response kept for the management port, replacing one of its key; the last 256 (R424). -/
def keepResponse (s : State) (c : Caller) (f r : List Byte) : State :=
  let k : Kept := { addr := c.ident / 65536, port := c.ident % 65536, tag := frameTag f, request := f, response := r }
  modServer s fun v =>
    let rest := v.kept.filter fun x => !(decide (x.addr = k.addr) && decide (x.port = k.port) && decide (x.tag = k.tag))
    { v with kept := (rest ++ [k]).drop ((rest ++ [k]).length - 256) }

/-- A response leaves on its transport (R421 to R423). -/
def sendResponse (s : State) (c : Caller) (f r : List Byte) (mtag : Nat) : State :=
  match c.transport with
  | 0 => emit s (.response c r)
  | 1 =>
    let x := pageOf s c.ident
    let s1 := modPage s c.ident fun y => { y with state := if y.state = 3 then 3 else 2, response := r }
    if bit x.vector 15 then emit s1 (.msix (bits x.vector 10 0)) else s1
  | 4 => emit s (.datagram (c.ident / 65536) (c.ident % 65536) r)
  | t => emit s (.mctp { transport := t, sc := scEndpoint c, eid := c.ident, msgTag := mtag, integrity := false, subTypeOk := true,
                         ianaOk := true, frame := f } r)

/-- The MCTP tag of an outstanding request. -/
def tagOf (s : State) (c : Caller) (f : List Byte) : Nat :=
  ((s.server.outstanding.find? fun x => x.1 = c && x.2.1 = f).map (·.2.2)).getD 0

/-- An outstanding request, if it is one, no longer outstanding. -/
def settle (s : State) (c : Caller) (f : List Byte) : State :=
  modServer s fun v => { v with outstanding := v.outstanding.eraseP fun x => x.1 = c && x.2.1 = f }

/-- A request answered: counted, sent, and for the management port kept when the server performed it. -/
def respond (s : State) (c : Caller) (f : List Byte) (x : Answer) (keep : Bool) : State :=
  let put := fun (r : List Byte) (code : Option Nat) =>
    let t := settle (sendResponse (countResponse s code) c f r (tagOf s c f)) c f
    if keep && decide (c.transport = 4) then keepResponse t c f r else t
  match x with
  | .ok d => put (responseTo f d) none
  | .err e => put (errorTo f e) (some e)
  | .wait => s

/-- A request reaches the server and is performed; while the OC is not ready its requests are answered BUSY (R426). -/
def performWith (s : State) (c : Caller) (f : List Byte) (v : Verdict) : State :=
  if !transportUp s c then s
  else if needsOc c && !s.server.ready then respond s c f (.err 3) false
  else
    let x := answer s c f v
    respond x.1 c f x.2 true

/-- A verdict the manual leaves to published standards, where the command does not carry it. -/
def freeVerdict (s : State) : Verdict :=
  let x := fun (i : Nat) => Config.freeValue (s.fresh + i)
  { img := { oc := (x 0).testBit 0, sigOk := (x 1).testBit 0, svn := x 2, version := x 3, digest := x 4 }, sigOk := (x 5).testBit 0 }

/-- A request performed whose value needs no verdict, or one not carried by the command. -/
def perform (s : State) (c : Caller) (f : List Byte) : State :=
  if (findRow (frameAddr f)).any fun r => r.id = .fwImageWrite ∨ r.id = .secDebugToken then
    performWith { s with fresh := s.fresh + 6 } c f (freeVerdict s)
  else performWith s c f (freeVerdict s)

/-- The request is a WRITE to a DOM entry. -/
def domWrite (f : List Byte) : Bool := decide (frameOp f = 2) && (findRow (frameAddr f)).any fun r => r.ty = .dom

/-! ## The rows of the operations -/

/-- READ (R416); frames with a reserved OP are answered here too. -/
def execRead (c : Caller) (frame : List Byte) (s : State) : Res :=
  if 2 ≤ frameOp frame ∧ frameOp frame ≤ 4 then .next s else .next (perform s c frame)

/-- READ_SEGMENT (R416). -/
def execReadSegment (c : Caller) (frame : List Byte) (s : State) : Res :=
  if frameOp frame = 3 then .next (perform s c frame) else .next s

/-- ABORT (R416). -/
def execAbort (c : Caller) (frame : List Byte) (s : State) : Res :=
  if frameOp frame = 4 then .next (perform s c frame) else .next s

/-- DOM_WRITE_SEGMENT (R418). -/
def execDomWriteSegment (c : Caller) (frame : List Byte) (s : State) : Res :=
  if domWrite frame then .next (perform s c frame) else .next s

/-- REGISTER_WRITE (R414). -/
def execRegisterWrite (c : Caller) (frame : List Byte) (s : State) : Res :=
  if frameOp frame = 2 ∧ !domWrite frame then .next (perform s c frame) else .next s

/-- STORE_COMMIT (R413): the oldest persistent write is in the store and answered, or fails. -/
def execStoreCommit (ok : Bool) (s : State) : Res :=
  match s.server.store with
  | [] => .next s
  | x :: t =>
    let s1 := modServer s fun v => { v with store := t }
    if ok then
      let s2 := match findRow x.addr with
        | some r => applyWrite s1 x.caller x.addr r x.value
        | none => s1
      .next (respond s2 x.caller x.frame (.ok []) true)
    else .next (respond (recordOnly s1 .dictStoreFailed 0 none 0x1900 0) x.caller x.frame (.err 10) true)

/-- SNAPSHOT_EXPIRY (R417). -/
def execSnapshotExpiry (c : Caller) (index sub tag : Nat) (s : State) : Res :=
  .next (modServer s fun v => { v with snaps := v.snaps.filter fun x => !Transfer.isFor x c (index * 256 + sub) tag })

/-- WRITE_TRANSFER_EXPIRY (R418): the transfer's next segment draws ABORTED. -/
def execWriteTransferExpiry (c : Caller) (index sub tag : Nat) (s : State) : Res :=
  let mine := fun (x : Transfer) => Transfer.isFor x c (index * 256 + sub) tag
  .next (modServer s fun v =>
    { v with writes := v.writes.filter fun x => !mine x
             aborted := v.aborted ++ v.writes.filter mine })

/-! ## Transports -/

/-- The class of a mailbox page (Table 16.4). -/
def pageCls (page : Nat) : Cls := if page = 0 then .O else .P (page - 1)

/-- A request accepted by its transport waits for the server. -/
def submit (s : State) (c : Caller) (f : List Byte) (mtag : Nat) : State :=
  modServer s fun v => { v with outstanding := v.outstanding ++ [(c, f, mtag)] }

/-- A request its transport's hardware answers BUSY. -/
def answerBusy (s : State) (c : Caller) (f : List Byte) (mtag : Nat) : State := respond (submit s c f mtag) c f (.err 3) false

/-- MAILBOX_DOORBELL (R420, R421): the host's doorbell, with the request frame and the VECTOR it has written on the page. -/
def execMailboxDoorbell (page : Nat) (frame : List Byte) (vector : Nat) (s0 : State) : Res :=
  let c : Caller := { cls := pageCls page, transport := 1, ident := page }
  let s := modPage s0 page fun y => { y with vector := bits vector 15 15 * 2 ^ 15 + bits vector 10 0 }
  let x := pageOf s page
  if !transportUp s0 c then .next s0
  else if x.state = 1 then .next (modPage s page fun y => { y with overrun := (y.overrun + 1) % 2 ^ 32 })
  else if x.state = 3 then .next (answerBusy s c frame 0)
  else
    let s1 := modPage s page fun y => { y with state := 1, request := frame }
    if s.server.ready then .next (submit s1 c frame 0) else .next (answerBusy s1 c frame 0)

/-- MCTP_MESSAGE (R422): accepted, answered BUSY, or dropped and counted. -/
def execMctpMessage (m : Mctp) (s : State) : Res :=
  let c : Caller := { cls := if m.sc then .S else .O, transport := m.transport, ident := m.eid }
  let here := s.server.outstanding.filter fun x => x.1.cls = c.cls && x.1.transport = c.transport
  if !transportUp s c ∨ (m.transport ≠ 2 ∧ m.transport ≠ 3) then .next s
  else if m.integrity || !m.subTypeOk || !m.ianaOk then .next (odInc s Ad.commErrors)
  else if (needsOc c && !s.server.ready) || decide (8 ≤ (here.filter fun x => x.1.ident = m.eid).length) || decide (32 ≤ here.length) then
    .next (answerBusy s c m.frame m.msgTag)
  else .next (submit s c m.frame m.msgTag)

/-- MGMT_DATAGRAM (R423, R424): dropped and counted, answered from a kept response, answered BUSY, or accepted. -/
def execMgmtDatagram (d : Datagram) (s : State) : Res :=
  let c : Caller := { cls := if odGet s Ad.commEthClass = 1 then .O else .D, transport := 4, ident := d.addr * 65536 + d.port }
  let mask := odGet s Ad.commEthAllowMask
  let here := s.server.outstanding.filter fun x => x.1.transport = 4
  if !transportUp s c ∨ d.dstPort ≠ atReset s Ad.commEthUdpPort then .next s
  else if d.frame.length ≠ 8 + frameLen d.frame ∨ d.addr &&& mask ≠ odGet s Ad.commEthAllowAddr &&& mask ∨
      atReset s Ad.commEthIpv4Addr = 0 then .next (odInc s Ad.commEthDropped)
  else if !s.server.ready then .next (answerBusy s c d.frame 0)
  else
    match s.server.kept.find? fun k => k.addr = d.addr && k.port = d.port && k.tag = frameTag d.frame && k.request = d.frame with
    | some k =>
      let code := if bit (fieldLE k.response 0 1) 6 then some (fieldLE k.response 8 4) else none
      .next (emit (odInc (countResponse s code) Ad.commReplays) (.datagram d.addr d.port k.response))
    | none =>
      if 16 ≤ (here.filter fun x => x.1.ident / 65536 = d.addr).length ∨ 64 ≤ here.length then .next (answerBusy s c d.frame 0)
      else .next (submit s c d.frame 0)

/-- KEPT_RESPONSE_EXPIRY (R424). -/
def execKeptResponseExpiry (addr port tag : Nat) (s : State) : Res :=
  .next (modServer s fun v =>
    { v with kept := v.kept.filter fun k => !(decide (k.addr = addr) && decide (k.port = port) && decide (k.tag = tag)) })

/-- MGMT_ARP_ICMP (R423): the OC answers for the port's address. -/
def execMgmtArpIcmp (arp : Bool) (target : Nat) (s : State) : Res :=
  if s.server.ready ∧ target ≠ 0 ∧ target = atReset s Ad.commEthIpv4Addr then .next (emit s (.mgmt arp)) else .next s

/-- EID_ASSIGNMENT (R422). -/
def execEidAssignment (binding : Nat) (sc : Bool) (eid : Nat) (s : State) : Res :=
  .next (modServer s fun v => { v with eids := tset v.eids (2 * binding + if sc then 1 else 0) eid })

/-! ## Writes with a row of their own -/

/-- CCLK_WRITE (R31). -/
def execCclkWrite (c : Caller) (tag die mhz : Nat) (s : State) : Res := .next (perform s c (writeFrame (Ad.cdCclkMhz die) 2 mhz tag))

/-- FORM (R359). -/
def execForm (c : Caller) (tag p : Nat) (s : State) : Res := .next (perform s c (writeFrame (Ad.partCommand p) 1 1 tag))

/-- TEARDOWN (R361). -/
def execTeardown (c : Caller) (tag p : Nat) (s : State) : Res := .next (perform s c (writeFrame (Ad.partCommand p) 1 2 tag))

/-- REPLACE_DIE (R362). -/
def execReplaceDie (c : Caller) (tag p : Nat) (s : State) : Res := .next (perform s c (writeFrame (Ad.partCommand p) 1 3 tag))

/-- QUEUE_ENABLE (R363). -/
def execQueueEnable (c : Caller) (tag p q cfg : Nat) (s : State) : Res :=
  .next (perform s c (writeFrame (Ad.partQueueConfig p q) 4 cfg tag))

/-- BLOCK_CLOCK_STOP (R384). -/
def execBlockClockStop (c : Caller) (tag value : Nat) (s : State) : Res := .next (perform s c (writeFrame Ad.blockClockStop 4 value tag))

/-- BLOCK_POWER_OFF (R384). -/
def execBlockPowerOff (c : Caller) (tag value : Nat) (s : State) : Res := .next (perform s c (writeFrame Ad.blockPowerOff 4 value tag))

/-- SEC_BLOCK_OWNER_WRITE (R382). -/
def execSecBlockOwnerWrite (c : Caller) (tag value : Nat) (s : State) : Res :=
  .next (perform s c (writeFrame Ad.secBlockOwner 4 value tag))

/-- LOAD_TARGET_WRITE (R395). -/
def execLoadTargetWrite (c : Caller) (tag p value : Nat) (s : State) : Res :=
  .next (perform s c (writeFrame (Ad.partLoadTarget p) 8 value tag))

/-- ATTEST_NONCE (R398). -/
def execAttestNonce (c : Caller) (tag : Nat) (p : Option Nat) (nonce : List Byte) (s : State) : Res :=
  .next (perform s c (domFrame ((p.map Ad.partAttestNonce).getD Ad.attestNonce) tag nonce))

/-- FW_IMAGE_WRITE (R400). -/
def execFwImageWrite (c : Caller) (frame : List Byte) (img : FwImage) (s : State) : Res :=
  if domWrite frame ∧ frameAddr frame = Ad.fwImageWrite then .next (performWith s c frame ⟨img, false⟩) else .next s

/-- FW_ACTIVATE_OC (R400). -/
def execFwActivateOc (c : Caller) (tag : Nat) (s : State) : Res := .next (perform s c (writeFrame Ad.fwActivate 1 1 tag))

/-- FW_ACTIVATE_AT_RESET (R400). -/
def execFwActivateAtReset (c : Caller) (tag : Nat) (s : State) : Res := .next (perform s c (writeFrame Ad.fwActivate 1 2 tag))

/-- FW_RAISE_SVN (R400). -/
def execFwRaiseSvn (c : Caller) (tag : Nat) (s : State) : Res := .next (perform s c (writeFrame Ad.fwActivate 1 3 tag))

/-- DEBUG_TOKEN (R404). -/
def execDebugToken (c : Caller) (tag : Nat) (token : List Byte) (sigOk : Bool) (s : State) : Res :=
  .next (performWith s c (domFrame Ad.secDebugToken tag token) ⟨(freeVerdict s).img, sigOk⟩)

/-- ANEM_SELECT_WRITE (R431). -/
def execAnemSelectWrite (c : Caller) (tag k value : Nat) (s : State) : Res := .next (perform s c (writeFrame (Ad.anemSelect k) 4 value tag))

/-- COMM_RESTORE_DEFAULTS (R432). -/
def execCommRestoreDefaults (c : Caller) (tag value : Nat) (s : State) : Res :=
  .next (perform s c (writeFrame Ad.commRestoreDefaults 1 value tag))

/-- ERR_PART_RESET (R452). -/
def execErrPartReset (c : Caller) (tag value : Nat) (s : State) : Res := .next (perform s c (writeFrame Ad.errPartReset 1 value tag))

/-- ERR_SPARE_SWAP (R440). -/
def execErrSpareSwap (c : Caller) (tag value : Nat) (s : State) : Res := .next (perform s c (writeFrame Ad.errSpareSwap 2 value tag))

/-- ERR_GROUP_RETIRE (R441). -/
def execErrGroupRetire (c : Caller) (tag value : Nat) (s : State) : Res := .next (perform s c (writeFrame Ad.errGroupRetire 1 value tag))

/-- ALMANAC_WINDOW_READ (R450). -/
def execAlmanacWindowRead (c : Caller) (tag : Nat) (s : State) : Res := .next (perform s c (requestFrame 1 Ad.almWindow tag []))

/-- ALM_CLEAR (R451). -/
def execAlmClear (c : Caller) (tag value : Nat) (s : State) : Res := .next (perform s c (writeFrame Ad.almClear 1 value tag))

/-- MEM_GROUP_RETRAIN (R461). -/
def execMemGroupRetrain (c : Caller) (tag value : Nat) (s : State) : Res := .next (perform s c (writeFrame Ad.memGroupRetrain 1 value tag))

/-- A MARGIN_REQUEST of a target, instance and mode (Table 18.5). -/
def marginValue (target inst mode : Nat) : Nat := target * 2 ^ 56 + inst % 65536 * 2 ^ 32 + mode

/-- MARGIN_EDGES (R465). -/
def execMarginEdges (c : Caller) (tag inst : Nat) (s : State) : Res :=
  .next (perform s c (writeFrame Ad.marginRequest 8 (marginValue 1 inst 0) tag))

/-- MARGIN_MAP (R465). -/
def execMarginMap (c : Caller) (tag inst : Nat) (s : State) : Res :=
  .next (perform s c (writeFrame Ad.marginRequest 8 (marginValue 1 inst 1) tag))

/-- MARGIN_PCIE_LANE (R467). -/
def execMarginPcieLane (c : Caller) (tag inst : Nat) (s : State) : Res :=
  .next (perform s c (writeFrame Ad.marginRequest 8 (marginValue 2 inst 0) tag))

/-- PIN_FUNCTION_WRITE (R471). -/
def execPinFunctionWrite (c : Caller) (tag pin fn : Nat) (s : State) : Res :=
  .next (perform s c (writeFrame (Ad.pinFunction pin) 1 fn tag))

end Sys2Proof.Machine
end

