-- ==== Sys2Proof/Machine/Security.lean ====
section
/-!
DEFINITION. Entropy (R388), the load window (R395, R428), attestation reports (R398), SPDM (R399), and the OC's
activation on a new image (R400, R458).
-/

namespace Sys2Proof.Machine

/-! ## Entropy (R388) -/

/-- ENTROPY_HEALTH_FAIL (R388): from now until module reset no key is made. -/
def execEntropyHealthFail (s : State) : Res :=
  .next (recordOnly (odSet s Ad.secEntropyState 1) .keystoreEntropyFail 6 none 0x1800 0)

/-- DRBG_RESEED (R388): after 65,536 generate requests. -/
def execDrbgReseed (s : State) : Res :=
  if 65536 ≤ s.sec.drbg then .next { s with sec := { s.sec with drbg := 0 } } else .next s

/-! ## The load window (R395, R428) -/

/-- LOAD_WRITE (R395, R428): bytes at the next offset are stored and hashed; a write at another offset ends the load with
BYPASS; with no load in progress, or of no multiple of 4 B up to 512, it is discarded. A write to where a move or a maintenance
operation is under way waits on the host port (R194, R232). -/
def execLoadWrite (p offset : Nat) (data : List Byte) (s : State) : Res :=
  match (partOf s p).load with
  | none => .next s
  | some l =>
    if !s.boot.pcieUp ∨ data = [] ∨ 512 < data.length ∨ data.length % 4 ≠ 0 then .next s
    else if offset ≠ l.next % 2 ^ 24 then .next (odOr (endLoad s p) (Ad.partMeasReason p) 1)
    else if farWaits s p (l.target + l.next) data.length then .next s
    else .next (loadBytes s p l data)

/-! ## Reports (R398, Table 15.5) -/

/-- Bytes 256 to 327 of a partition's report; `main` tells MAIN from FALLBACK. -/
def reportTail (s : State) (p : Nat) (main : Bool) : List Byte :=
  let m := (partOf s p).meas
  leBytes 2 (formed s p (Ad.partCdMask p)) ++ leBytes 2 (formed s p (Ad.partGroupMask p)) ++
    leBytes 4 (formed s p (Ad.partMediaExclusive p)) ++ leBytes 4 (formed s p (Ad.partPortExclusive p)) ++
    leBytes 1 (if (partOf s p).confidential then 1 else 0) ++ leBytes 1 0 ++ leBytes 2 (odGet s (Ad.partLastTenant p)) ++
    leBytes 4 (if main then m.log.length else 0) ++ leBytes 4 0 ++ leBytes 48 (if main then m.digest else 0)

/-- Bytes 0 to 7 of a report. -/
def reportHead (s : State) (p : Option Nat) : List Byte :=
  let reason := (p.map fun q => odGet s (Ad.partMeasReason q) % 4).getD 0
  leBytes 2 1 ++ leBytes 1 (if reason = 0 then 0 else 1) ++ leBytes 1 (p.getD 0xFF) ++ leBytes 4 reason

/-- Bytes 256 to 327 of a report. -/
def reportPartBytes (s : State) (p : Option Nat) : List Byte :=
  match p with
  | none => List.replicate 72 0
  | some q => reportTail s q (decide (odGet s (Ad.partMeasReason q) % 4 = 0))

/-- FW_SLOT bits of a report: OC in bit 1, SC in bit 0, 0 for slot A. -/
def slotBits (s : State) : Nat := (if s.nv.sc.active then 1 else 0) + if s.nv.oc.active then 2 else 0

/-- The 384 bytes of a report its signature covers. -/
def reportBody (s : State) (p : Option Nat) (nonce : List Byte) : List Byte :=
  reportHead s p ++ padTo 32 nonce ++ leBytes 48 deviceId ++ leBytes 48 (Config.shipped 0) ++
    leBytes 48 (imageDigest s.nv.sc false) ++ leBytes 48 (imageDigest s.nv.oc true) ++ leBytes 4 (fwVersion s) ++
    leBytes 2 s.nv.level ++ leBytes 2 (slotBits s) ++ leBytes 4 fuseState ++ leBytes 4 (odGet s Ad.secDebugState) ++
    leBytes 4 s.nv.powerCycles ++ leBytes 4 0 ++ reportPartBytes s p ++ leBytes 8 (s.nv.opMs / 1000 % 2 ^ 40) ++ List.replicate 48 0

/-- A signed report. -/
def signedReport (s : State) (p : Option Nat) (nonce : List Byte) : List Byte :=
  let b := reportBody s p nonce
  b ++ signAk s b

/-- The entry a report is read from. -/
def reportAddr (p : Option Nat) : Nat := (p.map Ad.partAttestReport).getD Ad.attestReport

/-- Reads that waited for a class's report answered. -/
def answerWaiting (s : State) (cls : Cls) (p : Option Nat) : State :=
  let mine := fun (x : Caller × List Byte) => decide (x.1.cls = cls) && decide (frameAddr x.2 = reportAddr p)
  let xs := s.server.waitReports.filter mine
  xs.foldl (fun t x => performWith t x.1 x.2 (freeVerdict t))
    (modServer s fun v => { v with waitReports := v.waitReports.filter fun x => !mine x })

/-- ATTEST_REPORT_SIGNED (R398): the report over a class's latest nonce. -/
def execAttestReportSigned (cls : Cls) (p : Option Nat) (s : State) : Res :=
  let m := measOf s p
  match classGet m.nonces cls, classGet m.reports cls with
  | some n, none =>
    if s.boot.scUp then
      let s1 := modMeas s p fun x => { x with reports := classSet x.reports cls (signedReport s p n) }
      .next (answerWaiting s1 cls p)
    else .next s
  | _, _ => .next s

/-! ## SPDM (R399) -/

/-- The SC answers at its endpoint. -/
def scAnswers (s : State) : Bool := s.boot.railsUp && !heldReset s && s.boot.scUp

/-- An SPDM answer leaves: its code and its body, which begins with the two parameter bytes (PRESUMED of DSP0274, log 55). -/
def spdmReply (s : State) (code : Nat) (body : List Byte) : State := if scAnswers s then emit s (.spdm code body) else s

/-- ERROR with UnsupportedRequest, for a request's code. -/
def spdmError (s : State) (code : Nat) : State := spdmReply s 0x7F [0x07, BitVec.ofNat 8 code]

/-- GET_VERSION (R16, R399): SPDM 1.2 alone. -/
def execGetVersion (s : State) : Res := .next (spdmReply s 0x04 [0, 0, 0, 1, 0x00, 0x12])

/-- GET_CAPABILITIES (R399): certificates, and measurements signed on request; the response time and the transfer sizes are
open values. -/
def execGetCapabilities (s : State) : Res :=
  let f := fresh s
  .next (spdmReply f.2 0x61 (leBytes 3 0 ++ leBytes 1 f.1 ++ leBytes 2 0 ++ leBytes 4 0x12 ++ leBytes 8 (f.1 / 256)))

/-- NEGOTIATE_ALGORITHMS (R16, R399): ECDSA P-384 and SHA-384 alone, measurements as raw bit streams. -/
def execNegotiateAlgorithms (s : State) : Res :=
  .next (spdmReply s 0x63 (leBytes 2 0 ++ leBytes 2 36 ++ leBytes 2 1 ++ leBytes 4 1 ++ leBytes 4 0x80 ++ leBytes 4 2 ++ leBytes 16 0))

/-- The chain as SPDM frames it: its length, the root certificate's digest, the certificates. -/
def spdmChain (s : State) : List Byte :=
  leBytes 4 (52 + (certChain s).length) ++ sha48 Config.rootCert ++ certChain s

/-- GET_DIGESTS (R399): of slot 0. -/
def execGetDigests (s : State) : Res := .next (spdmReply s 0x01 ([0, 1] ++ sha48 (spdmChain s)))

/-- GET_CERTIFICATE (R387, R399): a slice of the chain of slot 0, the only slot offered. -/
def execGetCertificate (slot offset len : Nat) (s : State) : Res :=
  let c := spdmChain s
  let n := min len (c.length - offset)
  if slot = 0 ∧ offset < c.length then
    .next (spdmReply s 0x02 (leBytes 2 0 ++ leBytes 2 n ++ leBytes 2 (c.length - offset - n) ++ slice c offset n))
  else .next (spdmError s 0x82)

/-- A measurement block's value (R399); none for an index not offered. -/
def spdmBlock (s : State) (i : Nat) : Option (List Byte) :=
  match i with
  | 1 => some (leBytes 48 (Config.shipped 0))
  | 2 => some (leBytes 48 (imageDigest s.nv.sc false))
  | 3 => some (leBytes 48 (imageDigest s.nv.oc true))
  | 4 => some (leBytes 4 fuseState ++ leBytes 4 (odGet s Ad.secDebugState))
  | _ =>
    let p := i - 0x10
    if 0x10 ≤ i ∧ p < 16 ∧ !inState s p .absent then some (reportHead s (some p) ++ reportPartBytes s (some p)) else none

/-- The DMTF type of a block (PRESUMED, log 55): immutable ROM, mutable firmware, hardware configuration, else manifest. -/
def dmtfType (i : Nat) : Nat := match i with | 1 => 0 | 2 => 1 | 3 => 1 | 4 => 2 | _ => 4

/-- A block in the DMTF measurement form, as a raw bit stream. -/
def dmtfBlock (i : Nat) (v : List Byte) : List Byte :=
  leBytes 1 i ++ leBytes 1 1 ++ leBytes 2 (v.length + 3) ++ leBytes 1 (128 + dmtfType i) ++ leBytes 2 v.length ++ v

/-- The indices offered now. -/
def spdmIndices (s : State) : List Nat := (List.range 0x20).filter fun i => (spdmBlock s i).isSome

/-- The blocks a GET_MEASUREMENTS index asks for: 0 none of them, 0xFF every one, else one (PRESUMED of DSP0274, log 55). -/
def spdmAsked (s : State) (index : Nat) : Option (List Nat) :=
  if index = 0 then some []
  else if index = 0xFF then some (spdmIndices s)
  else if (spdmBlock s index).isSome then some [index] else none

/-- The body of MEASUREMENTS up to its signature, with a nonce. -/
def spdmBody (s : State) (index : Nat) (xs : List Nat) (nonce : Nat) : List Byte :=
  let rec_ := xs.flatMap fun i => dmtfBlock i ((spdmBlock s i).getD [])
  leBytes 2 (if index = 0 then (spdmIndices s).length else 0) ++ leBytes 1 xs.length ++ leBytes 3 rec_.length ++ rec_ ++
    leBytes 32 nonce ++ leBytes 2 0

/-- GET_MEASUREMENTS (R399): signed with the AK when asked; the responder's nonce is an open value. -/
def execGetMeasurements (index : Nat) (signIt : Bool) (s : State) : Res :=
  match spdmAsked s index with
  | some xs =>
    let f := fresh s
    let b := spdmBody s index xs f.1
    .next (spdmReply f.2 0x60 (if signIt then b ++ signAk s b else b))
  | none => .next (spdmError s 0xE0)

/-- SPDM_UNSUPPORTED (R399): every request of another code. -/
def execSpdmUnsupported (code : Nat) (s : State) : Res :=
  if [0x81, 0x82, 0x84, 0xE0, 0xE1, 0xE3].contains code then .next s else .next (spdmError s code)

/-! ## The OC on a new image (R400, R426, R458) -/

/-- No partition is STARTING, RUNNING or SWITCHING. -/
def idlePoint (s : State) : Bool :=
  (List.range 16).all fun p => !(inState s p .starting || inState s p .running || inState s p .switching)

/-- An image that the SC accepts, or the one it was shipped with while SEC_SVN allows it (R400, R458). -/
def slotGood (s : State) (oc b : Bool) : Bool :=
  let x := fwSlots s oc
  !(if b then x.invalidB else x.invalidA) &&
    match x.at b with
    | some i => i.sigOk && decide (i.oc = oc) && decide (svnNow s ≤ i.svn)
    | none => s.nv.svn.isNone || decide (svnNow s ≤ Config.shipped (if oc then 5 else 4))

/-- The open transfers of the OC's callers end (R426). -/
def endTransfers (s : State) : State :=
  modServer s fun v =>
    let mine := fun (x : Transfer) => needsOc x.caller
    { v with
      snaps := v.snaps.filter fun x => !mine x
      writes := v.writes.filter fun x => !mine x
      aborted := v.aborted ++ (v.snaps ++ v.writes).filter mine }

/-- OC_ACTIVATION (R400): at the partition-idle point the OC restarts on its other slot. -/
def execOcActivation (s : State) : Res :=
  if !(s.boot.ocPending && s.server.ready && idlePoint s) then .next s
  else
    let s1 := { s with boot := { s.boot with ocPending := false } }
    let x := s.nv.oc
    if !slotGood s true (!x.active) then .next s1
    else
      let s2 := endTransfers (setSlots s1 true { x with active := !x.active })
      .next { s2 with server := { s2.server with ready := false }
                      boot := { s2.boot with ocRestart := true } }

/-- A slot marked INVALID. -/
def FwSlots.spoil (x : FwSlots) (b : Bool) : FwSlots := x.put b (x.at b) true

/-- OC_RESTART_TIMEOUT (R458): the SC restarts the previous slot and marks the new one INVALID. -/
def execOcRestartTimeout (s : State) : Res :=
  if !s.boot.ocRestart then .next s
  else
    let x := s.nv.oc
    .next (setSlots s true { x.spoil x.active with active := !x.active })

end Sys2Proof.Machine
end

