-- ==== Sys2Proof/Machine/Recovery.lean ====
section
/-!
DEFINITION. The recovery actions of Table 17.4 carried out (R438 to R442), their completion (R445), and the Almanac's
commits (R448, R451). A fault starts or queues its action where it is detected (Machine/Errors.lean); the commands
here are the actions' own steps.
-/

namespace Sys2Proof.Machine

/-! ## The sequencer (R438) -/

/-- The running action changed. -/
def modRunning (s : State) (f : Action → Action) : State :=
  { s with recovery := { s.recovery with running := s.recovery.running.map f } }

/-- The running action's steps carried out. -/
def donePerforming (s : State) : State := modRunning s fun a => { a with performed := true }

/-- The running action, when it is of a kind and its steps are still to be carried out. -/
def toPerform (s : State) (kind : Nat) : Option Action := s.recovery.running.filter fun a => a.kind = kind && !a.performed

/-- The queue's head starts. -/
def startNext (s : State) : State :=
  match s.recovery.queue with
  | [] => showRecovery s
  | a :: t => startAction { s with recovery := { s.recovery with queue := t } } a

/-- The running action ends with its DONE record, its partitions IDLE again (R439), and the next starts (R445). -/
def finishAction (s : State) (a : Action) : State :=
  let s1 := actionRec s a 1
  let s2 := (a.parts.filter fun p => inState s p .resetting).foldl (fun t p => setState t p .idle) s1
  startNext { s2 with recovery := { s2.recovery with running := none } }

/-! ## The steps of Table 17.5 -/

/-- A partition brought to rest and cleared: its job ended, its ways cleaned, its dies cleared. -/
def stopPart (s : State) (p status code wher : Nat) : State :=
  let s1 := cleanWays (endJob s p status code wher true) p
  modPart (clearStratus (clearCells s1 p) p) p fun q => { q with switch := none, scrubs := [] }

/-- The spares of the die of a cell are used up. -/
def noSpare (s : State) (g : Nat) : Bool := decide (sparesLeft s (g / 80) = 0)

/-- The code of a job that a containment ends: DIE_RETIRED when a swap is due and the die has no spare (R440). -/
def containCode (s : State) (a : Action) : Nat :=
  if a.swap.any (noSpare s) then Code.dieRetired.value else a.code

/-- PARTITION_RESET of a partition (R439): the job ends FAILED with the error that started it, else ABORTED; every parked
job ends ABORTED. -/
def resetPart (s : State) (p code wher : Nat) : State :=
  let reset := Code.partitionReset.value
  let s1 := if code = 0 then stopPart s p 3 reset 0 else stopPart s p 1 code wher
  odOr (abortAllParked s1 p reset) (Ad.errPartStatus p) 8

/-- CONTAINMENT (R435, R439): the job ends FAILED with the error's code, parked jobs stay, and the notification
follows. -/
def execContainment (p : Nat) (s : State) : Res :=
  match toPerform s 1 with
  | none => .next s
  | some a =>
    if !a.parts.contains p then .next s
    else .next (donePerforming (notify (if resettable s p then stopPart s p 1 (containCode s a) a.wher else s)))

/-- PARTITION_RESET (R439). -/
def execPartitionReset (p : Nat) (s : State) : Res :=
  match toPerform s 2 with
  | none => .next s
  | some a =>
    if !a.parts.contains p then .next s
    else
      let s1 := if resettable s p then resetPart s p (containCode s a) a.wher else s
      .next (donePerforming (if a.code = 0 then s1 else notify s1))

/-! ## SPARE_SWAP (R440, R19) -/

/-- The physical cell a logical one runs on (R13): the fenced-off cells of a die have their spares, 80 upward. -/
def physOf (s : State) (g : Nat) : Nat := (tget s.nv.phys g).getD (84 * (g / 80) + g % 80)

/-- A compute die retired whole, and its partition's running job ended (R19, R440). -/
def retireDie (s : State) (d : Nat) : State :=
  let p := dieOwner s d
  let s1 := report { s with nv := { s.nv with retired := addTo s.nv.retired d } }
    { code := Code.dieRetired.value, cls := 3, part := p, unit := d * 256, tag := (p.map (jobTag s)).getD 0 }
  match p with
  | none => s1
  | some q => odOr (endJob s1 q 1 Code.dieRetired.value 0 true) (Ad.errPartStatus q) 128

/-- A cell fenced off, and a cleared spare of its die given its number; without one the die is retired. -/
def swapIn (s : State) (g : Nat) : State :=
  let d := g / 80
  if noSpare s g then retireDie s d
  else
    let next := 84 * d + 80 + (Config.sparesAtShipment - sparesLeft s d)
    let s1 := { s with nv := { s.nv with fenced := addTo s.nv.fenced (physOf s g), phys := tset s.nv.phys g next }
                       cells := tdel s.cells g }
    match dieOwner s d with
    | none => s1
    | some p => odOr s1 (Ad.errPartStatus p) 32

/-- A cell is due to be swapped: the running action is for it, or is at Reinitialise of its partition, whose self-test it
has failed (R440). -/
def swapDue (s : State) (g : Nat) : Bool :=
  s.recovery.running.any fun a =>
    (decide (a.kind = 3) && decide (a.target = g) && !a.performed) ||
      (a.performed && (dieOwner s (g / 80)).any a.parts.contains && decide (a.kind ≠ 3) && decide (a.kind ≠ 7))

/-- SPARE_SWAP (R440). -/
def execSpareSwap (die cell : Nat) (s : State) : Res :=
  let g := 80 * die + cell
  if cell < 80 ∧ swapDue s g then
    .next (modRunning (swapIn s g) fun a =>
      { a with performed := true, swap := if a.swap = some g then none else a.swap })
  else .next s

/-! ## GROUP_RETIRE (R441) -/

/-- A group out of service: its cached lines and merges gone without write-back. -/
def groupOut (s : State) (g : Nat) : State :=
  let inside := fun (block : Nat) => decide (block / 2 ^ 25 / 24 = g)
  let s1 := modMd s (g / 4) fun d =>
    { d with lines := d.lines.filter fun l => !inside l.block, merges := d.merges.filter fun x => !inside x.block }
  loseGroup (odSet (modGrp s1 g fun x => { x with retraining := false }) (Ad.memGroupState g) 2) g

/-- What a retirement does to the group's partition: its contents are undefined, its jobs end. -/
def retireFrom (s : State) (p g code wher : Nat) : State :=
  let s1 := stopPart s p 1 code wher
  let s2 := modPart (abortAllParked s1 p code) p fun q => { q with usable := q.usable.filter (· ≠ g) }
  odOr ((partOf s p).groups.foldl loseGroup s2) (Ad.errPartStatus p) 64

/-- GROUP_RETIRE (R441): what is outstanding in the group completes as poisoned. -/
def execGroupRetire (group : Nat) (s : State) : Res :=
  match toPerform s 4 with
  | none => .next s
  | some a =>
    if a.target ≠ group then .next s
    else
      let p := groupOwner s group
      let s1 := if a.code = Code.groupRetired.value then
          record s { code := a.code, cls := 3, part := p, unit := unitGroup group, tag := (p.map (jobTag s)).getD 0, wher := a.wher }
        else s
      let s2 := groupOut (failRequests s1 group none) group
      let s3 := match p with
        | some q => retireFrom s2 q group a.code a.wher
        | none => s2
      .next (donePerforming (notify s3))

/-! ## ENGINE_RESET and DIE_RESET (R442) -/

/-- The communicators of a partition with a call in progress on a collective engine break (R354). -/
def breakEngine (s : State) (e p : Nat) : State :=
  let hit := (partOf s p).calls.filter fun c =>
    let k := commOf s p c.comm
    c.started && (decide (k.engine = e) || decide (k.engine = 2))
  (hit.map Call.comm).eraseDups.foldl (fun t slot => breakComm t p slot) s

/-- A collective engine reset. -/
def resetColl (s : State) (e : Nat) : State := s.parts.foldl (fun t x => breakEngine t e x.1) s

/-- A media engine or writer reset: its picture or frame starts over (R279, R299). -/
def resetMedia (s : State) (e : Nat) : State := if e < 18 then stopEngine s e else stopWriter s e

/-- The number of an engine in actions: collective engines after media engines and writers. -/
def engineNo (coll : Bool) (e : Nat) : Nat := if coll then 32 + e else e

/-- The die of a media engine or writer: four writers to a die. -/
def mediaDie (e : Nat) : Nat := if e < 18 then engineBlock e - 20 else (e - 18) / 4

/-- The partitions that use a block (R383). -/
def blockUsers (s : State) (b : Nat) : List Nat :=
  (s.parts.filter fun x => !inState s x.1 .absent && blockServes s x.1 b).map (·.1)

/-- A fault of an engine or writer found (Table 17.3): CE1 resets with its die, CE0 with nothing else (R442). -/
def engineFault (s : State) (coll : Bool) (e : Nat) : State :=
  let a : Action := { kind := 5, target := engineNo coll e }
  if coll then
    sharedFault s .collEngineFault none ((22 + e % 2) * 256) a (if e % 2 = 1 then some 3 else none) (blockUsers s (22 + e % 2))
  else
    let d := mediaDie e
    sharedFault s .mediaEngineFault none ((20 + d) * 256 + (if e < 16 then e % 8 else if e < 18 then 8 else 9 + (e - 18) % 4)) a (some d) (blockUsers s (20 + d))

/-- An engine's reset carried out, when the running action is that engine's. -/
def performEngine (s : State) (coll : Bool) (e : Nat) : State :=
  match toPerform s 5 with
  | some a =>
    if a.target = engineNo coll e then donePerforming (if coll then resetColl s e else resetMedia s e) else s
  | none => s

/-- ENGINE_RESET (R442): the reset due of an engine is carried out; otherwise its fault is found now, and the reset it
starts at once carried out. -/
def execEngineReset (coll : Bool) (e : Nat) (s : State) : Res :=
  let due := (toPerform s 5).any fun a => decide (a.target = engineNo coll e)
  .next (performEngine (if due then s else engineFault s coll e) coll e)

/-- The ports of a network die go down and the packets in its memory are discarded. -/
def resetNd (s : State) (d : Nat) : State :=
  let s1 := portsDown s d
  { s1 with net := { s1.net with inPkts := s1.net.inPkts.filter fun k => k.die ≠ d } }

/-- A die reset: VD0, VD1, the network half of ND0, ND1. -/
def resetDie (s : State) (unit : Nat) : State := if unit < 2 then stopBlock s (20 + unit) else resetNd s (unit - 2)

/-- A die's reset carried out with PARTITION_RESET of its action's partitions: one whose own error was merged into it ends
FAILED with that (R439, R445). -/
def performDie (s : State) (unit : Nat) : State :=
  match toPerform s 6 with
  | some a =>
    if a.target ≠ unit then s
    else
      let reset := fun (t : State) (p : Nat) =>
        let c := (tget a.merged p).getD (0, 0)
        if resettable t p then (if c.1 = 0 then resetPart t p 0 0 else notify (resetPart t p c.1 c.2)) else t
      donePerforming (a.parts.foldl reset (resetDie s unit))
  | none => s

/-- DIE_RESET (R442): the reset due of a die is carried out; otherwise a fault of a network die is found now, and the reset
it starts at once carried out. -/
def execDieReset (unit : Nat) (s : State) : Res :=
  let due := (toPerform s 6).any fun a => decide (a.target = unit)
  if due ∨ unit < 2 then .next (performDie s unit)
  else
    .next (performDie (sharedFault s .netDieFault none ((20 + unit) * 256) { kind := 6, target := unit } (some unit)
      (blockUsers s (20 + unit))) unit)

/-! ## Completion and time-out -/

/-- RECOVERY_DONE (R438, R445): an action whose steps are carried out completes, and the next starts. The completion of
MODULE_RESET is READY. -/
def execRecoveryDone (s : State) : Res :=
  match s.recovery.running with
  | some a => if a.performed && a.swap.isNone && decide (a.kind ≠ 7) then .next (finishAction s a) else .next s
  | none => .next s

/-- RECOVERY_TIMEOUT (R438): fatal. -/
def execRecoveryTimeout (s : State) : Res :=
  if s.recovery.running.isSome then .next (fatalErr s .recoveryTimeout 0x1900) else .next s

/-! ## The Almanac (R448, R451) -/

/-- ALMANAC_COMMIT (R448): the oldest staged records reach flash; none while an erase runs. -/
def execAlmanacCommit (n : Nat) (s : State) : Res :=
  if s.nv.alm.erasing || s.nv.alm.stopped then .next s else .next (commitStaged n s)

/-- The erase ends: the ring empty, then its ALMANAC_CLEARED record, the oldest staged. -/
def endErase (s : State) : State :=
  let s1 := modAlm s fun x => { x with ring := [], erasing := false, stage := x.stage.dropLast }
  match s.nv.alm.stage.getLast? with
  | some r => commitRec s1 r
  | none => s1

/-- ALMANAC_ERASE_DONE (R451). -/
def execAlmanacEraseDone (s : State) : Res := if s.nv.alm.erasing then .next (endErase s) else .next s

end Sys2Proof.Machine
end

