-- ==== Sys2Proof/Machine/Bringup.lean ====
section
/-!
DEFINITION. Power-up, module reset and power loss (R443, R449, R453 to R459), training and retraining (R460, R461),
links (R456, R462, R463, R481), margining (R464 to R468) and the management pins' switch (R471).
-/

namespace Sys2Proof.Machine

/-- The bring-up state changed. -/
def modBoot (s : State) (f : Boot → Boot) : State := { s with boot := f s.boot }

/-! ## Module reset -/

/-- Persistent writes not yet answered: the store holds the old value or the new, as an open value says (R413). -/
def settleStore (s : State) : State :=
  let put := fun (t : State) (x : StoreReq × Nat) =>
    if (Config.freeValue s.fresh).testBit x.2 then
      { t with nv := { t.nv with store := tset t.nv.store x.1.addr (((findRow x.1.addr).map fun r => kept r x.1.value).getD x.1.value) } }
    else t
  if s.server.store = [] then s else s.server.store.zipIdx.foldl put { s with fresh := s.fresh + 1 }

/-- Every volatile thing of the module gone, the cause noted: what a module reset and the removal of power have in
common. Far-tier contents are open values from then on. -/
def volatileReset (s : State) (cause : Nat) : State :=
  let s1 := (List.range 16).foldl loseGroup (settleStore s)
  { pending := s1.pending, fresh := s1.fresh, out := s1.out, host := s1.host, hostKeys := s1.hostKeys, hostNext := s1.hostNext, nv := s1.nv
    far := s1.far, grps := s1.grps.map fun e => (e.1, ({ lostKey := e.2.lostKey } : Grp))
    od := s1.nv.store, latched := s1.nv.store
    sec := { keySerial := s1.sec.keySerial }
    boot := { modEn := s1.boot.modEn, inputOk := s1.boot.inputOk, armed := s1.boot.armed, modResetN := s1.boot.modResetN,
              perstN := s1.boot.perstN, railsUp := s1.boot.railsUp, refs := s1.boot.refs, straps := s1.boot.straps,
              tripLatched := s1.boot.tripLatched, lowNeeded := s1.boot.lowNeeded, holdupUf := s1.boot.holdupUf, resetCause := cause } }

/-- Every staged record committed (R443, R455); none while an erase runs. -/
def commitAll (s : State) : State := if s.nv.alm.erasing then s else commitStaged s.nv.alm.stage.length s

/-- Leaving BOOT_LOOP clears its count (R459). -/
def leaveLoop (s : State) : State :=
  if odGet s Ad.bootFailCode = 6 then odStore s Ad.bootAttempts 0 else s

/-- The rails of every compute die up: each clears under R174. -/
def diesUp (s : State) : State := { s with dies := (List.range 16).map fun d => (d, ({ railsUp := true } : Die)) }

/-- A reset by MOD_RESET_N, or by PERST# with PERST_MODE high (R455). -/
def hostReset (s : State) : State := diesUp (volatileReset (leaveLoop (commitAll s)) 1)

/-! ## The ROM (R457 to R459) -/

/-- The part stops with BOOT_FAIL and a code (Table 18.3). -/
def stopBoot (s : State) (code : Nat) : State :=
  modBoot (odSet (odSet s Ad.bootStage 7) Ad.bootFailCode code) fun b => { b with stopped := true }

/-- The active slot of an image passed over (R458). -/
def passOver (s : State) (oc : Bool) : State :=
  let x := fwSlots s oc
  odStore (setSlots s oc { x.spoil x.active with active := !x.active }) Ad.bootFallbacks ((odGet s Ad.bootFallbacks + 1) % 2 ^ 32)

/-- The slot an image starts from, the other when the active one fails its checks; false when both do (R458). -/
def chooseSlot (s : State) (oc : Bool) : State × Bool :=
  if slotGood s oc (fwSlots s oc).active then (s, true)
  else
    let s1 := passOver s oc
    (s1, slotGood s1 oc (fwSlots s1 oc).active)

/-- One image of the recovery port verified and put into slot A (R459). -/
def recoverImage (s : State) (images : List FwImage) (oc : Bool) : State × Bool :=
  match images.find? fun i => i.oc = oc with
  | some i =>
    if imageOk s i then (setSlots s oc { (fwSlots s oc).put false (some i) false with active := false }, true) else (s, false)
  | none => (s, false)

/-- What a start from reset loads: the dictionary store, the images to activate (R400), the debug level granted (R404),
ECC modes (R185), a fresh challenge. -/
def loadReset (s : State) (b : BootIn) : State :=
  let store := if s.nv.restore || !b.storeOk then [] else s.nv.store
  let flip := fun (x : FwSlots) => if s.nv.activateAtReset then { x with active := !x.active } else x
  let sticky := s.nv.debugSticky || decide (s.nv.debugNext ≠ 0)
  let nv1 := { s.nv with store := store, restore := false, sc := flip s.nv.sc, oc := flip s.nv.oc, activateAtReset := false,
                         debugNext := 0, debugSticky := sticky }
  let ecc := fun (g : Nat) => decide ((tget store (Ad.memGroupInlineEcc g)).getD (odDefault (Ad.memGroupInlineEcc g)) = 1)
  let s1 := { s with nv := nv1, od := store, latched := store, fresh := s.fresh + 1
                     sec := { s.sec with challenge := s.fresh }
                     grps := (List.range 16).map fun g => (g, { grpOf s g with eccInEffect := ecc g }) }
  let s2 := odSet s1 Ad.secDebugState (s.nv.debugNext % 4 + if sticky then 4 else 0)
  let s3 := if b.storeOk then s2 else recordOnly s2 .dictStoreFailed 0 none 0x1900 0
  showRecovery (if s.boot.resetCause = 2 then odOr s3 Ad.errModuleStatus 8 else s3)

/-- The SC starts: from its slots, or with RECOVERY high from slot A as the recovery port gave it. -/
def startSc (s : State) (b : BootIn) : State :=
  let up := fun (t : State) (stage : Nat) => modBoot (odSet t Ad.bootStage stage) fun x => { x with scUp := true }
  if bit s.boot.straps 0 then
    let r := recoverImage s b.images false
    if !r.2 then stopBoot r.1 4
    else
      let q := recoverImage r.1 b.images true
      if q.2 then up q.1 8 else stopBoot q.1 5
  else
    let r := chooseSlot s false
    if r.2 then up r.1 2 else stopBoot r.1 4

/-- Step 2 (R457 to R459): three attempts without READY, a failed fuse array, or no SC image stop the part. -/
def runRom (s : State) (b : BootIn) : State :=
  let s1 := loadReset s b
  let rec_ := bit s1.boot.straps 0
  if !rec_ ∧ 3 ≤ odGet s1 Ad.bootAttempts then stopBoot s1 6
  else
    let s2 := if rec_ then s1 else odStore s1 Ad.bootAttempts (odGet s1 Ad.bootAttempts + 1)
    if !b.fusesOk then stopBoot s2 3
    else startSc { s2 with sec := { s2.sec with uds := true } } b

/-- MODULE_RESET's fatal errors that no other command finds (Table 17.3, R442): 1 the management complex, 2 to 5 memory dies
0 to 3, 6 a fault of ND0 beyond its network half. -/
def raiseFatal (s : State) (fatal : Nat) : State :=
  match fatal with
  | 0 => s
  | 1 => fatalErr s .managementUncorrectable 0x1800
  | 6 => fatalErr s .netDieFault 0x1600
  | n => fatalErr s .memoryDieFault ((0x10 + (n - 2)) * 256)

/-- MODULE_RESET carried out (R443): staged records committed, everything volatile gone, ERR_FATAL_RESETS counted, and
power-up restarts at step 2. -/
def performReset (s : State) (a : Action) (boot : BootIn) : State :=
  let s1 := volatileReset (commitAll s) 2
  let s2 := odStore s1 Ad.errFatalResets ((odGet s1 Ad.errFatalResets + 1) % 2 ^ 32)
  runRom { diesUp s2 with recovery := { running := some { a with performed := true } } } boot

/-- MODULE_RESET (R443). -/
def execModuleReset (boot : BootIn) (fatal : Nat) (s : State) : Res :=
  let s1 := if (toPerform s 7).isSome then s else raiseFatal s fatal
  match toPerform s1 7 with
  | some a => if s.boot.railsUp ∧ !heldReset s then .next (performReset s1 a boot) else .next s
  | none => .next s

/-! ## Power (R449, R453, R457, R479, R480) -/

/-- Power-up starts at step 1 where MOD_EN is high, the input in range, and no failure or trip holds it off. -/
def arm (s : State) : State :=
  let b := s.boot
  if b.modEn && b.inputOk && !b.lowNeeded && !b.tripLatched && !b.railsUp then
    modBoot { s with od := s.nv.store } fun x => { x with armed := true, stopped := false, resetCause := 0 }
  else s

/-- The Almanac on hold-up (R449): the newest 64 staged records, then POWER_LOSS with the number lost. An erase under way
is taken to have emptied the ring. -/
def commitLoss (s : State) : State :=
  let n := s.nv.alm.stage.length
  let s1 := modAlm s fun x => { x with stage := x.stage.take 64, ring := if x.erasing then [] else x.ring, erasing := false }
  let s2 := commitStaged 64 s1
  modAlm (commitRec (takeSeq s2) (ownRec s2 .powerLoss (n - 64) 0)) fun x => { x with stopped := true }

/-- The power stages shut down (R453, R479): records committed on hold-up, keys and every volatile thing gone. -/
def powerOff (s : State) : State :=
  if !s.boot.railsUp then modBoot s fun b => { b with armed := false }
  else
    let s1 := volatileReset (leaveLoop (commitLoss s)) 0
    modBoot { s1 with nv := { s1.nv with debugNext := 0, debugSticky := false } } fun b => { b with armed := false, railsUp := false, holdupUf := 0 }

/-- MOD_EN_RISE (R453, R457): held low for at least a second it ends a RAIL or REFCLK failure and a trip. -/
def execModEnRise (lowMs : Nat) (s : State) : Res :=
  if s.boot.modEn then .next s
  else
    let short := decide (lowMs < 1000)
    .next (arm (modBoot s fun b => { b with modEn := true, lowNeeded := b.lowNeeded && short, tripLatched := b.tripLatched && short }))

/-- MOD_EN_FALL (R453). -/
def execModEnFall (s : State) : Res := if s.boot.modEn then .next (powerOff (modBoot s fun b => { b with modEn := false })) else .next s

/-- INPUT_OUT_OF_RANGE (R453, R477). -/
def execInputOutOfRange (s : State) : Res :=
  if s.boot.inputOk then .next (powerOff (modBoot s fun b => { b with inputOk := false })) else .next s

/-- INPUT_IN_RANGE (R453): removal of the input clears a trip (R483). -/
def execInputInRange (removed : Bool) (s : State) : Res :=
  if s.boot.inputOk then .next s
  else .next (arm (modBoot s fun b => { b with inputOk := true, tripLatched := b.tripLatched && !removed }))

/-- Step 1 fails: the power stages off, until MOD_EN has stayed low for a second (R457). -/
def failRails (s : State) (code : Nat) : State :=
  modBoot (stopBoot s code) fun b => { b with armed := false, lowNeeded := true }

/-- The 25 MHz reference is there. -/
def refOn (s : State) (r : RefClk) : Bool := s.boot.refs.contains r

/-- Rails and straps (R454, R457, R479): the hold-up bank measured, the straps latched, the dies waking, and the ROM started
unless the module is held in reset. A weak bank's record has no code of Table 17.2: its CODE is open (log 12). -/
def railsUp (s : State) (straps holdupUf : Nat) (boot : BootIn) : State :=
  let weak := decide (holdupUf < 1680)
  let nv1 := { s.nv with powerCycles := s.nv.powerCycles + 1, alm := { s.nv.alm with stopped := false } }
  let s1 := modBoot (diesUp { s with nv := nv1 }) fun b => { b with railsUp := true, straps := straps % 256, holdupUf := holdupUf % 65536 }
  let s2 := if heldReset s1 then modBoot s1 fun b => { b with resetCause := 1 } else runRom s1 boot
  let s3 := modBoot s2 fun b => { b with holdupFault := weak }
  if weak then
    let f := fresh s3
    report f.2 { code := f.1 % 2 ^ 32, cls := 0 }
  else s3

/-- RAILS_GOOD (R457). -/
def execRailsGood (straps holdupUf : Nat) (boot : BootIn) (s : State) : Res :=
  if !(s.boot.armed && refOn s .ref25 && !s.boot.railsUp) then .next s
  else if holdupUf < 960 then .next (failRails s 1)
  else .next (railsUp s straps holdupUf boot)

/-- MOD_RESET_ASSERT (R455). -/
def execModResetAssert (s : State) : Res :=
  let s1 := modBoot s fun b => { b with modResetN := false }
  if s.boot.railsUp && !s.boot.tripLatched && !heldReset s then .next (hostReset s1) else .next s1

/-- The straps latched at the end of a reset, and power-up restarted at step 2 (R454, R455). -/
def endReset (s : State) (straps : Nat) (boot : BootIn) : State :=
  if s.boot.railsUp && !s.boot.tripLatched then
    let s1 := modBoot s fun b => { b with straps := straps % 256 }
    if heldReset s1 then s1 else runRom s1 boot
  else s

/-- MOD_RESET_RELEASE (R455). -/
def execModResetRelease (straps : Nat) (boot : BootIn) (s : State) : Res :=
  if s.boot.modResetN then .next s else .next (endReset (modBoot s fun b => { b with modResetN := true }) straps boot)

/-- The PCIe core, the host port and the mailboxes reset (R456): each mailbox IDLE, unless the OC has yet to be ready, its
request lost. -/
def resetPcie (s : State) : State :=
  let page := fun (e : Nat × Page) => (e.1, ({ state := if e.2.state = 3 then 3 else 0 } : Page))
  let mine := fun (c : Caller) => decide (c.transport = 1)
  let s1 := modServer s fun v =>
    { v with pages := v.pages.map page
             outstanding := v.outstanding.filter fun x => !mine x.1
             store := v.store.filter fun x => !mine x.caller
             waitReports := v.waitReports.filter fun x => !mine x.1 }
  modBoot (odSet s1 Ad.pcieLinkStatus 0) fun b => { b with pcieUp := false }

/-- PERST_ASSERT (R456). -/
def execPerstAssert (s : State) : Res :=
  let s1 := modBoot s fun b => { b with perstN := false }
  if !s.boot.perstN || !s.boot.railsUp || s.boot.tripLatched || heldReset s then .next s1
  else if bit s.boot.straps 1 then .next (hostReset s1)
  else .next (resetPcie s1)

/-- PERST_RELEASE (R456, R463): with PERST_MODE high, the end of a module reset. -/
def execPerstRelease (straps : Nat) (boot : BootIn) (s : State) : Res :=
  let s1 := modBoot s fun b => { b with perstN := true }
  if heldReset s && !heldReset s1 then .next (endReset s1 straps boot) else .next s1

/-! ## Slots and time-outs (R457, R458) -/

/-- The SC or OC is being started. -/
def booting (s : State) : Bool := s.boot.scUp && !s.boot.stopped && !s.server.ready && !s.boot.ocRestart

/-- SLOT_START_TIMEOUT (R458): the slot that has not run for 500 ms is passed over. -/
def execSlotStartTimeout (oc : Bool) (s : State) : Res :=
  if !booting s ∨ (!oc ∧ odGet s Ad.bootStage = 3) then .next s
  else
    let s0 := if oc then odSet s Ad.bootStage 3 else s
    let first := chooseSlot s0 oc
    let r := if first.2 then (let t := passOver first.1 oc; (t, slotGood t oc (fwSlots t oc).active)) else first
    if r.2 then .next r.1
    else if oc then .next (stopBoot r.1 5)
    else .next (modBoot (stopBoot r.1 4) fun b => { b with scUp := false })

/-- BOOT_STEP_TIMEOUT (R457): step 1 without rails (1) or reference (2); steps 2 and 3 without an SC (4) or OC (5). -/
def execBootStepTimeout (cause : Nat) (s : State) : Res :=
  let step1 := s.boot.armed && !s.boot.railsUp
  if (cause = 1 ∧ step1) ∨ (cause = 2 ∧ step1 ∧ !refOn s .ref25) then .next (failRails s cause)
  else if cause = 4 ∧ booting s ∧ odGet s Ad.bootStage ≠ 3 then .next (modBoot (stopBoot s 4) fun b => { b with scUp := false })
  else if cause = 5 ∧ booting s then .next (stopBoot s 5)
  else .next s

/-! ## Links (R462, R463, R481) -/

/-- The reference clock of a network die. -/
def netRef (d : Nat) : RefClk := if d = 0 then .ref156A else .ref156B

/-- A physical port's link restart: its mode latched, its logical ports TRAINING, those the mode does not give DISABLED.
One that is UP under an unchanged mode stays so. -/
def restartPort (s : State) (q : Nat) : State :=
  let old := tget s.net.portMode q
  let mode := odGet s (Ad.netPortMode q)
  let s1 := { s with net := { s.net with portMode := tset s.net.portMode q mode } }
  (List.range 4).foldl (fun t i =>
    let n := 4 * q + i
    let st := odGet t (Ad.netPortState n)
    if 2 ^ mode ≤ i then odSet (linkDown t n) (Ad.netPortState n) 3
    else if st = 2 ∧ old = some mode then t
    else odSet (linkDown (odSet t (Ad.netPortState n) (if st = 3 then 0 else st)) n) (Ad.netPortState n) (if refOn t (netRef (q / 4)) then 1 else 0)) s1

/-- The module runs far enough for its Ethernet ports: step 3 has passed, and power is on. -/
def portsRun (s : State) : Bool :=
  s.boot.railsUp && !s.boot.tripLatched && decide (4 ≤ odGet s Ad.bootStage) && decide (odGet s Ad.bootStage ≤ 6)

/-- ETH_LINK_UP (R462). -/
def execEthLinkUp (port : Nat) (s : State) : Res :=
  if odGet s (Ad.netPortState port) = 1 ∧ refOn s (netRef (port / 16)) ∧ !blockCut s (22 + port / 16) then
    .next (odSet s (Ad.netPortState port) 2)
  else .next s

/-- ETH_LINK_DOWN (R328, R462). -/
def execEthLinkDown (port : Nat) (s : State) : Res := .next (linkDown s port)

/-- PORT_RESTART (R311, R462): a port with a logical port DOWN restarts, and the restart is counted. -/
def execPortRestart (port : Nat) (s : State) : Res :=
  let down := (List.range 4).any fun i => decide (odGet s (Ad.netPortState (4 * port + i)) = 0)
  if portsRun s ∧ down ∧ refOn s (netRef (port / 4)) ∧ !blockCut s (22 + port / 4) then
    .next (restartPort (odInc s (Ad.netPortRestarts port)) port)
  else .next s

/-- PCIE_LINK_UP (R463): the link reaches L0 with a width, a rate and FLIT mode. -/
def execPcieLinkUp (width rate : Nat) (flit : Bool) (s : State) : Res :=
  if s.boot.railsUp && !s.boot.tripLatched && !heldReset s && s.boot.perstN && refOn s .ref100 && !s.boot.pcieUp then
    .next (modBoot (odSet s Ad.pcieLinkStatus (1 + (if flit then 2 else 0) + width % 16 * 16 + rate % 16 * 256)) fun b => { b with pcieUp := true })
  else .next s

/-- The link drops out of L0. -/
def pcieDown (s : State) : State :=
  if s.boot.pcieUp then modBoot (odInc (odSet s Ad.pcieLinkStatus 0) Ad.pcieLinkRetrains) fun b => { b with pcieUp := false } else s

/-- PCIE_LINK_DOWN (R463). -/
def execPcieLinkDown (s : State) : Res := .next (pcieDown s)

/-- CONFIGURATION_REQUEST (R463): answered from link-up onward; what a register reads is not the manual's. -/
def execConfigurationRequest (req : ConfigReq) (s : State) : Res :=
  if !s.boot.pcieUp then .next s
  else
    match req.write with
    | some v => .next (emit s (.configReply req.register v))
    | none =>
      let f := fresh s
      .next (emit f.2 (.configReply req.register f.1))

/-- LANE_MARGINING_REQUEST (R467): 32 steps of timing either way, 64 of voltage; errors are reported in the margining status
alone. -/
def execLaneMarginingRequest (lane dir steps errors : Nat) (s : State) : Res :=
  if s.boot.pcieUp ∧ steps ≤ (if dir < 2 then 32 else 64) then .next (emit s (.marginStatus lane errors)) else .next s

/-! ## The OC ready (R457, R460, R462, R470) -/

/-- The persistent functions of the pins taken (R470). -/
def persistPins (s : State) : State :=
  (List.range 32).foldl (fun t n =>
    let fn := odGet t (Ad.pinFunction n)
    if fn = (pinOf t n).fn then t else switchPin t n fn) s

/-- Every mailbox page IDLE (R421). -/
def openPages (s : State) : State :=
  modServer s fun v => { v with pages := (List.range 17).map fun n => (n, { (tget v.pages n).getD {} with state := 0 }), ready := true }

/-- Step 3 passes: the AK made for the OC image (R386), mailboxes open, ports and training start, pins take their functions. -/
def ocUp (s : State) : State :=
  let s0 := { s with sec := { s.sec with akOc := some (imageDigest s.nv.oc true) } }
  let s1 := (List.range 8).foldl restartPort (openPages (odSet s0 Ad.bootStage 4))
  modBoot (persistPins s1) fun b => { b with training := true, round := 0 }

/-- OC_READY (R400, R457, R458): at power-up, or after a restart on another image; `level` is the feature level of the
image that runs. -/
def execOcReady (level : Nat) (s : State) : Res :=
  let s1 := { s with nv := { s.nv with level := level } }
  if s.boot.ocRestart then
    .next (modBoot (modServer s1 fun v => { v with ready := true }) fun b => { b with ocRestart := false })
  else if booting s then
    let r := chooseSlot s1 true
    if r.2 then .next (ocUp r.1) else .next (stopBoot r.1 5)
  else .next s

/-! ## Training (R460, R461, R466) -/

/-- READY (R457, R459): the attempts' count clears, and a MODULE_RESET is complete. -/
def becomeReady (s : State) (nowMs : Nat) : State :=
  let s1 := odStore (odSet (odSet s Ad.bootStage 6) Ad.bootTimeMs (nowMs % 2 ^ 32)) Ad.bootAttempts 0
  match s1.recovery.running with
  | some a => if a.kind = 7 then finishAction s1 a else s1
  | none => s1

/-- A group retired by training or margining (R460, R466): through its partition's action where one holds it. -/
def retireTrained (s : State) (g : Nat) : State :=
  if (groupOwner s g).isSome then retireErr s g Code.groupRetired.value 0 noLink
  else odSet (report s { code := Code.groupRetired.value, cls := 3, unit := unitGroup g }) (Ad.memGroupState g) 2

/-- One group's training ends: ABSENT, RETIRED with its failed channels, or ONLINE. -/
def endTraining (s : State) (failed : List (Nat × Nat)) (absent : List Nat) (ms g : Nat) : State :=
  let bad := (failed.filter fun x => x.1 = g).map fun x => x.2 % 24
  if absent.contains g then odSet s (Ad.memGroupState g) 3
  else if bad ≠ [] then
    retireTrained (odSet s (Ad.memGroupFailedChannels g) (bad.eraseDups.map (2 ^ ·)).sum) g
  else odSet (odSet s (Ad.memGroupTrainMs g) (ms % 65536)) (Ad.memGroupState g) 0

/-- TRAINING_ROUND_DONE (R460): the four groups of a round; after the last round step 5 runs or the part is READY. -/
def execTrainingRoundDone (failed : List (Nat × Nat)) (absent : List Nat) (trainMs nowMs : Nat) (s : State) : Res :=
  if !s.boot.training then .next s
  else
    let k := s.boot.round
    let s1 := [k, 4 + k, 8 + k, 12 + k].foldl (fun t g => endTraining t failed absent trainMs g) s
    if k < 3 then .next (modBoot s1 fun b => { b with round := k + 1 })
    else
      let s2 := modBoot s1 fun b => { b with training := false, round := 0 }
      if bit s.boot.straps 2 ∨ atReset s Ad.bootMarginAtStart = 1 then
        .next (modBoot (odSet s2 Ad.bootStage 5) fun b => { b with startMargin := true })
      else .next (becomeReady s2 nowMs)

/-- A group ONLINE retrains (R461); a second trigger is merged into the first. -/
def retrainIf (s : State) (g : Nat) (due : Bool) : State :=
  if due ∧ odGet s (Ad.memGroupState g) = 0 ∧ s.boot.railsUp ∧ 4 ≤ odGet s Ad.bootStage then startRetrain s g else s

/-- RETRAIN_TRIGGER (R461): the first in-service retrain. -/
def execRetrainTrigger (group : Nat) (s : State) : Res := .next (retrainIf s group (!(grpOf s group).firstRetrain))

/-- RETRAIN_DRIFT (R461). -/
def execRetrainDrift (group : Nat) (s : State) : Res := .next (retrainIf s group true)

/-- RETRAIN_DONE (R461): the group is ONLINE, or is retired. -/
def execRetrainDone (group : Nat) (ok : Bool) (s : State) : Res :=
  if !(grpOf s group).retraining then .next s
  else
    let s1 := modGrp s group fun x => { x with retraining := false, firstRetrain := x.firstRetrain || ok }
    if ok then .next (odSet s1 (Ad.memGroupState group) 0) else .next (retireErr s1 group Code.groupRetired.value 0 noLink)

/-! ## Margining (R464 to R466, R468) -/

/-- An edge record below the limits of R466: |T_LEFT| or T_RIGHT below 8, or a voltage margin below 4. -/
def edgeFails (r : List Byte) : Bool :=
  let left := (r.getD 0 0).toInt.natAbs
  decide (left < 8) || decide ((r.getD 1 0).toInt < 8) || decide (fieldLE r 2 1 < 4) || decide (fieldLE r 3 1 < 4)

/-- A group has a channel that fails step 5: 24 channels of 32 records each. -/
def groupFails (result : List Byte) (g : Nat) : Bool :=
  (List.range 768).any fun i => edgeFails (slice result (6144 * g + 8 * i) 8)

/-- MARGIN_DONE (R464 to R467): step 5 ends, its failing groups retired, and the part is READY; or the measurement that runs
ends. -/
def execMarginDone (result : List Byte) (nowMs : Nat) (s : State) : Res :=
  if s.boot.startMargin then
    let s1 := modBoot (setDom s Ad.marginStartResult result) fun b => { b with startMargin := false }
    let bad := (List.range 16).filter fun g => decide (odGet s (Ad.memGroupState g) = 0) && groupFails result g
    .next (becomeReady (bad.foldl retireTrained s1) nowMs)
  else
    match s.boot.margin with
    | none => .next s
    | some v =>
      let s1 := modBoot (setDom (odSet s Ad.marginState 2) Ad.marginResult result) fun b => { b with margin := none }
      if bits v 63 56 = 2 then .next (odSet s1 (Ad.pcieLaneMargin (bits v 47 32)) (fieldLE result 0 4)) else .next s1

/-- EYE_REFRESH (R468): a lane whose port is UP; 0 otherwise. -/
def execEyeRefresh (lane eye : Nat) (s : State) : Res :=
  let q := lane / 8
  let width := 8 / 2 ^ (tget s.net.portMode q).getD 0
  let up := odGet s (Ad.netPortState (4 * q + lane % 8 / width)) = 2
  .next (odSet s (Ad.ethLaneEye lane) (if up then eye % 2 ^ 40 else 0))

/-! ## Pins (R471, R472) -/

/-- PIN_SWITCH_COMPLETE (R471, R472): the new function starts, and a held write begins its own switch. -/
def execPinSwitchComplete (pin : Nat) (s : State) : Res :=
  let x := pinOf s pin
  match x.next with
  | none => .next s
  | some fn =>
    let s1 := modPin s pin fun _ => { fn := fn }
    match x.held with
    | some h => .next (switchPin s1 pin h)
    | none => .next s1

end Sys2Proof.Machine
end

