-- ==== Sys2Proof/Machine/Power.lean ====
section
/-!
DEFINITION. Power, throttling, temperature and reference clocks (R33, R403, R478, R481, R483).
-/

namespace Sys2Proof.Machine

/-- The module is powered and has not tripped. -/
def running (s : State) : Bool := s.boot.railsUp && !s.boot.tripLatched

/-- The throttle set to a depth on all 16 compute dies, each through a hold (R33). -/
def setThrottle (s : State) (n : Nat) : State :=
  let hold := fun (t : State) (d : Nat) =>
    let old := cclkActual s d
    if cclkTarget t d = old then t else odSet (modDie t d fun x => { x with cclkPending := true }) (Ad.cdCclkActualMhz d) old
  (List.range 16).foldl hold (odSet s Ad.modThrottleSteps n)

/-- CCLK lowered by one step, and counted; MOD_THROTTLE_STEPS is a U8. -/
def throttleDown (s : State) : State :=
  let n := odGet s Ad.modThrottleSteps
  if n < 255 then setThrottle (odInc s Ad.modThrottleEvents) (n + 1) else s

/-- CCLK raised by one step, never above what R31 sets. -/
def throttleUp (s : State) : State :=
  let n := odGet s Ad.modThrottleSteps
  if n = 0 then s else setThrottle s (n - 1)

/-- A die's temperature as last read, in units of 1/16 °C. -/
def dieTempOf (s : State) (k : Nat) : Int := (BitVec.ofNat 32 (odGet s (Ad.dieTemp k))).toInt

/-- A die is above a temperature in °C. -/
def anyAbove (s : State) (c : Int) : Bool := (List.range 40).any fun k => decide (16 * c < dieTempOf s k)

/-- The millisecond's readings entered, and its time and energy counted. -/
def countMs (s : State) (watts mv ma : Nat) : State :=
  let s1 := odSet (odSet (odSet s Ad.modInputPowerW (watts % 65536)) Ad.modInputMv (mv % 2 ^ 32)) Ad.modInputMa (ma % 2 ^ 32)
  modBoot { s1 with nv := { s1.nv with opMs := s1.nv.opMs + 1 } } fun b =>
    { b with ms := b.ms + 1, energyMj := b.energyMj + watts, overLimit := b.overLimit && decide (Config.powerLimitW < watts) }

/-- POWER_AVERAGE_TICK (R478): a millisecond's average above the cap lowers CCLK one step, unless a temperature has lowered
it in this millisecond; ten in a row below 95 % of the cap, with no die above 90 °C, raise it one step. -/
def execPowerAverageTick (watts mv ma : Nat) (s : State) : Res :=
  if !s.boot.railsUp then .next s
  else
    let s1 := countMs s watts mv ma
    let cap := odGet s Ad.modPowerCapW
    let above := decide (cap < watts) && !s.boot.stepped
    let quiet := decide (100 * watts < 95 * cap) && !anyAbove s 90
    let n := if quiet then s.boot.quietMs + 1 else 0
    let s2 := modBoot s1 fun b => { b with stepped := false, quietMs := if n < 10 then n else 0 }
    if above then .next (throttleDown s2) else if 10 ≤ n then .next (throttleUp s2) else .next s2

/-- DIE_TEMP_SAMPLE (R483): the 40 junctions and the cold plate; a die above 95 °C lowers CCLK one step in the
millisecond. -/
def execDieTempSample (temps : List Int) (plate : Int) (s : State) : Res :=
  if !s.boot.railsUp then .next s
  else
    let code := fun (t : Int) => (BitVec.ofInt 32 t).toNat
    let s1 := (List.range 40).foldl (fun t k => odSet t (Ad.dieTemp k) (code (temps.getD k 0))) (odSet s Ad.coldPlateTemp (code plate))
    if anyAbove s1 95 ∧ !s.boot.stepped then .next (modBoot (throttleDown s1) fun b => { b with stepped := true }) else .next s1

/-- POWER_LIMIT_FENCE (R403): input power above the fuse limit lowers CCLK on every die. -/
def execPowerLimitFence (watts : Nat) (s : State) : Res :=
  if running s ∧ Config.powerLimitW < watts then .next (modBoot (throttleDown s) fun b => { b with overLimit := true }) else .next s

/-- POWER_LIMIT_SHUTDOWN (R403): still above the limit 10 ms later, the power stages shut the module down. -/
def execPowerLimitShutdown (watts : Nat) (s : State) : Res :=
  if s.boot.overLimit ∧ Config.powerLimitW < watts then .next (powerOff s) else .next s

/-- A partition's work gone with its dies: no job, and IDLE where it ran one. -/
def dropJobs (s : State) (p : Nat) : State :=
  let s1 := modPart (dropControl s p) p fun q =>
    { q with parked := [], switch := none, calls := [], samples := [], heldPkts := [], heldRecs := [], scrubs := [] }
  if resettable s p then setState s1 p .idle else s1

/-- Every rail but the management island's removed: compute, memory, media and network dies off, the PCIe link down, every
job ended without a record. -/
def shedRails (s : State) : State :=
  let s1 := s.parts.foldl (fun t e => dropJobs t e.1) s
  let s2 := (List.range 4).foldl (fun t i => dropMd t i) ((List.range 16).foldl (fun t d => loseGroup (dieDown t d) d) s1)
  let s3 := (List.range 2).foldl portsDown s2
  let s4 := { s3 with engines := [], net := { portMode := s3.net.portMode }, recovery := {}, hostReads := [], fabric := {} }
  modBoot (odSet (showRecovery s4) Ad.pcieLinkStatus 0) fun b =>
    { b with pcieUp := false, training := false, startMargin := false, margin := none, tripLatched := true }

/-- THERMAL_TRIP (R403, R459, R483): the rails but the island's removed, a POWER_LOSS record with ARG 1 staged, and in steps
1 to 4 BOOT_FAIL with OVER_TEMPERATURE. -/
def execThermalTrip (s : State) : Res :=
  if s.boot.tripLatched || !(s.boot.railsUp || s.boot.armed) then .next s
  else
    let early := decide (odGet s Ad.bootStage ≤ 4) || decide (odGet s Ad.bootStage = 8)
    let s1 := if s.boot.railsUp then recordOnly (shedRails s) .powerLoss 0 none 0x1900 1
      else modBoot s fun b => { b with tripLatched := true, armed := false }
    if early then .next (stopBoot s1 7) else .next s1

/-- The reference is no longer there. -/
def dropRef (s : State) (r : RefClk) : State := modBoot s fun b => { b with refs := b.refs.filter (· ≠ r) }

/-- REFCLK_LOSS (R481): the PCIe link, the ports of a network die, or the module go down. -/
def execRefclkLoss (ref : RefClk) (s : State) : Res :=
  let s1 := dropRef s ref
  match ref with
  | .ref100 => .next (pcieDown s1)
  | .ref156A => .next (portsDown s1 0)
  | .ref156B => .next (portsDown s1 1)
  | .ref25 => .next (if s.boot.railsUp then powerOff s1 else s1)

/-- REFCLK_RETURN (R481): its links may train again. -/
def execRefclkReturn (ref : RefClk) (s : State) : Res :=
  if refOn s ref then .next s else .next (modBoot s fun b => { b with refs := b.refs ++ [ref] })

end Sys2Proof.Machine
end

