-- ==== Sys2Proof/Machine/Dispatch.lean ====
section
/-!
DEFINITION. The effect of each command on everything but the queue: one arm per row of the table, each a
direct call of the row's own meaning.
-/

namespace Sys2Proof.Machine

/-- The effect of a command. -/
def exec (i : Instr) (s : State) : Host.Outcome State Fault Refusal :=
  match i with
  | .fabricCrcFail src xfer => Sys2Proof.Machine.execFabricCrcFail src xfer s
  | .fabricCreditReturn src dst cls capped => Sys2Proof.Machine.execFabricCreditReturn src dst cls capped s
  | .cclkWrite c tag die mhz => Sys2Proof.Machine.execCclkWrite c tag die mhz s
  | .clockHold die => Sys2Proof.Machine.execClockHold die s
  | .clockHoldEnd die => Sys2Proof.Machine.execClockHoldEnd die s
  | .bundleIssue g hold ecc upsets others => Sys2Proof.Machine.execBundleIssue g hold ecc upsets others s
  | .issueResume g cycles => Sys2Proof.Machine.execIssueResume g cycles s
  | .nop g => Sys2Proof.Machine.execNop g s
  | .semWait g sem => Sys2Proof.Machine.execSemWait g sem s
  | .semSignal g sem cnt => Sys2Proof.Machine.execSemSignal g sem cnt s
  | .fence g => Sys2Proof.Machine.execFence g s
  | .fencePredicate g sem => Sys2Proof.Machine.execFencePredicate g sem s
  | .setcnt g ctr cnt => Sys2Proof.Machine.execSetcnt g ctr cnt s
  | .loop g ctr target => Sys2Proof.Machine.execLoop g ctr target s
  | .amaxflush g => Sys2Proof.Machine.execAmaxflush g s
  | .done g => Sys2Proof.Machine.execDone g s
  | .mload g fmt rs => Sys2Proof.Machine.execMload g fmt rs s
  | .mloadComplete g => Sys2Proof.Machine.execMloadComplete g s
  | .mswap g => Sys2Proof.Machine.execMswap g s
  | .mmac g fmt bank row rs => Sys2Proof.Machine.execMmac g fmt bank row rs s
  | .mmacz g fmt bank row rs => Sys2Proof.Machine.execMmacz g fmt bank row rs s
  | .vadd g dst sa sb mask dt => Sys2Proof.Machine.execVadd g dst sa sb mask dt s
  | .vsub g dst sa sb mask dt => Sys2Proof.Machine.execVsub g dst sa sb mask dt s
  | .vmul g dst sa sb mask dt => Sys2Proof.Machine.execVmul g dst sa sb mask dt s
  | .vfma g dst sa sb sc mask dt => Sys2Proof.Machine.execVfma g dst sa sb sc mask dt s
  | .vmax g dst sa sb mask dt => Sys2Proof.Machine.execVmax g dst sa sb mask dt s
  | .vmin g dst sa sb mask dt => Sys2Proof.Machine.execVmin g dst sa sb mask dt s
  | .viadd g dst sa sb mask => Sys2Proof.Machine.execViadd g dst sa sb mask s
  | .visub g dst sa sb mask => Sys2Proof.Machine.execVisub g dst sa sb mask s
  | .vimul g dst sa sb mask => Sys2Proof.Machine.execVimul g dst sa sb mask s
  | .vand g dst sa sb mask => Sys2Proof.Machine.execVand g dst sa sb mask s
  | .vor g dst sa sb mask => Sys2Proof.Machine.execVor g dst sa sb mask s
  | .vxor g dst sa sb mask => Sys2Proof.Machine.execVxor g dst sa sb mask s
  | .vshl g dst sa sb mask => Sys2Proof.Machine.execVshl g dst sa sb mask s
  | .vshr g dst sa sb mask => Sys2Proof.Machine.execVshr g dst sa sb mask s
  | .vbcast g dst imm mask => Sys2Proof.Machine.execVbcast g dst imm mask s
  | .vcmplt g dst sa sb mask dt => Sys2Proof.Machine.execVcmplt g dst sa sb mask dt s
  | .vcmpeq g dst sa sb mask dt => Sys2Proof.Machine.execVcmpeq g dst sa sb mask dt s
  | .vsel g dst sa sb sel mask => Sys2Proof.Machine.execVsel g dst sa sb sel mask s
  | .vrsum g dst sa mask dt => Sys2Proof.Machine.execVrsum g dst sa mask dt s
  | .vrmax g dst sa mask dt => Sys2Proof.Machine.execVrmax g dst sa mask dt s
  | .vexp2 g dst sa mask dt => Sys2Proof.Machine.execVexp2 g dst sa mask dt s
  | .vlog2 g dst sa mask dt => Sys2Proof.Machine.execVlog2 g dst sa mask dt s
  | .vrsqrt g dst sa mask dt => Sys2Proof.Machine.execVrsqrt g dst sa mask dt s
  | .vrcp g dst sa mask dt => Sys2Proof.Machine.execVrcp g dst sa mask dt s
  | .vsin g dst sa mask dt => Sys2Proof.Machine.execVsin g dst sa mask dt s
  | .vcos g dst sa mask dt => Sys2Proof.Machine.execVcos g dst sa mask dt s
  | .vcvt g dst sa mask dt rnd slot target => Sys2Proof.Machine.execVcvt g dst sa mask dt rnd slot target s
  | .vcvtmx g dst sa mask dt rnd slot target => Sys2Proof.Machine.execVcvtmx g dst sa mask dt rnd slot target s
  | .amaxCountMerge g slot => Sys2Proof.Machine.execAmaxCountMerge g slot s
  | .vrand g dst mask => Sys2Proof.Machine.execVrand g dst mask s
  | .vrandu g dst mask => Sys2Proof.Machine.execVrandu g dst mask s
  | .vld g dst imm mask => Sys2Proof.Machine.execVld g dst imm mask s
  | .vst g sa imm mask => Sys2Proof.Machine.execVst g sa imm mask s
  | .sstartIn g stream desc near addr => Sys2Proof.Machine.execSstartIn g stream desc near addr s
  | .sstopIn g stream => Sys2Proof.Machine.execSstopIn g stream s
  | .sstartOut g stream desc near addr => Sys2Proof.Machine.execSstartOut g stream desc near addr s
  | .sstopOut g stream => Sys2Proof.Machine.execSstopOut g stream s
  | .streamEnd g out stream => Sys2Proof.Machine.execStreamEnd g out stream s
  | .farRequestIssue g stream => Sys2Proof.Machine.execFarRequestIssue g stream s
  | .unitArrival g stream => Sys2Proof.Machine.execUnitArrival g stream s
  | .contractDeposit g stream => Sys2Proof.Machine.execContractDeposit g stream s
  | .uncontractedDeposit d => Sys2Proof.Machine.execUncontractedDeposit d s
  | .pacingWindow die => Sys2Proof.Machine.execPacingWindow die s
  | .reservedWindow md => Sys2Proof.Machine.execReservedWindow md s
  | .semIncrementRelease p sem => Sys2Proof.Machine.execSemIncrementRelease p sem s
  | .semGrant p sem => Sys2Proof.Machine.execSemGrant p sem s
  | .semTimeout g => Sys2Proof.Machine.execSemTimeout g s
  | .fenceComplete g cycles => Sys2Proof.Machine.execFenceComplete g cycles s
  | .predicateResolve g => Sys2Proof.Machine.execPredicateResolve g s
  | .shadowOpen g space page pred => Sys2Proof.Machine.execShadowOpen g space page pred s
  | .frameFreed g space frame => Sys2Proof.Machine.execFrameFreed g space frame s
  | .shadowDrained g space frame => Sys2Proof.Machine.execShadowDrained g space frame s
  | .dieTreeOutput die => Sys2Proof.Machine.execDieTreeOutput die s
  | .partitionDone p => Sys2Proof.Machine.execPartitionDone p s
  | .bcastUnitIssue die grp => Sys2Proof.Machine.execBcastUnitIssue die grp s
  | .tileBcastTimeout die grp => Sys2Proof.Machine.execTileBcastTimeout die grp s
  | .walkStart p k desc => Sys2Proof.Machine.execWalkStart p k desc s
  | .walkEntryFetch p w n => Sys2Proof.Machine.execWalkEntryFetch p w n s
  | .walkSlotFill p w => Sys2Proof.Machine.execWalkSlotFill p w s
  | .bankRetry g => Sys2Proof.Machine.execBankRetry g s
  | .scratchScrub g bank upsets => Sys2Proof.Machine.execScratchScrub g bank upsets s
  | .stratusRetry die idle upsets => Sys2Proof.Machine.execStratusRetry die idle upsets s
  | .unscheduledStratusGrant die idle chan arrived => Sys2Proof.Machine.execUnscheduledStratusGrant die idle chan arrived s
  | .stratusScrub die chan upsets => Sys2Proof.Machine.execStratusScrub die chan upsets s
  | .dieClear die => Sys2Proof.Machine.execDieClear die s
  | .dieClearDone die => Sys2Proof.Machine.execDieClearDone die s
  | .lineRead p addr len hint reserved errs tagFail => Sys2Proof.Machine.execLineRead p addr len hint reserved errs tagFail s
  | .lineWrite p addr hint src data poison => Sys2Proof.Machine.execLineWrite p addr hint src data poison s
  | .streamWriteMerge p addr => Sys2Proof.Machine.execStreamWriteMerge p addr s
  | .mscCleanRange p base size => Sys2Proof.Machine.execMscCleanRange p base size s
  | .mscDiscardRange p base size => Sys2Proof.Machine.execMscDiscardRange p base size s
  | .mscCleanDiscardRange p base size => Sys2Proof.Machine.execMscCleanDiscardRange p base size s
  | .mscDiscardWays p => Sys2Proof.Machine.execMscDiscardWays p s
  | .mscCleanWays p => Sys2Proof.Machine.execMscCleanWays p s
  | .mscMaintDone md p => Sys2Proof.Machine.execMscMaintDone md p s
  | .drizzleRead p addr errs => Sys2Proof.Machine.execDrizzleRead p addr errs s
  | .drizzleWrite p addr data poison => Sys2Proof.Machine.execDrizzleWrite p addr data poison s
  | .refresh group ratePct => Sys2Proof.Machine.execRefresh group ratePct s
  | .memRequestTimeout group channel => Sys2Proof.Machine.execMemRequestTimeout group channel s
  | .hostRead p window offset len => Sys2Proof.Machine.execHostRead p window offset len s
  | .hostReadComplete id ok data => Sys2Proof.Machine.execHostReadComplete id ok data s
  | .hostWrite p window offset data => Sys2Proof.Machine.execHostWrite p window offset data s
  | .move p obj tier addr sem => Sys2Proof.Machine.execMove p obj tier addr sem s
  | .moveComplete p obj => Sys2Proof.Machine.execMoveComplete p obj s
  | .moveAbort p obj => Sys2Proof.Machine.execMoveAbort p obj s
  | .moveRelease p obj => Sys2Proof.Machine.execMoveRelease p obj s
  | .prefetchRecord p => Sys2Proof.Machine.execPrefetchRecord p s
  | .prefetchRetry p => Sys2Proof.Machine.execPrefetchRetry p s
  | .scaleAdvance p sem => Sys2Proof.Machine.execScaleAdvance p sem s
  | .scaleAdvanceDone p => Sys2Proof.Machine.execScaleAdvanceDone p s
  | .decode r raw => Sys2Proof.Machine.execDecode r raw s
  | .flush r raw => Sys2Proof.Machine.execFlush r raw s
  | .reset r raw => Sys2Proof.Machine.execReset r raw s
  | .release r raw => Sys2Proof.Machine.execRelease r raw s
  | .encode r raw => Sys2Proof.Machine.execEncode r raw s
  | .analyse r raw => Sys2Proof.Machine.execAnalyse r raw s
  | .key r raw => Sys2Proof.Machine.execKey r raw s
  | .pictureStart e pic => Sys2Proof.Machine.execPictureStart e pic s
  | .bufferUnpark p pool => Sys2Proof.Machine.execBufferUnpark p pool s
  | .pictureEnd e fin => Sys2Proof.Machine.execPictureEnd e fin s
  | .outputUnpark p ctx => Sys2Proof.Machine.execOutputUnpark p ctx s
  | .decodeBudgetAbort e rebuilt => Sys2Proof.Machine.execDecodeBudgetAbort e rebuilt s
  | .drainEnd p ctx => Sys2Proof.Machine.execDrainEnd p ctx s
  | .encodeSlice e data luma chroma qp cycles => Sys2Proof.Machine.execEncodeSlice e data luma chroma qp cycles s
  | .sample r raw => Sys2Proof.Machine.execSample r raw s
  | .lookup r raw => Sys2Proof.Machine.execLookup r raw s
  | .sampleRecordTake p ctx => Sys2Proof.Machine.execSampleRecordTake p ctx s
  | .writerFrameDone p ctx sig cycles => Sys2Proof.Machine.execWriterFrameDone p ctx sig cycles s
  | .ethFrameReceive port f => Sys2Proof.Machine.execEthFrameReceive port f s
  | .ocIcmpReply port f => Sys2Proof.Machine.execOcIcmpReply port f s
  | .data k => Sys2Proof.Machine.execData k s
  | .getReq k => Sys2Proof.Machine.execGetReq k s
  | .signal k => Sys2Proof.Machine.execSignal k s
  | .ack k now => Sys2Proof.Machine.execAck k now s
  | .nak k => Sys2Proof.Machine.execNak k s
  | .hello h => Sys2Proof.Machine.execHello h s
  | .reply h => Sys2Proof.Machine.execReply h s
  | .rekey k => Sys2Proof.Machine.execRekey k s
  | .rekeyReply k => Sys2Proof.Machine.execRekeyReply k s
  | .close k => Sys2Proof.Machine.execClose k s
  | .nctPut r raw => Sys2Proof.Machine.execNctPut r raw s
  | .nctGet r raw => Sys2Proof.Machine.execNctGet r raw s
  | .nctSignal r raw => Sys2Proof.Machine.execNctSignal r raw s
  | .nctFence r raw => Sys2Proof.Machine.execNctFence r raw s
  | .nctOpen r raw => Sys2Proof.Machine.execNctOpen r raw s
  | .nctClose r raw => Sys2Proof.Machine.execNctClose r raw s
  | .nctClearError r raw => Sys2Proof.Machine.execNctClearError r raw s
  | .nctFenceComplete sess => Sys2Proof.Machine.execNctFenceComplete sess s
  | .packetTransmit sess now srcOk poison => Sys2Proof.Machine.execPacketTransmit sess now srcOk poison s
  | .netCreditAvailable nd now => Sys2Proof.Machine.execNetCreditAvailable nd now s
  | .ackTimer sess => Sys2Proof.Machine.execAckTimer sess s
  | .retransmitTimeout sess now => Sys2Proof.Machine.execRetransmitTimeout sess now s
  | .helloTimeout sess => Sys2Proof.Machine.execHelloTimeout sess s
  | .sessionFail sess => Sys2Proof.Machine.execSessionFail sess s
  | .closeTimeout sess => Sys2Proof.Machine.execCloseTimeout sess s
  | .oldKeyExpiry sess => Sys2Proof.Machine.execOldKeyExpiry sess s
  | .rekeyStart sess => Sys2Proof.Machine.execRekeyStart sess s
  | .rnrResend sess msg => Sys2Proof.Machine.execRnrResend sess msg s
  | .allReduce r raw => Sys2Proof.Machine.execAllReduce r raw s
  | .reduceScatter r raw => Sys2Proof.Machine.execReduceScatter r raw s
  | .allGather r raw => Sys2Proof.Machine.execAllGather r raw s
  | .allToAll r raw => Sys2Proof.Machine.execAllToAll r raw s
  | .permute r raw => Sys2Proof.Machine.execPermute r raw s
  | .broadcast r raw => Sys2Proof.Machine.execBroadcast r raw s
  | .collCallStart p comm => Sys2Proof.Machine.execCollCallStart p comm s
  | .permuteStart p => Sys2Proof.Machine.execPermuteStart p s
  | .collPacket k => Sys2Proof.Machine.execCollPacket k s
  | .announce k => Sys2Proof.Machine.execAnnounce k s
  | .epochClosed k => Sys2Proof.Machine.execEpochClosed k s
  | .mismatch k => Sys2Proof.Machine.execMismatch k s
  | .collAbort k => Sys2Proof.Machine.execCollAbort k s
  | .place k => Sys2Proof.Machine.execPlace k s
  | .collCallComplete p comm seq => Sys2Proof.Machine.execCollCallComplete p comm seq s
  | .form c tag p => Sys2Proof.Machine.execForm c tag p s
  | .teardown c tag p => Sys2Proof.Machine.execTeardown c tag p s
  | .replaceDie c tag p => Sys2Proof.Machine.execReplaceDie c tag p s
  | .scrubDone p item => Sys2Proof.Machine.execScrubDone p item s
  | .queueEnable c tag p q cfg => Sys2Proof.Machine.execQueueEnable c tag p q cfg s
  | .doorbell p q tail => Sys2Proof.Machine.execDoorbell p q tail s
  | .entryIssue p q waitNs => Sys2Proof.Machine.execEntryIssue p q waitNs s
  | .jobStart p q waitNs => Sys2Proof.Machine.execJobStart p q waitNs s
  | .completionRingSpace p => Sys2Proof.Machine.execCompletionRingSpace p s
  | .preempt p q => Sys2Proof.Machine.execPreempt p q s
  | .switchQuiesced p => Sys2Proof.Machine.execSwitchQuiesced p s
  | .switchSaved p => Sys2Proof.Machine.execSwitchSaved p s
  | .jobResume p => Sys2Proof.Machine.execJobResume p s
  | .pageSemSignal p seq cnt sem => Sys2Proof.Machine.execPageSemSignal p seq cnt sem s
  | .blockClockStop c tag value => Sys2Proof.Machine.execBlockClockStop c tag value s
  | .blockPowerOff c tag value => Sys2Proof.Machine.execBlockPowerOff c tag value s
  | .secBlockOwnerWrite c tag value => Sys2Proof.Machine.execSecBlockOwnerWrite c tag value s
  | .entropyHealthFail => Sys2Proof.Machine.execEntropyHealthFail s
  | .drbgReseed => Sys2Proof.Machine.execDrbgReseed s
  | .loadTargetWrite c tag p value => Sys2Proof.Machine.execLoadTargetWrite c tag p value s
  | .loadWrite p offset data => Sys2Proof.Machine.execLoadWrite p offset data s
  | .attestNonce c tag p nonce => Sys2Proof.Machine.execAttestNonce c tag p nonce s
  | .attestReportSigned cls p => Sys2Proof.Machine.execAttestReportSigned cls p s
  | .getVersion => Sys2Proof.Machine.execGetVersion s
  | .getCapabilities => Sys2Proof.Machine.execGetCapabilities s
  | .negotiateAlgorithms => Sys2Proof.Machine.execNegotiateAlgorithms s
  | .getDigests => Sys2Proof.Machine.execGetDigests s
  | .getCertificate slot offset len => Sys2Proof.Machine.execGetCertificate slot offset len s
  | .getMeasurements index signIt => Sys2Proof.Machine.execGetMeasurements index signIt s
  | .spdmUnsupported code => Sys2Proof.Machine.execSpdmUnsupported code s
  | .fwImageWrite c frame img => Sys2Proof.Machine.execFwImageWrite c frame img s
  | .fwActivateOc c tag => Sys2Proof.Machine.execFwActivateOc c tag s
  | .fwActivateAtReset c tag => Sys2Proof.Machine.execFwActivateAtReset c tag s
  | .fwRaiseSvn c tag => Sys2Proof.Machine.execFwRaiseSvn c tag s
  | .ocActivation => Sys2Proof.Machine.execOcActivation s
  | .ocRestartTimeout => Sys2Proof.Machine.execOcRestartTimeout s
  | .debugToken c tag token sigOk => Sys2Proof.Machine.execDebugToken c tag token sigOk s
  | .read c frame => Sys2Proof.Machine.execRead c frame s
  | .readSegment c frame => Sys2Proof.Machine.execReadSegment c frame s
  | .abort c frame => Sys2Proof.Machine.execAbort c frame s
  | .domWriteSegment c frame => Sys2Proof.Machine.execDomWriteSegment c frame s
  | .registerWrite c frame => Sys2Proof.Machine.execRegisterWrite c frame s
  | .storeCommit ok => Sys2Proof.Machine.execStoreCommit ok s
  | .snapshotExpiry c index sub tag => Sys2Proof.Machine.execSnapshotExpiry c index sub tag s
  | .writeTransferExpiry c index sub tag => Sys2Proof.Machine.execWriteTransferExpiry c index sub tag s
  | .mailboxDoorbell page frame vector => Sys2Proof.Machine.execMailboxDoorbell page frame vector s
  | .mctpMessage m => Sys2Proof.Machine.execMctpMessage m s
  | .mgmtDatagram d => Sys2Proof.Machine.execMgmtDatagram d s
  | .keptResponseExpiry addr port tag => Sys2Proof.Machine.execKeptResponseExpiry addr port tag s
  | .mgmtArpIcmp arp target => Sys2Proof.Machine.execMgmtArpIcmp arp target s
  | .anemSelectWrite c tag k value => Sys2Proof.Machine.execAnemSelectWrite c tag k value s
  | .commRestoreDefaults c tag value => Sys2Proof.Machine.execCommRestoreDefaults c tag value s
  | .containment p => Sys2Proof.Machine.execContainment p s
  | .partitionReset p => Sys2Proof.Machine.execPartitionReset p s
  | .spareSwap die cell => Sys2Proof.Machine.execSpareSwap die cell s
  | .groupRetire group => Sys2Proof.Machine.execGroupRetire group s
  | .engineReset coll e => Sys2Proof.Machine.execEngineReset coll e s
  | .dieReset unit => Sys2Proof.Machine.execDieReset unit s
  | .moduleReset boot fatal => Sys2Proof.Machine.execModuleReset boot fatal s
  | .recoveryDone => Sys2Proof.Machine.execRecoveryDone s
  | .recoveryTimeout => Sys2Proof.Machine.execRecoveryTimeout s
  | .errPartReset c tag value => Sys2Proof.Machine.execErrPartReset c tag value s
  | .errSpareSwap c tag value => Sys2Proof.Machine.execErrSpareSwap c tag value s
  | .errGroupRetire c tag value => Sys2Proof.Machine.execErrGroupRetire c tag value s
  | .almanacCommit n => Sys2Proof.Machine.execAlmanacCommit n s
  | .almanacWindowRead c tag => Sys2Proof.Machine.execAlmanacWindowRead c tag s
  | .almClear c tag value => Sys2Proof.Machine.execAlmClear c tag value s
  | .almanacEraseDone => Sys2Proof.Machine.execAlmanacEraseDone s
  | .modEnRise lowMs => Sys2Proof.Machine.execModEnRise lowMs s
  | .modEnFall => Sys2Proof.Machine.execModEnFall s
  | .inputOutOfRange => Sys2Proof.Machine.execInputOutOfRange s
  | .modResetAssert => Sys2Proof.Machine.execModResetAssert s
  | .modResetRelease straps boot => Sys2Proof.Machine.execModResetRelease straps boot s
  | .perstAssert => Sys2Proof.Machine.execPerstAssert s
  | .perstRelease straps boot => Sys2Proof.Machine.execPerstRelease straps boot s
  | .railsGood straps holdupUf boot => Sys2Proof.Machine.execRailsGood straps holdupUf boot s
  | .slotStartTimeout oc => Sys2Proof.Machine.execSlotStartTimeout oc s
  | .bootStepTimeout cause => Sys2Proof.Machine.execBootStepTimeout cause s
  | .ocReady level => Sys2Proof.Machine.execOcReady level s
  | .trainingRoundDone failed absent trainMs nowMs => Sys2Proof.Machine.execTrainingRoundDone failed absent trainMs nowMs s
  | .retrainTrigger group => Sys2Proof.Machine.execRetrainTrigger group s
  | .retrainDrift group => Sys2Proof.Machine.execRetrainDrift group s
  | .memGroupRetrain c tag value => Sys2Proof.Machine.execMemGroupRetrain c tag value s
  | .retrainDone group ok => Sys2Proof.Machine.execRetrainDone group ok s
  | .ethLinkUp port => Sys2Proof.Machine.execEthLinkUp port s
  | .ethLinkDown port => Sys2Proof.Machine.execEthLinkDown port s
  | .portRestart port => Sys2Proof.Machine.execPortRestart port s
  | .pcieLinkUp width rate flit => Sys2Proof.Machine.execPcieLinkUp width rate flit s
  | .pcieLinkDown => Sys2Proof.Machine.execPcieLinkDown s
  | .marginEdges c tag inst => Sys2Proof.Machine.execMarginEdges c tag inst s
  | .marginMap c tag inst => Sys2Proof.Machine.execMarginMap c tag inst s
  | .marginPcieLane c tag inst => Sys2Proof.Machine.execMarginPcieLane c tag inst s
  | .marginDone result nowMs => Sys2Proof.Machine.execMarginDone result nowMs s
  | .eyeRefresh lane eye => Sys2Proof.Machine.execEyeRefresh lane eye s
  | .pinFunctionWrite c tag pin fn => Sys2Proof.Machine.execPinFunctionWrite c tag pin fn s
  | .pinSwitchComplete pin => Sys2Proof.Machine.execPinSwitchComplete pin s
  | .powerAverageTick watts mv ma => Sys2Proof.Machine.execPowerAverageTick watts mv ma s
  | .dieTempSample temps plate => Sys2Proof.Machine.execDieTempSample temps plate s
  | .powerLimitFence watts => Sys2Proof.Machine.execPowerLimitFence watts s
  | .powerLimitShutdown watts => Sys2Proof.Machine.execPowerLimitShutdown watts s
  | .thermalTrip => Sys2Proof.Machine.execThermalTrip s
  | .refclkLoss ref => Sys2Proof.Machine.execRefclkLoss ref s
  | .refclkReturn ref => Sys2Proof.Machine.execRefclkReturn ref s
  | .inputInRange removed => Sys2Proof.Machine.execInputInRange removed s
  | .keyStoreHandshake => Sys2Proof.Machine.execKeyStoreHandshake s
  | .eidAssignment binding sc eid => Sys2Proof.Machine.execEidAssignment binding sc eid s
  | .configurationRequest req => Sys2Proof.Machine.execConfigurationRequest req s
  | .laneMarginingRequest lane dir steps errors => Sys2Proof.Machine.execLaneMarginingRequest lane dir steps errors s

end Sys2Proof.Machine
end

