-- ==== Sys2Proof/Safety.lean ====
section
/-!
DEFINITION. The terms the statements use: what counts as a sound state, and the conditions on a state and operands
under which a command has its own effect.
-/

namespace Sys2Proof.Machine

/-! ## Soundness of a state -/

/-- The byte memories the whole part shares, the far tier and the host memory it reaches, are in canonical form. -/
def MemoryOk (s : State) : Prop := Memory.wf s.far = true ∧ Memory.wf s.host = true

/-- A safe outcome: the step takes a next state, and it is sound. -/
def Safe (r : Res) : Prop := ∃ t, r = .next t ∧ MemoryOk t

/-! ## Issue of a slot operation -/

/-- A bundle whose sync slot alone holds an operation. -/
def syncOnly (y : SyncSlot) : Bundle := ⟨y, ⟨0, 0, 0, 0, 0, 0, 0, 0, 0, 0⟩, ⟨0, 0, 0, 0, false, 0⟩, ⟨0, 0, 0, 0, 0⟩, ⟨0, 0, 0, 0, 0⟩, 0⟩

/-- A bundle whose vector slot alone holds an operation. -/
def vecOnly (v : VecSlot) : Bundle := ⟨⟨0, 0⟩, v, ⟨0, 0, 0, 0, false, 0⟩, ⟨0, 0, 0, 0, 0⟩, ⟨0, 0, 0, 0, 0⟩, 0⟩

/-- A bundle whose matrix slot alone holds an operation. -/
def matOnly (m : MatSlot) : Bundle := ⟨⟨0, 0⟩, ⟨0, 0, 0, 0, 0, 0, 0, 0, 0, 0⟩, m, ⟨0, 0, 0, 0, 0⟩, ⟨0, 0, 0, 0, 0⟩, 0⟩

/-- A bundle whose stream-in slot alone holds an operation. -/
def sinOnly (x : StreamSlot) : Bundle := ⟨⟨0, 0⟩, ⟨0, 0, 0, 0, 0, 0, 0, 0, 0, 0⟩, ⟨0, 0, 0, 0, false, 0⟩, x, ⟨0, 0, 0, 0, 0⟩, 0⟩

/-- A bundle whose stream-out slot alone holds an operation. -/
def soutOnly (x : StreamSlot) : Bundle := ⟨⟨0, 0⟩, ⟨0, 0, 0, 0, 0, 0, 0, 0, 0, 0⟩, ⟨0, 0, 0, 0, false, 0⟩, ⟨0, 0, 0, 0, 0⟩, x, 0⟩

/-- Cell `g` can issue a bundle: the cell is of partition `p` and issues, no bank request of it is waiting, and none of
R38's conditions holds the bundle. -/
def slotReady (s : State) (p g : Nat) (b : Bundle) : Bool :=
  decide (cellOwner s g = some p) && canIssue s g && decide ((cellOf s g).scratch.losers = []) && (blockedBy s p g b).isNone

/-- No write stream of a cell drains. -/
def quietOuts (c : Cell) : Bool := c.outs.all fun x => !x.2.running

/-- A bundle can issue, and no write stream drains beside it. -/
def slotClear (s : State) (p g : Nat) (b : Bundle) : Bool := slotReady s p g b && quietOuts (cellOf s g)

/-- The part as a bundle issues: the results it leaves due are noted (R38), and the Anemometer of the cell's die counts it. -/
def issued (s : State) (g : Nat) (b : Bundle) : State := anem (modCell s g fun c => noteIssue c b) (g / 80) 1 1

/-- What every issue of a slot operation does beside the operation: one CCLK passes, every generator advances once (R62),
and the bundle's own address is kept (log 15). -/
def slotAfter (s : State) (g : Nat) : State :=
  modCell s g fun c =>
    let d := advanceGens (c.after 1)
    { d with seq := { d.seq with granted := false, held := none, rep := 0 } }

/-- The part after the issue of a bundle that changes cell `g` as `f` says. -/
def slotDone (s : State) (g : Nat) (b : Bundle) (f : Cell → Cell) : State := slotAfter (modCell (issued s g b) g f) g

/-- A cell whose register `dst` has taken `f` in the lanes of mask `mask` (R51). -/
def laneSet (c : Cell) (dst mask : Nat) (f : Nat → Lane) : Cell :=
  setReg c dst ((List.range lanes).map fun i => if (maskReg c mask).getLsbD i then f i else (reg c dst).getD i 0)

/-! ## Accesses that nothing holds back -/

/-- No move makes unit `k` of a read stream wait, and none has vacated a range it reads. -/
def unitClear (s : State) (p g : Nat) (x : InStream) (k : Nat) : Bool :=
  ((unitRuns x k).findSome? fun r => staleAt s p g x.desc.space r.1 r.2).isNone &&
    !((unitRuns x k).any fun r => movingInto s p g x.desc.space r.1 r.2)

/-- No move holds an access to a range of a tier, and none has vacated it. -/
def rangeClear (s : State) (p tier a n : Nat) : Bool := (moveOver s p tier a n).isNone && !moveInto s p tier a n

/-! ## Requests to the dictionary -/

/-- A request that its transport brings to the server and that passes every check but its entry's own (R416, R419). -/
def accepted (s : State) (c : Caller) (f : List Byte) : Bool :=
  transportUp s c && (!needsOc c || s.server.ready) && (frameCode s c f).isNone && (cutRefused s c f).isNone &&
    !typeBad (frameAddr f) f

end Sys2Proof.Machine
end

