-- ==== Sys2Proof/Certificates/Slice0/Obligations.lean ====
section
/-!
DEFINITION. The statements for the provers: what each command does, when it completes, what it leaves unchanged,
and the invariants of the machine.
-/

open Sys2Proof Sys2Proof.Machine

/-! ## The machine -/

/-- O1. A step runs the command at the front of the queue, with the queue's rest; on an empty queue the part idles, which
is the model's own choice (log 9). Rests on choices of the model: log 9. -/
def Obligations.StepRunsFront : Prop :=
  (∀ (c : Instr) (rest : List Instr) (s : State), s.pending = c :: rest → step s = exec c { s with pending := rest }) ∧
    ∀ s : State, s.pending = [] → step s = .next s

/-- O2. Every step leaves the far tier and the host memory in canonical form. Rests on choices of the model: log 6. -/
def Obligations.StepKeepsMemoryCanonical : Prop :=
  ∀ s t : State, MemoryOk s → step s = .next t → MemoryOk t

/-- O3. The state after reset has it. Rests on choices of the model: log 6, 8. -/
def Obligations.ResetMemoryCanonical : Prop :=
  MemoryOk State.reset

/-- O4. A command leaves the waiting commands as they were, and every command completes: none faults, none is refused.
Rests on choices of the model: log 101. -/
def Obligations.EveryCommandCompletes : Prop :=
  ∀ (c : Instr) (s : State), ∃ t, exec c s = .next t ∧ t.pending = s.pending

/-- O5. What a swap has fenced off stays fenced, what has been retired stays retired, whatever the command, a module reset
and a loss of power among them. -/
def Obligations.FencedStaysFenced : Prop :=
  ∀ (c : Instr) (s t : State), exec c s = .next t →
    (∀ g ∈ s.nv.fenced, g ∈ t.nv.fenced) ∧ ∀ d ∈ s.nv.retired, d ∈ t.nv.retired

/-- O6. SEC_SVN, the time of operation and the count of power cycles never fall, whatever the command; nor does the number
of the next free value, a field of the model. Rests on choices of the model: log 2, 54. -/
def Obligations.NonvolatileCountersRise : Prop :=
  (∀ (c : Instr) (s t : State), exec c s = .next t → svnOf s.nv ≤ svnOf t.nv) ∧
  (∀ (c : Instr) (s t : State), exec c s = .next t →
    s.nv.opMs ≤ t.nv.opMs ∧ s.nv.powerCycles ≤ t.nv.powerCycles ∧ s.fresh ≤ t.fresh)

/-- O7. After reset every dictionary entry reads its default value, no command waits, no partition holds a resource, and
nothing is listed in any memory. Rests on choices of the model: log 6, 8, 138. -/
def Obligations.ResetState : Prop :=
  (∀ a, odGet State.reset a = odDefault a) ∧ State.reset.pending = [] ∧ (∀ p, (partOf State.reset p).dies = [] ∧ (partOf State.reset p).groups = []) ∧
    (∀ a, mget State.reset.far a = 0 ∧ mget State.reset.host a = 0) ∧ (∀ g, (cellOf State.reset g).seq.status = .halted) ∧
    State.reset.boot.railsUp = false ∧ State.reset.out = []

/-! ## Bundles and lanes -/

/-- O8. The fields of a bundle are read from the bits that hold them: every bundle whose fields fit its slots is read back
from its word. -/
def Obligations.BundleWordReadBack : Prop :=
  ∀ b : Bundle, b.fits = true → Bundle.ofWord b.word = b

/-- O9. The floating-point lane operations, where the cell can issue them: one rounding per unmasked lane, masked lanes
kept, and nothing else of the part changed but what every issue does. Rests on choices of the model: log 15. -/
def Obligations.FloatLaneOps : Prop :=
  ∀ s p g dst sa sb sc mask dt, dst < 64 → sa < 64 → sb < 64 → sc < 64 → mask < 8 → dt < 2 →
    let c := cellOf s g
    let a := fun i => (reg c sa).getD i 0
    let b := fun i => (reg c sb).getD i 0
    let d := fun i => (reg c sc).getD i 0
    let gives := fun (x : Instr) (op r : Nat) (f : Nat → Lane) =>
      let v := vecOnly ⟨op, dst, sa, sb, r, mask, dt, 0, 0, 0⟩
      slotClear s p g v = true → exec x s = .next (slotDone s g v fun c => laneSet c dst mask f)
    gives (.vadd g dst sa sb mask dt) 1 0 (fun i => laneOut dt ((laneVal dt (a i)).add (laneVal dt (b i)))) ∧
      gives (.vsub g dst sa sb mask dt) 2 0 (fun i => laneOut dt ((laneVal dt (a i)).add (laneVal dt (b i)).neg)) ∧
      gives (.vmul g dst sa sb mask dt) 3 0 (fun i => laneOut dt ((laneVal dt (a i)).mul (laneVal dt (b i)))) ∧
      gives (.vfma g dst sa sb sc mask dt) 4 sc (fun i =>
        laneOut dt (((laneVal dt (a i)).mul (laneVal dt (b i))).add (laneVal dt (d i)))) ∧
      gives (.vmax g dst sa sb mask dt) 5 0 (fun i => laneNarrow dt (extremum32 true (laneCode dt (a i)) (laneCode dt (b i)))) ∧
      gives (.vmin g dst sa sb mask dt) 6 0 (fun i => laneNarrow dt (extremum32 false (laneCode dt (a i)) (laneCode dt (b i))))

/-- O10. The integer and logic lane operations, VBCAST, VSEL, the reductions over unmasked lanes and the random draws,
where the cell can issue them. Rests on choices of the model: log 15. -/
def Obligations.IntegerAndOtherLaneOps : Prop :=
  ∀ s p g dst sa sb sel mask imm dt, dst < 64 → sa < 64 → sb < 64 → sel < 8 → mask < 8 → imm < 4096 → dt < 2 →
    let c := cellOf s g
    let m := maskReg c mask
    let a := fun i => (reg c sa).getD i 0
    let b := fun i => (reg c sb).getD i 0
    let gives := fun (x : Instr) (v : VecSlot) (f : Nat → Lane) =>
      slotClear s p g (vecOnly v) = true → exec x s = .next (slotDone s g (vecOnly v) fun c => laneSet c dst mask f)
    let two := fun op => (⟨op, dst, sa, sb, 0, mask, 0, 0, 0, 0⟩ : VecSlot)
    gives (.viadd g dst sa sb mask) (two 8) (fun i => a i + b i) ∧
      gives (.visub g dst sa sb mask) (two 9) (fun i => a i - b i) ∧
      gives (.vimul g dst sa sb mask) (two 10) (fun i => a i * b i) ∧
      gives (.vand g dst sa sb mask) (two 11) (fun i => a i &&& b i) ∧
      gives (.vor g dst sa sb mask) (two 12) (fun i => a i ||| b i) ∧
      gives (.vxor g dst sa sb mask) (two 13) (fun i => a i ^^^ b i) ∧
      gives (.vshl g dst sa sb mask) (two 14) (fun i => a i <<< ((b i).toNat % 32)) ∧
      gives (.vshr g dst sa sb mask) (two 15) (fun i => a i >>> ((b i).toNat % 32)) ∧
      gives (.vbcast g dst imm mask) ⟨19, dst, 0, 0, 0, mask, 0, 0, 0, imm⟩ (fun _ => BitVec.ofInt 32 (signed 12 imm)) ∧
      gives (.vsel g dst sa sb sel mask) ⟨18, dst, sa, sb, sel, mask, 0, 0, 0, 0⟩ (fun i =>
        if (maskReg c sel).getLsbD i then a i else b i) ∧
      gives (.vrsum g dst sa mask dt) ⟨24, dst, sa, 0, 0, mask, dt, 0, 0, 0⟩ (fun _ => reduceOp true dt m (reg c sa)) ∧
      gives (.vrmax g dst sa mask dt) ⟨25, dst, sa, 0, 0, mask, dt, 0, 0, 0⟩ (fun _ => reduceOp false dt m (reg c sa)) ∧
      gives (.vrand g dst mask) ⟨56, dst, 0, 0, 0, mask, 0, 0, 0, 0⟩ (fun i => ((tget c.gens i).getD {}).output) ∧
      gives (.vrandu g dst mask) ⟨57, dst, 0, 0, 0, mask, 0, 0, 0, 0⟩ (fun i => uniformOf ((tget c.gens i).getD {}).output)

/-- O11. The special functions, where the cell can issue them. Rests on choices of the model: log 15, 16. -/
def Obligations.SpecialFunctions : Prop :=
  ∀ s p g dst sa mask dt, dst < 64 → sa < 64 → mask < 8 → dt < 2 →
    let c := cellOf s g
    let x := fun i => laneVal dt ((reg c sa).getD i 0)
    let gives := fun (k : Instr) (op : Nat) (f : Nat → Nat) =>
      let v := vecOnly ⟨op, dst, sa, 0, 0, mask, dt, 0, 0, 0⟩
      slotClear s p g v = true → exec k s = .next (slotDone s g v fun c => laneSet c dst mask fun i => BitVec.ofNat 32 (f i))
    gives (.vexp2 g dst sa mask dt) 32 (fun i => exp2Code (laneFmt dt) (x i)) ∧
      gives (.vlog2 g dst sa mask dt) 33 (fun i => log2Code (laneFmt dt) (x i)) ∧
      gives (.vrsqrt g dst sa mask dt) 34 (fun i => rsqrtCode (laneFmt dt) (x i)) ∧
      gives (.vrcp g dst sa mask dt) 35 (fun i => rcpCode (laneFmt dt) (x i)) ∧
      gives (.vsin g dst sa mask dt) 36 (fun i => trigCode (laneFmt dt) false (x i)) ∧
      gives (.vcos g dst sa mask dt) 37 (fun i => trigCode (laneFmt dt) true (x i))

/-- O12. The compares: in unmasked lanes the mask register takes the comparison, in the others it keeps its bit; a compare
of mask 0, which reads as all ones, is an illegal bundle. Rests on choices of the model: log 15. -/
def Obligations.Compares : Prop :=
  ∀ s p g dst sa sb mask dt, dst < 8 → sa < 64 → sb < 64 → mask < 8 → dt < 3 →
    let c := cellOf s g
    let bits := fun (lt : Bool) (i : Nat) =>
      if (maskReg c mask).getLsbD i then cmpOp lt dt ((reg c sa).getD i 0) ((reg c sb).getD i 0) else (maskReg c dst).getLsbD i
    let ends := fun (x : Instr) (op : Nat) (lt : Bool) =>
      let v := vecOnly ⟨op, dst, sa, sb, 0, mask, dt, 0, 0, 0⟩
      slotClear s p g v = true →
        if dst = 0 then exec x s = .next (cellErr (odInc s Ad.cellIllegalBundleCount) g .illegalBundle 0 false)
        else ∃ m : BitVec 128, (∀ i, i < 128 → m.getLsbD i = bits lt i) ∧
          exec x s = .next (slotDone s g v fun c => { c with masks := tset c.masks dst m })
    ends (.vcmplt g dst sa sb mask dt) 16 true ∧ ends (.vcmpeq g dst sa sb mask dt) 17 false

/-- O13. What the register operations leave unchanged: every other cell, every byte of the far tier, of the host's memory
and of the scratchpads, every register but the destination, the mask registers, the streams and accumulators; of the
dictionary's values only the Anemometer's counts may change, of the sequencer only the CCLK count, the record of an
issue and the results due, and of the scratchpad's only the ports taken in the CCLK. Rests on choices of the model:
log 15. -/
def Obligations.LaneFrame : Prop :=
  ∀ (s t : State) (p g dst sa sb sc sel mask imm dt : Nat), dst < 64 → sa < 64 → sb < 64 → sc < 64 → sel < 8 → mask < 8 →
    imm < 4096 → dt < 2 →
    let v := fun (op sa sb sc dt imm : Nat) => (⟨op, dst, sa, sb, sc, mask, dt, 0, 0, imm⟩ : VecSlot)
    ∀ x ∈ [(Instr.vadd g dst sa sb mask dt, v 1 sa sb 0 dt 0), (.vsub g dst sa sb mask dt, v 2 sa sb 0 dt 0),
        (.vmul g dst sa sb mask dt, v 3 sa sb 0 dt 0), (.vfma g dst sa sb sc mask dt, v 4 sa sb sc dt 0),
        (.vmax g dst sa sb mask dt, v 5 sa sb 0 dt 0), (.vmin g dst sa sb mask dt, v 6 sa sb 0 dt 0),
        (.viadd g dst sa sb mask, v 8 sa sb 0 0 0), (.visub g dst sa sb mask, v 9 sa sb 0 0 0),
        (.vimul g dst sa sb mask, v 10 sa sb 0 0 0), (.vand g dst sa sb mask, v 11 sa sb 0 0 0),
        (.vor g dst sa sb mask, v 12 sa sb 0 0 0), (.vxor g dst sa sb mask, v 13 sa sb 0 0 0),
        (.vshl g dst sa sb mask, v 14 sa sb 0 0 0), (.vshr g dst sa sb mask, v 15 sa sb 0 0 0),
        (.vbcast g dst imm mask, v 19 0 0 0 0 imm), (.vsel g dst sa sb sel mask, v 18 sa sb sel 0 0),
        (.vrsum g dst sa mask dt, v 24 sa 0 0 dt 0), (.vrmax g dst sa mask dt, v 25 sa 0 0 dt 0),
        (.vexp2 g dst sa mask dt, v 32 sa 0 0 dt 0), (.vlog2 g dst sa mask dt, v 33 sa 0 0 dt 0),
        (.vrsqrt g dst sa mask dt, v 34 sa 0 0 dt 0), (.vrcp g dst sa mask dt, v 35 sa 0 0 dt 0),
        (.vsin g dst sa mask dt, v 36 sa 0 0 dt 0), (.vcos g dst sa mask dt, v 37 sa 0 0 dt 0),
        (.vrand g dst mask, v 56 0 0 0 0 0), (.vrandu g dst mask, v 57 0 0 0 0 0)],
      slotClear s p g (vecOnly x.2) = true → exec x.1 s = .next t →
        t = { s with od := t.od, cells := t.cells } ∧ (∀ h, h ≠ g → cellOf t h = cellOf s h) ∧
        (∀ a, (∀ k, k < 32 → a ≠ Ad.anemCount k) → odGet t a = odGet s a) ∧
        (∀ r, r ≠ dst → reg (cellOf t g) r = reg (cellOf s g) r) ∧
        cellOf t g = { cellOf s g with vregs := (cellOf t g).vregs, gens := (cellOf t g).gens, seq := (cellOf t g).seq,
                                       scratch := { (cellOf s g).scratch with asked := [] } } ∧
        (cellOf t g).seq = { (cellOf s g).seq with cclk := (cellOf s g).seq.cclk + 1, granted := false, held := none, rep := 0,
                                                   ready := (cellOf t g).seq.ready }

/-- O14. A floating-point operation with DT INT32, or with a reserved DT, is an illegal bundle. Rests on choices of the
model: log 15. -/
def Obligations.IllegalDt : Prop :=
  ∀ s p g dst sa sb sc mask dt, cellOwner s g = some p → canIssue s g = true → dst < 64 → sa < 64 → sb < 64 → sc < 64 →
    mask < 8 → 2 ≤ dt → dt < 8 →
      let bad := fun (x : Instr) => exec x s = .next (cellErr (odInc s Ad.cellIllegalBundleCount) g .illegalBundle 0 false)
      bad (.vadd g dst sa sb mask dt) ∧ bad (.vsub g dst sa sb mask dt) ∧ bad (.vmul g dst sa sb mask dt) ∧
        bad (.vfma g dst sa sb sc mask dt) ∧ bad (.vmax g dst sa sb mask dt) ∧ bad (.vmin g dst sa sb mask dt) ∧
        bad (.vrsum g dst sa mask dt) ∧ bad (.vrmax g dst sa mask dt) ∧ bad (.vexp2 g dst sa mask dt) ∧
        bad (.vlog2 g dst sa mask dt) ∧ bad (.vrsqrt g dst sa mask dt) ∧ bad (.vrcp g dst sa mask dt) ∧
        bad (.vsin g dst sa mask dt) ∧ bad (.vcos g dst sa mask dt)

/-- O15. Rounding to nearest, ties to even, is within half a unit, and a tie is even. -/
def Obligations.RneNearest : Prop :=
  ∀ n d : Nat, 0 < d →
    2 * n ≤ 2 * d * rne n d + d ∧ 2 * d * rne n d ≤ 2 * n + d ∧
      (2 * n = 2 * d * rne n d + d ∨ 2 * d * rne n d = 2 * n + d → rne n d % 2 = 0)

/-! ## The tensor cell's other operations -/

/-- O16. VCVT and VCVTMX, where the cell can issue them: the register takes the converted row, and the cell's amax entry
for the slot, made where there is none and the unit has room, folds what the conversion found. Rests on choices of the
model: log 15. -/
def Obligations.Conversions : Prop :=
  ∀ s p g dst sa mask dt rnd slot target, dst < 64 → sa < 64 → mask < 8 → dt < 3 → rnd < 2 → slot < 4096 → target < 16 →
    let c := cellOf s g
    ((∃ e ∈ c.amax, e.slot = slot) ∨ c.amax.length < 64) →
    let l := if c.amax.any (fun e => e.slot = slot) then c.amax else c.amax ++ [{ slot := slot }]
    let src := cvtSource dt (maskReg c mask) (rnd == 1 && srAllowed s p) (drawsOf c) (reg c sa)
    let ends := fun (x : Instr) (op : Nat) (r : List Lane × Amax) =>
      let v := vecOnly ⟨op, dst, sa, 0, 0, mask, dt, rnd, slot, target⟩
      slotClear s p g v = true → exec x s = .next (slotDone s g v fun c =>
        { setReg c dst r.1 with amax := l.map fun e => if e.slot = slot then e.fold r.2 else e })
    (target ∈ [0, 1, 2, 8] →
        ends (.vcvt g dst sa mask dt rnd slot target) 48 (vcvt target slot (scaleOf s p slot).1 (scaleOf s p slot).2 src)) ∧
      (3 ≤ target → target ≤ 7 →
        ends (.vcvtmx g dst sa mask dt rnd slot target) 49 (vcvtmx target slot (scaleOf s p slot).1 src))

/-- O17. VLD, where the cell can issue it and no port of its banks is taken: the unmasked lanes take the 512 bytes at
IMM × 512 of the cell's scratchpad, four bytes a lane. Rests on choices of the model: log 15. -/
def Obligations.VectorLoad : Prop :=
  ∀ s p g dst imm mask, dst < 64 → imm < 4096 → mask < 8 →
    let c := cellOf s g
    let phys := scratchPhys c true (imm * 512)
    let v := vecOnly ⟨64, dst, 0, 0, 0, mask, 0, 0, 0, imm⟩
    slotClear s p g v = true → c.scratch.asked = [] → (partOf s p).moves = [] → scratchWithheld c (imm * 512 / 8192) = false →
    c.scratch.poison = [] → c.scratch.upsets = [] → c.scratch.vld = none →
    exec (.vld g dst imm mask) s =
      .next (slotDone s g v fun c => laneSet c dst mask fun i => BitVec.ofNat 32 (fieldLE (mread c.scratch.mem phys 512) (4 * i) 4))

/-- O18. VST, where the cell can issue it and no port of its banks is taken: the bytes of the unmasked lanes are stored at
IMM × 512, a scrub's corrections of the words written are cancelled, and every other byte of the scratchpad, and of the
part, stays as it was. Rests on choices of the model: log 15, 133. -/
def Obligations.VectorStore : Prop :=
  ∀ s p g sa imm mask, sa < 64 → imm < 4096 → mask < 8 →
    let c := cellOf s g
    let phys := scratchPhys c true (imm * 512)
    let v := vecOnly ⟨65, 0, sa, 0, 0, mask, 0, 0, 0, imm⟩
    slotClear s p g v = true → c.scratch.asked = [] → (partOf s p).moves = [] → scratchWithheld c (imm * 512 / 8192) = false →
    c.scratch.poison = [] → c.scratch.upsets = [] → c.scratch.vld = none → c.shadows = [] →
    let back := c.scratch.scrubBack.filter fun e => decide (e.2 < phys / 64) || decide (phys / 64 + 8 ≤ e.2)
    ∃ m : Mem, exec (.vst g sa imm mask) s =
        .next (slotDone s g v fun c => { c with scratch := { c.scratch with mem := m, scrubBack := back } }) ∧
      (∀ k, k < 512 → (maskReg c mask).getLsbD (k / 4) = true →
        mget m (phys + k) = (leBytes 4 ((reg c sa).getD (k / 4) 0).toNat).getD (k % 4) 0) ∧
      ∀ a, (a < phys ∨ phys + 512 ≤ a ∨ (maskReg c mask).getLsbD ((a - phys) / 4) = false) → mget m a = mget c.scratch.mem a

/-- O19. NOP, SETCNT, LOOP, SEM_SIGNAL, AMAXFLUSH and DONE at their issue, where the cell can issue them. Rests on choices
of the model: log 15. -/
def Obligations.SyncOps : Prop :=
  ∀ s p g,
    let c := cellOf s g
    (slotClear s p g (syncOnly ⟨0, 0⟩) = true → exec (.nop g) s = .next (slotDone s g (syncOnly ⟨0, 0⟩) id)) ∧
      (∀ ctr cnt, ctr < 4 → cnt < 2 ^ 20 →
        let b := syncOnly ⟨4, ctr * 2 ^ 24 + cnt⟩
        slotClear s p g b = true →
        exec (.setcnt g ctr cnt) s = .next (slotDone s g b fun c => { c with lcs := tset c.lcs ctr cnt })) ∧
      (∀ ctr target, ctr < 4 → target < 4096 →
        let b := syncOnly ⟨5, ctr * 2 ^ 24 + target * 2 ^ 12⟩
        slotClear s p g b = true →
        exec (.loop g ctr target) s = .next (slotDone s g b fun c =>
          if (tget c.lcs ctr).getD 0 = 0 then c
          else { c with lcs := tset c.lcs ctr ((tget c.lcs ctr).getD 0 - 1), seq := { c.seq with pc := target } })) ∧
      (∀ sem cnt, sem < 256 → 1 ≤ cnt → cnt ≤ 256 →
        let b := syncOnly ⟨2, sem * 2 ^ 18 + (cnt - 1) * 2 ^ 10⟩
        slotClear s p g b = true →
        exec (.semSignal g sem cnt) s =
          .next (slotAfter (modJob (issued s g b) p fun j =>
            { j with incs := j.incs ++ [⟨some g, j.seq, sem, cnt, false, openOuts c⟩] }) g)) ∧
      (slotClear s p g (syncOnly ⟨6, 0⟩) = true →
        exec (.amaxflush g) s = .next (slotAfter (amaxFlush (issued s g (syncOnly ⟨6, 0⟩)) g) g)) ∧
      (slotClear s p g (syncOnly ⟨7, 0⟩) = true →
        exec (.done g) s = .next (slotAfter (modSeq (amaxFlush (issued s g (syncOnly ⟨7, 0⟩)) g) g fun q =>
          { q with status := .done, doneInput := true }) g))

/-- O20. SEM_WAIT takes one from a count of at least 1 when nobody waits before it, at its cost in CCLK, and else holds
issue in the queue of its semaphore's home; FENCE and the predicate fence hold issue. Rests on choices of the model:
log 15. -/
def Obligations.WaitsAndFences : Prop :=
  ∀ s p g, cellOwner s g = some p → canIssue s g = true → (cellOf s g).seq.granted = false →
    (∀ sem, sem < 256 →
      let b := syncOnly ⟨1, sem * 2 ^ 18⟩
      let before := (partOf s p).job.any fun j => j.waiters.any fun w => w.1 == sem
      (1 ≤ semCount s p sem → before = false → slotClear s p g b = true →
        exec (.semWait g sem) s = .next (slotDone (waitCost (semTake s p sem) p g sem) g b id)) ∧
      (semCount s p sem = 0 ∨ before = true →
        exec (.semWait g sem) s =
          .next (modJob (modSeq s g fun q => { q with status := .waitSem sem, held := some (syncWord 1 (sem * 2 ^ 18)) }) p fun j =>
            { j with waiters := j.waiters ++ [(sem, g)] }))) ∧
    exec (.fence g) s = .next (modSeq s g fun q => { q with status := .waitFence, held := some (syncWord 3 0) }) ∧
    ∀ sem, sem < 256 →
      exec (.fencePredicate g sem) s = .next (modSeq s g fun q =>
        { q with status := .waitPred sem, held := some (syncWord 3 (2 ^ 24 + sem * 2 ^ 16)) })

/-- O21. MLOAD takes the weight port for its read stream, MLOAD_COMPLETE fills the inactive buffer with the tile's rows
and frees it, MSWAP changes the active buffer. Rests on choices of the model: log 15. -/
def Obligations.WeightLoad : Prop :=
  ∀ s p g,
    let c := cellOf s g
    (∀ fmt rs, fmt < 9 → rs < 4 →
      let b := matOnly ⟨1, fmt, 0, 0, false, rs⟩
      slotClear s p g b = true → matFault c b.mat = none →
      exec (.mload g fmt rs) s = .next (slotDone s g b fun c => { c with wload := some (fmt, rs) })) ∧
    (∀ fmt rs x t, c.wload = some (fmt, rs) → tget c.ins rs = some x → x.tile = some t → t.trow ≤ x.fifo.length →
      ((x.fifo.take t.trow).any (·.poison)) = false →
      let b : WBuf := { fmt := some fmt, vr := t.vr, vc := t.vc, rows := (x.fifo.take t.trow).map (·.bytes) }
      let y := { x with fifo := x.fifo.drop t.trow, consumed := x.consumed + t.trow }
      exec (.mloadComplete g) s =
        .next (setCell s g { c with wload := none, ins := tset c.ins rs y, wbuf0 := if c.wactive then b else c.wbuf0,
                                    wbuf1 := if c.wactive then c.wbuf1 else b })) ∧
    (let b := matOnly ⟨2, 0, 0, 0, false, 0⟩
     slotClear s p g b = true → exec (.mswap g) s = .next (slotDone s g b fun c => { c with wactive := !c.wactive }))

/-- O22. MMAC adds the input row's products to an accumulator row, MMACZ starts it from zero; the row is consumed, and
counted as valid or padding. Rests on choices of the model: log 15. -/
def Obligations.MatrixMultiply : Prop :=
  ∀ s p g fmt bank row rs x t u rest, fmt < 9 → bank < 4 → row < 64 → rs < 4 →
    let c := cellOf s g
    tget c.ins rs = some x → x.tile = some t → x.fifo = u :: rest → u.poison = false →
    ((activeBuf c).fmt.any fun w => !paired fmt w) = false →
    let base := bank * 4096 + row * 64
    let ends := fun (k : Instr) (op : Nat) (old : List (Option (BitVec 32))) =>
      let b := matOnly ⟨op, fmt, bank, row, false, rs⟩
      let out := macRow fmt u.bytes (if u.index < t.vr then t.vc else 0) (activeBuf c) old
      slotClear s p g b = true → matFault c b.mat = none →
      exec k s = .next (slotAfter (odInc
        (modCell (anem (issued s g b) (g / 80) 3 1) g fun c =>
          { c with acc := (List.range 64).foldl (fun a n => tset a (base + n) (out.getD n 0)) c.acc,
                   ins := tset c.ins rs { x with fifo := rest, consumed := x.consumed + 1 } })
        (if u.index < t.vr then Ad.partValidRows p else Ad.partPadRows p)) g)
    ends (.mmac g fmt bank row rs) 3 ((List.range 64).map fun n => some ((tget c.acc (base + n)).getD 0)) ∧
      ends (.mmacz g fmt bank row rs) 4 ((List.range 64).map fun _ => none)

/-- O23. How a packed row's elements and scale bytes are read, and the accumulator's special results. Element i is the
bits from w × i of the row's little-endian bytes (w is 8, 6 or 4), the scale byte of its block of 32 follows the
elements in block order. The sum is NaN of a NaN term, of a scale byte of 0xFF, of zero times infinity, and of
infinities of both signs; else an infinite term's infinity. Column n of a row is the sum of its terms. -/
def Obligations.MatrixOperands : Prop :=
  (∀ (fmt n i : Nat) (row : List Byte), 3 ≤ fmt → fmt ≤ 7 → n % 32 = 0 → i < n →
    let w := if fmt = 7 then 4 else if fmt = 5 ∨ fmt = 6 then 6 else 8
    let e := rowElem fmt n row (leNat row) i
    (∀ j, e.1.testBit j = if j < w then (row.getD ((w * i + j) / 8) 0).getLsbD ((w * i + j) % 8) else false) ∧
      e.2 = (row.getD (n * w / 8 + i / 32) 0).toNat) ∧
  ((∀ ts : List Val, Val.nan ∈ ts ∨ Val.inf true ∈ ts ∧ Val.inf false ∈ ts → macSum ts = 0x7FC00000) ∧
  (∀ (ts : List Val) (neg : Bool), Val.nan ∉ ts → Val.inf neg ∈ ts → Val.inf (!neg) ∉ ts →
    macSum ts = if neg then 0xFF800000 else 0x7F800000) ∧
  (∀ fa fw ra xa rw xw : Nat, xa = 255 ∨ xw = 255 → macTerm fa fw ra xa rw xw = .nan) ∧
  (∀ (fa fw ra xa rw xw : Nat) (n m : Bool) (e : Int),
    elemVal fa ra = .fin n 0 e ∧ elemVal fw rw = .inf m ∨ elemVal fa ra = .inf m ∧ elemVal fw rw = .fin n 0 e →
    macTerm fa fw ra xa rw xw = .nan) ∧
  ∀ (fmt valid fw n : Nat) (row : List Byte) (b : WBuf) (old : List (Option (BitVec 32))), b.fmt = some fw → n < 64 → n < b.vc →
    0 < min (min (rowK fmt) valid) b.vr →
    let term := fun k =>
      let a := rowElem fmt (rowK fmt) row (leNat row) k
      let w := rowElem fw 64 (b.rows.getD k []) (leNat (b.rows.getD k [])) n
      macTerm fmt fw a.1 a.2 w.1 w.2
    let terms := (List.range (min (min (rowK fmt) valid) b.vr)).map term
    (macRow fmt row valid b old).getD n 0 =
      BitVec.ofNat 32 (macSum (match old.getD n none with | none => terms | some o => decodeVal fp32 o.toNat :: terms)))

/-- O24. SSTART of a stream whose descriptors pass the checks of its start begins it from its first unit or group, and
joins it to its broadcast group where it names one; SSTOP ends it. Rests on choices of the model: log 15, 18. -/
def Obligations.StreamStartStop : Prop :=
  ∀ s p g,
    let c := cellOf s g
    (∀ stream desc near addr, stream < 4 → desc < 2 ^ 15 → near < 2 → addr < 2 ^ 15 →
      let b := sinOnly ⟨1, stream, desc, near, addr⟩
      let r := startReads c desc (decide (near = 1))
      let u := startChecked (issued s g b) g desc (decide (near = 1))
      let x : InStream :=
        { running := true, desc := r.1, tile := r.2.1, matrix := decide (near = 1), addr := addr * 64,
          total := unitCount r.1 r.2.1 r.2.2.1, reqTotal := requestCount r.1 r.2.1, aux := r.2.2.1,
          group := (r.2.1.filter fun y => decide (y.bcast ≠ 0)).map TileDesc.bcast }
      let v := modCell u g fun c => { c with ins := tset c.ins stream x }
      let w := if r.1.xform = 11 then writeBoxes v p g r.1 r.2.2.1 else v
      slotClear s p g b = true → r.2.2.2 = none →
      startFault u p g desc r.1 r.2.1 r.2.2.1 false (addr * 64) (if r.1.space = 2 then c.seq.budgets.getD stream 0 else 0) = none →
      alive w g = true → quietOuts (cellOf w g) = true →
      ((r.2.1.all fun y => decide (y.bcast = 0)) = true →
        exec (.sstartIn g stream desc near addr) s = .next (slotAfter w g)) ∧
      ∀ y t, r.2.1 = some y → y.bcast ≠ 0 → joinGroup w g stream y x = some t →
        exec (.sstartIn g stream desc near addr) s = .next (slotAfter t g)) ∧
    (∀ stream x, stream < 4 → tget c.ins stream = some x → x.running = true →
      let b := sinOnly ⟨2, stream, 0, 0, 0⟩
      slotClear s p g b = true → exec (.sstopIn g stream) s = .next (slotAfter (endIn (issued s g b) g stream) g)) ∧
    (∀ stream x, stream < 2 → tget c.outs stream = some x → quietOuts { c with outs := tset c.outs stream { x with running := false } } = true →
      let b := soutOnly ⟨2, stream, 0, 0, 0⟩
      slotReady s p g b = true →
      exec (.sstopOut g stream) s =
        .next (slotDone s g b fun c => { c with outs := tset c.outs stream { x with running := false } })) ∧
    (∀ stream desc near addr, stream < 2 → desc < 2 ^ 15 → near < 2 → addr < 2 ^ 15 →
      let b := soutOnly ⟨1, stream, desc, near, addr⟩
      let r := startReads c desc (decide (near = 1))
      let u := startChecked (issued s g b) g desc (decide (near = 1))
      slotReady s p g b = true → r.2.2.2 = none →
      startFault u p g desc r.1 r.2.1 r.2.2.1 true (addr * 64) 0 = none →
      ∃ x : OutStream, x.running = true ∧ x.desc = r.1 ∧ x.tile = r.2.1 ∧ x.acc = decide (near = 1) ∧ x.addr = addr ∧ x.drained = 0 ∧
        let t := drainAll (modCell u g fun c => { c with outs := tset c.outs stream x }) g (drawsOf c)
        (alive t g = true → exec (.sstartOut g stream desc near addr) s = .next (slotAfter t g)))

/-- O25. A bundle at the cell's address issues whole; a bundle with no operation moves the cell on by one bundle. A bundle
that a stall holds waits and is a contract miss, and issues when the stall ends. -/
def Obligations.BundleIssue : Prop :=
  ∀ s p g, cellOwner s g = some p → (cellOf s g).seq.held = none →
    let c := cellOf s g
    let b := Bundle.ofWord (fetchWord c)
    (canIssue s g = true → c.seq.pc < 4096 →
      exec (.bundleIssue g none 0 [] []) s = .next (issueAll s p g (fetchWord c) false none []) ∧
      (slotClear s p g (syncOnly ⟨0, 0⟩) = true → fetchWord c = 0 →
        exec (.bundleIssue g none 0 [] []) s =
          .next (slotDone s g (syncOnly ⟨0, 0⟩) fun c => { c with seq := { c.seq with pc := c.seq.pc + 1 } })) ∧
      ∀ m, bundleIllegal c b = false → matFault c b.mat = none → b.sync.op = 0 →
        exec (.bundleIssue g (some m) 0 [] []) s = .next (stall s g m none)) ∧
    ∀ m cycles, c.seq.status = .stalled m → (dieOf s (g / 80)).hold = false →
      let n := max cycles (max (unitAt c b) (operandAt c b) - c.seq.cclk)
      blockedBy (missCycles s g n) p g b = none →
      exec (.issueResume g cycles) s =
        .next (reissue (modSeq (missCycles s g n) g fun q => { q with status := .running }) g)

/-! ## Streams, semaphores, shadows, walks -/

/-- O26. A far-tier request of a read stream issues where the landing buffer has room and the window's budget lasts, or is
held at its source where the fabric has no credit; a unit due of a stream with contract times arrives in the landing
buffer; a unit that waits there is deposited; a write by a cell of the die, or by no cell, reaches the scratchpad; the
two windows start the counts of requests again. Rests on choices of the model: log 2. -/
def Obligations.StreamData : Prop :=
  (∀ (s : State) (p g stream : Nat) (x0 : InStream), cellOwner s g = some p → tget (cellOf s g).ins stream = some x0 →
    let c := cellOf s g
    let x := skipNever x0.total x0
    let paced := decide (c.seq.budgets.getD stream 0 ≠ 0) && x.contract
    x.running = true → x.desc.space = 2 → x.group = none → x.requested < x.reqTotal → landingRoom c x 1 = true →
    (s.fabric.held.any fun k => k.req == some (g, stream)) = false →
    (paced = true → pacedOf c stream < c.seq.budgets.getD stream 0) →
    let k : FabPkt := { src := g / 80, dst := 16 + keyMd (farKey s p (nextAddr x)),
                        cls := if paced then Traffic.reservedRead.cls else Traffic.data.cls, req := some (g, stream) }
    let d := if paced then { c with paced := tset c.paced stream (pacedOf c stream + 1) } else c
    (fabricFree s.fabric k.src k.dst k.cls k.bytes = true →
      exec (.farRequestIssue g stream) s =
        .next (fabricPut (setCell s g { d with ins := tset c.ins stream { x with requested := x.requested + 1 } }) k)) ∧
    (fabricFree s.fabric k.src k.dst k.cls k.bytes = false →
      exec (.farRequestIssue g stream) s =
        .next (setCell { s with fabric := { s.fabric with held := s.fabric.held ++ [k] } } g { d with ins := tset c.ins stream x }))) ∧
  (∀ (s : State) (p g stream : Nat) (x : InStream), cellOwner s g = some p → tget (cellOf s g).ins stream = some x →
    let k := x.deposited + x.landing.length
    x.running = true → contracted s p g stream x = true → x.group = none → k < x.total → unitNever x k = false →
    (byRequest s p g x = true → needReqs x (k + 1) ≤ x.requested) → unitClear s p g x k = true →
    exec (.unitArrival g stream) s =
      .next (modCell (readChecks (readEffects s p x k true) p g x k) g fun c =>
        { c with ins := tset c.ins stream { x with landing := x.landing ++ [unitOf s p g x k] } })) ∧
  (∀ (s : State) (p g stream : Nat) (x : InStream) (u : Unit_) (rest : List Unit_), cellOwner s g = some p →
    tget (cellOf s g).ins stream = some x → x.running = true → x.deposited < x.total → x.landing = u :: rest →
    (contracted s p g stream x = true → exec (.contractDeposit g stream) s = .next (putUnit s p g stream x u false)) ∧
      (contracted s p g stream x = false →
        exec (.uncontractedDeposit (.unit g stream)) s = .next (putUnit s p g stream x u true)) ∧
      (x.matrix = true → (u.poison = true → x.desc.xform = 0) → ∀ free,
        let y := { x with deposited := x.deposited + 1, landing := rest, fifo := x.fifo ++ [u] }
        putUnit s p g stream x u free = modCell s g fun c => { c with ins := tset c.ins stream y })) ∧
  (∀ (s : State) (p g addr : Nat) (data : List Byte) (poison : Bool), cellOwner s g = some p → dieCleared s (g / 80) = true →
    addr + data.length ≤ 2097152 → rangeClear s p 0 (moveAddr s p g 0 addr) data.length = true →
    let ws := scratchWords (cellOf s g) false addr data.length
    (∀ w, w / 80 = g / 80 →
      exec (.uncontractedDeposit (.write (some w) g addr data poison)) s =
        .next (scratchForeign (bankAsk s p g 3 ws) g addr data poison)) ∧
    ((ws.any fun w => !portFree (cellOf s g) w) = false →
      exec (.uncontractedDeposit (.write none g addr data poison)) s = .next (scratchForeign s g addr data poison))) ∧
  (∀ (s : State) (die : Nat), ∃ t, exec (.pacingWindow die) s = .next t ∧ ∀ g stream,
    pacedOf (cellOf t g) stream = if g / 80 = die then 0 else pacedOf (cellOf s g) stream) ∧
  ∀ (s : State) (md : Nat), exec (.reservedWindow md) s = .next (modMd s md fun m => { m with reserved := [] })

/-- O27. An increment whose signaller's writes are visible reaches its semaphore's home and is added there, across the
fabric where the home is another die; the first wait in the queue of a semaphore that counts is granted and the
semaphore loses one; a wait held too long is an error, where the time-out is not 0; a signal of the media and sample
units joins the increments of its job; an entry whose count is full is merged. Rests on choices of the model: log 2. -/
def Obligations.Semaphores : Prop :=
  (∀ (s : State) (p sem : Nat) (j : Job) (i : Inc) (rest : List Inc), (partOf s p).job = some j →
    takeFirst (fun i => i.sem == sem && writesVisible s p i) j.incs = some (i, rest) →
    i.done = false → semCount s p sem + i.count ≤ 65535 →
    let added := fun (t : State) => modJob (modJob t p fun j => { j with incs := rest }) p fun j =>
      { j with sems := tset j.sems sem (semCount s p sem + i.count) }
    (incPort s p i = none → exec (.semIncrementRelease p sem) s = .next (added s)) ∧
    ∀ src dst, incPort s p i = some (src, dst) → fabricFree s.fabric src dst Traffic.semaphore.cls 64 = true →
      exec (.semIncrementRelease p sem) s = .next (added (fabricPut s { src := src, dst := dst, cls := Traffic.semaphore.cls }))) ∧
  (∀ (s : State) (p sem g : Nat) (j : Job) (rest : List (Nat × Nat)), (partOf s p).job = some j →
    takeFirst (fun w => w.1 == sem) j.waiters = some ((sem, g), rest) → 1 ≤ semCount s p sem →
    exec (.semGrant p sem) s =
      .next (endWait { (modJob (semTake s p sem) p fun j => { j with waiters := rest }) with fresh := s.fresh + 1 } g
        (Config.freeValue s.fresh) 4)) ∧
  (∀ (s : State) (p g sem : Nat), cellOwner s g = some p → latched s p (Ad.partSemTimeoutUs p) ≠ 0 →
    (cellOf s g).seq.status = .waitSem sem ∨ (cellOf s g).seq.status = .waitPred sem →
    exec (.semTimeout g) s = .next (cellErr s g .semTimeout sem false)) ∧
  (∀ (s : State) (p seq cnt sem : Nat) (j : Job), (partOf s p).job = some j → j.seq = seq % 65536 →
    exec (.pageSemSignal p seq cnt sem) s =
      .next (modJob s p fun j => { j with incs := j.incs ++ [⟨none, seq % 65536, sem % 256, cnt % 256 + 1, false, []⟩] })) ∧
  ∀ (s : State) (g slot : Nat) (e : Amax), (cellOf s g).amax.find? (fun e => e.slot = slot) = some e → e.full = true →
    exec (.amaxCountMerge g slot) s =
      .next (modCell (mergeEntry s g e) g fun x => { x with amax := x.amax.filter fun y => y.slot != slot })

/-- O28. A fence ends once its cell's read streams have deposited, its writes are made and its write streams have drained; a
predicate fence commits its shadows on a count of 1, squashes them on 2, and ends in an error on a count above 2. Rests on
choices of the model: log 2, 19. -/
def Obligations.FencesEnd : Prop :=
  (∀ (s : State) (p g cycles : Nat), cellOwner s g = some p → (cellOf s g).seq.status = .waitFence → fenceMet s p g = true →
    (cellOf (drainOut s g) g).seq.status = .waitFence → writeHeld (drainOut s g) p g = false → outsDone (drainOut s g) g = true →
    exec (.fenceComplete g cycles) s = .next (endWait (drainOut s g) g cycles 2)) ∧
  ∀ (s : State) (p g sem : Nat), cellOwner s g = some p → (cellOf s g).seq.status = .waitPred sem →
    let c := cellOf s g
    let es := tagged c sem
    (semCount s p sem = 1 →
      (∀ e ∈ es, (e.2.space = 0 → boundFor c e.2.page false = false) ∧ ∀ x ∈ c.outs, writesTo x.2 e.2.space e.2.page = false) →
      let t := commitAmax (es.foldl (fun t e => commitOne t p g e) s) g sem
      exec (.predicateResolve g) s = .next (endWait { t with fresh := t.fresh + 1 } g (Config.freeValue t.fresh) 6)) ∧
    (semCount s p sem = 2 →
      let t := modCell (es.foldl (fun t e => squashOne t p g e) s) g fun c => { c with spec := c.spec.filter fun x => x.pred ≠ sem }
      exec (.predicateResolve g) s = .next (endWait { t with fresh := t.fresh + 1 } g (Config.freeValue t.fresh) 4)) ∧
    (3 ≤ semCount s p sem → exec (.predicateResolve g) s = .next (cellErr s g .predicateInvalid sem false))

/-- O29. Opening a shadow takes the first free frame of its space, and is refused where shadowing is busy; a freed frame,
and a draining one that no unit in flight is bound for, may be taken again. Rests on choices of the model: log 20. -/
def Obligations.Shadows : Prop :=
  (∀ (s : State) (p g space page pred : Nat) (f : Nat × Nat) (rest : List (Nat × Nat)), cellOwner s g = some p →
    shadowBusy s g space page = false → takeFirst (fun f => f.1 == space) (cellOf s g).freeFrames = some (f, rest) →
    let x : Shadow := { state := 1, space := space, pred := pred, frame := f.2, page := page }
    exec (.shadowOpen g space page pred) s =
      .next (setCell s g { cellOf s g with freeFrames := rest, shadows := tset (cellOf s g).shadows (freeEntry (cellOf s g)) x })) ∧
  (∀ (s : State) (p g space page pred : Nat), cellOwner s g = some p → shadowBusy s g space page = true →
    exec (.shadowOpen g space page pred) s = .next (emit s (.shadowBusy g))) ∧
  (∀ (s : State) (g space frame : Nat), (space, frame) ∈ (cellOf s g).busyFrames →
    exec (.frameFreed g space frame) s =
      .next (setCell s g { cellOf s g with busyFrames := (cellOf s g).busyFrames.filter (· != (space, frame)),
                                           freeFrames := (cellOf s g).freeFrames ++ [(space, frame)] })) ∧
  ∀ (s : State) (g space frame : Nat) (e : Nat × Shadow),
    (cellOf s g).shadows.find? (fun e => e.2.state = 2 && e.2.space = space && e.2.frame = frame) = some e →
    (space = 0 → boundFor (cellOf s g) e.2.page true = false) →
    exec (.shadowDrained g space frame) s =
      .next (setCell s g { cellOf s g with shadows := tdel (cellOf s g).shadows e.1,
                                           freeFrames := (cellOf s g).freeFrames ++ [(space, frame)] })

/-- O30. A broadcast group whose members have all started and have landing space issues its next unit, which joins the
landing buffer of every member whose stream runs: at once for far-tier data without a budget, for what the budget still
allows with one, at a grant of the die for its own Stratus, and at once for any other space. A group whose first unit
lacks a member past the time-out is an error. A die whose 80 cells have raised their done inputs gives its tree's
output. Rests on choices of the model: log 152. -/
def Obligations.BroadcastAndDone : Prop :=
  (∀ (s : State) (p die grp g stream : Nat) (x : BGroup) (l : InStream), dieOwner s die = some p →
    tget (dieOf s die).groups grp = some x → groupLead x = some (g, stream, l) → x.bcount ≤ x.members.length → x.issued < l.total →
    unitClear s p g l x.issued = true →
    let need := needReqs l (x.issued + 1)
    (∀ m ∈ x.members, groupMember s grp m = true → landingUsed (cellOf s m.1) + 64 * (need - needReqs l x.issued) ≤ 65536) →
    let gives := fun (t : State) => exec (.bcastUnitIssue die grp) s = .next (bcastDeliver t p die grp x (g, stream, l))
    let budget := (cellOf s g).seq.budgets.getD stream 0
    let used := pacedOf (cellOf s g) stream
    (l.desc.space = 2 → budget = 0 → gives s) ∧
      (l.desc.space = 2 → budget ≠ 0 →
        let left := min (need - x.requested) (budget - used)
        let s1 := setCell s g { cellOf s g with paced := tset (cellOf s g).paced stream (used + left) }
        (need ≤ x.requested + left → gives s1) ∧
          (x.requested + left < need → exec (.bcastUnitIssue die grp) s =
            .next (modDie s1 die fun d => { d with groups := tset d.groups grp { x with requested := x.requested + left } }))) ∧
      (l.desc.space ≠ 2 → ownStratus s p g l = false → gives s) ∧
      (let ch := stratusChannel (stratusPhys s die (some g) (nextAddr (groupStream x l) % 2 ^ 29))
       l.desc.space ≠ 2 → ownStratus s p g l = true → ((dieOf s die).ungranted.any fun u => u.cell == g % 80) = false →
        grantable (dieOf s die) ch = true → gives (modDie s die fun d => grantOne d ch))) ∧
  (∀ (s : State) (p die grp g stream : Nat) (x : BGroup) (l y : InStream) (m : Nat × Nat), x.members.Nodup → m ∈ x.members →
    let s1 := readChecks (readEffects s p l x.issued (decide ((cellOf s g).seq.budgets.getD stream 0 ≠ 0))) p g l x.issued
    groupMember s grp m = true → tget (cellOf s1 m.1).ins m.2 = some y →
    (tget (cellOf (bcastDeliver s p die grp x (g, stream, l)) m.1).ins m.2).map InStream.landing =
      some (y.landing ++ [unitOf s p g l x.issued])) ∧
  (∀ (s : State) (p die grp : Nat) (x : BGroup), dieOwner s die = some p → tget (dieOf s die).groups grp = some x →
    latched s p (Ad.partSemTimeoutUs p) ≠ 0 → x.issued = 0 → x.members.length < x.bcount →
    exec (.tileBcastTimeout die grp) s = .next (cellErr s (x.members.headD (80 * die, 0)).1 .tileBcastTimeout grp false)) ∧
  ∀ (s : State) (die : Nat), (∀ c, c < 80 → (cellOf s (80 * die + c)).seq.doneInput = true) →
    exec (.dieTreeOutput die) s = .next (modDie s die fun d => { d with treeDone := true })

/-- O31. A walk whose descriptor is valid starts in a free walk of its core, and an invalid one ends the job; entries are
fetched ahead in reads of 32 B; the next slot of the ring is filled from the entry fetched, and past the count with the
null page, where its FREE semaphore allows. Rests on choices of the model: log 2, 21. -/
def Obligations.Walks : Prop :=
  (∀ (s : State) (p k i : Nat) (desc : List Byte) (j : Job), (partOf s p).job = some j → freeWalk (partOf s p) k = some i →
    k < (partOf s p).dies.length →
    let w := Walk.ofBytes k desc
    (walkInvalid s p w desc = false →
      exec (.walkStart p k desc) s = .next (modPart s p fun q => { q with walks := tset q.walks i w })) ∧
    (walkInvalid s p w desc = true →
      exec (.walkStart p k desc) s = .next (coreErrAt s p k .kvPageInvalid w.table))) ∧
  (∀ (s : State) (p w n : Nat) (x : Walk), tget (partOf s p).walks w = some x →
    let m := walkFetch x n
    let a := spaceAddr 2 x.table + 16 * (x.next + x.fetched.length)
    rangeClear s p 2 a (16 * m) = true → maintRuns s p a (16 * m) = false → 0 < m →
    let es := (List.range m).map fun i => farView s p (a + 16 * i) 16
    let reads := (List.range ((a + 16 * m - 1) / 32 - a / 32 + 1)).map (a / 32 + ·)
    exec (.walkEntryFetch p w n) s =
      .next (modPart (reads.foldl (fun t u => farRead t p (32 * u) 32 3) s) p fun q =>
        { q with walks := tset q.walks w { x with fetched := x.fetched ++ es } })) ∧
  ∀ (s : State) (p w : Nat) (x : Walk), tget (partOf s p).walks w = some x →
    rangeClear s p 0 (moveAddr s p (walkCell s p x) 0 (slotAddr x)) 2048 = true →
    (x.nslot ≤ x.next → 1 ≤ semCount s p x.free) →
    let take := fun (t : State) => if x.nslot ≤ x.next then semTake t p x.free else t
    (∀ bs rest, x.next < x.count → x.fetched = (bs, false) :: rest → pageInvalid s p x.d (PageEnt.ofBytes bs) = false →
      let e := PageEnt.ofBytes bs
      exec (.walkSlotFill p w) s =
        .next (emitSlot (take s) p w x e ((List.range 64).map fun t => if t < e.count then e.seg else 0x00010000)
          ((List.range 64).map fun t => if e.step then (e.first + t) % 2 ^ 32 else e.first) false)) ∧
    (x.count ≤ x.next →
      exec (.walkSlotFill p w) s =
        .next (emitSlot (take { s with fresh := s.fresh + 1 }) p w x ⟨true, 2, 2, false, 1, 0, 0, x.nullPage % 2 ^ 48⟩
          (List.replicate 64 0x00010000) ((List.range 64).map fun t => Config.freeValue s.fresh / 2 ^ (32 * t) % 2 ^ 32) true))

/-- O32. The bank requests that lost are made again; a scrub whose bank or channel is free makes its write-back and visits
its next word; the accesses of a die's Stratus are granted in their order; a die's clears start where its rails are up,
and, where no access waits for them, leave its scratchpads and Stratus with nothing listed and its CD_CLEAR_DONE bit
set. Rests on choices of the model: log 159. -/
def Obligations.BanksAndClears : Prop :=
  (∀ (s : State) (p g : Nat), cellOwner s g = some p → (dieOf s (g / 80)).hold = false → (cellOf s g).scratch.losers ≠ [] →
    exec (.bankRetry g) s = .next (bankRound s p g [] false)) ∧
  (∀ (s : State) (g bank : Nat) (upsets : List Upset),
    let s0 := upsetScratch s g upsets
    (dieOf s (g / 80)).hold = false → ((takenPorts (cellOf s0 g)).any fun x => x.1 == bank) = false →
    ((cellOf s0 g).scratch.losers.any fun r => r.addr / 64 % 16 == bank) = false →
    exec (.scratchScrub g bank upsets) s = .next (scrubVisit (scrubWriteBack s0 g bank) g bank)) ∧
  (∀ (s : State) (die chan : Nat) (upsets : List Upset),
    let s0 := upsetStratus s die upsets
    (dieOf s0 die).hold = false → (dieOf s0 die).waiting = [] → spareGrant (dieOf s0 die) chan = true →
    exec (.stratusScrub die chan upsets) s = .next (stratusVisit (stratusWriteBack s0 die chan) die chan)) ∧
  (∀ (s : State) (die : Nat), (dieOf s die).railsUp = true → dieCleared s die = false →
    exec (.dieClear die) s = .next (modDie s die fun d => { d with clearing := true })) ∧
  (∀ (s : State) (die : Nat), (dieOf s die).clearing = true → (dieOf s die).clearWaits = [] →
    (∀ p, (partOf s p).unitWaits = []) → ∃ t, exec (.dieClearDone die) s = .next t ∧
    (∀ g, g / 80 = die → (cellOf t g).scratch.mem = [] ∧ (cellOf t g).scratch.poison = []) ∧ (dieOf t die).stratus = [] ∧
    (dieOf t die).clearing = false ∧ odGet t Ad.cdClearDone = odGet s Ad.cdClearDone ||| 2 ^ die) ∧
  (∀ (s : State) (p die idle : Nat) (upsets : List Upset), dieOwner s die = some p → (dieOf s die).hold = false →
    let s0 := upsetStratus s die upsets
    let old := (dieOf s0 die).ungranted
    let new := (List.range 80).filterMap fun c => if old.any fun u => u.cell == c then none else portRequest s0 p (80 * die + c)
    exec (.stratusRetry die idle upsets) s =
      .next (grantAll (modDie s0 die fun d => { atCycle d (d.cyc + 1 + idle) with ungranted := [] }) p die
        (stratusOrder (old ++ new)))) ∧
  ∀ (s : State) (p die idle chan : Nat) (arrived : List StratusAccess) (w : StratusWait), dieOwner s die = some p →
    (dieOf s die).hold = false →
    let s1 := modDie s die fun d => { atCycle d (d.cyc + idle) with
      waiting := d.waiting ++ arrived.map fun x => (⟨p, none, x.offset, x.write⟩ : StratusWait) }
    (dieOf s1 die).waiting.find? (fun w => stratusChannel (64 * waitUnit s1 die w) == chan) = some w →
    spareGrant (dieOf s1 die) chan = true →
    exec (.unscheduledStratusGrant die idle chan arrived) s =
      .next (anem (grantWait (modDie s1 die fun d => { grantOne d chan with waiting := (dieOf s1 die).waiting.erase w }) die w) die 4 1)

/-- O33. A fabric replay is counted, and the ninth in a row of one transfer is fatal; a credit returned takes the first
packet of its class out of the port's FIFO, and a packet held at the source goes on where it fits and its class is not
capped; a die holds its clock at a change and lets it go; a stream ends. Rests on choices of the model: log 2, 80. -/
def Obligations.FabricAndClocks : Prop :=
  (∀ (s : State) (src xfer : Nat),
    let n := ((s.fabric.fails.find? fun e => e.1 = (src, xfer)).map (·.2)).getD 0
    let rest := s.fabric.fails.filter fun e => e.1 ≠ (src, xfer)
    exec (.fabricCrcFail src xfer) s =
      if n < 8 then .next (odInc { s with fabric := { s.fabric with fails := rest ++ [((src, xfer), n + 1)] } } Ad.fabricReplayCount)
      else .next (fatalErr { s with fabric := { s.fabric with fails := rest } } .fabricReplayFail (src * 256))) ∧
  (∀ (s : State) (src dst cls : Nat) (capped : List Nat) (k : FabPkt) (rest : List FabPkt), s.fabric.fifo = k :: rest →
    k.src = src → k.dst = dst → k.cls = cls →
    let s1 := { s with fabric := { s.fabric with fifo := rest } }
    (s.fabric.held = [] → exec (.fabricCreditReturn src dst cls capped) s = .next s1) ∧
    ∀ h, s.fabric.held = [h] → h.src = src → h.cls < 3 →
      (h.cls ∈ capped ∨ fifoFree s1.fabric h.dst < h.bytes → exec (.fabricCreditReturn src dst cls capped) s = .next s1) ∧
        (h.cls ∉ capped → h.bytes ≤ fifoFree s1.fabric h.dst →
          exec (.fabricCreditReturn src dst cls capped) s = .next (releaseOne s1 h))) ∧
  (∀ (s : State) (die : Nat), die < 16 → (dieOf s die).cclkPending = true → (dieOf s die).hold = false → ∃ t,
    exec (.clockHold die) s = .next t ∧ (dieOf t die).hold = true ∧ odGet t (Ad.cdCclkActualMhz die) = cclkTarget s die ∧
      ∀ g, g / 80 = die → canIssue t g = false) ∧
  (∀ (s : State) (die p : Nat), (dieOf s die).hold = true → dieOwner s die = some p → ∃ t n,
    exec (.clockHoldEnd die) s = .next t ∧ (dieOf t die).hold = false ∧ n ≤ 32000 ∧
      odGet t (Ad.partWaitCycles p) = (odGet s (Ad.partWaitCycles p) + n) % 2 ^ 64 ∧
      ∀ g c, tget s.cells g = some c → cellOf t g = if g / 80 = die then c.after n else c) ∧
  (∀ (s : State) (g stream : Nat) (x : OutStream), tget (cellOf s g).outs stream = some x →
    exec (.streamEnd g true stream) s = .next (drainRest x.total s g stream (drawsOf (cellOf s g)))) ∧
  ∀ (s : State) (g stream : Nat) (x : InStream), tget (cellOf s g).ins stream = some x → x.running = true → x.total ≤ x.deposited →
    (x.matrix = true → x.total ≤ x.consumed) → exec (.streamEnd g false stream) s = .next (endIn s g stream)

/-! ## The far tier, the host tier, moves and scales -/

/-- O34. Reads and writes of the far tier that no check stops and nothing holds back, by the line path, the Drizzle path
and the merge window; a request that a move or a maintenance operation holds joins its memory die's queue. Rests on
choices of the model: log 105. -/
def Obligations.FarTier : Prop :=
  ∀ (s : State) (p addr : Nat),
    (∀ len hint, hint < 3 → farFail s p addr hint len none = none →
      (farWaits s p addr len = false →
        exec (.lineRead p addr len hint false [] none) s = .next (farRead s p addr len hint) ∧
          exec (.lineRead p addr len hint true [] none) s = .next (farRead (admitReserved s p addr len) p addr len hint)) ∧
      (farWaits s p addr len = true → ∀ reserved,
        exec (.lineRead p addr len hint reserved [] none) s = .next (joinWaits s (.read p addr len hint reserved))) ∧
      ∀ reserved errs, exec (.lineRead p addr len hint reserved errs none) s =
        .next (farRequest (injectErrs s p addr errs) p addr hint len none (.read p addr len hint reserved))) ∧
    (∀ hint src data poison, hint < 3 → farFail s p addr hint data.length (writerCell src) = none →
      farWaits s p addr data.length = false →
      (writerCell src = none →
        exec (.lineWrite p addr hint src data poison) s = .next (unitWrite s p addr hint src data poison)) ∧
      ∀ g, src = .cell g →
        exec (.lineWrite p addr hint src data poison) s = .next (spaceWrite s p g 2 (hint * 2 ^ 46) addr data poison)) ∧
    exec (.streamWriteMerge p addr) s = .next (closeMerge s p (blockBase addr)) ∧
    (farFail s p addr 3 1 none = none → farWaits s p addr 1 = false →
      exec (.drizzleRead p addr []) s = .next (farRead s p addr 1 3)) ∧
    (∀ data poison, farFail s p addr 3 data.length none = none → farWaits s p addr data.length = false →
      exec (.drizzleWrite p addr data poison) s = .next (unitWrite s p addr 3 .media data poison))

/-- O35. An access with a reserved cache hint, or with an address at or above 2^41, ends in ADDRESS_FORMAT_INVALID, and one
beyond the partition's far tier in STREAM_BOUNDS: a cell's names the cell, any other's the control core; no request is
made. -/
def Obligations.FarTierStops : Prop :=
  ∀ (s : State) (p addr hint len : Nat) (reserved : Bool) (errs : List SymErr) (tagFail : Option Nat) (data : List Byte)
    (poison : Bool), data.length = len →
    (3 ≤ hint ∨ 2 ^ 41 ≤ addr →
      exec (.lineRead p addr len hint reserved errs tagFail) s = .next (coreErr s p .addressFormatInvalid addr) ∧
        exec (.lineWrite p addr hint .control data poison) s = .next (coreErr s p .addressFormatInvalid addr) ∧
        ∀ g, exec (.lineWrite p addr hint (.cell g) data poison) s = .next (cellErr s g .addressFormatInvalid addr false)) ∧
    (hint < 3 → addr < 2 ^ 41 → farSize s p < addr + len →
      exec (.lineRead p addr len hint reserved errs tagFail) s = .next (coreErr s p .streamBounds addr) ∧
        exec (.lineWrite p addr hint .control data poison) s = .next (coreErr s p .streamBounds addr) ∧
        ∀ g, exec (.lineWrite p addr hint (.cell g) data poison) s = .next (cellErr s g .streamBounds addr false))

/-- O36. A Calm encoding: the mask has the bit of each of the 32 groups of 8 B that holds a byte other than zero, the
groups follow in rising order at their places, the length is 4 + 8k, and the block is had back from it bit for bit;
the sectors it takes in a CALM region are those of Table 8.3. -/
def Obligations.CalmEncoding : Prop :=
  ∀ blk : List Byte, blk.length = 256 →
    let full := fun i => (slice blk (8 * i) 8).any (· != 0)
    let below := fun i => ((List.range i).filter full).length
    (calmBytes blk).length = 4 + 8 * below 32 ∧
      (∀ i, i < 32 → (fieldLE (calmBytes blk) 0 4).testBit i = full i) ∧
      (∀ i, i < 32 → full i = true → slice (calmBytes blk) (4 + 8 * below i) 8 = slice blk (8 * i) 8) ∧
      calmExpand (fieldLE (calmBytes blk) 0 4) (calmBytes blk) = blk ∧
      ∀ dtype, (encodeBlock 1 dtype blk).info.sectors = (if below 32 = 0 then 0 else if below 32 < 28 then below 32 / 4 + 1 else 8) ∧
        (encodeBlock 1 dtype blk).info.format = (if below 32 = 0 then 1 else if below 32 < 28 then 2 else 0)

/-- O37. The maintenance commands of the memory-side cache act on their lines and run at the partition's memory dies until
each has done them, when the requests that waited there are looked at again; a refresh above four times the base rate
retires its group, and a request that times out completes what is outstanding in its channel poisoned, raises its error
and retires its group. -/
def Obligations.CacheMaintenance : Prop :=
  ∀ (s : State) (p base size : Nat),
    exec (.mscCleanRange p base size) s = .next (startMaint (maintain s p base size true false) p base size) ∧
    exec (.mscDiscardRange p base size) s = .next (startMaint (maintain s p base size false true) p base size) ∧
    exec (.mscCleanDiscardRange p base size) s = .next (startMaint (maintain s p base size true true) p base size) ∧
    exec (.mscDiscardWays p) s = .next (startMaint (discardWays s p) p 0 (2 ^ 41)) ∧
    exec (.mscCleanWays p) s = .next (startMaint (cleanWays s p) p 0 (2 ^ 41)) ∧
    (∀ md, exec (.mscMaintDone md p) s = .next (wakeMd (modMd s md fun d => { d with maint := dropMaint p d.maint }) md)) ∧
    (∀ group ratePct, exec (.refresh group ratePct) s =
      if ratePct ≤ 400 then .next s
      else .next (retireErr (recordOnly s .groupRetired 0 (groupOwner s group) (unitGroup group) ratePct) group
        Code.groupRetired.value 0 s.nv.alm.nextSeq)) ∧
    ∀ group channel,
      let t := odOr (failRequests s group (some channel)) (Ad.memGroupFailedChannels group) (2 ^ channel)
      let owner := groupOwner t group
      let e : Rep := { code := Code.memRequestTimeout.value, cls := 3, part := owner, unit := unitGroup group,
                       tag := (owner.map (jobTag t)).getD 0, arg := channel }
      exec (.memRequestTimeout group channel) s = .next (retireErr (record t e) group Code.memRequestTimeout.value 0 t.nv.alm.nextSeq)

/-- O38. A host write of a partition without memory encryption lands in its window, byte by byte, counts its bytes, and
changes no other byte of host memory; so does the data of a host read that completes. A read that fails is a deferred
error and changes no byte. -/
def Obligations.HostAccesses : Prop :=
  (∀ (s : State) (p window offset a : Nat) (data : List Byte), (partOf s p).moves = [] → memKey s p = 0 → window < 64 → offset < 2 ^ 36 →
    0 < data.length → data.length ≤ 512 → hostAddr s p window offset data.length = some a →
    (∀ u ∈ wordsOf a data.length, tget s.hostKeys u = none) →
    ∃ t, exec (.hostWrite p window offset data) s = .next t ∧ (∀ k, k < data.length → mget t.host (a + k) = data.getD k 0) ∧
      (∀ b, (b < a ∨ a + data.length ≤ b) → mget t.host b = mget s.host b) ∧
      odGet t (Ad.partHostBytes p) = (odGet s (Ad.partHostBytes p) + data.length) % 2 ^ 64 ∧
      t.far = s.far ∧ t.cells = s.cells ∧ t.parts = s.parts) ∧
  (∀ (s : State) (p window offset len : Nat), hostStop s p window offset len = none → 0 < len → len ≤ 4096 → s.hostReads.length < 1024 →
    exec (.hostRead p window offset len) s =
      .next { s with hostReads := s.hostReads ++ [⟨s.hostNext, p, window, offset, len⟩], hostNext := s.hostNext + 1 }) ∧
  (∀ (s : State) (h : HostRd) (rest : List HostRd) (a : Nat) (data : List Byte), s.hostReads = h :: rest → (∀ x ∈ rest, x.id ≠ h.id) →
    hostAddr s h.p h.window h.offset h.len = some a → h.len ≤ data.length → (∀ u ∈ wordsOf a h.len, tget s.hostKeys u = none) →
    ∃ t, exec (.hostReadComplete h.id true data) s = .next t ∧ t.hostReads = rest ∧ (∀ k, k < h.len → mget t.host (a + k) = data.getD k 0) ∧
      (∀ b, (b < a ∨ a + h.len ≤ b) → mget t.host b = mget s.host b) ∧ t.far = s.far ∧ t.cells = s.cells) ∧
  ∀ (s : State) (h : HostRd) (rest : List HostRd) (data : List Byte), s.hostReads = h :: rest → (∀ x ∈ rest, x.id ≠ h.id) →
    ∃ u, exec (.hostReadComplete h.id false data) s =
      .next (deferred u (some h.p) .hostAccessFailed 0x1900 (h.window * 2 ^ 36 + h.offset)) ∧ u.host = s.host ∧ u.hostReads = rest

/-- O39. A move that is not refused makes its object MOVING and adds a record, and a refused one is counted; completed, the
copy stands at the destination, the entry is HOME there, the writes held go on to it, the semaphore is released, and the
record is freed or VACATED; aborted, the object is HOME at its source; released, its oldest VACATED record goes. A
prefetch record whose semaphore counts takes one from it and asks for its move; one whose move was refused MOVE_BUSY
asks again. Rests on choices of the model: log 23. -/
def Obligations.MovesAndPrefetch : Prop :=
  ((∀ (s : State) (p obj tier addr sem : Nat) (j : Job), (partOf s p).job = some j → coreStop s p 0 (objAddr s p obj) 32 = none →
    (objRead s p obj).2 = false →
    let e := (objRead s p obj).1
    let s1 := farRead s p (objAddr s p obj) 32 3
    (moveRefusal s1 p obj tier addr e = none →
      exec (.move p obj tier addr sem) s =
        .next (modPart (objWrite s1 p obj { e with state := 2, dest := tier * 2 ^ 48 + addr }) p fun q =>
          { q with moves := q.moves ++ [{ obj := obj, srcTier := e.tier, src := e.addr, dstTier := tier, dst := addr, size := e.size, sem := sem, hint := e.hint }] })) ∧
    ∀ c, moveRefusal s1 p obj tier addr e = some c →
      exec (.move p obj tier addr sem) s = .next (emit (odInc s1 (Ad.partObjRefused p)) (.moveRefused p c))) ∧
  (∀ (s : State) (p obj : Nat) (r : MoveRec) (j : Job), movingRec s p obj = some r → (partOf s p).job = some j →
    let s1 := objWrite (copyMove s p r) p obj { hint := r.hint, tier := r.dstTier, state := 1, addr := r.dst, size := r.size, dest := 0 }
    let mine := fun (x : MoveRec) => x.obj = obj && !x.vacated
    let s2 := modPart s1 p fun q =>
      { q with moves := if r.release then q.moves.filter fun x => !mine x
                        else q.moves.map fun x => if mine x then { x with vacated := true, held := [] } else x }
    let s3 := if r.srcTier = 2 then maintain s2 p r.src r.size false true else s2
    let s4 := r.held.foldl (fun t h => heldWrite t p r.dstTier r.dst h) s3
    let s5 := signalSem s4 p (((partOf s4 p).job.map Job.seq).getD 0) r.sem 1 r.prefetch.isSome
    exec (.moveComplete p obj) s = .next (wakeMds (odAdd (odInc s5 (Ad.partObjMoves p)) (Ad.partObjMoveBytes p) r.size))) ∧
  (∀ (s : State) (p obj : Nat) (r : MoveRec), movingRec s p obj = some r → r.obj = obj →
    let s1 := objWrite s p obj { hint := r.hint, tier := r.srcTier, state := 1, addr := r.src, size := r.size, dest := 0 }
    let s2 := modPart s1 p fun q => { q with moves := q.moves.filter fun x => !(x.obj = obj && !x.vacated) }
    let s3 := r.held.foldl (fun t h => heldWrite t p r.srcTier r.src h) (freeRange s2 p r)
    exec (.moveAbort p obj) s = .next (wakeMds (odInc s3 (Ad.partObjAborts p)))) ∧
  ∀ (s : State) (p obj : Nat) (r : MoveRec) (rest : List MoveRec),
    takeFirst (fun r => r.obj == obj && r.vacated) (partOf s p).moves = some (r, rest) →
    exec (.moveRelease p obj) s = .next (modPart s p fun q => { q with moves := rest })) ∧
  ((∀ (s : State) (p pos : Nat) (j : Job) (x : Prefetch), (partOf s p).prefetchPos = some pos → (partOf s p).job = some j →
    (partOf s p).prefetchBusy = false → inState s p .running = true → prefetchRec s p pos = some (x, false) → x.bad = false →
    coreStop s p 0 (prefetchAddr s p pos) 32 = none →
    let s1 := farRead s p (prefetchAddr s p pos) 32 3
    (j.prefetchWaited ≤ pos → 1 ≤ semCount s1 p x.wait → (∀ w ∈ j.waiters, w.1 ≠ x.wait) →
      exec (.prefetchRecord p) s =
        .next (prefetchMove (modJob (semTake s1 p x.wait) p fun j => { j with prefetchWaited := pos + 1 }) p pos x)) ∧
    (pos < j.prefetchWaited → exec (.prefetchRecord p) s = .next (prefetchMove s1 p pos x))) ∧
  (∀ (s : State) (p pos : Nat) (x : Prefetch) (poison : Bool), (partOf s p).prefetchPos = some pos → (partOf s p).prefetchBusy = true →
    prefetchRec s p pos = some (x, poison) → exec (.prefetchRetry p) s = .next (prefetchMove s p pos x)))

/-- O40. A scale advance closes the step in every slot at once: the step's amax joins the history, a slot of fixed exponent
takes its own, and a slot of one step of history that computes its exponent takes the one a finite amax gives, and keeps
the one it has where the amax is 0 or infinite; the advance is counted, and when it has reached every die's copy its
semaphore is released. -/
def Obligations.ScaleAdvance : Prop :=
  (∀ (s : State) (p sem : Nat) (j : Job), (partOf s p).job = some j → (partOf s p).advance = none →
    ∃ t, exec (.scaleAdvance p sem) s = .next t ∧ (partOf t p).advance = some sem ∧
      odGet t (Ad.partScaleAdvances p) = (odGet s (Ad.partScaleAdvances p) + 1) % 2 ^ 64 ∧
      ∀ i, tget (partOf t p).scale i = (tget (partOf s p).scale i).map fun r => (advanceSlot r).1) ∧
  (∀ r : ScaleRec, (advanceSlot r).1.amaxStep = 0 ∧ (advanceSlot r).1.satStep = 0 ∧ (advanceSlot r).1.hist.head? = some r.amaxStep ∧
    (r.mode = 0 → (advanceSlot r).1.mexp = r.mexp0) ∧
    (r.mode ≠ 0 → r.hlen = 1 → amaxMag r.amaxStep ≠ 0 → amaxMag r.amaxStep < 0x7F800000 →
      (advanceSlot r).1.mexp = scaleExp r.fmt r.margin (amaxMag r.amaxStep)) ∧
    (r.mode ≠ 0 → r.hlen = 1 → amaxMag r.amaxStep = 0 ∨ amaxMag r.amaxStep = 0x7F800000 → (advanceSlot r).1.mexp = r.mexp)) ∧
  ∀ (s : State) (p sem : Nat), (partOf s p).advance = some sem →
    let t := modPart (publishScale s p) p fun q => { q with advance := none }
    exec (.scaleAdvanceDone p) s = .next (signalSem t p (((partOf t p).job.map Job.seq).getD 0) sem 1 false)

/-! ## Media and samples -/

/-- O41. A media request takes its number in its partition. One that passes Table 10.11's checks joins its context, or, as a
RELEASE or KEY, waits for its turn, and is performed at once where nothing waits before it; one that fails a check other
than the poisoned record's completes with the check's code. Rests on choices of the model: log 118, 162. -/
def Obligations.MediaRequests : Prop :=
  ∀ (s : State) (r : ReqRef) (raw : List Byte) (j : Job), (partOf s r.p).job = some j →
    let ctx := fieldLE raw 4 4 % 2 ^ 20
    let issues := fun (x : Instr) (op : Nat) (d : Nat × State) (f : State → MediaReq → State) =>
      let y := { MediaReq.ofBytes r op j.seq raw with depth := d.1, serial := (partOf s r.p).mediaSerial }
      let t := modPart d.2 r.p fun q => { q with mediaSerial := q.mediaSerial + 1 }
      (mediaCheck t r op raw y = none → exec x s = .next (f t y)) ∧
        ∀ code, code ≠ 6 → mediaCheck t r op raw y = some code → exec x s = .next (mediaDone t y code)
    let joins := fun (t : State) (y : MediaReq) => modCtx t r.p ctx fun c => { c with reqs := c.reqs ++ [y] }
    let keyed := fun (t : State) (y : MediaReq) => modCtx t r.p ctx fun c =>
      { c with reqs := c.reqs ++ [y], keyAsked := c.keyAsked || bit (fieldLE raw 33 1) 0 }
    let waits := fun (t : State) (y : MediaReq) => modPart t r.p fun q => { q with mediaWait := q.mediaWait ++ [(ctx, y)] }
    let src := sourceDepth s r.p (fieldLE raw 20 4)
    issues (.decode r raw) 1 (8, s) joins ∧ issues (.flush r raw) 2 (8, s) joins ∧ issues (.reset r raw) 3 (8, s) joins ∧
      issues (.analyse r raw) 6 src joins ∧ issues (.encode r raw) 5 src keyed ∧
      issues (.release r raw) 4 (8, s) (fun t y => afterStart (waits t y) r.p) ∧
      issues (.key r raw) 7 (8, s) (fun t y => afterStart (waits t y) r.p) ∧
      ∀ (t : State) (y : MediaReq), (partOf t r.p).mediaWait = [] → mayStart (waits t y) r.p y = true →
        afterStart (waits t y) r.p = instantReq (modPart (waits t y) r.p fun q => { q with mediaWait := [] }) r.p ctx y

/-- O42. An idle engine serves the request its partition's credit and its contexts give it: a picture of DECODE, ENCODE or
ANALYSE, or the drain of a FLUSH or RESET. The end of a picture, a slice of a frame, a budget's end, a free buffer, free
ring space and the end of a FLUSH's, RESET's or rejection's drain have the effects written here. Rests on choices of the
model: log 26, 119, 160. -/
def Obligations.MediaEngines : Prop :=
  (∀ (s : State) (e : Nat) (pic : PicStart) (q : MediaReq), engineBusy s e = false → servesNext s e pic.p = true →
    blockCut s (engineBlock e) = false → ctxReady s pic.p pic.ctx e = some q → (farView s pic.p (ctxAddr s pic.p pic.ctx) 2048).2 = false →
    (farView s pic.p (ctxField s pic.p pic.ctx 32 8 % 2 ^ 41) (ctxSt s pic.p pic.ctx).psetLen).2 = false →
    let t := startHead (takeOn s e pic.p pic.ctx) pic.p pic.ctx
    let gives := fun (u : State) => exec (.pictureStart e pic) s = .next u
    (q.op = 1 → gives (startDecode t e pic.p pic.ctx pic q)) ∧ (q.op = 5 → gives (startEncode t e pic.p pic.ctx pic q)) ∧
      (q.op = 6 → gives (startAnalyse t e pic.p pic.ctx q)) ∧ (q.op = 2 → gives (startDrain t pic.p pic.ctx 1 false)) ∧
      (q.op = 3 → gives (startDrain t pic.p pic.ctx 2 false))) ∧
  (∀ (s : State) (e p ctx : Nat) (fin : PicEnd), (engineOf s e).busy = some (p, ctx) →
    (e < 16 → exec (.pictureEnd e fin) s = .next (endDecode s e p ctx fin)) ∧
    (16 ≤ e → ctxKind s p ctx = 2 → exec (.pictureEnd e fin) s = .next (endAnalyse s e p ctx fin))) ∧
  (∀ (s : State) (p pool ctx b e : Nat) (rest : List (Nat × Nat)),
    takeFirst (fun x => x.1 == pool) (partOf s p).parkedBuf = some ((pool, ctx), rest) → bufferFor s p ctx = some b →
    idleEngine s p ctx = some e →
    let t := modCtx (modPart (takeOn s e p ctx) p fun q => { q with parkedBuf := rest }) p ctx fun c => { c with resumed := true }
    exec (.bufferUnpark p pool) s = .next (ctxPut (setCtxState t p ctx 2) p ctx 4 1 0)) ∧
  (∀ (s : State) (p ctx e : Nat), ctxState s p ctx = 3 → ctxField s p ctx 4 1 = 2 → ringFull s p ctx = false →
    ((ctxSt s p ctx).held = [] → (ctxSt s p ctx).need ≤ bsFree s p ctx) → idleEngine s p ctx = some e →
    let c := ctxSt s p ctx
    let t := modCtx (takeOn s e p ctx) p ctx fun c => { c with held := [], need := 0 }
    exec (.outputUnpark p ctx) s = .next (settleCtx (c.held.foldl (fun t r => pushRec t p ctx r)
      (ctxPut (setCtxState t p ctx (if c.drainKind = 0 then 2 else 4)) p ctx 4 1 0)) p ctx)) ∧
  (∀ (s : State) (e p ctx rebuilt : Nat), e < 16 → (engineOf s e).busy = some (p, ctx) → (engineOf s e).budget = none →
    exec (.decodeBudgetAbort e rebuilt) s =
      .next (odInc (modEngine s e fun x => { x with budget := some rebuilt }) (Ad.partDecBudgetAborts p))) ∧
  (∀ (s : State) (e p ctx qp cycles : Nat) (data : List Byte) (luma chroma : List Nat), 16 ≤ e → (engineOf s e).busy = some (p, ctx) →
    ctxKind s p ctx = 1 →
    let x := engineOf s e
    let took := encodeCycles x 600 (blocks16 (ctxField s p ctx 64 2) (ctxField s p ctx 66 2)) cycles
    let coded := fun (last : Bool) (n : Nat) => sliceCoded (writeSlice s p ctx x luma chroma) e p ctx data last qp n
    (x.slices + 1 < frameSlices s p ctx →
      let d := coded false (min cycles took)
      exec (.encodeSlice e data luma chroma qp cycles) s = .next (pushRec d.1 p ctx d.2)) ∧
    (frameSlices s p ctx ≤ x.slices + 1 →
      let d := coded true took
      exec (.encodeSlice e data luma chroma qp cycles) s =
        .next (settleCtx (pushRec (frameCoded d.1 e p ctx (ctxField s p ctx 24 4) took (ctxSt s p ctx).encRef) p ctx d.2) p ctx))) ∧
  ∀ (s : State) (p ctx : Nat), ctxState s p ctx = 4 → (ctxSt s p ctx).held = [] →
    ((ctxSt s p ctx).drainKind = 1 →
      let t := modCtx (clearRefs s p ctx) p ctx fun y => { y with encRef := none, lastRef := none }
      exec (.drainEnd p ctx) s = .next (endSample (finishReq t p ctx 0 1) p ctx 7)) ∧
    ((ctxSt s p ctx).drainKind = 2 →
      let start := ((ctxSt s p ctx).reqs.map MediaReq.start).headD 0
      let t := modCtx (ctxPut (clearRefs s p ctx) p ctx 24 4 start) p ctx fun y =>
        { y with sequenced := false, pics := [], concealedRefs := [], coded := false, sinceKey := 0, encRef := none, lastRef := none,
                 prevSource := none }
      exec (.drainEnd p ctx) s = .next (endSample (finishReq t p ctx 0 1) p ctx 7)) ∧
    ((ctxSt s p ctx).drainKind = 3 →
      let t := odInc (ctxPut s p ctx 5 1 (ctxSt s p ctx).rejectTo) (Ad.partMediaRejects p)
      exec (.drainEnd p ctx) s = .next (endSample (failReqs t p ctx 4 5) p ctx 6))

/-- O43. A sample request that passes its checks is served from the phase that holds at its first frame; a lookup that finds
no entry in use counts a miss and completes with code 1; a record before FIRST or off STEP is passed over, and one wanted
is formed where a writer is free and a slot is left; the slot written completes the sample when it was the last wanted.
Rests on choices of the model: log 120. -/
def Obligations.Samples : Prop :=
  (∀ (s : State) (r : ReqRef) (raw : List Byte) (j : Job) (i : Nat), (partOf s r.p).job = some j →
    let x : Sample := { ref := r, raw := raw, ctx := fieldLE raw 4 4 % 2 ^ 20, jobSeq := j.seq }
    activeSample s r.p x.ctx = none → hasWriter s r.p = true → sampleCheck s r.p x = .inr i → x.ctx < latched s r.p (Ad.partMediaCtxCount r.p) →
    ctxKind s r.p x.ctx = 0 → ctxState s r.p x.ctx ∈ [1, 2, 3] →
    let n := listCount s r.p x.list
    let lists := (List.range n).filterMap fun k =>
      if (phaseAt s r.p x.list k).boxmode = 2 then some (k, drawBoxes s r.p 0 0 0 (phaseAt s r.p x.list k)) else none
    let y := { x with phase := i, shape := (phaseAt s r.p x.list i).shape, listCount := n, opHash := opHash s r.p x.list, boxes := lists }
    let c := claimCache (readList s r.p x) r.p y (phaseAt s r.p x.list i)
    exec (.sample r raw) s = .next (modPart c.1 r.p fun q => { q with samples := q.samples ++ [c.2] })) ∧
  (∀ (s : State) (r : ReqRef) (raw : List Byte) (j : Job) (i : Nat), (partOf s r.p).job = some j →
    let x0 : Sample := { ref := r, raw := raw, ctx := 0, jobSeq := j.seq }
    sampleCheck s r.p x0 = .inr i →
    let x := { x0 with opHash := opHash s r.p x0.list, phase := i }
    (∀ w, w < 8 → (cacheEnt s r.p (8 * cacheSet s r.p x + w)).state ≠ 2) →
    exec (.lookup r raw) s = .next (sampleDone (odInc s (Ad.partSampleCacheMisses r.p)) x 1 0 0 0)) ∧
  (∀ (s : State) (p ctx : Nat) (x : Sample), activeSample s p ctx = some x → ctxState s p ctx ≠ 5 → x.forming = none → x.lastIndex = none →
    ctxField s p ctx 52 4 ≠ ctxField s p ctx 56 4 →
    let r := (farView s p (ctxField s p ctx 40 8 % 2 ^ 41 + 32 * (ctxField s p ctx 56 4 % max (ctxField s p ctx 48 4) 1)) 32).1
    let f := fieldLE r 4 4
    f < x.last →
    (f < x.first ∨ (f - x.first) % x.step ≠ 0 →
      exec (.sampleRecordTake p ctx) s = .next (setSample (consumeRec s p x r).1 p (consumeRec s p x r).2)) ∧
    (∀ e, x.first ≤ f → (f - x.first) % x.step = 0 → x.slots < x.nslots → writerFor s p = some e →
      exec (.sampleRecordTake p ctx) s = .next (formFrame s p e x f r (Frame.of s p ctx r).w (Frame.of s p ctx r).h))) ∧
  ∀ (s : State) (p ctx cycles : Nat) (sig : ColourSignal) (x : Sample) (y : SampleSlot), activeSample s p ctx = some x →
    x.forming = some y → frameWaits s p x y = false →
    let t := freeWriter (readFrame s p (Frame.of s p ctx y.record) (fieldLE y.record 0 4)) p ctx cycles
    let c := frameFormed t p ctx x y sig
    exec (.writerFrameDone p ctx sig cycles) s =
      if lastWanted x y.record x.lastIndex then .next (endSampleWith c.1 p c.2 0 true) else .next (setSample c.1 p c.2)

/-! ## The NCT transport -/

/-- O44. A frame's bytes are counted at its port; a PAUSE frame is ignored, and an NCT packet that is not authentic counted;
an authentic one that is placed takes a packet-memory credit until then, and any is dropped for want of one; the OC's answer
to a request handed to it leaves while the port has sent fewer than 10,000 in the second. Rests on choices of the model:
log 123, 165. -/
def Obligations.Frames : Prop :=
  (∀ (s : State) (port : Nat) (f : EthFrame), f.pause = true →
    exec (.ethFrameReceive port f) s = .next (odInc (odAdd s (Ad.netPortRxBytes port) f.bytes) Ad.netPauseIgnored)) ∧
  (∀ (s : State) (port p : Nat) (f : EthFrame), f.pause = false → f.bytes ≤ 4226 → f.vlan = false → f.macOk = true →
    f.dstPart = some p → f.icmp = false → f.udpPort = some (atReset s Ad.netNctUdpPort) → f.checksumOk = true →
    let s1 := odAdd s (Ad.netPortRxBytes port) f.bytes
    let k := framePkt f
    (unauthentic s f p = true → exec (.ethFrameReceive port f) s = .next (odInc s1 Ad.netRxAuthFail)) ∧
    (unauthentic s f p = false →
      (∀ shared, creditFor s p (portDie port) = some shared →
        (k.type = 1 ∨ k.type = 2 ∨ k.type = 3 →
          exec (.ethFrameReceive port f) s =
            .next (modNet s1 fun w => { w with inPkts := w.inPkts ++ [⟨k.dst, k.psn, portDie port, p, shared⟩] })) ∧
        (3 < k.type → exec (.ethFrameReceive port f) s = .next s1)) ∧
      (creditFor s p (portDie port) = none → exec (.ethFrameReceive port f) s = .next (odInc s1 (Ad.netPortRxDropped port))))) ∧
  ∀ (s : State) (port left : Nat) (f : OcFrame), tget s.net.icmp port = some (left + 1) → f.srcMacOk = true →
    f.srcPrefixOk = true →
    let sec := nowNs s / 10 ^ 9
    let sent := ((tget s.net.ocSent port).filter fun x => x.1 = sec).elim 0 Prod.snd
    sent < 10000 →
    exec (.ocIcmpReply port f) s = .next (emit (modNet (modNet s fun w => { w with icmp := tset w.icmp port left }) fun w =>
      { w with ocSent := tset w.ocSent port (sec, sent + 1) }) (.ocFrame port))

/-- O45. A DATA packet that repeats nothing is placed in its region; a SIGNAL and a GET_REQ are held and those due in MSN
order act; an ACK that covers the one outstanding packet takes it off the session's list, measures the round trip and moves
the window; a NAK other than RNR ends its message; a CLOSE is acknowledged, and fails the session. Rests on choices of the
model: log 31. -/
def Obligations.ReceivedPackets : Prop :=
  (∀ (s : State) (k : Pkt) (place off : Nat), k.response = false → k.rkey / 65536 ≠ 0xFFFF → (sessOf s k.dst).state = .opened →
    sessRuns s (sessOf s k.dst) = true → rxFilter s k.dst k = none →
    let p := (sessOf s k.dst).part
    regionAccess s p k.rkey k.offset k.payload.length true = .inr (place, off) → netHolds s p place off k.payload.length = false →
    exec (.data k) s =
      .next (settleRx (rxPlaced (netWrite (regionSeen (noteRx s k.dst k) p k.rkey) p place off k.payload false) k.dst k) k.dst)) ∧
  (∀ (s : State) (k : Pkt), (sessOf s k.dst).state = .opened → sessRuns s (sessOf s k.dst) = true → rxFilter s k.dst k = none →
    let takes := fun (ty : Nat) =>
      let q := { k with type := ty }
      settleRx (modSess (noteRx s k.dst q) k.dst fun x =>
        { x with rxGot := x.rxGot ++ [(k.msn, k.index)], rxHeld := x.rxHeld ++ [q] }) k.dst
    exec (.getReq k) s = .next (takes 2) ∧ exec (.signal k) s = .next (takes 3)) ∧
  (∀ (s : State) (k : Pkt) (now : Nat) (h : Tx) (m : Msg), (sessOf s k.dst).state = .opened → staleMsg s k.msg = false →
    (sessOf s k.dst).unacked = [h] → ackCovers (fieldLE k.payload 0 8) (fieldLE k.payload 8 8) h.pkt.psn = true →
    h.pkt.retrans = false → h.pkt.response = false → h.pkt.type = 1 → tget s.net.msgs (h.pkt.msg / 4096) = some m →
    (addTo m.acked h.pkt.index).length < m.count →
    let x := { sessOf s k.dst with unacked := [], peerMark := fieldLE k.payload 20 4 }
    let y := (x.measure (now - h.sentAt)).onAck 1 (fieldLE k.payload 16 4) now
    exec (.ack k now) s = .next (modMsg (modSess s k.dst fun _ => { y with backoff := 0 }) (h.pkt.msg / 4096) fun m =>
      { m with acked := addTo m.acked h.pkt.index })) ∧
  (∀ (s : State) (k : Pkt), (sessOf s k.dst).state = .opened → fieldLE k.payload 8 1 ≠ 1 →
    let s1 := modSess (noteRx s k.dst k) k.dst fun y => { y with backoff := 0 }
    staleMsg s1 (fieldLE k.payload 0 4) = false →
    exec (.nak k) s = .next (endMsg s1 (fieldLE k.payload 0 4 / 4096) (fieldLE k.payload 8 1) (fieldLE k.payload 16 8))) ∧
  ∀ (s : State) (k : Pkt), (sessOf s k.dst).state = .opened ∨ (sessOf s k.dst).state = .rekeying →
    exec (.close k) s = .next (failSess (sendAck (noteRx s k.dst k) k.dst) k.dst 0x11)

/-- O46. A HELLO that nothing refuses opens the lowest free session and has its REPLY queued, a repeated or refused one only
its REPLY; a REPLY that accepts, from a peer that is accepted, installs the keys and completes the OPEN; rekeying sends
fresh points and switches the keys; the queue of the key store sends one HELLO or REPLY, with a fresh key the first time;
an OPEN that goes unanswered asks again four times and then ends, a close that does frees the session, and old keys go. Rests
on choices of the model: log 4, 124, 167. -/
def Obligations.Handshakes : Prop :=
  (∀ (s : State) (h : Shake), keysMade s = true →
    (∀ n, repeatOf s h = some n → exec (.hello h) s = .next (queueShake s ⟨n, h.peer, h.src, false, 0, h.p⟩)) ∧
    (∀ c, repeatOf s h = none → helloRefusal s h = some c →
      exec (.hello h) s = .next (queueShake s ⟨0xFFFF, h.peer, h.src, false, c, h.p⟩)) ∧
    ∀ n, repeatOf s h = none → helloRefusal s h = none → freeSess s = some n →
      let x : Sess := { part := h.p, jobSeq := jobSeq s h.p, peer := h.peer, peerSess := h.src, peerPub := shakePub h,
                        level := min (shakeLevel h) s.nv.level }
      exec (.hello h) s = .next (queueShake (modSess s n fun _ => x.open s) ⟨n, h.peer, h.src, false, 0, h.p⟩)) ∧
  (∀ (s : State) (h : Shake) (r : ReqRef) (scalar : Nat), (sessOf s h.dst).state = .opening → (sessOf s h.dst).eph = some scalar →
    shakeCode h = 0 → s.nv.level - 1 ≤ shakeLevel h → identityOk s (sessOf s h.dst).part h = true → (sessOf s h.dst).ref = some r →
    let x := sessOf s h.dst
    let y := { x with peerSess := h.src, peerPub := shakePub h, level := min (shakeLevel h) s.nv.level, eph := none }
    let z := { y with keys := some (initiatorKeys y h.dst scalar (shakePub h) x.keyPhase), ref := none }
    exec (.reply h) s = .next (netStatus (modSess s h.dst fun _ => z.open s) r x.jobSeq x.sem 0)) ∧
  (∀ (s : State) (k : Pkt), (sessOf s k.dst).state = .opened → keysMade s = true →
    let n := k.dst
    let r := freshScalar (noteRx s n k)
    let t := modSess r.2 n fun y => { y with newKeys := some (responderKeys y n r.1 (slice k.payload 0 96) (!y.keyPhase)) }
    exec (.rekey k) s = .next (sendCtl t n { (sessOf t n).pkt n 9 with payload := rekeyPayload r.1 })) ∧
  (∀ (s : State) (k : Pkt) (scalar : Nat), (sessOf s k.dst).state = .rekeying → (sessOf s k.dst).eph = some scalar →
    let x := sessOf s k.dst
    exec (.rekeyReply k) s =
      .next (modSess (switchKeys (noteRx s k.dst k) k.dst (initiatorKeys x k.dst scalar (slice k.payload 0 96) (!x.keyPhase))) k.dst
        fun y => { y with state := .opened })) ∧
  (∀ (s : State) (n : Nat), (sessOf s n).state = .opened → 2 ^ 47 ≤ (sessOf s n).keyPkts → keysMade s = true →
    (sessOf s n).eph = none → (sessOf s n).newKeys = none →
    let r := freshScalar s
    exec (.rekeyStart n) s = .next (sendCtl (modSess r.2 n fun y => { y with state := .rekeying, eph := some r.1 }) n
      { (sessOf s n).pkt n 8 with payload := rekeyPayload r.1 })) ∧
  (∀ (s : State) (h : Handshake) (rest : List Handshake), s.net.handshakes = h :: rest →
    let t := modNet s fun w => { w with handshakes := rest }
    (h.code ≠ 0 ∨ (shakeDue t h = true ∧ (sessOf t h.sess).ephPub.isSome = true) →
      exec .keyStoreHandshake s = .next (sendShake t h)) ∧
    (h.code = 0 → shakeDue t h = true → (sessOf t h.sess).ephPub = none → keysMade t = true →
      exec .keyStoreHandshake s = .next (sendShake (makeEph t h) h))) ∧
  (∀ (s : State) (n : Nat), (sessOf s n).state = .opening →
    exec (.helloTimeout n) s = .next (if (sessOf s n).hellos < 5 then
      queueShake (modSess s n fun y => { y with hellos := y.hellos + 1 }) ⟨n, (sessOf s n).peer, 0, true, 0, (sessOf s n).part⟩
      else dropSess s n 0x23)) ∧
  (∀ (s : State) (n : Nat), (sessOf s n).state = .closing → exec (.closeTimeout n) s = .next (dropSess s n 0)) ∧
  (∀ (s : State) (n code : Nat), (sessOf s n).ref = none → tget (dropSess s n code).net.sessions n = none) ∧
  ∀ (s : State) (n : Nat) (x : Sess), tget s.net.sessions n = some x →
    exec (.oldKeyExpiry n) s = .next (modSess s n fun _ => { x with oldKeys := none })

/-- O47. The seven requests of Table 12.5: a PUT, GET or SIGNAL takes a message ID and the session's next MSN; a FENCE
waits with the MSN it is behind; an OPEN takes the lowest free session; a CLOSE waits for the session's messages; a
CLEAR_ERROR completes at once; a FENCE completes when no earlier message of its session is left. Rests on choices of the
model: log 30, 124. -/
def Obligations.TransportRequests : Prop :=
  (∀ (s : State) (r : ReqRef) (raw : List Byte) (j : Job) (id : Nat), (partOf s r.p).job = some j → freeId s = some id →
    let sends := fun (op : Nat) (x : Instr) =>
      let w := leBytes 1 op ++ raw.drop 1
      let n := fieldLE w 2 2
      let len := fieldLE w 4 4
      reqReserved w = false → sessInvalid s r.p n = false →
      (op ≠ 0x22 → 0 < len ∧ len ≤ 2 ^ 30 ∧ placeBad s r.p (fieldLE w 8 8) len = false ∧ fieldLE w 18 2 ≠ 0xFFFF) →
      ∃ (m : Msg) (t : State), exec x s = .next t ∧ tget t.net.msgs id = some m ∧ m.sess = n ∧ m.msn = (sessOf s n).nextMsn ∧
        m.op = op ∧ m.ref = some r ∧ m.sem = fieldLE w 40 1 ∧ m.source = fieldLE w 8 8 ∧ m.tag = fieldLE w 32 8 ∧ m.sent = 0 ∧
        m.count = (if op = 0x20 then (len + 4095) / 4096 else 1) ∧
        (op ≠ 0x22 → m.rkey = fieldLE w 16 4 ∧ m.roffset = fieldLE w 24 8 ∧ m.length = len) ∧
        (sessOf t n).nextMsn = ((sessOf s n).nextMsn + 1) % 2 ^ 32 ∧ t.net.nextId = (id + 1) % 2 ^ 20
    sends 0x20 (.nctPut r raw) ∧ sends 0x21 (.nctGet r raw) ∧ sends 0x22 (.nctSignal r raw)) ∧
  (∀ (s : State) (r : ReqRef) (raw : List Byte) (j : Job), (partOf s r.p).job = some j →
    (reqReserved raw = false → sessInvalid s r.p (fieldLE raw 2 2) = false →
      exec (.nctFence r raw) s = .next (modNet s fun x =>
        { x with fences := x.fences ++ [⟨r, fieldLE raw 2 2, (sessOf s (fieldLE raw 2 2)).nextMsn, fieldLE raw 40 1, j.seq⟩] })) ∧
    (∀ n, reqReserved raw = false → sessCount s r.p < formed s r.p (Ad.partNctSessionQuota r.p) → freeSess s = some n →
      keysMade s = true →
      let x : Sess := { state := .opening, part := r.p, jobSeq := j.seq, peer := fieldLE raw 44 16, ref := some r,
                        sem := fieldLE raw 40 1, hellos := 1 }
      exec (.nctOpen r raw) s = .next (queueShake (modSess (entryWrite s r 2 (leBytes 2 n)) n fun _ => x) ⟨n, x.peer, 0, true, 0, r.p⟩)) ∧
    (reqReserved raw = false → sessInvalid s r.p (fieldLE raw 2 2) = false →
      exec (.nctClose r raw) s = .next (closeIfDone (modSess s (fieldLE raw 2 2) fun y =>
        { y with closeAsked := true, ref := some r, sem := fieldLE raw 40 1 }) (fieldLE raw 2 2))) ∧
    (reqReserved raw = false → sessInvalid s r.p (fieldLE raw 2 2) = false →
      exec (.nctClearError r raw) s =
        .next (netStatus (modSess s (fieldLE raw 2 2) fun x => { x with errorBit := false }) r j.seq (fieldLE raw 40 1) 0))) ∧
  ∀ (s : State) (n : Nat) (f : FenceReq), s.net.fences = [f] → f.sess = n → (∀ e ∈ sessMsgs s n, f.msn ≤ e.2.msn) →
    exec (.nctFenceComplete n) s =
      .next (netStatus (modNet s fun w => { w with fences := [] }) f.ref f.jobSeq f.sem (if (sessOf s n).errorBit then 0x20 else 0))

/-- O48. A session sends its next packet where its window, its key, a port's turn, a credit and its source allow, and waits
for a credit where none is free, when the first that waits sends; it acknowledges, sends again what its timers and RNR made
wait, and fails; neither an acknowledgement nor a time-out brings its window below one packet. Rests on choices of the
model: log 26, 32, 33. -/
def Obligations.Transmission : Prop :=
  (∀ (s : State) (n now port : Nat), (sessOf s n).mayTransmit = true → nextTx s n ≠ .nothing → nextPort s (sessOf s n) = some port →
    let p := (sessOf s n).part
    (creditFor s p (portDie port) = none → ∀ srcOk poison,
      exec (.packetTransmit n now srcOk poison) s = .next (modNet s fun w => { w with waitCredit := addTo w.waitCredit n })) ∧
    ((creditFor s p (portDie port)).isSome = true → portServes s port p = true →
      let s1 := chargePort (modNet s fun w => { w with waitCredit := w.waitCredit.filter (· ≠ n) }) port p
      let sends := fun (t : State) =>
        (∀ srcOk poison, exec (.packetTransmit n now srcOk poison) s = .next (transmitOn t n port now srcOk poison)) ∧
          ∀ rest, s.net.waitCredit = n :: rest →
            exec (.netCreditAvailable (portDie port) now) s = .next (transmitOn t n port now true false)
      (txSource s n = none → sends s1) ∧
        ∀ a, txSource s n = some a → netStop s p a.1 a.2 = none → sends (netSeen s1 p a.1 a.2))) ∧
  (∀ (s : State) (n : Nat), (sessOf s n).sends = true → 0 < (sessOf s n).rxPend → exec (.ackTimer n) s = .next (sendAck s n)) ∧
  (∀ (s : State) (n now : Nat) (x : Sess), tget s.net.sessions n = some x → x.sends = true → x.unacked ≠ [] →
    exec (.retransmitTimeout n now) s = .next (modSess s n fun _ =>
      { x with unacked := [], outq := x.outq ++ x.unacked.map (fun t => { t.pkt with retrans := true }),
               window := max 1 (x.window / 2), tCut := now, backoff := x.backoff + 1 })) ∧
  (∀ (s : State) (n : Nat), (sessOf s n).state = .opened → (sessOf s n).unacked ≠ [] →
    exec (.sessionFail n) s = .next (failSess s n 0x10)) ∧
  (∀ (s : State) (n id : Nat) (m : Msg), (sessOf s n).resps = [] → tget s.net.msgs id = some m → m.sess = n → m.rnr = true →
    let s1 := modMsg s id fun y => { y with rnr := false }
    let s2 := resend s1 n fun k => k.msg / 4096 = id && !k.response && decide (k.type ≤ 3)
    exec (.rnrResend n id) s = .next (modSess s2 n fun x => { x with rnrUs := min 5000 (2 * x.rnrUs) })) ∧
  ∀ (x : Sess) (acked ce now : Nat), 1 ≤ x.windowMax → 1 ≤ x.window →
    1 ≤ (x.onAck acked ce now).window ∧ 1 ≤ (x.onTimeout now).window

/-! ## Collectives -/

/-- O49. A collective call is checked as it issues, and completes with the code of a check it fails, or ends its job where
the communicator's record cannot be accessed; one that passes takes the communicator's next SEQ (a PERMUTE takes its own at
its start), is counted, and takes the packets held for it. While its job runs a call starts when its communicator and engines
have a slot, a PERMUTE when it is the first of its partition and of its communicator; a call completes when all it owes is
sent and acknowledged and all it awaits is placed. Rests on choices of the model: log 34, 37, 38, 39, 126. -/
def Obligations.CollectiveCalls : Prop :=
  (∀ (s : State) (r : ReqRef) (raw : List Byte) (j : Job), (partOf s r.p).job = some j →
    let issues := fun (op : Nat) (x : Instr) =>
      let w := leBytes 1 op ++ raw.drop 1
      let comm := fieldLE w 4 2 % 4096
      let k := commOf s r.p comm
      let c0 : Call := { ref := r, raw := w, comm := comm, jobSeq := j.seq, epoch := fieldLE w 6 2, seq := 0, alg := 0 }
      let named := bits (fieldLE w 1 1) 7 4
      let alg := if named = 0 then (if op = 0x33 ∨ op = 0x34 then 3 else c0.auto k) else named
      let seq := commField s r.p comm 32 4
      let base := latched s r.p (Ad.partCollCommBase r.p)
      let fault := if comm < formed s r.p (Ad.partCollCommCount r.p) then addrFault s r.p 2 base (64 * comm + 64) else none
      let c := { c0 with alg := alg, seq := if op = 0x34 then 0 else seq }
      let s1 := if op = 0x34 then s else commPut s r.p comm 32 4 ((seq + 1) % 2 ^ 32)
      let seen := (List.range (if op = 0x34 then c.cnt else 0)).foldl (fun t i => farRead t r.p (c.field 48 8 % 2 ^ 41 + 32 * i) 32 3)
        (commSeen s1 r.p k (k.r :: c.peers s r.p k.n k.r))
      (∀ code, fault = some code → exec x s = .next (coreErr s r.p code base)) ∧
      (fault = none → c0.check s r.p alg = none →
        exec x s = .next (takeHeld (modPart (odInc seen (Ad.partCollCalls r.p)) r.p fun q => { q with calls := q.calls ++ [c] }) r.p r)) ∧
      ∀ code, fault = none → c0.check s r.p alg = some code →
        exec x s = .next (collDone (commSeen s r.p k []) r.p { c0 with alg := alg } code)
    issues 0x30 (.allReduce r raw) ∧ issues 0x31 (.reduceScatter r raw) ∧ issues 0x32 (.allGather r raw) ∧
      issues 0x33 (.allToAll r raw) ∧ issues 0x34 (.permute r raw) ∧ issues 0x35 (.broadcast r raw)) ∧
  (∀ (s : State) (p comm : Nat) (c : Call), callRuns s p c = true →
    (partOf s p).calls.find? (fun c => c.comm = comm && !c.started) = some c → c.op ≠ 0x34 → slotFree s p c = true →
    exec (.collCallStart p comm) s = .next (collAdvance (setCall s p { c with started := true }) p { c with started := true })) ∧
  (∀ (s : State) (p : Nat) (c : Call), callRuns s p c = true →
    (partOf s p).calls.find? (fun c => c.op = 0x34) = some c → c.started = false → slotFree s p c = true →
    ((partOf s p).calls.find? fun x => x.comm = c.comm && !x.started).map (·.ref) = some c.ref →
    let s1 := commPut (closeEpoch s p) p c.comm 32 4 1
    let c1 := { c with started := true, seq := 0 }
    exec (.permuteStart p) s = .next (takeHeld (collAdvance (setCall s1 p c1) p c1) p c.ref)) ∧
  ∀ (s : State) (p comm seq : Nat) (c : Call),
    let s1 := collAdvanceAll s p
    (partOf s1 p).calls.find? (fun c => c.comm = comm && c.seq = seq && c.complete s1 p) = some c →
    exec (.collCallComplete p comm seq) s = .next (collAdvanceAll (collDone s1 p c (if c.poisoned then 9 else 0)) p)

/-- O50. A packet of a collective on an open session is given to its call, or held for one not issued yet; EPOCH_CLOSED
and MISMATCH complete the call they name with codes 6 and 5, and ABORT breaks its communicator. Rests on choices of
the model: log 36. -/
def Obligations.CollectivePackets : Prop :=
  (∀ (s : State) (k : Pkt) (c : Call), k.rkey / 65536 = 0xFFFF → rxStop s k = none →
    let p := (sessOf s k.dst).part
    epochIs s p (collId k).1 ≠ .closed → callFor s p k = some c →
    let t := giveCall (rxPlaced (noteRx s k.dst k) k.dst k) p k.dst c k
    exec (.collPacket k) s = .next t ∧ (collKind k = 1 → exec (.announce k) s = .next t) ∧
      (collKind k = 5 → exec (.place k) s = .next t)) ∧
  (∀ (s t : State) (k : Pkt), k.rkey / 65536 = 0xFFFF → rxStop s k = none →
    let p := (sessOf s k.dst).part
    epochIs s p (collId k).1 ≠ .closed → callFor s p k = none → holdPkt s p k.dst k = some t →
    exec (.collPacket k) s = .next (rxPlaced (noteHeld t k.dst k) k.dst k)) ∧
  ∀ (s : State) (k : Pkt), k.rkey / 65536 = 0xFFFF → rxStop s k = none →
    let p := (sessOf s k.dst).part
    let t := rxPlaced (noteRx s k.dst k) k.dst k
    (∀ c, collKind k = 2 → callFor t p k = some c → exec (.epochClosed k) s = .next (collAdvanceAll (collDone t p c 6) p)) ∧
    (∀ c, collKind k = 3 → callFor t p k = some c →
      exec (.mismatch k) s = .next (collAdvanceAll (odInc (collDone t p c 5) (Ad.partCollMismatch p)) p)) ∧
    (collKind k = 4 → exec (.collAbort k) s = .next (breakComm t p (collSlot k)))

/-! ## Queues and jobs -/

/-- O51. A doorbell moves an enabled queue's tail within its ring, and faults the queue beyond it; the unit's choice of
entry is handed to the unit; a job whose checks pass starts in an idle partition, one whose checks fail does not, and the
regions of before stay in effect; a job ends SUCCESS when every die's tree is complete; held completion records are written
as space frees. -/
def Obligations.QueuesAndJobs : Prop :=
  (∀ (s : State) (p q tail : Nat), (queueOf s p q).enabled = true →
    ((tail + 2 ^ 32 - (queueOf s p q).head) % 2 ^ 32 ≤ 2 ^ (queueOf s p q).log2 →
      exec (.doorbell p q tail) s = .next (modQueue s p q fun y => { y with tail := tail % 2 ^ 32 })) ∧
    (2 ^ (queueOf s p q).log2 < (tail + 2 ^ 32 - (queueOf s p q).head) % 2 ^ 32 →
      exec (.doorbell p q tail) s = .next (faultQueue s p q))) ∧
  (∀ (s : State) (p q ns u : Nat), headPending s p q = true → headFault s p q = none → (headEntry s p q).2 = false →
    unitOfOp (fieldLE (headEntry s p q).1 0 1) = some u →
    afterQueue (lowestClass s p (readyFor s p u)) ((tget (partOf s p).lastQueue u).getD 63) = some q →
    exec (.entryIssue p q ns) s =
      .next (issueTo (modPart (takeEntry s p q ns) p fun x => { x with lastQueue := tset x.lastQueue u q })
        ⟨p, q, (queueOf s p q).head⟩ (headEntry s p q).1)) ∧
  (∀ (s : State) (p q ns : Nat), jobHead s p q = true → takesNow s p (.fresh q) = true → (headEntry s p q).2 = false →
    let raw := (headEntry s p q).1
    let j := jobOf s p q raw
    changesTenant s p j.tenant = false →
    let s1 := takeEntry (setState (becomeTenant s p j.tenant) p .starting) p q ns
    let s2 := modPart s1 p fun x =>
      { x with job := some j, nextSeq := (x.nextSeq + 1) % 65536, lastJobQueue := q, nextQueue := none,
               latched := (0, 1) :: valuesOf s1 p .jobStart }
    needsKey s2 p j.tenant = false →
    exec (.jobStart p q ns) s = .next (match startCheck s2 p j (fieldLE raw 32 8) (fieldLE raw 40 4) with
      | none => launchJob s2 p j (fieldLE raw 32 8) (fieldLE raw 40 4)
      | some f => keepRegions (notStarted s2 p f.1 f.2) p (partOf s p).latched)) ∧
  (∀ (s : State) (p : Nat), inState s p .running = true → treesUp s p = true →
    exec (.partitionDone p) s = .next (setState (endJob s p 0 0 0 true) p .idle)) ∧
  ∀ (s : State) (p : Nat) (h : HeldRec), (partOf s p).heldRecs = [h] → compFull s p = false →
    exec (.completionRingSpace p) s = .next (deliverRecord (modPart s p fun q => { q with heldRecs := [] }) p h)

/-- O52. A PREEMPT write that is accepted starts a switch, and one that is not says so; the outgoing job is brought to rest,
its context is taken, and where no fault met it and the tenant stays it is parked, and where the tenant changes the scrubs
follow; a parked job resumes with the increments that came while it was parked, and meets an error where there is poison in
its image or its scale table; the last scrub of a partition makes it IDLE, frees it or lets the switch go on. Rests on choices
of the model: log 43, 44. -/
def Obligations.Switching : Prop :=
  (∀ (s : State) (p q : Nat) (j : Job), (partOf s p).job = some j → preemptCode s p q = 0 →
    let s1 := odInc (odInc (modPart s p fun x => { x with preemptStatus := 0 }) (Ad.partPreemptions p)) (Ad.baroPreemptions p j.queue)
    let s2 := modJob (readTime s1).2 p fun y =>
      { y with preempts := y.preempts + 1, preemptNs := (readTime s1).1, runNs := y.runNs + ((readTime s1).1 - y.sinceNs) }
    exec (.preempt p q) s =
      .next (setState (modPart s2 p fun x => { x with switch := some { step := 0, incoming := .fresh q } }) p .switching)) ∧
  (∀ (s : State) (p q : Nat), preemptCode s p q = 1 → ∃ t, exec (.preempt p q) s = .next t ∧
    (partOf t p).preemptStatus = 1 ∧ (partOf t p).nextQueue = some q) ∧
  (∀ (s : State) (p q : Nat), 1 < preemptCode s p q →
    exec (.preempt p q) s = .next (modPart s p fun x => { x with preemptStatus := preemptCode s p q })) ∧
  (∀ (s : State) (p : Nat) (j : Job) (w : Switch), (partOf s p).job = some j → (partOf s p).switch = some w →
    inState s p .switching = true → w.step = 0 → ∃ t, exec (.switchQuiesced p) s = .next t ∧
      (partOf t p).switch = some { w with step := 1 }) ∧
  (∀ (s : State) (p : Nat) (j : Job) (w : Switch), (partOf s p).job = some j → (partOf s p).switch = some w →
    inState s p .switching = true → w.step = 1 →
    (w.outFailed = none → incomingTenant s p w.incoming = j.tenant →
      let out := { j with saved := j.saved.map fun x => { x with valid := true } }
      exec (.switchSaved p) s = .next (modPart (modPart (dropControl s p) p fun q => { q with parked := out :: q.parked }) p fun q =>
        { q with switch := some { w with step := 3 }, scrubs := [] })) ∧
    (incomingTenant s p w.incoming ≠ j.tenant → ∃ t, exec (.switchSaved p) s = .next t ∧ (partOf t p).scrubs = [1, 2, 3, 4] ∧
      (partOf t p).switch = some { w with step := 2 })) ∧
  (∀ (s : State) (p item : Nat), (partOf s p).scrubs.contains item = true →
    let s1 := modPart (scrubItem s p item) p fun q => { q with scrubs := q.scrubs.filter (· ≠ item) }
    ((partOf s1 p).scrubs ≠ [] → exec (.scrubDone p item) s = .next s1) ∧
    ((partOf s1 p).scrubs = [] → (inState s1 p .forming = true → exec (.scrubDone p item) s = .next (setState s1 p .idle)) ∧
      (inState s1 p .tearingDown = true → exec (.scrubDone p item) s = .next (freePart s1 p)) ∧
      (inState s1 p .switching = true → exec (.scrubDone p item) s =
        .next (modPart s1 p fun q => { q with switch := q.switch.map fun w => { w with step := 3 } })))) ∧
  ∀ (s : State) (p : Nat) (j0 : Job) (x : Saved), (partOf s p).parked.find? (fun j => takesNow s p (.parked j.seq)) = some j0 →
    j0.saved = some x → (∀ e ∈ (addPending j0).sems, e.2 ≤ 65535) →
    let s1 := becomeTenant s p j0.tenant
    let now := (readTime s1).1
    let lost := now - j0.preemptNs
    let s2 := modPart (readTime s1).2 p fun q =>
      { q with job := some { addPending j0 with saved := none, sinceNs := now }, parked := q.parked.filter (fun y => y.seq ≠ j0.seq),
               latched := j0.latched, walks := x.walks, moves := x.moves,
               prefetchPos := if x.prefetchNext = 0 then none else some (x.prefetchNext - 1), switch := none }
    let s3 := loadScale (restoreAll s2 p j0.image x) p
    let s4 := modPart s3 p fun q => { q with scaleCopy := q.scale.map fun e => (e.1, (e.2.mexp, e.2.ovf)) }
    let live := (x.cells.filter fun e => e.2.seq.status ≠ .done).length
    let s5 := countWait (odAdd s4 (Ad.baroPreemptLostNs p j0.queue) lost) (some p)
      (live * (lost * cclkActual s4 ((partOf s4 p).dies.headD 0) / 1000))
    let s6 := setState (resumeSessions s5 p j0.seq) p .running
    exec (.jobResume p) s = .next (match (loadCheck s6 p j0.image).orElse fun _ => scaleRecords s p with
      | none => s6
      | some f => coreErr s6 p (if f.1 = .imageInvalid then .poisonConsumed else f.1) f.2)

/-! ## The dictionary -/

/-- O53. Every WRITE of a value to an entry: one that passes the frame's checks and the entry's own is applied and
answered, or where its entry is persistent is queued for its commit; a value the owning chapter rejects is answered
INVALID_VALUE and changes nothing else. The frames of the commands with a row of their own carry the address, tag and
value of that row. Rests on choices of the model: log 67, 68. -/
def Obligations.RegisterWrites : Prop :=
  (∀ (s : State) (c : Caller) (tag : Nat),
    let writes := fun (x : Instr) (f : List Byte) => ∀ r, accepted s c f = true → frameOp f = 2 → findRow (frameAddr f) = some r →
      r.ty ≠ .dom → r.id ≠ .fwImageWrite → r.id ≠ .secDebugToken →
      let a := frameAddr f
      let v := leNat (frameData f)
      (valueBad s a r v = true → exec x s = .next (respond s c f (.err 8) true)) ∧
        (valueBad s a r v = false → r.access c.cls ≠ some .w1c →
          exec x s = .next (if r.persist = .persistent then modServer s fun w => { w with store := w.store ++ [⟨c, f, a, v⟩] }
            else respond (applyWrite s c a r v) c f (.ok []) true))
    (∀ v, writes (.blockClockStop c tag v) (writeFrame Ad.blockClockStop 4 v tag) ∧
      writes (.blockPowerOff c tag v) (writeFrame Ad.blockPowerOff 4 v tag) ∧
      writes (.secBlockOwnerWrite c tag v) (writeFrame Ad.secBlockOwner 4 v tag) ∧
      writes (.commRestoreDefaults c tag v) (writeFrame Ad.commRestoreDefaults 1 v tag) ∧
      writes (.errPartReset c tag v) (writeFrame Ad.errPartReset 1 v tag) ∧
      writes (.errSpareSwap c tag v) (writeFrame Ad.errSpareSwap 2 v tag) ∧
      writes (.errGroupRetire c tag v) (writeFrame Ad.errGroupRetire 1 v tag) ∧
      writes (.almClear c tag v) (writeFrame Ad.almClear 1 v tag) ∧
      writes (.memGroupRetrain c tag v) (writeFrame Ad.memGroupRetrain 1 v tag) ∧
      writes (.marginEdges c tag v) (writeFrame Ad.marginRequest 8 (marginValue 1 v 0) tag) ∧
      writes (.marginMap c tag v) (writeFrame Ad.marginRequest 8 (marginValue 1 v 1) tag) ∧
      writes (.marginPcieLane c tag v) (writeFrame Ad.marginRequest 8 (marginValue 2 v 0) tag)) ∧
    (∀ k v, writes (.cclkWrite c tag k v) (writeFrame (Ad.cdCclkMhz k) 2 v tag) ∧
      writes (.loadTargetWrite c tag k v) (writeFrame (Ad.partLoadTarget k) 8 v tag) ∧
      writes (.anemSelectWrite c tag k v) (writeFrame (Ad.anemSelect k) 4 v tag) ∧
      writes (.pinFunctionWrite c tag k v) (writeFrame (Ad.pinFunction k) 1 v tag) ∧
      ∀ q, writes (.queueEnable c tag k q v) (writeFrame (Ad.partQueueConfig k q) 4 v tag)) ∧
    (∀ k, writes (.form c tag k) (writeFrame (Ad.partCommand k) 1 1 tag) ∧
      writes (.teardown c tag k) (writeFrame (Ad.partCommand k) 1 2 tag) ∧
      writes (.replaceDie c tag k) (writeFrame (Ad.partCommand k) 1 3 tag)) ∧
    writes (.fwActivateOc c tag) (writeFrame Ad.fwActivate 1 1 tag) ∧
    writes (.fwActivateAtReset c tag) (writeFrame Ad.fwActivate 1 2 tag) ∧
    writes (.fwRaiseSvn c tag) (writeFrame Ad.fwActivate 1 3 tag) ∧
    ∀ f, writes (.registerWrite c f) f) ∧
  ∀ a n v tag : Nat, a < 2 ^ 24 → tag < 2 ^ 16 → n ≤ 8 → v < 256 ^ n →
    let f := writeFrame a n v tag
    f.length = 8 + frameLen f ∧ frameLen f = n ∧ frameOp f = 2 ∧ frameAddr f = a ∧ frameTag f = tag ∧ leNat (frameData f) = v

/-- O54. A write of CD_CCLK_MHZ is rejected with INVALID_VALUE exactly when its value lies outside 600 to 1,600, is no
multiple of 50, or exceeds the ceiling of a die it would set; else it is done, and every die it sets reads it. -/
def Obligations.CclkValues : Prop :=
  ∀ (s : State) (c : Caller) (tag d v : Nat) (r : Row), d < 16 → v < 65536 →
    let f := writeFrame (0x2100 * 256 + (d + 1)) 2 v tag
    accepted s c f = true → findRow (frameAddr f) = some r →
    let sets := match dieOwner s d with | some p => (partOf s p).dies | none => [d]
    let bad := v < 600 ∨ 1600 < v ∨ v % 50 ≠ 0 ∨ ∃ x ∈ sets, (tget s.nv.ceiling x).getD Config.cclkCeilingMHz < v
    (bad → exec (.cclkWrite c tag d v) s = .next (respond s c f (.err 8) true)) ∧
      (¬ bad → ∃ t, exec (.cclkWrite c tag d v) s = .next (respond t c f (.ok []) true) ∧
        ∀ x ∈ sets, x < 16 → odGet t (0x2100 * 256 + (x + 1)) = v)

/-- O55. What a READ, a READ_SEGMENT, an ABORT and a WRITE of a DOM value answer, and what a firmware image and a debug
token written whole do. Rests on choices of the model: log 72, 73. -/
def Obligations.DictionaryOperations : Prop :=
  ∀ (s : State) (c : Caller) (f : List Byte), accepted s c f = true →
    (∀ r, frameOp f = 1 → findRow (frameAddr f) = some r → r.ty ≠ .dom → r.ty ≠ .vis → openEntry r = false →
      r.id ≠ .fwImageWrite → r.id ≠ .secDebugToken → r.access c.cls ≠ some .rc →
      exec (.read c f) s = .next (respond s c f (.ok (leBytes r.ty.bytes (entryValue s c.cls (frameAddr f) r))) true)) ∧
    (∀ r tag, f = requestFrame 1 Ad.almWindow tag [] → findRow (frameAddr f) = some r → r.ty = .dom → r.id = .almWindow →
      let d := almWindow s c.cls
      let x : Transfer := { caller := c, addr := frameAddr f, tag := frameTag f, total := d.1.length, data := d.1 }
      exec (.almanacWindowRead c tag) s = .next (respond
        (modServer d.2 fun v => { v with snaps := v.snaps.filter (fun y => !Transfer.isFor y c (frameAddr f) (frameTag f)) ++ [x] })
        c f (.ok (leBytes 4 d.1.length)) true)) ∧
    (∀ x, frameOp f = 3 → s.server.snaps.find? (fun x => Transfer.isFor x c (frameAddr f) (frameTag f)) = some x →
      fieldLE (frameData f) 0 4 < x.total → c.transport = 0 →
      ((findRow (frameAddr f)).any fun r => r.id = .fwImageWrite ∨ r.id = .secDebugToken) = false →
      let off := fieldLE (frameData f) 0 4
      exec (.readSegment c f) s =
        .next (respond s c f (.ok (slice x.data off (min (fieldLE (frameData f) 4 4) (x.total - off)))) true)) ∧
    (frameOp f = 4 → ((findRow (frameAddr f)).any fun r => r.id = .fwImageWrite ∨ r.id = .secDebugToken) = false →
      let out := fun (l : List Transfer) => l.filter fun x => !Transfer.isFor x c (frameAddr f) (frameTag f)
      exec (.abort c f) s = .next (respond (modServer s fun v =>
        { v with snaps := out v.snaps, writes := out v.writes, aborted := out v.aborted }) c f (.ok []) true)) ∧
    (∀ r, frameOp f = 2 → findRow (frameAddr f) = some r → r.ty = .dom → r.id ≠ .fwImageWrite → r.id ≠ .secDebugToken →
      fieldLE (frameData f) 0 4 = 0 → fieldLE (frameData f) 4 4 = ((frameData f).drop 8).length →
      domBad r ((frameData f).drop 8) = false →
      let others := modServer s fun w => { w with writes := w.writes.filter fun x => decide (x.addr ≠ frameAddr f) }
      let t := respond (applyDom others c (frameAddr f) r ((frameData f).drop 8)) c f (.ok []) true
      exec (.domWriteSegment c f) s = .next t ∧
        ∀ tag p nonce, f = domFrame ((p.map Ad.partAttestNonce).getD Ad.attestNonce) tag nonce →
          exec (.attestNonce c tag p nonce) s = .next t) ∧
    (∀ r img, frameOp f = 2 → frameAddr f = Ad.fwImageWrite → findRow (frameAddr f) = some r → r.ty = .dom → r.id = .fwImageWrite →
      fieldLE (frameData f) 0 4 = 0 → fieldLE (frameData f) 4 4 = ((frameData f).drop 8).length → imageOk s img = true →
      let others := modServer s fun w => { w with writes := w.writes.filter fun x => decide (x.addr ≠ frameAddr f) }
      let y := fwSlots s img.oc
      exec (.fwImageWrite c f img) s =
        .next (respond (setSlots others img.oc (y.put (!y.active) (some img) false)) c f (.ok []) true)) ∧
    ∀ r tag token, f = domFrame Ad.secDebugToken tag token → frameOp f = 2 → findRow (frameAddr f) = some r → r.ty = .dom →
      r.id = .secDebugToken → fieldLE (frameData f) 0 4 = 0 → fieldLE (frameData f) 4 4 = ((frameData f).drop 8).length →
      (frameData f).drop 8 = token → token.length = 180 → slice token 0 48 = leBytes 48 deviceId →
      slice token 48 32 = leBytes 32 (Config.freeValue s.sec.challenge) → fieldLE token 80 1 = 1 ∨ fieldLE token 80 1 = 2 →
      let others := modServer s fun w => { w with writes := w.writes.filter fun x => decide (x.addr ≠ frameAddr f) }
      exec (.debugToken c tag token true) s =
        .next (respond { others with nv := { others.nv with debugNext := fieldLE token 80 1 } } c f (.ok []) true)

/-- O56. The oldest persistent write reaches the store and is answered, or fails; the transfers and kept responses expire;
a mailbox, an MCTP message and a management datagram hand their frames to the server where it is ready and their limits are
not met, and a mailbox rung while it works counts an overrun; the port answers ARP and ICMP for its address. Rests on choices of the model: log 68. -/
def Obligations.Transports : Prop :=
  (∀ (s : State) (x : StoreReq) (rest : List StoreReq) (r : Row), s.server.store = x :: rest → findRow x.addr = some r →
    let s1 := modServer s fun v => { v with store := rest }
    exec (.storeCommit true) s = .next (respond (applyWrite s1 x.caller x.addr r x.value) x.caller x.frame (.ok []) true) ∧
      exec (.storeCommit false) s = .next (respond (recordOnly s1 .dictStoreFailed 0 none 0x1900 0) x.caller x.frame (.err 10) true)) ∧
  (∀ (s : State) (c : Caller) (index sub tag : Nat),
    let mine := fun (x : Transfer) => Transfer.isFor x c (index * 256 + sub) tag
    exec (.snapshotExpiry c index sub tag) s = .next (modServer s fun v => { v with snaps := v.snaps.filter fun x => !mine x }) ∧
      exec (.writeTransferExpiry c index sub tag) s = .next (modServer s fun v =>
        { v with writes := v.writes.filter (fun x => !mine x), aborted := v.aborted ++ v.writes.filter mine })) ∧
  (∀ (s0 : State) (page vector : Nat) (f : List Byte),
    let c : Caller := { cls := pageCls page, transport := 1, ident := page }
    let s := modPage s0 page fun y => { y with vector := bits vector 15 15 * 2 ^ 15 + bits vector 10 0 }
    transportUp s0 c = true →
    ((pageOf s0 page).state = 0 ∨ (pageOf s0 page).state = 2 → s0.server.ready = true →
      exec (.mailboxDoorbell page f vector) s0 =
        .next (submit (modPage s page fun y => { y with state := 1, request := f }) c f 0)) ∧
    ((pageOf s0 page).state = 1 → exec (.mailboxDoorbell page f vector) s0 =
      .next (modPage s page fun y => { y with overrun := (y.overrun + 1) % 2 ^ 32 }))) ∧
  (∀ (s : State) (m : Mctp),
    let c : Caller := { cls := if m.sc then .S else .O, transport := m.transport, ident := m.eid }
    let here := s.server.outstanding.filter fun x => x.1.cls = c.cls && x.1.transport = c.transport
    transportUp s c = true → m.transport = 2 ∨ m.transport = 3 → m.integrity = false → m.subTypeOk = true → m.ianaOk = true →
    (needsOc c = true → s.server.ready = true) → (here.filter fun x => x.1.ident = m.eid).length < 8 → here.length < 32 →
    exec (.mctpMessage m) s = .next (submit s c m.frame m.msgTag)) ∧
  (∀ (s : State) (d : Datagram),
    let c : Caller := { cls := if odGet s Ad.commEthClass = 1 then .O else .D, transport := 4, ident := d.addr * 65536 + d.port }
    let here := s.server.outstanding.filter fun x => x.1.transport = 4
    transportUp s c = true → d.dstPort = atReset s Ad.commEthUdpPort → d.frame.length = 8 + frameLen d.frame →
    d.addr &&& odGet s Ad.commEthAllowMask = odGet s Ad.commEthAllowAddr &&& odGet s Ad.commEthAllowMask →
    atReset s Ad.commEthIpv4Addr ≠ 0 → s.server.ready = true →
    s.server.kept.find? (fun k => k.addr = d.addr && k.port = d.port && k.tag = frameTag d.frame && k.request = d.frame) = none →
    (here.filter fun x => x.1.ident / 65536 = d.addr).length < 16 → here.length < 64 →
    exec (.mgmtDatagram d) s = .next (submit s c d.frame 0)) ∧
  (∀ (s : State) (addr port tag : Nat), exec (.keptResponseExpiry addr port tag) s = .next (modServer s fun v =>
    { v with kept := v.kept.filter fun k => !(decide (k.addr = addr) && decide (k.port = port) && decide (k.tag = tag)) })) ∧
  (∀ (s : State) (arp : Bool), s.server.ready = true → atReset s Ad.commEthIpv4Addr ≠ 0 →
    exec (.mgmtArpIcmp arp (atReset s Ad.commEthIpv4Addr)) s = .next (emit s (.mgmt arp))) ∧
  ∀ (s : State) (binding eid : Nat) (sc : Bool), exec (.eidAssignment binding sc eid) s =
    .next (modServer s fun v => { v with eids := tset v.eids (2 * binding + if sc then 1 else 0) eid })

/-! ## Security -/

/-- O57. The key store's health and its reseeding, a measured load's bytes in order, the signed report, the answers of the
SC's SPDM responder, and the OC's activation. Rests on choices of the model: log 4, 55, 88, 89, 168. -/
def Obligations.Security : Prop :=
  (∀ s : State, exec .entropyHealthFail s = .next (recordOnly (odSet s Ad.secEntropyState 1) .keystoreEntropyFail 6 none 0x1800 0)) ∧
  (∀ s : State, 65536 ≤ s.sec.drbg → exec .drbgReseed s = .next { s with sec := { s.sec with drbg := 0 } }) ∧
  (∀ (s : State) (p : Nat) (l : Load) (data : List Byte), (partOf s p).load = some l → s.boot.pcieUp = true → data ≠ [] →
    data.length ≤ 512 → data.length % 4 = 0 →
    let a := l.target + l.next
    (l.next + data.length < l.length → farWaits s p a data.length = false →
      exec (.loadWrite p (l.next % 2 ^ 24) data) s =
        .next (modPart (forTenant s p l.tenant fun t => farRequest t p a 0 data.length none (.write p a 0 .load data false)) p fun q =>
          { q with load := some { l with next := l.next + data.length, hashed := l.hashed ++ data } })) ∧
    ∀ offset, offset ≠ l.next % 2 ^ 24 →
      exec (.loadWrite p offset data) s = .next (odOr (endLoad s p) (Ad.partMeasReason p) 1)) ∧
  (∀ (s : State) (cls : Cls) (p : Option Nat) (n : List Byte), s.boot.scUp = true → classGet (measOf s p).nonces cls = some n →
    classGet (measOf s p).reports cls = none →
    exec (.attestReportSigned cls p) s =
      .next (answerWaiting (modMeas s p fun x => { x with reports := classSet x.reports cls (signedReport s p n) }) cls p)) ∧
  (∀ s : State, scAnswers s = true →
    let gives := fun (x : Instr) (t : State) (code : Nat) (body : List Byte) => exec x s = .next (emit t (.spdm code body))
    let chain := spdmChain s
    let v := Config.freeValue s.fresh
    let drawn := { s with fresh := s.fresh + 1 }
    gives .getVersion s 0x04 [0, 0, 0, 1, 0x00, 0x12] ∧
      gives .getCapabilities drawn 0x61 (leBytes 3 0 ++ leBytes 1 v ++ leBytes 2 0 ++ leBytes 4 0x12 ++ leBytes 8 (v / 256)) ∧
      gives .negotiateAlgorithms s 0x63
        (leBytes 2 0 ++ leBytes 2 36 ++ leBytes 2 1 ++ leBytes 4 1 ++ leBytes 4 0x80 ++ leBytes 4 2 ++ leBytes 16 0) ∧
      gives .getDigests s 0x01 ([0, 1] ++ leBytes 48 (Config.sha384 chain)) ∧
      (∀ offset len, offset < chain.length →
        let n := min len (chain.length - offset)
        gives (.getCertificate 0 offset len) s 0x02
          (leBytes 2 0 ++ leBytes 2 n ++ leBytes 2 (chain.length - offset - n) ++ slice chain offset n)) ∧
      (∀ slot offset len, slot ≠ 0 → gives (.getCertificate slot offset len) s 0x7F [0x07, 0x82]) ∧
      (∀ index xs, spdmAsked s index = some xs →
        let b := spdmBody s index xs v
        gives (.getMeasurements index false) drawn 0x60 b ∧
          gives (.getMeasurements index true) drawn 0x60 (b ++ padTo 96 (Config.ecdsa (akKey s) b))) ∧
      ∀ code, code ∉ [0x81, 0x82, 0x84, 0xE0, 0xE1, 0xE3] → gives (.spdmUnsupported code) s 0x7F [0x07, BitVec.ofNat 8 code]) ∧
  (∀ s : State, s.boot.ocPending = true → s.server.ready = true → idlePoint s = true → ∃ t, exec .ocActivation s = .next t ∧
    t.boot.ocPending = false ∧ (slotGood { s with boot := { s.boot with ocPending := false } } true (!s.nv.oc.active) = true →
      t.nv.oc.active = !s.nv.oc.active ∧ t.server.ready = false ∧ t.boot.ocRestart = true)) ∧
  ∀ s : State, s.boot.ocRestart = true → ∃ t, exec .ocRestartTimeout s = .next t ∧ t.nv.oc.active = !s.nv.oc.active ∧
    (if s.nv.oc.active then t.nv.oc.invalidB else t.nv.oc.invalidA) = true

/-! ## Recovery -/

/-- O58. Each recovery action acts once, on its target, and completes in order; one whose steps outlast their limit is
fatal; staged Almanac records reach flash oldest first, none during an erase; a module reset starts the boot again.
Rests on choices of the model: log 96. -/
def Obligations.Recovery : Prop :=
  (∀ (s : State) (a : Action), s.recovery.running = some a → a.performed = false →
    (∀ p, a.kind = 1 → p ∈ a.parts → resettable s p = true →
      exec (.containment p) s = .next (donePerforming (notify (stopPart s p 1 (containCode s a) a.wher)))) ∧
    (∀ p, a.kind = 2 → p ∈ a.parts → resettable s p = true → a.code = 0 →
      exec (.partitionReset p) s = .next (donePerforming (resetPart s p (containCode s a) a.wher))) ∧
    (∀ die cell, a.kind = 3 → cell < 80 → a.target = 80 * die + cell →
      exec (.spareSwap die cell) s = .next (modRunning (swapIn s (80 * die + cell)) fun x =>
        { x with performed := true, swap := if x.swap = some (80 * die + cell) then none else x.swap })) ∧
    (a.kind = 4 → a.code ≠ Code.groupRetired.value → groupOwner s a.target = none →
      exec (.groupRetire a.target) s = .next (donePerforming (notify (groupOut (failRequests s a.target none) a.target)))) ∧
    (∀ e, a.kind = 5 → (a.target = engineNo false e → exec (.engineReset false e) s = .next (donePerforming (resetMedia s e))) ∧
      (a.target = engineNo true e → exec (.engineReset true e) s = .next (donePerforming (resetColl s e)))) ∧
    (a.kind = 6 → a.parts = [] → exec (.dieReset a.target) s = .next (donePerforming (resetDie s a.target))) ∧
    (∀ boot fatal, a.kind = 7 → s.boot.railsUp = true → heldReset s = false →
      exec (.moduleReset boot fatal) s = .next (performReset s a boot))) ∧
  (∀ (s : State) (a : Action), s.recovery.running = some a → a.performed = true → a.swap = none → a.kind ≠ 7 →
    exec .recoveryDone s = .next (finishAction s a)) ∧
  (∀ (s : State) (a : Action), s.recovery.running = some a →
    exec .recoveryTimeout s = .next (fatalErr s .recoveryTimeout 0x1900)) ∧
  (∀ (s : State) (n : Nat), s.nv.alm.erasing = false → s.nv.alm.stopped = false →
    exec (.almanacCommit n) s = .next (commitStaged n s)) ∧
  (∀ s : State, s.nv.alm.erasing = true → ∃ t, exec .almanacEraseDone s = .next t ∧ t.nv.alm.erasing = false) ∧
  ∀ (s : State) (r : AlmRec) (rest : List AlmRec), s.nv.alm.stage = rest ++ [r] → s.nv.alm.erasing = false → s.nv.alm.stopped = false →
    ∃ t, exec (.almanacCommit 1) s = .next t ∧ t.nv.alm.stage = rest

/-! ## Bring-up, power and links -/

/-- O59. The rails come up and go down with MOD_EN, the input and the trip; the resets begin and end; each boot step that
does not end in time stops the boot with its code; the OC, training and margining take the part to READY. Rests on
choices of the model: log 84. -/
def Obligations.BringUp : Prop :=
  (∀ (s : State) (lowMs : Nat), s.boot.modEn = false → 1000 ≤ lowMs → s.boot.inputOk = true → s.boot.railsUp = false →
    ∃ t, exec (.modEnRise lowMs) s = .next t ∧ t.boot.armed = true ∧ t.boot.modEn = true ∧ t.boot.tripLatched = false) ∧
  (∀ s : State, s.boot.modEn = true → exec .modEnFall s = .next (powerOff (modBoot s fun b => { b with modEn := false }))) ∧
  (∀ s : State, s.boot.inputOk = true → exec .inputOutOfRange s = .next (powerOff (modBoot s fun b => { b with inputOk := false }))) ∧
  (∀ (s : State) (removed : Bool), s.boot.inputOk = false → exec (.inputInRange removed) s =
    .next (arm (modBoot s fun b => { b with inputOk := true, tripLatched := b.tripLatched && !removed }))) ∧
  (∀ (s : State) (straps uf : Nat) (boot : BootIn), s.boot.armed = true → refOn s .ref25 = true → s.boot.railsUp = false →
    (960 ≤ uf → exec (.railsGood straps uf boot) s = .next (railsUp s straps uf boot)) ∧
      (uf < 960 → exec (.railsGood straps uf boot) s = .next (failRails s 1))) ∧
  (∀ s : State, s.boot.railsUp = true → s.boot.tripLatched = false → heldReset s = false →
    exec .modResetAssert s = .next (hostReset (modBoot s fun b => { b with modResetN := false })) ∧
      (s.boot.perstN = true → bit s.boot.straps 1 = true →
        exec .perstAssert s = .next (hostReset (modBoot s fun b => { b with perstN := false }))) ∧
      (s.boot.perstN = true → bit s.boot.straps 1 = false →
        exec .perstAssert s = .next (resetPcie (modBoot s fun b => { b with perstN := false })))) ∧
  (∀ (s : State) (straps : Nat) (boot : BootIn),
    (s.boot.modResetN = false →
      exec (.modResetRelease straps boot) s = .next (endReset (modBoot s fun b => { b with modResetN := true }) straps boot)) ∧
    (s.boot.perstN = false → s.boot.modResetN = true → bit s.boot.straps 1 = true →
      exec (.perstRelease straps boot) s = .next (endReset (modBoot s fun b => { b with perstN := true }) straps boot))) ∧
  (∀ s : State, booting s = true →
    (odGet s Ad.bootStage ≠ 3 → slotGood s false s.nv.sc.active = true → slotGood (passOver s false) false (!s.nv.sc.active) = true →
      exec (.slotStartTimeout false) s = .next (passOver s false)) ∧
    exec (.bootStepTimeout 5) s = .next (stopBoot s 5) ∧
    (odGet s Ad.bootStage ≠ 3 →
      exec (.bootStepTimeout 4) s = .next (modBoot (stopBoot s 4) fun b => { b with scUp := false })) ∧
    ∀ level, slotGood { s with nv := { s.nv with level := level } } true s.nv.oc.active = true →
      exec (.ocReady level) s = .next (ocUp { s with nv := { s.nv with level := level } })) ∧
  (∀ s : State, s.boot.armed = true → s.boot.railsUp = false →
    exec (.bootStepTimeout 1) s = .next (failRails s 1) ∧
      (refOn s .ref25 = false → exec (.bootStepTimeout 2) s = .next (failRails s 2))) ∧
  (∀ (s : State) (level : Nat), s.boot.ocRestart = true → ∃ t, exec (.ocReady level) s = .next t ∧ t.server.ready = true ∧
    t.boot.ocRestart = false ∧ t.nv.level = level) ∧
  (∀ (s : State) (failed : List (Nat × Nat)) (absent : List Nat) (trainMs nowMs : Nat), s.boot.training = true →
    let k := s.boot.round
    let s1 := [k, 4 + k, 8 + k, 12 + k].foldl (fun t g => endTraining t failed absent trainMs g) s
    (k < 3 → exec (.trainingRoundDone failed absent trainMs nowMs) s = .next (modBoot s1 fun b => { b with round := k + 1 })) ∧
      (3 ≤ k → bit s.boot.straps 2 = false → atReset s Ad.bootMarginAtStart ≠ 1 →
        exec (.trainingRoundDone failed absent trainMs nowMs) s =
          .next (becomeReady (modBoot s1 fun b => { b with training := false, round := 0 }) nowMs))) ∧
  ∀ (s : State) (result : List Byte) (nowMs : Nat),
    (s.boot.startMargin = true → (∀ g, g < 16 → groupFails result g = false) →
      exec (.marginDone result nowMs) s =
        .next (becomeReady (modBoot (setDom s Ad.marginStartResult result) fun b => { b with startMargin := false }) nowMs)) ∧
    ∀ v, s.boot.startMargin = false → s.boot.margin = some v → bits v 63 56 ≠ 2 →
      exec (.marginDone result nowMs) s =
        .next (modBoot (setDom (odSet s Ad.marginState 2) Ad.marginResult result) fun b => { b with margin := none })

/-- O60. The links, the ports, the groups' retrains and the pins; the averages and temperatures that throttle the clocks,
the power limit, the trip and the reference clocks. Rests on choices of the model: log 80, 82, 83, 93, 94, 129, 130. -/
def Obligations.LinksAndPower : Prop :=
  (∀ (s : State) (port : Nat), odGet s (Ad.netPortState port) = 1 → refOn s (netRef (port / 16)) = true →
    blockCut s (22 + port / 16) = false → exec (.ethLinkUp port) s = .next (odSet s (Ad.netPortState port) 2)) ∧
  (∀ (s : State) (port : Nat), port < 32 → odGet s (Ad.netPortState port) ≠ 3 → ∃ t, exec (.ethLinkDown port) s = .next t ∧
    odGet t (Ad.netPortState port) = 0) ∧
  (∀ (s : State) (port i : Nat), portsRun s = true → i < 4 → odGet s (Ad.netPortState (4 * port + i)) = 0 →
    refOn s (netRef (port / 4)) = true → blockCut s (22 + port / 4) = false →
    exec (.portRestart port) s = .next (restartPort (odInc s (Ad.netPortRestarts port)) port)) ∧
  (∀ (s : State) (width rate : Nat) (flit : Bool), s.boot.railsUp = true → s.boot.tripLatched = false → heldReset s = false →
    s.boot.perstN = true → refOn s .ref100 = true → s.boot.pcieUp = false →
    exec (.pcieLinkUp width rate flit) s =
      .next (modBoot (odSet s Ad.pcieLinkStatus (1 + (if flit then 2 else 0) + width % 16 * 16 + rate % 16 * 256)) fun b =>
        { b with pcieUp := true })) ∧
  (∀ s : State, s.boot.pcieUp = true →
    exec .pcieLinkDown s =
      .next (modBoot (odInc (odSet s Ad.pcieLinkStatus 0) Ad.pcieLinkRetrains) fun b => { b with pcieUp := false }) ∧
    (∀ req v, req.write = some v → exec (.configurationRequest req) s = .next (emit s (.configReply req.register v))) ∧
    (∀ req, req.write = none → exec (.configurationRequest req) s =
      .next (emit { s with fresh := s.fresh + 1 } (.configReply req.register (Config.freeValue s.fresh)))) ∧
    ∀ lane dir steps errors, steps ≤ (if dir < 2 then 32 else 64) →
      exec (.laneMarginingRequest lane dir steps errors) s = .next (emit s (.marginStatus lane errors))) ∧
  (∀ (s : State) (g : Nat), odGet s (Ad.memGroupState g) = 0 → s.boot.railsUp = true → 4 ≤ odGet s Ad.bootStage →
    ((grpOf s g).firstRetrain = false → exec (.retrainTrigger g) s = .next (startRetrain s g)) ∧
      exec (.retrainDrift g) s = .next (startRetrain s g)) ∧
  (∀ (s : State) (g : Nat), (grpOf s g).retraining = true →
    exec (.retrainDone g true) s =
      .next (odSet (modGrp s g fun x => { x with retraining := false, firstRetrain := true }) (Ad.memGroupState g) 0) ∧
    exec (.retrainDone g false) s = .next (retireErr (modGrp s g fun x => { x with retraining := false }) g Code.groupRetired.value 0 noLink)) ∧
  (∀ (s : State) (lane eye : Nat),
    let port := 4 * (lane / 8) + lane % 8 / (8 / 2 ^ (tget s.net.portMode (lane / 8)).getD 0)
    exec (.eyeRefresh lane eye) s =
      .next (odSet s (Ad.ethLaneEye lane) (if odGet s (Ad.netPortState port) = 2 then eye % 2 ^ 40 else 0))) ∧
  (∀ (s : State) (pin fn : Nat), (pinOf s pin).next = some fn →
    ((pinOf s pin).held = none → exec (.pinSwitchComplete pin) s = .next (modPin s pin fun _ => { fn := fn })) ∧
      ∀ h, (pinOf s pin).held = some h →
        exec (.pinSwitchComplete pin) s = .next (switchPin (modPin s pin fun _ => { fn := fn }) pin h)) ∧
  (∀ (s : State) (watts mv ma : Nat), s.boot.railsUp = true →
    let s1 := countMs s watts mv ma
    (odGet s1 Ad.modPowerCapW < watts → s.boot.stepped = false →
      exec (.powerAverageTick watts mv ma) s = .next (throttleDown (modBoot s1 fun b => { b with stepped := false, quietMs := 0 }))) ∧
    (watts ≤ odGet s1 Ad.modPowerCapW → 95 * odGet s1 Ad.modPowerCapW ≤ 100 * watts →
      exec (.powerAverageTick watts mv ma) s = .next (modBoot s1 fun b => { b with stepped := false, quietMs := 0 }))) ∧
  (∀ (s : State) (temps : List Int) (plate : Int), s.boot.railsUp = true → s.boot.stepped = false →
    let code := fun (t : Int) => (BitVec.ofInt 32 t).toNat
    let s1 := (List.range 40).foldl (fun t k => odSet t (Ad.dieTemp k) (code (temps.getD k 0))) (odSet s Ad.coldPlateTemp (code plate))
    exec (.dieTempSample temps plate) s =
      .next (if anyAbove s1 95 then modBoot (throttleDown s1) fun b => { b with stepped := true } else s1)) ∧
  (∀ (s : State) (watts : Nat), Config.powerLimitW < watts →
    (running s = true → exec (.powerLimitFence watts) s = .next (modBoot (throttleDown s) fun b => { b with overLimit := true })) ∧
      (s.boot.overLimit = true → exec (.powerLimitShutdown watts) s = .next (powerOff s))) ∧
  (∀ s : State, s.boot.tripLatched = false → s.boot.railsUp = true → 4 < odGet s Ad.bootStage → odGet s Ad.bootStage ≠ 8 →
    exec .thermalTrip s = .next (recordOnly (shedRails s) .powerLoss 0 none 0x1900 1)) ∧
  ∀ s : State, exec (.refclkLoss .ref100) s = .next (pcieDown (dropRef s .ref100)) ∧
    exec (.refclkLoss .ref156A) s = .next (portsDown (dropRef s .ref156A) 0) ∧
    exec (.refclkLoss .ref156B) s = .next (portsDown (dropRef s .ref156B) 1) ∧
    (s.boot.railsUp = true → exec (.refclkLoss .ref25) s = .next (powerOff (dropRef s .ref25))) ∧
    ∀ ref, refOn s ref = false → exec (.refclkReturn ref) s = .next (modBoot s fun b => { b with refs := b.refs ++ [ref] })
end

