-- ==== Sys2Proof/Laws/State.lean ====
section
/-!
SUPPORT. What the elementary updates of the state leave as it was, field by field, and what a table reads after
one of its entries is set.
-/

namespace Sys2Proof.Machine

/-! ## Tables -/

/-- The entry set reads as set. -/
@[simp] theorem tget_tset_self {α : Type} (t : Tbl α) (n : Nat) (a : α) : tget (tset t n a) n = some a := by
  induction t with
  | nil => simp [tset, tget]
  | cons e t ih =>
    obtain ⟨k, v⟩ := e
    rw [tset]
    split
    · simp [tget]
    · split
      · simp [tget]
      · rename_i h
        rw [tget, if_neg h, ih]

/-- Every other entry reads as before. -/
@[simp] theorem tget_tset_ne {α : Type} (t : Tbl α) {n m : Nat} (a : α) (h : m ≠ n) : tget (tset t n a) m = tget t m := by
  induction t with
  | nil => simp [tset, tget, Ne.symm h]
  | cons e t ih =>
    obtain ⟨k, v⟩ := e
    rw [tset]
    split
    · simp [tget, Ne.symm h]
    · split
      · rename_i hk
        simp [tget, hk, Ne.symm h]
      · rw [tget, tget, ih]

/-! ## What each update leaves -/

@[simp] theorem setCell_pending (s : State) (g : Nat) (c : Cell) : (setCell s g c).pending = s.pending := rfl
@[simp] theorem setCell_fresh (s : State) (g : Nat) (c : Cell) : (setCell s g c).fresh = s.fresh := rfl
@[simp] theorem setCell_od (s : State) (g : Nat) (c : Cell) : (setCell s g c).od = s.od := rfl
@[simp] theorem setCell_latched (s : State) (g : Nat) (c : Cell) : (setCell s g c).latched = s.latched := rfl
@[simp] theorem setCell_dies (s : State) (g : Nat) (c : Cell) : (setCell s g c).dies = s.dies := rfl
@[simp] theorem setCell_mds (s : State) (g : Nat) (c : Cell) : (setCell s g c).mds = s.mds := rfl
@[simp] theorem setCell_grps (s : State) (g : Nat) (c : Cell) : (setCell s g c).grps = s.grps := rfl
@[simp] theorem setCell_far (s : State) (g : Nat) (c : Cell) : (setCell s g c).far = s.far := rfl
@[simp] theorem setCell_farKeys (s : State) (g : Nat) (c : Cell) : (setCell s g c).farKeys = s.farKeys := rfl
@[simp] theorem setCell_farPoison (s : State) (g : Nat) (c : Cell) : (setCell s g c).farPoison = s.farPoison := rfl
@[simp] theorem setCell_farFlips (s : State) (g : Nat) (c : Cell) : (setCell s g c).farFlips = s.farFlips := rfl
@[simp] theorem setCell_host (s : State) (g : Nat) (c : Cell) : (setCell s g c).host = s.host := rfl
@[simp] theorem setCell_hostBad (s : State) (g : Nat) (c : Cell) : (setCell s g c).hostBad = s.hostBad := rfl
@[simp] theorem setCell_hostKeys (s : State) (g : Nat) (c : Cell) : (setCell s g c).hostKeys = s.hostKeys := rfl
@[simp] theorem setCell_hostReads (s : State) (g : Nat) (c : Cell) : (setCell s g c).hostReads = s.hostReads := rfl
@[simp] theorem setCell_hostNext (s : State) (g : Nat) (c : Cell) : (setCell s g c).hostNext = s.hostNext := rfl
@[simp] theorem setCell_parts (s : State) (g : Nat) (c : Cell) : (setCell s g c).parts = s.parts := rfl
@[simp] theorem setCell_engines (s : State) (g : Nat) (c : Cell) : (setCell s g c).engines = s.engines := rfl
@[simp] theorem setCell_net (s : State) (g : Nat) (c : Cell) : (setCell s g c).net = s.net := rfl
@[simp] theorem setCell_recovery (s : State) (g : Nat) (c : Cell) : (setCell s g c).recovery = s.recovery := rfl
@[simp] theorem setCell_server (s : State) (g : Nat) (c : Cell) : (setCell s g c).server = s.server := rfl
@[simp] theorem setCell_pins (s : State) (g : Nat) (c : Cell) : (setCell s g c).pins = s.pins := rfl
@[simp] theorem setCell_nv (s : State) (g : Nat) (c : Cell) : (setCell s g c).nv = s.nv := rfl
@[simp] theorem setCell_boot (s : State) (g : Nat) (c : Cell) : (setCell s g c).boot = s.boot := rfl
@[simp] theorem setCell_sec (s : State) (g : Nat) (c : Cell) : (setCell s g c).sec = s.sec := rfl
@[simp] theorem setCell_fabric (s : State) (g : Nat) (c : Cell) : (setCell s g c).fabric = s.fabric := rfl
@[simp] theorem setCell_out (s : State) (g : Nat) (c : Cell) : (setCell s g c).out = s.out := rfl
@[simp] theorem modCell_pending (s : State) (g : Nat) (f : Cell → Cell) : (modCell s g f).pending = s.pending := rfl
@[simp] theorem modCell_fresh (s : State) (g : Nat) (f : Cell → Cell) : (modCell s g f).fresh = s.fresh := rfl
@[simp] theorem modCell_od (s : State) (g : Nat) (f : Cell → Cell) : (modCell s g f).od = s.od := rfl
@[simp] theorem modCell_latched (s : State) (g : Nat) (f : Cell → Cell) : (modCell s g f).latched = s.latched := rfl
@[simp] theorem modCell_dies (s : State) (g : Nat) (f : Cell → Cell) : (modCell s g f).dies = s.dies := rfl
@[simp] theorem modCell_mds (s : State) (g : Nat) (f : Cell → Cell) : (modCell s g f).mds = s.mds := rfl
@[simp] theorem modCell_grps (s : State) (g : Nat) (f : Cell → Cell) : (modCell s g f).grps = s.grps := rfl
@[simp] theorem modCell_far (s : State) (g : Nat) (f : Cell → Cell) : (modCell s g f).far = s.far := rfl
@[simp] theorem modCell_farKeys (s : State) (g : Nat) (f : Cell → Cell) : (modCell s g f).farKeys = s.farKeys := rfl
@[simp] theorem modCell_farPoison (s : State) (g : Nat) (f : Cell → Cell) : (modCell s g f).farPoison = s.farPoison := rfl
@[simp] theorem modCell_farFlips (s : State) (g : Nat) (f : Cell → Cell) : (modCell s g f).farFlips = s.farFlips := rfl
@[simp] theorem modCell_host (s : State) (g : Nat) (f : Cell → Cell) : (modCell s g f).host = s.host := rfl
@[simp] theorem modCell_hostBad (s : State) (g : Nat) (f : Cell → Cell) : (modCell s g f).hostBad = s.hostBad := rfl
@[simp] theorem modCell_hostKeys (s : State) (g : Nat) (f : Cell → Cell) : (modCell s g f).hostKeys = s.hostKeys := rfl
@[simp] theorem modCell_hostReads (s : State) (g : Nat) (f : Cell → Cell) : (modCell s g f).hostReads = s.hostReads := rfl
@[simp] theorem modCell_hostNext (s : State) (g : Nat) (f : Cell → Cell) : (modCell s g f).hostNext = s.hostNext := rfl
@[simp] theorem modCell_parts (s : State) (g : Nat) (f : Cell → Cell) : (modCell s g f).parts = s.parts := rfl
@[simp] theorem modCell_engines (s : State) (g : Nat) (f : Cell → Cell) : (modCell s g f).engines = s.engines := rfl
@[simp] theorem modCell_net (s : State) (g : Nat) (f : Cell → Cell) : (modCell s g f).net = s.net := rfl
@[simp] theorem modCell_recovery (s : State) (g : Nat) (f : Cell → Cell) : (modCell s g f).recovery = s.recovery := rfl
@[simp] theorem modCell_server (s : State) (g : Nat) (f : Cell → Cell) : (modCell s g f).server = s.server := rfl
@[simp] theorem modCell_pins (s : State) (g : Nat) (f : Cell → Cell) : (modCell s g f).pins = s.pins := rfl
@[simp] theorem modCell_nv (s : State) (g : Nat) (f : Cell → Cell) : (modCell s g f).nv = s.nv := rfl
@[simp] theorem modCell_boot (s : State) (g : Nat) (f : Cell → Cell) : (modCell s g f).boot = s.boot := rfl
@[simp] theorem modCell_sec (s : State) (g : Nat) (f : Cell → Cell) : (modCell s g f).sec = s.sec := rfl
@[simp] theorem modCell_fabric (s : State) (g : Nat) (f : Cell → Cell) : (modCell s g f).fabric = s.fabric := rfl
@[simp] theorem modCell_out (s : State) (g : Nat) (f : Cell → Cell) : (modCell s g f).out = s.out := rfl
@[simp] theorem modDie_pending (s : State) (d : Nat) (f : Die → Die) : (modDie s d f).pending = s.pending := rfl
@[simp] theorem modDie_fresh (s : State) (d : Nat) (f : Die → Die) : (modDie s d f).fresh = s.fresh := rfl
@[simp] theorem modDie_od (s : State) (d : Nat) (f : Die → Die) : (modDie s d f).od = s.od := rfl
@[simp] theorem modDie_latched (s : State) (d : Nat) (f : Die → Die) : (modDie s d f).latched = s.latched := rfl
@[simp] theorem modDie_cells (s : State) (d : Nat) (f : Die → Die) : (modDie s d f).cells = s.cells := rfl
@[simp] theorem modDie_mds (s : State) (d : Nat) (f : Die → Die) : (modDie s d f).mds = s.mds := rfl
@[simp] theorem modDie_grps (s : State) (d : Nat) (f : Die → Die) : (modDie s d f).grps = s.grps := rfl
@[simp] theorem modDie_far (s : State) (d : Nat) (f : Die → Die) : (modDie s d f).far = s.far := rfl
@[simp] theorem modDie_farKeys (s : State) (d : Nat) (f : Die → Die) : (modDie s d f).farKeys = s.farKeys := rfl
@[simp] theorem modDie_farPoison (s : State) (d : Nat) (f : Die → Die) : (modDie s d f).farPoison = s.farPoison := rfl
@[simp] theorem modDie_farFlips (s : State) (d : Nat) (f : Die → Die) : (modDie s d f).farFlips = s.farFlips := rfl
@[simp] theorem modDie_host (s : State) (d : Nat) (f : Die → Die) : (modDie s d f).host = s.host := rfl
@[simp] theorem modDie_hostBad (s : State) (d : Nat) (f : Die → Die) : (modDie s d f).hostBad = s.hostBad := rfl
@[simp] theorem modDie_hostKeys (s : State) (d : Nat) (f : Die → Die) : (modDie s d f).hostKeys = s.hostKeys := rfl
@[simp] theorem modDie_hostReads (s : State) (d : Nat) (f : Die → Die) : (modDie s d f).hostReads = s.hostReads := rfl
@[simp] theorem modDie_hostNext (s : State) (d : Nat) (f : Die → Die) : (modDie s d f).hostNext = s.hostNext := rfl
@[simp] theorem modDie_parts (s : State) (d : Nat) (f : Die → Die) : (modDie s d f).parts = s.parts := rfl
@[simp] theorem modDie_engines (s : State) (d : Nat) (f : Die → Die) : (modDie s d f).engines = s.engines := rfl
@[simp] theorem modDie_net (s : State) (d : Nat) (f : Die → Die) : (modDie s d f).net = s.net := rfl
@[simp] theorem modDie_recovery (s : State) (d : Nat) (f : Die → Die) : (modDie s d f).recovery = s.recovery := rfl
@[simp] theorem modDie_server (s : State) (d : Nat) (f : Die → Die) : (modDie s d f).server = s.server := rfl
@[simp] theorem modDie_pins (s : State) (d : Nat) (f : Die → Die) : (modDie s d f).pins = s.pins := rfl
@[simp] theorem modDie_nv (s : State) (d : Nat) (f : Die → Die) : (modDie s d f).nv = s.nv := rfl
@[simp] theorem modDie_boot (s : State) (d : Nat) (f : Die → Die) : (modDie s d f).boot = s.boot := rfl
@[simp] theorem modDie_sec (s : State) (d : Nat) (f : Die → Die) : (modDie s d f).sec = s.sec := rfl
@[simp] theorem modDie_fabric (s : State) (d : Nat) (f : Die → Die) : (modDie s d f).fabric = s.fabric := rfl
@[simp] theorem modDie_out (s : State) (d : Nat) (f : Die → Die) : (modDie s d f).out = s.out := rfl
@[simp] theorem modMd_pending (s : State) (m : Nat) (f : MemDie → MemDie) : (modMd s m f).pending = s.pending := rfl
@[simp] theorem modMd_fresh (s : State) (m : Nat) (f : MemDie → MemDie) : (modMd s m f).fresh = s.fresh := rfl
@[simp] theorem modMd_od (s : State) (m : Nat) (f : MemDie → MemDie) : (modMd s m f).od = s.od := rfl
@[simp] theorem modMd_latched (s : State) (m : Nat) (f : MemDie → MemDie) : (modMd s m f).latched = s.latched := rfl
@[simp] theorem modMd_cells (s : State) (m : Nat) (f : MemDie → MemDie) : (modMd s m f).cells = s.cells := rfl
@[simp] theorem modMd_dies (s : State) (m : Nat) (f : MemDie → MemDie) : (modMd s m f).dies = s.dies := rfl
@[simp] theorem modMd_grps (s : State) (m : Nat) (f : MemDie → MemDie) : (modMd s m f).grps = s.grps := rfl
@[simp] theorem modMd_far (s : State) (m : Nat) (f : MemDie → MemDie) : (modMd s m f).far = s.far := rfl
@[simp] theorem modMd_farKeys (s : State) (m : Nat) (f : MemDie → MemDie) : (modMd s m f).farKeys = s.farKeys := rfl
@[simp] theorem modMd_farPoison (s : State) (m : Nat) (f : MemDie → MemDie) : (modMd s m f).farPoison = s.farPoison := rfl
@[simp] theorem modMd_farFlips (s : State) (m : Nat) (f : MemDie → MemDie) : (modMd s m f).farFlips = s.farFlips := rfl
@[simp] theorem modMd_host (s : State) (m : Nat) (f : MemDie → MemDie) : (modMd s m f).host = s.host := rfl
@[simp] theorem modMd_hostBad (s : State) (m : Nat) (f : MemDie → MemDie) : (modMd s m f).hostBad = s.hostBad := rfl
@[simp] theorem modMd_hostKeys (s : State) (m : Nat) (f : MemDie → MemDie) : (modMd s m f).hostKeys = s.hostKeys := rfl
@[simp] theorem modMd_hostReads (s : State) (m : Nat) (f : MemDie → MemDie) : (modMd s m f).hostReads = s.hostReads := rfl
@[simp] theorem modMd_hostNext (s : State) (m : Nat) (f : MemDie → MemDie) : (modMd s m f).hostNext = s.hostNext := rfl
@[simp] theorem modMd_parts (s : State) (m : Nat) (f : MemDie → MemDie) : (modMd s m f).parts = s.parts := rfl
@[simp] theorem modMd_engines (s : State) (m : Nat) (f : MemDie → MemDie) : (modMd s m f).engines = s.engines := rfl
@[simp] theorem modMd_net (s : State) (m : Nat) (f : MemDie → MemDie) : (modMd s m f).net = s.net := rfl
@[simp] theorem modMd_recovery (s : State) (m : Nat) (f : MemDie → MemDie) : (modMd s m f).recovery = s.recovery := rfl
@[simp] theorem modMd_server (s : State) (m : Nat) (f : MemDie → MemDie) : (modMd s m f).server = s.server := rfl
@[simp] theorem modMd_pins (s : State) (m : Nat) (f : MemDie → MemDie) : (modMd s m f).pins = s.pins := rfl
@[simp] theorem modMd_nv (s : State) (m : Nat) (f : MemDie → MemDie) : (modMd s m f).nv = s.nv := rfl
@[simp] theorem modMd_boot (s : State) (m : Nat) (f : MemDie → MemDie) : (modMd s m f).boot = s.boot := rfl
@[simp] theorem modMd_sec (s : State) (m : Nat) (f : MemDie → MemDie) : (modMd s m f).sec = s.sec := rfl
@[simp] theorem modMd_fabric (s : State) (m : Nat) (f : MemDie → MemDie) : (modMd s m f).fabric = s.fabric := rfl
@[simp] theorem modMd_out (s : State) (m : Nat) (f : MemDie → MemDie) : (modMd s m f).out = s.out := rfl
@[simp] theorem modGrp_pending (s : State) (g : Nat) (f : Grp → Grp) : (modGrp s g f).pending = s.pending := rfl
@[simp] theorem modGrp_fresh (s : State) (g : Nat) (f : Grp → Grp) : (modGrp s g f).fresh = s.fresh := rfl
@[simp] theorem modGrp_od (s : State) (g : Nat) (f : Grp → Grp) : (modGrp s g f).od = s.od := rfl
@[simp] theorem modGrp_latched (s : State) (g : Nat) (f : Grp → Grp) : (modGrp s g f).latched = s.latched := rfl
@[simp] theorem modGrp_cells (s : State) (g : Nat) (f : Grp → Grp) : (modGrp s g f).cells = s.cells := rfl
@[simp] theorem modGrp_dies (s : State) (g : Nat) (f : Grp → Grp) : (modGrp s g f).dies = s.dies := rfl
@[simp] theorem modGrp_mds (s : State) (g : Nat) (f : Grp → Grp) : (modGrp s g f).mds = s.mds := rfl
@[simp] theorem modGrp_far (s : State) (g : Nat) (f : Grp → Grp) : (modGrp s g f).far = s.far := rfl
@[simp] theorem modGrp_farKeys (s : State) (g : Nat) (f : Grp → Grp) : (modGrp s g f).farKeys = s.farKeys := rfl
@[simp] theorem modGrp_farPoison (s : State) (g : Nat) (f : Grp → Grp) : (modGrp s g f).farPoison = s.farPoison := rfl
@[simp] theorem modGrp_farFlips (s : State) (g : Nat) (f : Grp → Grp) : (modGrp s g f).farFlips = s.farFlips := rfl
@[simp] theorem modGrp_host (s : State) (g : Nat) (f : Grp → Grp) : (modGrp s g f).host = s.host := rfl
@[simp] theorem modGrp_hostBad (s : State) (g : Nat) (f : Grp → Grp) : (modGrp s g f).hostBad = s.hostBad := rfl
@[simp] theorem modGrp_hostKeys (s : State) (g : Nat) (f : Grp → Grp) : (modGrp s g f).hostKeys = s.hostKeys := rfl
@[simp] theorem modGrp_hostReads (s : State) (g : Nat) (f : Grp → Grp) : (modGrp s g f).hostReads = s.hostReads := rfl
@[simp] theorem modGrp_hostNext (s : State) (g : Nat) (f : Grp → Grp) : (modGrp s g f).hostNext = s.hostNext := rfl
@[simp] theorem modGrp_parts (s : State) (g : Nat) (f : Grp → Grp) : (modGrp s g f).parts = s.parts := rfl
@[simp] theorem modGrp_engines (s : State) (g : Nat) (f : Grp → Grp) : (modGrp s g f).engines = s.engines := rfl
@[simp] theorem modGrp_net (s : State) (g : Nat) (f : Grp → Grp) : (modGrp s g f).net = s.net := rfl
@[simp] theorem modGrp_recovery (s : State) (g : Nat) (f : Grp → Grp) : (modGrp s g f).recovery = s.recovery := rfl
@[simp] theorem modGrp_server (s : State) (g : Nat) (f : Grp → Grp) : (modGrp s g f).server = s.server := rfl
@[simp] theorem modGrp_pins (s : State) (g : Nat) (f : Grp → Grp) : (modGrp s g f).pins = s.pins := rfl
@[simp] theorem modGrp_nv (s : State) (g : Nat) (f : Grp → Grp) : (modGrp s g f).nv = s.nv := rfl
@[simp] theorem modGrp_boot (s : State) (g : Nat) (f : Grp → Grp) : (modGrp s g f).boot = s.boot := rfl
@[simp] theorem modGrp_sec (s : State) (g : Nat) (f : Grp → Grp) : (modGrp s g f).sec = s.sec := rfl
@[simp] theorem modGrp_fabric (s : State) (g : Nat) (f : Grp → Grp) : (modGrp s g f).fabric = s.fabric := rfl
@[simp] theorem modGrp_out (s : State) (g : Nat) (f : Grp → Grp) : (modGrp s g f).out = s.out := rfl
@[simp] theorem modPart_pending (s : State) (p : Nat) (f : Part → Part) : (modPart s p f).pending = s.pending := rfl
@[simp] theorem modPart_fresh (s : State) (p : Nat) (f : Part → Part) : (modPart s p f).fresh = s.fresh := rfl
@[simp] theorem modPart_od (s : State) (p : Nat) (f : Part → Part) : (modPart s p f).od = s.od := rfl
@[simp] theorem modPart_latched (s : State) (p : Nat) (f : Part → Part) : (modPart s p f).latched = s.latched := rfl
@[simp] theorem modPart_cells (s : State) (p : Nat) (f : Part → Part) : (modPart s p f).cells = s.cells := rfl
@[simp] theorem modPart_dies (s : State) (p : Nat) (f : Part → Part) : (modPart s p f).dies = s.dies := rfl
@[simp] theorem modPart_mds (s : State) (p : Nat) (f : Part → Part) : (modPart s p f).mds = s.mds := rfl
@[simp] theorem modPart_grps (s : State) (p : Nat) (f : Part → Part) : (modPart s p f).grps = s.grps := rfl
@[simp] theorem modPart_far (s : State) (p : Nat) (f : Part → Part) : (modPart s p f).far = s.far := rfl
@[simp] theorem modPart_farKeys (s : State) (p : Nat) (f : Part → Part) : (modPart s p f).farKeys = s.farKeys := rfl
@[simp] theorem modPart_farPoison (s : State) (p : Nat) (f : Part → Part) : (modPart s p f).farPoison = s.farPoison := rfl
@[simp] theorem modPart_farFlips (s : State) (p : Nat) (f : Part → Part) : (modPart s p f).farFlips = s.farFlips := rfl
@[simp] theorem modPart_host (s : State) (p : Nat) (f : Part → Part) : (modPart s p f).host = s.host := rfl
@[simp] theorem modPart_hostBad (s : State) (p : Nat) (f : Part → Part) : (modPart s p f).hostBad = s.hostBad := rfl
@[simp] theorem modPart_hostKeys (s : State) (p : Nat) (f : Part → Part) : (modPart s p f).hostKeys = s.hostKeys := rfl
@[simp] theorem modPart_hostReads (s : State) (p : Nat) (f : Part → Part) : (modPart s p f).hostReads = s.hostReads := rfl
@[simp] theorem modPart_hostNext (s : State) (p : Nat) (f : Part → Part) : (modPart s p f).hostNext = s.hostNext := rfl
@[simp] theorem modPart_engines (s : State) (p : Nat) (f : Part → Part) : (modPart s p f).engines = s.engines := rfl
@[simp] theorem modPart_net (s : State) (p : Nat) (f : Part → Part) : (modPart s p f).net = s.net := rfl
@[simp] theorem modPart_recovery (s : State) (p : Nat) (f : Part → Part) : (modPart s p f).recovery = s.recovery := rfl
@[simp] theorem modPart_server (s : State) (p : Nat) (f : Part → Part) : (modPart s p f).server = s.server := rfl
@[simp] theorem modPart_pins (s : State) (p : Nat) (f : Part → Part) : (modPart s p f).pins = s.pins := rfl
@[simp] theorem modPart_nv (s : State) (p : Nat) (f : Part → Part) : (modPart s p f).nv = s.nv := rfl
@[simp] theorem modPart_boot (s : State) (p : Nat) (f : Part → Part) : (modPart s p f).boot = s.boot := rfl
@[simp] theorem modPart_sec (s : State) (p : Nat) (f : Part → Part) : (modPart s p f).sec = s.sec := rfl
@[simp] theorem modPart_fabric (s : State) (p : Nat) (f : Part → Part) : (modPart s p f).fabric = s.fabric := rfl
@[simp] theorem modPart_out (s : State) (p : Nat) (f : Part → Part) : (modPart s p f).out = s.out := rfl
@[simp] theorem modJob_pending (s : State) (p : Nat) (f : Job → Job) : (modJob s p f).pending = s.pending := rfl
@[simp] theorem modJob_fresh (s : State) (p : Nat) (f : Job → Job) : (modJob s p f).fresh = s.fresh := rfl
@[simp] theorem modJob_od (s : State) (p : Nat) (f : Job → Job) : (modJob s p f).od = s.od := rfl
@[simp] theorem modJob_latched (s : State) (p : Nat) (f : Job → Job) : (modJob s p f).latched = s.latched := rfl
@[simp] theorem modJob_cells (s : State) (p : Nat) (f : Job → Job) : (modJob s p f).cells = s.cells := rfl
@[simp] theorem modJob_dies (s : State) (p : Nat) (f : Job → Job) : (modJob s p f).dies = s.dies := rfl
@[simp] theorem modJob_mds (s : State) (p : Nat) (f : Job → Job) : (modJob s p f).mds = s.mds := rfl
@[simp] theorem modJob_grps (s : State) (p : Nat) (f : Job → Job) : (modJob s p f).grps = s.grps := rfl
@[simp] theorem modJob_far (s : State) (p : Nat) (f : Job → Job) : (modJob s p f).far = s.far := rfl
@[simp] theorem modJob_farKeys (s : State) (p : Nat) (f : Job → Job) : (modJob s p f).farKeys = s.farKeys := rfl
@[simp] theorem modJob_farPoison (s : State) (p : Nat) (f : Job → Job) : (modJob s p f).farPoison = s.farPoison := rfl
@[simp] theorem modJob_farFlips (s : State) (p : Nat) (f : Job → Job) : (modJob s p f).farFlips = s.farFlips := rfl
@[simp] theorem modJob_host (s : State) (p : Nat) (f : Job → Job) : (modJob s p f).host = s.host := rfl
@[simp] theorem modJob_hostBad (s : State) (p : Nat) (f : Job → Job) : (modJob s p f).hostBad = s.hostBad := rfl
@[simp] theorem modJob_hostKeys (s : State) (p : Nat) (f : Job → Job) : (modJob s p f).hostKeys = s.hostKeys := rfl
@[simp] theorem modJob_hostReads (s : State) (p : Nat) (f : Job → Job) : (modJob s p f).hostReads = s.hostReads := rfl
@[simp] theorem modJob_hostNext (s : State) (p : Nat) (f : Job → Job) : (modJob s p f).hostNext = s.hostNext := rfl
@[simp] theorem modJob_engines (s : State) (p : Nat) (f : Job → Job) : (modJob s p f).engines = s.engines := rfl
@[simp] theorem modJob_net (s : State) (p : Nat) (f : Job → Job) : (modJob s p f).net = s.net := rfl
@[simp] theorem modJob_recovery (s : State) (p : Nat) (f : Job → Job) : (modJob s p f).recovery = s.recovery := rfl
@[simp] theorem modJob_server (s : State) (p : Nat) (f : Job → Job) : (modJob s p f).server = s.server := rfl
@[simp] theorem modJob_pins (s : State) (p : Nat) (f : Job → Job) : (modJob s p f).pins = s.pins := rfl
@[simp] theorem modJob_nv (s : State) (p : Nat) (f : Job → Job) : (modJob s p f).nv = s.nv := rfl
@[simp] theorem modJob_boot (s : State) (p : Nat) (f : Job → Job) : (modJob s p f).boot = s.boot := rfl
@[simp] theorem modJob_sec (s : State) (p : Nat) (f : Job → Job) : (modJob s p f).sec = s.sec := rfl
@[simp] theorem modJob_fabric (s : State) (p : Nat) (f : Job → Job) : (modJob s p f).fabric = s.fabric := rfl
@[simp] theorem modJob_out (s : State) (p : Nat) (f : Job → Job) : (modJob s p f).out = s.out := rfl
@[simp] theorem modEngine_pending (s : State) (e : Nat) (f : Engine → Engine) : (modEngine s e f).pending = s.pending := rfl
@[simp] theorem modEngine_fresh (s : State) (e : Nat) (f : Engine → Engine) : (modEngine s e f).fresh = s.fresh := rfl
@[simp] theorem modEngine_od (s : State) (e : Nat) (f : Engine → Engine) : (modEngine s e f).od = s.od := rfl
@[simp] theorem modEngine_latched (s : State) (e : Nat) (f : Engine → Engine) : (modEngine s e f).latched = s.latched := rfl
@[simp] theorem modEngine_cells (s : State) (e : Nat) (f : Engine → Engine) : (modEngine s e f).cells = s.cells := rfl
@[simp] theorem modEngine_dies (s : State) (e : Nat) (f : Engine → Engine) : (modEngine s e f).dies = s.dies := rfl
@[simp] theorem modEngine_mds (s : State) (e : Nat) (f : Engine → Engine) : (modEngine s e f).mds = s.mds := rfl
@[simp] theorem modEngine_grps (s : State) (e : Nat) (f : Engine → Engine) : (modEngine s e f).grps = s.grps := rfl
@[simp] theorem modEngine_far (s : State) (e : Nat) (f : Engine → Engine) : (modEngine s e f).far = s.far := rfl
@[simp] theorem modEngine_farKeys (s : State) (e : Nat) (f : Engine → Engine) : (modEngine s e f).farKeys = s.farKeys := rfl
@[simp] theorem modEngine_farPoison (s : State) (e : Nat) (f : Engine → Engine) : (modEngine s e f).farPoison = s.farPoison := rfl
@[simp] theorem modEngine_farFlips (s : State) (e : Nat) (f : Engine → Engine) : (modEngine s e f).farFlips = s.farFlips := rfl
@[simp] theorem modEngine_host (s : State) (e : Nat) (f : Engine → Engine) : (modEngine s e f).host = s.host := rfl
@[simp] theorem modEngine_hostBad (s : State) (e : Nat) (f : Engine → Engine) : (modEngine s e f).hostBad = s.hostBad := rfl
@[simp] theorem modEngine_hostKeys (s : State) (e : Nat) (f : Engine → Engine) : (modEngine s e f).hostKeys = s.hostKeys := rfl
@[simp] theorem modEngine_hostReads (s : State) (e : Nat) (f : Engine → Engine) : (modEngine s e f).hostReads = s.hostReads := rfl
@[simp] theorem modEngine_hostNext (s : State) (e : Nat) (f : Engine → Engine) : (modEngine s e f).hostNext = s.hostNext := rfl
@[simp] theorem modEngine_parts (s : State) (e : Nat) (f : Engine → Engine) : (modEngine s e f).parts = s.parts := rfl
@[simp] theorem modEngine_net (s : State) (e : Nat) (f : Engine → Engine) : (modEngine s e f).net = s.net := rfl
@[simp] theorem modEngine_recovery (s : State) (e : Nat) (f : Engine → Engine) : (modEngine s e f).recovery = s.recovery := rfl
@[simp] theorem modEngine_server (s : State) (e : Nat) (f : Engine → Engine) : (modEngine s e f).server = s.server := rfl
@[simp] theorem modEngine_pins (s : State) (e : Nat) (f : Engine → Engine) : (modEngine s e f).pins = s.pins := rfl
@[simp] theorem modEngine_nv (s : State) (e : Nat) (f : Engine → Engine) : (modEngine s e f).nv = s.nv := rfl
@[simp] theorem modEngine_boot (s : State) (e : Nat) (f : Engine → Engine) : (modEngine s e f).boot = s.boot := rfl
@[simp] theorem modEngine_sec (s : State) (e : Nat) (f : Engine → Engine) : (modEngine s e f).sec = s.sec := rfl
@[simp] theorem modEngine_fabric (s : State) (e : Nat) (f : Engine → Engine) : (modEngine s e f).fabric = s.fabric := rfl
@[simp] theorem modEngine_out (s : State) (e : Nat) (f : Engine → Engine) : (modEngine s e f).out = s.out := rfl
@[simp] theorem modSess_pending (s : State) (n : Nat) (f : Sess → Sess) : (modSess s n f).pending = s.pending := rfl
@[simp] theorem modSess_fresh (s : State) (n : Nat) (f : Sess → Sess) : (modSess s n f).fresh = s.fresh := rfl
@[simp] theorem modSess_od (s : State) (n : Nat) (f : Sess → Sess) : (modSess s n f).od = s.od := rfl
@[simp] theorem modSess_latched (s : State) (n : Nat) (f : Sess → Sess) : (modSess s n f).latched = s.latched := rfl
@[simp] theorem modSess_cells (s : State) (n : Nat) (f : Sess → Sess) : (modSess s n f).cells = s.cells := rfl
@[simp] theorem modSess_dies (s : State) (n : Nat) (f : Sess → Sess) : (modSess s n f).dies = s.dies := rfl
@[simp] theorem modSess_mds (s : State) (n : Nat) (f : Sess → Sess) : (modSess s n f).mds = s.mds := rfl
@[simp] theorem modSess_grps (s : State) (n : Nat) (f : Sess → Sess) : (modSess s n f).grps = s.grps := rfl
@[simp] theorem modSess_far (s : State) (n : Nat) (f : Sess → Sess) : (modSess s n f).far = s.far := rfl
@[simp] theorem modSess_farKeys (s : State) (n : Nat) (f : Sess → Sess) : (modSess s n f).farKeys = s.farKeys := rfl
@[simp] theorem modSess_farPoison (s : State) (n : Nat) (f : Sess → Sess) : (modSess s n f).farPoison = s.farPoison := rfl
@[simp] theorem modSess_farFlips (s : State) (n : Nat) (f : Sess → Sess) : (modSess s n f).farFlips = s.farFlips := rfl
@[simp] theorem modSess_host (s : State) (n : Nat) (f : Sess → Sess) : (modSess s n f).host = s.host := rfl
@[simp] theorem modSess_hostBad (s : State) (n : Nat) (f : Sess → Sess) : (modSess s n f).hostBad = s.hostBad := rfl
@[simp] theorem modSess_hostKeys (s : State) (n : Nat) (f : Sess → Sess) : (modSess s n f).hostKeys = s.hostKeys := rfl
@[simp] theorem modSess_hostReads (s : State) (n : Nat) (f : Sess → Sess) : (modSess s n f).hostReads = s.hostReads := rfl
@[simp] theorem modSess_hostNext (s : State) (n : Nat) (f : Sess → Sess) : (modSess s n f).hostNext = s.hostNext := rfl
@[simp] theorem modSess_parts (s : State) (n : Nat) (f : Sess → Sess) : (modSess s n f).parts = s.parts := rfl
@[simp] theorem modSess_engines (s : State) (n : Nat) (f : Sess → Sess) : (modSess s n f).engines = s.engines := rfl
@[simp] theorem modSess_recovery (s : State) (n : Nat) (f : Sess → Sess) : (modSess s n f).recovery = s.recovery := rfl
@[simp] theorem modSess_server (s : State) (n : Nat) (f : Sess → Sess) : (modSess s n f).server = s.server := rfl
@[simp] theorem modSess_pins (s : State) (n : Nat) (f : Sess → Sess) : (modSess s n f).pins = s.pins := rfl
@[simp] theorem modSess_nv (s : State) (n : Nat) (f : Sess → Sess) : (modSess s n f).nv = s.nv := rfl
@[simp] theorem modSess_boot (s : State) (n : Nat) (f : Sess → Sess) : (modSess s n f).boot = s.boot := rfl
@[simp] theorem modSess_sec (s : State) (n : Nat) (f : Sess → Sess) : (modSess s n f).sec = s.sec := rfl
@[simp] theorem modSess_fabric (s : State) (n : Nat) (f : Sess → Sess) : (modSess s n f).fabric = s.fabric := rfl
@[simp] theorem modSess_out (s : State) (n : Nat) (f : Sess → Sess) : (modSess s n f).out = s.out := rfl
@[simp] theorem modPin_pending (s : State) (n : Nat) (f : Pin → Pin) : (modPin s n f).pending = s.pending := rfl
@[simp] theorem modPin_fresh (s : State) (n : Nat) (f : Pin → Pin) : (modPin s n f).fresh = s.fresh := rfl
@[simp] theorem modPin_od (s : State) (n : Nat) (f : Pin → Pin) : (modPin s n f).od = s.od := rfl
@[simp] theorem modPin_latched (s : State) (n : Nat) (f : Pin → Pin) : (modPin s n f).latched = s.latched := rfl
@[simp] theorem modPin_cells (s : State) (n : Nat) (f : Pin → Pin) : (modPin s n f).cells = s.cells := rfl
@[simp] theorem modPin_dies (s : State) (n : Nat) (f : Pin → Pin) : (modPin s n f).dies = s.dies := rfl
@[simp] theorem modPin_mds (s : State) (n : Nat) (f : Pin → Pin) : (modPin s n f).mds = s.mds := rfl
@[simp] theorem modPin_grps (s : State) (n : Nat) (f : Pin → Pin) : (modPin s n f).grps = s.grps := rfl
@[simp] theorem modPin_far (s : State) (n : Nat) (f : Pin → Pin) : (modPin s n f).far = s.far := rfl
@[simp] theorem modPin_farKeys (s : State) (n : Nat) (f : Pin → Pin) : (modPin s n f).farKeys = s.farKeys := rfl
@[simp] theorem modPin_farPoison (s : State) (n : Nat) (f : Pin → Pin) : (modPin s n f).farPoison = s.farPoison := rfl
@[simp] theorem modPin_farFlips (s : State) (n : Nat) (f : Pin → Pin) : (modPin s n f).farFlips = s.farFlips := rfl
@[simp] theorem modPin_host (s : State) (n : Nat) (f : Pin → Pin) : (modPin s n f).host = s.host := rfl
@[simp] theorem modPin_hostBad (s : State) (n : Nat) (f : Pin → Pin) : (modPin s n f).hostBad = s.hostBad := rfl
@[simp] theorem modPin_hostKeys (s : State) (n : Nat) (f : Pin → Pin) : (modPin s n f).hostKeys = s.hostKeys := rfl
@[simp] theorem modPin_hostReads (s : State) (n : Nat) (f : Pin → Pin) : (modPin s n f).hostReads = s.hostReads := rfl
@[simp] theorem modPin_hostNext (s : State) (n : Nat) (f : Pin → Pin) : (modPin s n f).hostNext = s.hostNext := rfl
@[simp] theorem modPin_parts (s : State) (n : Nat) (f : Pin → Pin) : (modPin s n f).parts = s.parts := rfl
@[simp] theorem modPin_engines (s : State) (n : Nat) (f : Pin → Pin) : (modPin s n f).engines = s.engines := rfl
@[simp] theorem modPin_net (s : State) (n : Nat) (f : Pin → Pin) : (modPin s n f).net = s.net := rfl
@[simp] theorem modPin_recovery (s : State) (n : Nat) (f : Pin → Pin) : (modPin s n f).recovery = s.recovery := rfl
@[simp] theorem modPin_server (s : State) (n : Nat) (f : Pin → Pin) : (modPin s n f).server = s.server := rfl
@[simp] theorem modPin_nv (s : State) (n : Nat) (f : Pin → Pin) : (modPin s n f).nv = s.nv := rfl
@[simp] theorem modPin_boot (s : State) (n : Nat) (f : Pin → Pin) : (modPin s n f).boot = s.boot := rfl
@[simp] theorem modPin_sec (s : State) (n : Nat) (f : Pin → Pin) : (modPin s n f).sec = s.sec := rfl
@[simp] theorem modPin_fabric (s : State) (n : Nat) (f : Pin → Pin) : (modPin s n f).fabric = s.fabric := rfl
@[simp] theorem modPin_out (s : State) (n : Nat) (f : Pin → Pin) : (modPin s n f).out = s.out := rfl
@[simp] theorem odSet_pending (s : State) (a v : Nat) : (odSet s a v).pending = s.pending := rfl
@[simp] theorem odSet_fresh (s : State) (a v : Nat) : (odSet s a v).fresh = s.fresh := rfl
@[simp] theorem odSet_latched (s : State) (a v : Nat) : (odSet s a v).latched = s.latched := rfl
@[simp] theorem odSet_cells (s : State) (a v : Nat) : (odSet s a v).cells = s.cells := rfl
@[simp] theorem odSet_dies (s : State) (a v : Nat) : (odSet s a v).dies = s.dies := rfl
@[simp] theorem odSet_mds (s : State) (a v : Nat) : (odSet s a v).mds = s.mds := rfl
@[simp] theorem odSet_grps (s : State) (a v : Nat) : (odSet s a v).grps = s.grps := rfl
@[simp] theorem odSet_far (s : State) (a v : Nat) : (odSet s a v).far = s.far := rfl
@[simp] theorem odSet_farKeys (s : State) (a v : Nat) : (odSet s a v).farKeys = s.farKeys := rfl
@[simp] theorem odSet_farPoison (s : State) (a v : Nat) : (odSet s a v).farPoison = s.farPoison := rfl
@[simp] theorem odSet_farFlips (s : State) (a v : Nat) : (odSet s a v).farFlips = s.farFlips := rfl
@[simp] theorem odSet_host (s : State) (a v : Nat) : (odSet s a v).host = s.host := rfl
@[simp] theorem odSet_hostBad (s : State) (a v : Nat) : (odSet s a v).hostBad = s.hostBad := rfl
@[simp] theorem odSet_hostKeys (s : State) (a v : Nat) : (odSet s a v).hostKeys = s.hostKeys := rfl
@[simp] theorem odSet_hostReads (s : State) (a v : Nat) : (odSet s a v).hostReads = s.hostReads := rfl
@[simp] theorem odSet_hostNext (s : State) (a v : Nat) : (odSet s a v).hostNext = s.hostNext := rfl
@[simp] theorem odSet_parts (s : State) (a v : Nat) : (odSet s a v).parts = s.parts := rfl
@[simp] theorem odSet_engines (s : State) (a v : Nat) : (odSet s a v).engines = s.engines := rfl
@[simp] theorem odSet_net (s : State) (a v : Nat) : (odSet s a v).net = s.net := rfl
@[simp] theorem odSet_recovery (s : State) (a v : Nat) : (odSet s a v).recovery = s.recovery := rfl
@[simp] theorem odSet_server (s : State) (a v : Nat) : (odSet s a v).server = s.server := rfl
@[simp] theorem odSet_pins (s : State) (a v : Nat) : (odSet s a v).pins = s.pins := rfl
@[simp] theorem odSet_nv (s : State) (a v : Nat) : (odSet s a v).nv = s.nv := rfl
@[simp] theorem odSet_boot (s : State) (a v : Nat) : (odSet s a v).boot = s.boot := rfl
@[simp] theorem odSet_sec (s : State) (a v : Nat) : (odSet s a v).sec = s.sec := rfl
@[simp] theorem odSet_fabric (s : State) (a v : Nat) : (odSet s a v).fabric = s.fabric := rfl
@[simp] theorem odSet_out (s : State) (a v : Nat) : (odSet s a v).out = s.out := rfl
@[simp] theorem odAdd_pending (s : State) (a n : Nat) : (odAdd s a n).pending = s.pending := rfl
@[simp] theorem odAdd_fresh (s : State) (a n : Nat) : (odAdd s a n).fresh = s.fresh := rfl
@[simp] theorem odAdd_latched (s : State) (a n : Nat) : (odAdd s a n).latched = s.latched := rfl
@[simp] theorem odAdd_cells (s : State) (a n : Nat) : (odAdd s a n).cells = s.cells := rfl
@[simp] theorem odAdd_dies (s : State) (a n : Nat) : (odAdd s a n).dies = s.dies := rfl
@[simp] theorem odAdd_mds (s : State) (a n : Nat) : (odAdd s a n).mds = s.mds := rfl
@[simp] theorem odAdd_grps (s : State) (a n : Nat) : (odAdd s a n).grps = s.grps := rfl
@[simp] theorem odAdd_far (s : State) (a n : Nat) : (odAdd s a n).far = s.far := rfl
@[simp] theorem odAdd_farKeys (s : State) (a n : Nat) : (odAdd s a n).farKeys = s.farKeys := rfl
@[simp] theorem odAdd_farPoison (s : State) (a n : Nat) : (odAdd s a n).farPoison = s.farPoison := rfl
@[simp] theorem odAdd_farFlips (s : State) (a n : Nat) : (odAdd s a n).farFlips = s.farFlips := rfl
@[simp] theorem odAdd_host (s : State) (a n : Nat) : (odAdd s a n).host = s.host := rfl
@[simp] theorem odAdd_hostBad (s : State) (a n : Nat) : (odAdd s a n).hostBad = s.hostBad := rfl
@[simp] theorem odAdd_hostKeys (s : State) (a n : Nat) : (odAdd s a n).hostKeys = s.hostKeys := rfl
@[simp] theorem odAdd_hostReads (s : State) (a n : Nat) : (odAdd s a n).hostReads = s.hostReads := rfl
@[simp] theorem odAdd_hostNext (s : State) (a n : Nat) : (odAdd s a n).hostNext = s.hostNext := rfl
@[simp] theorem odAdd_parts (s : State) (a n : Nat) : (odAdd s a n).parts = s.parts := rfl
@[simp] theorem odAdd_engines (s : State) (a n : Nat) : (odAdd s a n).engines = s.engines := rfl
@[simp] theorem odAdd_net (s : State) (a n : Nat) : (odAdd s a n).net = s.net := rfl
@[simp] theorem odAdd_recovery (s : State) (a n : Nat) : (odAdd s a n).recovery = s.recovery := rfl
@[simp] theorem odAdd_server (s : State) (a n : Nat) : (odAdd s a n).server = s.server := rfl
@[simp] theorem odAdd_pins (s : State) (a n : Nat) : (odAdd s a n).pins = s.pins := rfl
@[simp] theorem odAdd_nv (s : State) (a n : Nat) : (odAdd s a n).nv = s.nv := rfl
@[simp] theorem odAdd_boot (s : State) (a n : Nat) : (odAdd s a n).boot = s.boot := rfl
@[simp] theorem odAdd_sec (s : State) (a n : Nat) : (odAdd s a n).sec = s.sec := rfl
@[simp] theorem odAdd_fabric (s : State) (a n : Nat) : (odAdd s a n).fabric = s.fabric := rfl
@[simp] theorem odAdd_out (s : State) (a n : Nat) : (odAdd s a n).out = s.out := rfl
@[simp] theorem odInc_pending (s : State) (a : Nat) : (odInc s a).pending = s.pending := rfl
@[simp] theorem odInc_fresh (s : State) (a : Nat) : (odInc s a).fresh = s.fresh := rfl
@[simp] theorem odInc_latched (s : State) (a : Nat) : (odInc s a).latched = s.latched := rfl
@[simp] theorem odInc_cells (s : State) (a : Nat) : (odInc s a).cells = s.cells := rfl
@[simp] theorem odInc_dies (s : State) (a : Nat) : (odInc s a).dies = s.dies := rfl
@[simp] theorem odInc_mds (s : State) (a : Nat) : (odInc s a).mds = s.mds := rfl
@[simp] theorem odInc_grps (s : State) (a : Nat) : (odInc s a).grps = s.grps := rfl
@[simp] theorem odInc_far (s : State) (a : Nat) : (odInc s a).far = s.far := rfl
@[simp] theorem odInc_farKeys (s : State) (a : Nat) : (odInc s a).farKeys = s.farKeys := rfl
@[simp] theorem odInc_farPoison (s : State) (a : Nat) : (odInc s a).farPoison = s.farPoison := rfl
@[simp] theorem odInc_farFlips (s : State) (a : Nat) : (odInc s a).farFlips = s.farFlips := rfl
@[simp] theorem odInc_host (s : State) (a : Nat) : (odInc s a).host = s.host := rfl
@[simp] theorem odInc_hostBad (s : State) (a : Nat) : (odInc s a).hostBad = s.hostBad := rfl
@[simp] theorem odInc_hostKeys (s : State) (a : Nat) : (odInc s a).hostKeys = s.hostKeys := rfl
@[simp] theorem odInc_hostReads (s : State) (a : Nat) : (odInc s a).hostReads = s.hostReads := rfl
@[simp] theorem odInc_hostNext (s : State) (a : Nat) : (odInc s a).hostNext = s.hostNext := rfl
@[simp] theorem odInc_parts (s : State) (a : Nat) : (odInc s a).parts = s.parts := rfl
@[simp] theorem odInc_engines (s : State) (a : Nat) : (odInc s a).engines = s.engines := rfl
@[simp] theorem odInc_net (s : State) (a : Nat) : (odInc s a).net = s.net := rfl
@[simp] theorem odInc_recovery (s : State) (a : Nat) : (odInc s a).recovery = s.recovery := rfl
@[simp] theorem odInc_server (s : State) (a : Nat) : (odInc s a).server = s.server := rfl
@[simp] theorem odInc_pins (s : State) (a : Nat) : (odInc s a).pins = s.pins := rfl
@[simp] theorem odInc_nv (s : State) (a : Nat) : (odInc s a).nv = s.nv := rfl
@[simp] theorem odInc_boot (s : State) (a : Nat) : (odInc s a).boot = s.boot := rfl
@[simp] theorem odInc_sec (s : State) (a : Nat) : (odInc s a).sec = s.sec := rfl
@[simp] theorem odInc_fabric (s : State) (a : Nat) : (odInc s a).fabric = s.fabric := rfl
@[simp] theorem odInc_out (s : State) (a : Nat) : (odInc s a).out = s.out := rfl
@[simp] theorem odOr_pending (s : State) (a v : Nat) : (odOr s a v).pending = s.pending := rfl
@[simp] theorem odOr_fresh (s : State) (a v : Nat) : (odOr s a v).fresh = s.fresh := rfl
@[simp] theorem odOr_latched (s : State) (a v : Nat) : (odOr s a v).latched = s.latched := rfl
@[simp] theorem odOr_cells (s : State) (a v : Nat) : (odOr s a v).cells = s.cells := rfl
@[simp] theorem odOr_dies (s : State) (a v : Nat) : (odOr s a v).dies = s.dies := rfl
@[simp] theorem odOr_mds (s : State) (a v : Nat) : (odOr s a v).mds = s.mds := rfl
@[simp] theorem odOr_grps (s : State) (a v : Nat) : (odOr s a v).grps = s.grps := rfl
@[simp] theorem odOr_far (s : State) (a v : Nat) : (odOr s a v).far = s.far := rfl
@[simp] theorem odOr_farKeys (s : State) (a v : Nat) : (odOr s a v).farKeys = s.farKeys := rfl
@[simp] theorem odOr_farPoison (s : State) (a v : Nat) : (odOr s a v).farPoison = s.farPoison := rfl
@[simp] theorem odOr_farFlips (s : State) (a v : Nat) : (odOr s a v).farFlips = s.farFlips := rfl
@[simp] theorem odOr_host (s : State) (a v : Nat) : (odOr s a v).host = s.host := rfl
@[simp] theorem odOr_hostBad (s : State) (a v : Nat) : (odOr s a v).hostBad = s.hostBad := rfl
@[simp] theorem odOr_hostKeys (s : State) (a v : Nat) : (odOr s a v).hostKeys = s.hostKeys := rfl
@[simp] theorem odOr_hostReads (s : State) (a v : Nat) : (odOr s a v).hostReads = s.hostReads := rfl
@[simp] theorem odOr_hostNext (s : State) (a v : Nat) : (odOr s a v).hostNext = s.hostNext := rfl
@[simp] theorem odOr_parts (s : State) (a v : Nat) : (odOr s a v).parts = s.parts := rfl
@[simp] theorem odOr_engines (s : State) (a v : Nat) : (odOr s a v).engines = s.engines := rfl
@[simp] theorem odOr_net (s : State) (a v : Nat) : (odOr s a v).net = s.net := rfl
@[simp] theorem odOr_recovery (s : State) (a v : Nat) : (odOr s a v).recovery = s.recovery := rfl
@[simp] theorem odOr_server (s : State) (a v : Nat) : (odOr s a v).server = s.server := rfl
@[simp] theorem odOr_pins (s : State) (a v : Nat) : (odOr s a v).pins = s.pins := rfl
@[simp] theorem odOr_nv (s : State) (a v : Nat) : (odOr s a v).nv = s.nv := rfl
@[simp] theorem odOr_boot (s : State) (a v : Nat) : (odOr s a v).boot = s.boot := rfl
@[simp] theorem odOr_sec (s : State) (a v : Nat) : (odOr s a v).sec = s.sec := rfl
@[simp] theorem odOr_fabric (s : State) (a v : Nat) : (odOr s a v).fabric = s.fabric := rfl
@[simp] theorem odOr_out (s : State) (a v : Nat) : (odOr s a v).out = s.out := rfl
@[simp] theorem emit_pending (s : State) (o : Out) : (emit s o).pending = s.pending := rfl
@[simp] theorem emit_fresh (s : State) (o : Out) : (emit s o).fresh = s.fresh := rfl
@[simp] theorem emit_od (s : State) (o : Out) : (emit s o).od = s.od := rfl
@[simp] theorem emit_latched (s : State) (o : Out) : (emit s o).latched = s.latched := rfl
@[simp] theorem emit_cells (s : State) (o : Out) : (emit s o).cells = s.cells := rfl
@[simp] theorem emit_dies (s : State) (o : Out) : (emit s o).dies = s.dies := rfl
@[simp] theorem emit_mds (s : State) (o : Out) : (emit s o).mds = s.mds := rfl
@[simp] theorem emit_grps (s : State) (o : Out) : (emit s o).grps = s.grps := rfl
@[simp] theorem emit_far (s : State) (o : Out) : (emit s o).far = s.far := rfl
@[simp] theorem emit_farKeys (s : State) (o : Out) : (emit s o).farKeys = s.farKeys := rfl
@[simp] theorem emit_farPoison (s : State) (o : Out) : (emit s o).farPoison = s.farPoison := rfl
@[simp] theorem emit_farFlips (s : State) (o : Out) : (emit s o).farFlips = s.farFlips := rfl
@[simp] theorem emit_host (s : State) (o : Out) : (emit s o).host = s.host := rfl
@[simp] theorem emit_hostBad (s : State) (o : Out) : (emit s o).hostBad = s.hostBad := rfl
@[simp] theorem emit_hostKeys (s : State) (o : Out) : (emit s o).hostKeys = s.hostKeys := rfl
@[simp] theorem emit_hostReads (s : State) (o : Out) : (emit s o).hostReads = s.hostReads := rfl
@[simp] theorem emit_hostNext (s : State) (o : Out) : (emit s o).hostNext = s.hostNext := rfl
@[simp] theorem emit_parts (s : State) (o : Out) : (emit s o).parts = s.parts := rfl
@[simp] theorem emit_engines (s : State) (o : Out) : (emit s o).engines = s.engines := rfl
@[simp] theorem emit_net (s : State) (o : Out) : (emit s o).net = s.net := rfl
@[simp] theorem emit_recovery (s : State) (o : Out) : (emit s o).recovery = s.recovery := rfl
@[simp] theorem emit_server (s : State) (o : Out) : (emit s o).server = s.server := rfl
@[simp] theorem emit_pins (s : State) (o : Out) : (emit s o).pins = s.pins := rfl
@[simp] theorem emit_nv (s : State) (o : Out) : (emit s o).nv = s.nv := rfl
@[simp] theorem emit_boot (s : State) (o : Out) : (emit s o).boot = s.boot := rfl
@[simp] theorem emit_sec (s : State) (o : Out) : (emit s o).sec = s.sec := rfl
@[simp] theorem emit_fabric (s : State) (o : Out) : (emit s o).fabric = s.fabric := rfl

/-! ## What each update sets -/

@[simp] theorem cellOf_setCell_self (s : State) (g : Nat) (c : Cell) : cellOf (setCell s g c) g = c := by
  simp [cellOf, setCell]

@[simp] theorem cellOf_setCell_ne (s : State) {g h : Nat} (c : Cell) (hn : h ≠ g) : cellOf (setCell s g c) h = cellOf s h := by
  simp [cellOf, setCell, hn]

@[simp] theorem cellOf_modCell_self (s : State) (g : Nat) (f : Cell → Cell) : cellOf (modCell s g f) g = f (cellOf s g) := by
  simp [modCell]

@[simp] theorem cellOf_modCell_ne (s : State) {g h : Nat} (f : Cell → Cell) (hn : h ≠ g) :
    cellOf (modCell s g f) h = cellOf s h := by
  simp [modCell, hn]

@[simp] theorem dieOf_modDie_self (s : State) (d : Nat) (f : Die → Die) : dieOf (modDie s d f) d = f (dieOf s d) := by
  simp [dieOf, modDie]

@[simp] theorem dieOf_modDie_ne (s : State) {d e : Nat} (f : Die → Die) (hn : e ≠ d) : dieOf (modDie s d f) e = dieOf s e := by
  simp [dieOf, modDie, hn]

@[simp] theorem mdOf_modMd_self (s : State) (m : Nat) (f : MemDie → MemDie) : mdOf (modMd s m f) m = f (mdOf s m) := by
  simp [mdOf, modMd]

@[simp] theorem mdOf_modMd_ne (s : State) {m n : Nat} (f : MemDie → MemDie) (hn : n ≠ m) : mdOf (modMd s m f) n = mdOf s n := by
  simp [mdOf, modMd, hn]

@[simp] theorem grpOf_modGrp_self (s : State) (g : Nat) (f : Grp → Grp) : grpOf (modGrp s g f) g = f (grpOf s g) := by
  simp [grpOf, modGrp]

@[simp] theorem grpOf_modGrp_ne (s : State) {g h : Nat} (f : Grp → Grp) (hn : h ≠ g) : grpOf (modGrp s g f) h = grpOf s h := by
  simp [grpOf, modGrp, hn]

@[simp] theorem partOf_modPart_self (s : State) (p : Nat) (f : Part → Part) : partOf (modPart s p f) p = f (partOf s p) := by
  simp [partOf, modPart]

@[simp] theorem partOf_modPart_ne (s : State) {p q : Nat} (f : Part → Part) (hn : q ≠ p) : partOf (modPart s p f) q = partOf s q := by
  simp [partOf, modPart, hn]

@[simp] theorem engineOf_modEngine_self (s : State) (e : Nat) (f : Engine → Engine) :
    engineOf (modEngine s e f) e = f (engineOf s e) := by
  simp [engineOf, modEngine]

@[simp] theorem sessOf_modSess_self (s : State) (n : Nat) (f : Sess → Sess) : sessOf (modSess s n f) n = f (sessOf s n) := by
  simp [sessOf, modSess]

@[simp] theorem sessOf_modSess_ne (s : State) {n m : Nat} (f : Sess → Sess) (hn : m ≠ n) : sessOf (modSess s n f) m = sessOf s m := by
  simp [sessOf, modSess, hn]

@[simp] theorem pinOf_modPin_self (s : State) (n : Nat) (f : Pin → Pin) : pinOf (modPin s n f) n = f (pinOf s n) := by
  simp [pinOf, modPin]

@[simp] theorem odGet_odSet_self (s : State) (a v : Nat) : odGet (odSet s a v) a = v := by
  simp [odGet, odSet]

@[simp] theorem odGet_odSet_ne (s : State) {a b : Nat} (v : Nat) (h : b ≠ a) : odGet (odSet s a v) b = odGet s b := by
  simp [odGet, odSet, h]

/-- A counter reads one more, modulo 2^64. -/
@[simp] theorem odGet_odInc_self (s : State) (a : Nat) : odGet (odInc s a) a = (odGet s a + 1) % 2 ^ 64 := by
  simp [odInc, odAdd]

@[simp] theorem odGet_odAdd_self (s : State) (a n : Nat) : odGet (odAdd s a n) a = (odGet s a + n) % 2 ^ 64 := by
  simp [odAdd]

@[simp] theorem odGet_odAdd_ne (s : State) {a b : Nat} (n : Nat) (h : b ≠ a) : odGet (odAdd s a n) b = odGet s b := by
  simp [odAdd, h]

@[simp] theorem odGet_odInc_ne (s : State) {a b : Nat} (h : b ≠ a) : odGet (odInc s a) b = odGet s b := by
  simp [odInc, h]

@[simp] theorem odGet_odOr_self (s : State) (a v : Nat) : odGet (odOr s a v) a = odGet s a ||| v := by
  simp [odOr]

@[simp] theorem odGet_odOr_ne (s : State) {a b : Nat} (v : Nat) (h : b ≠ a) : odGet (odOr s a v) b = odGet s b := by
  simp [odOr, h]

@[simp] theorem dieOf_setCell (s : State) (g : Nat) (c : Cell) (x : Nat) : dieOf (setCell s g c) x = dieOf s x := rfl
@[simp] theorem partOf_setCell (s : State) (g : Nat) (c : Cell) (x : Nat) : partOf (setCell s g c) x = partOf s x := rfl
@[simp] theorem odGet_setCell (s : State) (g : Nat) (c : Cell) (x : Nat) : odGet (setCell s g c) x = odGet s x := rfl
@[simp] theorem mdOf_setCell (s : State) (g : Nat) (c : Cell) (x : Nat) : mdOf (setCell s g c) x = mdOf s x := rfl
@[simp] theorem grpOf_setCell (s : State) (g : Nat) (c : Cell) (x : Nat) : grpOf (setCell s g c) x = grpOf s x := rfl
@[simp] theorem engineOf_setCell (s : State) (g : Nat) (c : Cell) (x : Nat) : engineOf (setCell s g c) x = engineOf s x := rfl
@[simp] theorem sessOf_setCell (s : State) (g : Nat) (c : Cell) (x : Nat) : sessOf (setCell s g c) x = sessOf s x := rfl
@[simp] theorem dieOwner_setCell (s : State) (g : Nat) (c : Cell) (x : Nat) : dieOwner (setCell s g c) x = dieOwner s x := rfl
@[simp] theorem cellOwner_setCell (s : State) (g : Nat) (c : Cell) (x : Nat) : cellOwner (setCell s g c) x = cellOwner s x := rfl
@[simp] theorem groupOwner_setCell (s : State) (g : Nat) (c : Cell) (x : Nat) : groupOwner (setCell s g c) x = groupOwner s x := rfl
@[simp] theorem dieOf_modCell (s : State) (g : Nat) (f : Cell → Cell) (x : Nat) : dieOf (modCell s g f) x = dieOf s x := rfl
@[simp] theorem partOf_modCell (s : State) (g : Nat) (f : Cell → Cell) (x : Nat) : partOf (modCell s g f) x = partOf s x := rfl
@[simp] theorem odGet_modCell (s : State) (g : Nat) (f : Cell → Cell) (x : Nat) : odGet (modCell s g f) x = odGet s x := rfl
@[simp] theorem mdOf_modCell (s : State) (g : Nat) (f : Cell → Cell) (x : Nat) : mdOf (modCell s g f) x = mdOf s x := rfl
@[simp] theorem grpOf_modCell (s : State) (g : Nat) (f : Cell → Cell) (x : Nat) : grpOf (modCell s g f) x = grpOf s x := rfl
@[simp] theorem engineOf_modCell (s : State) (g : Nat) (f : Cell → Cell) (x : Nat) : engineOf (modCell s g f) x = engineOf s x := rfl
@[simp] theorem sessOf_modCell (s : State) (g : Nat) (f : Cell → Cell) (x : Nat) : sessOf (modCell s g f) x = sessOf s x := rfl
@[simp] theorem dieOwner_modCell (s : State) (g : Nat) (f : Cell → Cell) (x : Nat) : dieOwner (modCell s g f) x = dieOwner s x := rfl
@[simp] theorem cellOwner_modCell (s : State) (g : Nat) (f : Cell → Cell) (x : Nat) : cellOwner (modCell s g f) x = cellOwner s x := rfl
@[simp] theorem groupOwner_modCell (s : State) (g : Nat) (f : Cell → Cell) (x : Nat) : groupOwner (modCell s g f) x = groupOwner s x := rfl
@[simp] theorem cellOf_modDie (s : State) (d : Nat) (f : Die → Die) (x : Nat) : cellOf (modDie s d f) x = cellOf s x := rfl
@[simp] theorem partOf_modDie (s : State) (d : Nat) (f : Die → Die) (x : Nat) : partOf (modDie s d f) x = partOf s x := rfl
@[simp] theorem odGet_modDie (s : State) (d : Nat) (f : Die → Die) (x : Nat) : odGet (modDie s d f) x = odGet s x := rfl
@[simp] theorem mdOf_modDie (s : State) (d : Nat) (f : Die → Die) (x : Nat) : mdOf (modDie s d f) x = mdOf s x := rfl
@[simp] theorem grpOf_modDie (s : State) (d : Nat) (f : Die → Die) (x : Nat) : grpOf (modDie s d f) x = grpOf s x := rfl
@[simp] theorem engineOf_modDie (s : State) (d : Nat) (f : Die → Die) (x : Nat) : engineOf (modDie s d f) x = engineOf s x := rfl
@[simp] theorem sessOf_modDie (s : State) (d : Nat) (f : Die → Die) (x : Nat) : sessOf (modDie s d f) x = sessOf s x := rfl
@[simp] theorem dieOwner_modDie (s : State) (d : Nat) (f : Die → Die) (x : Nat) : dieOwner (modDie s d f) x = dieOwner s x := rfl
@[simp] theorem cellOwner_modDie (s : State) (d : Nat) (f : Die → Die) (x : Nat) : cellOwner (modDie s d f) x = cellOwner s x := rfl
@[simp] theorem groupOwner_modDie (s : State) (d : Nat) (f : Die → Die) (x : Nat) : groupOwner (modDie s d f) x = groupOwner s x := rfl
@[simp] theorem cellOf_modMd (s : State) (m : Nat) (f : MemDie → MemDie) (x : Nat) : cellOf (modMd s m f) x = cellOf s x := rfl
@[simp] theorem dieOf_modMd (s : State) (m : Nat) (f : MemDie → MemDie) (x : Nat) : dieOf (modMd s m f) x = dieOf s x := rfl
@[simp] theorem partOf_modMd (s : State) (m : Nat) (f : MemDie → MemDie) (x : Nat) : partOf (modMd s m f) x = partOf s x := rfl
@[simp] theorem odGet_modMd (s : State) (m : Nat) (f : MemDie → MemDie) (x : Nat) : odGet (modMd s m f) x = odGet s x := rfl
@[simp] theorem grpOf_modMd (s : State) (m : Nat) (f : MemDie → MemDie) (x : Nat) : grpOf (modMd s m f) x = grpOf s x := rfl
@[simp] theorem engineOf_modMd (s : State) (m : Nat) (f : MemDie → MemDie) (x : Nat) : engineOf (modMd s m f) x = engineOf s x := rfl
@[simp] theorem sessOf_modMd (s : State) (m : Nat) (f : MemDie → MemDie) (x : Nat) : sessOf (modMd s m f) x = sessOf s x := rfl
@[simp] theorem dieOwner_modMd (s : State) (m : Nat) (f : MemDie → MemDie) (x : Nat) : dieOwner (modMd s m f) x = dieOwner s x := rfl
@[simp] theorem cellOwner_modMd (s : State) (m : Nat) (f : MemDie → MemDie) (x : Nat) : cellOwner (modMd s m f) x = cellOwner s x := rfl
@[simp] theorem groupOwner_modMd (s : State) (m : Nat) (f : MemDie → MemDie) (x : Nat) : groupOwner (modMd s m f) x = groupOwner s x := rfl
@[simp] theorem cellOf_modGrp (s : State) (g : Nat) (f : Grp → Grp) (x : Nat) : cellOf (modGrp s g f) x = cellOf s x := rfl
@[simp] theorem dieOf_modGrp (s : State) (g : Nat) (f : Grp → Grp) (x : Nat) : dieOf (modGrp s g f) x = dieOf s x := rfl
@[simp] theorem partOf_modGrp (s : State) (g : Nat) (f : Grp → Grp) (x : Nat) : partOf (modGrp s g f) x = partOf s x := rfl
@[simp] theorem odGet_modGrp (s : State) (g : Nat) (f : Grp → Grp) (x : Nat) : odGet (modGrp s g f) x = odGet s x := rfl
@[simp] theorem mdOf_modGrp (s : State) (g : Nat) (f : Grp → Grp) (x : Nat) : mdOf (modGrp s g f) x = mdOf s x := rfl
@[simp] theorem engineOf_modGrp (s : State) (g : Nat) (f : Grp → Grp) (x : Nat) : engineOf (modGrp s g f) x = engineOf s x := rfl
@[simp] theorem sessOf_modGrp (s : State) (g : Nat) (f : Grp → Grp) (x : Nat) : sessOf (modGrp s g f) x = sessOf s x := rfl
@[simp] theorem dieOwner_modGrp (s : State) (g : Nat) (f : Grp → Grp) (x : Nat) : dieOwner (modGrp s g f) x = dieOwner s x := rfl
@[simp] theorem cellOwner_modGrp (s : State) (g : Nat) (f : Grp → Grp) (x : Nat) : cellOwner (modGrp s g f) x = cellOwner s x := rfl
@[simp] theorem groupOwner_modGrp (s : State) (g : Nat) (f : Grp → Grp) (x : Nat) : groupOwner (modGrp s g f) x = groupOwner s x := rfl
@[simp] theorem cellOf_modPart (s : State) (p : Nat) (f : Part → Part) (x : Nat) : cellOf (modPart s p f) x = cellOf s x := rfl
@[simp] theorem dieOf_modPart (s : State) (p : Nat) (f : Part → Part) (x : Nat) : dieOf (modPart s p f) x = dieOf s x := rfl
@[simp] theorem odGet_modPart (s : State) (p : Nat) (f : Part → Part) (x : Nat) : odGet (modPart s p f) x = odGet s x := rfl
@[simp] theorem mdOf_modPart (s : State) (p : Nat) (f : Part → Part) (x : Nat) : mdOf (modPart s p f) x = mdOf s x := rfl
@[simp] theorem grpOf_modPart (s : State) (p : Nat) (f : Part → Part) (x : Nat) : grpOf (modPart s p f) x = grpOf s x := rfl
@[simp] theorem engineOf_modPart (s : State) (p : Nat) (f : Part → Part) (x : Nat) : engineOf (modPart s p f) x = engineOf s x := rfl
@[simp] theorem sessOf_modPart (s : State) (p : Nat) (f : Part → Part) (x : Nat) : sessOf (modPart s p f) x = sessOf s x := rfl
@[simp] theorem cellOf_modJob (s : State) (p : Nat) (f : Job → Job) (x : Nat) : cellOf (modJob s p f) x = cellOf s x := rfl
@[simp] theorem dieOf_modJob (s : State) (p : Nat) (f : Job → Job) (x : Nat) : dieOf (modJob s p f) x = dieOf s x := rfl
@[simp] theorem odGet_modJob (s : State) (p : Nat) (f : Job → Job) (x : Nat) : odGet (modJob s p f) x = odGet s x := rfl
@[simp] theorem mdOf_modJob (s : State) (p : Nat) (f : Job → Job) (x : Nat) : mdOf (modJob s p f) x = mdOf s x := rfl
@[simp] theorem grpOf_modJob (s : State) (p : Nat) (f : Job → Job) (x : Nat) : grpOf (modJob s p f) x = grpOf s x := rfl
@[simp] theorem engineOf_modJob (s : State) (p : Nat) (f : Job → Job) (x : Nat) : engineOf (modJob s p f) x = engineOf s x := rfl
@[simp] theorem sessOf_modJob (s : State) (p : Nat) (f : Job → Job) (x : Nat) : sessOf (modJob s p f) x = sessOf s x := rfl
@[simp] theorem cellOf_modEngine (s : State) (e : Nat) (f : Engine → Engine) (x : Nat) : cellOf (modEngine s e f) x = cellOf s x := rfl
@[simp] theorem dieOf_modEngine (s : State) (e : Nat) (f : Engine → Engine) (x : Nat) : dieOf (modEngine s e f) x = dieOf s x := rfl
@[simp] theorem partOf_modEngine (s : State) (e : Nat) (f : Engine → Engine) (x : Nat) : partOf (modEngine s e f) x = partOf s x := rfl
@[simp] theorem odGet_modEngine (s : State) (e : Nat) (f : Engine → Engine) (x : Nat) : odGet (modEngine s e f) x = odGet s x := rfl
@[simp] theorem mdOf_modEngine (s : State) (e : Nat) (f : Engine → Engine) (x : Nat) : mdOf (modEngine s e f) x = mdOf s x := rfl
@[simp] theorem grpOf_modEngine (s : State) (e : Nat) (f : Engine → Engine) (x : Nat) : grpOf (modEngine s e f) x = grpOf s x := rfl
@[simp] theorem sessOf_modEngine (s : State) (e : Nat) (f : Engine → Engine) (x : Nat) : sessOf (modEngine s e f) x = sessOf s x := rfl
@[simp] theorem dieOwner_modEngine (s : State) (e : Nat) (f : Engine → Engine) (x : Nat) : dieOwner (modEngine s e f) x = dieOwner s x := rfl
@[simp] theorem cellOwner_modEngine (s : State) (e : Nat) (f : Engine → Engine) (x : Nat) : cellOwner (modEngine s e f) x = cellOwner s x := rfl
@[simp] theorem groupOwner_modEngine (s : State) (e : Nat) (f : Engine → Engine) (x : Nat) : groupOwner (modEngine s e f) x = groupOwner s x := rfl
@[simp] theorem cellOf_modSess (s : State) (n : Nat) (f : Sess → Sess) (x : Nat) : cellOf (modSess s n f) x = cellOf s x := rfl
@[simp] theorem dieOf_modSess (s : State) (n : Nat) (f : Sess → Sess) (x : Nat) : dieOf (modSess s n f) x = dieOf s x := rfl
@[simp] theorem partOf_modSess (s : State) (n : Nat) (f : Sess → Sess) (x : Nat) : partOf (modSess s n f) x = partOf s x := rfl
@[simp] theorem odGet_modSess (s : State) (n : Nat) (f : Sess → Sess) (x : Nat) : odGet (modSess s n f) x = odGet s x := rfl
@[simp] theorem mdOf_modSess (s : State) (n : Nat) (f : Sess → Sess) (x : Nat) : mdOf (modSess s n f) x = mdOf s x := rfl
@[simp] theorem grpOf_modSess (s : State) (n : Nat) (f : Sess → Sess) (x : Nat) : grpOf (modSess s n f) x = grpOf s x := rfl
@[simp] theorem engineOf_modSess (s : State) (n : Nat) (f : Sess → Sess) (x : Nat) : engineOf (modSess s n f) x = engineOf s x := rfl
@[simp] theorem dieOwner_modSess (s : State) (n : Nat) (f : Sess → Sess) (x : Nat) : dieOwner (modSess s n f) x = dieOwner s x := rfl
@[simp] theorem cellOwner_modSess (s : State) (n : Nat) (f : Sess → Sess) (x : Nat) : cellOwner (modSess s n f) x = cellOwner s x := rfl
@[simp] theorem groupOwner_modSess (s : State) (n : Nat) (f : Sess → Sess) (x : Nat) : groupOwner (modSess s n f) x = groupOwner s x := rfl
@[simp] theorem cellOf_modPin (s : State) (n : Nat) (f : Pin → Pin) (x : Nat) : cellOf (modPin s n f) x = cellOf s x := rfl
@[simp] theorem dieOf_modPin (s : State) (n : Nat) (f : Pin → Pin) (x : Nat) : dieOf (modPin s n f) x = dieOf s x := rfl
@[simp] theorem partOf_modPin (s : State) (n : Nat) (f : Pin → Pin) (x : Nat) : partOf (modPin s n f) x = partOf s x := rfl
@[simp] theorem odGet_modPin (s : State) (n : Nat) (f : Pin → Pin) (x : Nat) : odGet (modPin s n f) x = odGet s x := rfl
@[simp] theorem mdOf_modPin (s : State) (n : Nat) (f : Pin → Pin) (x : Nat) : mdOf (modPin s n f) x = mdOf s x := rfl
@[simp] theorem grpOf_modPin (s : State) (n : Nat) (f : Pin → Pin) (x : Nat) : grpOf (modPin s n f) x = grpOf s x := rfl
@[simp] theorem engineOf_modPin (s : State) (n : Nat) (f : Pin → Pin) (x : Nat) : engineOf (modPin s n f) x = engineOf s x := rfl
@[simp] theorem sessOf_modPin (s : State) (n : Nat) (f : Pin → Pin) (x : Nat) : sessOf (modPin s n f) x = sessOf s x := rfl
@[simp] theorem dieOwner_modPin (s : State) (n : Nat) (f : Pin → Pin) (x : Nat) : dieOwner (modPin s n f) x = dieOwner s x := rfl
@[simp] theorem cellOwner_modPin (s : State) (n : Nat) (f : Pin → Pin) (x : Nat) : cellOwner (modPin s n f) x = cellOwner s x := rfl
@[simp] theorem groupOwner_modPin (s : State) (n : Nat) (f : Pin → Pin) (x : Nat) : groupOwner (modPin s n f) x = groupOwner s x := rfl
@[simp] theorem cellOf_odSet (s : State) (a v : Nat) (x : Nat) : cellOf (odSet s a v) x = cellOf s x := rfl
@[simp] theorem dieOf_odSet (s : State) (a v : Nat) (x : Nat) : dieOf (odSet s a v) x = dieOf s x := rfl
@[simp] theorem partOf_odSet (s : State) (a v : Nat) (x : Nat) : partOf (odSet s a v) x = partOf s x := rfl
@[simp] theorem mdOf_odSet (s : State) (a v : Nat) (x : Nat) : mdOf (odSet s a v) x = mdOf s x := rfl
@[simp] theorem grpOf_odSet (s : State) (a v : Nat) (x : Nat) : grpOf (odSet s a v) x = grpOf s x := rfl
@[simp] theorem engineOf_odSet (s : State) (a v : Nat) (x : Nat) : engineOf (odSet s a v) x = engineOf s x := rfl
@[simp] theorem sessOf_odSet (s : State) (a v : Nat) (x : Nat) : sessOf (odSet s a v) x = sessOf s x := rfl
@[simp] theorem dieOwner_odSet (s : State) (a v : Nat) (x : Nat) : dieOwner (odSet s a v) x = dieOwner s x := rfl
@[simp] theorem cellOwner_odSet (s : State) (a v : Nat) (x : Nat) : cellOwner (odSet s a v) x = cellOwner s x := rfl
@[simp] theorem groupOwner_odSet (s : State) (a v : Nat) (x : Nat) : groupOwner (odSet s a v) x = groupOwner s x := rfl
@[simp] theorem cellOf_odAdd (s : State) (a n : Nat) (x : Nat) : cellOf (odAdd s a n) x = cellOf s x := rfl
@[simp] theorem dieOf_odAdd (s : State) (a n : Nat) (x : Nat) : dieOf (odAdd s a n) x = dieOf s x := rfl
@[simp] theorem partOf_odAdd (s : State) (a n : Nat) (x : Nat) : partOf (odAdd s a n) x = partOf s x := rfl
@[simp] theorem mdOf_odAdd (s : State) (a n : Nat) (x : Nat) : mdOf (odAdd s a n) x = mdOf s x := rfl
@[simp] theorem grpOf_odAdd (s : State) (a n : Nat) (x : Nat) : grpOf (odAdd s a n) x = grpOf s x := rfl
@[simp] theorem engineOf_odAdd (s : State) (a n : Nat) (x : Nat) : engineOf (odAdd s a n) x = engineOf s x := rfl
@[simp] theorem sessOf_odAdd (s : State) (a n : Nat) (x : Nat) : sessOf (odAdd s a n) x = sessOf s x := rfl
@[simp] theorem dieOwner_odAdd (s : State) (a n : Nat) (x : Nat) : dieOwner (odAdd s a n) x = dieOwner s x := rfl
@[simp] theorem cellOwner_odAdd (s : State) (a n : Nat) (x : Nat) : cellOwner (odAdd s a n) x = cellOwner s x := rfl
@[simp] theorem groupOwner_odAdd (s : State) (a n : Nat) (x : Nat) : groupOwner (odAdd s a n) x = groupOwner s x := rfl
@[simp] theorem cellOf_odInc (s : State) (a : Nat) (x : Nat) : cellOf (odInc s a) x = cellOf s x := rfl
@[simp] theorem dieOf_odInc (s : State) (a : Nat) (x : Nat) : dieOf (odInc s a) x = dieOf s x := rfl
@[simp] theorem partOf_odInc (s : State) (a : Nat) (x : Nat) : partOf (odInc s a) x = partOf s x := rfl
@[simp] theorem mdOf_odInc (s : State) (a : Nat) (x : Nat) : mdOf (odInc s a) x = mdOf s x := rfl
@[simp] theorem grpOf_odInc (s : State) (a : Nat) (x : Nat) : grpOf (odInc s a) x = grpOf s x := rfl
@[simp] theorem engineOf_odInc (s : State) (a : Nat) (x : Nat) : engineOf (odInc s a) x = engineOf s x := rfl
@[simp] theorem sessOf_odInc (s : State) (a : Nat) (x : Nat) : sessOf (odInc s a) x = sessOf s x := rfl
@[simp] theorem dieOwner_odInc (s : State) (a : Nat) (x : Nat) : dieOwner (odInc s a) x = dieOwner s x := rfl
@[simp] theorem cellOwner_odInc (s : State) (a : Nat) (x : Nat) : cellOwner (odInc s a) x = cellOwner s x := rfl
@[simp] theorem groupOwner_odInc (s : State) (a : Nat) (x : Nat) : groupOwner (odInc s a) x = groupOwner s x := rfl
@[simp] theorem cellOf_odOr (s : State) (a v : Nat) (x : Nat) : cellOf (odOr s a v) x = cellOf s x := rfl
@[simp] theorem dieOf_odOr (s : State) (a v : Nat) (x : Nat) : dieOf (odOr s a v) x = dieOf s x := rfl
@[simp] theorem partOf_odOr (s : State) (a v : Nat) (x : Nat) : partOf (odOr s a v) x = partOf s x := rfl
@[simp] theorem mdOf_odOr (s : State) (a v : Nat) (x : Nat) : mdOf (odOr s a v) x = mdOf s x := rfl
@[simp] theorem grpOf_odOr (s : State) (a v : Nat) (x : Nat) : grpOf (odOr s a v) x = grpOf s x := rfl
@[simp] theorem engineOf_odOr (s : State) (a v : Nat) (x : Nat) : engineOf (odOr s a v) x = engineOf s x := rfl
@[simp] theorem sessOf_odOr (s : State) (a v : Nat) (x : Nat) : sessOf (odOr s a v) x = sessOf s x := rfl
@[simp] theorem dieOwner_odOr (s : State) (a v : Nat) (x : Nat) : dieOwner (odOr s a v) x = dieOwner s x := rfl
@[simp] theorem cellOwner_odOr (s : State) (a v : Nat) (x : Nat) : cellOwner (odOr s a v) x = cellOwner s x := rfl
@[simp] theorem groupOwner_odOr (s : State) (a v : Nat) (x : Nat) : groupOwner (odOr s a v) x = groupOwner s x := rfl
@[simp] theorem cellOf_emit (s : State) (o : Out) (x : Nat) : cellOf (emit s o) x = cellOf s x := rfl
@[simp] theorem dieOf_emit (s : State) (o : Out) (x : Nat) : dieOf (emit s o) x = dieOf s x := rfl
@[simp] theorem partOf_emit (s : State) (o : Out) (x : Nat) : partOf (emit s o) x = partOf s x := rfl
@[simp] theorem odGet_emit (s : State) (o : Out) (x : Nat) : odGet (emit s o) x = odGet s x := rfl
@[simp] theorem mdOf_emit (s : State) (o : Out) (x : Nat) : mdOf (emit s o) x = mdOf s x := rfl
@[simp] theorem grpOf_emit (s : State) (o : Out) (x : Nat) : grpOf (emit s o) x = grpOf s x := rfl
@[simp] theorem engineOf_emit (s : State) (o : Out) (x : Nat) : engineOf (emit s o) x = engineOf s x := rfl
@[simp] theorem sessOf_emit (s : State) (o : Out) (x : Nat) : sessOf (emit s o) x = sessOf s x := rfl
@[simp] theorem dieOwner_emit (s : State) (o : Out) (x : Nat) : dieOwner (emit s o) x = dieOwner s x := rfl
@[simp] theorem cellOwner_emit (s : State) (o : Out) (x : Nat) : cellOwner (emit s o) x = cellOwner s x := rfl
@[simp] theorem groupOwner_emit (s : State) (o : Out) (x : Nat) : groupOwner (emit s o) x = groupOwner s x := rfl

end Sys2Proof.Machine
end

