-- ==== Sys2Proof/Laws/Issue.lean ====
section
/-!
SUPPORT. What issuing a slot operation does when nothing is in its way: the lemmas that let a statement about a slot
operation go straight to its slot's own meaning.
-/

namespace Sys2Proof.Machine

/-- The later of two settings of an entry stands. -/
theorem tset_tset {α : Type} (t : Tbl α) (n : Nat) (a b : α) : tset (tset t n a) n b = tset t n b := by
  induction t with
  | nil => simp [tset]
  | cons e t ih =>
    obtain ⟨k, v⟩ := e
    rw [tset]
    split
    · simp [tset, *]
    · split
      · subst k; simp [tset]
      · simp [tset, *]

/-- The Anemometer's counters are dictionary values. -/
theorem anem_eq (s : State) (u e n : Nat) : anem s u e n = { s with od := (anem s u e n).od } := by
  unfold anem
  generalize List.range 32 = l
  have : ∀ (t : State), (∃ o, t = { s with od := o }) → ∃ o, l.foldl (fun t k =>
    if bit (odGet t Ad.anemEnable) k ∧ odGet t (Ad.anemSelect k) = u * 65536 + e then odAdd t (Ad.anemCount k) n else t) t = { s with od := o } := by
    induction l with
    | nil => exact fun t h => h
    | cons k l ih =>
      intro t ht
      apply ih
      obtain ⟨o, rfl⟩ := ht
      dsimp only
      split
      · exact ⟨_, rfl⟩
      · exact ⟨_, rfl⟩
  obtain ⟨o, ho⟩ := this s ⟨s.od, rfl⟩
  rw [ho]

theorem cellOf_anem (s : State) (u e n g : Nat) : cellOf (anem s u e n) g = cellOf s g := by
  rw [anem_eq]; rfl

theorem cellOwner_anem (s : State) (u e n g : Nat) : cellOwner (anem s u e n) g = cellOwner s g := by
  rw [anem_eq]; rfl

theorem partOf_anem (s : State) (u e n p : Nat) : partOf (anem s u e n) p = partOf s p := by
  rw [anem_eq]; rfl

theorem setCell_setCell (s : State) (g : Nat) (a b : Cell) : setCell (setCell s g a) g b = setCell s g b := by
  simp [setCell, tset_tset]

/-- A cell none of whose write streams runs drains nothing. -/
theorem drainAll_quiet {s : State} {g : Nat} (h : quietOuts (cellOf s g) = true) (d : List (BitVec 32)) :
    drainAll s g d = s := by
  have one : ∀ k, drainOne s g k d = s := by
    intro k
    unfold quietOuts at h
    unfold drainOne
    split
    · rename_i p x hp hx
      have : x.running = false := by
        generalize (cellOf s g).outs = o at h hx
        induction o with
        | nil => simp [tget] at hx
        | cons e o ih =>
          obtain ⟨a, y⟩ := e
          rw [tget] at hx
          simp only [List.all_cons, Bool.and_eq_true] at h
          split at hx
          · cases hx; simpa using h.1
          · exact ih h.2 hx
      simp [this]
    · rfl
  unfold drainAll
  rw [one, one]

@[simp] theorem vecOnly_vec (v : VecSlot) : (vecOnly v).vec = v := rfl
@[simp] theorem vecOnly_sync (v : VecSlot) : (vecOnly v).sync = ⟨0, 0⟩ := rfl
@[simp] theorem vecOnly_mat (v : VecSlot) : (vecOnly v).mat = ⟨0, 0, 0, 0, false, 0⟩ := rfl
@[simp] theorem vecOnly_sin (v : VecSlot) : (vecOnly v).sin = ⟨0, 0, 0, 0, 0⟩ := rfl
@[simp] theorem vecOnly_sout (v : VecSlot) : (vecOnly v).sout = ⟨0, 0, 0, 0, 0⟩ := rfl
@[simp] theorem vecOnly_rep (v : VecSlot) : (vecOnly v).rep = 0 := rfl

/-- Noting what an issue leaves due changes the sequencer's record of results alone. -/
theorem noteIssue_eq (c : Cell) (b : Bundle) :
    noteIssue c b = { c with seq := { c.seq with ready := (noteIssue c b).seq.ready } } := rfl

theorem cellOf_issued (s : State) (g : Nat) (b : Bundle) : cellOf (issued s g b) g = noteIssue (cellOf s g) b := by
  unfold issued
  rw [cellOf_anem]
  simp

theorem reg_noteIssue (c : Cell) (b : Bundle) (r : Nat) : reg (noteIssue c b) r = reg c r := rfl

theorem maskReg_noteIssue (c : Cell) (b : Bundle) (m : Nat) : maskReg (noteIssue c b) m = maskReg c m := rfl

set_option maxRecDepth 4000 in
/-- A vector operation other than VLD and VST that folds nothing leaves its cell as `vecExec` says. -/
theorem issueSlot_vec {s : State} {p g : Nat} {w : BitVec 256} {v : VecSlot} {f : Cell → Cell}
    (h : slotClear s p g (vecOnly v) = true) (hw : Bundle.ofWord w = vecOnly v) (hl : vecIllegal v = false) (h0 : v.op ≠ 0)
    (h1 : v.op ≠ 0x40) (h2 : v.op ≠ 0x41)
    (hx : vecExec (issued s g (vecOnly v)) p g v (drawsOf (cellOf s g)) = (f (cellOf (issued s g (vecOnly v)) g), none))
    (hc : (f (cellOf (issued s g (vecOnly v)) g)).seq.status = (cellOf s g).seq.status)
    (ho : (f (cellOf (issued s g (vecOnly v)) g)).outs = (cellOf s g).outs)
    (hs : (f (cellOf (issued s g (vecOnly v)) g)).scratch = (cellOf s g).scratch) :
    issueSlot s g w = slotDone s g (vecOnly v) f := by
  simp only [slotClear, slotReady, Bool.and_eq_true, decide_eq_true_eq, Option.isNone_iff_eq_none] at h
  obtain ⟨⟨⟨⟨hp, hi⟩, hb⟩, hbb⟩, hq⟩ := h
  have hrun : (cellOf s g).seq.status = .running := by
    simp only [canIssue, Bool.and_eq_true, beq_iff_eq] at hi
    exact hi.1.1.1
  have hil : bundleIllegal (cellOf s g) (vecOnly v) = false := by
    simp [bundleIllegal, hl, matIllegal]
  have hmf : matFault (cellOf s g) ⟨0, 0, 0, 0, false, 0⟩ = none := by
    simp [matFault]
  have hsw : ∀ o, syncWait s p g ⟨0, 0⟩ o = none := by
    intro o; unfold syncWait; split
    · rfl
    · simp
  have hone : issueOnce s p g (vecOnly v) true [] = slotDone s g (vecOnly v) f := by
    have hi0 : anem (modCell s g fun c => noteIssue c (vecOnly v)) (g / 80) 1 1 = issued s g (vecOnly v) := rfl
    have hs1 : streamExec (issued s g (vecOnly v)) g (vecOnly v) = issued s g (vecOnly v) := by
      simp [streamExec]
    have hal : alive (issued s g (vecOnly v)) g = true := by
      rw [alive, cellOf_issued, noteIssue_eq]
      simp [hrun]
    have hs2 : vecBefore (issued s g (vecOnly v)) p g v (drawsOf (cellOf s g)) [] =
        setCell (issued s g (vecOnly v)) g (f (cellOf (issued s g (vecOnly v)) g)) := by
      simp [vecBefore, h0, h1, h2, hx, hs, hb]
    have hs3 : ∀ d, drainAll (setCell (issued s g (vecOnly v)) g (f (cellOf (issued s g (vecOnly v)) g))) g d =
        setCell (issued s g (vecOnly v)) g (f (cellOf (issued s g (vecOnly v)) g)) := by
      intro d
      apply drainAll_quiet
      rw [cellOf_setCell_self]
      unfold quietOuts
      rw [ho]
      exact hq
    have hal2 : alive (setCell (issued s g (vecOnly v)) g (f (cellOf (issued s g (vecOnly v)) g))) g = true := by
      unfold alive
      rw [cellOf_setCell_self, hc, hrun]
    have hvg : ∀ t d o, vstGrant t p g v d o = none := by
      intro t d o
      simp [vstGrant, h2]
    have hst : (f (cellOf (issued s g (vecOnly v)) g)).seq.status = .running := by rw [hc, hrun]
    unfold issueOnce
    have h34 : ¬((0 : Nat) = 3 ∨ (0 : Nat) = 4) := by omega
    simp only [hi0, vecOnly_mat, vecOnly_vec, vecOnly_sync, h34, if_false, hs1, hal, h2, decide_false, Bool.false_eq_true, hs2,
      hvg, hs3, hal2, if_true, matExec, vecStore, syncExec, ne_eq, not_false_eq_true]
    simp only [slotDone, slotAfter, modCell, setCell_setCell, cellOf_setCell_self, advanceGens, Cell.after, hst, advance,
      vecOnly_rep, vecOnly_sync, Nat.not_lt_zero, if_false]
    rfl
  unfold issueSlot
  rw [hp]
  simp only [hi, if_true]
  unfold issueAll tryIssue
  rw [hw]
  simp [hil, hmf, hbb, hsw, hone, issueRest]

end Sys2Proof.Machine
end

