-- ==== Sys2Proof/Laws/Memory.lean ====
section
/-!
SUPPORT. Byte memories: their canonical form (addresses rising, no listed zero), which every memory operation
keeps, and what a read gives after a write.
-/

namespace Sys2Proof.Machine

/-- The canonical form as two facts about the list. -/
theorem Memory.wf_iff (m : Mem) :
    Memory.wf m = true ↔ m.Pairwise (fun x y => x.1 < y.1) ∧ ∀ e ∈ m, e.2 ≠ 0 := by
  induction m with
  | nil => simp [Memory.wf]
  | cons e t ih =>
    obtain ⟨a, b⟩ := e
    cases t with
    | nil => simp [Memory.wf]
    | cons e' t' =>
      obtain ⟨a', b'⟩ := e'
      have h1 : Memory.wf ((a, b) :: (a', b') :: t') =
          (decide (a < a') && b != 0 && Memory.wf ((a', b') :: t')) := rfl
      rw [h1, Bool.and_eq_true, Bool.and_eq_true, ih, List.pairwise_cons (a := (a, b))]
      simp only [decide_eq_true_eq, bne_iff_ne, List.mem_cons, ne_eq, forall_eq_or_imp]
      constructor
      · rintro ⟨⟨hlt, hb⟩, hp, hz⟩
        refine ⟨⟨⟨hlt, fun x hx => ?_⟩, hp⟩, hb, hz⟩
        exact lt_trans hlt ((List.pairwise_cons.1 hp).1 x hx)
      · rintro ⟨⟨⟨hlt, -⟩, hp⟩, hb, hz⟩
        exact ⟨⟨hlt, hb⟩, hp, hz⟩

/-- Every cell of a written run of bytes lies in the run and is not 0. -/
theorem mem_cellsAt (bs : List Byte) : ∀ a, ∀ e ∈ cellsAt a bs, a ≤ e.1 ∧ e.1 < a + bs.length ∧ e.2 ≠ 0 := by
  induction bs with
  | nil => intro a e h; simp [cellsAt] at h
  | cons b bs ih =>
    intro a e h
    rw [cellsAt] at h
    split at h
    · have := ih (a + 1) e h
      simp only [List.length_cons]
      exact ⟨by omega, by omega, this.2.2⟩
    · rcases List.mem_cons.1 h with rfl | h
      · simp only [List.length_cons]
        refine ⟨Nat.le_refl _, by omega, by assumption⟩
      · have := ih (a + 1) e h
        simp only [List.length_cons]
        exact ⟨by omega, by omega, this.2.2⟩

/-- The cells of a written run rise. -/
theorem cellsAt_pairwise (bs : List Byte) : ∀ a, (cellsAt a bs).Pairwise fun x y => x.1 < y.1 := by
  induction bs with
  | nil => intro a; simp [cellsAt]
  | cons b bs ih =>
    intro a
    rw [cellsAt]
    split
    · exact ih (a + 1)
    · refine List.pairwise_cons.2 ⟨fun e h => ?_, ih (a + 1)⟩
      have := mem_cellsAt bs (a + 1) e h
      show a < e.1
      omega

/-- Removing cells keeps the canonical form. -/
theorem Memory.wf_filter {m : Mem} (f : Host.Cell → Bool) (h : Memory.wf m = true) : Memory.wf (m.filter f) = true := by
  rw [Memory.wf_iff] at *
  exact ⟨h.1.filter f, fun e he => h.2 e (List.mem_filter.1 he).1⟩

/-- A write keeps the canonical form. -/
theorem mwrite_wf {m : Mem} (h : Memory.wf m = true) (a : Nat) (bs : List Byte) : Memory.wf (mwrite m a bs) = true := by
  have hw := (Memory.wf_iff m).1 h
  rw [Memory.wf_iff, mwrite]
  refine ⟨?_, ?_⟩
  · rw [List.pairwise_append, List.pairwise_append]
    refine ⟨⟨hw.1.filter _, cellsAt_pairwise bs a, ?_⟩, hw.1.filter _, ?_⟩
    · intro x hx y hy
      have h1 := of_decide_eq_true (List.mem_filter.1 hx).2
      have h2 := mem_cellsAt bs a y hy
      omega
    · intro x hx y hy
      have h2 := of_decide_eq_true (List.mem_filter.1 hy).2
      rcases List.mem_append.1 hx with hx | hx
      · have h1 := of_decide_eq_true (List.mem_filter.1 hx).2
        omega
      · have h1 := mem_cellsAt bs a x hx
        omega
  · intro e he
    rcases List.mem_append.1 he with he | he
    · rcases List.mem_append.1 he with he | he
      · exact hw.2 e (List.mem_filter.1 he).1
      · exact (mem_cellsAt bs a e he).2.2
    · exact hw.2 e (List.mem_filter.1 he).1

/-- Writing one byte keeps the canonical form. -/
theorem mset_wf {m : Mem} (h : Memory.wf m = true) (n : Nat) (b : Byte) : Memory.wf (mset m n b) = true :=
  mwrite_wf h n [b]

/-- Clearing a range keeps the canonical form. -/
theorem mclear_wf {m : Mem} (h : Memory.wf m = true) (a n : Nat) : Memory.wf (mclear m a n) = true :=
  Memory.wf_filter _ h

/-- A read of a memory with no cell at the address gives 0. -/
theorem mget_of_not_mem (m : Mem) (n : Nat) (h : ∀ e ∈ m, e.1 ≠ n) : mget m n = 0 := by
  induction m with
  | nil => rfl
  | cons e t ih =>
    obtain ⟨a, b⟩ := e
    rw [mget, if_neg (h (a, b) (List.mem_cons_self ..))]
    exact ih fun e he => h e (List.mem_cons_of_mem _ he)

/-- A read passes over a part with no cell at the address. -/
theorem mget_append_right (m m' : Mem) (n : Nat) (h : ∀ e ∈ m, e.1 ≠ n) : mget (m ++ m') n = mget m' n := by
  induction m with
  | nil => rfl
  | cons e t ih =>
    obtain ⟨a, b⟩ := e
    rw [List.cons_append, mget, if_neg (h (a, b) (List.mem_cons_self ..))]
    exact ih fun e he => h e (List.mem_cons_of_mem _ he)

/-- A read does not look behind a part without the address when nothing follows with it. -/
theorem mget_append_left (m m' : Mem) (n : Nat) (h : ∀ e ∈ m', e.1 ≠ n) : mget (m ++ m') n = mget m n := by
  induction m with
  | nil => simpa [mget] using mget_of_not_mem m' n h
  | cons e t ih =>
    obtain ⟨a, b⟩ := e
    rw [List.cons_append, mget, mget]
    split
    · rfl
    · exact ih

/-- A filter that keeps an address keeps what is read there. -/
theorem mget_filter (m : Mem) (f : Host.Cell → Bool) (n : Nat) (h : ∀ b, f (n, b) = true) :
    mget (m.filter f) n = mget m n := by
  induction m with
  | nil => rfl
  | cons e t ih =>
    obtain ⟨a, b⟩ := e
    rw [mget]
    split
    · rename_i heq
      subst heq
      rw [List.filter_cons_of_pos (h b), mget, if_pos rfl]
    · rename_i hne
      rw [List.filter_cons]
      split
      · rw [mget, if_neg hne]; exact ih
      · exact ih

/-- The bytes written read back. -/
theorem mget_cellsAt (bs : List Byte) : ∀ a n, a ≤ n → n < a + bs.length → mget (cellsAt a bs) n = bs.getD (n - a) 0 := by
  induction bs with
  | nil => intro a n h1 h2; simp at h2; omega
  | cons b bs ih =>
    intro a n h1 h2
    rw [List.length_cons] at h2
    by_cases hn : n = a
    · subst hn
      rw [cellsAt]
      split
      · rename_i hb
        rw [mget_of_not_mem]
        · simp [hb]
        · intro e he
          have := mem_cellsAt bs (n + 1) e he
          omega
      · simp [mget]
    · have hlt : a + 1 ≤ n := by omega
      have hd : n - a = (n - (a + 1)) + 1 := by omega
      rw [cellsAt]
      split
      · rw [ih (a + 1) n hlt (by omega), hd]
        simp
      · rw [mget, if_neg (fun h => hn h.symm), ih (a + 1) n hlt (by omega), hd]
        simp

/-- A byte inside a write reads what was written. -/
theorem mget_mwrite_in (m : Mem) (a n : Nat) (bs : List Byte) (h1 : a ≤ n) (h2 : n < a + bs.length) :
    mget (mwrite m a bs) n = bs.getD (n - a) 0 := by
  rw [mwrite, mget_append_left, mget_append_right, mget_cellsAt bs a n h1 h2]
  · intro e he
    have := of_decide_eq_true (List.mem_filter.1 he).2
    omega
  · intro e he
    have := of_decide_eq_true (List.mem_filter.1 he).2
    omega

/-- A byte outside a write reads as before. -/
theorem mget_mwrite_out (m : Mem) (a n : Nat) (bs : List Byte) (h : n < a ∨ a + bs.length ≤ n) :
    mget (mwrite m a bs) n = mget m n := by
  rw [mwrite]
  rcases h with h | h
  · rw [List.append_assoc, mget_append_left, mget_filter]
    · intro b; simpa using h
    · intro e he
      rcases List.mem_append.1 he with he | he
      · have := mem_cellsAt bs a e he
        omega
      · have := of_decide_eq_true (List.mem_filter.1 he).2
        omega
  · rw [mget_append_right, mget_filter]
    · intro b; simpa using h
    · intro e he
      rcases List.mem_append.1 he with he | he
      · have := of_decide_eq_true (List.mem_filter.1 he).2
        omega
      · have := mem_cellsAt bs a e he
        omega

/-- A cleared byte reads 0. -/
theorem mget_mclear_in (m : Mem) (a n k : Nat) (h1 : a ≤ k) (h2 : k < a + n) : mget (mclear m a n) k = 0 := by
  refine mget_of_not_mem _ _ fun e he => ?_
  have := (List.mem_filter.1 he).2
  simp only [Bool.not_eq_true', Bool.and_eq_false_iff, decide_eq_false_iff_not] at this
  omega

/-- A byte outside a clearing reads as before. -/
theorem mget_mclear_out (m : Mem) (a n k : Nat) (h : k < a ∨ a + n ≤ k) : mget (mclear m a n) k = mget m k := by
  refine mget_filter _ _ _ fun b => ?_
  simp only [Bool.not_eq_true', Bool.and_eq_false_iff, decide_eq_false_iff_not]
  omega

/-- The bytes written are the bytes read. -/
theorem mread_mwrite (m : Mem) (a : Nat) (bs : List Byte) : mread (mwrite m a bs) a bs.length = bs := by
  apply List.ext_getElem
  · simp [mread]
  · intro i h1 h2
    have hi : i < bs.length := h2
    have hg : ∀ b, (fun e : Host.Cell => decide (a ≤ e.1) && decide (e.1 < a + bs.length)) (a + i, b) = true := by
      intro b
      simp only [Bool.and_eq_true, decide_eq_true_eq]
      omega
    simp only [mread, List.getElem_map, List.getElem_range]
    rw [mget_filter _ _ _ hg, mget_mwrite_in _ _ _ _ (by omega) (by omega)]
    simp [List.getD, hi]

end Sys2Proof.Machine
end

