-- ==== Sys2Proof/Laws/Keeps.lean ====
section
/-!
SUPPORT. What no operation of the part undoes: the queue stays as it was, the far tier and the host memory keep
their canonical form, free values are numbered upwards, the life counters never fall, and a cell fenced off, a die
retired and a security version raised stay so. `Keeps s0 s` says it of a state `s` reached from `s0`; each shared
operation has one lemma, in the form that chains.
-/

namespace Sys2Proof.Machine

/-- `s`, reached from `s0`, has kept what nothing undoes. -/
structure Keeps (s0 s : State) : Prop where
  pending : s.pending = s0.pending
  far : Memory.wf s0.far = true → Memory.wf s.far = true
  host : Memory.wf s0.host = true → Memory.wf s.host = true
  fresh : s0.fresh ≤ s.fresh
  opMs : s0.nv.opMs ≤ s.nv.opMs
  powerCycles : s0.nv.powerCycles ≤ s.nv.powerCycles
  fenced : ∀ g ∈ s0.nv.fenced, g ∈ s.nv.fenced
  retired : ∀ d ∈ s0.nv.retired, d ∈ s.nv.retired
  svn : svnOf s0.nv ≤ svnOf s.nv

/-- The security version in effect depends on the version raised alone. -/
theorem svnOf_le_of_eq {a b : Nonvolatile} (h : a.svn = b.svn) : svnOf a ≤ svnOf b := by
  unfold svnOf
  rw [h]

theorem Keeps.refl (s : State) : Keeps s s :=
  ⟨rfl, id, id, Nat.le_refl _, Nat.le_refl _, Nat.le_refl _, fun _ h => h, fun _ h => h, Nat.le_refl _⟩

theorem Keeps.trans {a b c : State} (h : Keeps a b) (k : Keeps b c) : Keeps a c :=
  ⟨k.pending.trans h.pending, fun x => k.far (h.far x), fun x => k.host (h.host x), Nat.le_trans h.fresh k.fresh,
   Nat.le_trans h.opMs k.opMs, Nat.le_trans h.powerCycles k.powerCycles, fun g x => k.fenced g (h.fenced g x),
   fun d x => k.retired d (h.retired d x), Nat.le_trans h.svn k.svn⟩

/-- A state written out from another: what it takes over, and what it may change. -/
theorem Keeps.lit {s0 s : State} {fr : Nat} {x_od : Tbl Nat} {x_latched : Tbl Nat} {x_cells : Tbl Cell} {x_dies : Tbl Die} {x_mds : Tbl MemDie} {x_grps : Tbl Grp} {fa : Mem} {x_farKeys : Tbl Nat} {x_farPoison : List Nat} {x_farFlips : Tbl Nat} {ho : Mem} {x_hostBad : List Nat} {x_hostKeys : Tbl Nat} {x_hostReads : List HostRd} {x_hostNext : Nat} {x_parts : Tbl Part} {x_engines : Tbl Engine} {x_net : Net} {x_recovery : Recovery} {x_server : Server} {x_pins : Tbl Pin} {n : Nonvolatile} {x_boot : Boot} {x_sec : Sec} {x_fabric : Fabric} {x_out : List Out}
    (h : Keeps s0 s) (hr : s.fresh ≤ fr) (hf : Memory.wf s.far = true → Memory.wf fa = true)
    (hh : Memory.wf s.host = true → Memory.wf ho = true) (h1 : s.nv.opMs ≤ n.opMs) (h2 : s.nv.powerCycles ≤ n.powerCycles)
    (h3 : ∀ g ∈ s.nv.fenced, g ∈ n.fenced) (h4 : ∀ d ∈ s.nv.retired, d ∈ n.retired) (h5 : svnOf s.nv ≤ svnOf n) :
    Keeps s0 ⟨s.pending, fr, x_od, x_latched, x_cells, x_dies, x_mds, x_grps, fa, x_farKeys, x_farPoison, x_farFlips, ho, x_hostBad, x_hostKeys, x_hostReads, x_hostNext, x_parts, x_engines, x_net, x_recovery, x_server, x_pins, n, x_boot, x_sec, x_fabric, x_out⟩ :=
  ⟨h.pending, fun x => hf (h.far x), fun x => hh (h.host x), Nat.le_trans h.fresh hr, Nat.le_trans h.opMs h1,
   Nat.le_trans h.powerCycles h2, fun g x => h3 g (h.fenced g x), fun d x => h4 d (h.retired d x), Nat.le_trans h.svn h5⟩

/-- A write keeps the canonical form of a memory read in another way. -/
theorem mwrite_imp {m m' : Mem} {a : Nat} {bs : List Byte} (e : m = m') :
    Memory.wf m = true → Memory.wf (mwrite m' a bs) = true :=
  fun h => mwrite_wf (e ▸ h) a bs

/-- The canonical form of a memory read in another way. -/
theorem wf_imp {m m' : Mem} (e : m = m') : Memory.wf m = true → Memory.wf m' = true := fun h => e ▸ h

/-- The members of a list read in another way. -/
theorem mem_imp {l l' : List Nat} (e : l = l') : ∀ g ∈ l, g ∈ l' := fun _ h => e ▸ h

/-- What a list held, it holds with one more. -/
theorem addTo_imp (l : List Nat) (x : Nat) : ∀ g ∈ l, g ∈ addTo l x := by
  intro g hg
  unfold addTo
  split
  · exact hg
  · exact List.mem_append_left _ hg

/-- A choice between two states. -/
theorem Keeps.ite {s0 a b : State} {c : Prop} [Decidable c] (ha : Keeps s0 a) (hb : Keeps s0 b) :
    Keeps s0 (if c then a else b) := by
  split <;> assumption

/-- A choice between two pairs that carry a state first. -/
theorem Keeps.iteFst {α : Type} {s0 : State} {a b : State × α} {c : Prop} [Decidable c] (ha : Keeps s0 a.1)
    (hb : Keeps s0 b.1) : Keeps s0 (if c then a else b).1 := by
  split <;> assumption

/-- A choice between two pairs that carry a state second. -/
theorem Keeps.iteSnd {α : Type} {s0 : State} {a b : α × State} {c : Prop} [Decidable c] (ha : Keeps s0 a.2)
    (hb : Keeps s0 b.2) : Keeps s0 (if c then a else b).2 := by
  split <;> assumption

/-- A fold of an operation that keeps. -/
theorem Keeps.foldl {α : Type} {s0 s : State} (h : Keeps s0 s) (f : State → α → State) (l : List α)
    (hf : ∀ t x, Keeps s0 t → Keeps s0 (f t x)) : Keeps s0 (l.foldl f s) := by
  induction l generalizing s with
  | nil => exact h
  | cons x l ih => exact ih (hf s x h)

/-- A fold that carries the state in the first place of a pair. -/
theorem Keeps.foldlFst {α β : Type} {s0 : State} {a : State × β} (h : Keeps s0 a.1) (f : State × β → α → State × β)
    (l : List α) (hf : ∀ t x, Keeps s0 t.1 → Keeps s0 (f t x).1) : Keeps s0 (l.foldl f a).1 := by
  induction l generalizing a with
  | nil => exact h
  | cons x l ih => exact ih (hf a x h)

/-- A fold that carries the state in the second place of a pair. -/
theorem Keeps.foldlSnd {α β : Type} {s0 : State} {a : β × State} (h : Keeps s0 a.2) (f : β × State → α → β × State)
    (l : List α) (hf : ∀ t x, Keeps s0 t.2 → Keeps s0 (f t x).2) : Keeps s0 (l.foldl f a).2 := by
  induction l generalizing a with
  | nil => exact h
  | cons x l ih => exact ih (hf a x h)

/-- What an outcome leaves. -/
structure ResKeeps (s0 : State) (r : Res) : Prop where
  out : ∀ t, r = .next t → Keeps s0 t

/-- What an operation that may not apply leaves. -/
structure OptKeeps (s0 : State) (o : Option State) : Prop where
  out : ∀ t, o = some t → Keeps s0 t

/-- What an operation that may not apply leaves beside its answer. -/
structure PairKeeps {α : Type} (s0 : State) (o : Option (α × State)) : Prop where
  out : ∀ a t, o = some (a, t) → Keeps s0 t

/-- What an operation that may not apply leaves before its answer. -/
structure FstKeeps {α : Type} (s0 : State) (o : Option (State × α)) : Prop where
  out : ∀ t a, o = some (t, a) → Keeps s0 t

theorem ResKeeps.next {s0 t : State} (h : Keeps s0 t) : ResKeeps s0 (.next t) :=
  ⟨fun _ e => Host.Outcome.next.inj e ▸ h⟩

theorem ResKeeps.ite {s0 : State} {a b : Res} {c : Prop} [Decidable c] (ha : ResKeeps s0 a) (hb : ResKeeps s0 b) :
    ResKeeps s0 (if c then a else b) := by
  split <;> assumption

theorem OptKeeps.some {s0 t : State} (h : Keeps s0 t) : OptKeeps s0 (Option.some t) :=
  ⟨fun _ e => Option.some.inj e ▸ h⟩

theorem OptKeeps.none (s0 : State) : OptKeeps s0 Option.none := ⟨fun _ e => nomatch e⟩

theorem OptKeeps.ite {s0 : State} {a b : Option State} {c : Prop} [Decidable c] (ha : OptKeeps s0 a) (hb : OptKeeps s0 b) :
    OptKeeps s0 (if c then a else b) := by
  split <;> assumption

/-- The state of an answer that came. -/
theorem OptKeeps.of_eq {s0 t : State} {o : Option State} (h : OptKeeps s0 o) (he : o = Option.some t) : Keeps s0 t :=
  h.out t he

theorem OptKeeps.map {β : Type} {s0 : State} {f : β → State} (hf : ∀ x, Keeps s0 (f x)) (o : Option β) :
    OptKeeps s0 (o.map f) := by
  cases o with
  | none => exact OptKeeps.none _
  | some x => exact OptKeeps.some (hf x)

/-- An answer taken on. -/
theorem OptKeeps.bindMap {s0 : State} {f : State → State} {o : Option State} (h : OptKeeps s0 o)
    (hf : ∀ t, Keeps s0 t → Keeps s0 (f t)) : OptKeeps s0 (o.map f) := by
  cases o with
  | none => exact OptKeeps.none _
  | some t => exact OptKeeps.some (hf t (h.of_eq rfl))

/-- The answer, or another state where none came. -/
theorem OptKeeps.getD {s0 d : State} {o : Option State} (h : OptKeeps s0 o) (hd : Keeps s0 d) : Keeps s0 (o.getD d) := by
  cases o with
  | none => exact hd
  | some t => exact h.out t rfl

/-- The first answer among several. -/
theorem OptKeeps.findSome {α : Type} {s0 : State} {f : α → Option State} (h : ∀ x, OptKeeps s0 (f x)) (l : List α) :
    OptKeeps s0 (l.findSome? f) := by
  induction l with
  | nil => exact OptKeeps.none _
  | cons x l ih =>
    rw [List.findSome?_cons]
    split
    · rename_i t ht
      exact OptKeeps.some ((h x).of_eq ht)
    · exact ih

/-- The state of an answer that came. -/
theorem PairKeeps.of_eq {α : Type} {s0 t : State} {a : α} {o : Option (α × State)} (h : PairKeeps s0 o)
    (he : o = Option.some (a, t)) : Keeps s0 t :=
  h.out a t he

theorem PairKeeps.none {α : Type} (s0 : State) : PairKeeps (α := α) s0 Option.none := ⟨fun _ _ e => nomatch e⟩

theorem PairKeeps.some {α : Type} {s0 t : State} {a : α} (h : Keeps s0 t) : PairKeeps s0 (Option.some (a, t)) :=
  ⟨fun _ _ e => (Prod.mk.inj (Option.some.inj e)).2 ▸ h⟩

theorem PairKeeps.ite {α : Type} {s0 : State} {a b : Option (α × State)} {c : Prop} [Decidable c] (ha : PairKeeps s0 a)
    (hb : PairKeeps s0 b) : PairKeeps s0 (if c then a else b) := by
  split <;> assumption

/-- The state of an answer that came. -/
theorem FstKeeps.of_eq {α : Type} {s0 t : State} {a : α} {o : Option (State × α)} (h : FstKeeps s0 o)
    (he : o = Option.some (t, a)) : Keeps s0 t :=
  h.out t a he

theorem FstKeeps.none {α : Type} (s0 : State) : FstKeeps (α := α) s0 Option.none := ⟨fun _ _ e => nomatch e⟩

theorem FstKeeps.some {α : Type} {s0 t : State} {a : α} (h : Keeps s0 t) : FstKeeps s0 (Option.some (t, a)) :=
  ⟨fun _ _ e => (Prod.mk.inj (Option.some.inj e)).1 ▸ h⟩

theorem FstKeeps.ite {α : Type} {s0 : State} {a b : Option (State × α)} {c : Prop} [Decidable c] (ha : FstKeeps s0 a)
    (hb : FstKeeps s0 b) : FstKeeps s0 (if c then a else b) := by
  split <;> assumption

theorem FstKeeps.map {α β : Type} {s0 : State} {f : β → State × α} (hf : ∀ x, Keeps s0 (f x).1) (o : Option β) :
    FstKeeps s0 (o.map f) := by
  cases o with
  | none => exact FstKeeps.none _
  | some x =>
    refine ⟨fun t a e => ?_⟩
    have hx := hf x
    rw [Option.some.inj e] at hx
    exact hx

/-- The state of a pair that came. -/
theorem Keeps.of_fst {α : Type} {s0 t : State} {a : α} {o : State × α} (h : Keeps s0 o.1) (he : o = (t, a)) :
    Keeps s0 t := by
  rw [he] at h; exact h

/-- The state of a pair that came. -/
theorem Keeps.of_snd {α : Type} {s0 t : State} {a : α} {o : α × State} (h : Keeps s0 o.2) (he : o = (a, t)) :
    Keeps s0 t := by
  rw [he] at h; exact h

end Sys2Proof.Machine
end

