-- ==== Sys2Proof/Laws/KeepsOps.lean ====
section
/-!
SUPPORT. `Keeps` for the operations of Ops.
-/

namespace Sys2Proof.Machine

theorem setCell_keeps {s0 s : State} (h : Keeps s0 s) (g : Nat) (c : Cell) : Keeps s0 (setCell s g c) := by
  unfold setCell
  repeat' first
    | with_reducible assumption
    | with_reducible exact Nat.le_refl _
    | with_reducible exact id
    | with_reducible exact fun _ x => x
    | (fail_if_no_progress (with_reducible apply Keeps.lit))

theorem modCell_keeps {s0 s : State} (h : Keeps s0 s) (g : Nat) (f : Cell → Cell) : Keeps s0 (modCell s g f) := by
  unfold modCell
  repeat' first
    | with_reducible assumption
    | with_reducible apply setCell_keeps

theorem modDie_keeps {s0 s : State} (h : Keeps s0 s) (d : Nat) (f : Die → Die) : Keeps s0 (modDie s d f) := by
  unfold modDie
  repeat' first
    | with_reducible assumption
    | with_reducible exact Nat.le_refl _
    | with_reducible exact id
    | with_reducible exact fun _ x => x
    | (fail_if_no_progress (with_reducible apply Keeps.lit))

theorem modMd_keeps {s0 s : State} (h : Keeps s0 s) (m : Nat) (f : MemDie → MemDie) : Keeps s0 (modMd s m f) := by
  unfold modMd
  repeat' first
    | with_reducible assumption
    | with_reducible exact Nat.le_refl _
    | with_reducible exact id
    | with_reducible exact fun _ x => x
    | (fail_if_no_progress (with_reducible apply Keeps.lit))

theorem modGrp_keeps {s0 s : State} (h : Keeps s0 s) (g : Nat) (f : Grp → Grp) : Keeps s0 (modGrp s g f) := by
  unfold modGrp
  repeat' first
    | with_reducible assumption
    | with_reducible exact Nat.le_refl _
    | with_reducible exact id
    | with_reducible exact fun _ x => x
    | (fail_if_no_progress (with_reducible apply Keeps.lit))

theorem modPart_keeps {s0 s : State} (h : Keeps s0 s) (p : Nat) (f : Part → Part) : Keeps s0 (modPart s p f) := by
  unfold modPart
  repeat' first
    | with_reducible assumption
    | with_reducible exact Nat.le_refl _
    | with_reducible exact id
    | with_reducible exact fun _ x => x
    | (fail_if_no_progress (with_reducible apply Keeps.lit))

theorem modJob_keeps {s0 s : State} (h : Keeps s0 s) (p : Nat) (f : Job → Job) : Keeps s0 (modJob s p f) := by
  unfold modJob
  repeat' first
    | with_reducible assumption
    | with_reducible apply modPart_keeps

theorem modEngine_keeps {s0 s : State} (h : Keeps s0 s) (e : Nat) (f : Engine → Engine) :
    Keeps s0 (modEngine s e f) := by
  unfold modEngine
  repeat' first
    | with_reducible assumption
    | with_reducible exact Nat.le_refl _
    | with_reducible exact id
    | with_reducible exact fun _ x => x
    | (fail_if_no_progress (with_reducible apply Keeps.lit))

theorem modSess_keeps {s0 s : State} (h : Keeps s0 s) (n : Nat) (f : Sess → Sess) : Keeps s0 (modSess s n f) := by
  unfold modSess
  repeat' first
    | with_reducible assumption
    | with_reducible exact Nat.le_refl _
    | with_reducible exact id
    | with_reducible exact fun _ x => x
    | dsimp only
    | (fail_if_no_progress (with_reducible apply Keeps.lit))

theorem modPin_keeps {s0 s : State} (h : Keeps s0 s) (n : Nat) (f : Pin → Pin) : Keeps s0 (modPin s n f) := by
  unfold modPin
  repeat' first
    | with_reducible assumption
    | with_reducible exact Nat.le_refl _
    | with_reducible exact id
    | with_reducible exact fun _ x => x
    | (fail_if_no_progress (with_reducible apply Keeps.lit))

theorem odSet_keeps {s0 s : State} (h : Keeps s0 s) (a : Nat) (v : Nat) : Keeps s0 (odSet s a v) := by
  unfold odSet
  repeat' first
    | with_reducible assumption
    | with_reducible exact Nat.le_refl _
    | with_reducible exact id
    | with_reducible exact fun _ x => x
    | (fail_if_no_progress (with_reducible apply Keeps.lit))

theorem odAdd_keeps {s0 s : State} (h : Keeps s0 s) (a : Nat) (n : Nat) : Keeps s0 (odAdd s a n) := by
  unfold odAdd
  repeat' first
    | with_reducible assumption
    | with_reducible apply odSet_keeps

theorem odInc_keeps {s0 s : State} (h : Keeps s0 s) (a : Nat) : Keeps s0 (odInc s a) := by
  unfold odInc
  repeat' first
    | with_reducible assumption
    | with_reducible apply odAdd_keeps

theorem anem_keeps {s0 s : State} (h : Keeps s0 s) (unit : Nat) (event : Nat) (n : Nat) :
    Keeps s0 (anem s unit event n) := by
  unfold anem
  repeat' first
    | with_reducible assumption
    | with_reducible apply odAdd_keeps
    | with_reducible apply Keeps.ite
    | with_reducible refine Keeps.foldl ?_ _ _ (fun t x ht => ?_)

theorem odOr_keeps {s0 s : State} (h : Keeps s0 s) (a : Nat) (v : Nat) : Keeps s0 (odOr s a v) := by
  unfold odOr
  repeat' first
    | with_reducible assumption
    | with_reducible apply odSet_keeps

theorem emit_keeps {s0 s : State} (h : Keeps s0 s) (o : Out) : Keeps s0 (emit s o) := by
  unfold emit
  repeat' first
    | with_reducible assumption
    | with_reducible exact Nat.le_refl _
    | with_reducible exact id
    | with_reducible exact fun _ x => x
    | (fail_if_no_progress (with_reducible apply Keeps.lit))

theorem fresh_keeps {s0 s : State} (h : Keeps s0 s) : Keeps s0 (fresh s).2 := by
  unfold fresh
  repeat' first
    | with_reducible assumption
    | with_reducible exact Nat.le_refl _
    | with_reducible exact id
    | with_reducible exact fun _ x => x
    | with_reducible exact Nat.le_succ _
    | dsimp only
    | (fail_if_no_progress (with_reducible apply Keeps.lit))

theorem stageRec_keeps {s0 s : State} (h : Keeps s0 s) (r : AlmRec) : Keeps s0 (stageRec s r) := by
  unfold stageRec
  repeat' first
    | with_reducible assumption
    | with_reducible apply odInc_keeps
    | with_reducible apply odOr_keeps
    | with_reducible apply Keeps.ite
    | with_reducible exact Nat.le_refl _
    | with_reducible exact id
    | with_reducible exact fun _ x => x
    | with_reducible exact svnOf_le_of_eq rfl
    | dsimp only
    | (fail_if_no_progress (with_reducible apply Keeps.lit))

theorem notify_keeps {s0 s : State} (h : Keeps s0 s) : Keeps s0 (notify s) := by
  unfold notify
  repeat' first
    | with_reducible assumption
    | with_reducible apply emit_keeps
    | with_reducible apply Keeps.ite

theorem countTotal_keeps {s0 s : State} (h : Keeps s0 s) (cls : Nat) (n : Nat) : Keeps s0 (countTotal s cls n) := by
  unfold countTotal
  repeat' first
    | with_reducible assumption
    | with_reducible apply odAdd_keeps
    | split

theorem record_keeps {s0 s : State} (h : Keeps s0 s) (e : Rep) : Keeps s0 (record s e) := by
  unfold record
  repeat' first
    | with_reducible assumption
    | with_reducible apply odSet_keeps
    | with_reducible apply odOr_keeps
    | with_reducible apply stageRec_keeps
    | with_reducible apply countTotal_keeps
    | with_reducible apply Keeps.ite
    | dsimp only
    | split

theorem report_keeps {s0 s : State} (h : Keeps s0 s) (e : Rep) : Keeps s0 (report s e) := by
  unfold report
  repeat' first
    | with_reducible assumption
    | with_reducible apply notify_keeps
    | with_reducible apply record_keeps
    | with_reducible apply Keeps.ite

theorem corrected_keeps {s0 s : State} (h : Keeps s0 s) (part : Option Nat) (unit : Nat) (addr : Nat) :
    Keeps s0 (corrected s part unit addr) := by
  unfold corrected
  repeat' first
    | with_reducible assumption
    | with_reducible apply odSet_keeps
    | with_reducible apply odOr_keeps
    | with_reducible apply fresh_keeps
    | with_reducible apply stageRec_keeps
    | with_reducible apply countTotal_keeps
    | with_reducible apply Keeps.ite
    | with_reducible exact Nat.le_refl _
    | with_reducible exact id
    | with_reducible exact fun _ x => x
    | with_reducible exact svnOf_le_of_eq rfl
    | dsimp only
    | split
    | (fail_if_no_progress (with_reducible apply Keeps.lit))

end Sys2Proof.Machine
end

