-- ==== Sys2Proof/Laws/KeepsErrors.lean ====
section
/-!
SUPPORT. `Keeps` for the operations of Errors.
-/

namespace Sys2Proof.Machine

theorem setState_keeps {s0 s : State} (h : Keeps s0 s) (p : Nat) (x : PState) : Keeps s0 (setState s p x) := by
  unfold setState
  repeat' first
    | with_reducible assumption
    | with_reducible apply odSet_keeps

theorem actionRec_keeps {s0 s : State} (h : Keeps s0 s) (a : Action) (phase : Nat) :
    Keeps s0 (actionRec s a phase) := by
  unfold actionRec
  repeat' first
    | with_reducible assumption
    | with_reducible apply stageRec_keeps
    | with_reducible apply notify_keeps

theorem showRecovery_keeps {s0 s : State} (h : Keeps s0 s) : Keeps s0 (showRecovery s) := by
  unfold showRecovery
  repeat' first
    | with_reducible assumption
    | with_reducible apply odSet_keeps

theorem startAction_keeps {s0 s : State} (h : Keeps s0 s) (a : Action) : Keeps s0 (startAction s a) := by
  unfold startAction
  repeat' first
    | with_reducible assumption
    | with_reducible apply setState_keeps
    | with_reducible apply actionRec_keeps
    | with_reducible apply showRecovery_keeps
    | with_reducible apply Keeps.ite
    | with_reducible refine Keeps.foldl ?_ _ _ (fun t x ht => ?_)
    | with_reducible exact Nat.le_refl _
    | with_reducible exact id
    | with_reducible exact fun _ x => x
    | dsimp only
    | (fail_if_no_progress (with_reducible apply Keeps.lit))

theorem queueAction_keeps {s0 s : State} (h : Keeps s0 s) (a : Action) (head : Bool) :
    Keeps s0 (queueAction s a head) := by
  unfold queueAction
  repeat' first
    | with_reducible assumption
    | with_reducible apply actionRec_keeps
    | with_reducible apply showRecovery_keeps
    | with_reducible exact Nat.le_refl _
    | with_reducible exact id
    | with_reducible exact fun _ x => x
    | dsimp only
    | split
    | (fail_if_no_progress (with_reducible apply Keeps.lit))

theorem escalated_keeps {s0 s : State} (h : Keeps s0 s) (ps : List Nat) : Keeps s0 (escalated s ps) := by
  unfold escalated
  repeat' first
    | with_reducible assumption
    | with_reducible apply odInc_keeps
    | with_reducible apply odOr_keeps
    | with_reducible refine Keeps.foldl ?_ _ _ (fun t x ht => ?_)

theorem widen_keeps {s0 s : State} (h : Keeps s0 s) (r : Action) : Keeps s0 (widen s r) := by
  unfold widen
  repeat' first
    | with_reducible assumption
    | with_reducible apply showRecovery_keeps
    | with_reducible apply escalated_keeps
    | with_reducible exact Nat.le_refl _
    | with_reducible exact id
    | with_reducible exact fun _ x => x
    | dsimp only
    | split
    | (fail_if_no_progress (with_reducible apply Keeps.lit))

theorem demand_keeps {s0 s : State} (h : Keeps s0 s) (a : Action) : Keeps s0 (demand s a) := by
  unfold demand
  repeat' first
    | with_reducible assumption
    | with_reducible apply startAction_keeps
    | with_reducible apply queueAction_keeps
    | with_reducible apply widen_keeps
    | with_reducible apply Keeps.ite
    | with_reducible exact Nat.le_refl _
    | with_reducible exact id
    | with_reducible exact fun _ x => x
    | dsimp only
    | split
    | (fail_if_no_progress (with_reducible apply Keeps.lit))

theorem escalateDie_keeps {s0 s : State} (h : Keeps s0 s) (code : Nat) (seq : Nat) (unit : Nat) (users : List Nat) :
    Keeps s0 (escalateDie s code seq unit users) := by
  unfold escalateDie
  repeat' first
    | with_reducible assumption
    | with_reducible apply actionRec_keeps
    | with_reducible apply queueAction_keeps
    | with_reducible apply escalated_keeps
    | with_reducible apply widen_keeps
    | with_reducible refine Keeps.foldl ?_ _ _ (fun t x ht => ?_)
    | with_reducible exact Nat.le_refl _
    | with_reducible exact id
    | with_reducible exact fun _ x => x
    | dsimp only
    | split
    | (fail_if_no_progress (with_reducible apply Keeps.lit))

theorem sharedFault_keeps {s0 s : State} (h : Keeps s0 s) (c : Code) (p : Option Nat) (unitNo : Nat) (first : Action) (die : Option Nat) (users : List Nat) :
    Keeps s0 (sharedFault s c p unitNo first die users) := by
  unfold sharedFault
  repeat' first
    | with_reducible assumption
    | with_reducible apply report_keeps
    | with_reducible apply startAction_keeps
    | with_reducible apply queueAction_keeps
    | with_reducible apply escalateDie_keeps
    | with_reducible apply Keeps.ite
    | split

theorem containErr_keeps {s0 s : State} (h : Keeps s0 s) (p : Nat) (c : Code) (unit : Nat) (wher : Nat) (addr : Nat) (swap : Option Nat) :
    Keeps s0 (containErr s p c unit wher addr swap) := by
  unfold containErr
  repeat' first
    | with_reducible assumption
    | with_reducible apply modPart_keeps
    | with_reducible apply notify_keeps
    | with_reducible apply record_keeps
    | with_reducible apply demand_keeps
    | with_reducible apply Keeps.ite

theorem cellErr_keeps {s0 s : State} (h : Keeps s0 s) (g : Nat) (c : Code) (addr : Nat) (swap : Bool) :
    Keeps s0 (cellErr s g c addr swap) := by
  unfold cellErr
  repeat' first
    | with_reducible assumption
    | with_reducible apply setCell_keeps
    | with_reducible apply containErr_keeps
    | dsimp only
    | split

theorem coreErr_keeps {s0 s : State} (h : Keeps s0 s) (p : Nat) (c : Code) (addr : Nat) :
    Keeps s0 (coreErr s p c addr) := by
  unfold coreErr
  repeat' first
    | with_reducible assumption
    | with_reducible apply containErr_keeps

theorem coreErrAt_keeps {s0 s : State} (h : Keeps s0 s) (p : Nat) (k : Nat) (c : Code) (addr : Nat) :
    Keeps s0 (coreErrAt s p k c addr) := by
  unfold coreErrAt
  repeat' first
    | with_reducible assumption
    | with_reducible apply containErr_keeps

theorem deferred_keeps {s0 s : State} (h : Keeps s0 s) (p : Option Nat) (c : Code) (unit : Nat) (addr : Nat) :
    Keeps s0 (deferred s p c unit addr) := by
  unfold deferred
  repeat' first
    | with_reducible assumption
    | with_reducible apply report_keeps

theorem fatalErr_keeps {s0 s : State} (h : Keeps s0 s) (c : Code) (unit : Nat) : Keeps s0 (fatalErr s c unit) := by
  unfold fatalErr
  repeat' first
    | with_reducible assumption
    | with_reducible apply emit_keeps
    | with_reducible apply report_keeps
    | with_reducible apply startAction_keeps
    | with_reducible exact Nat.le_refl _
    | with_reducible exact id
    | with_reducible exact fun _ x => x
    | split
    | (fail_if_no_progress (with_reducible apply Keeps.lit))

theorem recordOnly_keeps {s0 s : State} (h : Keeps s0 s) (c : Code) (cls : Nat) (p : Option Nat) (unit : Nat) (arg : Nat) :
    Keeps s0 (recordOnly s c cls p unit arg) := by
  unfold recordOnly
  repeat' first
    | with_reducible assumption
    | with_reducible apply report_keeps

end Sys2Proof.Machine
end

