-- ==== Sys2Proof/Laws/KeepsFarMem.lean ====
section
/-!
SUPPORT. `Keeps` for the operations of FarMem.
-/

namespace Sys2Proof.Machine

theorem modLines_keeps {s0 s : State} (h : Keeps s0 s) (block : Nat) (f : List Line → List Line) :
    Keeps s0 (modLines s block f) := by
  unfold modLines
  repeat' first
    | with_reducible assumption
    | with_reducible apply modMd_keeps

theorem touchLine_keeps {s0 s : State} (h : Keeps s0 s) (l : Line) : Keeps s0 (touchLine s l) := by
  unfold touchLine
  repeat' first
    | with_reducible assumption
    | with_reducible apply modLines_keeps

theorem dropLine_keeps {s0 s : State} (h : Keeps s0 s) (l : Line) : Keeps s0 (dropLine s l) := by
  unfold dropLine
  repeat' first
    | with_reducible assumption
    | with_reducible apply modLines_keeps

theorem injectFlips_keeps {s0 s : State} (h : Keeps s0 s) (p : Nat) (a : Nat) (errs : List SymErr) :
    Keeps s0 (injectFlips s p a errs) := by
  unfold injectFlips
  repeat' first
    | with_reducible assumption
    | with_reducible refine Keeps.foldl ?_ _ _ (fun t x ht => ?_)
    | with_reducible exact Nat.le_refl _
    | with_reducible exact id
    | with_reducible exact fun _ x => x
    | (fail_if_no_progress (with_reducible apply Keeps.lit))

theorem setFlips_keeps {s0 s : State} (h : Keeps s0 s) (key : Nat) (f : Nat → Nat → Nat) :
    Keeps s0 (setFlips s key f) := by
  unfold setFlips
  repeat' first
    | with_reducible assumption
    | with_reducible apply Keeps.ite
    | with_reducible refine Keeps.foldl ?_ _ _ (fun t x ht => ?_)
    | with_reducible exact Nat.le_refl _
    | with_reducible exact id
    | with_reducible exact fun _ x => x
    | dsimp only
    | split
    | (fail_if_no_progress (with_reducible apply Keeps.lit))

theorem clearFlips_keeps {s0 s : State} (h : Keeps s0 s) (key : Nat) (n : Nat) : Keeps s0 (clearFlips s key n) := by
  unfold clearFlips
  repeat' first
    | with_reducible assumption
    | with_reducible apply setFlips_keeps

theorem setDramPoison_keeps {s0 s : State} (h : Keeps s0 s) (key : Nat) (mask : Nat) :
    Keeps s0 (setDramPoison s key mask) := by
  unfold setDramPoison
  repeat' first
    | with_reducible assumption
    | with_reducible exact Nat.le_refl _
    | with_reducible exact id
    | with_reducible exact fun _ x => x
    | dsimp only
    | (fail_if_no_progress (with_reducible apply Keeps.lit))

theorem asTenant_keeps {s0 s : State} (h : Keeps s0 s) (p : Nat) (t : Nat) : Keeps s0 (asTenant s p t) := by
  unfold asTenant
  repeat' first
    | with_reducible assumption
    | with_reducible apply modPart_keeps

theorem forTenant_keeps {s0 s : State} (h : Keeps s0 s) (p : Nat) (t : Nat) (f : State → State) (hf : ∀ t, Keeps s0 t → Keeps s0 (f t)) :
    Keeps s0 (forTenant s p t f) := by
  unfold forTenant
  repeat' first
    | with_reducible assumption
    | with_reducible apply modPart_keeps
    | with_reducible apply asTenant_keeps
    | with_reducible apply hf
    | with_reducible apply Keeps.ite

theorem farPut_keeps {s0 s : State} (h : Keeps s0 s) (p : Nat) (k : Nat) (bs : List Byte) :
    Keeps s0 (farPut s p k bs) := by
  unfold farPut
  repeat' first
    | with_reducible assumption
    | with_reducible apply Keeps.ite
    | with_reducible refine Keeps.foldl ?_ _ _ (fun t x ht => ?_)
    | with_reducible exact Nat.le_refl _
    | with_reducible exact id
    | with_reducible exact fun _ x => x
    | intro _
    | ((with_reducible apply mwrite_imp); rfl)
    | dsimp only
    | split
    | (fail_if_no_progress (with_reducible apply Keeps.lit))

theorem mscHit_keeps {s0 s : State} (h : Keeps s0 s) (p : Nat) (a : Nat) : Keeps s0 (mscHit s p a) := by
  unfold mscHit
  repeat' first
    | with_reducible assumption
    | with_reducible apply odInc_keeps
    | with_reducible apply anem_keeps

theorem mscMiss_keeps {s0 s : State} (h : Keeps s0 s) (p : Nat) (a : Nat) : Keeps s0 (mscMiss s p a) := by
  unfold mscMiss
  repeat' first
    | with_reducible assumption
    | with_reducible apply odInc_keeps
    | with_reducible apply anem_keeps

theorem retireErr_keeps {s0 s : State} (h : Keeps s0 s) (g : Nat) (code : Nat) (wher : Nat) (seq : Nat) :
    Keeps s0 (retireErr s g code wher seq) := by
  unfold retireErr
  repeat' first
    | with_reducible assumption
    | with_reducible apply demand_keeps

theorem groupPoisoned_keeps {s0 s : State} (h : Keeps s0 s) (g : Nat) (block : Nat) :
    Keeps s0 (groupPoisoned s g block) := by
  unfold groupPoisoned
  repeat' first
    | with_reducible assumption
    | with_reducible apply modGrp_keeps
    | with_reducible apply odInc_keeps
    | with_reducible apply deferred_keeps
    | with_reducible apply retireErr_keeps
    | with_reducible apply Keeps.ite

theorem putBytes_keeps {s0 s : State} (h : Keeps s0 s) (p : Nat) (blk : Nat) (bytes : Tbl Byte) (fl : List (Nat × Nat)) :
    Keeps s0 (putBytes s p blk bytes fl) := by
  unfold putBytes
  repeat' first
    | with_reducible assumption
    | with_reducible apply farPut_keeps
    | with_reducible apply Keeps.ite
    | with_reducible refine Keeps.foldl ?_ _ _ (fun t x ht => ?_)

theorem putPart_keeps {s0 s : State} (h : Keeps s0 s) (p : Nat) (base : Nat) (bytes : Tbl Byte) (poison : Nat) :
    Keeps s0 (putPart s p base bytes poison) := by
  unfold putPart
  repeat' first
    | with_reducible assumption
    | with_reducible apply odInc_keeps
    | with_reducible apply corrected_keeps
    | with_reducible apply setFlips_keeps
    | with_reducible apply clearFlips_keeps
    | with_reducible apply setDramPoison_keeps
    | with_reducible apply groupPoisoned_keeps
    | with_reducible apply putBytes_keeps
    | with_reducible apply Keeps.ite

theorem takeMerge_keeps {s0 s : State} (h : Keeps s0 s) (p : Nat) (block : Nat) :
    PairKeeps s0 (takeMerge s p block) := by
  unfold takeMerge
  cases mergeFor s p block with
  | none => exact PairKeeps.none _
  | some m => exact PairKeeps.some (modMd_keeps h _ _)

theorem storeMeta_keeps {s0 s : State} (h : Keeps s0 s) (p : Nat) (a : Nat) (w : Nat) :
    Keeps s0 (storeMeta s p a w) := by
  unfold storeMeta
  repeat' first
    | with_reducible assumption
    | with_reducible apply touchLine_keeps
    | with_reducible apply putPart_keeps
    | with_reducible apply takeMerge_keeps
    | with_reducible refine PairKeeps.of_eq ?_ (by with_reducible assumption)
    | dsimp only
    | split

theorem putStored_keeps {s0 s : State} (h : Keeps s0 s) (p : Nat) (k : Nat) (bs : List Byte) (poison : Nat) :
    Keeps s0 (putStored s p k bs poison) := by
  unfold putStored
  repeat' first
    | with_reducible assumption
    | with_reducible apply setFlips_keeps
    | with_reducible apply clearFlips_keeps
    | with_reducible apply setDramPoison_keeps
    | with_reducible apply farPut_keeps
    | with_reducible apply Keeps.ite

theorem storeBlock_keeps {s0 s : State} (h : Keeps s0 s) (p : Nat) (base : Nat) (blk : List Byte) (poison : Nat) :
    Keeps s0 (storeBlock s p base blk poison) := by
  unfold storeBlock
  repeat' first
    | with_reducible assumption
    | with_reducible apply odAdd_keeps
    | with_reducible apply odInc_keeps
    | with_reducible apply storeMeta_keeps
    | with_reducible apply putStored_keeps
    | with_reducible apply Keeps.ite
    | dsimp only
    | split

theorem writeBack_keeps {s0 s : State} (h : Keeps s0 s) (l : Line) : Keeps s0 (writeBack s l) := by
  unfold writeBack
  repeat' first
    | with_reducible assumption
    | with_reducible apply storeBlock_keeps
    | with_reducible apply Keeps.ite

theorem takeWay_keeps {s0 s : State} (h : Keeps s0 s) (p : Nat) (block : Nat) : PairKeeps s0 (takeWay s p block) := by
  unfold takeWay
  repeat' first
    | with_reducible assumption
    | with_reducible apply dropLine_keeps
    | with_reducible apply writeBack_keeps
    | with_reducible apply PairKeeps.some
    | with_reducible apply PairKeeps.none
    | dsimp only
    | split

theorem allocLine_keeps {s0 s : State} (h : Keeps s0 s) (p : Nat) (base : Nat) (data : List Byte) (poison : Nat) (dirty : Bool) (prot : Bool) (damaged : Bool) :
    Keeps s0 (allocLine s p base data poison dirty prot damaged) := by
  unfold allocLine
  repeat' first
    | with_reducible assumption
    | with_reducible apply touchLine_keeps
    | with_reducible apply takeWay_keeps
    | with_reducible refine PairKeeps.of_eq ?_ (by with_reducible assumption)
    | dsimp only
    | split

theorem dramRead_keeps {s0 s : State} (h : Keeps s0 s) (p : Nat) (base : Nat) (fill : Bool) :
    Keeps s0 (dramRead s p base fill).1 := by
  unfold dramRead
  repeat' first
    | with_reducible assumption
    | with_reducible apply odInc_keeps
    | with_reducible apply corrected_keeps
    | with_reducible apply deferred_keeps
    | with_reducible apply clearFlips_keeps
    | with_reducible apply setDramPoison_keeps
    | with_reducible apply groupPoisoned_keeps
    | with_reducible apply Keeps.ite
    | dsimp only
    | split

theorem rmwBlock_keeps {s0 s : State} (h : Keeps s0 s) (p : Nat) (base : Nat) (bytes : Tbl Byte) (poison : Nat) :
    Keeps s0 (rmwBlock s p base bytes poison) := by
  unfold rmwBlock
  repeat' first
    | with_reducible assumption
    | with_reducible apply odInc_keeps
    | with_reducible apply storeBlock_keeps
    | with_reducible apply dramRead_keeps
    | with_reducible apply Keeps.ite

theorem putMerged_keeps {s0 s : State} (h : Keeps s0 s) (p : Nat) (base : Nat) (bytes : Tbl Byte) (poison : Nat) :
    Keeps s0 (putMerged s p base bytes poison) := by
  unfold putMerged
  repeat' first
    | with_reducible assumption
    | with_reducible apply putPart_keeps
    | with_reducible apply storeBlock_keeps
    | with_reducible apply rmwBlock_keeps
    | with_reducible apply Keeps.ite
    | split

theorem closeMerge_keeps {s0 s : State} (h : Keeps s0 s) (p : Nat) (base : Nat) : Keeps s0 (closeMerge s p base) := by
  unfold closeMerge
  repeat' first
    | with_reducible assumption
    | with_reducible apply takeMerge_keeps
    | with_reducible apply putMerged_keeps
    | with_reducible refine PairKeeps.of_eq ?_ (by with_reducible assumption)
    | split

theorem holdWrite_keeps {s0 s : State} (h : Keeps s0 s) (p : Nat) (r : MoveRec) (h : HeldWrite) :
    Keeps s0 (holdWrite s p r h) := by
  unfold holdWrite
  repeat' first
    | with_reducible assumption
    | with_reducible apply modPart_keeps

theorem staleErr_keeps {s0 s : State} (h : Keeps s0 s) (p : Nat) (r : MoveRec) (cell : Option Nat) :
    Keeps s0 (staleErr s p r cell) := by
  unfold staleErr
  repeat' first
    | with_reducible assumption
    | with_reducible apply cellErr_keeps
    | with_reducible apply coreErr_keeps
    | split

theorem markBypass_keeps {s0 s : State} (h : Keeps s0 s) (p : Nat) (a : Nat) (n : Nat) (src : Writer) :
    Keeps s0 (markBypass s p a n src) := by
  unfold markBypass
  repeat' first
    | with_reducible assumption
    | with_reducible apply odOr_keeps
    | with_reducible apply Keeps.ite

theorem metaTouch_keeps {s0 s : State} (h : Keeps s0 s) (p : Nat) (base : Nat) (hint : Nat) :
    Keeps s0 (metaTouch s p base hint) := by
  unfold metaTouch
  repeat' first
    | with_reducible assumption
    | with_reducible apply touchLine_keeps
    | with_reducible apply allocLine_keeps
    | with_reducible apply dramRead_keeps
    | with_reducible apply closeMerge_keeps
    | with_reducible apply Keeps.ite
    | dsimp only
    | split

theorem drizzleMiss_keeps {s0 s : State} (h : Keeps s0 s) (p : Nat) (a : Nat) : Keeps s0 (drizzleMiss s p a) := by
  unfold drizzleMiss
  repeat' first
    | with_reducible assumption
    | with_reducible apply odInc_keeps
    | with_reducible apply dramRead_keeps
    | with_reducible apply Keeps.ite
    | dsimp only
    | split

theorem readPiece_keeps {s0 s : State} (h : Keeps s0 s) (p : Nat) (a : Nat) (n : Nat) (hint : Nat) :
    Keeps s0 (readPiece s p a n hint) := by
  unfold readPiece
  repeat' first
    | with_reducible assumption
    | with_reducible apply odInc_keeps
    | with_reducible apply touchLine_keeps
    | with_reducible apply dropLine_keeps
    | with_reducible apply mscHit_keeps
    | with_reducible apply mscMiss_keeps
    | with_reducible apply allocLine_keeps
    | with_reducible apply dramRead_keeps
    | with_reducible apply closeMerge_keeps
    | with_reducible apply metaTouch_keeps
    | with_reducible apply drizzleMiss_keeps
    | with_reducible apply Keeps.ite
    | dsimp only
    | split

theorem farRead_keeps {s0 s : State} (h : Keeps s0 s) (p : Nat) (a : Nat) (n : Nat) (hint : Nat) :
    Keeps s0 (farRead s p a n hint) := by
  unfold farRead
  repeat' first
    | with_reducible assumption
    | with_reducible apply readPiece_keeps
    | with_reducible refine Keeps.foldl ?_ _ _ (fun t x ht => ?_)

theorem writePiece_keeps {s0 s : State} (h : Keeps s0 s) (p : Nat) (a : Nat) (hint : Nat) (src : Writer) (bs : List Byte) (poison : Bool) (window : Bool) :
    Keeps s0 (writePiece s p a hint src bs poison window) := by
  unfold writePiece
  repeat' first
    | with_reducible assumption
    | with_reducible apply modMd_keeps
    | with_reducible apply odInc_keeps
    | with_reducible apply cellErr_keeps
    | with_reducible apply coreErr_keeps
    | with_reducible apply touchLine_keeps
    | with_reducible apply mscHit_keeps
    | with_reducible apply mscMiss_keeps
    | with_reducible apply allocLine_keeps
    | with_reducible apply dramRead_keeps
    | with_reducible apply putMerged_keeps
    | with_reducible apply closeMerge_keeps
    | with_reducible apply markBypass_keeps
    | with_reducible apply metaTouch_keeps
    | with_reducible apply Keeps.ite
    | dsimp only
    | split

theorem farWrite_keeps {s0 s : State} (h : Keeps s0 s) (p : Nat) (a : Nat) (hint : Nat) (src : Writer) (bs : List Byte) (poison : Bool) :
    Keeps s0 (farWrite s p a hint src bs poison) := by
  unfold farWrite
  repeat' first
    | with_reducible assumption
    | with_reducible apply writePiece_keeps
    | with_reducible refine Keeps.foldl ?_ _ _ (fun t x ht => ?_)

theorem maintain_keeps {s0 s : State} (h : Keeps s0 s) (p : Nat) (base : Nat) (size : Nat) (clean : Bool) (discard : Bool) :
    Keeps s0 (maintain s p base size clean discard) := by
  unfold maintain
  repeat' first
    | with_reducible assumption
    | with_reducible apply touchLine_keeps
    | with_reducible apply dropLine_keeps
    | with_reducible apply writeBack_keeps
    | with_reducible apply closeMerge_keeps
    | with_reducible apply Keeps.ite
    | with_reducible refine Keeps.foldl ?_ _ _ (fun t x ht => ?_)

theorem rekeyHost_keeps {s0 s : State} (h : Keeps s0 s) (key : Nat) (u : Nat) : Keeps s0 (rekeyHost s key u) := by
  unfold rekeyHost
  repeat' first
    | with_reducible assumption
    | with_reducible apply Keeps.ite
    | with_reducible exact Nat.le_refl _
    | with_reducible exact id
    | with_reducible exact fun _ x => x
    | intro _
    | ((with_reducible apply mwrite_imp); rfl)
    | (fail_if_no_progress (with_reducible apply Keeps.lit))

theorem hostBytes_keeps {s0 s : State} (h : Keeps s0 s) (x : Nat) (key : Nat → Nat) (bs : List Byte) :
    Keeps s0 (hostBytes s x key bs) := by
  unfold hostBytes
  repeat' first
    | with_reducible assumption
    | with_reducible apply rekeyHost_keeps
    | with_reducible refine Keeps.foldl ?_ _ _ (fun t x ht => ?_)
    | with_reducible exact Nat.le_refl _
    | with_reducible exact id
    | with_reducible exact fun _ x => x
    | intro _
    | ((with_reducible apply mwrite_imp); rfl)
    | dsimp only
    | (fail_if_no_progress (with_reducible apply Keeps.lit))

theorem hostStore_keeps {s0 s : State} (h : Keeps s0 s) (p : Nat) (a : Nat) (bs : List Byte) (poison : Bool) :
    Keeps s0 (hostStore s p a bs poison) := by
  unfold hostStore
  repeat' first
    | with_reducible assumption
    | with_reducible apply odAdd_keeps
    | with_reducible apply hostBytes_keeps
    | with_reducible exact Nat.le_refl _
    | with_reducible exact id
    | with_reducible exact fun _ x => x
    | dsimp only
    | split
    | (fail_if_no_progress (with_reducible apply Keeps.lit))

theorem ringSeen_keeps {s0 s : State} (h : Keeps s0 s) (p : Nat) (base : Nat) (off : Nat) (n : Nat) :
    Keeps s0 (ringSeen s p base off n) := by
  unfold ringSeen
  repeat' first
    | with_reducible assumption
    | with_reducible apply odAdd_keeps
    | with_reducible apply farRead_keeps
    | with_reducible apply Keeps.ite

theorem ringWrite_keeps {s0 s : State} (h : Keeps s0 s) (p : Nat) (base : Nat) (off : Nat) (bs : List Byte) :
    Keeps s0 (ringWrite s p base off bs) := by
  unfold ringWrite
  repeat' first
    | with_reducible assumption
    | with_reducible apply farWrite_keeps
    | with_reducible apply hostStore_keeps
    | with_reducible apply Keeps.ite

end Sys2Proof.Machine
end

