-- ==== Sys2Proof/Laws/KeepsFlags.lean ====
section
/-!
SUPPORT. `Keeps` for the operations of Flags.
-/

namespace Sys2Proof.Machine

theorem beginMiss_keeps {s0 s : State} (h : Keeps s0 s) (g : Nat) (c : MissCause) : Keeps s0 (beginMiss s g c) := by
  unfold beginMiss
  repeat' first
    | with_reducible assumption
    | with_reducible apply odSet_keeps
    | with_reducible apply odInc_keeps
    | with_reducible apply odOr_keeps
    | with_reducible apply Keeps.ite
    | dsimp only
    | split

theorem missCycles_keeps {s0 s : State} (h : Keeps s0 s) (g : Nat) (n : Nat) : Keeps s0 (missCycles s g n) := by
  unfold missCycles
  repeat' first
    | with_reducible assumption
    | with_reducible apply modCell_keeps
    | with_reducible apply odAdd_keeps
    | with_reducible apply anem_keeps

theorem countWait_keeps {s0 s : State} (h : Keeps s0 s) (p : Option Nat) (n : Nat) : Keeps s0 (countWait s p n) := by
  unfold countWait
  repeat' first
    | with_reducible assumption
    | with_reducible apply odAdd_keeps
    | split

theorem waitCycles_keeps {s0 s : State} (h : Keeps s0 s) (g : Nat) (n : Nat) : Keeps s0 (waitCycles s g n) := by
  unfold waitCycles
  repeat' first
    | with_reducible assumption
    | with_reducible apply modCell_keeps
    | with_reducible apply countWait_keeps

theorem cellFaulty_keeps {s0 s : State} (h : Keeps s0 s) (g : Nat) (c : Code) (seq : Nat) :
    Keeps s0 (cellFaulty s g c seq) := by
  unfold cellFaulty
  repeat' first
    | with_reducible assumption
    | with_reducible apply demand_keeps
    | split

theorem scratchPoisoned_keeps {s0 s : State} (h : Keeps s0 s) (g : Nat) (word : Nat) :
    Keeps s0 (scratchPoisoned s g word) := by
  unfold scratchPoisoned
  repeat' first
    | with_reducible assumption
    | with_reducible apply setCell_keeps
    | with_reducible apply odInc_keeps
    | with_reducible apply deferred_keeps
    | with_reducible apply cellFaulty_keeps
    | with_reducible apply Keeps.ite

theorem scratchFound_keeps {s0 s : State} (h : Keeps s0 s) (g : Nat) (u : Upset) : Keeps s0 (scratchFound s g u) := by
  unfold scratchFound
  repeat' first
    | with_reducible assumption
    | with_reducible apply odInc_keeps
    | with_reducible apply corrected_keeps
    | with_reducible apply scratchPoisoned_keeps
    | with_reducible apply Keeps.ite

theorem keepUpsets_keeps {s0 s : State} (h : Keeps s0 s) (g : Nat) (f : Upset → Bool) :
    Keeps s0 (keepUpsets s g f) := by
  unfold keepUpsets
  repeat' first
    | with_reducible assumption
    | with_reducible apply modCell_keeps

theorem upsetScratch_keeps {s0 s : State} (h : Keeps s0 s) (g : Nat) (us : List Upset) :
    Keeps s0 (upsetScratch s g us) := by
  unfold upsetScratch
  repeat' first
    | with_reducible assumption
    | with_reducible apply modCell_keeps
    | with_reducible apply Keeps.ite

theorem scratchCheck_keeps {s0 s : State} (h : Keeps s0 s) (g : Nat) (words : List Nat) :
    Keeps s0 (scratchCheck s g words) := by
  unfold scratchCheck
  repeat' first
    | with_reducible assumption
    | with_reducible apply scratchFound_keeps
    | with_reducible apply keepUpsets_keeps
    | with_reducible apply Keeps.ite
    | with_reducible refine Keeps.foldl ?_ _ _ (fun t x ht => ?_)

theorem scratchMerge_keeps {s0 s : State} (h : Keeps s0 s) (g : Nat) (a : Nat) (n : Nat) :
    Keeps s0 (scratchMerge s g a n) := by
  unfold scratchMerge
  repeat' first
    | with_reducible assumption
    | with_reducible apply scratchFound_keeps
    | with_reducible apply keepUpsets_keeps
    | with_reducible apply Keeps.ite
    | with_reducible refine Keeps.foldl ?_ _ _ (fun t x ht => ?_)

theorem stratusFound_keeps {s0 s : State} (h : Keeps s0 s) (d : Nat) (u : Upset) : Keeps s0 (stratusFound s d u) := by
  unfold stratusFound
  repeat' first
    | with_reducible assumption
    | with_reducible apply modDie_keeps
    | with_reducible apply odInc_keeps
    | with_reducible apply corrected_keeps
    | with_reducible apply deferred_keeps
    | with_reducible apply Keeps.ite

theorem upsetStratus_keeps {s0 s : State} (h : Keeps s0 s) (d : Nat) (us : List Upset) :
    Keeps s0 (upsetStratus s d us) := by
  unfold upsetStratus
  repeat' first
    | with_reducible assumption
    | with_reducible apply modDie_keeps
    | with_reducible apply Keeps.ite

theorem stratusCheck_keeps {s0 s : State} (h : Keeps s0 s) (d : Nat) (units : List Nat) :
    Keeps s0 (stratusCheck s d units) := by
  unfold stratusCheck
  repeat' first
    | with_reducible assumption
    | with_reducible apply modDie_keeps
    | with_reducible apply stratusFound_keeps
    | with_reducible apply Keeps.ite
    | with_reducible refine Keeps.foldl ?_ _ _ (fun t x ht => ?_)

theorem stratusMerge_keeps {s0 s : State} (h : Keeps s0 s) (d : Nat) (a : Nat) (n : Nat) :
    Keeps s0 (stratusMerge s d a n) := by
  unfold stratusMerge
  repeat' first
    | with_reducible assumption
    | with_reducible apply modDie_keeps
    | with_reducible apply stratusFound_keeps
    | with_reducible apply Keeps.ite
    | with_reducible refine Keeps.foldl ?_ _ _ (fun t x ht => ?_)

theorem mergeSlot_keeps {s0 s : State} (h : Keeps s0 s) (p : Nat) (a : Amax) : Keeps s0 (mergeSlot s p a) := by
  unfold mergeSlot
  repeat' first
    | with_reducible assumption
    | with_reducible apply modPart_keeps

theorem mergeEntry_keeps {s0 s : State} (h : Keeps s0 s) (g : Nat) (a : Amax) : Keeps s0 (mergeEntry s g a) := by
  unfold mergeEntry
  repeat' first
    | with_reducible assumption
    | with_reducible apply mergeSlot_keeps
    | split

theorem amaxRoom_keeps {s0 s : State} (h : Keeps s0 s) (g : Nat) (slot : Nat) : Keeps s0 (amaxRoom s g slot).1 := by
  unfold amaxRoom
  repeat' first
    | with_reducible assumption
    | with_reducible apply setCell_keeps
    | with_reducible apply mergeEntry_keeps
    | with_reducible apply Keeps.iteFst
    | split

theorem amaxFold_keeps {s0 s : State} (h : Keeps s0 s) (g : Nat) (e : Amax) (stall : Bool) :
    Keeps s0 (amaxFold s g e stall) := by
  unfold amaxFold
  repeat' first
    | with_reducible assumption
    | with_reducible apply modCell_keeps
    | with_reducible apply fresh_keeps
    | with_reducible apply beginMiss_keeps
    | with_reducible apply missCycles_keeps
    | with_reducible apply waitCycles_keeps
    | with_reducible apply amaxRoom_keeps
    | with_reducible apply Keeps.ite

theorem amaxSpec_keeps {s0 s : State} (h : Keeps s0 s) (g : Nat) (pred : Nat) (e : Amax) :
    OptKeeps s0 (amaxSpec s g pred e) := by
  unfold amaxSpec
  repeat' first
    | with_reducible assumption
    | with_reducible apply setCell_keeps
    | with_reducible apply OptKeeps.some
    | with_reducible apply OptKeeps.none
    | with_reducible apply OptKeeps.ite

theorem amaxFlush_keeps {s0 s : State} (h : Keeps s0 s) (g : Nat) : Keeps s0 (amaxFlush s g) := by
  unfold amaxFlush
  repeat' first
    | with_reducible assumption
    | with_reducible apply modCell_keeps
    | with_reducible apply mergeEntry_keeps
    | with_reducible refine Keeps.foldl ?_ _ _ (fun t x ht => ?_)

end Sys2Proof.Machine
end

