-- ==== Sys2Proof/Laws/KeepsSpaces.lean ====
section
/-!
SUPPORT. `Keeps` for the operations of Spaces.
-/

namespace Sys2Proof.Machine

theorem scratchPut_keeps {s0 s : State} (h : Keeps s0 s) (g : Nat) (phys : Nat) (bs : List Byte) (poison : Bool) :
    Keeps s0 (scratchPut s g phys bs poison) := by
  unfold scratchPut
  repeat' first
    | with_reducible assumption
    | with_reducible apply modCell_keeps
    | with_reducible apply scratchMerge_keeps

theorem scratchWrite_keeps {s0 s : State} (h : Keeps s0 s) (g : Nat) (a : Nat) (bs : List Byte) (poison : Bool) :
    Keeps s0 (scratchWrite s g a bs poison) := by
  unfold scratchWrite
  repeat' first
    | with_reducible assumption
    | with_reducible apply modCell_keeps
    | with_reducible apply scratchPut_keeps
    | with_reducible refine Keeps.foldl ?_ _ _ (fun t x ht => ?_)

theorem noteForeign_keeps {s0 s : State} (h : Keeps s0 s) (g : Nat) (page : Nat) :
    Keeps s0 (noteForeign s g page) := by
  unfold noteForeign
  repeat' first
    | with_reducible assumption
    | with_reducible apply odSet_keeps
    | with_reducible apply odInc_keeps
    | split

theorem scratchForeign_keeps {s0 s : State} (h : Keeps s0 s) (g : Nat) (a : Nat) (bs : List Byte) (poison : Bool) :
    Keeps s0 (scratchForeign s g a bs poison) := by
  unfold scratchForeign
  repeat' first
    | with_reducible assumption
    | with_reducible apply scratchPut_keeps
    | with_reducible apply noteForeign_keeps
    | with_reducible refine Keeps.foldl ?_ _ _ (fun t x ht => ?_)

theorem stratusSeen_keeps {s0 s : State} (h : Keeps s0 s) (p : Nat) (cell : Option Nat) (a : Nat) (n : Nat) :
    Keeps s0 (stratusSeen s p cell a n) := by
  unfold stratusSeen
  repeat' first
    | with_reducible assumption
    | with_reducible apply stratusCheck_keeps
    | with_reducible refine Keeps.foldl ?_ _ _ (fun t x ht => ?_)

theorem stratusStore_keeps {s0 s : State} (h : Keeps s0 s) (d : Nat) (phys : Nat) (bs : List Byte) (poison : Bool) :
    Keeps s0 (stratusStore s d phys bs poison) := by
  unfold stratusStore
  repeat' first
    | with_reducible assumption
    | with_reducible apply modDie_keeps
    | with_reducible apply stratusMerge_keeps

theorem stratusWrite_keeps {s0 s : State} (h : Keeps s0 s) (p : Nat) (cell : Option Nat) (a : Nat) (bs : List Byte) (poison : Bool) :
    Keeps s0 (stratusWrite s p cell a bs poison) := by
  unfold stratusWrite
  repeat' first
    | with_reducible assumption
    | with_reducible apply setCell_keeps
    | with_reducible apply odSet_keeps
    | with_reducible apply odInc_keeps
    | with_reducible apply stratusStore_keeps
    | with_reducible apply Keeps.ite
    | with_reducible refine Keeps.foldl ?_ _ _ (fun t x ht => ?_)
    | dsimp only
    | split

theorem countLost_keeps {s0 s : State} (h : Keeps s0 s) (p : Nat) (master : Nat) (n : Nat) :
    Keeps s0 (countLost s p master n) := by
  unfold countLost
  repeat' first
    | with_reducible assumption
    | with_reducible apply odAdd_keeps
    | with_reducible apply Keeps.ite

theorem bankHeld_keeps {s0 s : State} (h : Keeps s0 s) (p : Nat) (g : Nat) (n : Nat) :
    Keeps s0 (bankHeld s p g n) := by
  unfold bankHeld
  repeat' first
    | with_reducible assumption
    | with_reducible apply odAdd_keeps
    | with_reducible apply beginMiss_keeps
    | with_reducible apply missCycles_keeps
    | with_reducible apply Keeps.ite

theorem bankAsk_keeps {s0 s : State} (h : Keeps s0 s) (p : Nat) (g : Nat) (master : Nat) (words : List Nat) :
    Keeps s0 (bankAsk s p g master words) := by
  unfold bankAsk
  repeat' first
    | with_reducible assumption
    | with_reducible apply modCell_keeps
    | with_reducible apply countLost_keeps
    | with_reducible apply bankHeld_keeps
    | with_reducible apply Keeps.ite

theorem fabricPut_keeps {s0 s : State} (h : Keeps s0 s) (k : FabPkt) : Keeps s0 (fabricPut s k) := by
  unfold fabricPut
  repeat' first
    | with_reducible assumption
    | with_reducible exact Nat.le_refl _
    | with_reducible exact id
    | with_reducible exact fun _ x => x
    | dsimp only
    | (fail_if_no_progress (with_reducible apply Keeps.lit))

theorem staleAt_keeps {s0 s : State} (h : Keeps s0 s) (p : Nat) (g : Nat) (space : Nat) (a : Nat) (n : Nat) :
    OptKeeps s0 (staleAt s p g space a n) := by
  unfold staleAt
  repeat' first
    | with_reducible assumption
    | with_reducible apply staleErr_keeps
    | with_reducible apply OptKeeps.some
    | with_reducible apply OptKeeps.none
    | with_reducible apply OptKeeps.ite
    | split

theorem scratchPlace_keeps {s0 s : State} (h : Keeps s0 s) (p : Nat) (g : Nat) (a : Nat) (bs : List Byte) (poison : Bool) :
    Keeps s0 (scratchPlace s p g a bs poison) := by
  unfold scratchPlace
  repeat' first
    | with_reducible assumption
    | with_reducible apply scratchWrite_keeps
    | with_reducible apply scratchForeign_keeps
    | with_reducible apply Keeps.ite

theorem placeWrite_keeps {s0 s : State} (h : Keeps s0 s) (p : Nat) (g : Nat) (space : Nat) (base : Nat) (a : Nat) (bs : List Byte) (poison : Bool) :
    Keeps s0 (placeWrite s p g space base a bs poison) := by
  unfold placeWrite
  repeat' first
    | with_reducible assumption
    | with_reducible apply writePiece_keeps
    | with_reducible apply hostStore_keeps
    | with_reducible apply stratusWrite_keeps
    | with_reducible apply scratchPlace_keeps
    | with_reducible refine Keeps.foldl ?_ _ _ (fun t x ht => ?_)
    | split

theorem spaceWrite_keeps {s0 s : State} (h : Keeps s0 s) (p : Nat) (g : Nat) (space : Nat) (base : Nat) (a : Nat) (bs : List Byte) (poison : Bool) :
    Keeps s0 (spaceWrite s p g space base a bs poison) := by
  unfold spaceWrite
  repeat' first
    | with_reducible assumption
    | with_reducible apply modCell_keeps
    | with_reducible apply holdWrite_keeps
    | with_reducible apply staleErr_keeps
    | with_reducible apply beginMiss_keeps
    | with_reducible apply placeWrite_keeps
    | with_reducible apply Keeps.ite
    | with_reducible refine Keeps.foldl ?_ _ _ (fun t x ht => ?_)
    | dsimp only
    | split

end Sys2Proof.Machine
end

