-- ==== Sys2Proof/Laws/KeepsStreams.lean ====
section
/-!
SUPPORT. `Keeps` for the operations of Streams.
-/

namespace Sys2Proof.Machine

theorem startChecked_keeps {s0 s : State} (h : Keeps s0 s) (g : Nat) (desc : Nat) (tiled : Bool) :
    Keeps s0 (startChecked s g desc tiled) := by
  unfold startChecked
  repeat' first
    | with_reducible assumption
    | with_reducible apply scratchCheck_keeps

theorem writeBoxes_keeps {s0 s : State} (h : Keeps s0 s) (p : Nat) (g : Nat) (d : StreamDesc) (bs : List Byte) :
    Keeps s0 (writeBoxes s p g d bs) := by
  unfold writeBoxes
  repeat' first
    | with_reducible assumption
    | with_reducible apply odInc_keeps
    | with_reducible apply scratchWrite_keeps
    | with_reducible apply Keeps.ite
    | with_reducible refine Keeps.foldl ?_ _ _ (fun t x ht => ?_)

theorem joinGroup_keeps {s0 s : State} (h : Keeps s0 s) (g : Nat) (stream : Nat) (t : TileDesc) (start : InStream) :
    OptKeeps s0 (joinGroup s g stream t start) := by
  unfold joinGroup
  repeat' first
    | with_reducible assumption
    | with_reducible apply modDie_keeps
    | with_reducible apply OptKeeps.some
    | with_reducible apply OptKeeps.none
    | with_reducible apply OptKeeps.ite

theorem startIn_keeps {s0 s : State} (h : Keeps s0 s) (g : Nat) (stream : Nat) (desc : Nat) (near : Nat) (addr : Nat) :
    Keeps s0 (startIn s g stream desc near addr) := by
  unfold startIn
  repeat' first
    | with_reducible assumption
    | with_reducible apply setCell_keeps
    | with_reducible apply cellErr_keeps
    | with_reducible apply startChecked_keeps
    | with_reducible apply writeBoxes_keeps
    | with_reducible apply joinGroup_keeps
    | with_reducible apply Keeps.ite
    | with_reducible apply OptKeeps.getD
    | dsimp only
    | split

theorem startOut_keeps {s0 s : State} (h : Keeps s0 s) (g : Nat) (stream : Nat) (desc : Nat) (near : Nat) (addr : Nat) :
    Keeps s0 (startOut s g stream desc near addr) := by
  unfold startOut
  repeat' first
    | with_reducible assumption
    | with_reducible apply setCell_keeps
    | with_reducible apply cellErr_keeps
    | with_reducible apply startChecked_keeps
    | dsimp only
    | split

theorem familyCount_keeps {s0 s : State} (h : Keeps s0 s) (p : Nat) (x : InStream) (k : Nat) :
    Keeps s0 (familyCount s p x k) := by
  unfold familyCount
  repeat' first
    | with_reducible assumption
    | with_reducible apply odInc_keeps
    | with_reducible apply Keeps.ite
    | dsimp only
    | split

theorem admitReserved_keeps {s0 s : State} (h : Keeps s0 s) (p : Nat) (addr : Nat) (len : Nat) :
    Keeps s0 (admitReserved s p addr len) := by
  unfold admitReserved
  repeat' first
    | with_reducible assumption
    | with_reducible apply modMd_keeps
    | with_reducible apply odInc_keeps
    | with_reducible apply Keeps.ite

theorem readEffects_keeps {s0 s : State} (h : Keeps s0 s) (p : Nat) (x : InStream) (k : Nat) (reserved : Bool) :
    Keeps s0 (readEffects s p x k reserved) := by
  unfold readEffects
  repeat' first
    | with_reducible assumption
    | with_reducible apply farRead_keeps
    | with_reducible apply admitReserved_keeps
    | with_reducible apply Keeps.ite
    | with_reducible refine Keeps.foldl ?_ _ _ (fun t x ht => ?_)

theorem readChecks_keeps {s0 s : State} (h : Keeps s0 s) (p : Nat) (g : Nat) (x : InStream) (k : Nat) :
    Keeps s0 (readChecks s p g x k) := by
  unfold readChecks
  repeat' first
    | with_reducible assumption
    | with_reducible apply scratchCheck_keeps
    | with_reducible apply stratusSeen_keeps
    | with_reducible apply bankAsk_keeps
    | with_reducible apply Keeps.ite
    | with_reducible refine Keeps.foldl ?_ _ _ (fun t x ht => ?_)
    | dsimp only
    | split

theorem putUnit_keeps {s0 s : State} (h : Keeps s0 s) (p : Nat) (g : Nat) (stream : Nat) (x : InStream) (u : Unit_) (free : Bool) :
    Keeps s0 (putUnit s p g stream x u free) := by
  unfold putUnit
  repeat' first
    | with_reducible assumption
    | with_reducible apply modCell_keeps
    | with_reducible apply odAdd_keeps
    | with_reducible apply cellErr_keeps
    | with_reducible apply countLost_keeps
    | with_reducible apply bankAsk_keeps
    | with_reducible apply spaceWrite_keeps
    | with_reducible apply familyCount_keeps
    | with_reducible apply Keeps.ite

theorem depositNext_keeps {s0 s : State} (h : Keeps s0 s) (g : Nat) (stream : Nat) (free : Bool) :
    Keeps s0 (depositNext s g stream free) := by
  unfold depositNext
  repeat' first
    | with_reducible assumption
    | with_reducible apply staleAt_keeps
    | with_reducible apply readEffects_keeps
    | with_reducible apply readChecks_keeps
    | with_reducible apply putUnit_keeps
    | with_reducible apply Keeps.ite
    | with_reducible refine OptKeeps.of_eq ?_ (by with_reducible assumption)
    | with_reducible refine OptKeeps.findSome (fun x => ?_) _
    | dsimp only
    | split

theorem foldAt_keeps {s0 s : State} (h : Keeps s0 s) (p : Nat) (g : Nat) (d : StreamDesc) (a : Nat) (e : Amax) :
    Keeps s0 (foldAt s p g d a e) := by
  unfold foldAt
  repeat' first
    | with_reducible assumption
    | with_reducible apply cellErr_keeps
    | with_reducible apply amaxFold_keeps
    | with_reducible apply amaxSpec_keeps
    | with_reducible apply OptKeeps.getD
    | dsimp only
    | split

theorem portWrite_keeps {s0 s : State} (h : Keeps s0 s) (g : Nat) (stream : Nat) (a : Nat) (bs : List Byte) (poison : Bool) :
    Keeps s0 (portWrite s g stream a bs poison) := by
  unfold portWrite
  repeat' first
    | with_reducible assumption
    | with_reducible apply modCell_keeps

theorem crossWrite_keeps {s0 s : State} (h : Keeps s0 s) (p : Nat) (g : Nat) (a : Nat) (bs : List Byte) (poison : Bool) :
    Keeps s0 (crossWrite s p g a bs poison) := by
  unfold crossWrite
  repeat' first
    | with_reducible assumption
    | with_reducible apply modDie_keeps
    | with_reducible refine Keeps.foldl ?_ _ _ (fun t x ht => ?_)

theorem outWrite_keeps {s0 s : State} (h : Keeps s0 s) (p : Nat) (g : Nat) (stream : Nat) (x : OutStream) (a : Nat) (bs : List Byte) (poison : Bool) :
    Keeps s0 (outWrite s p g stream x a bs poison) := by
  unfold outWrite
  repeat' first
    | with_reducible assumption
    | with_reducible apply odAdd_keeps
    | with_reducible apply bankAsk_keeps
    | with_reducible apply fabricPut_keeps
    | with_reducible apply spaceWrite_keeps
    | with_reducible apply portWrite_keeps
    | with_reducible apply crossWrite_keeps
    | with_reducible apply Keeps.ite
    | split

theorem drainAcc_keeps {s0 s : State} (h : Keeps s0 s) (p : Nat) (g : Nat) (stream : Nat) (x : OutStream) (t : TileDesc) (draws : List (BitVec 32)) :
    Keeps s0 (drainAcc s p g stream x t draws) := by
  unfold drainAcc
  repeat' first
    | with_reducible assumption
    | with_reducible apply foldAt_keeps
    | with_reducible apply outWrite_keeps
    | with_reducible refine Keeps.foldl ?_ _ _ (fun t x ht => ?_)
    | dsimp only
    | split

theorem flatWrite_keeps {s0 s : State} (h : Keeps s0 s) (p : Nat) (g : Nat) (stream : Nat) (x : OutStream) (off : Nat) (bs : List Byte) (poison : Bool) :
    Keeps s0 (flatWrite s p g stream x off bs poison) := by
  unfold flatWrite
  repeat' first
    | with_reducible assumption
    | with_reducible apply outWrite_keeps
    | with_reducible refine Keeps.foldlFst ?_ _ _ (fun t x ht => ?_)

theorem drainKv_keeps {s0 s : State} (h : Keeps s0 s) (p : Nat) (g : Nat) (stream : Nat) (x : OutStream) (near : List Byte) :
    Keeps s0 (drainKv s p g stream x near) := by
  unfold drainKv
  repeat' first
    | with_reducible assumption
    | with_reducible apply odAdd_keeps
    | with_reducible apply outWrite_keeps
    | with_reducible apply Keeps.ite
    | with_reducible refine Keeps.foldl ?_ _ _ (fun t x ht => ?_)

theorem drainNear_keeps {s0 s : State} (h : Keeps s0 s) (p : Nat) (g : Nat) (stream : Nat) (x : OutStream) (draws : List (BitVec 32)) :
    Keeps s0 (drainNear s p g stream x draws) := by
  unfold drainNear
  repeat' first
    | with_reducible assumption
    | with_reducible apply cellErr_keeps
    | with_reducible apply scratchCheck_keeps
    | with_reducible apply bankAsk_keeps
    | with_reducible apply foldAt_keeps
    | with_reducible apply outWrite_keeps
    | with_reducible apply flatWrite_keeps
    | with_reducible apply drainKv_keeps
    | with_reducible refine Keeps.foldl ?_ _ _ (fun t x ht => ?_)
    | dsimp only
    | split

theorem drainOne_keeps {s0 s : State} (h : Keeps s0 s) (g : Nat) (stream : Nat) (draws : List (BitVec 32)) :
    Keeps s0 (drainOne s g stream draws) := by
  unfold drainOne
  repeat' first
    | with_reducible assumption
    | with_reducible apply modCell_keeps
    | with_reducible apply staleAt_keeps
    | with_reducible apply drainAcc_keeps
    | with_reducible apply drainNear_keeps
    | with_reducible apply OptKeeps.none
    | with_reducible apply Keeps.ite
    | with_reducible apply OptKeeps.ite
    | with_reducible refine OptKeeps.of_eq ?_ (by with_reducible assumption)
    | dsimp only
    | split

theorem drainAll_keeps {s0 s : State} (h : Keeps s0 s) (g : Nat) (draws : List (BitVec 32)) :
    Keeps s0 (drainAll s g draws) := by
  unfold drainAll
  repeat' first
    | with_reducible assumption
    | with_reducible apply drainOne_keeps

theorem drainRest_keeps {s0 : State} (n : Nat) : ∀ {s : State}, Keeps s0 s → ∀ (g stream : Nat) (draws : List (BitVec 32)),
    Keeps s0 (drainRest n s g stream draws) := by
  induction n with
  | zero => intro s h g stream draws; exact h
  | succ n ih =>
    intro s h g stream draws
    rw [drainRest]
    exact Keeps.ite (ih (drainOne_keeps h ..) ..) h

theorem drainOut_keeps {s0 s : State} (h : Keeps s0 s) (g : Nat) : Keeps s0 (drainOut s g) := by
  unfold drainOut
  exact drainRest_keeps _ (drainRest_keeps _ h ..) ..

theorem leaveGroup_keeps {s0 s : State} (h : Keeps s0 s) (g : Nat) (grp : Nat) : Keeps s0 (leaveGroup s g grp) := by
  unfold leaveGroup
  repeat' first
    | with_reducible assumption
    | with_reducible apply modDie_keeps

theorem endIn_keeps {s0 s : State} (h : Keeps s0 s) (g : Nat) (stream : Nat) : Keeps s0 (endIn s g stream) := by
  unfold endIn
  repeat' first
    | with_reducible assumption
    | with_reducible apply modCell_keeps
    | with_reducible apply leaveGroup_keeps
    | dsimp only
    | split

end Sys2Proof.Machine
end

