-- ==== Sys2Proof/Laws/KeepsIssue.lean ====
section
/-!
SUPPORT. `Keeps` for the operations of Issue.
-/

namespace Sys2Proof.Machine

theorem bankMerge_keeps {s0 s : State} (h : Keeps s0 s) (g : Nat) (r : BankReq) : Keeps s0 (bankMerge s g r) := by
  unfold bankMerge
  repeat' first
    | with_reducible assumption
    | with_reducible apply scratchFound_keeps
    | with_reducible apply keepUpsets_keeps
    | with_reducible apply Keeps.ite
    | with_reducible refine Keeps.foldl ?_ _ _ (fun t x ht => ?_)
    | dsimp only
    | split

theorem takePorts_keeps {s0 s : State} (h : Keeps s0 s) (g : Nat) (gs : List BankReq) :
    Keeps s0 (takePorts s g gs) := by
  unfold takePorts
  repeat' first
    | with_reducible assumption
    | with_reducible apply modCell_keeps

theorem bankEffects_keeps {s0 s : State} (h : Keeps s0 s) (g : Nat) (gs : List BankReq) :
    Keeps s0 (bankEffects s g gs) := by
  unfold bankEffects
  repeat' first
    | with_reducible assumption
    | with_reducible apply modCell_keeps
    | with_reducible apply scratchCheck_keeps
    | with_reducible apply noteForeign_keeps
    | with_reducible apply bankMerge_keeps
    | with_reducible refine Keeps.foldl ?_ _ _ (fun t x ht => ?_)
    | dsimp only
    | split

theorem bankSettle_keeps {s0 s : State} (h : Keeps s0 s) (p : Nat) (g : Nat) (x : List BankReq × List BankReq) (first : Bool) :
    Keeps s0 (bankSettle s p g x first) := by
  unfold bankSettle
  repeat' first
    | with_reducible assumption
    | with_reducible apply modCell_keeps
    | with_reducible apply odInc_keeps
    | with_reducible apply cellErr_keeps
    | with_reducible apply beginMiss_keeps
    | with_reducible apply missCycles_keeps
    | with_reducible apply countLost_keeps
    | with_reducible apply bankEffects_keeps
    | with_reducible apply Keeps.ite
    | with_reducible refine Keeps.foldl ?_ _ _ (fun t x ht => ?_)
    | dsimp only
    | split

theorem bankRound_keeps {s0 s : State} (h : Keeps s0 s) (p : Nat) (g : Nat) (rs : List BankReq) (first : Bool) :
    Keeps s0 (bankRound s p g rs first) := by
  unfold bankRound
  repeat' first
    | with_reducible assumption
    | with_reducible apply takePorts_keeps
    | with_reducible apply bankSettle_keeps

theorem vecAddrFault_keeps {s0 s : State} (h : Keeps s0 s) (p : Nat) (g : Nat) (imm : Nat) :
    OptKeeps s0 (vecAddrFault s p g imm) := by
  unfold vecAddrFault
  repeat' first
    | with_reducible assumption
    | with_reducible apply cellErr_keeps
    | with_reducible apply staleAt_keeps
    | with_reducible apply OptKeeps.some
    | with_reducible apply OptKeeps.ite

theorem vecBefore_keeps {s0 s : State} (h : Keeps s0 s) (p : Nat) (g : Nat) (v : VecSlot) (draws : List (BitVec 32)) (others : List BankReq) :
    Keeps s0 (vecBefore s p g v draws others) := by
  unfold vecBefore
  repeat' first
    | with_reducible assumption
    | with_reducible apply setCell_keeps
    | with_reducible apply modCell_keeps
    | with_reducible apply amaxFold_keeps
    | with_reducible apply bankRound_keeps
    | with_reducible apply vecAddrFault_keeps
    | with_reducible apply Keeps.ite
    | with_reducible refine OptKeeps.of_eq ?_ (by with_reducible assumption)
    | dsimp only
    | split

theorem vecStore_keeps {s0 s : State} (h : Keeps s0 s) (p : Nat) (g : Nat) (v : VecSlot) (data : List Lane) (x : Option (List BankReq × List BankReq)) :
    Keeps s0 (vecStore s p g v data x) := by
  unfold vecStore
  repeat' first
    | with_reducible assumption
    | with_reducible apply modCell_keeps
    | with_reducible apply spaceWrite_keeps
    | with_reducible apply bankSettle_keeps
    | with_reducible apply vecAddrFault_keeps
    | with_reducible apply Keeps.ite
    | with_reducible refine OptKeeps.of_eq ?_ (by with_reducible assumption)
    | with_reducible refine Keeps.foldl ?_ _ _ (fun t x ht => ?_)
    | dsimp only
    | split

theorem matExec_keeps {s0 s : State} (h : Keeps s0 s) (p : Nat) (g : Nat) (m : MatSlot) (rep : Nat) :
    Keeps s0 (matExec s p g m rep) := by
  unfold matExec
  repeat' first
    | with_reducible assumption
    | with_reducible apply setCell_keeps
    | with_reducible apply odInc_keeps
    | with_reducible apply cellErr_keeps
    | with_reducible apply Keeps.ite
    | dsimp only
    | split

theorem loadWeights_keeps {s0 s : State} (h : Keeps s0 s) (g : Nat) : Keeps s0 (loadWeights s g) := by
  unfold loadWeights
  repeat' first
    | with_reducible assumption
    | with_reducible apply setCell_keeps
    | with_reducible apply cellErr_keeps
    | with_reducible apply Keeps.ite
    | dsimp only
    | split

theorem streamExec_keeps {s0 s : State} (h : Keeps s0 s) (g : Nat) (b : Bundle) : Keeps s0 (streamExec s g b) := by
  unfold streamExec
  repeat' first
    | with_reducible assumption
    | with_reducible apply modCell_keeps
    | with_reducible apply startIn_keeps
    | with_reducible apply startOut_keeps
    | with_reducible apply endIn_keeps
    | with_reducible apply Keeps.ite
    | dsimp only
    | split

theorem modSeq_keeps {s0 s : State} (h : Keeps s0 s) (g : Nat) (f : Seq → Seq) : Keeps s0 (modSeq s g f) := by
  unfold modSeq
  repeat' first
    | with_reducible assumption
    | with_reducible apply modCell_keeps

theorem syncExec_keeps {s0 s : State} (h : Keeps s0 s) (p : Nat) (g : Nat) (y : SyncSlot) :
    Keeps s0 (syncExec s p g y) := by
  unfold syncExec
  repeat' first
    | with_reducible assumption
    | with_reducible apply modCell_keeps
    | with_reducible apply modJob_keeps
    | with_reducible apply amaxFlush_keeps
    | with_reducible apply modSeq_keeps
    | dsimp only
    | split

theorem issueOnce_keeps {s0 s : State} (h : Keeps s0 s) (p : Nat) (g : Nat) (b : Bundle) (slot : Bool) (others : List BankReq) :
    Keeps s0 (issueOnce s p g b slot others) := by
  unfold issueOnce
  repeat' first
    | with_reducible assumption
    | with_reducible apply modCell_keeps
    | with_reducible apply anem_keeps
    | with_reducible apply drainAll_keeps
    | with_reducible apply takePorts_keeps
    | with_reducible apply vecBefore_keeps
    | with_reducible apply vecStore_keeps
    | with_reducible apply matExec_keeps
    | with_reducible apply streamExec_keeps
    | with_reducible apply syncExec_keeps
    | with_reducible apply Keeps.ite
    | split

theorem waitCost_keeps {s0 s : State} (h : Keeps s0 s) (p : Nat) (g : Nat) (sem : Nat) :
    Keeps s0 (waitCost s p g sem) := by
  unfold waitCost
  repeat' first
    | with_reducible assumption
    | with_reducible apply modCell_keeps
    | with_reducible apply fresh_keeps
    | with_reducible apply Keeps.ite

theorem semTake_keeps {s0 s : State} (h : Keeps s0 s) (p : Nat) (sem : Nat) : Keeps s0 (semTake s p sem) := by
  unfold semTake
  repeat' first
    | with_reducible assumption
    | with_reducible apply modJob_keeps

theorem syncWait_keeps {s0 s : State} (h : Keeps s0 s) (p : Nat) (g : Nat) (y : SyncSlot) (held : Option (BitVec 256)) :
    OptKeeps s0 (syncWait s p g y held) := by
  unfold syncWait
  repeat' first
    | with_reducible assumption
    | with_reducible apply modJob_keeps
    | with_reducible apply modSeq_keeps
    | with_reducible apply OptKeeps.some
    | with_reducible apply OptKeeps.none
    | with_reducible apply OptKeeps.ite
    | dsimp only
    | split

theorem stall_keeps {s0 s : State} (h : Keeps s0 s) (g : Nat) (c : MissCause) (held : Option (BitVec 256)) :
    Keeps s0 (stall s g c held) := by
  unfold stall
  repeat' first
    | with_reducible assumption
    | with_reducible apply beginMiss_keeps
    | with_reducible apply modSeq_keeps

theorem tryIssue_keeps {s0 s : State} (h : Keeps s0 s) (p : Nat) (g : Nat) (w : BitVec 256) (slot : Bool) (hold : Option MissCause) (others : List BankReq) :
    Keeps s0 (tryIssue s p g w slot hold others) := by
  unfold tryIssue
  repeat' first
    | with_reducible assumption
    | with_reducible apply odInc_keeps
    | with_reducible apply cellErr_keeps
    | with_reducible apply issueOnce_keeps
    | with_reducible apply waitCost_keeps
    | with_reducible apply semTake_keeps
    | with_reducible apply syncWait_keeps
    | with_reducible apply stall_keeps
    | with_reducible apply Keeps.ite
    | with_reducible refine OptKeeps.of_eq ?_ (by with_reducible assumption)
    | dsimp only
    | split

theorem issueRest_keeps {s0 : State} (n : Nat) : ∀ {s : State}, Keeps s0 s → ∀ (p g : Nat) (w : BitVec 256) (slot : Bool),
    Keeps s0 (issueRest n s p g w slot) := by
  induction n with
  | zero => intro s h p g w slot; exact h
  | succ n ih =>
    intro s h p g w slot
    rw [issueRest]
    exact Keeps.ite (ih (tryIssue_keeps h ..) ..) h

theorem issueAll_keeps {s0 s : State} (h : Keeps s0 s) (p : Nat) (g : Nat) (w : BitVec 256) (slot : Bool) (hold : Option MissCause) (others : List BankReq) :
    Keeps s0 (issueAll s p g w slot hold others) := by
  unfold issueAll
  repeat' first
    | with_reducible assumption
    | with_reducible apply tryIssue_keeps
    | with_reducible apply issueRest_keeps

theorem issueSlot_keeps {s0 s : State} (h : Keeps s0 s) (g : Nat) (w : BitVec 256) : Keeps s0 (issueSlot s g w) := by
  unfold issueSlot
  repeat' first
    | with_reducible assumption
    | with_reducible apply issueAll_keeps
    | with_reducible apply Keeps.ite
    | split

theorem reissue_keeps {s0 s : State} (h : Keeps s0 s) (g : Nat) : Keeps s0 (reissue s g) := by
  unfold reissue
  repeat' first
    | with_reducible assumption
    | with_reducible apply issueAll_keeps
    | with_reducible apply Keeps.ite
    | dsimp only
    | split

end Sys2Proof.Machine
end

