-- ==== Sys2Proof/Laws/KeepsCell.lean ====
section
/-!
SUPPORT. `Keeps` for the operations of Cell.
-/

namespace Sys2Proof.Machine

theorem execBundleIssue_keeps {s0 s : State} (h : Keeps s0 s) (g : Nat) (hold : Option MissCause) (ecc : Nat) (upsets : List Upset) (others : List BankReq) :
    ResKeeps s0 (execBundleIssue g hold ecc upsets others s) := by
  unfold execBundleIssue
  repeat' first
    | with_reducible assumption
    | with_reducible apply odInc_keeps
    | with_reducible apply corrected_keeps
    | with_reducible apply cellErr_keeps
    | with_reducible apply upsetScratch_keeps
    | with_reducible apply issueAll_keeps
    | with_reducible apply ResKeeps.next
    | with_reducible apply Keeps.ite
    | with_reducible apply ResKeeps.ite
    | dsimp only
    | split

theorem execIssueResume_keeps {s0 s : State} (h : Keeps s0 s) (g : Nat) (cycles : Nat) :
    ResKeeps s0 (execIssueResume g cycles s) := by
  unfold execIssueResume
  repeat' first
    | with_reducible assumption
    | with_reducible apply missCycles_keeps
    | with_reducible apply modSeq_keeps
    | with_reducible apply reissue_keeps
    | with_reducible apply ResKeeps.next
    | with_reducible apply ResKeeps.ite
    | dsimp only
    | split

theorem execNop_keeps {s0 s : State} (h : Keeps s0 s) (g : Nat) : ResKeeps s0 (execNop g s) := by
  unfold execNop
  repeat' first
    | with_reducible assumption
    | with_reducible apply issueSlot_keeps
    | with_reducible apply ResKeeps.next

theorem execSemWait_keeps {s0 s : State} (h : Keeps s0 s) (g : Nat) (sem : Nat) :
    ResKeeps s0 (execSemWait g sem s) := by
  unfold execSemWait
  repeat' first
    | with_reducible assumption
    | with_reducible apply issueSlot_keeps
    | with_reducible apply ResKeeps.next

theorem execSemSignal_keeps {s0 s : State} (h : Keeps s0 s) (g : Nat) (sem : Nat) (cnt : Nat) :
    ResKeeps s0 (execSemSignal g sem cnt s) := by
  unfold execSemSignal
  repeat' first
    | with_reducible assumption
    | with_reducible apply issueSlot_keeps
    | with_reducible apply ResKeeps.next

theorem execFence_keeps {s0 s : State} (h : Keeps s0 s) (g : Nat) : ResKeeps s0 (execFence g s) := by
  unfold execFence
  repeat' first
    | with_reducible assumption
    | with_reducible apply issueSlot_keeps
    | with_reducible apply ResKeeps.next

theorem execFencePredicate_keeps {s0 s : State} (h : Keeps s0 s) (g : Nat) (sem : Nat) :
    ResKeeps s0 (execFencePredicate g sem s) := by
  unfold execFencePredicate
  repeat' first
    | with_reducible assumption
    | with_reducible apply issueSlot_keeps
    | with_reducible apply ResKeeps.next

theorem execSetcnt_keeps {s0 s : State} (h : Keeps s0 s) (g : Nat) (ctr : Nat) (cnt : Nat) :
    ResKeeps s0 (execSetcnt g ctr cnt s) := by
  unfold execSetcnt
  repeat' first
    | with_reducible assumption
    | with_reducible apply issueSlot_keeps
    | with_reducible apply ResKeeps.next

theorem execLoop_keeps {s0 s : State} (h : Keeps s0 s) (g : Nat) (ctr : Nat) (target : Nat) :
    ResKeeps s0 (execLoop g ctr target s) := by
  unfold execLoop
  repeat' first
    | with_reducible assumption
    | with_reducible apply issueSlot_keeps
    | with_reducible apply ResKeeps.next

theorem execAmaxflush_keeps {s0 s : State} (h : Keeps s0 s) (g : Nat) : ResKeeps s0 (execAmaxflush g s) := by
  unfold execAmaxflush
  repeat' first
    | with_reducible assumption
    | with_reducible apply issueSlot_keeps
    | with_reducible apply ResKeeps.next

theorem execDone_keeps {s0 s : State} (h : Keeps s0 s) (g : Nat) : ResKeeps s0 (execDone g s) := by
  unfold execDone
  repeat' first
    | with_reducible assumption
    | with_reducible apply issueSlot_keeps
    | with_reducible apply ResKeeps.next

theorem execMload_keeps {s0 s : State} (h : Keeps s0 s) (g : Nat) (fmt : Nat) (rs : Nat) :
    ResKeeps s0 (execMload g fmt rs s) := by
  unfold execMload
  repeat' first
    | with_reducible assumption
    | with_reducible apply issueSlot_keeps
    | with_reducible apply ResKeeps.next

theorem execMloadComplete_keeps {s0 s : State} (h : Keeps s0 s) (g : Nat) : ResKeeps s0 (execMloadComplete g s) := by
  unfold execMloadComplete
  repeat' first
    | with_reducible assumption
    | with_reducible apply loadWeights_keeps
    | with_reducible apply ResKeeps.next

theorem execMswap_keeps {s0 s : State} (h : Keeps s0 s) (g : Nat) : ResKeeps s0 (execMswap g s) := by
  unfold execMswap
  repeat' first
    | with_reducible assumption
    | with_reducible apply issueSlot_keeps
    | with_reducible apply ResKeeps.next

theorem execMmac_keeps {s0 s : State} (h : Keeps s0 s) (g : Nat) (fmt : Nat) (bank : Nat) (row : Nat) (rs : Nat) :
    ResKeeps s0 (execMmac g fmt bank row rs s) := by
  unfold execMmac
  repeat' first
    | with_reducible assumption
    | with_reducible apply issueSlot_keeps
    | with_reducible apply ResKeeps.next

theorem execMmacz_keeps {s0 s : State} (h : Keeps s0 s) (g : Nat) (fmt : Nat) (bank : Nat) (row : Nat) (rs : Nat) :
    ResKeeps s0 (execMmacz g fmt bank row rs s) := by
  unfold execMmacz
  repeat' first
    | with_reducible assumption
    | with_reducible apply issueSlot_keeps
    | with_reducible apply ResKeeps.next

theorem execVadd_keeps {s0 s : State} (h : Keeps s0 s) (g : Nat) (dst : Nat) (sa : Nat) (sb : Nat) (mask : Nat) (dt : Nat) :
    ResKeeps s0 (execVadd g dst sa sb mask dt s) := by
  unfold execVadd
  repeat' first
    | with_reducible assumption
    | with_reducible apply issueSlot_keeps
    | with_reducible apply ResKeeps.next

theorem execVsub_keeps {s0 s : State} (h : Keeps s0 s) (g : Nat) (dst : Nat) (sa : Nat) (sb : Nat) (mask : Nat) (dt : Nat) :
    ResKeeps s0 (execVsub g dst sa sb mask dt s) := by
  unfold execVsub
  repeat' first
    | with_reducible assumption
    | with_reducible apply issueSlot_keeps
    | with_reducible apply ResKeeps.next

theorem execVmul_keeps {s0 s : State} (h : Keeps s0 s) (g : Nat) (dst : Nat) (sa : Nat) (sb : Nat) (mask : Nat) (dt : Nat) :
    ResKeeps s0 (execVmul g dst sa sb mask dt s) := by
  unfold execVmul
  repeat' first
    | with_reducible assumption
    | with_reducible apply issueSlot_keeps
    | with_reducible apply ResKeeps.next

theorem execVfma_keeps {s0 s : State} (h : Keeps s0 s) (g : Nat) (dst : Nat) (sa : Nat) (sb : Nat) (sc : Nat) (mask : Nat) (dt : Nat) :
    ResKeeps s0 (execVfma g dst sa sb sc mask dt s) := by
  unfold execVfma
  repeat' first
    | with_reducible assumption
    | with_reducible apply issueSlot_keeps
    | with_reducible apply ResKeeps.next

theorem execVmax_keeps {s0 s : State} (h : Keeps s0 s) (g : Nat) (dst : Nat) (sa : Nat) (sb : Nat) (mask : Nat) (dt : Nat) :
    ResKeeps s0 (execVmax g dst sa sb mask dt s) := by
  unfold execVmax
  repeat' first
    | with_reducible assumption
    | with_reducible apply issueSlot_keeps
    | with_reducible apply ResKeeps.next

theorem execVmin_keeps {s0 s : State} (h : Keeps s0 s) (g : Nat) (dst : Nat) (sa : Nat) (sb : Nat) (mask : Nat) (dt : Nat) :
    ResKeeps s0 (execVmin g dst sa sb mask dt s) := by
  unfold execVmin
  repeat' first
    | with_reducible assumption
    | with_reducible apply issueSlot_keeps
    | with_reducible apply ResKeeps.next

theorem execViadd_keeps {s0 s : State} (h : Keeps s0 s) (g : Nat) (dst : Nat) (sa : Nat) (sb : Nat) (mask : Nat) :
    ResKeeps s0 (execViadd g dst sa sb mask s) := by
  unfold execViadd
  repeat' first
    | with_reducible assumption
    | with_reducible apply issueSlot_keeps
    | with_reducible apply ResKeeps.next

theorem execVisub_keeps {s0 s : State} (h : Keeps s0 s) (g : Nat) (dst : Nat) (sa : Nat) (sb : Nat) (mask : Nat) :
    ResKeeps s0 (execVisub g dst sa sb mask s) := by
  unfold execVisub
  repeat' first
    | with_reducible assumption
    | with_reducible apply issueSlot_keeps
    | with_reducible apply ResKeeps.next

theorem execVimul_keeps {s0 s : State} (h : Keeps s0 s) (g : Nat) (dst : Nat) (sa : Nat) (sb : Nat) (mask : Nat) :
    ResKeeps s0 (execVimul g dst sa sb mask s) := by
  unfold execVimul
  repeat' first
    | with_reducible assumption
    | with_reducible apply issueSlot_keeps
    | with_reducible apply ResKeeps.next

theorem execVand_keeps {s0 s : State} (h : Keeps s0 s) (g : Nat) (dst : Nat) (sa : Nat) (sb : Nat) (mask : Nat) :
    ResKeeps s0 (execVand g dst sa sb mask s) := by
  unfold execVand
  repeat' first
    | with_reducible assumption
    | with_reducible apply issueSlot_keeps
    | with_reducible apply ResKeeps.next

theorem execVor_keeps {s0 s : State} (h : Keeps s0 s) (g : Nat) (dst : Nat) (sa : Nat) (sb : Nat) (mask : Nat) :
    ResKeeps s0 (execVor g dst sa sb mask s) := by
  unfold execVor
  repeat' first
    | with_reducible assumption
    | with_reducible apply issueSlot_keeps
    | with_reducible apply ResKeeps.next

theorem execVxor_keeps {s0 s : State} (h : Keeps s0 s) (g : Nat) (dst : Nat) (sa : Nat) (sb : Nat) (mask : Nat) :
    ResKeeps s0 (execVxor g dst sa sb mask s) := by
  unfold execVxor
  repeat' first
    | with_reducible assumption
    | with_reducible apply issueSlot_keeps
    | with_reducible apply ResKeeps.next

theorem execVshl_keeps {s0 s : State} (h : Keeps s0 s) (g : Nat) (dst : Nat) (sa : Nat) (sb : Nat) (mask : Nat) :
    ResKeeps s0 (execVshl g dst sa sb mask s) := by
  unfold execVshl
  repeat' first
    | with_reducible assumption
    | with_reducible apply issueSlot_keeps
    | with_reducible apply ResKeeps.next

theorem execVshr_keeps {s0 s : State} (h : Keeps s0 s) (g : Nat) (dst : Nat) (sa : Nat) (sb : Nat) (mask : Nat) :
    ResKeeps s0 (execVshr g dst sa sb mask s) := by
  unfold execVshr
  repeat' first
    | with_reducible assumption
    | with_reducible apply issueSlot_keeps
    | with_reducible apply ResKeeps.next

theorem execVbcast_keeps {s0 s : State} (h : Keeps s0 s) (g : Nat) (dst : Nat) (imm : Nat) (mask : Nat) :
    ResKeeps s0 (execVbcast g dst imm mask s) := by
  unfold execVbcast
  repeat' first
    | with_reducible assumption
    | with_reducible apply issueSlot_keeps
    | with_reducible apply ResKeeps.next

theorem execVcmplt_keeps {s0 s : State} (h : Keeps s0 s) (g : Nat) (dst : Nat) (sa : Nat) (sb : Nat) (mask : Nat) (dt : Nat) :
    ResKeeps s0 (execVcmplt g dst sa sb mask dt s) := by
  unfold execVcmplt
  repeat' first
    | with_reducible assumption
    | with_reducible apply issueSlot_keeps
    | with_reducible apply ResKeeps.next

theorem execVcmpeq_keeps {s0 s : State} (h : Keeps s0 s) (g : Nat) (dst : Nat) (sa : Nat) (sb : Nat) (mask : Nat) (dt : Nat) :
    ResKeeps s0 (execVcmpeq g dst sa sb mask dt s) := by
  unfold execVcmpeq
  repeat' first
    | with_reducible assumption
    | with_reducible apply issueSlot_keeps
    | with_reducible apply ResKeeps.next

theorem execVsel_keeps {s0 s : State} (h : Keeps s0 s) (g : Nat) (dst : Nat) (sa : Nat) (sb : Nat) (sel : Nat) (mask : Nat) :
    ResKeeps s0 (execVsel g dst sa sb sel mask s) := by
  unfold execVsel
  repeat' first
    | with_reducible assumption
    | with_reducible apply issueSlot_keeps
    | with_reducible apply ResKeeps.next

theorem execVrsum_keeps {s0 s : State} (h : Keeps s0 s) (g : Nat) (dst : Nat) (sa : Nat) (mask : Nat) (dt : Nat) :
    ResKeeps s0 (execVrsum g dst sa mask dt s) := by
  unfold execVrsum
  repeat' first
    | with_reducible assumption
    | with_reducible apply issueSlot_keeps
    | with_reducible apply ResKeeps.next

theorem execVrmax_keeps {s0 s : State} (h : Keeps s0 s) (g : Nat) (dst : Nat) (sa : Nat) (mask : Nat) (dt : Nat) :
    ResKeeps s0 (execVrmax g dst sa mask dt s) := by
  unfold execVrmax
  repeat' first
    | with_reducible assumption
    | with_reducible apply issueSlot_keeps
    | with_reducible apply ResKeeps.next

theorem execVexp2_keeps {s0 s : State} (h : Keeps s0 s) (g : Nat) (dst : Nat) (sa : Nat) (mask : Nat) (dt : Nat) :
    ResKeeps s0 (execVexp2 g dst sa mask dt s) := by
  unfold execVexp2
  repeat' first
    | with_reducible assumption
    | with_reducible apply issueSlot_keeps
    | with_reducible apply ResKeeps.next

theorem execVlog2_keeps {s0 s : State} (h : Keeps s0 s) (g : Nat) (dst : Nat) (sa : Nat) (mask : Nat) (dt : Nat) :
    ResKeeps s0 (execVlog2 g dst sa mask dt s) := by
  unfold execVlog2
  repeat' first
    | with_reducible assumption
    | with_reducible apply issueSlot_keeps
    | with_reducible apply ResKeeps.next

theorem execVrsqrt_keeps {s0 s : State} (h : Keeps s0 s) (g : Nat) (dst : Nat) (sa : Nat) (mask : Nat) (dt : Nat) :
    ResKeeps s0 (execVrsqrt g dst sa mask dt s) := by
  unfold execVrsqrt
  repeat' first
    | with_reducible assumption
    | with_reducible apply issueSlot_keeps
    | with_reducible apply ResKeeps.next

theorem execVrcp_keeps {s0 s : State} (h : Keeps s0 s) (g : Nat) (dst : Nat) (sa : Nat) (mask : Nat) (dt : Nat) :
    ResKeeps s0 (execVrcp g dst sa mask dt s) := by
  unfold execVrcp
  repeat' first
    | with_reducible assumption
    | with_reducible apply issueSlot_keeps
    | with_reducible apply ResKeeps.next

theorem execVsin_keeps {s0 s : State} (h : Keeps s0 s) (g : Nat) (dst : Nat) (sa : Nat) (mask : Nat) (dt : Nat) :
    ResKeeps s0 (execVsin g dst sa mask dt s) := by
  unfold execVsin
  repeat' first
    | with_reducible assumption
    | with_reducible apply issueSlot_keeps
    | with_reducible apply ResKeeps.next

theorem execVcos_keeps {s0 s : State} (h : Keeps s0 s) (g : Nat) (dst : Nat) (sa : Nat) (mask : Nat) (dt : Nat) :
    ResKeeps s0 (execVcos g dst sa mask dt s) := by
  unfold execVcos
  repeat' first
    | with_reducible assumption
    | with_reducible apply issueSlot_keeps
    | with_reducible apply ResKeeps.next

theorem execVcvt_keeps {s0 s : State} (h : Keeps s0 s) (g : Nat) (dst : Nat) (sa : Nat) (mask : Nat) (dt : Nat) (rnd : Nat) (slot : Nat) (target : Nat) :
    ResKeeps s0 (execVcvt g dst sa mask dt rnd slot target s) := by
  unfold execVcvt
  repeat' first
    | with_reducible assumption
    | with_reducible apply issueSlot_keeps
    | with_reducible apply ResKeeps.next

theorem execVcvtmx_keeps {s0 s : State} (h : Keeps s0 s) (g : Nat) (dst : Nat) (sa : Nat) (mask : Nat) (dt : Nat) (rnd : Nat) (slot : Nat) (target : Nat) :
    ResKeeps s0 (execVcvtmx g dst sa mask dt rnd slot target s) := by
  unfold execVcvtmx
  repeat' first
    | with_reducible assumption
    | with_reducible apply issueSlot_keeps
    | with_reducible apply ResKeeps.next

theorem execAmaxCountMerge_keeps {s0 s : State} (h : Keeps s0 s) (g : Nat) (slot : Nat) :
    ResKeeps s0 (execAmaxCountMerge g slot s) := by
  unfold execAmaxCountMerge
  repeat' first
    | with_reducible assumption
    | with_reducible apply modCell_keeps
    | with_reducible apply mergeEntry_keeps
    | with_reducible apply ResKeeps.next
    | with_reducible apply ResKeeps.ite
    | dsimp only
    | split

theorem execVrand_keeps {s0 s : State} (h : Keeps s0 s) (g : Nat) (dst : Nat) (mask : Nat) :
    ResKeeps s0 (execVrand g dst mask s) := by
  unfold execVrand
  repeat' first
    | with_reducible assumption
    | with_reducible apply issueSlot_keeps
    | with_reducible apply ResKeeps.next

theorem execVrandu_keeps {s0 s : State} (h : Keeps s0 s) (g : Nat) (dst : Nat) (mask : Nat) :
    ResKeeps s0 (execVrandu g dst mask s) := by
  unfold execVrandu
  repeat' first
    | with_reducible assumption
    | with_reducible apply issueSlot_keeps
    | with_reducible apply ResKeeps.next

theorem execVld_keeps {s0 s : State} (h : Keeps s0 s) (g : Nat) (dst : Nat) (imm : Nat) (mask : Nat) :
    ResKeeps s0 (execVld g dst imm mask s) := by
  unfold execVld
  repeat' first
    | with_reducible assumption
    | with_reducible apply issueSlot_keeps
    | with_reducible apply ResKeeps.next

theorem execVst_keeps {s0 s : State} (h : Keeps s0 s) (g : Nat) (sa : Nat) (imm : Nat) (mask : Nat) :
    ResKeeps s0 (execVst g sa imm mask s) := by
  unfold execVst
  repeat' first
    | with_reducible assumption
    | with_reducible apply issueSlot_keeps
    | with_reducible apply ResKeeps.next

theorem execSstartIn_keeps {s0 s : State} (h : Keeps s0 s) (g : Nat) (stream : Nat) (desc : Nat) (near : Nat) (addr : Nat) :
    ResKeeps s0 (execSstartIn g stream desc near addr s) := by
  unfold execSstartIn
  repeat' first
    | with_reducible assumption
    | with_reducible apply issueSlot_keeps
    | with_reducible apply ResKeeps.next

theorem execSstopIn_keeps {s0 s : State} (h : Keeps s0 s) (g : Nat) (stream : Nat) :
    ResKeeps s0 (execSstopIn g stream s) := by
  unfold execSstopIn
  repeat' first
    | with_reducible assumption
    | with_reducible apply issueSlot_keeps
    | with_reducible apply ResKeeps.next

theorem execSstartOut_keeps {s0 s : State} (h : Keeps s0 s) (g : Nat) (stream : Nat) (desc : Nat) (near : Nat) (addr : Nat) :
    ResKeeps s0 (execSstartOut g stream desc near addr s) := by
  unfold execSstartOut
  repeat' first
    | with_reducible assumption
    | with_reducible apply issueSlot_keeps
    | with_reducible apply ResKeeps.next

theorem execSstopOut_keeps {s0 s : State} (h : Keeps s0 s) (g : Nat) (stream : Nat) :
    ResKeeps s0 (execSstopOut g stream s) := by
  unfold execSstopOut
  repeat' first
    | with_reducible assumption
    | with_reducible apply issueSlot_keeps
    | with_reducible apply ResKeeps.next

theorem execStreamEnd_keeps {s0 s : State} (h : Keeps s0 s) (g : Nat) (out : Bool) (stream : Nat) :
    ResKeeps s0 (execStreamEnd g out stream s) := by
  unfold execStreamEnd
  repeat' first
    | with_reducible assumption
    | with_reducible apply drainRest_keeps
    | with_reducible apply endIn_keeps
    | with_reducible apply ResKeeps.next
    | with_reducible apply ResKeeps.ite
    | split

end Sys2Proof.Machine
end

