-- ==== Sys2Proof/Laws/KeepsIsobar.lean ====
section
/-!
SUPPORT. `Keeps` for the operations of Isobar.
-/

namespace Sys2Proof.Machine

theorem execFabricCrcFail_keeps {s0 s : State} (h : Keeps s0 s) (src : Nat) (xfer : Nat) :
    ResKeeps s0 (execFabricCrcFail src xfer s) := by
  unfold execFabricCrcFail
  repeat' first
    | with_reducible assumption
    | with_reducible apply odInc_keeps
    | with_reducible apply fatalErr_keeps
    | with_reducible apply ResKeeps.next
    | with_reducible apply ResKeeps.ite
    | with_reducible exact Nat.le_refl _
    | with_reducible exact id
    | with_reducible exact fun _ x => x
    | dsimp only
    | (fail_if_no_progress (with_reducible apply Keeps.lit))

theorem releaseOne_keeps {s0 s : State} (h : Keeps s0 s) (k : FabPkt) : Keeps s0 (releaseOne s k) := by
  unfold releaseOne
  repeat' first
    | with_reducible assumption
    | with_reducible apply modCell_keeps
    | with_reducible apply fabricPut_keeps
    | with_reducible exact Nat.le_refl _
    | with_reducible exact id
    | with_reducible exact fun _ x => x
    | dsimp only
    | split
    | (fail_if_no_progress (with_reducible apply Keeps.lit))

theorem releaseClass_keeps {s0 s : State} (h : Keeps s0 s) (src cls : Nat) (l : List FabPkt) :
    Keeps s0 (releaseClass s src cls l) := by
  induction l generalizing s with
  | nil => exact h
  | cons k l ih =>
    rw [releaseClass]
    exact Keeps.ite (Keeps.ite (ih (releaseOne_keeps h _)) h) (ih h)

theorem execFabricCreditReturn_keeps {s0 s : State} (h : Keeps s0 s) (src : Nat) (dst : Nat) (cls : Nat) (capped : List Nat) :
    ResKeeps s0 (execFabricCreditReturn src dst cls capped s) := by
  unfold execFabricCreditReturn
  repeat' first
    | with_reducible assumption
    | with_reducible apply releaseClass_keeps
    | with_reducible apply ResKeeps.next
    | with_reducible refine Keeps.foldl ?_ _ _ (fun t x ht => ?_)
    | with_reducible exact Nat.le_refl _
    | with_reducible exact id
    | with_reducible exact fun _ x => x
    | dsimp only
    | split
    | (fail_if_no_progress (with_reducible apply Keeps.lit))

theorem awaitHold_keeps {s0 s : State} (h : Keeps s0 s) (d : Nat) (change : State → State) (hf : ∀ t, Keeps s0 t → Keeps s0 (change t)) :
    Keeps s0 (awaitHold s d change) := by
  unfold awaitHold
  repeat' first
    | with_reducible assumption
    | with_reducible apply modDie_keeps
    | with_reducible apply odSet_keeps
    | with_reducible apply hf
    | with_reducible apply Keeps.ite

theorem execClockHold_keeps {s0 s : State} (h : Keeps s0 s) (die : Nat) : ResKeeps s0 (execClockHold die s) := by
  unfold execClockHold
  repeat' first
    | with_reducible assumption
    | with_reducible apply modDie_keeps
    | with_reducible apply odSet_keeps
    | with_reducible apply odInc_keeps
    | with_reducible apply ResKeeps.next
    | with_reducible apply ResKeeps.ite

theorem execClockHoldEnd_keeps {s0 s : State} (h : Keeps s0 s) (die : Nat) :
    ResKeeps s0 (execClockHoldEnd die s) := by
  unfold execClockHoldEnd
  repeat' first
    | with_reducible assumption
    | with_reducible apply modDie_keeps
    | with_reducible apply odAdd_keeps
    | with_reducible apply fresh_keeps
    | with_reducible apply ResKeeps.next
    | with_reducible apply ResKeeps.ite
    | with_reducible exact Nat.le_refl _
    | with_reducible exact id
    | with_reducible exact fun _ x => x
    | dsimp only
    | split
    | (fail_if_no_progress (with_reducible apply Keeps.lit))

theorem execFarRequestIssue_keeps {s0 s : State} (h : Keeps s0 s) (g : Nat) (stream : Nat) :
    ResKeeps s0 (execFarRequestIssue g stream s) := by
  unfold execFarRequestIssue
  repeat' first
    | with_reducible assumption
    | with_reducible apply setCell_keeps
    | with_reducible apply fabricPut_keeps
    | with_reducible apply ResKeeps.next
    | with_reducible apply ResKeeps.ite
    | with_reducible exact Nat.le_refl _
    | with_reducible exact id
    | with_reducible exact fun _ x => x
    | dsimp only
    | split
    | (fail_if_no_progress (with_reducible apply Keeps.lit))

theorem execUnitArrival_keeps {s0 s : State} (h : Keeps s0 s) (g : Nat) (stream : Nat) :
    ResKeeps s0 (execUnitArrival g stream s) := by
  unfold execUnitArrival
  repeat' first
    | with_reducible assumption
    | with_reducible apply modCell_keeps
    | with_reducible apply staleAt_keeps
    | with_reducible apply readEffects_keeps
    | with_reducible apply readChecks_keeps
    | with_reducible apply ResKeeps.next
    | with_reducible apply ResKeeps.ite
    | with_reducible refine OptKeeps.of_eq ?_ (by with_reducible assumption)
    | with_reducible refine OptKeeps.findSome (fun x => ?_) _
    | dsimp only
    | split

theorem execContractDeposit_keeps {s0 s : State} (h : Keeps s0 s) (g : Nat) (stream : Nat) :
    ResKeeps s0 (execContractDeposit g stream s) := by
  unfold execContractDeposit
  repeat' first
    | with_reducible assumption
    | with_reducible apply depositNext_keeps
    | with_reducible apply ResKeeps.next

theorem depositWrite_keeps {s0 s : State} (h : Keeps s0 s) (writer : Option Nat) (g : Nat) (addr : Nat) (data : List Byte) (poison : Bool) :
    Keeps s0 (depositWrite s writer g addr data poison) := by
  unfold depositWrite
  repeat' first
    | with_reducible assumption
    | with_reducible apply modDie_keeps
    | with_reducible apply holdWrite_keeps
    | with_reducible apply staleErr_keeps
    | with_reducible apply scratchForeign_keeps
    | with_reducible apply countLost_keeps
    | with_reducible apply bankAsk_keeps
    | with_reducible apply fabricPut_keeps
    | with_reducible apply Keeps.ite
    | dsimp only
    | split

theorem execUncontractedDeposit_keeps {s0 s : State} (h : Keeps s0 s) (d : Deposit) :
    ResKeeps s0 (execUncontractedDeposit d s) := by
  unfold execUncontractedDeposit
  repeat' first
    | with_reducible assumption
    | with_reducible apply depositNext_keeps
    | with_reducible apply depositWrite_keeps
    | with_reducible apply ResKeeps.next
    | split

theorem execPacingWindow_keeps {s0 s : State} (h : Keeps s0 s) (die : Nat) :
    ResKeeps s0 (execPacingWindow die s) := by
  unfold execPacingWindow
  repeat' first
    | with_reducible assumption
    | with_reducible apply ResKeeps.next
    | with_reducible exact Nat.le_refl _
    | with_reducible exact id
    | with_reducible exact fun _ x => x
    | dsimp only
    | (fail_if_no_progress (with_reducible apply Keeps.lit))

theorem execReservedWindow_keeps {s0 s : State} (h : Keeps s0 s) (md : Nat) :
    ResKeeps s0 (execReservedWindow md s) := by
  unfold execReservedWindow
  repeat' first
    | with_reducible assumption
    | with_reducible apply modMd_keeps
    | with_reducible apply ResKeeps.next

theorem signalSem_keeps {s0 s : State} (h : Keeps s0 s) (p : Nat) (jobSeq : Nat) (sem : Nat) (count : Nat) (done : Bool) :
    Keeps s0 (signalSem s p jobSeq sem count done) := by
  unfold signalSem
  repeat' first
    | with_reducible assumption
    | with_reducible apply modPart_keeps
    | with_reducible apply modJob_keeps
    | with_reducible apply odInc_keeps
    | with_reducible apply Keeps.ite

theorem addSem_keeps {s0 s : State} (h : Keeps s0 s) (p : Nat) (sem : Nat) (count : Nat) (cell : Option Nat) :
    Keeps s0 (addSem s p sem count cell) := by
  unfold addSem
  repeat' first
    | with_reducible assumption
    | with_reducible apply modJob_keeps
    | with_reducible apply cellErr_keeps
    | with_reducible apply coreErr_keeps
    | with_reducible apply Keeps.ite
    | split

theorem execSemIncrementRelease_keeps {s0 s : State} (h : Keeps s0 s) (p : Nat) (sem : Nat) :
    ResKeeps s0 (execSemIncrementRelease p sem s) := by
  unfold execSemIncrementRelease
  repeat' first
    | with_reducible assumption
    | with_reducible apply modJob_keeps
    | with_reducible apply odInc_keeps
    | with_reducible apply fabricPut_keeps
    | with_reducible apply addSem_keeps
    | with_reducible apply ResKeeps.next
    | with_reducible apply Keeps.ite
    | with_reducible apply ResKeeps.ite
    | dsimp only
    | split

theorem endWait_keeps {s0 s : State} (h : Keeps s0 s) (g : Nat) (n : Nat) (cost : Nat) :
    Keeps s0 (endWait s g n cost) := by
  unfold endWait
  repeat' first
    | with_reducible assumption
    | with_reducible apply modCell_keeps
    | with_reducible apply waitCycles_keeps
    | with_reducible apply modSeq_keeps
    | with_reducible apply reissue_keeps

theorem execSemGrant_keeps {s0 s : State} (h : Keeps s0 s) (p : Nat) (sem : Nat) :
    ResKeeps s0 (execSemGrant p sem s) := by
  unfold execSemGrant
  repeat' first
    | with_reducible assumption
    | with_reducible apply modJob_keeps
    | with_reducible apply fresh_keeps
    | with_reducible apply semTake_keeps
    | with_reducible apply endWait_keeps
    | with_reducible apply ResKeeps.next
    | with_reducible apply ResKeeps.ite
    | dsimp only
    | split

theorem execSemTimeout_keeps {s0 s : State} (h : Keeps s0 s) (g : Nat) : ResKeeps s0 (execSemTimeout g s) := by
  unfold execSemTimeout
  repeat' first
    | with_reducible assumption
    | with_reducible apply cellErr_keeps
    | with_reducible apply ResKeeps.next
    | with_reducible apply ResKeeps.ite
    | split

theorem execFenceComplete_keeps {s0 s : State} (h : Keeps s0 s) (g : Nat) (cycles : Nat) :
    ResKeeps s0 (execFenceComplete g cycles s) := by
  unfold execFenceComplete
  repeat' first
    | with_reducible assumption
    | with_reducible apply drainOut_keeps
    | with_reducible apply endWait_keeps
    | with_reducible apply ResKeeps.next
    | with_reducible apply ResKeeps.ite
    | dsimp only
    | split

theorem commitOne_keeps {s0 s : State} (h : Keeps s0 s) (p : Nat) (g : Nat) (e : Nat × Shadow) :
    Keeps s0 (commitOne s p g e) := by
  unfold commitOne
  repeat' first
    | with_reducible assumption
    | with_reducible apply setCell_keeps
    | with_reducible apply modDie_keeps
    | with_reducible apply odInc_keeps
    | with_reducible apply Keeps.ite

theorem commitAmax_keeps {s0 s : State} (h : Keeps s0 s) (g : Nat) (pred : Nat) : Keeps s0 (commitAmax s g pred) := by
  unfold commitAmax
  repeat' first
    | with_reducible assumption
    | with_reducible apply setCell_keeps
    | with_reducible apply amaxFold_keeps
    | with_reducible refine Keeps.foldl ?_ _ _ (fun t x ht => ?_)

theorem squashOne_keeps {s0 s : State} (h : Keeps s0 s) (p : Nat) (g : Nat) (e : Nat × Shadow) :
    Keeps s0 (squashOne s p g e) := by
  unfold squashOne
  repeat' first
    | with_reducible assumption
    | with_reducible apply setCell_keeps
    | with_reducible apply odAdd_keeps
    | with_reducible apply odInc_keeps

theorem execPredicateResolve_keeps {s0 s : State} (h : Keeps s0 s) (g : Nat) :
    ResKeeps s0 (execPredicateResolve g s) := by
  unfold execPredicateResolve
  repeat' first
    | with_reducible assumption
    | with_reducible apply modCell_keeps
    | with_reducible apply fresh_keeps
    | with_reducible apply cellErr_keeps
    | with_reducible apply endWait_keeps
    | with_reducible apply commitOne_keeps
    | with_reducible apply commitAmax_keeps
    | with_reducible apply squashOne_keeps
    | with_reducible apply ResKeeps.next
    | with_reducible apply ResKeeps.ite
    | with_reducible refine Keeps.foldl ?_ _ _ (fun t x ht => ?_)
    | dsimp only
    | split

theorem execShadowOpen_keeps {s0 s : State} (h : Keeps s0 s) (g : Nat) (space : Nat) (page : Nat) (pred : Nat) :
    ResKeeps s0 (execShadowOpen g space page pred s) := by
  unfold execShadowOpen
  repeat' first
    | with_reducible assumption
    | with_reducible apply setCell_keeps
    | with_reducible apply emit_keeps
    | with_reducible apply ResKeeps.next
    | with_reducible apply ResKeeps.ite
    | dsimp only
    | split

theorem execFrameFreed_keeps {s0 s : State} (h : Keeps s0 s) (g : Nat) (space : Nat) (frame : Nat) :
    ResKeeps s0 (execFrameFreed g space frame s) := by
  unfold execFrameFreed
  repeat' first
    | with_reducible assumption
    | with_reducible apply setCell_keeps
    | with_reducible apply ResKeeps.next
    | with_reducible apply ResKeeps.ite

theorem execShadowDrained_keeps {s0 s : State} (h : Keeps s0 s) (g : Nat) (space : Nat) (frame : Nat) :
    ResKeeps s0 (execShadowDrained g space frame s) := by
  unfold execShadowDrained
  repeat' first
    | with_reducible assumption
    | with_reducible apply setCell_keeps
    | with_reducible apply ResKeeps.next
    | with_reducible apply ResKeeps.ite
    | dsimp only
    | split

theorem bcastDeliver_keeps {s0 s : State} (h : Keeps s0 s) (p : Nat) (die : Nat) (grp : Nat) (x : BGroup) (l : Nat × Nat × InStream) :
    Keeps s0 (bcastDeliver s p die grp x l) := by
  unfold bcastDeliver
  repeat' first
    | with_reducible assumption
    | with_reducible apply modCell_keeps
    | with_reducible apply modDie_keeps
    | with_reducible apply readEffects_keeps
    | with_reducible apply readChecks_keeps
    | with_reducible refine Keeps.foldl ?_ _ _ (fun t x ht => ?_)

theorem execBcastUnitIssue_keeps {s0 s : State} (h : Keeps s0 s) (die : Nat) (grp : Nat) :
    ResKeeps s0 (execBcastUnitIssue die grp s) := by
  unfold execBcastUnitIssue
  repeat' first
    | with_reducible assumption
    | with_reducible apply setCell_keeps
    | with_reducible apply modDie_keeps
    | with_reducible apply staleAt_keeps
    | with_reducible apply bcastDeliver_keeps
    | with_reducible apply ResKeeps.next
    | with_reducible apply Keeps.ite
    | with_reducible apply ResKeeps.ite
    | with_reducible refine OptKeeps.of_eq ?_ (by with_reducible assumption)
    | with_reducible refine OptKeeps.findSome (fun x => ?_) _
    | dsimp only
    | split

theorem execTileBcastTimeout_keeps {s0 s : State} (h : Keeps s0 s) (die : Nat) (grp : Nat) :
    ResKeeps s0 (execTileBcastTimeout die grp s) := by
  unfold execTileBcastTimeout
  repeat' first
    | with_reducible assumption
    | with_reducible apply cellErr_keeps
    | with_reducible apply ResKeeps.next
    | with_reducible apply ResKeeps.ite
    | split

theorem execDieTreeOutput_keeps {s0 s : State} (h : Keeps s0 s) (die : Nat) :
    ResKeeps s0 (execDieTreeOutput die s) := by
  unfold execDieTreeOutput
  repeat' first
    | with_reducible assumption
    | with_reducible apply modDie_keeps
    | with_reducible apply ResKeeps.next
    | with_reducible apply ResKeeps.ite

end Sys2Proof.Machine
end

