-- ==== Sys2Proof/Laws/KeepsOnPackage.lean ====
section
/-!
SUPPORT. `Keeps` for the operations of OnPackage.
-/

namespace Sys2Proof.Machine

theorem execWalkStart_keeps {s0 s : State} (h : Keeps s0 s) (p : Nat) (k : Nat) (desc : List Byte) :
    ResKeeps s0 (execWalkStart p k desc s) := by
  unfold execWalkStart
  repeat' first
    | with_reducible assumption
    | with_reducible apply modPart_keeps
    | with_reducible apply coreErrAt_keeps
    | with_reducible apply ResKeeps.next
    | with_reducible apply ResKeeps.ite
    | dsimp only
    | split

theorem execWalkEntryFetch_keeps {s0 s : State} (h : Keeps s0 s) (p : Nat) (w : Nat) (n : Nat) :
    ResKeeps s0 (execWalkEntryFetch p w n s) := by
  unfold execWalkEntryFetch
  repeat' first
    | with_reducible assumption
    | with_reducible apply modPart_keeps
    | with_reducible apply coreErrAt_keeps
    | with_reducible apply farRead_keeps
    | with_reducible apply ResKeeps.next
    | with_reducible apply ResKeeps.ite
    | with_reducible refine Keeps.foldl ?_ _ _ (fun t x ht => ?_)
    | dsimp only
    | split

theorem emitSlot_keeps {s0 s : State} (h : Keeps s0 s) (p : Nat) (i : Nat) (w : Walk) (e : PageEnt) (marks : List Nat) (ords : List Nat) (null : Bool) :
    Keeps s0 (emitSlot s p i w e marks ords null) := by
  unfold emitSlot
  repeat' first
    | with_reducible assumption
    | with_reducible apply modPart_keeps
    | with_reducible apply modJob_keeps
    | with_reducible apply odInc_keeps
    | with_reducible apply scratchForeign_keeps
    | with_reducible apply Keeps.ite

theorem execWalkSlotFill_keeps {s0 s : State} (h : Keeps s0 s) (p : Nat) (w : Nat) :
    ResKeeps s0 (execWalkSlotFill p w s) := by
  unfold execWalkSlotFill
  repeat' first
    | with_reducible assumption
    | with_reducible apply fresh_keeps
    | with_reducible apply coreErrAt_keeps
    | with_reducible apply semTake_keeps
    | with_reducible apply emitSlot_keeps
    | with_reducible apply ResKeeps.next
    | with_reducible apply Keeps.ite
    | with_reducible apply ResKeeps.ite
    | dsimp only
    | split

theorem execBankRetry_keeps {s0 s : State} (h : Keeps s0 s) (g : Nat) : ResKeeps s0 (execBankRetry g s) := by
  unfold execBankRetry
  repeat' first
    | with_reducible assumption
    | with_reducible apply bankRound_keeps
    | with_reducible apply ResKeeps.next
    | with_reducible apply ResKeeps.ite
    | split

theorem scrubWriteBack_keeps {s0 s : State} (h : Keeps s0 s) (g : Nat) (bank : Nat) :
    Keeps s0 (scrubWriteBack s g bank) := by
  unfold scrubWriteBack
  repeat' first
    | with_reducible assumption
    | with_reducible apply modCell_keeps
    | dsimp only
    | split

theorem scrubVisit_keeps {s0 s : State} (h : Keeps s0 s) (g : Nat) (bank : Nat) : Keeps s0 (scrubVisit s g bank) := by
  unfold scrubVisit
  repeat' first
    | with_reducible assumption
    | with_reducible apply modCell_keeps
    | with_reducible apply scratchCheck_keeps
    | with_reducible apply Keeps.ite

theorem execScratchScrub_keeps {s0 s : State} (h : Keeps s0 s) (g : Nat) (bank : Nat) (upsets : List Upset) :
    ResKeeps s0 (execScratchScrub g bank upsets s) := by
  unfold execScratchScrub
  repeat' first
    | with_reducible assumption
    | with_reducible apply upsetScratch_keeps
    | with_reducible apply scrubWriteBack_keeps
    | with_reducible apply scrubVisit_keeps
    | with_reducible apply ResKeeps.next
    | with_reducible apply ResKeeps.ite

theorem landUnits_keeps {s0 : State} (n : Nat) : ∀ {s : State}, Keeps s0 s → ∀ (p g stream : Nat),
    Keeps s0 (landUnits n s p g stream) := by
  induction n with
  | zero => intro s h p g stream; exact h
  | succ n ih =>
    intro s h p g stream
    rw [landUnits]
    split
    · exact h
    · exact Keeps.ite h (ih (modCell_keeps (Keeps.ite h (readChecks_keeps h ..)) ..) ..)

theorem grantAccess_keeps {s0 s : State} (h : Keeps s0 s) (p : Nat) (die : Nat) (r : StratusReq) :
    Keeps s0 (grantAccess s p die r) := by
  unfold grantAccess
  repeat' first
    | with_reducible assumption
    | with_reducible apply modCell_keeps
    | with_reducible apply stratusWrite_keeps
    | with_reducible apply staleAt_keeps
    | with_reducible apply bcastDeliver_keeps
    | with_reducible apply landUnits_keeps
    | with_reducible apply Keeps.ite
    | with_reducible refine OptKeeps.of_eq ?_ (by with_reducible assumption)
    | with_reducible refine OptKeeps.findSome (fun x => ?_) _
    | dsimp only
    | split

theorem grantAll_keeps {s0 s : State} (h : Keeps s0 s) (p die : Nat) (l : List StratusReq) :
    Keeps s0 (grantAll s p die l) := by
  induction l generalizing s with
  | nil => exact h
  | cons r l ih =>
    rw [grantAll]
    exact Keeps.ite (ih (anem_keeps (grantAccess_keeps (modDie_keeps h ..) ..) ..)) (ih (modDie_keeps h ..))

theorem execStratusRetry_keeps {s0 s : State} (h : Keeps s0 s) (die : Nat) (idle : Nat) (upsets : List Upset) :
    ResKeeps s0 (execStratusRetry die idle upsets s) := by
  unfold execStratusRetry
  repeat' first
    | with_reducible assumption
    | with_reducible apply modDie_keeps
    | with_reducible apply upsetStratus_keeps
    | with_reducible apply grantAll_keeps
    | with_reducible apply ResKeeps.next
    | with_reducible apply ResKeeps.ite
    | dsimp only
    | split

theorem grantWait_keeps {s0 s : State} (h : Keeps s0 s) (die : Nat) (w : StratusWait) :
    Keeps s0 (grantWait s die w) := by
  unfold grantWait
  repeat' first
    | with_reducible assumption
    | with_reducible apply stratusCheck_keeps
    | with_reducible apply stratusWrite_keeps
    | split

theorem execUnscheduledStratusGrant_keeps {s0 s : State} (h : Keeps s0 s) (die : Nat) (idle : Nat) (chan : Nat) (arrived : List StratusAccess) :
    ResKeeps s0 (execUnscheduledStratusGrant die idle chan arrived s) := by
  unfold execUnscheduledStratusGrant
  repeat' first
    | with_reducible assumption
    | with_reducible apply modDie_keeps
    | with_reducible apply anem_keeps
    | with_reducible apply grantWait_keeps
    | with_reducible apply ResKeeps.next
    | with_reducible apply ResKeeps.ite
    | dsimp only
    | split

theorem stratusWriteBack_keeps {s0 s : State} (h : Keeps s0 s) (die : Nat) (chan : Nat) :
    Keeps s0 (stratusWriteBack s die chan) := by
  unfold stratusWriteBack
  repeat' first
    | with_reducible assumption
    | with_reducible apply modDie_keeps
    | split

theorem stratusVisit_keeps {s0 s : State} (h : Keeps s0 s) (die : Nat) (chan : Nat) :
    Keeps s0 (stratusVisit s die chan) := by
  unfold stratusVisit
  repeat' first
    | with_reducible assumption
    | with_reducible apply modDie_keeps
    | with_reducible apply stratusCheck_keeps
    | with_reducible apply Keeps.ite

theorem execStratusScrub_keeps {s0 s : State} (h : Keeps s0 s) (die : Nat) (chan : Nat) (upsets : List Upset) :
    ResKeeps s0 (execStratusScrub die chan upsets s) := by
  unfold execStratusScrub
  repeat' first
    | with_reducible assumption
    | with_reducible apply upsetStratus_keeps
    | with_reducible apply stratusWriteBack_keeps
    | with_reducible apply stratusVisit_keeps
    | with_reducible apply ResKeeps.next
    | with_reducible apply ResKeeps.ite

theorem execDieClear_keeps {s0 s : State} (h : Keeps s0 s) (die : Nat) : ResKeeps s0 (execDieClear die s) := by
  unfold execDieClear
  repeat' first
    | with_reducible assumption
    | with_reducible apply modDie_keeps
    | with_reducible apply ResKeeps.next
    | with_reducible apply ResKeeps.ite

theorem clearDie_keeps {s0 s : State} (h : Keeps s0 s) (die : Nat) : Keeps s0 (clearDie s die) := by
  unfold clearDie
  repeat' first
    | with_reducible assumption
    | with_reducible apply modDie_keeps
    | with_reducible exact Nat.le_refl _
    | with_reducible exact id
    | with_reducible exact fun _ x => x
    | dsimp only
    | (fail_if_no_progress (with_reducible apply Keeps.lit))

theorem unitStore_keeps {s0 s : State} (h : Keeps s0 s) (p : Nat) (space : Nat) (a : Nat) (bs : List Byte) (poison : Bool) :
    Keeps s0 (unitStore s p space a bs poison) := by
  unfold unitStore
  repeat' first
    | with_reducible assumption
    | with_reducible apply hostStore_keeps
    | with_reducible apply stratusWrite_keeps
    | with_reducible apply Keeps.ite

theorem unitPlace_keeps {s0 s : State} (h : Keeps s0 s) (p : Nat) (w : UnitWait) : Keeps s0 (unitPlace s p w) := by
  unfold unitPlace
  repeat' first
    | with_reducible assumption
    | with_reducible apply modPart_keeps
    | with_reducible apply holdWrite_keeps
    | with_reducible apply staleErr_keeps
    | with_reducible apply unitStore_keeps
    | with_reducible apply Keeps.ite
    | with_reducible refine Keeps.foldl ?_ _ _ (fun t x ht => ?_)
    | dsimp only
    | split

theorem wakeUnits_keeps {s0 s : State} (h : Keeps s0 s) (p : Nat) : Keeps s0 (wakeUnits s p) := by
  unfold wakeUnits
  repeat' first
    | with_reducible assumption
    | with_reducible apply modPart_keeps
    | with_reducible apply unitPlace_keeps
    | with_reducible refine Keeps.foldl ?_ _ _ (fun t x ht => ?_)

theorem execDieClearDone_keeps {s0 s : State} (h : Keeps s0 s) (die : Nat) :
    ResKeeps s0 (execDieClearDone die s) := by
  unfold execDieClearDone
  repeat' first
    | with_reducible assumption
    | with_reducible apply modDie_keeps
    | with_reducible apply odOr_keeps
    | with_reducible apply depositWrite_keeps
    | with_reducible apply clearDie_keeps
    | with_reducible apply wakeUnits_keeps
    | with_reducible apply ResKeeps.next
    | with_reducible apply ResKeeps.ite
    | with_reducible refine Keeps.foldl ?_ _ _ (fun t x ht => ?_)

end Sys2Proof.Machine
end

