-- ==== Sys2Proof/Laws/KeepsFarTier.lean ====
section
/-!
SUPPORT. `Keeps` for the operations of FarTier.
-/

namespace Sys2Proof.Machine

theorem farFail_keeps {s0 s : State} (h : Keeps s0 s) (p : Nat) (addr : Nat) (hint : Nat) (n : Nat) (cell : Option Nat) :
    OptKeeps s0 (farFail s p addr hint n cell) := by
  unfold farFail
  repeat' first
    | with_reducible assumption
    | with_reducible apply cellErr_keeps
    | with_reducible apply coreErr_keeps
    | with_reducible apply staleErr_keeps
    | with_reducible apply OptKeeps.some
    | with_reducible apply OptKeeps.ite
    | with_reducible refine OptKeeps.map (fun x => ?_) _
    | dsimp only
    | split

theorem joinWaits_keeps {s0 s : State} (h : Keeps s0 s) (r : FarReq) : Keeps s0 (joinWaits s r) := by
  unfold joinWaits
  repeat' first
    | with_reducible assumption
    | with_reducible apply modMd_keeps
    | with_reducible apply Keeps.ite

theorem tagError_keeps {s0 s : State} (h : Keeps s0 s) (md : Nat) (set : Nat) (way : Nat) :
    Keeps s0 (tagError s md set way) := by
  unfold tagError
  repeat' first
    | with_reducible assumption
    | with_reducible apply modMd_keeps
    | with_reducible apply countTotal_keeps
    | with_reducible apply containErr_keeps
    | dsimp only
    | split

theorem unitWrite_keeps {s0 s : State} (h : Keeps s0 s) (p : Nat) (a : Nat) (hint : Nat) (src : Writer) (bs : List Byte) (poison : Bool) :
    Keeps s0 (unitWrite s p a hint src bs poison) := by
  unfold unitWrite
  repeat' first
    | with_reducible assumption
    | with_reducible apply holdWrite_keeps
    | with_reducible apply writePiece_keeps
    | with_reducible refine Keeps.foldl ?_ _ _ (fun t x ht => ?_)
    | dsimp only
    | split

theorem farDo_keeps {s0 s : State} (h : Keeps s0 s) (r : FarReq) : Keeps s0 (farDo s r) := by
  unfold farDo
  repeat' first
    | with_reducible assumption
    | with_reducible apply farRead_keeps
    | with_reducible apply spaceWrite_keeps
    | with_reducible apply admitReserved_keeps
    | with_reducible apply unitWrite_keeps
    | with_reducible apply Keeps.ite
    | split

theorem farRequest_keeps {s0 s : State} (h : Keeps s0 s) (p : Nat) (a : Nat) (hint : Nat) (n : Nat) (cell : Option Nat) (r : FarReq) :
    Keeps s0 (farRequest s p a hint n cell r) := by
  unfold farRequest
  repeat' first
    | with_reducible assumption
    | with_reducible apply farFail_keeps
    | with_reducible apply joinWaits_keeps
    | with_reducible apply farDo_keeps
    | with_reducible apply Keeps.ite
    | with_reducible refine OptKeeps.of_eq ?_ (by with_reducible assumption)
    | split

theorem retryWaits_keeps {s0 s : State} (h : Keeps s0 s) (l : List FarReq) : Keeps s0 (retryWaits s l) := by
  induction l generalizing s with
  | nil => exact h
  | cons r l ih =>
    cases r <;> exact ih (farRequest_keeps h ..)

theorem coreStop_keeps {s0 s : State} (h : Keeps s0 s) (p : Nat) (k : Nat) (a : Nat) (n : Nat) :
    OptKeeps s0 (coreStop s p k a n) := by
  unfold coreStop
  repeat' first
    | with_reducible assumption
    | with_reducible apply coreErrAt_keeps
    | with_reducible apply OptKeeps.some
    | with_reducible apply OptKeeps.none
    | with_reducible apply OptKeeps.ite
    | split

theorem wakeMd_keeps {s0 s : State} (h : Keeps s0 s) (m : Nat) : Keeps s0 (wakeMd s m) := by
  unfold wakeMd
  repeat' first
    | with_reducible assumption
    | with_reducible apply modMd_keeps
    | with_reducible apply retryWaits_keeps

theorem wakeMds_keeps {s0 s : State} (h : Keeps s0 s) : Keeps s0 (wakeMds s) := by
  unfold wakeMds
  repeat' first
    | with_reducible assumption
    | with_reducible apply wakeUnits_keeps
    | with_reducible apply wakeMd_keeps
    | with_reducible refine Keeps.foldl ?_ _ _ (fun t x ht => ?_)

theorem unitPut_keeps {s0 s : State} (h : Keeps s0 s) (p : Nat) (src : Writer) (space : Nat) (hint : Nat) (a : Nat) (bs : List Byte) (poison : Bool) :
    Keeps s0 (unitPut s p src space hint a bs poison) := by
  unfold unitPut
  repeat' first
    | with_reducible assumption
    | with_reducible apply unitPlace_keeps
    | with_reducible apply farRequest_keeps
    | with_reducible apply Keeps.ite

theorem unitReadStop_keeps {s0 s : State} (h : Keeps s0 s) (p : Nat) (space : Nat) (a : Nat) (n : Nat) :
    OptKeeps s0 (unitReadStop s p space a n) := by
  unfold unitReadStop
  repeat' first
    | with_reducible assumption
    | with_reducible apply staleErr_keeps
    | with_reducible apply OptKeeps.some
    | with_reducible apply OptKeeps.none
    | with_reducible apply OptKeeps.ite
    | split

theorem unitReads_keeps {s0 s : State} (h : Keeps s0 s) (p : Nat) (space : Nat) (hint : Nat) (a : Nat) (n : Nat) :
    Keeps s0 (unitReads s p space hint a n) := by
  unfold unitReads
  repeat' first
    | with_reducible assumption
    | with_reducible apply odAdd_keeps
    | with_reducible apply farRead_keeps
    | with_reducible apply stratusSeen_keeps
    | split

theorem blockErrs_keeps {s0 s : State} (h : Keeps s0 s) (p : Nat) (base : Nat) (es : List SymErr) :
    Keeps s0 (blockErrs s p base es) := by
  unfold blockErrs
  repeat' first
    | with_reducible assumption
    | with_reducible apply odInc_keeps
    | with_reducible apply corrected_keeps
    | with_reducible apply deferred_keeps
    | with_reducible apply modLines_keeps
    | with_reducible apply injectFlips_keeps
    | with_reducible apply Keeps.ite
    | with_reducible refine Keeps.foldl ?_ _ _ (fun t x ht => ?_)
    | dsimp only
    | split

theorem injectErrs_keeps {s0 s : State} (h : Keeps s0 s) (p : Nat) (a : Nat) (errs : List SymErr) :
    Keeps s0 (injectErrs s p a errs) := by
  unfold injectErrs
  repeat' first
    | with_reducible assumption
    | with_reducible apply blockErrs_keeps
    | with_reducible refine Keeps.foldl ?_ _ _ (fun t x ht => ?_)

theorem execLineRead_keeps {s0 s : State} (h : Keeps s0 s) (p : Nat) (addr : Nat) (len : Nat) (hint : Nat) (reserved : Bool) (errs : List SymErr) (tagFail : Option Nat) :
    ResKeeps s0 (execLineRead p addr len hint reserved errs tagFail s) := by
  unfold execLineRead
  repeat' first
    | with_reducible assumption
    | with_reducible apply farFail_keeps
    | with_reducible apply tagError_keeps
    | with_reducible apply farRequest_keeps
    | with_reducible apply injectErrs_keeps
    | with_reducible apply ResKeeps.next
    | with_reducible apply OptKeeps.ite
    | with_reducible refine OptKeeps.of_eq ?_ (by with_reducible assumption)
    | dsimp only
    | split

theorem execLineWrite_keeps {s0 s : State} (h : Keeps s0 s) (p : Nat) (addr : Nat) (hint : Nat) (src : Writer) (data : List Byte) (poison : Bool) :
    ResKeeps s0 (execLineWrite p addr hint src data poison s) := by
  unfold execLineWrite
  repeat' first
    | with_reducible assumption
    | with_reducible apply farRequest_keeps
    | with_reducible apply ResKeeps.next

theorem execStreamWriteMerge_keeps {s0 s : State} (h : Keeps s0 s) (p : Nat) (addr : Nat) :
    ResKeeps s0 (execStreamWriteMerge p addr s) := by
  unfold execStreamWriteMerge
  repeat' first
    | with_reducible assumption
    | with_reducible apply closeMerge_keeps
    | with_reducible apply ResKeeps.next

theorem startMaint_keeps {s0 s : State} (h : Keeps s0 s) (p : Nat) (base : Nat) (size : Nat) :
    Keeps s0 (startMaint s p base size) := by
  unfold startMaint
  repeat' first
    | with_reducible assumption
    | with_reducible apply modMd_keeps
    | with_reducible refine Keeps.foldl ?_ _ _ (fun t x ht => ?_)

theorem execMscCleanRange_keeps {s0 s : State} (h : Keeps s0 s) (p : Nat) (base : Nat) (size : Nat) :
    ResKeeps s0 (execMscCleanRange p base size s) := by
  unfold execMscCleanRange
  repeat' first
    | with_reducible assumption
    | with_reducible apply maintain_keeps
    | with_reducible apply startMaint_keeps
    | with_reducible apply ResKeeps.next

theorem execMscDiscardRange_keeps {s0 s : State} (h : Keeps s0 s) (p : Nat) (base : Nat) (size : Nat) :
    ResKeeps s0 (execMscDiscardRange p base size s) := by
  unfold execMscDiscardRange
  repeat' first
    | with_reducible assumption
    | with_reducible apply maintain_keeps
    | with_reducible apply startMaint_keeps
    | with_reducible apply ResKeeps.next

theorem execMscCleanDiscardRange_keeps {s0 s : State} (h : Keeps s0 s) (p : Nat) (base : Nat) (size : Nat) :
    ResKeeps s0 (execMscCleanDiscardRange p base size s) := by
  unfold execMscCleanDiscardRange
  repeat' first
    | with_reducible assumption
    | with_reducible apply maintain_keeps
    | with_reducible apply startMaint_keeps
    | with_reducible apply ResKeeps.next

theorem discardWays_keeps {s0 s : State} (h : Keeps s0 s) (p : Nat) : Keeps s0 (discardWays s p) := by
  unfold discardWays
  repeat' first
    | with_reducible assumption
    | with_reducible apply modMd_keeps
    | with_reducible apply closeMerge_keeps
    | with_reducible refine Keeps.foldl ?_ _ _ (fun t x ht => ?_)

theorem cleanWays_keeps {s0 s : State} (h : Keeps s0 s) (p : Nat) : Keeps s0 (cleanWays s p) := by
  unfold cleanWays
  repeat' first
    | with_reducible assumption
    | with_reducible apply maintain_keeps

theorem execMscDiscardWays_keeps {s0 s : State} (h : Keeps s0 s) (p : Nat) :
    ResKeeps s0 (execMscDiscardWays p s) := by
  unfold execMscDiscardWays
  repeat' first
    | with_reducible assumption
    | with_reducible apply startMaint_keeps
    | with_reducible apply discardWays_keeps
    | with_reducible apply ResKeeps.next

theorem execMscCleanWays_keeps {s0 s : State} (h : Keeps s0 s) (p : Nat) : ResKeeps s0 (execMscCleanWays p s) := by
  unfold execMscCleanWays
  repeat' first
    | with_reducible assumption
    | with_reducible apply startMaint_keeps
    | with_reducible apply cleanWays_keeps
    | with_reducible apply ResKeeps.next

theorem execMscMaintDone_keeps {s0 s : State} (h : Keeps s0 s) (md : Nat) (p : Nat) :
    ResKeeps s0 (execMscMaintDone md p s) := by
  unfold execMscMaintDone
  repeat' first
    | with_reducible assumption
    | with_reducible apply modMd_keeps
    | with_reducible apply wakeMd_keeps
    | with_reducible apply ResKeeps.next

theorem execDrizzleRead_keeps {s0 s : State} (h : Keeps s0 s) (p : Nat) (addr : Nat) (errs : List SymErr) :
    ResKeeps s0 (execDrizzleRead p addr errs s) := by
  unfold execDrizzleRead
  repeat' first
    | with_reducible assumption
    | with_reducible apply farFail_keeps
    | with_reducible apply farRequest_keeps
    | with_reducible apply injectErrs_keeps
    | with_reducible apply ResKeeps.next
    | with_reducible refine OptKeeps.of_eq ?_ (by with_reducible assumption)
    | split

theorem execDrizzleWrite_keeps {s0 s : State} (h : Keeps s0 s) (p : Nat) (addr : Nat) (data : List Byte) (poison : Bool) :
    ResKeeps s0 (execDrizzleWrite p addr data poison s) := by
  unfold execDrizzleWrite
  repeat' first
    | with_reducible assumption
    | with_reducible apply farRequest_keeps
    | with_reducible apply ResKeeps.next

theorem execRefresh_keeps {s0 s : State} (h : Keeps s0 s) (group : Nat) (ratePct : Nat) :
    ResKeeps s0 (execRefresh group ratePct s) := by
  unfold execRefresh
  repeat' first
    | with_reducible assumption
    | with_reducible apply recordOnly_keeps
    | with_reducible apply retireErr_keeps
    | with_reducible apply ResKeeps.next
    | with_reducible apply ResKeeps.ite

theorem failRequests_keeps {s0 s : State} (h : Keeps s0 s) (group : Nat) (chan : Option Nat) :
    Keeps s0 (failRequests s group chan) := by
  unfold failRequests
  repeat' first
    | with_reducible assumption
    | with_reducible apply modMd_keeps
    | with_reducible exact Nat.le_refl _
    | with_reducible exact id
    | with_reducible exact fun _ x => x
    | dsimp only
    | (fail_if_no_progress (with_reducible apply Keeps.lit))

theorem execMemRequestTimeout_keeps {s0 s : State} (h : Keeps s0 s) (group : Nat) (channel : Nat) :
    ResKeeps s0 (execMemRequestTimeout group channel s) := by
  unfold execMemRequestTimeout
  repeat' first
    | with_reducible assumption
    | with_reducible apply odOr_keeps
    | with_reducible apply record_keeps
    | with_reducible apply retireErr_keeps
    | with_reducible apply failRequests_keeps
    | with_reducible apply ResKeeps.next

theorem hostStop_keeps {s0 s : State} (h : Keeps s0 s) (p : Nat) (window : Nat) (off : Nat) (n : Nat) :
    OptKeeps s0 (hostStop s p window off n) := by
  unfold hostStop
  repeat' first
    | with_reducible assumption
    | with_reducible apply coreErr_keeps
    | with_reducible apply staleErr_keeps
    | with_reducible apply OptKeeps.some
    | with_reducible apply OptKeeps.none
    | with_reducible apply OptKeeps.ite
    | split

theorem execHostRead_keeps {s0 s : State} (h : Keeps s0 s) (p : Nat) (window : Nat) (offset : Nat) (len : Nat) :
    ResKeeps s0 (execHostRead p window offset len s) := by
  unfold execHostRead
  repeat' first
    | with_reducible assumption
    | with_reducible apply hostStop_keeps
    | with_reducible apply ResKeeps.next
    | with_reducible apply ResKeeps.ite
    | with_reducible refine OptKeeps.of_eq ?_ (by with_reducible assumption)
    | with_reducible exact Nat.le_refl _
    | with_reducible exact id
    | with_reducible exact fun _ x => x
    | dsimp only
    | split
    | (fail_if_no_progress (with_reducible apply Keeps.lit))

theorem execHostReadComplete_keeps {s0 s : State} (h : Keeps s0 s) (id : Nat) (ok : Bool) (data : List Byte) :
    ResKeeps s0 (execHostReadComplete id ok data s) := by
  unfold execHostReadComplete
  repeat' first
    | with_reducible assumption
    | with_reducible apply odAdd_keeps
    | with_reducible apply deferred_keeps
    | with_reducible apply hostBytes_keeps
    | with_reducible apply ResKeeps.next
    | with_reducible apply ResKeeps.ite
    | with_reducible exact Nat.le_refl _
    | with_reducible exact fun _ x => x
    | intro _
    | dsimp only
    | split
    | (fail_if_no_progress (with_reducible apply Keeps.lit))

theorem execHostWrite_keeps {s0 s : State} (h : Keeps s0 s) (p : Nat) (window : Nat) (offset : Nat) (data : List Byte) :
    ResKeeps s0 (execHostWrite p window offset data s) := by
  unfold execHostWrite
  repeat' first
    | with_reducible assumption
    | with_reducible apply holdWrite_keeps
    | with_reducible apply hostStore_keeps
    | with_reducible apply hostStop_keeps
    | with_reducible apply ResKeeps.next
    | with_reducible apply ResKeeps.ite
    | with_reducible refine OptKeeps.of_eq ?_ (by with_reducible assumption)
    | with_reducible refine Keeps.foldl ?_ _ _ (fun t x ht => ?_)
    | dsimp only
    | split

end Sys2Proof.Machine
end

