-- ==== Sys2Proof/Laws/KeepsMoves.lean ====
section
/-!
SUPPORT. `Keeps` for the operations of Moves.
-/

namespace Sys2Proof.Machine

theorem objWrite_keeps {s0 s : State} (h : Keeps s0 s) (p : Nat) (obj : Nat) (e : ObjEnt) :
    Keeps s0 (objWrite s p obj e) := by
  unfold objWrite
  repeat' first
    | with_reducible assumption
    | with_reducible apply writePiece_keeps

theorem tierSeen_keeps {s0 s : State} (h : Keeps s0 s) (p : Nat) (tier : Nat) (a : Nat) :
    Keeps s0 (tierSeen s p tier a) := by
  unfold tierSeen
  repeat' first
    | with_reducible assumption
    | with_reducible apply farRead_keeps
    | with_reducible apply scratchCheck_keeps
    | with_reducible apply stratusSeen_keeps
    | dsimp only
    | split

theorem tierWrite_keeps {s0 s : State} (h : Keeps s0 s) (p : Nat) (tier : Nat) (hint : Nat) (a : Nat) (us : List (List Byte × Bool)) :
    Keeps s0 (tierWrite s p tier hint a us) := by
  unfold tierWrite
  repeat' first
    | with_reducible assumption
    | with_reducible apply closeMerge_keeps
    | with_reducible apply writePiece_keeps
    | with_reducible apply hostStore_keeps
    | with_reducible apply scratchForeign_keeps
    | with_reducible apply stratusWrite_keeps
    | with_reducible refine Keeps.foldl ?_ _ _ (fun t x ht => ?_)
    | dsimp only
    | split

theorem heldWrite_keeps {s0 s : State} (h : Keeps s0 s) (p : Nat) (tier : Nat) (a : Nat) (h : HeldWrite) :
    Keeps s0 (heldWrite s p tier a h) := by
  unfold heldWrite
  repeat' first
    | with_reducible assumption
    | with_reducible apply farWrite_keeps
    | with_reducible apply hostStore_keeps
    | with_reducible apply scratchForeign_keeps
    | with_reducible apply stratusWrite_keeps
    | split

theorem requestMove_keeps {s0 s : State} (h : Keeps s0 s) (p : Nat) (obj : Nat) (tier : Nat) (addr : Nat) (sem : Nat) (release : Bool) (pf : Option Nat) :
    Keeps s0 (requestMove s p obj tier addr sem release pf).1 := by
  unfold requestMove
  repeat' first
    | with_reducible assumption
    | with_reducible apply modPart_keeps
    | with_reducible apply odInc_keeps
    | with_reducible apply coreErr_keeps
    | with_reducible apply farRead_keeps
    | with_reducible apply coreStop_keeps
    | with_reducible apply objWrite_keeps
    | with_reducible apply Keeps.iteFst
    | with_reducible refine OptKeeps.of_eq ?_ (by with_reducible assumption)
    | dsimp only
    | split

theorem execMove_keeps {s0 s : State} (h : Keeps s0 s) (p : Nat) (obj : Nat) (tier : Nat) (addr : Nat) (sem : Nat) :
    ResKeeps s0 (execMove p obj tier addr sem s) := by
  unfold execMove
  repeat' first
    | with_reducible assumption
    | with_reducible apply emit_keeps
    | with_reducible apply requestMove_keeps
    | with_reducible apply ResKeeps.next
    | dsimp only
    | split

theorem copyMove_keeps {s0 s : State} (h : Keeps s0 s) (p : Nat) (r : MoveRec) : Keeps s0 (copyMove s p r) := by
  unfold copyMove
  repeat' first
    | with_reducible assumption
    | with_reducible apply maintain_keeps
    | with_reducible apply tierSeen_keeps
    | with_reducible apply tierWrite_keeps
    | with_reducible apply Keeps.ite
    | with_reducible refine Keeps.foldl ?_ _ _ (fun t x ht => ?_)

theorem execMoveComplete_keeps {s0 s : State} (h : Keeps s0 s) (p : Nat) (obj : Nat) :
    ResKeeps s0 (execMoveComplete p obj s) := by
  unfold execMoveComplete
  repeat' first
    | with_reducible assumption
    | with_reducible apply modPart_keeps
    | with_reducible apply odAdd_keeps
    | with_reducible apply odInc_keeps
    | with_reducible apply maintain_keeps
    | with_reducible apply signalSem_keeps
    | with_reducible apply wakeMds_keeps
    | with_reducible apply objWrite_keeps
    | with_reducible apply heldWrite_keeps
    | with_reducible apply copyMove_keeps
    | with_reducible apply ResKeeps.next
    | with_reducible apply Keeps.ite
    | with_reducible refine Keeps.foldl ?_ _ _ (fun t x ht => ?_)
    | dsimp only
    | split

theorem freeRange_keeps {s0 s : State} (h : Keeps s0 s) (p : Nat) (r : MoveRec) : Keeps s0 (freeRange s p r) := by
  unfold freeRange
  repeat' first
    | with_reducible assumption
    | with_reducible apply fresh_keeps
    | with_reducible apply markBypass_keeps
    | with_reducible apply tierWrite_keeps
    | with_reducible apply Keeps.ite
    | with_reducible refine Keeps.foldl ?_ _ _ (fun t x ht => ?_)
    | with_reducible exact Nat.le_refl _
    | with_reducible exact id
    | with_reducible exact fun _ x => x
    | dsimp only
    | (fail_if_no_progress (with_reducible apply Keeps.lit))

theorem abortMove_keeps {s0 s : State} (h : Keeps s0 s) (p : Nat) (r : MoveRec) : Keeps s0 (abortMove s p r) := by
  unfold abortMove
  repeat' first
    | with_reducible assumption
    | with_reducible apply modPart_keeps
    | with_reducible apply odInc_keeps
    | with_reducible apply wakeMds_keeps
    | with_reducible apply objWrite_keeps
    | with_reducible apply heldWrite_keeps
    | with_reducible apply freeRange_keeps
    | with_reducible refine Keeps.foldl ?_ _ _ (fun t x ht => ?_)

theorem execMoveAbort_keeps {s0 s : State} (h : Keeps s0 s) (p : Nat) (obj : Nat) :
    ResKeeps s0 (execMoveAbort p obj s) := by
  unfold execMoveAbort
  repeat' first
    | with_reducible assumption
    | with_reducible apply abortMove_keeps
    | with_reducible apply ResKeeps.next
    | split

theorem execMoveRelease_keeps {s0 s : State} (h : Keeps s0 s) (p : Nat) (obj : Nat) :
    ResKeeps s0 (execMoveRelease p obj s) := by
  unfold execMoveRelease
  repeat' first
    | with_reducible assumption
    | with_reducible apply modPart_keeps
    | with_reducible apply ResKeeps.next

theorem prefetchMove_keeps {s0 s : State} (h : Keeps s0 s) (p : Nat) (pos : Nat) (x : Prefetch) :
    Keeps s0 (prefetchMove s p pos x) := by
  unfold prefetchMove
  repeat' first
    | with_reducible assumption
    | with_reducible apply modPart_keeps
    | with_reducible apply emit_keeps
    | with_reducible apply coreErr_keeps
    | with_reducible apply coreStop_keeps
    | with_reducible apply requestMove_keeps
    | with_reducible apply Keeps.ite
    | with_reducible refine OptKeeps.of_eq ?_ (by with_reducible assumption)
    | dsimp only
    | split

theorem execPrefetchRecord_keeps {s0 s : State} (h : Keeps s0 s) (p : Nat) :
    ResKeeps s0 (execPrefetchRecord p s) := by
  unfold execPrefetchRecord
  repeat' first
    | with_reducible assumption
    | with_reducible apply modJob_keeps
    | with_reducible apply coreErr_keeps
    | with_reducible apply farRead_keeps
    | with_reducible apply semTake_keeps
    | with_reducible apply coreStop_keeps
    | with_reducible apply prefetchMove_keeps
    | with_reducible apply ResKeeps.next
    | with_reducible apply ResKeeps.ite
    | with_reducible refine OptKeeps.of_eq ?_ (by with_reducible assumption)
    | dsimp only
    | split

theorem execPrefetchRetry_keeps {s0 s : State} (h : Keeps s0 s) (p : Nat) : ResKeeps s0 (execPrefetchRetry p s) := by
  unfold execPrefetchRetry
  repeat' first
    | with_reducible assumption
    | with_reducible apply prefetchMove_keeps
    | with_reducible apply ResKeeps.next
    | dsimp only
    | split

theorem execScaleAdvance_keeps {s0 s : State} (h : Keeps s0 s) (p : Nat) (sem : Nat) :
    ResKeeps s0 (execScaleAdvance p sem s) := by
  unfold execScaleAdvance
  repeat' first
    | with_reducible assumption
    | with_reducible apply modPart_keeps
    | with_reducible apply odAdd_keeps
    | with_reducible apply odInc_keeps
    | with_reducible apply ResKeeps.next
    | dsimp only
    | split

theorem publishScale_keeps {s0 s : State} (h : Keeps s0 s) (p : Nat) : Keeps s0 (publishScale s p) := by
  unfold publishScale
  repeat' first
    | with_reducible assumption
    | with_reducible apply modPart_keeps
    | with_reducible apply stratusWrite_keeps

theorem execScaleAdvanceDone_keeps {s0 s : State} (h : Keeps s0 s) (p : Nat) :
    ResKeeps s0 (execScaleAdvanceDone p s) := by
  unfold execScaleAdvanceDone
  repeat' first
    | with_reducible assumption
    | with_reducible apply modPart_keeps
    | with_reducible apply signalSem_keeps
    | with_reducible apply publishScale_keeps
    | with_reducible apply ResKeeps.next
    | dsimp only
    | split

theorem settleScale_keeps {s0 s : State} (h : Keeps s0 s) (p : Nat) : Keeps s0 (settleScale s p) := by
  unfold settleScale
  repeat' first
    | with_reducible assumption
    | with_reducible apply modPart_keeps
    | with_reducible apply signalSem_keeps
    | with_reducible apply publishScale_keeps
    | dsimp only
    | split

theorem writeScale_keeps {s0 s : State} (h : Keeps s0 s) (p : Nat) : Keeps s0 (writeScale s p) := by
  unfold writeScale
  repeat' first
    | with_reducible assumption
    | with_reducible apply farWrite_keeps
    | with_reducible apply Keeps.ite

end Sys2Proof.Machine
end

