-- ==== Sys2Proof/Laws/KeepsMediaCore.lean ====
section
/-!
SUPPORT. `Keeps` for the operations of MediaCore.
-/

namespace Sys2Proof.Machine

theorem entryWrite_keeps {s0 s : State} (h : Keeps s0 s) (r : ReqRef) (off : Nat) (bs : List Byte) :
    Keeps s0 (entryWrite s r off bs) := by
  unfold entryWrite
  repeat' first
    | with_reducible assumption
    | with_reducible apply forTenant_keeps
    | with_reducible apply ringWrite_keeps
    | intro _
    | split

theorem mediaWrite_keeps {s0 s : State} (h : Keeps s0 s) (p : Nat) (a : Nat) (hint : Nat) (bs : List Byte) (poison : Bool) :
    Keeps s0 (mediaWrite s p a hint bs poison) := by
  unfold mediaWrite
  repeat' first
    | with_reducible assumption
    | with_reducible apply unitPut_keeps

theorem mediaRead_keeps {s0 s : State} (h : Keeps s0 s) (p : Nat) (a : Nat) (n : Nat) (hint : Nat) :
    Keeps s0 (mediaRead s p a n hint) := by
  unfold mediaRead
  repeat' first
    | with_reducible assumption
    | with_reducible apply farRequest_keeps
    | with_reducible apply Keeps.ite

theorem modCtx_keeps {s0 s : State} (h : Keeps s0 s) (p : Nat) (ctx : Nat) (f : CtxSt → CtxSt) :
    Keeps s0 (modCtx s p ctx f) := by
  unfold modCtx
  repeat' first
    | with_reducible assumption
    | with_reducible apply modPart_keeps

theorem ctxPut_keeps {s0 s : State} (h : Keeps s0 s) (p : Nat) (ctx : Nat) (off : Nat) (n : Nat) (v : Nat) :
    Keeps s0 (ctxPut s p ctx off n v) := by
  unfold ctxPut
  repeat' first
    | with_reducible assumption
    | with_reducible apply mediaWrite_keeps
    | with_reducible apply modCtx_keeps
    | with_reducible apply Keeps.ite

theorem ctxLoad_keeps {s0 s : State} (h : Keeps s0 s) (p : Nat) (ctx : Nat) : Keeps s0 (ctxLoad s p ctx) := by
  unfold ctxLoad
  repeat' first
    | with_reducible assumption
    | with_reducible apply mediaRead_keeps
    | with_reducible apply modCtx_keeps
    | with_reducible apply Keeps.ite

theorem ctxSave_keeps {s0 s : State} (h : Keeps s0 s) (p : Nat) (ctx : Nat) : Keeps s0 (ctxSave s p ctx) := by
  unfold ctxSave
  repeat' first
    | with_reducible assumption
    | with_reducible apply fresh_keeps
    | with_reducible apply mediaWrite_keeps
    | with_reducible apply Keeps.ite

theorem ctxDrop_keeps {s0 s : State} (h : Keeps s0 s) (p : Nat) (ctx : Nat) : Keeps s0 (ctxDrop s p ctx) := by
  unfold ctxDrop
  repeat' first
    | with_reducible assumption
    | with_reducible apply modCtx_keeps
    | with_reducible apply ctxSave_keeps

theorem setCtxState_keeps {s0 s : State} (h : Keeps s0 s) (p : Nat) (ctx : Nat) (v : Nat) :
    Keeps s0 (setCtxState s p ctx v) := by
  unfold setCtxState
  repeat' first
    | with_reducible assumption
    | with_reducible apply ctxPut_keeps

theorem setMark_keeps {s0 s : State} (h : Keeps s0 s) (p : Nat) (b : Nat) (m : Mark) :
    Keeps s0 (setMark s p b m) := by
  unfold setMark
  repeat' first
    | with_reducible assumption
    | with_reducible apply modPart_keeps

theorem clearRefs_keeps {s0 s : State} (h : Keeps s0 s) (p : Nat) (ctx : Nat) : Keeps s0 (clearRefs s p ctx) := by
  unfold clearRefs
  repeat' first
    | with_reducible assumption
    | with_reducible apply setMark_keeps
    | with_reducible apply Keeps.ite
    | with_reducible refine Keeps.foldl ?_ _ _ (fun t x ht => ?_)

theorem writeRec_keeps {s0 s : State} (h : Keeps s0 s) (p : Nat) (ctx : Nat) (r : List Byte) :
    Keeps s0 (writeRec s p ctx r) := by
  unfold writeRec
  repeat' first
    | with_reducible assumption
    | with_reducible apply mediaWrite_keeps
    | with_reducible apply modCtx_keeps
    | with_reducible apply ctxPut_keeps
    | with_reducible apply setMark_keeps
    | with_reducible apply Keeps.ite

theorem pushRec_keeps {s0 s : State} (h : Keeps s0 s) (p : Nat) (ctx : Nat) (r : List Byte) :
    Keeps s0 (pushRec s p ctx r) := by
  unfold pushRec
  repeat' first
    | with_reducible assumption
    | with_reducible apply modCtx_keeps
    | with_reducible apply writeRec_keeps
    | with_reducible apply Keeps.ite

theorem outputPic_keeps {s0 s : State} (h : Keeps s0 s) (p : Nat) (ctx : Nat) (b : Nat) :
    Keeps s0 (outputPic s p ctx b) := by
  unfold outputPic
  repeat' first
    | with_reducible assumption
    | with_reducible apply modCtx_keeps
    | with_reducible apply ctxPut_keeps
    | with_reducible apply pushRec_keeps
    | with_reducible refine Keeps.foldl ?_ _ _ (fun t x ht => ?_)
    | dsimp only
    | split

end Sys2Proof.Machine
end

