-- ==== Sys2Proof/Laws/KeepsWriter.lean ====
section
/-!
SUPPORT. `Keeps` for the operations of Writer.
-/

namespace Sys2Proof.Machine

theorem writerPut_keeps {s0 s : State} (h : Keeps s0 s) (p : Nat) (space : Nat) (base : Nat) (off : Nat) (bs : List Byte) (poison : Bool) :
    Keeps s0 (writerPut s p space base off bs poison) := by
  unfold writerPut
  repeat' first
    | with_reducible assumption
    | with_reducible apply unitPut_keeps

theorem readList_keeps {s0 s : State} (h : Keeps s0 s) (p : Nat) (x : Sample) : Keeps s0 (readList s p x) := by
  unfold readList
  repeat' first
    | with_reducible assumption
    | with_reducible apply mediaRead_keeps

theorem setSample_keeps {s0 s : State} (h : Keeps s0 s) (p : Nat) (x : Sample) : Keeps s0 (setSample s p x) := by
  unfold setSample
  repeat' first
    | with_reducible assumption
    | with_reducible apply modPart_keeps

theorem writeRuns_keeps {s0 s : State} (h : Keeps s0 s) (p : Nat) (x : Sample) (ph : Phase) (rs : List (Nat × List Byte × Bool)) :
    Keeps s0 (writeRuns s p x ph rs) := by
  unfold writeRuns
  repeat' first
    | with_reducible assumption
    | with_reducible apply writerPut_keeps
    | with_reducible refine Keeps.foldl ?_ _ _ (fun t x ht => ?_)
    | dsimp only
    | split

theorem writeStats_keeps {s0 s : State} (h : Keeps s0 s) (p : Nat) (x : Sample) (ph : Phase) (slot : Nat) (bs : List Byte) (poison : Bool) :
    Keeps s0 (writeStats s p x ph slot bs poison) := by
  unfold writeStats
  repeat' first
    | with_reducible assumption
    | with_reducible apply writerPut_keeps
    | with_reducible apply Keeps.ite
    | dsimp only
    | split

theorem writeMarks_keeps {s0 s : State} (h : Keeps s0 s) (p : Nat) (x : Sample) (ph : Phase) (tokens : Nat) :
    Keeps s0 (writeMarks s p x ph tokens) := by
  unfold writeMarks
  repeat' first
    | with_reducible assumption
    | with_reducible apply writerPut_keeps
    | with_reducible apply Keeps.ite

theorem setCache_keeps {s0 s : State} (h : Keeps s0 s) (p : Nat) (way : Nat) (e : CacheEnt) :
    Keeps s0 (setCache s p way e) := by
  unfold setCache
  repeat' first
    | with_reducible assumption
    | with_reducible apply modPart_keeps
    | with_reducible apply fresh_keeps
    | with_reducible apply unitPut_keeps

theorem claimCache_keeps {s0 s : State} (h : Keeps s0 s) (p : Nat) (x : Sample) (ph : Phase) :
    Keeps s0 (claimCache s p x ph).1 := by
  unfold claimCache
  repeat' first
    | with_reducible assumption
    | with_reducible apply odInc_keeps
    | with_reducible apply setCache_keeps
    | with_reducible apply Keeps.iteFst
    | split

theorem sampleDone_keeps {s0 s : State} (h : Keeps s0 s) (x : Sample) (code : Nat) (result : Nat) (frames : Nat) (tokens : Nat) :
    Keeps s0 (sampleDone s x code result frames tokens) := by
  unfold sampleDone
  repeat' first
    | with_reducible assumption
    | with_reducible apply signalSem_keeps
    | with_reducible apply entryWrite_keeps

theorem endSampleWith_keeps {s0 s : State} (h : Keeps s0 s) (p : Nat) (x : Sample) (code : Nat) (fill : Bool) :
    Keeps s0 (endSampleWith s p x code fill) := by
  unfold endSampleWith
  repeat' first
    | with_reducible assumption
    | with_reducible apply modPart_keeps
    | with_reducible apply odInc_keeps
    | with_reducible apply writeRuns_keeps
    | with_reducible apply writeStats_keeps
    | with_reducible apply writeMarks_keeps
    | with_reducible apply setCache_keeps
    | with_reducible apply sampleDone_keeps
    | with_reducible apply Keeps.ite
    | with_reducible apply Keeps.iteFst
    | with_reducible refine Keeps.foldl ?_ _ _ (fun t x ht => ?_)
    | dsimp only
    | split

theorem dropWriter_keeps {s0 s : State} (h : Keeps s0 s) (p : Nat) (ctx : Nat) : Keeps s0 (dropWriter s p ctx) := by
  unfold dropWriter
  repeat' first
    | with_reducible assumption
    | with_reducible apply modEngine_keeps
    | with_reducible apply Keeps.ite
    | with_reducible refine Keeps.foldl ?_ _ _ (fun t x ht => ?_)

theorem endSample_keeps {s0 s : State} (h : Keeps s0 s) (p : Nat) (ctx : Nat) (code : Nat) :
    Keeps s0 (endSample s p ctx code) := by
  unfold endSample
  repeat' first
    | with_reducible assumption
    | with_reducible apply endSampleWith_keeps
    | with_reducible apply dropWriter_keeps
    | split

end Sys2Proof.Machine
end

