-- ==== Sys2Proof/Laws/KeepsMedia.lean ====
section
/-!
SUPPORT. `Keeps` for the operations of Media.
-/

namespace Sys2Proof.Machine

theorem leaveEngine_keeps {s0 s : State} (h : Keeps s0 s) (p : Nat) (ctx : Nat) : Keeps s0 (leaveEngine s p ctx) := by
  unfold leaveEngine
  repeat' first
    | with_reducible assumption
    | with_reducible apply modEngine_keeps
    | with_reducible apply Keeps.ite
    | with_reducible refine Keeps.foldl ?_ _ _ (fun t x ht => ?_)

theorem takeOn_keeps {s0 s : State} (h : Keeps s0 s) (e : Nat) (p : Nat) (ctx : Nat) :
    Keeps s0 (takeOn s e p ctx) := by
  unfold takeOn
  repeat' first
    | with_reducible assumption
    | with_reducible apply modEngine_keeps
    | with_reducible apply ctxLoad_keeps
    | with_reducible apply ctxDrop_keeps
    | with_reducible apply setCtxState_keeps
    | with_reducible apply leaveEngine_keeps
    | with_reducible apply Keeps.ite
    | split

theorem parkOutput_keeps {s0 s : State} (h : Keeps s0 s) (p : Nat) (ctx : Nat) : Keeps s0 (parkOutput s p ctx) := by
  unfold parkOutput
  repeat' first
    | with_reducible assumption
    | with_reducible apply ctxPut_keeps
    | with_reducible apply ctxSave_keeps
    | with_reducible apply setCtxState_keeps
    | with_reducible apply leaveEngine_keeps

theorem parkBuffer_keeps {s0 s : State} (h : Keeps s0 s) (p : Nat) (ctx : Nat) : Keeps s0 (parkBuffer s p ctx) := by
  unfold parkBuffer
  repeat' first
    | with_reducible assumption
    | with_reducible apply modPart_keeps
    | with_reducible apply odInc_keeps
    | with_reducible apply ctxPut_keeps
    | with_reducible apply setCtxState_keeps
    | with_reducible apply leaveEngine_keeps

theorem mediaDone_keeps {s0 s : State} (h : Keeps s0 s) (q : MediaReq) (code : Nat) :
    Keeps s0 (mediaDone s q code) := by
  unfold mediaDone
  repeat' first
    | with_reducible assumption
    | with_reducible apply signalSem_keeps
    | with_reducible apply entryWrite_keeps

theorem instantReq_keeps {s0 s : State} (h : Keeps s0 s) (p : Nat) (ctx : Nat) (q : MediaReq) :
    Keeps s0 (instantReq s p ctx q) := by
  unfold instantReq
  repeat' first
    | with_reducible assumption
    | with_reducible apply modCtx_keeps
    | with_reducible apply setMark_keeps
    | with_reducible apply mediaDone_keeps
    | with_reducible apply Keeps.ite

theorem runInstant_keeps {s0 : State} (n : Nat) : ∀ {s : State}, Keeps s0 s → ∀ (p : Nat),
    Keeps s0 (runInstant n s p) := by
  induction n with
  | zero => intro s h p; exact h
  | succ n ih =>
    intro s h p
    rw [runInstant]
    split
    · exact h
    · exact ih (instantReq_keeps (modPart_keeps h ..) ..) _

theorem afterStart_keeps {s0 s : State} (h : Keeps s0 s) (p : Nat) : Keeps s0 (afterStart s p) := by
  unfold afterStart
  repeat' first
    | with_reducible assumption
    | with_reducible apply runInstant_keeps

theorem startHead_keeps {s0 s : State} (h : Keeps s0 s) (p : Nat) (ctx : Nat) : Keeps s0 (startHead s p ctx) := by
  unfold startHead
  repeat' first
    | with_reducible assumption
    | with_reducible apply modCtx_keeps
    | with_reducible apply afterStart_keeps

theorem finishReq_keeps {s0 s : State} (h : Keeps s0 s) (p : Nat) (ctx : Nat) (code : Nat) (st : Nat) :
    Keeps s0 (finishReq s p ctx code st) := by
  unfold finishReq
  repeat' first
    | with_reducible assumption
    | with_reducible apply modCtx_keeps
    | with_reducible apply ctxDrop_keeps
    | with_reducible apply setCtxState_keeps
    | with_reducible apply mediaDone_keeps
    | with_reducible apply afterStart_keeps
    | dsimp only
    | split

theorem failReqs_keeps {s0 s : State} (h : Keeps s0 s) (p : Nat) (ctx : Nat) (code : Nat) (st : Nat) :
    Keeps s0 (failReqs s p ctx code st) := by
  unfold failReqs
  repeat' first
    | with_reducible assumption
    | with_reducible apply modCtx_keeps
    | with_reducible apply ctxDrop_keeps
    | with_reducible apply setCtxState_keeps
    | with_reducible apply mediaDone_keeps
    | with_reducible apply afterStart_keeps
    | with_reducible refine Keeps.foldl ?_ _ _ (fun t x ht => ?_)

theorem sourceDepth_keeps {s0 s : State} (h : Keeps s0 s) (p : Nat) (b : Nat) : Keeps s0 (sourceDepth s p b).2 := by
  unfold sourceDepth
  repeat' first
    | with_reducible assumption
    | with_reducible apply fresh_keeps
    | dsimp only
    | split

theorem mediaIssue_keeps {s0 s : State} (h : Keeps s0 s) (r : ReqRef) (op : Nat) (raw : List Byte) :
    Keeps s0 (mediaIssue s r op raw) := by
  unfold mediaIssue
  repeat' first
    | with_reducible assumption
    | with_reducible apply modPart_keeps
    | with_reducible apply modCtx_keeps
    | with_reducible apply setCtxState_keeps
    | with_reducible apply endSample_keeps
    | with_reducible apply mediaDone_keeps
    | with_reducible apply afterStart_keeps
    | with_reducible apply sourceDepth_keeps
    | with_reducible apply Keeps.ite
    | with_reducible apply Keeps.iteSnd
    | dsimp only
    | split

theorem execDecode_keeps {s0 s : State} (h : Keeps s0 s) (r : ReqRef) (raw : List Byte) :
    ResKeeps s0 (execDecode r raw s) := by
  unfold execDecode
  repeat' first
    | with_reducible assumption
    | with_reducible apply mediaIssue_keeps
    | with_reducible apply ResKeeps.next

theorem execFlush_keeps {s0 s : State} (h : Keeps s0 s) (r : ReqRef) (raw : List Byte) :
    ResKeeps s0 (execFlush r raw s) := by
  unfold execFlush
  repeat' first
    | with_reducible assumption
    | with_reducible apply mediaIssue_keeps
    | with_reducible apply ResKeeps.next

theorem execReset_keeps {s0 s : State} (h : Keeps s0 s) (r : ReqRef) (raw : List Byte) :
    ResKeeps s0 (execReset r raw s) := by
  unfold execReset
  repeat' first
    | with_reducible assumption
    | with_reducible apply mediaIssue_keeps
    | with_reducible apply ResKeeps.next

theorem execRelease_keeps {s0 s : State} (h : Keeps s0 s) (r : ReqRef) (raw : List Byte) :
    ResKeeps s0 (execRelease r raw s) := by
  unfold execRelease
  repeat' first
    | with_reducible assumption
    | with_reducible apply mediaIssue_keeps
    | with_reducible apply ResKeeps.next

theorem execEncode_keeps {s0 s : State} (h : Keeps s0 s) (r : ReqRef) (raw : List Byte) :
    ResKeeps s0 (execEncode r raw s) := by
  unfold execEncode
  repeat' first
    | with_reducible assumption
    | with_reducible apply mediaIssue_keeps
    | with_reducible apply ResKeeps.next

theorem execAnalyse_keeps {s0 s : State} (h : Keeps s0 s) (r : ReqRef) (raw : List Byte) :
    ResKeeps s0 (execAnalyse r raw s) := by
  unfold execAnalyse
  repeat' first
    | with_reducible assumption
    | with_reducible apply mediaIssue_keeps
    | with_reducible apply ResKeeps.next

theorem execKey_keeps {s0 s : State} (h : Keeps s0 s) (r : ReqRef) (raw : List Byte) :
    ResKeeps s0 (execKey r raw s) := by
  unfold execKey
  repeat' first
    | with_reducible assumption
    | with_reducible apply mediaIssue_keeps
    | with_reducible apply ResKeeps.next

theorem charge_keeps {s0 s : State} (h : Keeps s0 s) (e : Nat) (p : Nat) (cycles : Nat) :
    Keeps s0 (charge s e p cycles) := by
  unfold charge
  repeat' first
    | with_reducible assumption
    | with_reducible apply modEngine_keeps
    | with_reducible apply anem_keeps
    | with_reducible apply Keeps.ite

theorem storePsets_keeps {s0 s : State} (h : Keeps s0 s) (p : Nat) (ctx : Nat) (xs : List (Nat × List Byte)) :
    Keeps s0 (storePsets s p ctx xs) := by
  unfold storePsets
  repeat' first
    | with_reducible assumption
    | with_reducible apply mediaWrite_keeps
    | with_reducible apply modCtx_keeps
    | with_reducible refine Keeps.foldl ?_ _ _ (fun t x ht => ?_)

theorem takeHeader_keeps {s0 s : State} (h : Keeps s0 s) (p : Nat) (ctx : Nat) (x : SeqHdr) :
    Keeps s0 (takeHeader s p ctx x) := by
  unfold takeHeader
  repeat' first
    | with_reducible assumption
    | with_reducible apply modCtx_keeps
    | with_reducible apply ctxPut_keeps

theorem Canvas.line_keeps {s0 s : State} (h : Keeps s0 s) (f : Canvas) (p : Nat) (at_ : Nat) (row : Nat) (y : Nat) (n : Nat) (px : Array Nat) :
    Keeps s0 (Canvas.line f s p at_ row y n px) := by
  unfold Canvas.line
  repeat' first
    | with_reducible assumption
    | with_reducible apply mediaWrite_keeps

theorem Canvas.write_keeps {s0 s : State} (h : Keeps s0 s) (f : Canvas) (p : Nat) :
    Keeps s0 (Canvas.write f s p) := by
  unfold Canvas.write
  repeat' first
    | with_reducible assumption
    | with_reducible apply mediaWrite_keeps
    | with_reducible apply Canvas.line_keeps
    | with_reducible apply Keeps.ite
    | with_reducible refine Keeps.foldl ?_ _ _ (fun t x ht => ?_)

theorem concealField_keeps {s0 s : State} (h : Keeps s0 s) (p : Nat) (b : Nat) (hint : Nat) (lay : Layout) (h : Nat) (chroma : Nat) (bottom : Bool) :
    Keeps s0 (concealField s p b hint lay h chroma bottom) := by
  unfold concealField
  repeat' first
    | with_reducible assumption
    | with_reducible apply mediaWrite_keeps
    | with_reducible apply Keeps.ite
    | with_reducible refine Keeps.foldl ?_ _ _ (fun t x ht => ?_)

theorem openPicture_keeps {s0 s : State} (h : Keeps s0 s) (e : Nat) (p : Nat) (ctx : Nat) (b : Nat) (x : Engine → Engine) :
    Keeps s0 (openPicture s e p ctx b x) := by
  unfold openPicture
  repeat' first
    | with_reducible assumption
    | with_reducible apply modEngine_keeps
    | with_reducible apply modCtx_keeps
    | with_reducible apply setCtxState_keeps
    | with_reducible apply setMark_keeps

theorem frameReady_keeps {s0 s : State} (h : Keeps s0 s) (p : Nat) (ctx : Nat) (b : Nat) (x : OutPic) (waits : Bool) :
    Keeps s0 (frameReady s p ctx b x waits) := by
  unfold frameReady
  repeat' first
    | with_reducible assumption
    | with_reducible apply modCtx_keeps
    | with_reducible apply setMark_keeps

theorem countConcealed_keeps {s0 s : State} (h : Keeps s0 s) (p : Nat) (n : Nat) :
    Keeps s0 (countConcealed s p n) := by
  unfold countConcealed
  repeat' first
    | with_reducible assumption
    | with_reducible apply odAdd_keeps
    | with_reducible apply odInc_keeps
    | with_reducible apply Keeps.ite

theorem loneField_keeps {s0 s : State} (h : Keeps s0 s) (p : Nat) (ctx : Nat) (h : Half) :
    Keeps s0 (loneField s p ctx h) := by
  unfold loneField
  repeat' first
    | with_reducible assumption
    | with_reducible apply modCtx_keeps
    | with_reducible apply concealField_keeps
    | with_reducible apply frameReady_keeps
    | with_reducible apply countConcealed_keeps
    | with_reducible apply Keeps.ite

theorem closeHalf_keeps {s0 s : State} (h : Keeps s0 s) (p : Nat) (ctx : Nat) : Keeps s0 (closeHalf s p ctx) := by
  unfold closeHalf
  repeat' first
    | with_reducible assumption
    | with_reducible apply loneField_keeps
    | split

theorem settleCtx_keeps {s0 s : State} (h : Keeps s0 s) (p : Nat) (ctx : Nat) : Keeps s0 (settleCtx s p ctx) := by
  unfold settleCtx
  repeat' first
    | with_reducible assumption
    | with_reducible apply ctxSave_keeps
    | with_reducible apply parkOutput_keeps
    | with_reducible apply finishReq_keeps
    | with_reducible apply Keeps.ite

theorem startDrain_keeps {s0 s : State} (h : Keeps s0 s) (p : Nat) (ctx : Nat) (kind : Nat) (discard : Bool) :
    Keeps s0 (startDrain s p ctx kind discard) := by
  unfold startDrain
  repeat' first
    | with_reducible assumption
    | with_reducible apply modCtx_keeps
    | with_reducible apply setCtxState_keeps
    | with_reducible apply outputPic_keeps
    | with_reducible apply parkOutput_keeps
    | with_reducible apply closeHalf_keeps
    | with_reducible apply Keeps.ite
    | with_reducible refine Keeps.foldl ?_ _ _ (fun t x ht => ?_)

theorem startDecode_keeps {s0 s : State} (h : Keeps s0 s) (e : Nat) (p : Nat) (ctx : Nat) (pic : PicStart) (q : MediaReq) :
    Keeps s0 (startDecode s e p ctx pic q) := by
  unfold startDecode
  repeat' first
    | with_reducible assumption
    | with_reducible apply mediaRead_keeps
    | with_reducible apply modCtx_keeps
    | with_reducible apply setCtxState_keeps
    | with_reducible apply parkBuffer_keeps
    | with_reducible apply storePsets_keeps
    | with_reducible apply takeHeader_keeps
    | with_reducible apply openPicture_keeps
    | with_reducible apply closeHalf_keeps
    | with_reducible apply settleCtx_keeps
    | with_reducible apply startDrain_keeps
    | with_reducible apply Keeps.ite
    | dsimp only
    | split

theorem codedDepth_keeps {s0 s : State} (h : Keeps s0 s) (p : Nat) (ctx : Nat) (depth : Nat) :
    Keeps s0 (codedDepth s p ctx depth).2 := by
  unfold codedDepth
  repeat' first
    | with_reducible assumption
    | with_reducible apply fresh_keeps
    | with_reducible apply Keeps.iteSnd

theorem readSource_keeps {s0 s : State} (h : Keeps s0 s) (p : Nat) (ctx : Nat) (b : Nat) (depth : Nat) :
    Keeps s0 (readSource s p ctx b depth) := by
  unfold readSource
  repeat' first
    | with_reducible assumption
    | with_reducible apply mediaRead_keeps

theorem startEncode_keeps {s0 s : State} (h : Keeps s0 s) (e : Nat) (p : Nat) (ctx : Nat) (pic : PicStart) (q : MediaReq) :
    Keeps s0 (startEncode s e p ctx pic q) := by
  unfold startEncode
  repeat' first
    | with_reducible assumption
    | with_reducible apply modCtx_keeps
    | with_reducible apply parkOutput_keeps
    | with_reducible apply parkBuffer_keeps
    | with_reducible apply openPicture_keeps
    | with_reducible apply codedDepth_keeps
    | with_reducible apply readSource_keeps
    | with_reducible apply Keeps.ite
    | dsimp only
    | split

theorem startAnalyse_keeps {s0 s : State} (h : Keeps s0 s) (e : Nat) (p : Nat) (ctx : Nat) (q : MediaReq) :
    Keeps s0 (startAnalyse s e p ctx q) := by
  unfold startAnalyse
  repeat' first
    | with_reducible assumption
    | with_reducible apply modEngine_keeps
    | with_reducible apply setCtxState_keeps
    | with_reducible apply readSource_keeps

theorem mediaFault_keeps {s0 s : State} (h : Keeps s0 s) (c : Code) (p : Option Nat) (e : Nat) :
    Keeps s0 (mediaFault s c p e) := by
  unfold mediaFault
  repeat' first
    | with_reducible assumption
    | with_reducible apply sharedFault_keeps

theorem windowBlocked_keeps {s0 s : State} (h : Keeps s0 s) (p : Nat) (e : Nat) : Keeps s0 (windowBlocked s p e) := by
  unfold windowBlocked
  repeat' first
    | with_reducible assumption
    | with_reducible apply odInc_keeps
    | with_reducible apply mediaFault_keeps

theorem execPictureStart_keeps {s0 s : State} (h : Keeps s0 s) (e : Nat) (pic : PicStart) :
    ResKeeps s0 (execPictureStart e pic s) := by
  unfold execPictureStart
  repeat' first
    | with_reducible assumption
    | with_reducible apply endSample_keeps
    | with_reducible apply takeOn_keeps
    | with_reducible apply startHead_keeps
    | with_reducible apply failReqs_keeps
    | with_reducible apply startDrain_keeps
    | with_reducible apply startDecode_keeps
    | with_reducible apply startEncode_keeps
    | with_reducible apply startAnalyse_keeps
    | with_reducible apply ResKeeps.next
    | with_reducible apply ResKeeps.ite
    | dsimp only
    | split

theorem execBufferUnpark_keeps {s0 s : State} (h : Keeps s0 s) (p : Nat) (pool : Nat) :
    ResKeeps s0 (execBufferUnpark p pool s) := by
  unfold execBufferUnpark
  repeat' first
    | with_reducible assumption
    | with_reducible apply modPart_keeps
    | with_reducible apply modCtx_keeps
    | with_reducible apply ctxPut_keeps
    | with_reducible apply setCtxState_keeps
    | with_reducible apply takeOn_keeps
    | with_reducible apply ResKeeps.next
    | dsimp only
    | split

theorem damageOf_keeps {s0 s : State} (h : Keeps s0 s) (p : Nat) (ctx : Nat) (x : Engine) (size : Nat) (fin : PicEnd) :
    Keeps s0 (damageOf s p ctx x size fin).2 := by
  unfold damageOf
  repeat' first
    | with_reducible assumption
    | with_reducible apply fresh_keeps
    | with_reducible apply Keeps.ite

theorem endMarks_keeps {s0 s : State} (h : Keeps s0 s) (p : Nat) (ctx : Nat) (b : Nat) (fin : PicEnd) :
    Keeps s0 (endMarks s p ctx b fin) := by
  unfold endMarks
  repeat' first
    | with_reducible assumption
    | with_reducible apply setMark_keeps
    | with_reducible apply Keeps.ite
    | with_reducible refine Keeps.foldl ?_ _ _ (fun t x ht => ?_)

theorem writeVectors_keeps {s0 s : State} (h : Keeps s0 s) (p : Nat) (b : Nat) (hint : Nat) (lay : Layout) (codec : Nat) (w : Nat) (field : Option Bool) (good : Array Bool) (vs : List (Option (Int × Int) × Option (Int × Int))) :
    Keeps s0 (writeVectors s p b hint lay codec w field good vs) := by
  unfold writeVectors
  repeat' first
    | with_reducible assumption
    | with_reducible apply mediaWrite_keeps
    | with_reducible apply Keeps.ite
    | with_reducible refine Keeps.foldl ?_ _ _ (fun t x ht => ?_)

theorem writePicture_keeps {s0 s : State} (h : Keeps s0 s) (p : Nat) (ctx : Nat) (x : Engine) (d : Damage) (good : List Nat) (fin : PicEnd) :
    Keeps s0 (writePicture s p ctx x d good fin) := by
  unfold writePicture
  repeat' first
    | with_reducible assumption
    | with_reducible apply mediaWrite_keeps
    | with_reducible apply Canvas.write_keeps
    | with_reducible apply writeVectors_keeps
    | with_reducible apply Keeps.ite
    | with_reducible refine Keeps.foldl ?_ _ _ (fun t x ht => ?_)

theorem countPicture_keeps {s0 s : State} (h : Keeps s0 s) (e : Nat) (p : Nat) (x : OutPic) (missing : Bool) :
    Keeps s0 (countPicture s e p x missing) := by
  unfold countPicture
  repeat' first
    | with_reducible assumption
    | with_reducible apply odAdd_keeps
    | with_reducible apply odInc_keeps
    | with_reducible apply charge_keeps
    | with_reducible apply countConcealed_keeps
    | with_reducible apply Keeps.ite

theorem placePicture_keeps {s0 s : State} (h : Keeps s0 s) (p : Nat) (ctx : Nat) (x : Engine) (pic : OutPic) (fin : PicEnd) :
    Keeps s0 (placePicture s p ctx x pic fin) := by
  unfold placePicture
  repeat' first
    | with_reducible assumption
    | with_reducible apply modCtx_keeps
    | with_reducible apply frameReady_keeps
    | with_reducible apply loneField_keeps
    | with_reducible apply Keeps.ite
    | dsimp only
    | split

theorem endDecode_keeps {s0 s : State} (h : Keeps s0 s) (e : Nat) (p : Nat) (ctx : Nat) (fin : PicEnd) :
    Keeps s0 (endDecode s e p ctx fin) := by
  unfold endDecode
  repeat' first
    | with_reducible assumption
    | with_reducible apply modEngine_keeps
    | with_reducible apply modCtx_keeps
    | with_reducible apply ctxPut_keeps
    | with_reducible apply outputPic_keeps
    | with_reducible apply settleCtx_keeps
    | with_reducible apply windowBlocked_keeps
    | with_reducible apply damageOf_keeps
    | with_reducible apply endMarks_keeps
    | with_reducible apply writePicture_keeps
    | with_reducible apply countPicture_keeps
    | with_reducible apply placePicture_keeps
    | with_reducible refine Keeps.foldl ?_ _ _ (fun t x ht => ?_)

theorem endAnalyse_keeps {s0 s : State} (h : Keeps s0 s) (e : Nat) (p : Nat) (ctx : Nat) (fin : PicEnd) :
    Keeps s0 (endAnalyse s e p ctx fin) := by
  unfold endAnalyse
  repeat' first
    | with_reducible assumption
    | with_reducible apply modEngine_keeps
    | with_reducible apply odInc_keeps
    | with_reducible apply mediaWrite_keeps
    | with_reducible apply modCtx_keeps
    | with_reducible apply ctxPut_keeps
    | with_reducible apply pushRec_keeps
    | with_reducible apply charge_keeps
    | with_reducible apply settleCtx_keeps
    | with_reducible refine Keeps.foldl ?_ _ _ (fun t x ht => ?_)
    | dsimp only
    | split

theorem execPictureEnd_keeps {s0 s : State} (h : Keeps s0 s) (e : Nat) (fin : PicEnd) :
    ResKeeps s0 (execPictureEnd e fin s) := by
  unfold execPictureEnd
  repeat' first
    | with_reducible assumption
    | with_reducible apply endDecode_keeps
    | with_reducible apply endAnalyse_keeps
    | with_reducible apply ResKeeps.next
    | with_reducible apply ResKeeps.ite
    | split

theorem execOutputUnpark_keeps {s0 s : State} (h : Keeps s0 s) (p : Nat) (ctx : Nat) :
    ResKeeps s0 (execOutputUnpark p ctx s) := by
  unfold execOutputUnpark
  repeat' first
    | with_reducible assumption
    | with_reducible apply modCtx_keeps
    | with_reducible apply ctxPut_keeps
    | with_reducible apply setCtxState_keeps
    | with_reducible apply pushRec_keeps
    | with_reducible apply takeOn_keeps
    | with_reducible apply settleCtx_keeps
    | with_reducible apply ResKeeps.next
    | with_reducible apply ResKeeps.ite
    | with_reducible refine Keeps.foldl ?_ _ _ (fun t x ht => ?_)
    | dsimp only
    | split

theorem execDecodeBudgetAbort_keeps {s0 s : State} (h : Keeps s0 s) (e : Nat) (rebuilt : Nat) :
    ResKeeps s0 (execDecodeBudgetAbort e rebuilt s) := by
  unfold execDecodeBudgetAbort
  repeat' first
    | with_reducible assumption
    | with_reducible apply modEngine_keeps
    | with_reducible apply odInc_keeps
    | with_reducible apply ResKeeps.next
    | with_reducible apply ResKeeps.ite
    | split

theorem writeSlice_keeps {s0 s : State} (h : Keeps s0 s) (p : Nat) (ctx : Nat) (x : Engine) (luma : List Nat) (chroma : List Nat) :
    Keeps s0 (writeSlice s p ctx x luma chroma) := by
  unfold writeSlice
  repeat' first
    | with_reducible assumption
    | with_reducible apply mediaWrite_keeps
    | with_reducible refine Keeps.foldl ?_ _ _ (fun t x ht => ?_)

theorem sliceCoded_keeps {s0 s : State} (h : Keeps s0 s) (e : Nat) (p : Nat) (ctx : Nat) (data0 : List Byte) (last : Bool) (qp : Nat) (cycles : Nat) :
    Keeps s0 (sliceCoded s e p ctx data0 last qp cycles).1 := by
  unfold sliceCoded
  repeat' first
    | with_reducible assumption
    | with_reducible apply modEngine_keeps
    | with_reducible apply mediaWrite_keeps
    | with_reducible apply modCtx_keeps

theorem frameCoded_keeps {s0 s : State} (h : Keeps s0 s) (e : Nat) (p : Nat) (ctx : Nat) (index : Nat) (cycles : Nat) (old : Option Nat) :
    Keeps s0 (frameCoded s e p ctx index cycles old) := by
  unfold frameCoded
  repeat' first
    | with_reducible assumption
    | with_reducible apply modEngine_keeps
    | with_reducible apply odInc_keeps
    | with_reducible apply modCtx_keeps
    | with_reducible apply ctxPut_keeps
    | with_reducible apply setMark_keeps
    | with_reducible apply charge_keeps
    | with_reducible apply Keeps.ite
    | dsimp only
    | split

theorem execEncodeSlice_keeps {s0 s : State} (h : Keeps s0 s) (e : Nat) (data : List Byte) (luma : List Nat) (chroma : List Nat) (qp : Nat) (cycles : Nat) :
    ResKeeps s0 (execEncodeSlice e data luma chroma qp cycles s) := by
  unfold execEncodeSlice
  repeat' first
    | with_reducible assumption
    | with_reducible apply pushRec_keeps
    | with_reducible apply settleCtx_keeps
    | with_reducible apply writeSlice_keeps
    | with_reducible apply sliceCoded_keeps
    | with_reducible apply frameCoded_keeps
    | with_reducible apply ResKeeps.next
    | with_reducible apply ResKeeps.ite
    | dsimp only
    | split

theorem drainEnd_keeps {s0 s : State} (h : Keeps s0 s) (p : Nat) (ctx : Nat) : Keeps s0 (drainEnd s p ctx) := by
  unfold drainEnd
  repeat' first
    | with_reducible assumption
    | with_reducible apply odInc_keeps
    | with_reducible apply modCtx_keeps
    | with_reducible apply ctxPut_keeps
    | with_reducible apply ctxSave_keeps
    | with_reducible apply setCtxState_keeps
    | with_reducible apply clearRefs_keeps
    | with_reducible apply endSample_keeps
    | with_reducible apply finishReq_keeps
    | with_reducible apply failReqs_keeps
    | dsimp only
    | split

theorem execDrainEnd_keeps {s0 s : State} (h : Keeps s0 s) (p : Nat) (ctx : Nat) :
    ResKeeps s0 (execDrainEnd p ctx s) := by
  unfold execDrainEnd
  repeat' first
    | with_reducible assumption
    | with_reducible apply drainEnd_keeps
    | with_reducible apply ResKeeps.next
    | with_reducible apply ResKeeps.ite

theorem requeueHead_keeps {s0 s : State} (h : Keeps s0 s) (p : Nat) (ctx : Nat) : Keeps s0 (requeueHead s p ctx) := by
  unfold requeueHead
  repeat' first
    | with_reducible assumption
    | with_reducible apply modCtx_keeps

theorem giveUp_keeps {s0 s : State} (h : Keeps s0 s) (e : Nat) (p : Nat) (ctx : Nat) :
    Keeps s0 (giveUp s e p ctx) := by
  unfold giveUp
  repeat' first
    | with_reducible assumption
    | with_reducible apply modEngine_keeps
    | with_reducible apply modCtx_keeps
    | with_reducible apply setMark_keeps
    | with_reducible apply pushRec_keeps
    | with_reducible apply Keeps.ite

theorem stopEngine_keeps {s0 s : State} (h : Keeps s0 s) (e : Nat) : Keeps s0 (stopEngine s e) := by
  unfold stopEngine
  repeat' first
    | with_reducible assumption
    | with_reducible apply modEngine_keeps
    | with_reducible apply ctxDrop_keeps
    | with_reducible apply setCtxState_keeps
    | with_reducible apply parkOutput_keeps
    | with_reducible apply drainEnd_keeps
    | with_reducible apply requeueHead_keeps
    | with_reducible apply giveUp_keeps
    | with_reducible apply Keeps.ite
    | dsimp only
    | split

theorem stopEngines_keeps {s0 s : State} (h : Keeps s0 s) (p : Nat) : Keeps s0 (stopEngines s p) := by
  unfold stopEngines
  repeat' first
    | with_reducible assumption
    | with_reducible apply stopEngine_keeps
    | with_reducible apply Keeps.ite
    | with_reducible refine Keeps.foldl ?_ _ _ (fun t x ht => ?_)

end Sys2Proof.Machine
end

