-- ==== Sys2Proof/Laws/KeepsSamples.lean ====
section
/-!
SUPPORT. `Keeps` for the operations of Samples.
-/

namespace Sys2Proof.Machine

theorem freeWriter_keeps {s0 s : State} (h : Keeps s0 s) (p : Nat) (ctx : Nat) (cycles : Nat) :
    Keeps s0 (freeWriter s p ctx cycles) := by
  unfold freeWriter
  repeat' first
    | with_reducible assumption
    | with_reducible apply modEngine_keeps
    | with_reducible apply charge_keeps
    | with_reducible refine Keeps.foldl ?_ _ _ (fun t x ht => ?_)

theorem sampleIssue_keeps {s0 s : State} (h : Keeps s0 s) (r : ReqRef) (raw : List Byte) :
    Keeps s0 (sampleIssue s r raw) := by
  unfold sampleIssue
  repeat' first
    | with_reducible assumption
    | with_reducible apply modPart_keeps
    | with_reducible apply readList_keeps
    | with_reducible apply claimCache_keeps
    | with_reducible apply sampleDone_keeps
    | with_reducible apply Keeps.ite
    | dsimp only
    | split

theorem execSample_keeps {s0 s : State} (h : Keeps s0 s) (r : ReqRef) (raw : List Byte) :
    ResKeeps s0 (execSample r raw s) := by
  unfold execSample
  repeat' first
    | with_reducible assumption
    | with_reducible apply sampleIssue_keeps
    | with_reducible apply ResKeeps.next

theorem lookupIssue_keeps {s0 s : State} (h : Keeps s0 s) (r : ReqRef) (raw : List Byte) :
    Keeps s0 (lookupIssue s r raw) := by
  unfold lookupIssue
  repeat' first
    | with_reducible assumption
    | with_reducible apply odInc_keeps
    | with_reducible apply writerPut_keeps
    | with_reducible apply writeMarks_keeps
    | with_reducible apply setCache_keeps
    | with_reducible apply sampleDone_keeps
    | with_reducible apply Keeps.ite
    | dsimp only
    | split

theorem execLookup_keeps {s0 s : State} (h : Keeps s0 s) (r : ReqRef) (raw : List Byte) :
    ResKeeps s0 (execLookup r raw s) := by
  unfold execLookup
  repeat' first
    | with_reducible assumption
    | with_reducible apply lookupIssue_keeps
    | with_reducible apply ResKeeps.next

theorem consumeRec_keeps {s0 s : State} (h : Keeps s0 s) (p : Nat) (x : Sample) (rec_ : List Byte) :
    Keeps s0 (consumeRec s p x rec_).1 := by
  unfold consumeRec
  repeat' first
    | with_reducible assumption
    | with_reducible apply ctxPut_keeps
    | with_reducible apply setMark_keeps

theorem selectPhase_keeps {s0 s : State} (h : Keeps s0 s) (p : Nat) (x : Sample) (f w k : Nat) :
    FstKeeps s0 (selectPhase s p x f w k) := by
  unfold selectPhase
  exact FstKeeps.ite (FstKeeps.none _) (FstKeeps.map (fun _ => odAdd_keeps h _ _) _)

theorem formFrame_keeps {s0 s : State} (h : Keeps s0 s) (p : Nat) (e : Nat) (x : Sample) (f : Nat) (r : List Byte) (w : Nat) (h : Nat) :
    Keeps s0 (formFrame s p e x f r w h) := by
  unfold formFrame
  repeat' first
    | with_reducible assumption
    | with_reducible apply modEngine_keeps
    | with_reducible apply readList_keeps
    | with_reducible apply setSample_keeps
    | with_reducible apply endSampleWith_keeps
    | with_reducible apply selectPhase_keeps
    | with_reducible apply Keeps.ite
    | with_reducible refine FstKeeps.of_eq ?_ (by with_reducible assumption)
    | split

theorem execSampleRecordTake_keeps {s0 s : State} (h : Keeps s0 s) (p : Nat) (ctx : Nat) :
    ResKeeps s0 (execSampleRecordTake p ctx s) := by
  unfold execSampleRecordTake
  repeat' first
    | with_reducible assumption
    | with_reducible apply setSample_keeps
    | with_reducible apply endSampleWith_keeps
    | with_reducible apply endSample_keeps
    | with_reducible apply consumeRec_keeps
    | with_reducible apply formFrame_keeps
    | with_reducible apply ResKeeps.next
    | with_reducible apply ResKeeps.ite
    | dsimp only
    | split

theorem frameFormed_keeps {s0 s : State} (h : Keeps s0 s) (p : Nat) (ctx : Nat) (x : Sample) (y : SampleSlot) (sig : ColourSignal) :
    Keeps s0 (frameFormed s p ctx x y sig).1 := by
  unfold frameFormed
  repeat' first
    | with_reducible assumption
    | with_reducible apply odAdd_keeps
    | with_reducible apply odInc_keeps
    | with_reducible apply writeRuns_keeps
    | with_reducible apply writeStats_keeps
    | with_reducible apply consumeRec_keeps
    | with_reducible apply Keeps.ite
    | with_reducible refine Keeps.foldl ?_ _ _ (fun t x ht => ?_)

theorem readFrame_keeps {s0 s : State} (h : Keeps s0 s) (p : Nat) (f : Frame) (b : Nat) :
    Keeps s0 (readFrame s p f b) := by
  unfold readFrame
  repeat' first
    | with_reducible assumption
    | with_reducible apply mediaRead_keeps

theorem execWriterFrameDone_keeps {s0 s : State} (h : Keeps s0 s) (p : Nat) (ctx : Nat) (sig : ColourSignal) (cycles : Nat) :
    ResKeeps s0 (execWriterFrameDone p ctx sig cycles s) := by
  unfold execWriterFrameDone
  repeat' first
    | with_reducible assumption
    | with_reducible apply setSample_keeps
    | with_reducible apply endSampleWith_keeps
    | with_reducible apply freeWriter_keeps
    | with_reducible apply frameFormed_keeps
    | with_reducible apply readFrame_keeps
    | with_reducible apply ResKeeps.next
    | with_reducible apply ResKeeps.ite
    | dsimp only
    | split

theorem stopWriters_keeps {s0 s : State} (h : Keeps s0 s) (p : Nat) : Keeps s0 (stopWriters s p) := by
  unfold stopWriters
  repeat' first
    | with_reducible assumption
    | with_reducible apply modPart_keeps
    | with_reducible apply modEngine_keeps
    | with_reducible apply Keeps.ite
    | with_reducible refine Keeps.foldl ?_ _ _ (fun t x ht => ?_)

theorem stopWriter_keeps {s0 s : State} (h : Keeps s0 s) (e : Nat) : Keeps s0 (stopWriter s e) := by
  unfold stopWriter
  repeat' first
    | with_reducible assumption
    | with_reducible apply modPart_keeps
    | with_reducible apply modEngine_keeps
    | split

end Sys2Proof.Machine
end

