-- ==== Sys2Proof/Laws/KeepsNetCore.lean ====
section
/-!
SUPPORT. `Keeps` for the operations of NetCore.
-/

namespace Sys2Proof.Machine

theorem modNet_keeps {s0 s : State} (h : Keeps s0 s) (f : Net → Net) : Keeps s0 (modNet s f) := by
  unfold modNet
  repeat' first
    | with_reducible assumption
    | with_reducible exact Nat.le_refl _
    | with_reducible exact id
    | with_reducible exact fun _ x => x
    | (fail_if_no_progress (with_reducible apply Keeps.lit))

theorem giveCredit_keeps {s0 s : State} (h : Keeps s0 s) (n : Nat) (psn : Nat) : Keeps s0 (giveCredit s n psn) := by
  unfold giveCredit
  repeat' first
    | with_reducible assumption
    | with_reducible apply modNet_keeps

theorem emitAs_keeps {s0 s : State} (h : Keeps s0 s) (x : Sess) (n : Nat) (port : Nat) (srcOk : Bool) (k : Pkt) :
    Keeps s0 (emitAs s x n port srcOk k) := by
  unfold emitAs
  repeat' first
    | with_reducible assumption
    | with_reducible apply odAdd_keeps
    | with_reducible apply odInc_keeps
    | with_reducible apply anem_keeps
    | with_reducible apply emit_keeps
    | with_reducible apply Keeps.ite

theorem emitPkt_keeps {s0 s : State} (h : Keeps s0 s) (n : Nat) (port : Nat) (srcOk : Bool) (k : Pkt) :
    Keeps s0 (emitPkt s n port srcOk k) := by
  unfold emitPkt
  repeat' first
    | with_reducible assumption
    | with_reducible apply emitAs_keeps

theorem sendAck_keeps {s0 s : State} (h : Keeps s0 s) (n : Nat) : Keeps s0 (sendAck s n) := by
  unfold sendAck
  repeat' first
    | with_reducible assumption
    | with_reducible apply modSess_keeps
    | with_reducible apply emitPkt_keeps
    | dsimp only
    | split

theorem queuePkt_keeps {s0 s : State} (h : Keeps s0 s) (n : Nat) (k : Pkt) : Keeps s0 (queuePkt s n k) := by
  unfold queuePkt
  repeat' first
    | with_reducible assumption
    | with_reducible apply modSess_keeps

theorem switchKeys_keeps {s0 s : State} (h : Keeps s0 s) (n : Nat) (ks : LinkKeys) :
    Keeps s0 (switchKeys s n ks) := by
  unfold switchKeys
  repeat' first
    | with_reducible assumption
    | with_reducible apply modSess_keeps
    | with_reducible apply odInc_keeps

theorem afterReply_keeps {s0 s : State} (h : Keeps s0 s) (n : Nat) (k : Pkt) : Keeps s0 (afterReply s n k) := by
  unfold afterReply
  repeat' first
    | with_reducible assumption
    | with_reducible apply switchKeys_keeps
    | with_reducible apply Keeps.ite
    | split

theorem sendOn_keeps {s0 s : State} (h : Keeps s0 s) (n : Nat) (port : Nat) (now : Nat) (srcOk : Bool) (k : Pkt) :
    Keeps s0 (sendOn s n port now srcOk k) := by
  unfold sendOn
  repeat' first
    | with_reducible assumption
    | with_reducible apply modSess_keeps
    | with_reducible apply odInc_keeps
    | with_reducible apply emitPkt_keeps
    | with_reducible apply afterReply_keeps
    | with_reducible apply Keeps.ite

theorem sendCtl_keeps {s0 s : State} (h : Keeps s0 s) (n : Nat) (k : Pkt) : Keeps s0 (sendCtl s n k) := by
  unfold sendCtl
  repeat' first
    | with_reducible assumption
    | with_reducible apply queuePkt_keeps
    | with_reducible apply sendOn_keeps
    | with_reducible apply Keeps.ite
    | dsimp only
    | split

theorem netStop_keeps {s0 s : State} (h : Keeps s0 s) (p : Nat) (place : Nat) (n : Nat) :
    OptKeeps s0 (netStop s p place n) := by
  unfold netStop
  repeat' first
    | with_reducible assumption
    | with_reducible apply unitReadStop_keeps

theorem netSeen_keeps {s0 s : State} (h : Keeps s0 s) (p : Nat) (place : Nat) (n : Nat) :
    Keeps s0 (netSeen s p place n) := by
  unfold netSeen
  repeat' first
    | with_reducible assumption
    | with_reducible apply unitReads_keeps

theorem netWrite_keeps {s0 s : State} (h : Keeps s0 s) (p : Nat) (place : Nat) (off : Nat) (bs : List Byte) (poison : Bool) :
    Keeps s0 (netWrite s p place off bs poison) := by
  unfold netWrite
  repeat' first
    | with_reducible assumption
    | with_reducible apply unitPut_keeps

theorem regionSeen_keeps {s0 s : State} (h : Keeps s0 s) (p : Nat) (rkey : Nat) : Keeps s0 (regionSeen s p rkey) := by
  unfold regionSeen
  repeat' first
    | with_reducible assumption
    | with_reducible apply coreErr_keeps
    | with_reducible apply farRead_keeps
    | with_reducible apply Keeps.ite
    | split

theorem writeErrRec_keeps {s0 s : State} (h : Keeps s0 s) (p : Nat) (m : Msg) (id : Nat) (code : Nat) (offset : Nat) :
    Keeps s0 (writeErrRec s p m id code offset) := by
  unfold writeErrRec
  repeat' first
    | with_reducible assumption
    | with_reducible apply odSet_keeps
    | with_reducible apply coreErr_keeps
    | with_reducible apply ringSeen_keeps
    | with_reducible apply ringWrite_keeps
    | with_reducible apply Keeps.ite
    | dsimp only
    | split

theorem newMsg_keeps {s0 s : State} (h : Keeps s0 s) (m : Msg) : OptKeeps s0 (newMsg s m) := by
  unfold newMsg
  repeat' first
    | with_reducible assumption
    | with_reducible apply modSess_keeps
    | with_reducible apply modNet_keeps
    | with_reducible refine OptKeeps.map (fun x => ?_) _

theorem modMsg_keeps {s0 s : State} (h : Keeps s0 s) (id : Nat) (f : Msg → Msg) : Keeps s0 (modMsg s id f) := by
  unfold modMsg
  repeat' first
    | with_reducible assumption
    | with_reducible apply modNet_keeps
    | split

theorem netStatus_keeps {s0 s : State} (h : Keeps s0 s) (r : ReqRef) (jobSeq : Nat) (sem : Nat) (code : Nat) :
    Keeps s0 (netStatus s r jobSeq sem code) := by
  unfold netStatus
  repeat' first
    | with_reducible assumption
    | with_reducible apply signalSem_keeps
    | with_reducible apply entryWrite_keeps

theorem closeIfDone_keeps {s0 s : State} (h : Keeps s0 s) (n : Nat) : Keeps s0 (closeIfDone s n) := by
  unfold closeIfDone
  repeat' first
    | with_reducible assumption
    | with_reducible apply modSess_keeps
    | with_reducible apply sendCtl_keeps
    | with_reducible apply Keeps.ite

theorem releaseId_keeps {s0 s : State} (h : Keeps s0 s) (id : Nat) (n : Nat) : Keeps s0 (releaseId s id n) := by
  unfold releaseId
  repeat' first
    | with_reducible assumption
    | with_reducible apply modNet_keeps
    | with_reducible apply closeIfDone_keeps

theorem completeLocal_keeps {s0 s : State} (h : Keeps s0 s) (id : Nat) : Keeps s0 (completeLocal s id) := by
  unfold completeLocal
  repeat' first
    | with_reducible assumption
    | with_reducible apply signalSem_keeps
    | with_reducible apply modMsg_keeps
    | with_reducible apply netStatus_keeps
    | with_reducible apply Keeps.ite
    | dsimp only
    | split

theorem releaseIfDone_keeps {s0 s : State} (h : Keeps s0 s) (id : Nat) : Keeps s0 (releaseIfDone s id) := by
  unfold releaseIfDone
  repeat' first
    | with_reducible assumption
    | with_reducible apply releaseId_keeps
    | with_reducible apply Keeps.ite
    | split

theorem endMsg_keeps {s0 s : State} (h : Keeps s0 s) (id : Nat) (code : Nat) (offset : Nat) :
    Keeps s0 (endMsg s id code offset) := by
  unfold endMsg
  repeat' first
    | with_reducible assumption
    | with_reducible apply modSess_keeps
    | with_reducible apply writeErrRec_keeps
    | with_reducible apply releaseId_keeps
    | with_reducible apply completeLocal_keeps
    | with_reducible apply Keeps.ite
    | dsimp only
    | split

theorem endAll_keeps {s0 s : State} (h : Keeps s0 s) (n : Nat) (code : Nat) : Keeps s0 (endAll s n code) := by
  unfold endAll
  repeat' first
    | with_reducible assumption
    | with_reducible apply endMsg_keeps
    | with_reducible refine Keeps.foldl ?_ _ _ (fun t x ht => ?_)

theorem completeFences_keeps {s0 s : State} (h : Keeps s0 s) (n : Nat) (all : Bool) :
    Keeps s0 (completeFences s n all) := by
  unfold completeFences
  repeat' first
    | with_reducible assumption
    | with_reducible apply modNet_keeps
    | with_reducible apply netStatus_keeps
    | with_reducible refine Keeps.foldl ?_ _ _ (fun t x ht => ?_)

theorem dropSess_keeps {s0 s : State} (h : Keeps s0 s) (n : Nat) (code : Nat) : Keeps s0 (dropSess s n code) := by
  unfold dropSess
  repeat' first
    | with_reducible assumption
    | with_reducible apply modNet_keeps
    | with_reducible apply netStatus_keeps
    | with_reducible apply completeFences_keeps
    | dsimp only
    | split

theorem noteRx_keeps {s0 s : State} (h : Keeps s0 s) (n : Nat) (k : Pkt) : Keeps s0 (noteRx s n k) := by
  unfold noteRx
  repeat' first
    | with_reducible assumption
    | with_reducible apply modSess_keeps
    | with_reducible apply odInc_keeps
    | with_reducible apply anem_keeps
    | with_reducible apply giveCredit_keeps
    | with_reducible apply sendAck_keeps
    | with_reducible apply Keeps.ite

theorem markMsn_keeps {s0 s : State} (h : Keeps s0 s) (n : Nat) (msn : Nat) : Keeps s0 (markMsn s n msn) := by
  unfold markMsn
  repeat' first
    | with_reducible assumption
    | with_reducible apply modSess_keeps

theorem lateDrop_keeps {s0 s : State} (h : Keeps s0 s) (p : Nat) : Keeps s0 (lateDrop s p) := by
  unfold lateDrop
  repeat' first
    | with_reducible assumption
    | with_reducible apply odSet_keeps
    | with_reducible apply odInc_keeps

theorem sendNak_keeps {s0 s : State} (h : Keeps s0 s) (n : Nat) (k : Pkt) (code : Nat) :
    Keeps s0 (sendNak s n k code) := by
  unfold sendNak
  repeat' first
    | with_reducible assumption
    | with_reducible apply sendCtl_keeps

theorem refuseMsg_keeps {s0 s : State} (h : Keeps s0 s) (n : Nat) (k : Pkt) (code : Nat) :
    Keeps s0 (refuseMsg s n k code) := by
  unfold refuseMsg
  repeat' first
    | with_reducible assumption
    | with_reducible apply markMsn_keeps
    | with_reducible apply sendNak_keeps

theorem sendRnr_keeps {s0 s : State} (h : Keeps s0 s) (n : Nat) (k : Pkt) : Keeps s0 (sendRnr s n k) := by
  unfold sendRnr
  repeat' first
    | with_reducible assumption
    | with_reducible apply odInc_keeps
    | with_reducible apply giveCredit_keeps
    | with_reducible apply queuePkt_keeps
    | with_reducible apply sendOn_keeps
    | dsimp only
    | split

theorem rxFilter_keeps {s0 s : State} (h : Keeps s0 s) (n : Nat) (k : Pkt) : OptKeeps s0 (rxFilter s n k) := by
  unfold rxFilter
  repeat' first
    | with_reducible assumption
    | with_reducible apply odInc_keeps
    | with_reducible apply lateDrop_keeps
    | with_reducible apply OptKeeps.some
    | with_reducible apply OptKeeps.none
    | with_reducible apply OptKeeps.ite

theorem rxPlaced_keeps {s0 s : State} (h : Keeps s0 s) (n : Nat) (k : Pkt) : Keeps s0 (rxPlaced s n k) := by
  unfold rxPlaced
  repeat' first
    | with_reducible assumption
    | with_reducible apply modSess_keeps
    | with_reducible apply markMsn_keeps
    | with_reducible apply Keeps.ite

theorem actSignal_keeps {s0 s : State} (h : Keeps s0 s) (n : Nat) (k : Pkt) : Keeps s0 (actSignal s n k) := by
  unfold actSignal
  repeat' first
    | with_reducible assumption
    | with_reducible apply addSem_keeps
    | with_reducible apply markMsn_keeps
    | with_reducible apply refuseMsg_keeps
    | with_reducible apply Keeps.ite

theorem actGet_keeps {s0 s : State} (h : Keeps s0 s) (n : Nat) (k : Pkt) : Keeps s0 (actGet s n k) := by
  unfold actGet
  repeat' first
    | with_reducible assumption
    | with_reducible apply modSess_keeps
    | with_reducible apply regionSeen_keeps
    | with_reducible apply markMsn_keeps
    | with_reducible apply refuseMsg_keeps
    | dsimp only
    | split

theorem actHeld_keeps {s0 : State} (m n : Nat) : ∀ {s : State}, Keeps s0 s → Keeps s0 (actHeld n m s) := by
  induction m with
  | zero => intro s h; exact h
  | succ m ih =>
    intro s h
    rw [actHeld]
    split
    · exact h
    · exact ih (Keeps.ite (actGet_keeps (modSess_keeps h ..) ..) (actSignal_keeps (modSess_keeps h ..) ..))

theorem settleRx_keeps {s0 s : State} (h : Keeps s0 s) (n : Nat) : Keeps s0 (settleRx s n) := by
  unfold settleRx
  repeat' first
    | with_reducible assumption
    | with_reducible apply actHeld_keeps

theorem resend_keeps {s0 s : State} (h : Keeps s0 s) (n : Nat) (lost : Pkt → Bool) : Keeps s0 (resend s n lost) := by
  unfold resend
  repeat' first
    | with_reducible assumption
    | with_reducible apply modSess_keeps

theorem ackedPkt_keeps {s0 s : State} (h : Keeps s0 s) (n : Nat) (k : Pkt) : Keeps s0 (ackedPkt s n k) := by
  unfold ackedPkt
  repeat' first
    | with_reducible assumption
    | with_reducible apply modSess_keeps
    | with_reducible apply modMsg_keeps
    | with_reducible apply completeLocal_keeps
    | with_reducible apply releaseIfDone_keeps
    | with_reducible apply Keeps.ite

theorem failResp_keeps {s0 s : State} (h : Keeps s0 s) (n : Nat) (k : Pkt) : Keeps s0 (failResp s n k) := by
  unfold failResp
  repeat' first
    | with_reducible assumption
    | with_reducible apply modSess_keeps
    | with_reducible apply sendNak_keeps

theorem unqueue_keeps {s0 s : State} (h : Keeps s0 s) (n : Nat) (k : Pkt) : Keeps s0 (unqueue s n k) := by
  unfold unqueue
  repeat' first
    | with_reducible assumption
    | with_reducible apply modSess_keeps

theorem transmitOn_keeps {s0 s : State} (h : Keeps s0 s) (n : Nat) (port : Nat) (now : Nat) (srcOk : Bool) (poison : Bool) :
    Keeps s0 (transmitOn s n port now srcOk poison) := by
  unfold transmitOn
  repeat' first
    | with_reducible assumption
    | with_reducible apply modSess_keeps
    | with_reducible apply sendOn_keeps
    | with_reducible apply modMsg_keeps
    | with_reducible apply completeLocal_keeps
    | with_reducible apply endMsg_keeps
    | with_reducible apply failResp_keeps
    | with_reducible apply unqueue_keeps
    | with_reducible apply Keeps.ite
    | dsimp only
    | split

theorem chargePort_keeps {s0 s : State} (h : Keeps s0 s) (port : Nat) (p : Nat) : Keeps s0 (chargePort s port p) := by
  unfold chargePort
  repeat' first
    | with_reducible assumption
    | with_reducible apply modNet_keeps

theorem transmitNext_keeps {s0 s : State} (h : Keeps s0 s) (n : Nat) (now : Nat) (srcOk : Bool) (poison : Bool) :
    Keeps s0 (transmitNext s n now srcOk poison) := by
  unfold transmitNext
  repeat' first
    | with_reducible assumption
    | with_reducible apply modNet_keeps
    | with_reducible apply netStop_keeps
    | with_reducible apply netSeen_keeps
    | with_reducible apply transmitOn_keeps
    | with_reducible apply chargePort_keeps
    | with_reducible apply Keeps.ite
    | with_reducible refine OptKeeps.of_eq ?_ (by with_reducible assumption)
    | dsimp only
    | split

end Sys2Proof.Machine
end

