-- ==== Sys2Proof/Laws/KeepsCollCore.lean ====
section
/-!
SUPPORT. `Keeps` for the operations of CollCore.
-/

namespace Sys2Proof.Machine

theorem commPut_keeps {s0 s : State} (h : Keeps s0 s) (p : Nat) (k : Nat) (off : Nat) (n : Nat) (v : Nat) :
    Keeps s0 (commPut s p k off n v) := by
  unfold commPut
  repeat' first
    | with_reducible assumption
    | with_reducible apply unitPut_keeps

theorem commSeen_keeps {s0 s : State} (h : Keeps s0 s) (p : Nat) (c : Comm) (ms : List Nat) :
    Keeps s0 (commSeen s p c ms) := by
  unfold commSeen
  repeat' first
    | with_reducible assumption
    | with_reducible apply farRead_keeps
    | with_reducible refine Keeps.foldl ?_ _ _ (fun t x ht => ?_)

theorem pbWrite_keeps {s0 : State} (n : Nat) : ∀ {s : State}, Keeps s0 s → ∀ (p place off : Nat) (l : List (Byte × Bool)),
    Keeps s0 (pbWrite n s p place off l) := by
  induction n with
  | zero => intro s h p place off l; exact h
  | succ n ih =>
    intro s h p place off l
    rw [pbWrite]
    exact Keeps.ite h (ih (netWrite_keeps h ..) ..)

theorem setCall_keeps {s0 s : State} (h : Keeps s0 s) (p : Nat) (c : Call) : Keeps s0 (setCall s p c) := by
  unfold setCall
  repeat' first
    | with_reducible assumption
    | with_reducible apply modPart_keeps

theorem collSend_keeps {s0 s : State} (h : Keeps s0 s) (p : Nat) (k : Comm) (m : Nat) (epoch : Nat) (seq : Nat) (step : Nat) (jobSeq : Nat) (d : List (Byte × Bool)) :
    OptKeeps s0 (collSend s p k m epoch seq step jobSeq d) := by
  unfold collSend
  repeat' first
    | with_reducible assumption
    | with_reducible apply newMsg_keeps

theorem collNotice_keeps {s0 s : State} (h : Keeps s0 s) (p : Nat) (k : Comm) (m : Nat) (kind : Nat) (epoch : Nat) (seq : Nat) (jobSeq : Nat) :
    Keeps s0 (collNotice s p k m kind epoch seq jobSeq) := by
  unfold collNotice
  repeat' first
    | with_reducible assumption
    | with_reducible apply collSend_keeps
    | with_reducible apply OptKeeps.getD

theorem cancelMsgs_keeps {s0 s : State} (h : Keeps s0 s) (p : Nat) (c : Call) : Keeps s0 (cancelMsgs s p c) := by
  unfold cancelMsgs
  repeat' first
    | with_reducible assumption
    | with_reducible apply modSess_keeps
    | with_reducible apply releaseId_keeps
    | with_reducible refine Keeps.foldl ?_ _ _ (fun t x ht => ?_)

theorem collDone_keeps {s0 s : State} (h : Keeps s0 s) (p : Nat) (c : Call) (code : Nat) :
    Keeps s0 (collDone s p c code) := by
  unfold collDone
  repeat' first
    | with_reducible assumption
    | with_reducible apply modPart_keeps
    | with_reducible apply signalSem_keeps
    | with_reducible apply entryWrite_keeps
    | with_reducible apply cancelMsgs_keeps

theorem collPlace_keeps {s0 s : State} (h : Keeps s0 s) (p : Nat) (k : Comm) (c : Call) (off : Nat) (d : List (Byte × Bool)) :
    Keeps s0 (collPlace s p k c off d) := by
  unfold collPlace
  repeat' first
    | with_reducible assumption
    | with_reducible apply odAdd_keeps
    | with_reducible apply pbWrite_keeps
    | dsimp only
    | split

theorem placesStop_keeps {s0 s : State} (h : Keeps s0 s) (p : Nat) (l : List (Nat × Nat)) :
    OptKeeps s0 (placesStop s p l) := by
  induction l with
  | nil => exact OptKeeps.none _
  | cons a l ih =>
    rw [placesStop]
    split
    · rename_i u hu
      exact OptKeeps.some ((netStop_keeps h ..).of_eq hu)
    · exact ih

theorem placesSeen_keeps {s0 s : State} (h : Keeps s0 s) (p : Nat) (l : List (Nat × Nat)) :
    Keeps s0 (placesSeen s p l) := by
  unfold placesSeen
  repeat' first
    | with_reducible assumption
    | with_reducible apply netSeen_keeps
    | with_reducible refine Keeps.foldl ?_ _ _ (fun t x ht => ?_)

theorem sendItem_keeps {s0 s : State} (h : Keeps s0 s) (p : Nat) (k : Comm) (c : Call) (i : Nat) (x : SendItem) :
    Keeps s0 (sendItem p k s c i x).1 := by
  unfold sendItem
  repeat' first
    | with_reducible assumption
    | with_reducible apply collSend_keeps
    | with_reducible apply placesStop_keeps
    | with_reducible apply placesSeen_keeps
    | with_reducible apply Keeps.iteFst
    | with_reducible refine OptKeeps.of_eq ?_ (by with_reducible assumption)
    | dsimp only
    | split

theorem placeItem_keeps {s0 s : State} (h : Keeps s0 s) (p : Nat) (k : Comm) (c : Call) (i : Nat) (x : PlaceItem) :
    Keeps s0 (placeItem p k s c i x).1 := by
  unfold placeItem
  repeat' first
    | with_reducible assumption
    | with_reducible apply odAdd_keeps
    | with_reducible apply collPlace_keeps
    | with_reducible apply placesStop_keeps
    | with_reducible apply placesSeen_keeps
    | with_reducible apply Keeps.iteFst
    | with_reducible refine OptKeeps.of_eq ?_ (by with_reducible assumption)
    | split

theorem whileRuns_keeps {s0 : State} (p : Nat) (f : State → Call → State × Call) (acc : State × Call)
    (h : Keeps s0 acc.1) (hf : ∀ t x, Keeps s0 t → Keeps s0 (f t x).1) : Keeps s0 (whileRuns p f acc).1 := by
  unfold whileRuns
  exact Keeps.iteFst (hf _ _ h) h

theorem collAdvance_keeps {s0 s : State} (h : Keeps s0 s) (p : Nat) (c : Call) : Keeps s0 (collAdvance s p c) := by
  unfold collAdvance
  repeat' first
    | with_reducible assumption
    | with_reducible apply setCall_keeps
    | with_reducible apply sendItem_keeps
    | with_reducible apply placeItem_keeps
    | with_reducible apply whileRuns_keeps
    | with_reducible apply Keeps.ite
    | with_reducible refine Keeps.foldlFst ?_ _ _ (fun t x ht => ?_)
    | intro _

theorem collAdvanceAll_keeps {s0 s : State} (h : Keeps s0 s) (p : Nat) : Keeps s0 (collAdvanceAll s p) := by
  unfold collAdvanceAll
  repeat' first
    | with_reducible assumption
    | with_reducible apply collAdvance_keeps
    | with_reducible refine Keeps.foldl ?_ _ _ (fun t x ht => ?_)
    | split

theorem breakComm_keeps {s0 s : State} (h : Keeps s0 s) (p : Nat) (slot : Nat) : Keeps s0 (breakComm s p slot) := by
  unfold breakComm
  repeat' first
    | with_reducible assumption
    | with_reducible apply commPut_keeps
    | with_reducible apply collNotice_keeps
    | with_reducible apply collDone_keeps
    | with_reducible apply Keeps.ite
    | with_reducible refine Keeps.foldl ?_ _ _ (fun t x ht => ?_)

theorem breakBySess_keeps {s0 s : State} (h : Keeps s0 s) (n : Nat) : Keeps s0 (breakBySess s n) := by
  unfold breakBySess
  repeat' first
    | with_reducible assumption
    | with_reducible apply breakComm_keeps
    | with_reducible apply Keeps.ite
    | with_reducible refine Keeps.foldl ?_ _ _ (fun t x ht => ?_)

theorem failSess_keeps {s0 s : State} (h : Keeps s0 s) (n : Nat) (code : Nat) : Keeps s0 (failSess s n code) := by
  unfold failSess
  repeat' first
    | with_reducible assumption
    | with_reducible apply modSess_keeps
    | with_reducible apply endAll_keeps
    | with_reducible apply breakBySess_keeps

theorem lateEpoch_keeps {s0 s : State} (h : Keeps s0 s) (p : Nat) (n : Nat) (slot : Nat) (epoch : Nat) (seq : Nat) :
    Keeps s0 (lateEpoch s p n slot epoch seq) := by
  unfold lateEpoch
  repeat' first
    | with_reducible assumption
    | with_reducible apply odSet_keeps
    | with_reducible apply odInc_keeps
    | with_reducible apply collNotice_keeps
    | with_reducible apply Keeps.ite
    | dsimp only
    | split

theorem closeEpoch_keeps {s0 s : State} (h : Keeps s0 s) (p : Nat) : Keeps s0 (closeEpoch s p) := by
  unfold closeEpoch
  repeat' first
    | with_reducible assumption
    | with_reducible apply modPart_keeps
    | with_reducible apply odSet_keeps
    | with_reducible apply commPut_keeps
    | with_reducible refine Keeps.foldl ?_ _ _ (fun t x ht => ?_)

end Sys2Proof.Machine
end

