-- ==== Sys2Proof/Laws/KeepsTransport.lean ====
section
/-!
SUPPORT. `Keeps` for the operations of Transport.
-/

namespace Sys2Proof.Machine

theorem dropFrame_keeps {s0 s : State} (h : Keeps s0 s) (port : Nat) : Keeps s0 (dropFrame s port) := by
  unfold dropFrame
  repeat' first
    | with_reducible assumption
    | with_reducible apply odInc_keeps

theorem execEthFrameReceive_keeps {s0 s : State} (h : Keeps s0 s) (port : Nat) (f : EthFrame) :
    ResKeeps s0 (execEthFrameReceive port f s) := by
  unfold execEthFrameReceive
  repeat' first
    | with_reducible assumption
    | with_reducible apply odAdd_keeps
    | with_reducible apply odInc_keeps
    | with_reducible apply modNet_keeps
    | with_reducible apply dropFrame_keeps
    | with_reducible apply ResKeeps.next
    | with_reducible apply ResKeeps.ite
    | dsimp only
    | split

theorem execOcIcmpReply_keeps {s0 s : State} (h : Keeps s0 s) (port : Nat) (f : OcFrame) :
    ResKeeps s0 (execOcIcmpReply port f s) := by
  unfold execOcIcmpReply
  repeat' first
    | with_reducible assumption
    | with_reducible apply odInc_keeps
    | with_reducible apply emit_keeps
    | with_reducible apply modNet_keeps
    | with_reducible apply ResKeeps.next
    | with_reducible apply ResKeeps.ite

theorem rxStop_keeps {s0 s : State} (h : Keeps s0 s) (k : Pkt) : OptKeeps s0 (rxStop s k) := by
  unfold rxStop
  exact OptKeeps.ite (OptKeeps.some (odInc_keeps h _)) (OptKeeps.ite (OptKeeps.some (sendRnr_keeps h ..))
    (OptKeeps.bindMap (rxFilter_keeps h ..) fun t ht => noteRx_keeps ht ..))

theorem placeResponse_keeps {s0 s : State} (h : Keeps s0 s) (n : Nat) (k : Pkt) : Keeps s0 (placeResponse s n k) := by
  unfold placeResponse
  repeat' first
    | with_reducible assumption
    | with_reducible apply odInc_keeps
    | with_reducible apply netWrite_keeps
    | with_reducible apply modMsg_keeps
    | with_reducible apply completeLocal_keeps
    | with_reducible apply releaseIfDone_keeps
    | with_reducible apply Keeps.ite
    | dsimp only
    | split

theorem execData_keeps {s0 s : State} (h : Keeps s0 s) (k : Pkt) : ResKeeps s0 (execData k s) := by
  unfold execData
  repeat' first
    | with_reducible assumption
    | with_reducible apply odInc_keeps
    | with_reducible apply netWrite_keeps
    | with_reducible apply regionSeen_keeps
    | with_reducible apply noteRx_keeps
    | with_reducible apply lateDrop_keeps
    | with_reducible apply refuseMsg_keeps
    | with_reducible apply sendRnr_keeps
    | with_reducible apply rxPlaced_keeps
    | with_reducible apply settleRx_keeps
    | with_reducible apply rxStop_keeps
    | with_reducible apply placeResponse_keeps
    | with_reducible apply ResKeeps.next
    | with_reducible apply ResKeeps.ite
    | with_reducible refine OptKeeps.of_eq ?_ (by with_reducible assumption)
    | dsimp only
    | split

theorem takeOrdered_keeps {s0 s : State} (h : Keeps s0 s) (k : Pkt) : Keeps s0 (takeOrdered k s) := by
  unfold takeOrdered
  repeat' first
    | with_reducible assumption
    | with_reducible apply modSess_keeps
    | with_reducible apply noteRx_keeps
    | with_reducible apply settleRx_keeps
    | with_reducible apply rxStop_keeps
    | with_reducible refine OptKeeps.of_eq ?_ (by with_reducible assumption)
    | dsimp only
    | split

theorem execGetReq_keeps {s0 s : State} (h : Keeps s0 s) (k : Pkt) : ResKeeps s0 (execGetReq k s) := by
  unfold execGetReq
  repeat' first
    | with_reducible assumption
    | with_reducible apply takeOrdered_keeps
    | with_reducible apply ResKeeps.next

theorem execSignal_keeps {s0 s : State} (h : Keeps s0 s) (k : Pkt) : ResKeeps s0 (execSignal k s) := by
  unfold execSignal
  repeat' first
    | with_reducible assumption
    | with_reducible apply takeOrdered_keeps
    | with_reducible apply ResKeeps.next

theorem closeAcked_keeps {s0 s : State} (h : Keeps s0 s) (n : Nat) (acked : List Pkt) :
    Keeps s0 (closeAcked s n acked) := by
  unfold closeAcked
  repeat' first
    | with_reducible assumption
    | with_reducible apply dropSess_keeps
    | with_reducible apply Keeps.ite

theorem execAck_keeps {s0 s : State} (h : Keeps s0 s) (k : Pkt) (now : Nat) : ResKeeps s0 (execAck k now s) := by
  unfold execAck
  repeat' first
    | with_reducible assumption
    | with_reducible apply modSess_keeps
    | with_reducible apply odInc_keeps
    | with_reducible apply lateDrop_keeps
    | with_reducible apply resend_keeps
    | with_reducible apply ackedPkt_keeps
    | with_reducible apply closeAcked_keeps
    | with_reducible apply ResKeeps.next
    | with_reducible apply ResKeeps.ite
    | with_reducible refine Keeps.foldl ?_ _ _ (fun t x ht => ?_)

theorem execNak_keeps {s0 s : State} (h : Keeps s0 s) (k : Pkt) : ResKeeps s0 (execNak k s) := by
  unfold execNak
  repeat' first
    | with_reducible assumption
    | with_reducible apply modSess_keeps
    | with_reducible apply odInc_keeps
    | with_reducible apply modMsg_keeps
    | with_reducible apply endMsg_keeps
    | with_reducible apply noteRx_keeps
    | with_reducible apply lateDrop_keeps
    | with_reducible apply ResKeeps.next
    | with_reducible apply ResKeeps.ite

theorem queueShake_keeps {s0 s : State} (h : Keeps s0 s) (x : Handshake) : Keeps s0 (queueShake s x) := by
  unfold queueShake
  repeat' first
    | with_reducible assumption
    | with_reducible apply modNet_keeps

theorem execHello_keeps {s0 s : State} (h : Keeps s0 s) (h : Shake) : ResKeeps s0 (execHello h s) := by
  unfold execHello
  repeat' first
    | with_reducible assumption
    | with_reducible apply modSess_keeps
    | with_reducible apply queueShake_keeps
    | with_reducible apply ResKeeps.next
    | with_reducible apply ResKeeps.ite
    | dsimp only
    | split

theorem refuseReply_keeps {s0 s : State} (h : Keeps s0 s) (n : Nat) (y : Sess) (code : Nat) :
    Keeps s0 (refuseReply s n y code) := by
  unfold refuseReply
  repeat' first
    | with_reducible assumption
    | with_reducible apply modSess_keeps
    | with_reducible apply emitPkt_keeps
    | with_reducible apply dropSess_keeps
    | split

theorem execReply_keeps {s0 s : State} (h : Keeps s0 s) (h : Shake) : ResKeeps s0 (execReply h s) := by
  unfold execReply
  repeat' first
    | with_reducible assumption
    | with_reducible apply modSess_keeps
    | with_reducible apply netStatus_keeps
    | with_reducible apply dropSess_keeps
    | with_reducible apply refuseReply_keeps
    | with_reducible apply ResKeeps.next
    | with_reducible apply ResKeeps.ite
    | dsimp only
    | split

theorem generate_keeps {s0 s : State} (h : Keeps s0 s) : Keeps s0 (generate s) := by
  unfold generate
  repeat' first
    | with_reducible assumption
    | with_reducible exact Nat.le_refl _
    | with_reducible exact id
    | with_reducible exact fun _ x => x
    | dsimp only
    | (fail_if_no_progress (with_reducible apply Keeps.lit))

theorem freshScalar_keeps {s0 s : State} (h : Keeps s0 s) : Keeps s0 (freshScalar s).2 := by
  unfold freshScalar
  repeat' first
    | with_reducible assumption
    | with_reducible apply fresh_keeps
    | with_reducible apply generate_keeps

theorem execRekey_keeps {s0 s : State} (h : Keeps s0 s) (k : Pkt) : ResKeeps s0 (execRekey k s) := by
  unfold execRekey
  repeat' first
    | with_reducible assumption
    | with_reducible apply modSess_keeps
    | with_reducible apply odInc_keeps
    | with_reducible apply sendCtl_keeps
    | with_reducible apply noteRx_keeps
    | with_reducible apply freshScalar_keeps
    | with_reducible apply ResKeeps.next
    | with_reducible apply Keeps.ite
    | with_reducible apply ResKeeps.ite

theorem execRekeyReply_keeps {s0 s : State} (h : Keeps s0 s) (k : Pkt) : ResKeeps s0 (execRekeyReply k s) := by
  unfold execRekeyReply
  repeat' first
    | with_reducible assumption
    | with_reducible apply modSess_keeps
    | with_reducible apply odInc_keeps
    | with_reducible apply switchKeys_keeps
    | with_reducible apply noteRx_keeps
    | with_reducible apply ResKeeps.next
    | with_reducible apply Keeps.ite
    | with_reducible apply ResKeeps.ite
    | dsimp only
    | split

theorem execClose_keeps {s0 s : State} (h : Keeps s0 s) (k : Pkt) : ResKeeps s0 (execClose k s) := by
  unfold execClose
  repeat' first
    | with_reducible assumption
    | with_reducible apply odInc_keeps
    | with_reducible apply sendAck_keeps
    | with_reducible apply noteRx_keeps
    | with_reducible apply failSess_keeps
    | with_reducible apply ResKeeps.next
    | with_reducible apply ResKeeps.ite

theorem reqDone_keeps {s0 s : State} (h : Keeps s0 s) (r : ReqRef) (raw : List Byte) (code : Nat) :
    Keeps s0 (reqDone s r raw code) := by
  unfold reqDone
  repeat' first
    | with_reducible assumption
    | with_reducible apply netStatus_keeps

theorem messageIssue_keeps {s0 s : State} (h : Keeps s0 s) (r : ReqRef) (raw : List Byte) :
    Keeps s0 (messageIssue s r raw) := by
  unfold messageIssue
  repeat' first
    | with_reducible assumption
    | with_reducible apply newMsg_keeps
    | with_reducible apply reqDone_keeps
    | with_reducible apply Keeps.ite
    | with_reducible apply OptKeeps.getD

theorem execNctPut_keeps {s0 s : State} (h : Keeps s0 s) (r : ReqRef) (raw : List Byte) :
    ResKeeps s0 (execNctPut r raw s) := by
  unfold execNctPut
  repeat' first
    | with_reducible assumption
    | with_reducible apply messageIssue_keeps
    | with_reducible apply ResKeeps.next

theorem execNctGet_keeps {s0 s : State} (h : Keeps s0 s) (r : ReqRef) (raw : List Byte) :
    ResKeeps s0 (execNctGet r raw s) := by
  unfold execNctGet
  repeat' first
    | with_reducible assumption
    | with_reducible apply messageIssue_keeps
    | with_reducible apply ResKeeps.next

theorem execNctSignal_keeps {s0 s : State} (h : Keeps s0 s) (r : ReqRef) (raw : List Byte) :
    ResKeeps s0 (execNctSignal r raw s) := by
  unfold execNctSignal
  repeat' first
    | with_reducible assumption
    | with_reducible apply messageIssue_keeps
    | with_reducible apply ResKeeps.next

theorem fenceIssue_keeps {s0 s : State} (h : Keeps s0 s) (r : ReqRef) (raw : List Byte) :
    Keeps s0 (fenceIssue s r raw) := by
  unfold fenceIssue
  repeat' first
    | with_reducible assumption
    | with_reducible apply modNet_keeps
    | with_reducible apply reqDone_keeps
    | with_reducible apply Keeps.ite

theorem execNctFence_keeps {s0 s : State} (h : Keeps s0 s) (r : ReqRef) (raw : List Byte) :
    ResKeeps s0 (execNctFence r raw s) := by
  unfold execNctFence
  repeat' first
    | with_reducible assumption
    | with_reducible apply fenceIssue_keeps
    | with_reducible apply ResKeeps.next

theorem openIssue_keeps {s0 s : State} (h : Keeps s0 s) (r : ReqRef) (raw : List Byte) :
    Keeps s0 (openIssue s r raw) := by
  unfold openIssue
  repeat' first
    | with_reducible assumption
    | with_reducible apply modSess_keeps
    | with_reducible apply entryWrite_keeps
    | with_reducible apply queueShake_keeps
    | with_reducible apply reqDone_keeps
    | with_reducible apply Keeps.ite
    | dsimp only
    | split

theorem execNctOpen_keeps {s0 s : State} (h : Keeps s0 s) (r : ReqRef) (raw : List Byte) :
    ResKeeps s0 (execNctOpen r raw s) := by
  unfold execNctOpen
  repeat' first
    | with_reducible assumption
    | with_reducible apply openIssue_keeps
    | with_reducible apply ResKeeps.next

theorem closeIssue_keeps {s0 s : State} (h : Keeps s0 s) (r : ReqRef) (raw : List Byte) :
    Keeps s0 (closeIssue s r raw) := by
  unfold closeIssue
  repeat' first
    | with_reducible assumption
    | with_reducible apply modSess_keeps
    | with_reducible apply closeIfDone_keeps
    | with_reducible apply dropSess_keeps
    | with_reducible apply reqDone_keeps
    | with_reducible apply Keeps.ite

theorem execNctClose_keeps {s0 s : State} (h : Keeps s0 s) (r : ReqRef) (raw : List Byte) :
    ResKeeps s0 (execNctClose r raw s) := by
  unfold execNctClose
  repeat' first
    | with_reducible assumption
    | with_reducible apply closeIssue_keeps
    | with_reducible apply ResKeeps.next

theorem clearErrorIssue_keeps {s0 s : State} (h : Keeps s0 s) (r : ReqRef) (raw : List Byte) :
    Keeps s0 (clearErrorIssue s r raw) := by
  unfold clearErrorIssue
  repeat' first
    | with_reducible assumption
    | with_reducible apply modSess_keeps
    | with_reducible apply reqDone_keeps
    | with_reducible apply Keeps.ite

theorem execNctClearError_keeps {s0 s : State} (h : Keeps s0 s) (r : ReqRef) (raw : List Byte) :
    ResKeeps s0 (execNctClearError r raw s) := by
  unfold execNctClearError
  repeat' first
    | with_reducible assumption
    | with_reducible apply clearErrorIssue_keeps
    | with_reducible apply ResKeeps.next

theorem nctIssue_keeps {s0 s : State} (h : Keeps s0 s) (r : ReqRef) (raw : List Byte) :
    Keeps s0 (nctIssue s r raw) := by
  unfold nctIssue
  repeat' first
    | with_reducible assumption
    | with_reducible apply messageIssue_keeps
    | with_reducible apply fenceIssue_keeps
    | with_reducible apply openIssue_keeps
    | with_reducible apply closeIssue_keeps
    | with_reducible apply clearErrorIssue_keeps
    | split

theorem execNctFenceComplete_keeps {s0 s : State} (h : Keeps s0 s) (sess : Nat) :
    ResKeeps s0 (execNctFenceComplete sess s) := by
  unfold execNctFenceComplete
  repeat' first
    | with_reducible assumption
    | with_reducible apply completeFences_keeps
    | with_reducible apply ResKeeps.next

theorem execPacketTransmit_keeps {s0 s : State} (h : Keeps s0 s) (sess : Nat) (now : Nat) (srcOk : Bool) (poison : Bool) :
    ResKeeps s0 (execPacketTransmit sess now srcOk poison s) := by
  unfold execPacketTransmit
  repeat' first
    | with_reducible assumption
    | with_reducible apply transmitNext_keeps
    | with_reducible apply ResKeeps.next

theorem execNetCreditAvailable_keeps {s0 s : State} (h : Keeps s0 s) (nd : Nat) (now : Nat) :
    ResKeeps s0 (execNetCreditAvailable nd now s) := by
  unfold execNetCreditAvailable
  repeat' first
    | with_reducible assumption
    | with_reducible apply transmitNext_keeps
    | with_reducible apply ResKeeps.next
    | split

theorem execAckTimer_keeps {s0 s : State} (h : Keeps s0 s) (sess : Nat) : ResKeeps s0 (execAckTimer sess s) := by
  unfold execAckTimer
  repeat' first
    | with_reducible assumption
    | with_reducible apply sendAck_keeps
    | with_reducible apply ResKeeps.next
    | with_reducible apply ResKeeps.ite

theorem execRetransmitTimeout_keeps {s0 s : State} (h : Keeps s0 s) (sess : Nat) (now : Nat) :
    ResKeeps s0 (execRetransmitTimeout sess now s) := by
  unfold execRetransmitTimeout
  repeat' first
    | with_reducible assumption
    | with_reducible apply modSess_keeps
    | with_reducible apply resend_keeps
    | with_reducible apply ResKeeps.next
    | with_reducible apply ResKeeps.ite

theorem execHelloTimeout_keeps {s0 s : State} (h : Keeps s0 s) (sess : Nat) :
    ResKeeps s0 (execHelloTimeout sess s) := by
  unfold execHelloTimeout
  repeat' first
    | with_reducible assumption
    | with_reducible apply modSess_keeps
    | with_reducible apply dropSess_keeps
    | with_reducible apply queueShake_keeps
    | with_reducible apply ResKeeps.next
    | with_reducible apply ResKeeps.ite

theorem execSessionFail_keeps {s0 s : State} (h : Keeps s0 s) (sess : Nat) :
    ResKeeps s0 (execSessionFail sess s) := by
  unfold execSessionFail
  repeat' first
    | with_reducible assumption
    | with_reducible apply failSess_keeps
    | with_reducible apply ResKeeps.next
    | with_reducible apply ResKeeps.ite

theorem execCloseTimeout_keeps {s0 s : State} (h : Keeps s0 s) (sess : Nat) :
    ResKeeps s0 (execCloseTimeout sess s) := by
  unfold execCloseTimeout
  repeat' first
    | with_reducible assumption
    | with_reducible apply endAll_keeps
    | with_reducible apply dropSess_keeps
    | with_reducible apply ResKeeps.next
    | with_reducible apply ResKeeps.ite

theorem execOldKeyExpiry_keeps {s0 s : State} (h : Keeps s0 s) (sess : Nat) :
    ResKeeps s0 (execOldKeyExpiry sess s) := by
  unfold execOldKeyExpiry
  repeat' first
    | with_reducible assumption
    | with_reducible apply modSess_keeps
    | with_reducible apply ResKeeps.next
    | with_reducible apply ResKeeps.ite

theorem execRekeyStart_keeps {s0 s : State} (h : Keeps s0 s) (sess : Nat) : ResKeeps s0 (execRekeyStart sess s) := by
  unfold execRekeyStart
  repeat' first
    | with_reducible assumption
    | with_reducible apply modSess_keeps
    | with_reducible apply sendCtl_keeps
    | with_reducible apply freshScalar_keeps
    | with_reducible apply ResKeeps.next
    | with_reducible apply ResKeeps.ite

theorem execRnrResend_keeps {s0 s : State} (h : Keeps s0 s) (sess : Nat) (msg : Nat) :
    ResKeeps s0 (execRnrResend sess msg s) := by
  unfold execRnrResend
  repeat' first
    | with_reducible assumption
    | with_reducible apply modSess_keeps
    | with_reducible apply modMsg_keeps
    | with_reducible apply resend_keeps
    | with_reducible apply ResKeeps.next
    | with_reducible apply ResKeeps.ite
    | dsimp only
    | split

theorem sendShake_keeps {s0 s : State} (h : Keeps s0 s) (h : Handshake) : Keeps s0 (sendShake s h) := by
  unfold sendShake
  repeat' first
    | with_reducible assumption
    | with_reducible apply modSess_keeps
    | with_reducible apply emitAs_keeps
    | with_reducible apply Keeps.ite
    | dsimp only
    | split

theorem makeEph_keeps {s0 s : State} (h : Keeps s0 s) (h : Handshake) : Keeps s0 (makeEph s h) := by
  unfold makeEph
  repeat' first
    | with_reducible assumption
    | with_reducible apply modSess_keeps
    | with_reducible apply freshScalar_keeps

theorem execKeyStoreHandshake_keeps {s0 s : State} (h : Keeps s0 s) : ResKeeps s0 (execKeyStoreHandshake s) := by
  unfold execKeyStoreHandshake
  repeat' first
    | with_reducible assumption
    | with_reducible apply modNet_keeps
    | with_reducible apply dropSess_keeps
    | with_reducible apply sendShake_keeps
    | with_reducible apply makeEph_keeps
    | with_reducible apply ResKeeps.next
    | with_reducible apply ResKeeps.ite
    | dsimp only
    | split

theorem parkSessions_keeps {s0 s : State} (h : Keeps s0 s) (p : Nat) : Keeps s0 (parkSessions s p) := by
  unfold parkSessions
  repeat' first
    | with_reducible assumption
    | with_reducible apply modSess_keeps
    | with_reducible apply modNet_keeps
    | with_reducible apply Keeps.ite
    | with_reducible refine Keeps.foldl ?_ _ _ (fun t x ht => ?_)

theorem resumeSessions_keeps {s0 s : State} (h : Keeps s0 s) (p : Nat) (jobSeq : Nat) :
    Keeps s0 (resumeSessions s p jobSeq) := by
  unfold resumeSessions
  repeat' first
    | with_reducible assumption
    | with_reducible apply modSess_keeps
    | with_reducible apply resend_keeps
    | with_reducible apply Keeps.ite
    | with_reducible refine Keeps.foldl ?_ _ _ (fun t x ht => ?_)

theorem closeSessions_keeps {s0 s : State} (h : Keeps s0 s) (p : Nat) (jobSeq : Nat) :
    Keeps s0 (closeSessions s p jobSeq) := by
  unfold closeSessions
  repeat' first
    | with_reducible assumption
    | with_reducible apply modSess_keeps
    | with_reducible apply closeIfDone_keeps
    | with_reducible apply dropSess_keeps
    | with_reducible refine Keeps.foldl ?_ _ _ (fun t x ht => ?_)
    | split

theorem tearSessions_keeps {s0 s : State} (h : Keeps s0 s) (p : Nat) : Keeps s0 (tearSessions s p) := by
  unfold tearSessions
  repeat' first
    | with_reducible assumption
    | with_reducible apply sendCtl_keeps
    | with_reducible apply releaseId_keeps
    | with_reducible apply dropSess_keeps
    | with_reducible apply refuseMsg_keeps
    | with_reducible refine Keeps.foldl ?_ _ _ (fun t x ht => ?_)
    | with_reducible exact Nat.le_refl _
    | with_reducible exact id
    | with_reducible exact fun _ x => x
    | dsimp only
    | split
    | (fail_if_no_progress (with_reducible apply Keeps.lit))

end Sys2Proof.Machine
end

