-- ==== Sys2Proof/Laws/KeepsCollectives.lean ====
section
/-!
SUPPORT. `Keeps` for the operations of Collectives.
-/

namespace Sys2Proof.Machine

theorem mismatchCall_keeps {s0 s : State} (h : Keeps s0 s) (p : Nat) (c : Call) (src : Option Nat) :
    Keeps s0 (mismatchCall s p c src) := by
  unfold mismatchCall
  repeat' first
    | with_reducible assumption
    | with_reducible apply odInc_keeps
    | with_reducible apply collNotice_keeps
    | with_reducible apply collDone_keeps
    | dsimp only
    | split

theorem giveCall_keeps {s0 s : State} (h : Keeps s0 s) (p : Nat) (n : Nat) (c : Call) (k : Pkt) :
    Keeps s0 (giveCall s p n c k) := by
  unfold giveCall
  repeat' first
    | with_reducible assumption
    | with_reducible apply setCall_keeps
    | with_reducible apply collAdvance_keeps
    | with_reducible apply mismatchCall_keeps
    | with_reducible apply Keeps.ite
    | dsimp only
    | split

theorem holdPkt_keeps {s0 s : State} (h : Keeps s0 s) (p : Nat) (n : Nat) (k : Pkt) :
    OptKeeps s0 (holdPkt s p n k) := by
  unfold holdPkt
  repeat' first
    | with_reducible assumption
    | with_reducible apply modPart_keeps
    | with_reducible apply modNet_keeps
    | with_reducible apply giveCredit_keeps
    | with_reducible apply OptKeeps.some
    | with_reducible apply OptKeeps.none
    | with_reducible apply OptKeeps.ite
    | dsimp only
    | split

theorem noteHeld_keeps {s0 s : State} (h : Keeps s0 s) (n : Nat) (k : Pkt) : Keeps s0 (noteHeld s n k) := by
  unfold noteHeld
  repeat' first
    | with_reducible assumption
    | with_reducible apply modNet_keeps
    | with_reducible apply noteRx_keeps

theorem collReceive_keeps {s0 s : State} (h : Keeps s0 s) (k : Pkt) : Keeps s0 (collReceive s k) := by
  unfold collReceive
  repeat' first
    | with_reducible assumption
    | with_reducible apply giveCredit_keeps
    | with_reducible apply noteRx_keeps
    | with_reducible apply rxPlaced_keeps
    | with_reducible apply lateEpoch_keeps
    | with_reducible apply rxStop_keeps
    | with_reducible apply giveCall_keeps
    | with_reducible apply holdPkt_keeps
    | with_reducible apply noteHeld_keeps
    | with_reducible apply Keeps.ite
    | with_reducible refine OptKeeps.of_eq ?_ (by with_reducible assumption)
    | dsimp only
    | split

theorem noticeReceive_keeps {s0 s : State} (h : Keeps s0 s) (k : Pkt) (act : State → Nat → State) (hf : ∀ t n, Keeps s0 t → Keeps s0 (act t n)) :
    Keeps s0 (noticeReceive s k act) := by
  unfold noticeReceive
  repeat' first
    | with_reducible assumption
    | with_reducible apply noteRx_keeps
    | with_reducible apply rxPlaced_keeps
    | with_reducible apply rxStop_keeps
    | with_reducible apply hf
    | with_reducible refine OptKeeps.of_eq ?_ (by with_reducible assumption)
    | split

theorem execCollPacket_keeps {s0 s : State} (h : Keeps s0 s) (k : Pkt) : ResKeeps s0 (execCollPacket k s) := by
  unfold execCollPacket
  repeat' first
    | with_reducible assumption
    | with_reducible apply collReceive_keeps
    | with_reducible apply ResKeeps.next
    | with_reducible apply ResKeeps.ite

theorem execAnnounce_keeps {s0 s : State} (h : Keeps s0 s) (k : Pkt) : ResKeeps s0 (execAnnounce k s) := by
  unfold execAnnounce
  repeat' first
    | with_reducible assumption
    | with_reducible apply collReceive_keeps
    | with_reducible apply ResKeeps.next
    | with_reducible apply ResKeeps.ite

theorem execPlace_keeps {s0 s : State} (h : Keeps s0 s) (k : Pkt) : ResKeeps s0 (execPlace k s) := by
  unfold execPlace
  repeat' first
    | with_reducible assumption
    | with_reducible apply collReceive_keeps
    | with_reducible apply ResKeeps.next
    | with_reducible apply ResKeeps.ite

theorem execEpochClosed_keeps {s0 s : State} (h : Keeps s0 s) (k : Pkt) : ResKeeps s0 (execEpochClosed k s) := by
  unfold execEpochClosed
  repeat' first
    | with_reducible assumption
    | with_reducible apply collDone_keeps
    | with_reducible apply collAdvanceAll_keeps
    | with_reducible apply noticeReceive_keeps
    | with_reducible apply ResKeeps.next
    | with_reducible apply ResKeeps.ite
    | intro _
    | split

theorem execMismatch_keeps {s0 s : State} (h : Keeps s0 s) (k : Pkt) : ResKeeps s0 (execMismatch k s) := by
  unfold execMismatch
  repeat' first
    | with_reducible assumption
    | with_reducible apply collAdvanceAll_keeps
    | with_reducible apply mismatchCall_keeps
    | with_reducible apply noticeReceive_keeps
    | with_reducible apply ResKeeps.next
    | with_reducible apply ResKeeps.ite
    | intro _
    | split

theorem execCollAbort_keeps {s0 s : State} (h : Keeps s0 s) (k : Pkt) : ResKeeps s0 (execCollAbort k s) := by
  unfold execCollAbort
  repeat' first
    | with_reducible assumption
    | with_reducible apply breakComm_keeps
    | with_reducible apply noticeReceive_keeps
    | with_reducible apply ResKeeps.next
    | with_reducible apply ResKeeps.ite
    | intro _

theorem takeHeld_keeps {s0 s : State} (h : Keeps s0 s) (p : Nat) (ref : ReqRef) : Keeps s0 (takeHeld s p ref) := by
  unfold takeHeld
  repeat' first
    | with_reducible assumption
    | with_reducible apply modPart_keeps
    | with_reducible apply giveCredit_keeps
    | with_reducible apply giveCall_keeps
    | with_reducible refine Keeps.foldl ?_ _ _ (fun t x ht => ?_)
    | dsimp only
    | split

theorem collIssue_keeps {s0 s : State} (h : Keeps s0 s) (r : ReqRef) (raw : List Byte) :
    Keeps s0 (collIssue s r raw) := by
  unfold collIssue
  repeat' first
    | with_reducible assumption
    | with_reducible apply modPart_keeps
    | with_reducible apply odInc_keeps
    | with_reducible apply coreErr_keeps
    | with_reducible apply farRead_keeps
    | with_reducible apply commPut_keeps
    | with_reducible apply commSeen_keeps
    | with_reducible apply collDone_keeps
    | with_reducible apply takeHeld_keeps
    | with_reducible apply Keeps.ite
    | with_reducible refine Keeps.foldl ?_ _ _ (fun t x ht => ?_)
    | dsimp only
    | split

theorem execAllReduce_keeps {s0 s : State} (h : Keeps s0 s) (r : ReqRef) (raw : List Byte) :
    ResKeeps s0 (execAllReduce r raw s) := by
  unfold execAllReduce
  repeat' first
    | with_reducible assumption
    | with_reducible apply collIssue_keeps
    | with_reducible apply ResKeeps.next

theorem execReduceScatter_keeps {s0 s : State} (h : Keeps s0 s) (r : ReqRef) (raw : List Byte) :
    ResKeeps s0 (execReduceScatter r raw s) := by
  unfold execReduceScatter
  repeat' first
    | with_reducible assumption
    | with_reducible apply collIssue_keeps
    | with_reducible apply ResKeeps.next

theorem execAllGather_keeps {s0 s : State} (h : Keeps s0 s) (r : ReqRef) (raw : List Byte) :
    ResKeeps s0 (execAllGather r raw s) := by
  unfold execAllGather
  repeat' first
    | with_reducible assumption
    | with_reducible apply collIssue_keeps
    | with_reducible apply ResKeeps.next

theorem execAllToAll_keeps {s0 s : State} (h : Keeps s0 s) (r : ReqRef) (raw : List Byte) :
    ResKeeps s0 (execAllToAll r raw s) := by
  unfold execAllToAll
  repeat' first
    | with_reducible assumption
    | with_reducible apply collIssue_keeps
    | with_reducible apply ResKeeps.next

theorem execPermute_keeps {s0 s : State} (h : Keeps s0 s) (r : ReqRef) (raw : List Byte) :
    ResKeeps s0 (execPermute r raw s) := by
  unfold execPermute
  repeat' first
    | with_reducible assumption
    | with_reducible apply collIssue_keeps
    | with_reducible apply ResKeeps.next

theorem execBroadcast_keeps {s0 s : State} (h : Keeps s0 s) (r : ReqRef) (raw : List Byte) :
    ResKeeps s0 (execBroadcast r raw s) := by
  unfold execBroadcast
  repeat' first
    | with_reducible assumption
    | with_reducible apply collIssue_keeps
    | with_reducible apply ResKeeps.next

theorem execCollCallStart_keeps {s0 s : State} (h : Keeps s0 s) (p : Nat) (comm : Nat) :
    ResKeeps s0 (execCollCallStart p comm s) := by
  unfold execCollCallStart
  repeat' first
    | with_reducible assumption
    | with_reducible apply setCall_keeps
    | with_reducible apply collAdvance_keeps
    | with_reducible apply ResKeeps.next
    | with_reducible apply ResKeeps.ite
    | dsimp only
    | split

theorem execPermuteStart_keeps {s0 s : State} (h : Keeps s0 s) (p : Nat) : ResKeeps s0 (execPermuteStart p s) := by
  unfold execPermuteStart
  repeat' first
    | with_reducible assumption
    | with_reducible apply commPut_keeps
    | with_reducible apply setCall_keeps
    | with_reducible apply collAdvance_keeps
    | with_reducible apply closeEpoch_keeps
    | with_reducible apply takeHeld_keeps
    | with_reducible apply ResKeeps.next
    | with_reducible apply ResKeeps.ite
    | dsimp only
    | split

theorem execCollCallComplete_keeps {s0 s : State} (h : Keeps s0 s) (p : Nat) (comm : Nat) (seq : Nat) :
    ResKeeps s0 (execCollCallComplete p comm seq s) := by
  unfold execCollCallComplete
  repeat' first
    | with_reducible assumption
    | with_reducible apply collDone_keeps
    | with_reducible apply collAdvanceAll_keeps
    | with_reducible apply ResKeeps.next
    | dsimp only
    | split

theorem dropCalls_keeps {s0 s : State} (h : Keeps s0 s) (p : Nat) (jobSeq : Nat) :
    Keeps s0 (dropCalls s p jobSeq) := by
  unfold dropCalls
  repeat' first
    | with_reducible assumption
    | with_reducible apply modPart_keeps
    | with_reducible apply cancelMsgs_keeps
    | with_reducible refine Keeps.foldl ?_ _ _ (fun t x ht => ?_)

end Sys2Proof.Machine
end

