-- ==== Sys2Proof/Laws/KeepsQueues.lean ====
section
/-!
SUPPORT. `Keeps` for the operations of Queues.
-/

namespace Sys2Proof.Machine

theorem modQueue_keeps {s0 s : State} (h : Keeps s0 s) (p : Nat) (q : Nat) (f : Queue → Queue) :
    Keeps s0 (modQueue s p q f) := by
  unfold modQueue
  repeat' first
    | with_reducible assumption
    | with_reducible apply modPart_keeps

theorem accountWait_keeps {s0 s : State} (h : Keeps s0 s) (p : Nat) (q : Nat) (ns : Nat) :
    Keeps s0 (accountWait s p q ns) := by
  unfold accountWait
  repeat' first
    | with_reducible assumption
    | with_reducible apply odSet_keeps
    | with_reducible apply odAdd_keeps
    | with_reducible apply odInc_keeps

theorem takeEntry_keeps {s0 s : State} (h : Keeps s0 s) (p : Nat) (q : Nat) (ns : Nat) :
    Keeps s0 (takeEntry s p q ns) := by
  unfold takeEntry
  repeat' first
    | with_reducible assumption
    | with_reducible apply forTenant_keeps
    | with_reducible apply ringWrite_keeps
    | with_reducible apply modQueue_keeps
    | with_reducible apply accountWait_keeps
    | intro _

theorem faultQueue_keeps {s0 s : State} (h : Keeps s0 s) (p : Nat) (q : Nat) : Keeps s0 (faultQueue s p q) := by
  unfold faultQueue
  repeat' first
    | with_reducible assumption
    | with_reducible apply odSet_keeps
    | with_reducible apply odOr_keeps
    | with_reducible apply recordOnly_keeps
    | with_reducible apply modQueue_keeps

theorem issueTo_keeps {s0 s : State} (h : Keeps s0 s) (r : ReqRef) (raw : List Byte) :
    Keeps s0 (issueTo s r raw) := by
  unfold issueTo
  repeat' first
    | with_reducible assumption
    | with_reducible apply mediaIssue_keeps
    | with_reducible apply sampleIssue_keeps
    | with_reducible apply lookupIssue_keeps
    | with_reducible apply nctIssue_keeps
    | with_reducible apply collIssue_keeps
    | with_reducible apply Keeps.ite
    | dsimp only
    | split

theorem deliverRecord_keeps {s0 s : State} (h : Keeps s0 s) (p : Nat) (h : HeldRec) :
    Keeps s0 (deliverRecord s p h) := by
  unfold deliverRecord
  repeat' first
    | with_reducible assumption
    | with_reducible apply emit_keeps
    | with_reducible apply ringWrite_keeps
    | with_reducible apply entryWrite_keeps

theorem completeJob_keeps {s0 s : State} (h : Keeps s0 s) (p : Nat) (h : HeldRec) : Keeps s0 (completeJob s p h) := by
  unfold completeJob
  repeat' first
    | with_reducible assumption
    | with_reducible apply modPart_keeps
    | with_reducible apply odInc_keeps
    | with_reducible apply deliverRecord_keeps
    | with_reducible apply Keeps.ite

theorem releaseRecords_keeps {s0 : State} (n : Nat) : ∀ {s : State}, Keeps s0 s → ∀ (p : Nat),
    Keeps s0 (releaseRecords n s p) := by
  induction n with
  | zero => intro s h p; exact h
  | succ n ih =>
    intro s h p
    rw [releaseRecords]
    split
    · exact h
    · exact Keeps.ite h (ih (deliverRecord_keeps (modPart_keeps h ..) ..) _)

theorem readTime_keeps {s0 s : State} (h : Keeps s0 s) : Keeps s0 (readTime s).2 := by
  unfold readTime
  repeat' first
    | with_reducible assumption
    | with_reducible apply fresh_keeps

theorem settleBanks_keeps {s0 : State} (n : Nat) : ∀ {s : State}, Keeps s0 s → ∀ (p g : Nat),
    Keeps s0 (settleBanks n s p g) := by
  induction n with
  | zero => intro s h p g; exact h
  | succ n ih =>
    intro s h p g
    rw [settleBanks]
    exact Keeps.ite h (ih (bankRound_keeps (modCell_keeps h ..) ..) ..)

theorem settlePort_keeps {s0 s : State} (h : Keeps s0 s) (p : Nat) (g : Nat) : Keeps s0 (settlePort s p g) := by
  unfold settlePort
  repeat' first
    | with_reducible assumption
    | with_reducible apply modCell_keeps
    | with_reducible apply stratusWrite_keeps
    | with_reducible refine Keeps.foldl ?_ _ _ (fun t x ht => ?_)

theorem settleDie_keeps {s0 s : State} (h : Keeps s0 s) (d : Nat) : Keeps s0 (settleDie s d) := by
  unfold settleDie
  repeat' first
    | with_reducible assumption
    | with_reducible apply modDie_keeps
    | with_reducible apply grantWait_keeps
    | with_reducible refine Keeps.foldl ?_ _ _ (fun t x ht => ?_)

theorem settleFabric_keeps {s0 s : State} (h : Keeps s0 s) (p : Nat) : Keeps s0 (settleFabric s p) := by
  unfold settleFabric
  repeat' first
    | with_reducible assumption
    | with_reducible exact Nat.le_refl _
    | with_reducible exact id
    | with_reducible exact fun _ x => x
    | dsimp only
    | (fail_if_no_progress (with_reducible apply Keeps.lit))

theorem haltCells_keeps {s0 s : State} (h : Keeps s0 s) (p : Nat) : Keeps s0 (haltCells s p) := by
  unfold haltCells
  repeat' first
    | with_reducible assumption
    | with_reducible apply modCell_keeps
    | with_reducible apply settleBanks_keeps
    | with_reducible apply settlePort_keeps
    | with_reducible apply settleDie_keeps
    | with_reducible apply settleFabric_keeps
    | with_reducible refine Keeps.foldl ?_ _ _ (fun t x ht => ?_)
    | dsimp only
    | split

theorem countHalts_keeps {s0 s : State} (h : Keeps s0 s) (p : Nat) : Keeps s0 (countHalts s p) := by
  unfold countHalts
  repeat' first
    | with_reducible assumption
    | with_reducible apply fresh_keeps
    | with_reducible apply countWait_keeps
    | with_reducible refine Keeps.foldl ?_ _ _ (fun t x ht => ?_)

theorem restUnits_keeps {s0 s : State} (h : Keeps s0 s) (p : Nat) : Keeps s0 (restUnits s p) := by
  unfold restUnits
  repeat' first
    | with_reducible assumption
    | with_reducible apply abortMove_keeps
    | with_reducible apply settleScale_keeps
    | with_reducible apply writeScale_keeps
    | with_reducible apply stopEngines_keeps
    | with_reducible apply stopWriters_keeps
    | with_reducible refine Keeps.foldl ?_ _ _ (fun t x ht => ?_)

theorem dropControl_keeps {s0 s : State} (h : Keeps s0 s) (p : Nat) : Keeps s0 (dropControl s p) := by
  unfold dropControl
  repeat' first
    | with_reducible assumption
    | with_reducible apply modDie_keeps
    | with_reducible apply modPart_keeps
    | with_reducible refine Keeps.foldl ?_ _ _ (fun t x ht => ?_)

theorem endJob_keeps {s0 s : State} (h : Keeps s0 s) (p : Nat) (status : Nat) (code : Nat) (wher : Nat) (ran : Bool) :
    Keeps s0 (endJob s p status code wher ran) := by
  unfold endJob
  repeat' first
    | with_reducible assumption
    | with_reducible apply closeSessions_keeps
    | with_reducible apply dropCalls_keeps
    | with_reducible apply completeJob_keeps
    | with_reducible apply readTime_keeps
    | with_reducible apply haltCells_keeps
    | with_reducible apply countHalts_keeps
    | with_reducible apply restUnits_keeps
    | with_reducible apply dropControl_keeps
    | with_reducible apply Keeps.ite
    | dsimp only
    | split

theorem abortParked_keeps {s0 s : State} (h : Keeps s0 s) (p : Nat) (j : Job) (code : Nat) :
    Keeps s0 (abortParked s p j code) := by
  unfold abortParked
  repeat' first
    | with_reducible assumption
    | with_reducible apply modPart_keeps
    | with_reducible apply odAdd_keeps
    | with_reducible apply closeSessions_keeps
    | with_reducible apply dropCalls_keeps
    | with_reducible apply completeJob_keeps
    | with_reducible apply readTime_keeps

theorem abortAllParked_keeps {s0 s : State} (h : Keeps s0 s) (p : Nat) (code : Nat) :
    Keeps s0 (abortAllParked s p code) := by
  unfold abortAllParked
  repeat' first
    | with_reducible assumption
    | with_reducible apply abortParked_keeps
    | with_reducible refine Keeps.foldl ?_ _ _ (fun t x ht => ?_)

end Sys2Proof.Machine
end

