-- ==== Sys2Proof/Laws/KeepsJobStart.lean ====
section
/-!
SUPPORT. `Keeps` for the operations of JobStart.
-/

namespace Sys2Proof.Machine

theorem scaleSeen_keeps {s0 s : State} (h : Keeps s0 s) (p : Nat) : Keeps s0 (scaleSeen s p) := by
  unfold scaleSeen
  repeat' first
    | with_reducible assumption
    | with_reducible apply farRead_keeps

theorem loadCells_keeps {s0 s : State} (h : Keeps s0 s) (p : Nat) (image : Nat) : Keeps s0 (loadCells s p image) := by
  unfold loadCells
  repeat' first
    | with_reducible assumption
    | with_reducible apply setCell_keeps
    | with_reducible apply modDie_keeps
    | with_reducible refine Keeps.foldl ?_ _ _ (fun t x ht => ?_)

theorem loadScale_keeps {s0 s : State} (h : Keeps s0 s) (p : Nat) : Keeps s0 (loadScale s p) := by
  unfold loadScale
  repeat' first
    | with_reducible assumption
    | with_reducible apply modPart_keeps
    | with_reducible apply scaleSeen_keeps

theorem applyPatch_keeps {s0 s : State} (h : Keeps s0 s) (p : Nat) (x : Nat × Nat × Nat × Bool) :
    Keeps s0 (applyPatch s p x) := by
  unfold applyPatch
  repeat' first
    | with_reducible assumption
    | with_reducible apply modCell_keeps
    | with_reducible apply scratchMerge_keeps
    | with_reducible refine Keeps.foldl ?_ _ _ (fun t x ht => ?_)

theorem applyPatches_keeps {s0 s : State} (h : Keeps s0 s) (p : Nat) (list : Nat) (n : Nat) :
    Keeps s0 (applyPatches s p list n) := by
  unfold applyPatches
  repeat' first
    | with_reducible assumption
    | with_reducible apply applyPatch_keeps
    | with_reducible refine Keeps.foldl ?_ _ _ (fun t x ht => ?_)

theorem addMeas_keeps {s0 s : State} (h : Keeps s0 s) (p : Nat) (e : MeasEntry) : Keeps s0 (addMeas s p e) := by
  unfold addMeas
  repeat' first
    | with_reducible assumption
    | with_reducible apply modPart_keeps
    | with_reducible apply odOr_keeps
    | with_reducible apply Keeps.ite

theorem resetMeas_keeps {s0 s : State} (h : Keeps s0 s) (p : Nat) : Keeps s0 (resetMeas s p) := by
  unfold resetMeas
  repeat' first
    | with_reducible assumption
    | with_reducible apply modPart_keeps
    | with_reducible apply odSet_keeps

theorem measureProgram_keeps {s0 s : State} (h : Keeps s0 s) (p : Nat) (j : Job) :
    Keeps s0 (measureProgram s p j) := by
  unfold measureProgram
  repeat' first
    | with_reducible assumption
    | with_reducible apply modPart_keeps
    | with_reducible apply addMeas_keeps
    | with_reducible apply Keeps.ite

end Sys2Proof.Machine
end

