-- ==== Sys2Proof/Laws/KeepsJobs.lean ====
section
/-!
SUPPORT. `Keeps` for the operations of Jobs.
-/

namespace Sys2Proof.Machine

theorem clearCells_keeps {s0 s : State} (h : Keeps s0 s) (p : Nat) : Keeps s0 (clearCells s p) := by
  unfold clearCells
  repeat' first
    | with_reducible assumption
    | with_reducible apply setCell_keeps
    | with_reducible refine Keeps.foldl ?_ _ _ (fun t x ht => ?_)
    | split

theorem clearStratus_keeps {s0 s : State} (h : Keeps s0 s) (p : Nat) : Keeps s0 (clearStratus s p) := by
  unfold clearStratus
  repeat' first
    | with_reducible assumption
    | with_reducible apply modDie_keeps
    | with_reducible refine Keeps.foldl ?_ _ _ (fun t x ht => ?_)

theorem eraseGroup_keeps {s0 s : State} (h : Keeps s0 s) (g : Nat) : Keeps s0 (eraseGroup s g) := by
  unfold eraseGroup
  exact modGrp_keeps (Keeps.lit h (Nat.le_refl _) (fun hm => mclear_wf hm _ _) id (Nat.le_refl _) (Nat.le_refl _)
    (fun _ x => x) (fun _ x => x) (Nat.le_refl _)) g _

theorem scrubItem_keeps {s0 s : State} (h : Keeps s0 s) (p : Nat) (item : Nat) : Keeps s0 (scrubItem s p item) := by
  unfold scrubItem
  repeat' first
    | with_reducible assumption
    | with_reducible apply setCell_keeps
    | with_reducible apply modPart_keeps
    | with_reducible apply discardWays_keeps
    | with_reducible apply dropControl_keeps
    | with_reducible apply clearStratus_keeps
    | with_reducible apply eraseGroup_keeps
    | with_reducible refine Keeps.foldl ?_ _ _ (fun t x ht => ?_)
    | with_reducible exact Nat.le_refl _
    | with_reducible exact id
    | with_reducible exact fun _ x => x
    | dsimp only
    | split
    | (fail_if_no_progress (with_reducible apply Keeps.lit))

theorem scrubTenant_keeps {s0 s : State} (h : Keeps s0 s) (p : Nat) : Keeps s0 (scrubTenant s p) := by
  unfold scrubTenant
  repeat' first
    | with_reducible assumption
    | with_reducible apply cleanWays_keeps
    | with_reducible apply scrubItem_keeps
    | with_reducible refine Keeps.foldl ?_ _ _ (fun t x ht => ?_)

theorem becomeTenant_keeps {s0 s : State} (h : Keeps s0 s) (p : Nat) (tenant : Nat) :
    Keeps s0 (becomeTenant s p tenant) := by
  unfold becomeTenant
  repeat' first
    | with_reducible assumption
    | with_reducible apply modPart_keeps
    | with_reducible apply odSet_keeps
    | with_reducible apply scrubTenant_keeps
    | with_reducible apply Keeps.ite

theorem makeKey_keeps {s0 s : State} (h : Keeps s0 s) (p : Nat) (tenant : Nat) : Keeps s0 (makeKey s p tenant) := by
  unfold makeKey
  repeat' first
    | with_reducible assumption
    | with_reducible apply modPart_keeps
    | with_reducible exact Nat.le_refl _
    | with_reducible exact id
    | with_reducible exact fun _ x => x
    | dsimp only
    | (fail_if_no_progress (with_reducible apply Keeps.lit))

theorem keepRegions_keeps {s0 s : State} (h : Keeps s0 s) (p : Nat) (old : Tbl Nat) :
    Keeps s0 (keepRegions s p old) := by
  unfold keepRegions
  repeat' first
    | with_reducible assumption
    | with_reducible apply modPart_keeps

theorem notStarted_keeps {s0 s : State} (h : Keeps s0 s) (p : Nat) (c : Code) (addr : Nat) :
    Keeps s0 (notStarted s p c addr) := by
  unfold notStarted
  repeat' first
    | with_reducible assumption
    | with_reducible apply modPart_keeps
    | with_reducible apply report_keeps
    | with_reducible apply setState_keeps
    | with_reducible apply endJob_keeps

theorem launchJob_keeps {s0 s : State} (h : Keeps s0 s) (p : Nat) (j : Job) (patches : Nat) (npatch : Nat) :
    Keeps s0 (launchJob s p j patches npatch) := by
  unfold launchJob
  repeat' first
    | with_reducible assumption
    | with_reducible apply modPart_keeps
    | with_reducible apply setState_keeps
    | with_reducible apply publishScale_keeps
    | with_reducible apply readTime_keeps
    | with_reducible apply loadCells_keeps
    | with_reducible apply loadScale_keeps
    | with_reducible apply applyPatches_keeps
    | with_reducible apply measureProgram_keeps

theorem execJobStart_keeps {s0 s : State} (h : Keeps s0 s) (p : Nat) (q : Nat) (waitNs : Nat) :
    ResKeeps s0 (execJobStart p q waitNs s) := by
  unfold execJobStart
  repeat' first
    | with_reducible assumption
    | with_reducible apply modPart_keeps
    | with_reducible apply setState_keeps
    | with_reducible apply takeEntry_keeps
    | with_reducible apply resetMeas_keeps
    | with_reducible apply becomeTenant_keeps
    | with_reducible apply makeKey_keeps
    | with_reducible apply keepRegions_keeps
    | with_reducible apply notStarted_keeps
    | with_reducible apply launchJob_keeps
    | with_reducible apply ResKeeps.next
    | with_reducible apply Keeps.ite
    | with_reducible apply ResKeeps.ite
    | dsimp only
    | split

theorem execPartitionDone_keeps {s0 s : State} (h : Keeps s0 s) (p : Nat) : ResKeeps s0 (execPartitionDone p s) := by
  unfold execPartitionDone
  repeat' first
    | with_reducible assumption
    | with_reducible apply setState_keeps
    | with_reducible apply endJob_keeps
    | with_reducible apply ResKeeps.next
    | with_reducible apply ResKeeps.ite

theorem execCompletionRingSpace_keeps {s0 s : State} (h : Keeps s0 s) (p : Nat) :
    ResKeeps s0 (execCompletionRingSpace p s) := by
  unfold execCompletionRingSpace
  repeat' first
    | with_reducible assumption
    | with_reducible apply releaseRecords_keeps
    | with_reducible apply ResKeeps.next

theorem execDoorbell_keeps {s0 s : State} (h : Keeps s0 s) (p : Nat) (q : Nat) (tail : Nat) :
    ResKeeps s0 (execDoorbell p q tail s) := by
  unfold execDoorbell
  repeat' first
    | with_reducible assumption
    | with_reducible apply modQueue_keeps
    | with_reducible apply faultQueue_keeps
    | with_reducible apply ResKeeps.next
    | with_reducible apply ResKeeps.ite

theorem execEntryIssue_keeps {s0 s : State} (h : Keeps s0 s) (p : Nat) (q : Nat) (waitNs : Nat) :
    ResKeeps s0 (execEntryIssue p q waitNs s) := by
  unfold execEntryIssue
  repeat' first
    | with_reducible assumption
    | with_reducible apply modPart_keeps
    | with_reducible apply coreErr_keeps
    | with_reducible apply takeEntry_keeps
    | with_reducible apply faultQueue_keeps
    | with_reducible apply issueTo_keeps
    | with_reducible apply ResKeeps.next
    | with_reducible apply ResKeeps.ite
    | dsimp only
    | split

theorem execPageSemSignal_keeps {s0 s : State} (h : Keeps s0 s) (p : Nat) (seq : Nat) (cnt : Nat) (sem : Nat) :
    ResKeeps s0 (execPageSemSignal p seq cnt sem s) := by
  unfold execPageSemSignal
  repeat' first
    | with_reducible assumption
    | with_reducible apply signalSem_keeps
    | with_reducible apply ResKeeps.next

theorem execPreempt_keeps {s0 s : State} (h : Keeps s0 s) (p : Nat) (q : Nat) : ResKeeps s0 (execPreempt p q s) := by
  unfold execPreempt
  repeat' first
    | with_reducible assumption
    | with_reducible apply modPart_keeps
    | with_reducible apply modJob_keeps
    | with_reducible apply odInc_keeps
    | with_reducible apply setState_keeps
    | with_reducible apply readTime_keeps
    | with_reducible apply ResKeeps.next
    | with_reducible apply ResKeeps.ite

theorem saveReads_keeps {s0 s : State} (h : Keeps s0 s) (p : Nat) (image : Nat) : Keeps s0 (saveReads s p image) := by
  unfold saveReads
  repeat' first
    | with_reducible assumption
    | with_reducible apply scratchCheck_keeps
    | with_reducible apply stratusCheck_keeps
    | with_reducible refine Keeps.foldl ?_ _ _ (fun t x ht => ?_)

theorem execSwitchQuiesced_keeps {s0 s : State} (h : Keeps s0 s) (p : Nat) :
    ResKeeps s0 (execSwitchQuiesced p s) := by
  unfold execSwitchQuiesced
  repeat' first
    | with_reducible assumption
    | with_reducible apply modPart_keeps
    | with_reducible apply parkSessions_keeps
    | with_reducible apply settleBanks_keeps
    | with_reducible apply haltCells_keeps
    | with_reducible apply restUnits_keeps
    | with_reducible apply saveReads_keeps
    | with_reducible apply ResKeeps.next
    | with_reducible apply ResKeeps.ite
    | with_reducible refine Keeps.foldl ?_ _ _ (fun t x ht => ?_)
    | dsimp only
    | split

theorem execSwitchSaved_keeps {s0 s : State} (h : Keeps s0 s) (p : Nat) : ResKeeps s0 (execSwitchSaved p s) := by
  unfold execSwitchSaved
  repeat' first
    | with_reducible assumption
    | with_reducible apply modPart_keeps
    | with_reducible apply cleanWays_keeps
    | with_reducible apply dropControl_keeps
    | with_reducible apply endJob_keeps
    | with_reducible apply ResKeeps.next
    | with_reducible apply Keeps.ite
    | with_reducible apply ResKeeps.ite
    | dsimp only
    | split

theorem restoreAll_keeps {s0 s : State} (h : Keeps s0 s) (p : Nat) (image : Nat) (x : Saved) :
    Keeps s0 (restoreAll s p image x) := by
  unfold restoreAll
  repeat' first
    | with_reducible assumption
    | with_reducible apply setCell_keeps
    | with_reducible apply modDie_keeps
    | with_reducible refine Keeps.foldl ?_ _ _ (fun t x ht => ?_)
    | split

theorem execJobResume_keeps {s0 s : State} (h : Keeps s0 s) (p : Nat) : ResKeeps s0 (execJobResume p s) := by
  unfold execJobResume
  repeat' first
    | with_reducible assumption
    | with_reducible apply modPart_keeps
    | with_reducible apply odAdd_keeps
    | with_reducible apply setState_keeps
    | with_reducible apply coreErr_keeps
    | with_reducible apply countWait_keeps
    | with_reducible apply resumeSessions_keeps
    | with_reducible apply readTime_keeps
    | with_reducible apply loadScale_keeps
    | with_reducible apply becomeTenant_keeps
    | with_reducible apply restoreAll_keeps
    | with_reducible apply ResKeeps.next
    | dsimp only
    | split

theorem freePart_keeps {s0 s : State} (h : Keeps s0 s) (p : Nat) : Keeps s0 (freePart s p) := by
  unfold freePart
  repeat' first
    | with_reducible assumption
    | with_reducible apply setState_keeps
    | with_reducible exact Nat.le_refl _
    | with_reducible exact id
    | with_reducible exact fun _ x => x
    | (fail_if_no_progress (with_reducible apply Keeps.lit))

theorem execScrubDone_keeps {s0 s : State} (h : Keeps s0 s) (p : Nat) (item : Nat) :
    ResKeeps s0 (execScrubDone p item s) := by
  unfold execScrubDone
  repeat' first
    | with_reducible assumption
    | with_reducible apply modPart_keeps
    | with_reducible apply setState_keeps
    | with_reducible apply scrubItem_keeps
    | with_reducible apply freePart_keeps
    | with_reducible apply ResKeeps.next
    | with_reducible apply ResKeeps.ite

end Sys2Proof.Machine
end

