-- ==== Sys2Proof/Laws/KeepsPartitions.lean ====
section
/-!
SUPPORT. `Keeps` for the operations of Partitions.
-/

namespace Sys2Proof.Machine

theorem formPart_keeps {s0 s : State} (h : Keeps s0 s) (p : Nat) : Keeps s0 (formPart s p) := by
  unfold formPart
  repeat' first
    | with_reducible assumption
    | with_reducible apply odSet_keeps
    | with_reducible apply setState_keeps
    | with_reducible apply resetMeas_keeps
    | with_reducible apply Keeps.ite
    | with_reducible exact Nat.le_refl _
    | with_reducible exact id
    | with_reducible exact fun _ x => x
    | (fail_if_no_progress (with_reducible apply Keeps.lit))

theorem disableQueues_keeps {s0 s : State} (h : Keeps s0 s) (p : Nat) : Keeps s0 (disableQueues s p) := by
  unfold disableQueues
  repeat' first
    | with_reducible assumption
    | with_reducible apply odSet_keeps
    | with_reducible apply modQueue_keeps
    | with_reducible apply Keeps.ite
    | with_reducible refine Keeps.foldl ?_ _ _ (fun t x ht => ?_)

theorem tearPart_keeps {s0 s : State} (h : Keeps s0 s) (p : Nat) : Keeps s0 (tearPart s p) := by
  unfold tearPart
  repeat' first
    | with_reducible assumption
    | with_reducible apply modPart_keeps
    | with_reducible apply odSet_keeps
    | with_reducible apply setState_keeps
    | with_reducible apply tearSessions_keeps
    | with_reducible apply abortAllParked_keeps
    | with_reducible apply disableQueues_keeps
    | with_reducible apply Keeps.ite

theorem replacePart_keeps {s0 s : State} (h : Keeps s0 s) (p : Nat) : Keeps s0 (replacePart s p) := by
  unfold replacePart
  repeat' first
    | with_reducible assumption
    | with_reducible apply modPart_keeps
    | with_reducible apply odSet_keeps
    | with_reducible apply Keeps.ite

theorem partCommand_keeps {s0 s : State} (h : Keeps s0 s) (p : Nat) (v : Nat) : Keeps s0 (partCommand s p v) := by
  unfold partCommand
  repeat' first
    | with_reducible assumption
    | with_reducible apply formPart_keeps
    | with_reducible apply tearPart_keeps
    | with_reducible apply replacePart_keeps
    | split

theorem writeQueueConfig_keeps {s0 s : State} (h : Keeps s0 s) (p : Nat) (q : Nat) (v : Nat) :
    Keeps s0 (writeQueueConfig s p q v) := by
  unfold writeQueueConfig
  repeat' first
    | with_reducible assumption
    | with_reducible apply odSet_keeps
    | with_reducible apply forTenant_keeps
    | with_reducible apply ringWrite_keeps
    | with_reducible apply modQueue_keeps
    | with_reducible apply Keeps.ite
    | intro _

end Sys2Proof.Machine
end

