-- ==== Sys2Proof/Laws/KeepsControls.lean ====
section
/-!
SUPPORT. `Keeps` for the operations of Controls.
-/

namespace Sys2Proof.Machine

theorem writeCclk_keeps {s0 s : State} (h : Keeps s0 s) (d : Nat) (v : Nat) : Keeps s0 (writeCclk s d v) := by
  unfold writeCclk
  repeat' first
    | with_reducible assumption
    | with_reducible apply odSet_keeps
    | with_reducible apply awaitHold_keeps
    | with_reducible refine Keeps.foldl ?_ _ _ (fun t x ht => ?_)
    | intro _

theorem refuseCut_keeps {s0 s : State} (h : Keeps s0 s) (c : Caller) (b : Nat) : Keeps s0 (refuseCut s c b) := by
  unfold refuseCut
  repeat' first
    | with_reducible assumption
    | with_reducible apply odInc_keeps
    | with_reducible apply recordOnly_keeps

theorem dieDown_keeps {s0 s : State} (h : Keeps s0 s) (d : Nat) : Keeps s0 (dieDown s d) := by
  unfold dieDown
  repeat' first
    | with_reducible assumption
    | with_reducible apply odSet_keeps
    | with_reducible exact Nat.le_refl _
    | with_reducible exact id
    | with_reducible exact fun _ x => x
    | dsimp only
    | split
    | (fail_if_no_progress (with_reducible apply Keeps.lit))

theorem loseGroup_keeps {s0 s : State} (h : Keeps s0 s) (g : Nat) : Keeps s0 (loseGroup s g) := by
  unfold loseGroup
  repeat' first
    | with_reducible assumption
    | with_reducible apply modGrp_keeps
    | with_reducible exact Nat.le_refl _
    | with_reducible exact id
    | with_reducible exact fun _ x => x
    | with_reducible exact Nat.le_succ _
    | dsimp only
    | (fail_if_no_progress (with_reducible apply Keeps.lit))

theorem dropMd_keeps {s0 s : State} (h : Keeps s0 s) (m : Nat) : Keeps s0 (dropMd s m) := by
  unfold dropMd
  repeat' first
    | with_reducible assumption
    | with_reducible apply modMd_keeps

theorem linkDown_keeps {s0 s : State} (h : Keeps s0 s) (n : Nat) : Keeps s0 (linkDown s n) := by
  unfold linkDown
  repeat' first
    | with_reducible assumption
    | with_reducible apply odSet_keeps
    | with_reducible apply Keeps.ite
    | with_reducible refine Keeps.foldl ?_ _ _ (fun t x ht => ?_)

theorem portsDown_keeps {s0 s : State} (h : Keeps s0 s) (d : Nat) : Keeps s0 (portsDown s d) := by
  unfold portsDown
  repeat' first
    | with_reducible assumption
    | with_reducible apply linkDown_keeps
    | with_reducible refine Keeps.foldl ?_ _ _ (fun t x ht => ?_)

theorem stopBlock_keeps {s0 s : State} (h : Keeps s0 s) (b : Nat) : Keeps s0 (stopBlock s b) := by
  unfold stopBlock
  repeat' first
    | with_reducible assumption
    | with_reducible apply stopEngine_keeps
    | with_reducible apply stopWriter_keeps
    | with_reducible apply Keeps.ite
    | with_reducible refine Keeps.foldl ?_ _ _ (fun t x ht => ?_)

theorem blockOff_keeps {s0 s : State} (h : Keeps s0 s) (b : Nat) : Keeps s0 (blockOff s b) := by
  unfold blockOff
  repeat' first
    | with_reducible assumption
    | with_reducible apply dieDown_keeps
    | with_reducible apply loseGroup_keeps
    | with_reducible apply dropMd_keeps
    | with_reducible apply portsDown_keeps
    | with_reducible apply stopBlock_keeps
    | with_reducible apply Keeps.ite
    | with_reducible refine Keeps.foldl ?_ _ _ (fun t x ht => ?_)

theorem blockOn_keeps {s0 s : State} (h : Keeps s0 s) (b : Nat) : Keeps s0 (blockOn s b) := by
  unfold blockOn
  repeat' first
    | with_reducible assumption
    | with_reducible apply modDie_keeps
    | with_reducible apply Keeps.ite

theorem writeCut_keeps {s0 s : State} (h : Keeps s0 s) (a : Nat) (v : Nat) : Keeps s0 (writeCut s a v) := by
  unfold writeCut
  repeat' first
    | with_reducible assumption
    | with_reducible apply odSet_keeps
    | with_reducible apply blockOff_keeps
    | with_reducible apply blockOn_keeps
    | with_reducible apply Keeps.ite
    | with_reducible refine Keeps.foldl ?_ _ _ (fun t x ht => ?_)

theorem startLoad_keeps {s0 s : State} (h : Keeps s0 s) (p : Nat) (v : Nat) : Keeps s0 (startLoad s p v) := by
  unfold startLoad
  repeat' first
    | with_reducible assumption
    | with_reducible apply modPart_keeps
    | with_reducible apply odSet_keeps
    | with_reducible apply makeKey_keeps
    | with_reducible apply Keeps.ite

theorem endLoad_keeps {s0 s : State} (h : Keeps s0 s) (p : Nat) : Keeps s0 (endLoad s p) := by
  unfold endLoad
  repeat' first
    | with_reducible assumption
    | with_reducible apply modPart_keeps
    | with_reducible apply odSet_keeps

theorem loadBytes_keeps {s0 s : State} (h : Keeps s0 s) (p : Nat) (l : Load) (data : List Byte) :
    Keeps s0 (loadBytes s p l data) := by
  unfold loadBytes
  repeat' first
    | with_reducible assumption
    | with_reducible apply modPart_keeps
    | with_reducible apply forTenant_keeps
    | with_reducible apply farRequest_keeps
    | with_reducible apply addMeas_keeps
    | with_reducible apply endLoad_keeps
    | with_reducible apply Keeps.ite
    | intro _

theorem askReset_keeps {s0 s : State} (h : Keeps s0 s) (p : Nat) : Keeps s0 (askReset s p) := by
  unfold askReset
  repeat' first
    | with_reducible assumption
    | with_reducible apply demand_keeps

theorem askSwap_keeps {s0 s : State} (h : Keeps s0 s) (v : Nat) : Keeps s0 (askSwap s v) := by
  unfold askSwap
  repeat' first
    | with_reducible assumption
    | with_reducible apply demand_keeps

theorem askRetire_keeps {s0 s : State} (h : Keeps s0 s) (g : Nat) : Keeps s0 (askRetire s g) := by
  unfold askRetire
  repeat' first
    | with_reducible assumption
    | with_reducible apply retireErr_keeps

theorem modAlm_keeps {s0 s : State} (h : Keeps s0 s) (f : Almanac → Almanac) : Keeps s0 (modAlm s f) := by
  unfold modAlm
  repeat' first
    | with_reducible assumption
    | with_reducible exact Nat.le_refl _
    | with_reducible exact id
    | with_reducible exact fun _ x => x
    | with_reducible exact svnOf_le_of_eq rfl
    | dsimp only
    | (fail_if_no_progress (with_reducible apply Keeps.lit))

theorem commitRec_keeps {s0 s : State} (h : Keeps s0 s) (r : AlmRec) : Keeps s0 (commitRec s r) := by
  unfold commitRec
  repeat' first
    | with_reducible assumption
    | with_reducible apply odInc_keeps
    | with_reducible apply odOr_keeps
    | with_reducible apply modAlm_keeps
    | with_reducible apply Keeps.ite

theorem takeSeq_keeps {s0 s : State} (h : Keeps s0 s) : Keeps s0 (takeSeq s) := by
  unfold takeSeq
  repeat' first
    | with_reducible assumption
    | with_reducible apply modAlm_keeps

theorem commitDrops_keeps {s0 s : State} (h : Keeps s0 s) : Keeps s0 (commitDrops s) := by
  unfold commitDrops
  repeat' first
    | with_reducible assumption
    | with_reducible apply modAlm_keeps
    | with_reducible apply commitRec_keeps
    | with_reducible apply takeSeq_keeps
    | with_reducible apply Keeps.ite

theorem commitStaged_keeps {s0 : State} (n : Nat) : ∀ {s : State}, Keeps s0 s → Keeps s0 (commitStaged n s) := by
  induction n with
  | zero => intro s h; exact h
  | succ n ih =>
    intro s h
    rw [commitStaged]
    split
    · exact h
    · exact ih (commitRec_keeps (modAlm_keeps (commitDrops_keeps h) _) _)

theorem startErase_keeps {s0 s : State} (h : Keeps s0 s) : Keeps s0 (startErase s) := by
  unfold startErase
  repeat' first
    | with_reducible assumption
    | with_reducible apply modAlm_keeps
    | with_reducible apply takeSeq_keeps
    | with_reducible apply commitStaged_keeps
    | with_reducible apply Keeps.ite

theorem setCursor_keeps {s0 s : State} (h : Keeps s0 s) (cls : Cls) (v : Nat) : Keeps s0 (setCursor s cls v) := by
  unfold setCursor
  repeat' first
    | with_reducible assumption
    | with_reducible exact Nat.le_refl _
    | with_reducible exact id
    | with_reducible exact fun _ x => x
    | dsimp only
    | (fail_if_no_progress (with_reducible apply Keeps.lit))

theorem almWindow_keeps {s0 s : State} (h : Keeps s0 s) (cls : Cls) : Keeps s0 (almWindow s cls).2 := by
  unfold almWindow
  repeat' first
    | with_reducible assumption
    | with_reducible apply odAdd_keeps
    | with_reducible apply setCursor_keeps
    | with_reducible apply Keeps.ite

theorem startRetrain_keeps {s0 s : State} (h : Keeps s0 s) (g : Nat) : Keeps s0 (startRetrain s g) := by
  unfold startRetrain
  repeat' first
    | with_reducible assumption
    | with_reducible apply modGrp_keeps
    | with_reducible apply odSet_keeps

theorem setDom_keeps {s0 s : State} (h : Keeps s0 s) (a : Nat) (bs : List Byte) : Keeps s0 (setDom s a bs) := by
  unfold setDom
  repeat' first
    | with_reducible assumption
    | with_reducible exact Nat.le_refl _
    | with_reducible exact id
    | with_reducible exact fun _ x => x
    | dsimp only
    | (fail_if_no_progress (with_reducible apply Keeps.lit))

theorem startMargin_keeps {s0 s : State} (h : Keeps s0 s) (v : Nat) : Keeps s0 (startMargin s v) := by
  unfold startMargin
  repeat' first
    | with_reducible assumption
    | with_reducible apply odSet_keeps
    | with_reducible apply setDom_keeps
    | with_reducible apply Keeps.ite
    | with_reducible exact Nat.le_refl _
    | with_reducible exact id
    | with_reducible exact fun _ x => x
    | dsimp only
    | (fail_if_no_progress (with_reducible apply Keeps.lit))

theorem switchPin_keeps {s0 s : State} (h : Keeps s0 s) (n : Nat) (fn : Nat) : Keeps s0 (switchPin s n fn) := by
  unfold switchPin
  repeat' first
    | with_reducible assumption
    | with_reducible apply modPin_keeps

theorem writePin_keeps {s0 s : State} (h : Keeps s0 s) (n : Nat) (fn : Nat) : Keeps s0 (writePin s n fn) := by
  unfold writePin
  repeat' first
    | with_reducible assumption
    | with_reducible apply modPin_keeps
    | with_reducible apply switchPin_keeps
    | with_reducible apply Keeps.ite

end Sys2Proof.Machine
end

