-- ==== Sys2Proof/Laws/KeepsEntries.lean ====
section
/-!
SUPPORT. `Keeps` for the operations of Entries.
-/

namespace Sys2Proof.Machine

theorem modMeas_keeps {s0 s : State} (h : Keeps s0 s) (p : Option Nat) (f : Measure → Measure) :
    Keeps s0 (modMeas s p f) := by
  unfold modMeas
  repeat' first
    | with_reducible assumption
    | with_reducible apply modPart_keeps
    | with_reducible exact Nat.le_refl _
    | with_reducible exact id
    | with_reducible exact fun _ x => x
    | dsimp only
    | split
    | (fail_if_no_progress (with_reducible apply Keeps.lit))

theorem domValue_keeps {s0 s : State} (h : Keeps s0 s) (cls : Cls) (a : Nat) (r : Row) :
    Keeps s0 (domValue s cls a r).2 := by
  unfold domValue
  repeat' first
    | with_reducible assumption
    | with_reducible apply almWindow_keeps
    | split

theorem odStore_keeps {s0 s : State} (h : Keeps s0 s) (a : Nat) (v : Nat) : Keeps s0 (odStore s a v) := by
  unfold odStore
  exact Keeps.lit (odSet_keeps h a v) (Nat.le_refl _) id id (Nat.le_refl _) (Nat.le_refl _) (fun _ x => x)
    (fun _ x => x) (Nat.le_refl _)

theorem activateFw_keeps {s0 s : State} (h : Keeps s0 s) (v : Nat) : Keeps s0 (activateFw s v) := by
  unfold activateFw
  split
  · exact Keeps.lit h (Nat.le_refl _) id id (Nat.le_refl _) (Nat.le_refl _) (fun _ x => x) (fun _ x => x) (Nat.le_refl _)
  · exact Keeps.lit h (Nat.le_refl _) id id (Nat.le_refl _) (Nat.le_refl _) (fun _ x => x) (fun _ x => x) (Nat.le_refl _)
  · dsimp only
    refine Keeps.lit h (Nat.le_refl _) id id (Nat.le_refl _) (Nat.le_refl _) (fun _ x => x) (fun _ x => x) ?_
    have hb (b : Bool) (x : FwSlots) : slotSvn x b x.active < 65536 := Nat.mod_lt _ (by decide)
    have hs : svnNow s < 65536 := Nat.mod_lt _ (by decide)
    show svnNow s ≤ max (svnNow s) _ % 65536
    rw [Nat.mod_eq_of_lt]
    · exact Nat.le_max_left _ _
    · exact Nat.max_lt.mpr ⟨hs, Nat.lt_of_le_of_lt (Nat.min_le_left _ _) (hb ..)⟩

theorem applyWrite_keeps {s0 s : State} (h : Keeps s0 s) (c : Caller) (a : Nat) (r : Row) (v : Nat) :
    Keeps s0 (applyWrite s c a r v) := by
  unfold applyWrite
  repeat' first
    | with_reducible assumption
    | with_reducible apply odSet_keeps
    | with_reducible apply partCommand_keeps
    | with_reducible apply writeQueueConfig_keeps
    | with_reducible apply writeCclk_keeps
    | with_reducible apply writeCut_keeps
    | with_reducible apply startLoad_keeps
    | with_reducible apply askReset_keeps
    | with_reducible apply askSwap_keeps
    | with_reducible apply askRetire_keeps
    | with_reducible apply startErase_keeps
    | with_reducible apply setCursor_keeps
    | with_reducible apply startRetrain_keeps
    | with_reducible apply startMargin_keeps
    | with_reducible apply writePin_keeps
    | with_reducible apply odStore_keeps
    | with_reducible apply activateFw_keeps
    | with_reducible apply Keeps.ite
    | with_reducible exact Nat.le_refl _
    | with_reducible exact id
    | with_reducible exact fun _ x => x
    | with_reducible exact svnOf_le_of_eq rfl
    | dsimp only
    | split
    | (fail_if_no_progress (with_reducible apply Keeps.lit))

theorem applyDom_keeps {s0 s : State} (h : Keeps s0 s) (c : Caller) (a : Nat) (r : Row) (bs : List Byte) :
    Keeps s0 (applyDom s c a r bs) := by
  unfold applyDom
  repeat' first
    | with_reducible assumption
    | with_reducible apply setDom_keeps
    | with_reducible apply modMeas_keeps
    | split

end Sys2Proof.Machine
end

