-- ==== Sys2Proof/Laws/KeepsServer.lean ====
section
/-!
SUPPORT. `Keeps` for the operations of Server.
-/

namespace Sys2Proof.Machine

theorem modServer_keeps {s0 s : State} (h : Keeps s0 s) (f : Server → Server) : Keeps s0 (modServer s f) := by
  unfold modServer
  repeat' first
    | with_reducible assumption
    | with_reducible exact Nat.le_refl _
    | with_reducible exact id
    | with_reducible exact fun _ x => x
    | (fail_if_no_progress (with_reducible apply Keeps.lit))

theorem readEntry_keeps {s0 s : State} (h : Keeps s0 s) (c : Caller) (f : List Byte) :
    Keeps s0 (readEntry s c f).1 := by
  unfold readEntry
  repeat' first
    | with_reducible assumption
    | with_reducible apply odSet_keeps
    | with_reducible apply fresh_keeps
    | with_reducible apply domValue_keeps
    | with_reducible apply modServer_keeps
    | with_reducible apply Keeps.ite
    | with_reducible apply Keeps.iteFst
    | dsimp only
    | split

theorem readSeg_keeps {s0 s : State} (h : Keeps s0 s) (c : Caller) (f : List Byte) : Keeps s0 (readSeg s c f).1 := by
  unfold readSeg
  repeat' first
    | with_reducible assumption
    | with_reducible apply modServer_keeps
    | with_reducible apply Keeps.iteFst
    | dsimp only
    | split

theorem abortTransfer_keeps {s0 s : State} (h : Keeps s0 s) (c : Caller) (f : List Byte) :
    Keeps s0 (abortTransfer s c f).1 := by
  unfold abortTransfer
  repeat' first
    | with_reducible assumption
    | with_reducible apply modServer_keeps

theorem setSlots_keeps {s0 s : State} (h : Keeps s0 s) (oc : Bool) (x : FwSlots) : Keeps s0 (setSlots s oc x) := by
  unfold setSlots
  repeat' first
    | with_reducible assumption
    | with_reducible apply Keeps.ite
    | with_reducible exact Nat.le_refl _
    | with_reducible exact id
    | with_reducible exact fun _ x => x
    | with_reducible exact svnOf_le_of_eq rfl
    | dsimp only
    | (fail_if_no_progress (with_reducible apply Keeps.lit))

theorem programSlot_keeps {s0 s : State} (h : Keeps s0 s) (i : FwImage) : Keeps s0 (programSlot s i) := by
  unfold programSlot
  repeat' first
    | with_reducible assumption
    | with_reducible apply setSlots_keeps

theorem endImage_keeps {s0 s : State} (h : Keeps s0 s) (i : FwImage) : Keeps s0 (endImage s i).1 := by
  unfold endImage
  repeat' first
    | with_reducible assumption
    | with_reducible apply setSlots_keeps
    | with_reducible apply Keeps.iteFst

theorem endToken_keeps {s0 s : State} (h : Keeps s0 s) (c : Caller) (bs : List Byte) (sigOk : Bool) :
    Keeps s0 (endToken s c bs sigOk).1 := by
  unfold endToken
  repeat' first
    | with_reducible assumption
    | with_reducible apply odInc_keeps
    | with_reducible apply recordOnly_keeps
    | with_reducible apply Keeps.iteFst
    | with_reducible exact Nat.le_refl _
    | with_reducible exact id
    | with_reducible exact fun _ x => x
    | with_reducible exact svnOf_le_of_eq rfl
    | dsimp only
    | (fail_if_no_progress (with_reducible apply Keeps.lit))

theorem endDom_keeps {s0 s : State} (h : Keeps s0 s) (c : Caller) (a : Nat) (r : Row) (bs : List Byte) (v : Verdict) :
    Keeps s0 (endDom s c a r bs v).1 := by
  unfold endDom
  repeat' first
    | with_reducible assumption
    | with_reducible apply applyDom_keeps
    | with_reducible apply endImage_keeps
    | with_reducible apply endToken_keeps
    | with_reducible apply Keeps.iteFst
    | split

theorem writeSegment_keeps {s0 s : State} (h : Keeps s0 s) (c : Caller) (f : List Byte) (r : Row) (v : Verdict) :
    Keeps s0 (writeSegment s c f r v).1 := by
  unfold writeSegment
  repeat' first
    | with_reducible assumption
    | with_reducible apply modServer_keeps
    | with_reducible apply programSlot_keeps
    | with_reducible apply endDom_keeps
    | with_reducible apply Keeps.ite
    | with_reducible apply Keeps.iteFst
    | dsimp only
    | split

theorem writeValue_keeps {s0 s : State} (h : Keeps s0 s) (c : Caller) (f : List Byte) (r : Row) :
    Keeps s0 (writeValue s c f r).1 := by
  unfold writeValue
  repeat' first
    | with_reducible assumption
    | with_reducible apply odSet_keeps
    | with_reducible apply applyWrite_keeps
    | with_reducible apply modServer_keeps
    | with_reducible apply Keeps.iteFst

theorem answer_keeps {s0 s : State} (h : Keeps s0 s) (c : Caller) (f : List Byte) (v : Verdict) :
    Keeps s0 (answer s c f v).1 := by
  unfold answer
  repeat' first
    | with_reducible assumption
    | with_reducible apply refuseCut_keeps
    | with_reducible apply readEntry_keeps
    | with_reducible apply readSeg_keeps
    | with_reducible apply abortTransfer_keeps
    | with_reducible apply writeSegment_keeps
    | with_reducible apply writeValue_keeps
    | with_reducible apply Keeps.iteFst
    | split

theorem countResponse_keeps {s0 s : State} (h : Keeps s0 s) (code : Option Nat) :
    Keeps s0 (countResponse s code) := by
  unfold countResponse
  repeat' first
    | with_reducible assumption
    | with_reducible apply odInc_keeps
    | with_reducible apply Keeps.ite

theorem modPage_keeps {s0 s : State} (h : Keeps s0 s) (n : Nat) (f : Page → Page) : Keeps s0 (modPage s n f) := by
  unfold modPage
  repeat' first
    | with_reducible assumption
    | with_reducible apply modServer_keeps

theorem keepResponse_keeps {s0 s : State} (h : Keeps s0 s) (c : Caller) (f : List Byte) (r : List Byte) :
    Keeps s0 (keepResponse s c f r) := by
  unfold keepResponse
  repeat' first
    | with_reducible assumption
    | with_reducible apply modServer_keeps

theorem sendResponse_keeps {s0 s : State} (h : Keeps s0 s) (c : Caller) (f : List Byte) (r : List Byte) (mtag : Nat) :
    Keeps s0 (sendResponse s c f r mtag) := by
  unfold sendResponse
  repeat' first
    | with_reducible assumption
    | with_reducible apply emit_keeps
    | with_reducible apply modPage_keeps
    | with_reducible apply Keeps.ite
    | dsimp only
    | split

theorem settle_keeps {s0 s : State} (h : Keeps s0 s) (c : Caller) (f : List Byte) : Keeps s0 (settle s c f) := by
  unfold settle
  repeat' first
    | with_reducible assumption
    | with_reducible apply modServer_keeps

theorem respond_keeps {s0 s : State} (h : Keeps s0 s) (c : Caller) (f : List Byte) (x : Answer) (keep : Bool) :
    Keeps s0 (respond s c f x keep) := by
  unfold respond
  repeat' first
    | with_reducible assumption
    | with_reducible apply countResponse_keeps
    | with_reducible apply keepResponse_keeps
    | with_reducible apply sendResponse_keeps
    | with_reducible apply settle_keeps
    | with_reducible apply Keeps.ite
    | dsimp only
    | split

theorem performWith_keeps {s0 s : State} (h : Keeps s0 s) (c : Caller) (f : List Byte) (v : Verdict) :
    Keeps s0 (performWith s c f v) := by
  unfold performWith
  repeat' first
    | with_reducible assumption
    | with_reducible apply answer_keeps
    | with_reducible apply respond_keeps
    | with_reducible apply Keeps.ite

theorem perform_keeps {s0 s : State} (h : Keeps s0 s) (c : Caller) (f : List Byte) : Keeps s0 (perform s c f) := by
  unfold perform
  repeat' first
    | with_reducible assumption
    | with_reducible apply performWith_keeps
    | with_reducible apply Keeps.ite
    | with_reducible exact Nat.le_refl _
    | with_reducible exact id
    | with_reducible exact fun _ x => x
    | with_reducible exact Nat.le_add_right _ _
    | (fail_if_no_progress (with_reducible apply Keeps.lit))

theorem execRead_keeps {s0 s : State} (h : Keeps s0 s) (c : Caller) (frame : List Byte) :
    ResKeeps s0 (execRead c frame s) := by
  unfold execRead
  repeat' first
    | with_reducible assumption
    | with_reducible apply perform_keeps
    | with_reducible apply ResKeeps.next
    | with_reducible apply ResKeeps.ite

theorem execReadSegment_keeps {s0 s : State} (h : Keeps s0 s) (c : Caller) (frame : List Byte) :
    ResKeeps s0 (execReadSegment c frame s) := by
  unfold execReadSegment
  repeat' first
    | with_reducible assumption
    | with_reducible apply perform_keeps
    | with_reducible apply ResKeeps.next
    | with_reducible apply ResKeeps.ite

theorem execAbort_keeps {s0 s : State} (h : Keeps s0 s) (c : Caller) (frame : List Byte) :
    ResKeeps s0 (execAbort c frame s) := by
  unfold execAbort
  repeat' first
    | with_reducible assumption
    | with_reducible apply perform_keeps
    | with_reducible apply ResKeeps.next
    | with_reducible apply ResKeeps.ite

theorem execDomWriteSegment_keeps {s0 s : State} (h : Keeps s0 s) (c : Caller) (frame : List Byte) :
    ResKeeps s0 (execDomWriteSegment c frame s) := by
  unfold execDomWriteSegment
  repeat' first
    | with_reducible assumption
    | with_reducible apply perform_keeps
    | with_reducible apply ResKeeps.next
    | with_reducible apply ResKeeps.ite

theorem execRegisterWrite_keeps {s0 s : State} (h : Keeps s0 s) (c : Caller) (frame : List Byte) :
    ResKeeps s0 (execRegisterWrite c frame s) := by
  unfold execRegisterWrite
  repeat' first
    | with_reducible assumption
    | with_reducible apply perform_keeps
    | with_reducible apply ResKeeps.next
    | with_reducible apply ResKeeps.ite

theorem execStoreCommit_keeps {s0 s : State} (h : Keeps s0 s) (ok : Bool) : ResKeeps s0 (execStoreCommit ok s) := by
  unfold execStoreCommit
  repeat' first
    | with_reducible assumption
    | with_reducible apply recordOnly_keeps
    | with_reducible apply applyWrite_keeps
    | with_reducible apply modServer_keeps
    | with_reducible apply respond_keeps
    | with_reducible apply ResKeeps.next
    | with_reducible apply ResKeeps.ite
    | dsimp only
    | split

theorem execSnapshotExpiry_keeps {s0 s : State} (h : Keeps s0 s) (c : Caller) (index : Nat) (sub : Nat) (tag : Nat) :
    ResKeeps s0 (execSnapshotExpiry c index sub tag s) := by
  unfold execSnapshotExpiry
  repeat' first
    | with_reducible assumption
    | with_reducible apply modServer_keeps
    | with_reducible apply ResKeeps.next

theorem execWriteTransferExpiry_keeps {s0 s : State} (h : Keeps s0 s) (c : Caller) (index : Nat) (sub : Nat) (tag : Nat) :
    ResKeeps s0 (execWriteTransferExpiry c index sub tag s) := by
  unfold execWriteTransferExpiry
  repeat' first
    | with_reducible assumption
    | with_reducible apply modServer_keeps
    | with_reducible apply ResKeeps.next

theorem submit_keeps {s0 s : State} (h : Keeps s0 s) (c : Caller) (f : List Byte) (mtag : Nat) :
    Keeps s0 (submit s c f mtag) := by
  unfold submit
  repeat' first
    | with_reducible assumption
    | with_reducible apply modServer_keeps

theorem answerBusy_keeps {s0 s : State} (h : Keeps s0 s) (c : Caller) (f : List Byte) (mtag : Nat) :
    Keeps s0 (answerBusy s c f mtag) := by
  unfold answerBusy
  repeat' first
    | with_reducible assumption
    | with_reducible apply respond_keeps
    | with_reducible apply submit_keeps

theorem execMailboxDoorbell_keeps {s0 s : State} (h : Keeps s0 s) (page : Nat) (frame : List Byte) (vector : Nat) :
    ResKeeps s0 (execMailboxDoorbell page frame vector s) := by
  unfold execMailboxDoorbell
  repeat' first
    | with_reducible assumption
    | with_reducible apply modPage_keeps
    | with_reducible apply submit_keeps
    | with_reducible apply answerBusy_keeps
    | with_reducible apply ResKeeps.next
    | with_reducible apply ResKeeps.ite

theorem execMctpMessage_keeps {s0 s : State} (h : Keeps s0 s) (m : Mctp) : ResKeeps s0 (execMctpMessage m s) := by
  unfold execMctpMessage
  repeat' first
    | with_reducible assumption
    | with_reducible apply odInc_keeps
    | with_reducible apply submit_keeps
    | with_reducible apply answerBusy_keeps
    | with_reducible apply ResKeeps.next
    | with_reducible apply ResKeeps.ite

theorem execMgmtDatagram_keeps {s0 s : State} (h : Keeps s0 s) (d : Datagram) :
    ResKeeps s0 (execMgmtDatagram d s) := by
  unfold execMgmtDatagram
  repeat' first
    | with_reducible assumption
    | with_reducible apply odInc_keeps
    | with_reducible apply emit_keeps
    | with_reducible apply countResponse_keeps
    | with_reducible apply submit_keeps
    | with_reducible apply answerBusy_keeps
    | with_reducible apply ResKeeps.next
    | with_reducible apply ResKeeps.ite
    | dsimp only
    | split

theorem execKeptResponseExpiry_keeps {s0 s : State} (h : Keeps s0 s) (addr : Nat) (port : Nat) (tag : Nat) :
    ResKeeps s0 (execKeptResponseExpiry addr port tag s) := by
  unfold execKeptResponseExpiry
  repeat' first
    | with_reducible assumption
    | with_reducible apply modServer_keeps
    | with_reducible apply ResKeeps.next

theorem execMgmtArpIcmp_keeps {s0 s : State} (h : Keeps s0 s) (arp : Bool) (target : Nat) :
    ResKeeps s0 (execMgmtArpIcmp arp target s) := by
  unfold execMgmtArpIcmp
  repeat' first
    | with_reducible assumption
    | with_reducible apply emit_keeps
    | with_reducible apply ResKeeps.next
    | with_reducible apply ResKeeps.ite

theorem execEidAssignment_keeps {s0 s : State} (h : Keeps s0 s) (binding : Nat) (sc : Bool) (eid : Nat) :
    ResKeeps s0 (execEidAssignment binding sc eid s) := by
  unfold execEidAssignment
  repeat' first
    | with_reducible assumption
    | with_reducible apply modServer_keeps
    | with_reducible apply ResKeeps.next

theorem execCclkWrite_keeps {s0 s : State} (h : Keeps s0 s) (c : Caller) (tag : Nat) (die : Nat) (mhz : Nat) :
    ResKeeps s0 (execCclkWrite c tag die mhz s) := by
  unfold execCclkWrite
  repeat' first
    | with_reducible assumption
    | with_reducible apply perform_keeps
    | with_reducible apply ResKeeps.next

theorem execForm_keeps {s0 s : State} (h : Keeps s0 s) (c : Caller) (tag : Nat) (p : Nat) :
    ResKeeps s0 (execForm c tag p s) := by
  unfold execForm
  repeat' first
    | with_reducible assumption
    | with_reducible apply perform_keeps
    | with_reducible apply ResKeeps.next

theorem execTeardown_keeps {s0 s : State} (h : Keeps s0 s) (c : Caller) (tag : Nat) (p : Nat) :
    ResKeeps s0 (execTeardown c tag p s) := by
  unfold execTeardown
  repeat' first
    | with_reducible assumption
    | with_reducible apply perform_keeps
    | with_reducible apply ResKeeps.next

theorem execReplaceDie_keeps {s0 s : State} (h : Keeps s0 s) (c : Caller) (tag : Nat) (p : Nat) :
    ResKeeps s0 (execReplaceDie c tag p s) := by
  unfold execReplaceDie
  repeat' first
    | with_reducible assumption
    | with_reducible apply perform_keeps
    | with_reducible apply ResKeeps.next

theorem execQueueEnable_keeps {s0 s : State} (h : Keeps s0 s) (c : Caller) (tag : Nat) (p : Nat) (q : Nat) (cfg : Nat) :
    ResKeeps s0 (execQueueEnable c tag p q cfg s) := by
  unfold execQueueEnable
  repeat' first
    | with_reducible assumption
    | with_reducible apply perform_keeps
    | with_reducible apply ResKeeps.next

theorem execBlockClockStop_keeps {s0 s : State} (h : Keeps s0 s) (c : Caller) (tag : Nat) (value : Nat) :
    ResKeeps s0 (execBlockClockStop c tag value s) := by
  unfold execBlockClockStop
  repeat' first
    | with_reducible assumption
    | with_reducible apply perform_keeps
    | with_reducible apply ResKeeps.next

theorem execBlockPowerOff_keeps {s0 s : State} (h : Keeps s0 s) (c : Caller) (tag : Nat) (value : Nat) :
    ResKeeps s0 (execBlockPowerOff c tag value s) := by
  unfold execBlockPowerOff
  repeat' first
    | with_reducible assumption
    | with_reducible apply perform_keeps
    | with_reducible apply ResKeeps.next

theorem execSecBlockOwnerWrite_keeps {s0 s : State} (h : Keeps s0 s) (c : Caller) (tag : Nat) (value : Nat) :
    ResKeeps s0 (execSecBlockOwnerWrite c tag value s) := by
  unfold execSecBlockOwnerWrite
  repeat' first
    | with_reducible assumption
    | with_reducible apply perform_keeps
    | with_reducible apply ResKeeps.next

theorem execLoadTargetWrite_keeps {s0 s : State} (h : Keeps s0 s) (c : Caller) (tag : Nat) (p : Nat) (value : Nat) :
    ResKeeps s0 (execLoadTargetWrite c tag p value s) := by
  unfold execLoadTargetWrite
  repeat' first
    | with_reducible assumption
    | with_reducible apply perform_keeps
    | with_reducible apply ResKeeps.next

theorem execAttestNonce_keeps {s0 s : State} (h : Keeps s0 s) (c : Caller) (tag : Nat) (p : Option Nat) (nonce : List Byte) :
    ResKeeps s0 (execAttestNonce c tag p nonce s) := by
  unfold execAttestNonce
  repeat' first
    | with_reducible assumption
    | with_reducible apply perform_keeps
    | with_reducible apply ResKeeps.next

theorem execFwImageWrite_keeps {s0 s : State} (h : Keeps s0 s) (c : Caller) (frame : List Byte) (img : FwImage) :
    ResKeeps s0 (execFwImageWrite c frame img s) := by
  unfold execFwImageWrite
  repeat' first
    | with_reducible assumption
    | with_reducible apply performWith_keeps
    | with_reducible apply ResKeeps.next
    | with_reducible apply ResKeeps.ite

theorem execFwActivateOc_keeps {s0 s : State} (h : Keeps s0 s) (c : Caller) (tag : Nat) :
    ResKeeps s0 (execFwActivateOc c tag s) := by
  unfold execFwActivateOc
  repeat' first
    | with_reducible assumption
    | with_reducible apply perform_keeps
    | with_reducible apply ResKeeps.next

theorem execFwActivateAtReset_keeps {s0 s : State} (h : Keeps s0 s) (c : Caller) (tag : Nat) :
    ResKeeps s0 (execFwActivateAtReset c tag s) := by
  unfold execFwActivateAtReset
  repeat' first
    | with_reducible assumption
    | with_reducible apply perform_keeps
    | with_reducible apply ResKeeps.next

theorem execFwRaiseSvn_keeps {s0 s : State} (h : Keeps s0 s) (c : Caller) (tag : Nat) :
    ResKeeps s0 (execFwRaiseSvn c tag s) := by
  unfold execFwRaiseSvn
  repeat' first
    | with_reducible assumption
    | with_reducible apply perform_keeps
    | with_reducible apply ResKeeps.next

theorem execDebugToken_keeps {s0 s : State} (h : Keeps s0 s) (c : Caller) (tag : Nat) (token : List Byte) (sigOk : Bool) :
    ResKeeps s0 (execDebugToken c tag token sigOk s) := by
  unfold execDebugToken
  repeat' first
    | with_reducible assumption
    | with_reducible apply performWith_keeps
    | with_reducible apply ResKeeps.next

theorem execAnemSelectWrite_keeps {s0 s : State} (h : Keeps s0 s) (c : Caller) (tag : Nat) (k : Nat) (value : Nat) :
    ResKeeps s0 (execAnemSelectWrite c tag k value s) := by
  unfold execAnemSelectWrite
  repeat' first
    | with_reducible assumption
    | with_reducible apply perform_keeps
    | with_reducible apply ResKeeps.next

theorem execCommRestoreDefaults_keeps {s0 s : State} (h : Keeps s0 s) (c : Caller) (tag : Nat) (value : Nat) :
    ResKeeps s0 (execCommRestoreDefaults c tag value s) := by
  unfold execCommRestoreDefaults
  repeat' first
    | with_reducible assumption
    | with_reducible apply perform_keeps
    | with_reducible apply ResKeeps.next

theorem execErrPartReset_keeps {s0 s : State} (h : Keeps s0 s) (c : Caller) (tag : Nat) (value : Nat) :
    ResKeeps s0 (execErrPartReset c tag value s) := by
  unfold execErrPartReset
  repeat' first
    | with_reducible assumption
    | with_reducible apply perform_keeps
    | with_reducible apply ResKeeps.next

theorem execErrSpareSwap_keeps {s0 s : State} (h : Keeps s0 s) (c : Caller) (tag : Nat) (value : Nat) :
    ResKeeps s0 (execErrSpareSwap c tag value s) := by
  unfold execErrSpareSwap
  repeat' first
    | with_reducible assumption
    | with_reducible apply perform_keeps
    | with_reducible apply ResKeeps.next

theorem execErrGroupRetire_keeps {s0 s : State} (h : Keeps s0 s) (c : Caller) (tag : Nat) (value : Nat) :
    ResKeeps s0 (execErrGroupRetire c tag value s) := by
  unfold execErrGroupRetire
  repeat' first
    | with_reducible assumption
    | with_reducible apply perform_keeps
    | with_reducible apply ResKeeps.next

theorem execAlmanacWindowRead_keeps {s0 s : State} (h : Keeps s0 s) (c : Caller) (tag : Nat) :
    ResKeeps s0 (execAlmanacWindowRead c tag s) := by
  unfold execAlmanacWindowRead
  repeat' first
    | with_reducible assumption
    | with_reducible apply perform_keeps
    | with_reducible apply ResKeeps.next

theorem execAlmClear_keeps {s0 s : State} (h : Keeps s0 s) (c : Caller) (tag : Nat) (value : Nat) :
    ResKeeps s0 (execAlmClear c tag value s) := by
  unfold execAlmClear
  repeat' first
    | with_reducible assumption
    | with_reducible apply perform_keeps
    | with_reducible apply ResKeeps.next

theorem execMemGroupRetrain_keeps {s0 s : State} (h : Keeps s0 s) (c : Caller) (tag : Nat) (value : Nat) :
    ResKeeps s0 (execMemGroupRetrain c tag value s) := by
  unfold execMemGroupRetrain
  repeat' first
    | with_reducible assumption
    | with_reducible apply perform_keeps
    | with_reducible apply ResKeeps.next

theorem execMarginEdges_keeps {s0 s : State} (h : Keeps s0 s) (c : Caller) (tag : Nat) (inst : Nat) :
    ResKeeps s0 (execMarginEdges c tag inst s) := by
  unfold execMarginEdges
  repeat' first
    | with_reducible assumption
    | with_reducible apply perform_keeps
    | with_reducible apply ResKeeps.next

theorem execMarginMap_keeps {s0 s : State} (h : Keeps s0 s) (c : Caller) (tag : Nat) (inst : Nat) :
    ResKeeps s0 (execMarginMap c tag inst s) := by
  unfold execMarginMap
  repeat' first
    | with_reducible assumption
    | with_reducible apply perform_keeps
    | with_reducible apply ResKeeps.next

theorem execMarginPcieLane_keeps {s0 s : State} (h : Keeps s0 s) (c : Caller) (tag : Nat) (inst : Nat) :
    ResKeeps s0 (execMarginPcieLane c tag inst s) := by
  unfold execMarginPcieLane
  repeat' first
    | with_reducible assumption
    | with_reducible apply perform_keeps
    | with_reducible apply ResKeeps.next

theorem execPinFunctionWrite_keeps {s0 s : State} (h : Keeps s0 s) (c : Caller) (tag : Nat) (pin : Nat) (fn : Nat) :
    ResKeeps s0 (execPinFunctionWrite c tag pin fn s) := by
  unfold execPinFunctionWrite
  repeat' first
    | with_reducible assumption
    | with_reducible apply perform_keeps
    | with_reducible apply ResKeeps.next

end Sys2Proof.Machine
end

