-- ==== Sys2Proof/Laws/KeepsSecurity.lean ====
section
/-!
SUPPORT. `Keeps` for the operations of Security.
-/

namespace Sys2Proof.Machine

theorem execEntropyHealthFail_keeps {s0 s : State} (h : Keeps s0 s) : ResKeeps s0 (execEntropyHealthFail s) := by
  unfold execEntropyHealthFail
  repeat' first
    | with_reducible assumption
    | with_reducible apply odSet_keeps
    | with_reducible apply recordOnly_keeps
    | with_reducible apply ResKeeps.next

theorem execDrbgReseed_keeps {s0 s : State} (h : Keeps s0 s) : ResKeeps s0 (execDrbgReseed s) := by
  unfold execDrbgReseed
  repeat' first
    | with_reducible assumption
    | with_reducible apply ResKeeps.next
    | with_reducible apply ResKeeps.ite
    | with_reducible exact Nat.le_refl _
    | with_reducible exact id
    | with_reducible exact fun _ x => x
    | dsimp only
    | (fail_if_no_progress (with_reducible apply Keeps.lit))

theorem execLoadWrite_keeps {s0 s : State} (h : Keeps s0 s) (p : Nat) (offset : Nat) (data : List Byte) :
    ResKeeps s0 (execLoadWrite p offset data s) := by
  unfold execLoadWrite
  repeat' first
    | with_reducible assumption
    | with_reducible apply odOr_keeps
    | with_reducible apply endLoad_keeps
    | with_reducible apply loadBytes_keeps
    | with_reducible apply ResKeeps.next
    | with_reducible apply ResKeeps.ite
    | split

theorem answerWaiting_keeps {s0 s : State} (h : Keeps s0 s) (cls : Cls) (p : Option Nat) :
    Keeps s0 (answerWaiting s cls p) := by
  unfold answerWaiting
  repeat' first
    | with_reducible assumption
    | with_reducible apply modServer_keeps
    | with_reducible apply performWith_keeps
    | with_reducible refine Keeps.foldl ?_ _ _ (fun t x ht => ?_)

theorem execAttestReportSigned_keeps {s0 s : State} (h : Keeps s0 s) (cls : Cls) (p : Option Nat) :
    ResKeeps s0 (execAttestReportSigned cls p s) := by
  unfold execAttestReportSigned
  repeat' first
    | with_reducible assumption
    | with_reducible apply modMeas_keeps
    | with_reducible apply answerWaiting_keeps
    | with_reducible apply ResKeeps.next
    | with_reducible apply ResKeeps.ite
    | dsimp only
    | split

theorem spdmReply_keeps {s0 s : State} (h : Keeps s0 s) (code : Nat) (body : List Byte) :
    Keeps s0 (spdmReply s code body) := by
  unfold spdmReply
  repeat' first
    | with_reducible assumption
    | with_reducible apply emit_keeps
    | with_reducible apply Keeps.ite

theorem spdmError_keeps {s0 s : State} (h : Keeps s0 s) (code : Nat) : Keeps s0 (spdmError s code) := by
  unfold spdmError
  repeat' first
    | with_reducible assumption
    | with_reducible apply spdmReply_keeps

theorem execGetVersion_keeps {s0 s : State} (h : Keeps s0 s) : ResKeeps s0 (execGetVersion s) := by
  unfold execGetVersion
  repeat' first
    | with_reducible assumption
    | with_reducible apply spdmReply_keeps
    | with_reducible apply ResKeeps.next

theorem execGetCapabilities_keeps {s0 s : State} (h : Keeps s0 s) : ResKeeps s0 (execGetCapabilities s) := by
  unfold execGetCapabilities
  repeat' first
    | with_reducible assumption
    | with_reducible apply fresh_keeps
    | with_reducible apply spdmReply_keeps
    | with_reducible apply ResKeeps.next

theorem execNegotiateAlgorithms_keeps {s0 s : State} (h : Keeps s0 s) : ResKeeps s0 (execNegotiateAlgorithms s) := by
  unfold execNegotiateAlgorithms
  repeat' first
    | with_reducible assumption
    | with_reducible apply spdmReply_keeps
    | with_reducible apply ResKeeps.next

theorem execGetDigests_keeps {s0 s : State} (h : Keeps s0 s) : ResKeeps s0 (execGetDigests s) := by
  unfold execGetDigests
  repeat' first
    | with_reducible assumption
    | with_reducible apply spdmReply_keeps
    | with_reducible apply ResKeeps.next

theorem execGetCertificate_keeps {s0 s : State} (h : Keeps s0 s) (slot : Nat) (offset : Nat) (len : Nat) :
    ResKeeps s0 (execGetCertificate slot offset len s) := by
  unfold execGetCertificate
  repeat' first
    | with_reducible assumption
    | with_reducible apply spdmReply_keeps
    | with_reducible apply spdmError_keeps
    | with_reducible apply ResKeeps.next
    | with_reducible apply ResKeeps.ite

theorem execGetMeasurements_keeps {s0 s : State} (h : Keeps s0 s) (index : Nat) (signIt : Bool) :
    ResKeeps s0 (execGetMeasurements index signIt s) := by
  unfold execGetMeasurements
  repeat' first
    | with_reducible assumption
    | with_reducible apply fresh_keeps
    | with_reducible apply spdmReply_keeps
    | with_reducible apply spdmError_keeps
    | with_reducible apply ResKeeps.next
    | dsimp only
    | split

theorem execSpdmUnsupported_keeps {s0 s : State} (h : Keeps s0 s) (code : Nat) :
    ResKeeps s0 (execSpdmUnsupported code s) := by
  unfold execSpdmUnsupported
  repeat' first
    | with_reducible assumption
    | with_reducible apply spdmError_keeps
    | with_reducible apply ResKeeps.next
    | with_reducible apply ResKeeps.ite

theorem endTransfers_keeps {s0 s : State} (h : Keeps s0 s) : Keeps s0 (endTransfers s) := by
  unfold endTransfers
  repeat' first
    | with_reducible assumption
    | with_reducible apply modServer_keeps

theorem execOcActivation_keeps {s0 s : State} (h : Keeps s0 s) : ResKeeps s0 (execOcActivation s) := by
  unfold execOcActivation
  repeat' first
    | with_reducible assumption
    | with_reducible apply setSlots_keeps
    | with_reducible apply endTransfers_keeps
    | with_reducible apply ResKeeps.next
    | with_reducible apply ResKeeps.ite
    | with_reducible exact Nat.le_refl _
    | with_reducible exact id
    | with_reducible exact fun _ x => x
    | dsimp only
    | (fail_if_no_progress (with_reducible apply Keeps.lit))

theorem execOcRestartTimeout_keeps {s0 s : State} (h : Keeps s0 s) : ResKeeps s0 (execOcRestartTimeout s) := by
  unfold execOcRestartTimeout
  repeat' first
    | with_reducible assumption
    | with_reducible apply setSlots_keeps
    | with_reducible apply ResKeeps.next
    | with_reducible apply ResKeeps.ite

end Sys2Proof.Machine
end

