-- ==== Sys2Proof/Laws/KeepsRecovery.lean ====
section
/-!
SUPPORT. `Keeps` for the operations of Recovery.
-/

namespace Sys2Proof.Machine

theorem modRunning_keeps {s0 s : State} (h : Keeps s0 s) (f : Action → Action) : Keeps s0 (modRunning s f) := by
  unfold modRunning
  repeat' first
    | with_reducible assumption
    | with_reducible exact Nat.le_refl _
    | with_reducible exact id
    | with_reducible exact fun _ x => x
    | dsimp only
    | (fail_if_no_progress (with_reducible apply Keeps.lit))

theorem donePerforming_keeps {s0 s : State} (h : Keeps s0 s) : Keeps s0 (donePerforming s) := by
  unfold donePerforming
  repeat' first
    | with_reducible assumption
    | with_reducible apply modRunning_keeps

theorem startNext_keeps {s0 s : State} (h : Keeps s0 s) : Keeps s0 (startNext s) := by
  unfold startNext
  repeat' first
    | with_reducible assumption
    | with_reducible apply showRecovery_keeps
    | with_reducible apply startAction_keeps
    | with_reducible exact Nat.le_refl _
    | with_reducible exact id
    | with_reducible exact fun _ x => x
    | dsimp only
    | split
    | (fail_if_no_progress (with_reducible apply Keeps.lit))

theorem finishAction_keeps {s0 s : State} (h : Keeps s0 s) (a : Action) : Keeps s0 (finishAction s a) := by
  unfold finishAction
  repeat' first
    | with_reducible assumption
    | with_reducible apply setState_keeps
    | with_reducible apply actionRec_keeps
    | with_reducible apply startNext_keeps
    | with_reducible refine Keeps.foldl ?_ _ _ (fun t x ht => ?_)
    | with_reducible exact Nat.le_refl _
    | with_reducible exact id
    | with_reducible exact fun _ x => x
    | dsimp only
    | (fail_if_no_progress (with_reducible apply Keeps.lit))

theorem stopPart_keeps {s0 s : State} (h : Keeps s0 s) (p : Nat) (status : Nat) (code : Nat) (wher : Nat) :
    Keeps s0 (stopPart s p status code wher) := by
  unfold stopPart
  repeat' first
    | with_reducible assumption
    | with_reducible apply modPart_keeps
    | with_reducible apply cleanWays_keeps
    | with_reducible apply endJob_keeps
    | with_reducible apply clearCells_keeps
    | with_reducible apply clearStratus_keeps

theorem resetPart_keeps {s0 s : State} (h : Keeps s0 s) (p : Nat) (code : Nat) (wher : Nat) :
    Keeps s0 (resetPart s p code wher) := by
  unfold resetPart
  repeat' first
    | with_reducible assumption
    | with_reducible apply odOr_keeps
    | with_reducible apply abortAllParked_keeps
    | with_reducible apply stopPart_keeps
    | with_reducible apply Keeps.ite

theorem execContainment_keeps {s0 s : State} (h : Keeps s0 s) (p : Nat) : ResKeeps s0 (execContainment p s) := by
  unfold execContainment
  repeat' first
    | with_reducible assumption
    | with_reducible apply notify_keeps
    | with_reducible apply donePerforming_keeps
    | with_reducible apply stopPart_keeps
    | with_reducible apply ResKeeps.next
    | with_reducible apply Keeps.ite
    | with_reducible apply ResKeeps.ite
    | split

theorem execPartitionReset_keeps {s0 s : State} (h : Keeps s0 s) (p : Nat) :
    ResKeeps s0 (execPartitionReset p s) := by
  unfold execPartitionReset
  repeat' first
    | with_reducible assumption
    | with_reducible apply notify_keeps
    | with_reducible apply donePerforming_keeps
    | with_reducible apply resetPart_keeps
    | with_reducible apply ResKeeps.next
    | with_reducible apply Keeps.ite
    | with_reducible apply ResKeeps.ite
    | dsimp only
    | split

theorem retireDie_keeps {s0 s : State} (h : Keeps s0 s) (d : Nat) : Keeps s0 (retireDie s d) := by
  unfold retireDie
  repeat' first
    | with_reducible assumption
    | with_reducible apply odOr_keeps
    | with_reducible apply report_keeps
    | with_reducible apply endJob_keeps
    | with_reducible exact Nat.le_refl _
    | with_reducible exact id
    | with_reducible exact fun _ x => x
    | with_reducible exact svnOf_le_of_eq rfl
    | with_reducible apply addTo_imp
    | dsimp only
    | split
    | (fail_if_no_progress (with_reducible apply Keeps.lit))

theorem swapIn_keeps {s0 s : State} (h : Keeps s0 s) (g : Nat) : Keeps s0 (swapIn s g) := by
  unfold swapIn
  repeat' first
    | with_reducible assumption
    | with_reducible apply odOr_keeps
    | with_reducible apply retireDie_keeps
    | with_reducible apply Keeps.ite
    | with_reducible exact Nat.le_refl _
    | with_reducible exact id
    | with_reducible exact fun _ x => x
    | with_reducible exact svnOf_le_of_eq rfl
    | with_reducible apply addTo_imp
    | dsimp only
    | split
    | (fail_if_no_progress (with_reducible apply Keeps.lit))

theorem execSpareSwap_keeps {s0 s : State} (h : Keeps s0 s) (die : Nat) (cell : Nat) :
    ResKeeps s0 (execSpareSwap die cell s) := by
  unfold execSpareSwap
  repeat' first
    | with_reducible assumption
    | with_reducible apply modRunning_keeps
    | with_reducible apply swapIn_keeps
    | with_reducible apply ResKeeps.next
    | with_reducible apply ResKeeps.ite

theorem groupOut_keeps {s0 s : State} (h : Keeps s0 s) (g : Nat) : Keeps s0 (groupOut s g) := by
  unfold groupOut
  repeat' first
    | with_reducible assumption
    | with_reducible apply modMd_keeps
    | with_reducible apply modGrp_keeps
    | with_reducible apply odSet_keeps
    | with_reducible apply loseGroup_keeps

theorem retireFrom_keeps {s0 s : State} (h : Keeps s0 s) (p : Nat) (g : Nat) (code : Nat) (wher : Nat) :
    Keeps s0 (retireFrom s p g code wher) := by
  unfold retireFrom
  repeat' first
    | with_reducible assumption
    | with_reducible apply modPart_keeps
    | with_reducible apply odOr_keeps
    | with_reducible apply abortAllParked_keeps
    | with_reducible apply loseGroup_keeps
    | with_reducible apply stopPart_keeps
    | with_reducible refine Keeps.foldl ?_ _ _ (fun t x ht => ?_)

theorem execGroupRetire_keeps {s0 s : State} (h : Keeps s0 s) (group : Nat) :
    ResKeeps s0 (execGroupRetire group s) := by
  unfold execGroupRetire
  repeat' first
    | with_reducible assumption
    | with_reducible apply notify_keeps
    | with_reducible apply record_keeps
    | with_reducible apply failRequests_keeps
    | with_reducible apply donePerforming_keeps
    | with_reducible apply groupOut_keeps
    | with_reducible apply retireFrom_keeps
    | with_reducible apply ResKeeps.next
    | with_reducible apply Keeps.ite
    | with_reducible apply ResKeeps.ite
    | dsimp only
    | split

theorem breakEngine_keeps {s0 s : State} (h : Keeps s0 s) (e : Nat) (p : Nat) : Keeps s0 (breakEngine s e p) := by
  unfold breakEngine
  repeat' first
    | with_reducible assumption
    | with_reducible apply breakComm_keeps
    | with_reducible refine Keeps.foldl ?_ _ _ (fun t x ht => ?_)

theorem resetColl_keeps {s0 s : State} (h : Keeps s0 s) (e : Nat) : Keeps s0 (resetColl s e) := by
  unfold resetColl
  repeat' first
    | with_reducible assumption
    | with_reducible apply breakEngine_keeps
    | with_reducible refine Keeps.foldl ?_ _ _ (fun t x ht => ?_)

theorem resetMedia_keeps {s0 s : State} (h : Keeps s0 s) (e : Nat) : Keeps s0 (resetMedia s e) := by
  unfold resetMedia
  repeat' first
    | with_reducible assumption
    | with_reducible apply stopEngine_keeps
    | with_reducible apply stopWriter_keeps
    | with_reducible apply Keeps.ite

theorem engineFault_keeps {s0 s : State} (h : Keeps s0 s) (coll : Bool) (e : Nat) :
    Keeps s0 (engineFault s coll e) := by
  unfold engineFault
  repeat' first
    | with_reducible assumption
    | with_reducible apply sharedFault_keeps
    | with_reducible apply Keeps.ite

theorem performEngine_keeps {s0 s : State} (h : Keeps s0 s) (coll : Bool) (e : Nat) :
    Keeps s0 (performEngine s coll e) := by
  unfold performEngine
  repeat' first
    | with_reducible assumption
    | with_reducible apply donePerforming_keeps
    | with_reducible apply resetColl_keeps
    | with_reducible apply resetMedia_keeps
    | with_reducible apply Keeps.ite
    | split

theorem execEngineReset_keeps {s0 s : State} (h : Keeps s0 s) (coll : Bool) (e : Nat) :
    ResKeeps s0 (execEngineReset coll e s) := by
  unfold execEngineReset
  repeat' first
    | with_reducible assumption
    | with_reducible apply engineFault_keeps
    | with_reducible apply performEngine_keeps
    | with_reducible apply ResKeeps.next
    | with_reducible apply Keeps.ite

theorem resetNd_keeps {s0 s : State} (h : Keeps s0 s) (d : Nat) : Keeps s0 (resetNd s d) := by
  unfold resetNd
  repeat' first
    | with_reducible assumption
    | with_reducible apply portsDown_keeps
    | with_reducible exact Nat.le_refl _
    | with_reducible exact id
    | with_reducible exact fun _ x => x
    | dsimp only
    | (fail_if_no_progress (with_reducible apply Keeps.lit))

theorem resetDie_keeps {s0 s : State} (h : Keeps s0 s) (unit : Nat) : Keeps s0 (resetDie s unit) := by
  unfold resetDie
  repeat' first
    | with_reducible assumption
    | with_reducible apply stopBlock_keeps
    | with_reducible apply resetNd_keeps
    | with_reducible apply Keeps.ite

theorem performDie_keeps {s0 s : State} (h : Keeps s0 s) (unit : Nat) : Keeps s0 (performDie s unit) := by
  unfold performDie
  repeat' first
    | with_reducible assumption
    | with_reducible apply notify_keeps
    | with_reducible apply donePerforming_keeps
    | with_reducible apply resetPart_keeps
    | with_reducible apply resetDie_keeps
    | with_reducible apply Keeps.ite
    | with_reducible refine Keeps.foldl ?_ _ _ (fun t x ht => ?_)
    | dsimp only
    | split

theorem execDieReset_keeps {s0 s : State} (h : Keeps s0 s) (unit : Nat) : ResKeeps s0 (execDieReset unit s) := by
  unfold execDieReset
  repeat' first
    | with_reducible assumption
    | with_reducible apply sharedFault_keeps
    | with_reducible apply performDie_keeps
    | with_reducible apply ResKeeps.next
    | with_reducible apply ResKeeps.ite

theorem execRecoveryDone_keeps {s0 s : State} (h : Keeps s0 s) : ResKeeps s0 (execRecoveryDone s) := by
  unfold execRecoveryDone
  repeat' first
    | with_reducible assumption
    | with_reducible apply finishAction_keeps
    | with_reducible apply ResKeeps.next
    | with_reducible apply ResKeeps.ite
    | split

theorem execRecoveryTimeout_keeps {s0 s : State} (h : Keeps s0 s) : ResKeeps s0 (execRecoveryTimeout s) := by
  unfold execRecoveryTimeout
  repeat' first
    | with_reducible assumption
    | with_reducible apply fatalErr_keeps
    | with_reducible apply ResKeeps.next
    | with_reducible apply ResKeeps.ite

theorem execAlmanacCommit_keeps {s0 s : State} (h : Keeps s0 s) (n : Nat) : ResKeeps s0 (execAlmanacCommit n s) := by
  unfold execAlmanacCommit
  repeat' first
    | with_reducible assumption
    | with_reducible apply commitStaged_keeps
    | with_reducible apply ResKeeps.next
    | with_reducible apply ResKeeps.ite

theorem endErase_keeps {s0 s : State} (h : Keeps s0 s) : Keeps s0 (endErase s) := by
  unfold endErase
  repeat' first
    | with_reducible assumption
    | with_reducible apply modAlm_keeps
    | with_reducible apply commitRec_keeps
    | dsimp only
    | split

theorem execAlmanacEraseDone_keeps {s0 s : State} (h : Keeps s0 s) : ResKeeps s0 (execAlmanacEraseDone s) := by
  unfold execAlmanacEraseDone
  repeat' first
    | with_reducible assumption
    | with_reducible apply endErase_keeps
    | with_reducible apply ResKeeps.next
    | with_reducible apply ResKeeps.ite

end Sys2Proof.Machine
end

