-- ==== Sys2Proof/Laws/KeepsBringup.lean ====
section
/-!
SUPPORT. `Keeps` for the operations of Bringup.
-/

namespace Sys2Proof.Machine

theorem modBoot_keeps {s0 s : State} (h : Keeps s0 s) (f : Boot → Boot) : Keeps s0 (modBoot s f) := by
  unfold modBoot
  repeat' first
    | with_reducible assumption
    | with_reducible exact Nat.le_refl _
    | with_reducible exact id
    | with_reducible exact fun _ x => x
    | (fail_if_no_progress (with_reducible apply Keeps.lit))

theorem settleStore_keeps {s0 s : State} (h : Keeps s0 s) : Keeps s0 (settleStore s) := by
  unfold settleStore
  repeat' first
    | with_reducible assumption
    | with_reducible apply Keeps.ite
    | with_reducible refine Keeps.foldl ?_ _ _ (fun t x ht => ?_)
    | with_reducible exact Nat.le_refl _
    | with_reducible exact id
    | with_reducible exact fun _ x => x
    | with_reducible exact Nat.le_succ _
    | with_reducible exact svnOf_le_of_eq rfl
    | dsimp only
    | (fail_if_no_progress (with_reducible apply Keeps.lit))

theorem volatileReset_keeps {s0 s : State} (h : Keeps s0 s) (cause : Nat) : Keeps s0 (volatileReset s cause) := by
  unfold volatileReset
  repeat' first
    | with_reducible assumption
    | with_reducible apply loseGroup_keeps
    | with_reducible apply settleStore_keeps
    | with_reducible refine Keeps.foldl ?_ _ _ (fun t x ht => ?_)
    | with_reducible exact Nat.le_refl _
    | with_reducible exact id
    | with_reducible exact fun _ x => x
    | dsimp only
    | (fail_if_no_progress (with_reducible apply Keeps.lit))

theorem commitAll_keeps {s0 s : State} (h : Keeps s0 s) : Keeps s0 (commitAll s) := by
  unfold commitAll
  repeat' first
    | with_reducible assumption
    | with_reducible apply commitStaged_keeps
    | with_reducible apply Keeps.ite

theorem leaveLoop_keeps {s0 s : State} (h : Keeps s0 s) : Keeps s0 (leaveLoop s) := by
  unfold leaveLoop
  repeat' first
    | with_reducible assumption
    | with_reducible apply odStore_keeps
    | with_reducible apply Keeps.ite

theorem diesUp_keeps {s0 s : State} (h : Keeps s0 s) : Keeps s0 (diesUp s) := by
  unfold diesUp
  repeat' first
    | with_reducible assumption
    | with_reducible exact Nat.le_refl _
    | with_reducible exact id
    | with_reducible exact fun _ x => x
    | (fail_if_no_progress (with_reducible apply Keeps.lit))

theorem hostReset_keeps {s0 s : State} (h : Keeps s0 s) : Keeps s0 (hostReset s) := by
  unfold hostReset
  repeat' first
    | with_reducible assumption
    | with_reducible apply volatileReset_keeps
    | with_reducible apply commitAll_keeps
    | with_reducible apply leaveLoop_keeps
    | with_reducible apply diesUp_keeps

theorem stopBoot_keeps {s0 s : State} (h : Keeps s0 s) (code : Nat) : Keeps s0 (stopBoot s code) := by
  unfold stopBoot
  repeat' first
    | with_reducible assumption
    | with_reducible apply odSet_keeps
    | with_reducible apply modBoot_keeps

theorem passOver_keeps {s0 s : State} (h : Keeps s0 s) (oc : Bool) : Keeps s0 (passOver s oc) := by
  unfold passOver
  repeat' first
    | with_reducible assumption
    | with_reducible apply odStore_keeps
    | with_reducible apply setSlots_keeps

theorem chooseSlot_keeps {s0 s : State} (h : Keeps s0 s) (oc : Bool) : Keeps s0 (chooseSlot s oc).1 := by
  unfold chooseSlot
  repeat' first
    | with_reducible assumption
    | with_reducible apply passOver_keeps
    | with_reducible apply Keeps.iteFst

theorem recoverImage_keeps {s0 s : State} (h : Keeps s0 s) (images : List FwImage) (oc : Bool) :
    Keeps s0 (recoverImage s images oc).1 := by
  unfold recoverImage
  repeat' first
    | with_reducible assumption
    | with_reducible apply setSlots_keeps
    | with_reducible apply Keeps.iteFst
    | dsimp only
    | split

theorem loadReset_keeps {s0 s : State} (h : Keeps s0 s) (b : BootIn) : Keeps s0 (loadReset s b) := by
  unfold loadReset
  repeat' first
    | with_reducible assumption
    | with_reducible apply odSet_keeps
    | with_reducible apply odOr_keeps
    | with_reducible apply showRecovery_keeps
    | with_reducible apply recordOnly_keeps
    | with_reducible apply Keeps.ite
    | with_reducible exact Nat.le_refl _
    | with_reducible exact id
    | with_reducible exact fun _ x => x
    | with_reducible exact Nat.le_succ _
    | with_reducible exact svnOf_le_of_eq rfl
    | dsimp only
    | split
    | (fail_if_no_progress (with_reducible apply Keeps.lit))

theorem startSc_keeps {s0 s : State} (h : Keeps s0 s) (b : BootIn) : Keeps s0 (startSc s b) := by
  unfold startSc
  repeat' first
    | with_reducible assumption
    | with_reducible apply odSet_keeps
    | with_reducible apply modBoot_keeps
    | with_reducible apply stopBoot_keeps
    | with_reducible apply chooseSlot_keeps
    | with_reducible apply recoverImage_keeps
    | with_reducible apply Keeps.ite

theorem runRom_keeps {s0 s : State} (h : Keeps s0 s) (b : BootIn) : Keeps s0 (runRom s b) := by
  unfold runRom
  repeat' first
    | with_reducible assumption
    | with_reducible apply odStore_keeps
    | with_reducible apply stopBoot_keeps
    | with_reducible apply loadReset_keeps
    | with_reducible apply startSc_keeps
    | with_reducible apply Keeps.ite
    | with_reducible exact Nat.le_refl _
    | with_reducible exact id
    | with_reducible exact fun _ x => x
    | dsimp only
    | split
    | (fail_if_no_progress (with_reducible apply Keeps.lit))

theorem raiseFatal_keeps {s0 s : State} (h : Keeps s0 s) (fatal : Nat) : Keeps s0 (raiseFatal s fatal) := by
  unfold raiseFatal
  repeat' first
    | with_reducible assumption
    | with_reducible apply fatalErr_keeps
    | split

theorem performReset_keeps {s0 s : State} (h : Keeps s0 s) (a : Action) (boot : BootIn) :
    Keeps s0 (performReset s a boot) := by
  unfold performReset
  repeat' first
    | with_reducible assumption
    | with_reducible apply odStore_keeps
    | with_reducible apply volatileReset_keeps
    | with_reducible apply commitAll_keeps
    | with_reducible apply diesUp_keeps
    | with_reducible apply runRom_keeps
    | with_reducible exact Nat.le_refl _
    | with_reducible exact id
    | with_reducible exact fun _ x => x
    | dsimp only
    | (fail_if_no_progress (with_reducible apply Keeps.lit))

theorem execModuleReset_keeps {s0 s : State} (h : Keeps s0 s) (boot : BootIn) (fatal : Nat) :
    ResKeeps s0 (execModuleReset boot fatal s) := by
  unfold execModuleReset
  repeat' first
    | with_reducible assumption
    | with_reducible apply raiseFatal_keeps
    | with_reducible apply performReset_keeps
    | with_reducible apply ResKeeps.next
    | with_reducible apply Keeps.ite
    | with_reducible apply ResKeeps.ite
    | dsimp only
    | split

theorem arm_keeps {s0 s : State} (h : Keeps s0 s) : Keeps s0 (arm s) := by
  unfold arm
  repeat' first
    | with_reducible assumption
    | with_reducible apply modBoot_keeps
    | with_reducible apply Keeps.ite
    | with_reducible exact Nat.le_refl _
    | with_reducible exact id
    | with_reducible exact fun _ x => x
    | (fail_if_no_progress (with_reducible apply Keeps.lit))

theorem commitLoss_keeps {s0 s : State} (h : Keeps s0 s) : Keeps s0 (commitLoss s) := by
  unfold commitLoss
  repeat' first
    | with_reducible assumption
    | with_reducible apply modAlm_keeps
    | with_reducible apply commitRec_keeps
    | with_reducible apply takeSeq_keeps
    | with_reducible apply commitStaged_keeps

theorem powerOff_keeps {s0 s : State} (h : Keeps s0 s) : Keeps s0 (powerOff s) := by
  unfold powerOff
  repeat' first
    | with_reducible assumption
    | with_reducible apply modBoot_keeps
    | with_reducible apply volatileReset_keeps
    | with_reducible apply leaveLoop_keeps
    | with_reducible apply commitLoss_keeps
    | with_reducible apply Keeps.ite
    | with_reducible exact Nat.le_refl _
    | with_reducible exact id
    | with_reducible exact fun _ x => x
    | with_reducible exact svnOf_le_of_eq rfl
    | dsimp only
    | (fail_if_no_progress (with_reducible apply Keeps.lit))

theorem execModEnRise_keeps {s0 s : State} (h : Keeps s0 s) (lowMs : Nat) : ResKeeps s0 (execModEnRise lowMs s) := by
  unfold execModEnRise
  repeat' first
    | with_reducible assumption
    | with_reducible apply modBoot_keeps
    | with_reducible apply arm_keeps
    | with_reducible apply ResKeeps.next
    | with_reducible apply ResKeeps.ite

theorem execModEnFall_keeps {s0 s : State} (h : Keeps s0 s) : ResKeeps s0 (execModEnFall s) := by
  unfold execModEnFall
  repeat' first
    | with_reducible assumption
    | with_reducible apply modBoot_keeps
    | with_reducible apply powerOff_keeps
    | with_reducible apply ResKeeps.next
    | with_reducible apply ResKeeps.ite

theorem execInputOutOfRange_keeps {s0 s : State} (h : Keeps s0 s) : ResKeeps s0 (execInputOutOfRange s) := by
  unfold execInputOutOfRange
  repeat' first
    | with_reducible assumption
    | with_reducible apply modBoot_keeps
    | with_reducible apply powerOff_keeps
    | with_reducible apply ResKeeps.next
    | with_reducible apply ResKeeps.ite

theorem execInputInRange_keeps {s0 s : State} (h : Keeps s0 s) (removed : Bool) :
    ResKeeps s0 (execInputInRange removed s) := by
  unfold execInputInRange
  repeat' first
    | with_reducible assumption
    | with_reducible apply modBoot_keeps
    | with_reducible apply arm_keeps
    | with_reducible apply ResKeeps.next
    | with_reducible apply ResKeeps.ite

theorem failRails_keeps {s0 s : State} (h : Keeps s0 s) (code : Nat) : Keeps s0 (failRails s code) := by
  unfold failRails
  repeat' first
    | with_reducible assumption
    | with_reducible apply modBoot_keeps
    | with_reducible apply stopBoot_keeps

theorem railsUp_keeps {s0 s : State} (h : Keeps s0 s) (straps : Nat) (holdupUf : Nat) (boot : BootIn) :
    Keeps s0 (railsUp s straps holdupUf boot) := by
  unfold railsUp
  repeat' first
    | with_reducible assumption
    | with_reducible apply fresh_keeps
    | with_reducible apply report_keeps
    | with_reducible apply modBoot_keeps
    | with_reducible apply diesUp_keeps
    | with_reducible apply runRom_keeps
    | with_reducible apply Keeps.ite
    | with_reducible exact Nat.le_refl _
    | with_reducible exact id
    | with_reducible exact fun _ x => x
    | with_reducible exact Nat.le_succ _
    | with_reducible exact svnOf_le_of_eq rfl
    | dsimp only
    | (fail_if_no_progress (with_reducible apply Keeps.lit))

theorem execRailsGood_keeps {s0 s : State} (h : Keeps s0 s) (straps : Nat) (holdupUf : Nat) (boot : BootIn) :
    ResKeeps s0 (execRailsGood straps holdupUf boot s) := by
  unfold execRailsGood
  repeat' first
    | with_reducible assumption
    | with_reducible apply failRails_keeps
    | with_reducible apply railsUp_keeps
    | with_reducible apply ResKeeps.next
    | with_reducible apply ResKeeps.ite

theorem execModResetAssert_keeps {s0 s : State} (h : Keeps s0 s) : ResKeeps s0 (execModResetAssert s) := by
  unfold execModResetAssert
  repeat' first
    | with_reducible assumption
    | with_reducible apply modBoot_keeps
    | with_reducible apply hostReset_keeps
    | with_reducible apply ResKeeps.next
    | with_reducible apply ResKeeps.ite

theorem endReset_keeps {s0 s : State} (h : Keeps s0 s) (straps : Nat) (boot : BootIn) :
    Keeps s0 (endReset s straps boot) := by
  unfold endReset
  repeat' first
    | with_reducible assumption
    | with_reducible apply modBoot_keeps
    | with_reducible apply runRom_keeps
    | with_reducible apply Keeps.ite

theorem execModResetRelease_keeps {s0 s : State} (h : Keeps s0 s) (straps : Nat) (boot : BootIn) :
    ResKeeps s0 (execModResetRelease straps boot s) := by
  unfold execModResetRelease
  repeat' first
    | with_reducible assumption
    | with_reducible apply modBoot_keeps
    | with_reducible apply endReset_keeps
    | with_reducible apply ResKeeps.next
    | with_reducible apply ResKeeps.ite

theorem resetPcie_keeps {s0 s : State} (h : Keeps s0 s) : Keeps s0 (resetPcie s) := by
  unfold resetPcie
  repeat' first
    | with_reducible assumption
    | with_reducible apply odSet_keeps
    | with_reducible apply modServer_keeps
    | with_reducible apply modBoot_keeps

theorem execPerstAssert_keeps {s0 s : State} (h : Keeps s0 s) : ResKeeps s0 (execPerstAssert s) := by
  unfold execPerstAssert
  repeat' first
    | with_reducible assumption
    | with_reducible apply modBoot_keeps
    | with_reducible apply hostReset_keeps
    | with_reducible apply resetPcie_keeps
    | with_reducible apply ResKeeps.next
    | with_reducible apply ResKeeps.ite

theorem execPerstRelease_keeps {s0 s : State} (h : Keeps s0 s) (straps : Nat) (boot : BootIn) :
    ResKeeps s0 (execPerstRelease straps boot s) := by
  unfold execPerstRelease
  repeat' first
    | with_reducible assumption
    | with_reducible apply modBoot_keeps
    | with_reducible apply endReset_keeps
    | with_reducible apply ResKeeps.next
    | with_reducible apply ResKeeps.ite

theorem execSlotStartTimeout_keeps {s0 s : State} (h : Keeps s0 s) (oc : Bool) :
    ResKeeps s0 (execSlotStartTimeout oc s) := by
  unfold execSlotStartTimeout
  repeat' first
    | with_reducible assumption
    | with_reducible apply odSet_keeps
    | with_reducible apply modBoot_keeps
    | with_reducible apply stopBoot_keeps
    | with_reducible apply passOver_keeps
    | with_reducible apply chooseSlot_keeps
    | with_reducible apply ResKeeps.next
    | with_reducible apply Keeps.ite
    | with_reducible apply Keeps.iteFst
    | with_reducible apply ResKeeps.ite

theorem execBootStepTimeout_keeps {s0 s : State} (h : Keeps s0 s) (cause : Nat) :
    ResKeeps s0 (execBootStepTimeout cause s) := by
  unfold execBootStepTimeout
  repeat' first
    | with_reducible assumption
    | with_reducible apply modBoot_keeps
    | with_reducible apply stopBoot_keeps
    | with_reducible apply failRails_keeps
    | with_reducible apply ResKeeps.next
    | with_reducible apply ResKeeps.ite

theorem restartPort_keeps {s0 s : State} (h : Keeps s0 s) (q : Nat) : Keeps s0 (restartPort s q) := by
  unfold restartPort
  repeat' first
    | with_reducible assumption
    | with_reducible apply odSet_keeps
    | with_reducible apply linkDown_keeps
    | with_reducible apply Keeps.ite
    | with_reducible refine Keeps.foldl ?_ _ _ (fun t x ht => ?_)
    | with_reducible exact Nat.le_refl _
    | with_reducible exact id
    | with_reducible exact fun _ x => x
    | dsimp only
    | (fail_if_no_progress (with_reducible apply Keeps.lit))

theorem execEthLinkUp_keeps {s0 s : State} (h : Keeps s0 s) (port : Nat) : ResKeeps s0 (execEthLinkUp port s) := by
  unfold execEthLinkUp
  repeat' first
    | with_reducible assumption
    | with_reducible apply odSet_keeps
    | with_reducible apply ResKeeps.next
    | with_reducible apply ResKeeps.ite

theorem execEthLinkDown_keeps {s0 s : State} (h : Keeps s0 s) (port : Nat) :
    ResKeeps s0 (execEthLinkDown port s) := by
  unfold execEthLinkDown
  repeat' first
    | with_reducible assumption
    | with_reducible apply linkDown_keeps
    | with_reducible apply ResKeeps.next

theorem execPortRestart_keeps {s0 s : State} (h : Keeps s0 s) (port : Nat) :
    ResKeeps s0 (execPortRestart port s) := by
  unfold execPortRestart
  repeat' first
    | with_reducible assumption
    | with_reducible apply odInc_keeps
    | with_reducible apply restartPort_keeps
    | with_reducible apply ResKeeps.next
    | with_reducible apply ResKeeps.ite

theorem execPcieLinkUp_keeps {s0 s : State} (h : Keeps s0 s) (width : Nat) (rate : Nat) (flit : Bool) :
    ResKeeps s0 (execPcieLinkUp width rate flit s) := by
  unfold execPcieLinkUp
  repeat' first
    | with_reducible assumption
    | with_reducible apply odSet_keeps
    | with_reducible apply modBoot_keeps
    | with_reducible apply ResKeeps.next
    | with_reducible apply ResKeeps.ite

theorem pcieDown_keeps {s0 s : State} (h : Keeps s0 s) : Keeps s0 (pcieDown s) := by
  unfold pcieDown
  repeat' first
    | with_reducible assumption
    | with_reducible apply odSet_keeps
    | with_reducible apply odInc_keeps
    | with_reducible apply modBoot_keeps
    | with_reducible apply Keeps.ite

theorem execPcieLinkDown_keeps {s0 s : State} (h : Keeps s0 s) : ResKeeps s0 (execPcieLinkDown s) := by
  unfold execPcieLinkDown
  repeat' first
    | with_reducible assumption
    | with_reducible apply pcieDown_keeps
    | with_reducible apply ResKeeps.next

theorem execConfigurationRequest_keeps {s0 s : State} (h : Keeps s0 s) (req : ConfigReq) :
    ResKeeps s0 (execConfigurationRequest req s) := by
  unfold execConfigurationRequest
  repeat' first
    | with_reducible assumption
    | with_reducible apply emit_keeps
    | with_reducible apply fresh_keeps
    | with_reducible apply ResKeeps.next
    | with_reducible apply ResKeeps.ite
    | dsimp only
    | split

theorem execLaneMarginingRequest_keeps {s0 s : State} (h : Keeps s0 s) (lane : Nat) (dir : Nat) (steps : Nat) (errors : Nat) :
    ResKeeps s0 (execLaneMarginingRequest lane dir steps errors s) := by
  unfold execLaneMarginingRequest
  repeat' first
    | with_reducible assumption
    | with_reducible apply emit_keeps
    | with_reducible apply ResKeeps.next
    | with_reducible apply ResKeeps.ite

theorem persistPins_keeps {s0 s : State} (h : Keeps s0 s) : Keeps s0 (persistPins s) := by
  unfold persistPins
  repeat' first
    | with_reducible assumption
    | with_reducible apply switchPin_keeps
    | with_reducible apply Keeps.ite
    | with_reducible refine Keeps.foldl ?_ _ _ (fun t x ht => ?_)

theorem openPages_keeps {s0 s : State} (h : Keeps s0 s) : Keeps s0 (openPages s) := by
  unfold openPages
  repeat' first
    | with_reducible assumption
    | with_reducible apply modServer_keeps

theorem ocUp_keeps {s0 s : State} (h : Keeps s0 s) : Keeps s0 (ocUp s) := by
  unfold ocUp
  repeat' first
    | with_reducible assumption
    | with_reducible apply odSet_keeps
    | with_reducible apply modBoot_keeps
    | with_reducible apply restartPort_keeps
    | with_reducible apply persistPins_keeps
    | with_reducible apply openPages_keeps
    | with_reducible refine Keeps.foldl ?_ _ _ (fun t x ht => ?_)
    | with_reducible exact Nat.le_refl _
    | with_reducible exact id
    | with_reducible exact fun _ x => x
    | dsimp only
    | (fail_if_no_progress (with_reducible apply Keeps.lit))

theorem execOcReady_keeps {s0 s : State} (h : Keeps s0 s) (level : Nat) : ResKeeps s0 (execOcReady level s) := by
  unfold execOcReady
  repeat' first
    | with_reducible assumption
    | with_reducible apply modServer_keeps
    | with_reducible apply modBoot_keeps
    | with_reducible apply stopBoot_keeps
    | with_reducible apply chooseSlot_keeps
    | with_reducible apply ocUp_keeps
    | with_reducible apply ResKeeps.next
    | with_reducible apply ResKeeps.ite
    | with_reducible exact Nat.le_refl _
    | with_reducible exact id
    | with_reducible exact fun _ x => x
    | with_reducible exact svnOf_le_of_eq rfl
    | dsimp only
    | (fail_if_no_progress (with_reducible apply Keeps.lit))

theorem becomeReady_keeps {s0 s : State} (h : Keeps s0 s) (nowMs : Nat) : Keeps s0 (becomeReady s nowMs) := by
  unfold becomeReady
  repeat' first
    | with_reducible assumption
    | with_reducible apply odSet_keeps
    | with_reducible apply odStore_keeps
    | with_reducible apply finishAction_keeps
    | with_reducible apply Keeps.ite
    | dsimp only
    | split

theorem retireTrained_keeps {s0 s : State} (h : Keeps s0 s) (g : Nat) : Keeps s0 (retireTrained s g) := by
  unfold retireTrained
  repeat' first
    | with_reducible assumption
    | with_reducible apply odSet_keeps
    | with_reducible apply report_keeps
    | with_reducible apply retireErr_keeps
    | with_reducible apply Keeps.ite

theorem endTraining_keeps {s0 s : State} (h : Keeps s0 s) (failed : List (Nat × Nat)) (absent : List Nat) (ms : Nat) (g : Nat) :
    Keeps s0 (endTraining s failed absent ms g) := by
  unfold endTraining
  repeat' first
    | with_reducible assumption
    | with_reducible apply odSet_keeps
    | with_reducible apply retireTrained_keeps
    | with_reducible apply Keeps.ite

theorem execTrainingRoundDone_keeps {s0 s : State} (h : Keeps s0 s) (failed : List (Nat × Nat)) (absent : List Nat) (trainMs : Nat) (nowMs : Nat) :
    ResKeeps s0 (execTrainingRoundDone failed absent trainMs nowMs s) := by
  unfold execTrainingRoundDone
  repeat' first
    | with_reducible assumption
    | with_reducible apply odSet_keeps
    | with_reducible apply modBoot_keeps
    | with_reducible apply becomeReady_keeps
    | with_reducible apply endTraining_keeps
    | with_reducible apply ResKeeps.next
    | with_reducible apply ResKeeps.ite
    | with_reducible refine Keeps.foldl ?_ _ _ (fun t x ht => ?_)

theorem retrainIf_keeps {s0 s : State} (h : Keeps s0 s) (g : Nat) (due : Bool) : Keeps s0 (retrainIf s g due) := by
  unfold retrainIf
  repeat' first
    | with_reducible assumption
    | with_reducible apply startRetrain_keeps
    | with_reducible apply Keeps.ite

theorem execRetrainTrigger_keeps {s0 s : State} (h : Keeps s0 s) (group : Nat) :
    ResKeeps s0 (execRetrainTrigger group s) := by
  unfold execRetrainTrigger
  repeat' first
    | with_reducible assumption
    | with_reducible apply retrainIf_keeps
    | with_reducible apply ResKeeps.next

theorem execRetrainDrift_keeps {s0 s : State} (h : Keeps s0 s) (group : Nat) :
    ResKeeps s0 (execRetrainDrift group s) := by
  unfold execRetrainDrift
  repeat' first
    | with_reducible assumption
    | with_reducible apply retrainIf_keeps
    | with_reducible apply ResKeeps.next

theorem execRetrainDone_keeps {s0 s : State} (h : Keeps s0 s) (group : Nat) (ok : Bool) :
    ResKeeps s0 (execRetrainDone group ok s) := by
  unfold execRetrainDone
  repeat' first
    | with_reducible assumption
    | with_reducible apply modGrp_keeps
    | with_reducible apply odSet_keeps
    | with_reducible apply retireErr_keeps
    | with_reducible apply ResKeeps.next
    | with_reducible apply ResKeeps.ite

theorem execMarginDone_keeps {s0 s : State} (h : Keeps s0 s) (result : List Byte) (nowMs : Nat) :
    ResKeeps s0 (execMarginDone result nowMs s) := by
  unfold execMarginDone
  repeat' first
    | with_reducible assumption
    | with_reducible apply odSet_keeps
    | with_reducible apply setDom_keeps
    | with_reducible apply modBoot_keeps
    | with_reducible apply becomeReady_keeps
    | with_reducible apply retireTrained_keeps
    | with_reducible apply ResKeeps.next
    | with_reducible apply ResKeeps.ite
    | with_reducible refine Keeps.foldl ?_ _ _ (fun t x ht => ?_)
    | dsimp only
    | split

theorem execEyeRefresh_keeps {s0 s : State} (h : Keeps s0 s) (lane : Nat) (eye : Nat) :
    ResKeeps s0 (execEyeRefresh lane eye s) := by
  unfold execEyeRefresh
  repeat' first
    | with_reducible assumption
    | with_reducible apply odSet_keeps
    | with_reducible apply ResKeeps.next

theorem execPinSwitchComplete_keeps {s0 s : State} (h : Keeps s0 s) (pin : Nat) :
    ResKeeps s0 (execPinSwitchComplete pin s) := by
  unfold execPinSwitchComplete
  repeat' first
    | with_reducible assumption
    | with_reducible apply modPin_keeps
    | with_reducible apply switchPin_keeps
    | with_reducible apply ResKeeps.next
    | dsimp only
    | split

end Sys2Proof.Machine
end

