-- ==== Sys2Proof/Laws/KeepsPower.lean ====
section
/-!
SUPPORT. `Keeps` for the operations of Power.
-/

namespace Sys2Proof.Machine

theorem setThrottle_keeps {s0 s : State} (h : Keeps s0 s) (n : Nat) : Keeps s0 (setThrottle s n) := by
  unfold setThrottle
  repeat' first
    | with_reducible assumption
    | with_reducible apply modDie_keeps
    | with_reducible apply odSet_keeps
    | with_reducible apply Keeps.ite
    | with_reducible refine Keeps.foldl ?_ _ _ (fun t x ht => ?_)

theorem throttleDown_keeps {s0 s : State} (h : Keeps s0 s) : Keeps s0 (throttleDown s) := by
  unfold throttleDown
  repeat' first
    | with_reducible assumption
    | with_reducible apply odInc_keeps
    | with_reducible apply setThrottle_keeps
    | with_reducible apply Keeps.ite

theorem throttleUp_keeps {s0 s : State} (h : Keeps s0 s) : Keeps s0 (throttleUp s) := by
  unfold throttleUp
  repeat' first
    | with_reducible assumption
    | with_reducible apply setThrottle_keeps
    | with_reducible apply Keeps.ite

theorem countMs_keeps {s0 s : State} (h : Keeps s0 s) (watts : Nat) (mv : Nat) (ma : Nat) :
    Keeps s0 (countMs s watts mv ma) := by
  unfold countMs
  repeat' first
    | with_reducible assumption
    | with_reducible apply odSet_keeps
    | with_reducible apply modBoot_keeps
    | with_reducible exact Nat.le_refl _
    | with_reducible exact id
    | with_reducible exact fun _ x => x
    | with_reducible exact Nat.le_succ _
    | with_reducible exact svnOf_le_of_eq rfl
    | dsimp only
    | (fail_if_no_progress (with_reducible apply Keeps.lit))

theorem execPowerAverageTick_keeps {s0 s : State} (h : Keeps s0 s) (watts : Nat) (mv : Nat) (ma : Nat) :
    ResKeeps s0 (execPowerAverageTick watts mv ma s) := by
  unfold execPowerAverageTick
  repeat' first
    | with_reducible assumption
    | with_reducible apply modBoot_keeps
    | with_reducible apply throttleDown_keeps
    | with_reducible apply throttleUp_keeps
    | with_reducible apply countMs_keeps
    | with_reducible apply ResKeeps.next
    | with_reducible apply ResKeeps.ite

theorem execDieTempSample_keeps {s0 s : State} (h : Keeps s0 s) (temps : List Int) (plate : Int) :
    ResKeeps s0 (execDieTempSample temps plate s) := by
  unfold execDieTempSample
  repeat' first
    | with_reducible assumption
    | with_reducible apply odSet_keeps
    | with_reducible apply modBoot_keeps
    | with_reducible apply throttleDown_keeps
    | with_reducible apply ResKeeps.next
    | with_reducible apply ResKeeps.ite
    | with_reducible refine Keeps.foldl ?_ _ _ (fun t x ht => ?_)

theorem execPowerLimitFence_keeps {s0 s : State} (h : Keeps s0 s) (watts : Nat) :
    ResKeeps s0 (execPowerLimitFence watts s) := by
  unfold execPowerLimitFence
  repeat' first
    | with_reducible assumption
    | with_reducible apply modBoot_keeps
    | with_reducible apply throttleDown_keeps
    | with_reducible apply ResKeeps.next
    | with_reducible apply ResKeeps.ite

theorem execPowerLimitShutdown_keeps {s0 s : State} (h : Keeps s0 s) (watts : Nat) :
    ResKeeps s0 (execPowerLimitShutdown watts s) := by
  unfold execPowerLimitShutdown
  repeat' first
    | with_reducible assumption
    | with_reducible apply powerOff_keeps
    | with_reducible apply ResKeeps.next
    | with_reducible apply ResKeeps.ite

theorem dropJobs_keeps {s0 s : State} (h : Keeps s0 s) (p : Nat) : Keeps s0 (dropJobs s p) := by
  unfold dropJobs
  repeat' first
    | with_reducible assumption
    | with_reducible apply modPart_keeps
    | with_reducible apply setState_keeps
    | with_reducible apply dropControl_keeps
    | with_reducible apply Keeps.ite

theorem shedRails_keeps {s0 s : State} (h : Keeps s0 s) : Keeps s0 (shedRails s) := by
  unfold shedRails
  repeat' first
    | with_reducible assumption
    | with_reducible apply odSet_keeps
    | with_reducible apply showRecovery_keeps
    | with_reducible apply dieDown_keeps
    | with_reducible apply loseGroup_keeps
    | with_reducible apply dropMd_keeps
    | with_reducible apply portsDown_keeps
    | with_reducible apply modBoot_keeps
    | with_reducible apply dropJobs_keeps
    | with_reducible refine Keeps.foldl ?_ _ _ (fun t x ht => ?_)
    | with_reducible exact Nat.le_refl _
    | with_reducible exact id
    | with_reducible exact fun _ x => x
    | (fail_if_no_progress (with_reducible apply Keeps.lit))

theorem execThermalTrip_keeps {s0 s : State} (h : Keeps s0 s) : ResKeeps s0 (execThermalTrip s) := by
  unfold execThermalTrip
  repeat' first
    | with_reducible assumption
    | with_reducible apply recordOnly_keeps
    | with_reducible apply modBoot_keeps
    | with_reducible apply stopBoot_keeps
    | with_reducible apply shedRails_keeps
    | with_reducible apply ResKeeps.next
    | with_reducible apply Keeps.ite
    | with_reducible apply ResKeeps.ite

theorem dropRef_keeps {s0 s : State} (h : Keeps s0 s) (r : RefClk) : Keeps s0 (dropRef s r) := by
  unfold dropRef
  repeat' first
    | with_reducible assumption
    | with_reducible apply modBoot_keeps

theorem execRefclkLoss_keeps {s0 s : State} (h : Keeps s0 s) (ref : RefClk) : ResKeeps s0 (execRefclkLoss ref s) := by
  unfold execRefclkLoss
  repeat' first
    | with_reducible assumption
    | with_reducible apply portsDown_keeps
    | with_reducible apply powerOff_keeps
    | with_reducible apply pcieDown_keeps
    | with_reducible apply dropRef_keeps
    | with_reducible apply ResKeeps.next
    | with_reducible apply Keeps.ite
    | dsimp only
    | split

theorem execRefclkReturn_keeps {s0 s : State} (h : Keeps s0 s) (ref : RefClk) :
    ResKeeps s0 (execRefclkReturn ref s) := by
  unfold execRefclkReturn
  repeat' first
    | with_reducible assumption
    | with_reducible apply modBoot_keeps
    | with_reducible apply ResKeeps.next
    | with_reducible apply ResKeeps.ite

end Sys2Proof.Machine
end

