-- ==== Sys2Proof/WellFormed.lean ====
section
/-!
DEFINITION. When a command names hardware the FG-1280 has: every cell, die, partition, register number
and the like inside the range the manual gives it (R13, R14 and the field widths of Tables 2.2 to 2.9).
The value of a dictionary request, and the bytes of a frame or descriptor, are outside data: the part
checks them itself, so they are not restricted here.
-/

namespace Sys2Proof

/-- A scratchpad bank request of another master: a master of Table 6.2, an address in the 2 MiB. -/
def BankReq.wellFormed (b : BankReq) : Bool :=
  decide (b.master < 16) && decide (b.addr < 2097152) &&
    (match b.write with | none => true | some w => decide (w.2.length = 64))

/-- Bits that flipped in one of `n` words of `k` check groups each. -/
def Upset.wellFormed (n k : Nat) (u : Upset) : Bool := decide (u.word < n) && decide (u.group < k)

/-- An unscheduled access within one 64 B unit of a Stratus die. -/
def StratusAccess.wellFormed (a : StratusAccess) : Bool :=
  decide (a.offset < 536870912) &&
    (match a.write with | none => true | some w => decide (a.offset % 64 + w.1.length ≤ 64))

/-- A ring entry's place (R363). -/
def ReqRef.wellFormed (r : ReqRef) : Bool := decide (r.p < 16) && decide (r.q < 64) && decide (r.index < 65536)

/-- A caller: class P names one of the 16 partitions (R410). -/
def Caller.wellFormed (c : Caller) : Bool :=
  (match c.cls with | .P p => decide (p < 16) | _ => true) && decide (c.transport < 5)

/-- A deposit names a cell and, for a stream, one of its four read streams. -/
def Deposit.wellFormed : Deposit → Bool
  | .unit g stream => decide (g < 1280) && decide (stream < 4)
  | .write _ g addr data _ => decide (g < 1280) && decide (addr + data.length ≤ 2097152)

/-- Every operand names something the part has. -/
def Instr.wellFormed : Instr → Bool
  | .fabricCrcFail src _ => decide (src < 49)
  | .fabricCreditReturn src dst cls capped => decide (src < 49) && decide (dst < 49) && decide (cls < 3) && capped.all fun c => decide (c < 3)
  | .cclkWrite c _ die _ => c.wellFormed && decide (die < 16)
  | .clockHold die => decide (die < 16)
  | .clockHoldEnd die => decide (die < 16)
  | .bundleIssue g _ ecc upsets others =>
    decide (g < 1280) && decide (ecc < 5) && upsets.all (Upset.wellFormed 32768 16) && others.all BankReq.wellFormed
  | .issueResume g _ => decide (g < 1280)
  | .nop g => decide (g < 1280)
  | .semWait g sem => decide (g < 1280) && decide (sem < 256)
  | .semSignal g sem cnt => decide (g < 1280) && decide (sem < 256) && decide (cnt < 257) && decide (1 ≤ cnt)
  | .fence g => decide (g < 1280)
  | .fencePredicate g sem => decide (g < 1280) && decide (sem < 256)
  | .setcnt g ctr cnt => decide (g < 1280) && decide (ctr < 4) && decide (cnt < 1048576)
  | .loop g ctr target => decide (g < 1280) && decide (ctr < 4) && decide (target < 4096)
  | .amaxflush g => decide (g < 1280)
  | .done g => decide (g < 1280)
  | .mload g fmt rs => decide (g < 1280) && decide (fmt < 16) && decide (rs < 4)
  | .mloadComplete g => decide (g < 1280)
  | .mswap g => decide (g < 1280)
  | .mmac g fmt bank row rs => decide (g < 1280) && decide (fmt < 16) && decide (bank < 4) && decide (row < 64) && decide (rs < 4)
  | .mmacz g fmt bank row rs => decide (g < 1280) && decide (fmt < 16) && decide (bank < 4) && decide (row < 64) && decide (rs < 4)
  | .vadd g dst sa sb mask dt => decide (g < 1280) && decide (dst < 64) && decide (sa < 64) && decide (sb < 64) && decide (mask < 8) && decide (dt < 8)
  | .vsub g dst sa sb mask dt => decide (g < 1280) && decide (dst < 64) && decide (sa < 64) && decide (sb < 64) && decide (mask < 8) && decide (dt < 8)
  | .vmul g dst sa sb mask dt => decide (g < 1280) && decide (dst < 64) && decide (sa < 64) && decide (sb < 64) && decide (mask < 8) && decide (dt < 8)
  | .vfma g dst sa sb sc mask dt => decide (g < 1280) && decide (dst < 64) && decide (sa < 64) && decide (sb < 64) && decide (sc < 64) && decide (mask < 8) && decide (dt < 8)
  | .vmax g dst sa sb mask dt => decide (g < 1280) && decide (dst < 64) && decide (sa < 64) && decide (sb < 64) && decide (mask < 8) && decide (dt < 8)
  | .vmin g dst sa sb mask dt => decide (g < 1280) && decide (dst < 64) && decide (sa < 64) && decide (sb < 64) && decide (mask < 8) && decide (dt < 8)
  | .viadd g dst sa sb mask => decide (g < 1280) && decide (dst < 64) && decide (sa < 64) && decide (sb < 64) && decide (mask < 8)
  | .visub g dst sa sb mask => decide (g < 1280) && decide (dst < 64) && decide (sa < 64) && decide (sb < 64) && decide (mask < 8)
  | .vimul g dst sa sb mask => decide (g < 1280) && decide (dst < 64) && decide (sa < 64) && decide (sb < 64) && decide (mask < 8)
  | .vand g dst sa sb mask => decide (g < 1280) && decide (dst < 64) && decide (sa < 64) && decide (sb < 64) && decide (mask < 8)
  | .vor g dst sa sb mask => decide (g < 1280) && decide (dst < 64) && decide (sa < 64) && decide (sb < 64) && decide (mask < 8)
  | .vxor g dst sa sb mask => decide (g < 1280) && decide (dst < 64) && decide (sa < 64) && decide (sb < 64) && decide (mask < 8)
  | .vshl g dst sa sb mask => decide (g < 1280) && decide (dst < 64) && decide (sa < 64) && decide (sb < 64) && decide (mask < 8)
  | .vshr g dst sa sb mask => decide (g < 1280) && decide (dst < 64) && decide (sa < 64) && decide (sb < 64) && decide (mask < 8)
  | .vbcast g dst imm mask => decide (g < 1280) && decide (dst < 64) && decide (imm < 4096) && decide (mask < 8)
  | .vcmplt g dst sa sb mask dt => decide (g < 1280) && decide (dst < 8) && decide (sa < 64) && decide (sb < 64) && decide (mask < 8) && decide (dt < 8)
  | .vcmpeq g dst sa sb mask dt => decide (g < 1280) && decide (dst < 8) && decide (sa < 64) && decide (sb < 64) && decide (mask < 8) && decide (dt < 8)
  | .vsel g dst sa sb sel mask => decide (g < 1280) && decide (dst < 64) && decide (sa < 64) && decide (sb < 64) && decide (sel < 8) && decide (mask < 8)
  | .vrsum g dst sa mask dt => decide (g < 1280) && decide (dst < 64) && decide (sa < 64) && decide (mask < 8) && decide (dt < 8)
  | .vrmax g dst sa mask dt => decide (g < 1280) && decide (dst < 64) && decide (sa < 64) && decide (mask < 8) && decide (dt < 8)
  | .vexp2 g dst sa mask dt => decide (g < 1280) && decide (dst < 64) && decide (sa < 64) && decide (mask < 8) && decide (dt < 8)
  | .vlog2 g dst sa mask dt => decide (g < 1280) && decide (dst < 64) && decide (sa < 64) && decide (mask < 8) && decide (dt < 8)
  | .vrsqrt g dst sa mask dt => decide (g < 1280) && decide (dst < 64) && decide (sa < 64) && decide (mask < 8) && decide (dt < 8)
  | .vrcp g dst sa mask dt => decide (g < 1280) && decide (dst < 64) && decide (sa < 64) && decide (mask < 8) && decide (dt < 8)
  | .vsin g dst sa mask dt => decide (g < 1280) && decide (dst < 64) && decide (sa < 64) && decide (mask < 8) && decide (dt < 8)
  | .vcos g dst sa mask dt => decide (g < 1280) && decide (dst < 64) && decide (sa < 64) && decide (mask < 8) && decide (dt < 8)
  | .vcvt g dst sa mask dt rnd slot target => decide (g < 1280) && decide (dst < 64) && decide (sa < 64) && decide (mask < 8) && decide (dt < 8) && decide (rnd < 4) && decide (slot < 4096) && decide (target < 16)
  | .vcvtmx g dst sa mask dt rnd slot target => decide (g < 1280) && decide (dst < 64) && decide (sa < 64) && decide (mask < 8) && decide (dt < 8) && decide (rnd < 4) && decide (slot < 4096) && decide (target < 16)
  | .amaxCountMerge g slot => decide (g < 1280) && decide (slot < 4096)
  | .vrand g dst mask => decide (g < 1280) && decide (dst < 64) && decide (mask < 8)
  | .vrandu g dst mask => decide (g < 1280) && decide (dst < 64) && decide (mask < 8)
  | .vld g dst imm mask => decide (g < 1280) && decide (dst < 64) && decide (imm < 4096) && decide (mask < 8)
  | .vst g sa imm mask => decide (g < 1280) && decide (sa < 64) && decide (imm < 4096) && decide (mask < 8)
  | .sstartIn g stream desc near addr => decide (g < 1280) && decide (stream < 4) && decide (desc < 32768) && decide (near < 2) && decide (addr < 32768)
  | .sstopIn g stream => decide (g < 1280) && decide (stream < 4)
  | .sstartOut g stream desc near addr => decide (g < 1280) && decide (stream < 2) && decide (desc < 32768) && decide (near < 4) && decide (addr < 32768)
  | .sstopOut g stream => decide (g < 1280) && decide (stream < 2)
  | .streamEnd g _ stream => decide (g < 1280) && decide (stream < 4)
  | .farRequestIssue g stream => decide (g < 1280) && decide (stream < 4)
  | .unitArrival g stream => decide (g < 1280) && decide (stream < 4)
  | .contractDeposit g stream => decide (g < 1280) && decide (stream < 4)
  | .uncontractedDeposit d => d.wellFormed
  | .pacingWindow die => decide (die < 16)
  | .reservedWindow md => decide (md < 4)
  | .semIncrementRelease p sem => decide (p < 16) && decide (sem < 256)
  | .semGrant p sem => decide (p < 16) && decide (sem < 256)
  | .semTimeout g => decide (g < 1280)
  | .fenceComplete g _ => decide (g < 1280)
  | .predicateResolve g => decide (g < 1280)
  | .shadowOpen g space page pred => decide (g < 1280) && decide (space < 2) && decide (page < 65536) && decide (pred < 256)
  | .frameFreed g space frame => decide (g < 1280) && decide (space < 2) && decide (frame < 65536)
  | .shadowDrained g space frame => decide (g < 1280) && decide (space < 2) && decide (frame < 65536)
  | .dieTreeOutput die => decide (die < 16)
  | .partitionDone p => decide (p < 16)
  | .bcastUnitIssue die grp => decide (die < 16) && decide (grp < 16)
  | .tileBcastTimeout die grp => decide (die < 16) && decide (grp < 16)
  | .walkStart p k _ => decide (p < 16) && decide (k < 16)
  | .walkEntryFetch p w n => decide (p < 16) && decide (w < 128) && decide (n < 65)
  | .walkSlotFill p w => decide (p < 16) && decide (w < 128)
  | .bankRetry g => decide (g < 1280)
  | .scratchScrub g bank upsets => decide (g < 1280) && decide (bank < 16) && upsets.all (Upset.wellFormed 32768 16)
  | .stratusRetry die idle upsets => decide (die < 16) && decide (idle < 4294967296) && upsets.all (Upset.wellFormed 8388608 8)
  | .unscheduledStratusGrant die idle chan arrived => decide (die < 16) && decide (idle < 4294967296) && decide (chan < 64) && arrived.all StratusAccess.wellFormed
  | .stratusScrub die chan upsets => decide (die < 16) && decide (chan < 64) && upsets.all (Upset.wellFormed 8388608 8)
  | .dieClear die => decide (die < 16)
  | .dieClearDone die => decide (die < 16)
  | .lineRead p addr len hint _ errs tagFail => decide (p < 16) && decide (addr < 144115188075855872) && decide (len < 65536) && decide (hint < 5) && errs.all (fun x => decide (x.block < 257) && decide (x.symbol < 136)) && tagFail.all (fun x => decide (x < 16))
  | .lineWrite p addr hint _ _ _ => decide (p < 16) && decide (addr < 144115188075855872) && decide (hint < 5)
  | .streamWriteMerge p addr => decide (p < 16) && decide (addr < 144115188075855872)
  | .mscCleanRange p _ _ => decide (p < 16)
  | .mscDiscardRange p _ _ => decide (p < 16)
  | .mscCleanDiscardRange p _ _ => decide (p < 16)
  | .mscDiscardWays p => decide (p < 16)
  | .mscCleanWays p => decide (p < 16)
  | .mscMaintDone md p => decide (md < 4) && decide (p < 16)
  | .drizzleRead p addr errs => decide (p < 16) && decide (addr < 144115188075855872) && errs.all (fun x => decide (x.block < 257) && decide (x.symbol < 136))
  | .drizzleWrite p addr _ _ => decide (p < 16) && decide (addr < 144115188075855872)
  | .refresh group _ => decide (group < 16)
  | .memRequestTimeout group channel => decide (group < 16) && decide (channel < 24)
  | .hostRead p window _ len => decide (p < 16) && decide (window < 64) && decide (len < 65536)
  | .hostReadComplete _ _ _ => true
  | .hostWrite p window _ _ => decide (p < 16) && decide (window < 64)
  | .move p obj tier addr sem => decide (p < 16) && decide (obj < 4294967296) && decide (tier < 4) && decide (addr < 144115188075855872) && decide (sem < 256)
  | .moveComplete p obj => decide (p < 16) && decide (obj < 4294967296)
  | .moveAbort p obj => decide (p < 16) && decide (obj < 4294967296)
  | .moveRelease p obj => decide (p < 16) && decide (obj < 4294967296)
  | .prefetchRecord p => decide (p < 16)
  | .prefetchRetry p => decide (p < 16)
  | .scaleAdvance p sem => decide (p < 16) && decide (sem < 256)
  | .scaleAdvanceDone p => decide (p < 16)
  | .decode r _ => r.wellFormed
  | .flush r _ => r.wellFormed
  | .reset r _ => r.wellFormed
  | .release r _ => r.wellFormed
  | .encode r _ => r.wellFormed
  | .analyse r _ => r.wellFormed
  | .key r _ => r.wellFormed
  | .pictureStart e _ => decide (e < 18)
  | .bufferUnpark p pool => decide (p < 16) && decide (pool < 4)
  | .pictureEnd e _ => decide (e < 18)
  | .outputUnpark p ctx => decide (p < 16) && decide (ctx < 1048576)
  | .decodeBudgetAbort e _ => decide (e < 18)
  | .drainEnd p ctx => decide (p < 16) && decide (ctx < 1048576)
  | .encodeSlice e _ _ _ qp _ => decide (e < 18) && decide (qp < 256)
  | .sample r _ => r.wellFormed
  | .lookup r _ => r.wellFormed
  | .sampleRecordTake p ctx => decide (p < 16) && decide (ctx < 1048576)
  | .writerFrameDone p ctx _ _ => decide (p < 16) && decide (ctx < 1048576)
  | .ethFrameReceive port _ => decide (port < 32)
  | .ocIcmpReply port _ => decide (port < 32)
  | .data _ => true
  | .getReq _ => true
  | .signal _ => true
  | .ack _ _ => true
  | .nak _ => true
  | .hello _ => true
  | .reply _ => true
  | .rekey _ => true
  | .rekeyReply _ => true
  | .close _ => true
  | .nctPut r _ => r.wellFormed
  | .nctGet r _ => r.wellFormed
  | .nctSignal r _ => r.wellFormed
  | .nctFence r _ => r.wellFormed
  | .nctOpen r _ => r.wellFormed
  | .nctClose r _ => r.wellFormed
  | .nctClearError r _ => r.wellFormed
  | .nctFenceComplete sess => decide (sess < 65536)
  | .packetTransmit sess _ _ _ => decide (sess < 65536)
  | .netCreditAvailable nd _ => decide (nd < 2)
  | .ackTimer sess => decide (sess < 65536)
  | .retransmitTimeout sess _ => decide (sess < 65536)
  | .helloTimeout sess => decide (sess < 65536)
  | .sessionFail sess => decide (sess < 65536)
  | .closeTimeout sess => decide (sess < 65536)
  | .oldKeyExpiry sess => decide (sess < 65536)
  | .rekeyStart sess => decide (sess < 65536)
  | .rnrResend sess _ => decide (sess < 65536)
  | .allReduce r _ => r.wellFormed
  | .reduceScatter r _ => r.wellFormed
  | .allGather r _ => r.wellFormed
  | .allToAll r _ => r.wellFormed
  | .permute r _ => r.wellFormed
  | .broadcast r _ => r.wellFormed
  | .collCallStart p comm => decide (p < 16) && decide (comm < 65536)
  | .permuteStart p => decide (p < 16)
  | .collPacket _ => true
  | .announce _ => true
  | .epochClosed _ => true
  | .mismatch _ => true
  | .collAbort _ => true
  | .place _ => true
  | .collCallComplete p comm seq => decide (p < 16) && decide (comm < 65536) && decide (seq < 4294967296)
  | .form c _ p => c.wellFormed && decide (p < 16)
  | .teardown c _ p => c.wellFormed && decide (p < 16)
  | .replaceDie c _ p => c.wellFormed && decide (p < 16)
  | .scrubDone p item => decide (p < 16) && decide (item < 10)
  | .queueEnable c _ p _ _ => c.wellFormed && decide (p < 16)
  | .doorbell p q tail => decide (p < 16) && decide (q < 64) && decide (tail < 4294967296)
  | .entryIssue p q _ => decide (p < 16) && decide (q < 64)
  | .jobStart p q _ => decide (p < 16) && decide (q < 64)
  | .completionRingSpace p => decide (p < 16)
  | .preempt p q => decide (p < 16) && decide (q < 64)
  | .switchQuiesced p => decide (p < 16)
  | .switchSaved p => decide (p < 16)
  | .jobResume p => decide (p < 16)
  | .pageSemSignal p seq cnt sem => decide (p < 16) && decide (seq < 4294967296) && decide (cnt < 65536) && decide (sem < 256)
  | .blockClockStop c tag _ => c.wellFormed && decide (tag < 65536)
  | .blockPowerOff c tag _ => c.wellFormed && decide (tag < 65536)
  | .secBlockOwnerWrite c tag _ => c.wellFormed && decide (tag < 65536)
  | .entropyHealthFail => true
  | .drbgReseed => true
  | .loadTargetWrite c _ p _ => c.wellFormed && decide (p < 16)
  | .loadWrite p _ _ => decide (p < 16)
  | .attestNonce c tag p _ => c.wellFormed && decide (tag < 65536) && p.all (fun x => decide (x < 16))
  | .attestReportSigned _ p => p.all (fun x => decide (x < 16))
  | .getVersion => true
  | .getCapabilities => true
  | .negotiateAlgorithms => true
  | .getDigests => true
  | .getCertificate slot _ len => decide (slot < 8) && decide (len < 65536)
  | .getMeasurements index _ => decide (index < 256)
  | .spdmUnsupported _ => true
  | .fwImageWrite c _ _ => c.wellFormed
  | .fwActivateOc c tag => c.wellFormed && decide (tag < 65536)
  | .fwActivateAtReset c tag => c.wellFormed && decide (tag < 65536)
  | .fwRaiseSvn c tag => c.wellFormed && decide (tag < 65536)
  | .ocActivation => true
  | .ocRestartTimeout => true
  | .debugToken c tag _ _ => c.wellFormed && decide (tag < 65536)
  | .read c _ => c.wellFormed
  | .readSegment c _ => c.wellFormed
  | .abort c _ => c.wellFormed
  | .domWriteSegment c _ => c.wellFormed
  | .registerWrite c _ => c.wellFormed
  | .storeCommit _ => true
  | .snapshotExpiry c index sub tag => c.wellFormed && decide (index < 65536) && decide (sub < 256) && decide (tag < 65536)
  | .writeTransferExpiry c index sub tag => c.wellFormed && decide (index < 65536) && decide (sub < 256) && decide (tag < 65536)
  | .mailboxDoorbell page _ vector => decide (page < 17) && decide (vector < 2 ^ 32)
  | .mctpMessage _ => true
  | .mgmtDatagram _ => true
  | .keptResponseExpiry _ port tag => decide (port < 65536) && decide (tag < 65536)
  | .mgmtArpIcmp _ _ => true
  | .anemSelectWrite c _ _ _ => c.wellFormed
  | .commRestoreDefaults c tag _ => c.wellFormed && decide (tag < 65536)
  | .containment p => decide (p < 16)
  | .partitionReset p => decide (p < 16)
  | .spareSwap die cell => decide (die < 16) && decide (cell < 84)
  | .groupRetire group => decide (group < 16)
  | .engineReset _ e => decide (e < 26)
  | .dieReset unit => decide (unit < 4)
  | .moduleReset _ fatal => decide (fatal < 7)
  | .recoveryDone => true
  | .recoveryTimeout => true
  | .errPartReset c tag _ => c.wellFormed && decide (tag < 65536)
  | .errSpareSwap c tag _ => c.wellFormed && decide (tag < 65536)
  | .errGroupRetire c tag _ => c.wellFormed && decide (tag < 65536)
  | .almanacCommit n => decide (n < 65)
  | .almanacWindowRead c tag => c.wellFormed && decide (tag < 65536)
  | .almClear c tag _ => c.wellFormed && decide (tag < 65536)
  | .almanacEraseDone => true
  | .modEnRise _ => true
  | .modEnFall => true
  | .inputOutOfRange => true
  | .modResetAssert => true
  | .modResetRelease _ _ => true
  | .perstAssert => true
  | .perstRelease _ _ => true
  | .railsGood _ _ _ => true
  | .slotStartTimeout _ => true
  | .bootStepTimeout _ => true
  | .ocReady _ => true
  | .trainingRoundDone _ _ _ _ => true
  | .retrainTrigger group => decide (group < 16)
  | .retrainDrift group => decide (group < 16)
  | .memGroupRetrain c tag _ => c.wellFormed && decide (tag < 65536)
  | .retrainDone group _ => decide (group < 16)
  | .ethLinkUp port => decide (port < 32)
  | .ethLinkDown port => decide (port < 32)
  | .portRestart port => decide (port < 8)
  | .pcieLinkUp _ _ _ => true
  | .pcieLinkDown => true
  | .marginEdges c _ _ => c.wellFormed
  | .marginMap c _ _ => c.wellFormed
  | .marginPcieLane c _ _ => c.wellFormed
  | .marginDone _ _ => true
  | .eyeRefresh lane _ => decide (lane < 64)
  | .pinFunctionWrite c _ _ _ => c.wellFormed
  | .pinSwitchComplete pin => decide (pin < 32)
  | .powerAverageTick _ _ _ => true
  | .dieTempSample _ _ => true
  | .powerLimitFence _ => true
  | .powerLimitShutdown _ => true
  | .thermalTrip => true
  | .refclkLoss _ => true
  | .refclkReturn _ => true
  | .inputInRange _ => true
  | .keyStoreHandshake => true
  | .eidAssignment binding _ eid => decide (binding < 2) && decide (eid < 256)
  | .configurationRequest _ => true
  | .laneMarginingRequest lane _ steps errors => decide (lane < 16) && decide (steps < 64) && decide (errors < 64)

end Sys2Proof
end

