-- ==== Sys2Proof/Tests/Slice0.lean ====
section
/-!
SUPPORT. Tests: what the commands' operands may be, words written out from the bundle's tables, the spec's worked
examples, and for each statement of Certificates/Slice0/Obligations.lean a state and operands that meet its hypotheses.
-/

set_option Elab.async false

namespace Sys2Proof.Tests

open Sys2Proof.Machine

/-! ## Operands -/

def callerO : Caller := ⟨.O, 0, 0⟩
def ref0 : ReqRef := ⟨0, 0, 0⟩
def aPkt : Pkt := ⟨1, false, false, 0, 0, 0, 0, 0, 0, 1, 0, 0, [], false, false, []⟩
def aShake : Shake := ⟨0, 0, 0, 0, [], true, true, 0, 0⟩

/-- A frame of 100 bytes for partition 0 with an NCT packet's header and payload. -/
def frameOf (k : Pkt) : EthFrame := ⟨100, false, false, true, some 0, false, none, true, true, headerOf k, k.payload, k.ce, k.response, k.poison⟩

def aFrame : EthFrame := frameOf aPkt
def aPicStart : PicStart := ⟨0, 0, none, [], 0, none, false⟩
def aPicEnd : PicEnd :=
  ⟨0, [], [], [], none, false, 0, [], [], [], [], false, [], [], [], false, false, 0, 0, false, false, true, false⟩
def anImage : FwImage := ⟨false, true, 0, 0, 0⟩
def anMctp : Mctp := ⟨2, false, 0, 0, false, true, true, []⟩
def aDatagram : Datagram := ⟨0, 0, 0, []⟩
def aBoot : BootIn := ⟨true, true, []⟩

theorem test_wellformed_0 :
    [(.fabricCrcFail 1 1 : Instr), .fabricCreditReturn 1 1 1 [], .cclkWrite callerO 1 1 1, .clockHold 1,
     .clockHoldEnd 1, .bundleIssue 1 none 1 [] [], .issueResume 1 1, .nop 1, .semWait 1 1, .semSignal 1 1 1,
     .fence 1, .fencePredicate 1 1, .setcnt 1 1 1, .loop 1 1 1, .amaxflush 1, .done 1, .mload 1 1 1,
     .mloadComplete 1, .mswap 1, .mmac 1 1 1 1 1, .mmacz 1 1 1 1 1, .vadd 1 1 1 1 1 1, .vsub 1 1 1 1 1 1,
     .vmul 1 1 1 1 1 1, .vfma 1 1 1 1 1 1 1, .vmax 1 1 1 1 1 1, .vmin 1 1 1 1 1 1, .viadd 1 1 1 1 1,
     .visub 1 1 1 1 1, .vimul 1 1 1 1 1, .vand 1 1 1 1 1, .vor 1 1 1 1 1, .vxor 1 1 1 1 1, .vshl 1 1 1 1 1,
     .vshr 1 1 1 1 1, .vbcast 1 1 1 1, .vcmplt 1 1 1 1 1 1, .vcmpeq 1 1 1 1 1 1, .vsel 1 1 1 1 1 1, .vrsum 1 1 1 1 1,
     .vrmax 1 1 1 1 1, .vexp2 1 1 1 1 1, .vlog2 1 1 1 1 1, .vrsqrt 1 1 1 1 1, .vrcp 1 1 1 1 1, .vsin 1 1 1 1 1,
     .vcos 1 1 1 1 1, .vcvt 1 1 1 1 1 1 1 1, .vcvtmx 1 1 1 1 1 1 1 1, .amaxCountMerge 1 1, .vrand 1 1 1,
     .vrandu 1 1 1, .vld 1 1 1 1, .vst 1 1 1 1, .sstartIn 1 1 1 1 1, .sstopIn 1 1, .sstartOut 1 1 1 1 1,
     .sstopOut 1 1, .streamEnd 1 false 1, .farRequestIssue 1 1, .unitArrival 1 1, .contractDeposit 1 1,
     .uncontractedDeposit (.unit 0 0), .pacingWindow 1, .reservedWindow 1, .semIncrementRelease 1 1].all Instr.wellFormed = true := by
  decide +kernel

theorem test_wellformed_1 :
    [(.semGrant 1 1 : Instr), .semTimeout 1, .fenceComplete 1 1, .predicateResolve 1, .shadowOpen 1 1 1 1,
     .frameFreed 1 1 1, .shadowDrained 1 1 1, .dieTreeOutput 1, .partitionDone 1, .bcastUnitIssue 1 1,
     .tileBcastTimeout 1 1, .walkStart 1 1 [], .walkEntryFetch 1 1 1, .walkSlotFill 1 1, .bankRetry 1,
     .scratchScrub 1 1 [], .stratusRetry 1 1 [], .unscheduledStratusGrant 1 1 1 [], .stratusScrub 1 1 [],
     .dieClear 1, .dieClearDone 1, .lineRead 1 1 1 1 false [] none, .lineWrite 1 1 1 .control [] false,
     .streamWriteMerge 1 1, .mscCleanRange 1 1 1, .mscDiscardRange 1 1 1, .mscCleanDiscardRange 1 1 1,
     .mscDiscardWays 1, .mscCleanWays 1, .mscMaintDone 1 1, .drizzleRead 1 1 [], .drizzleWrite 1 1 [] false,
     .refresh 1 1, .memRequestTimeout 1 1, .hostRead 1 1 1 1, .hostReadComplete 1 false [], .hostWrite 1 1 1 [],
     .move 1 1 1 1 1, .moveComplete 1 1, .moveAbort 1 1, .moveRelease 1 1, .prefetchRecord 1, .prefetchRetry 1,
     .scaleAdvance 1 1, .scaleAdvanceDone 1, .decode ref0 [], .flush ref0 [], .reset ref0 [], .release ref0 [],
     .encode ref0 [], .analyse ref0 [], .key ref0 [], .pictureStart 1 aPicStart, .bufferUnpark 1 1,
     .pictureEnd 1 aPicEnd, .outputUnpark 1 1, .decodeBudgetAbort 1 1, .drainEnd 1 1, .encodeSlice 1 [] [] [] 1 1,
     .sample ref0 [], .lookup ref0 [], .sampleRecordTake 1 1, .writerFrameDone 1 1 ⟨none, none⟩ 1,
     .ethFrameReceive 1 aFrame, .ocIcmpReply 1 ⟨true, true⟩, .data aPkt].all Instr.wellFormed = true := by
  decide +kernel

theorem test_wellformed_2 :
    [(.getReq aPkt : Instr), .signal aPkt, .ack aPkt 1, .nak aPkt, .hello aShake, .reply aShake, .rekey aPkt,
     .rekeyReply aPkt, .close aPkt, .nctPut ref0 [], .nctGet ref0 [], .nctSignal ref0 [], .nctFence ref0 [],
     .nctOpen ref0 [], .nctClose ref0 [], .nctClearError ref0 [], .nctFenceComplete 1,
     .packetTransmit 1 1 false false, .netCreditAvailable 1 1, .ackTimer 1, .retransmitTimeout 1 1, .helloTimeout 1,
     .sessionFail 1, .closeTimeout 1, .oldKeyExpiry 1, .rekeyStart 1, .rnrResend 1 1, .allReduce ref0 [],
     .reduceScatter ref0 [], .allGather ref0 [], .allToAll ref0 [], .permute ref0 [], .broadcast ref0 [],
     .collCallStart 1 1, .permuteStart 1, .collPacket aPkt, .announce aPkt, .epochClosed aPkt, .mismatch aPkt,
     .collAbort aPkt, .place aPkt, .collCallComplete 1 1 1, .form callerO 1 1, .teardown callerO 1 1,
     .replaceDie callerO 1 1, .scrubDone 1 1, .queueEnable callerO 1 1 1 1, .doorbell 1 1 1, .entryIssue 1 1 1,
     .jobStart 1 1 1, .completionRingSpace 1, .preempt 1 1, .switchQuiesced 1, .switchSaved 1, .jobResume 1,
     .pageSemSignal 1 1 1 1, .blockClockStop callerO 1 1, .blockPowerOff callerO 1 1,
     .secBlockOwnerWrite callerO 1 1, .entropyHealthFail, .drbgReseed, .loadTargetWrite callerO 1 1 1,
     .loadWrite 1 1 [], .attestNonce callerO 1 none [], .attestReportSigned .O none, .getVersion].all Instr.wellFormed = true := by
  decide +kernel

theorem test_wellformed_3 :
    [(.getCapabilities : Instr), .negotiateAlgorithms, .getDigests, .getCertificate 1 1 1, .getMeasurements 1 false,
     .spdmUnsupported 1, .fwImageWrite callerO [] anImage, .fwActivateOc callerO 1, .fwActivateAtReset callerO 1,
     .fwRaiseSvn callerO 1, .ocActivation, .ocRestartTimeout, .debugToken callerO 1 [] false, .read callerO [],
     .readSegment callerO [], .abort callerO [], .domWriteSegment callerO [], .registerWrite callerO [],
     .storeCommit false, .snapshotExpiry callerO 1 1 1, .writeTransferExpiry callerO 1 1 1, .mailboxDoorbell 1 [] 1,
     .mctpMessage anMctp, .mgmtDatagram aDatagram, .keptResponseExpiry 1 1 1, .mgmtArpIcmp false 1,
     .anemSelectWrite callerO 1 1 1, .commRestoreDefaults callerO 1 1, .containment 1, .partitionReset 1,
     .spareSwap 1 1, .groupRetire 1, .engineReset false 1, .dieReset 1, .moduleReset aBoot 1, .recoveryDone,
     .recoveryTimeout, .errPartReset callerO 1 1, .errSpareSwap callerO 1 1, .errGroupRetire callerO 1 1,
     .almanacCommit 1, .almanacWindowRead callerO 1, .almClear callerO 1 1, .almanacEraseDone, .modEnRise 1,
     .modEnFall, .inputOutOfRange, .modResetAssert, .modResetRelease 1 aBoot, .perstAssert, .perstRelease 1 aBoot,
     .railsGood 1 1 aBoot, .slotStartTimeout false, .bootStepTimeout 1, .ocReady 1, .trainingRoundDone [] [] 1 1,
     .retrainTrigger 1, .retrainDrift 1, .memGroupRetrain callerO 1 1, .retrainDone 1 false, .ethLinkUp 1,
     .ethLinkDown 1, .portRestart 1, .pcieLinkUp 1 1 false, .pcieLinkDown, .marginEdges callerO 1 1].all Instr.wellFormed = true := by
  decide +kernel

theorem test_wellformed_4 :
    [(.marginMap callerO 1 1 : Instr), .marginPcieLane callerO 1 1, .marginDone [] 1, .eyeRefresh 1 1,
     .pinFunctionWrite callerO 1 1 1, .pinSwitchComplete 1, .powerAverageTick 1 1 1, .dieTempSample [] 0,
     .powerLimitFence 1, .powerLimitShutdown 1, .thermalTrip, .refclkLoss .ref25, .refclkReturn .ref25,
     .inputInRange false, .keyStoreHandshake, .eidAssignment 1 false 1, .configurationRequest ⟨0, none⟩,
     .laneMarginingRequest 1 1 1 1].all Instr.wellFormed = true := by
  decide +kernel

theorem test_illformed_0 :
    [(.fabricCrcFail 49 1 : Instr), .fabricCreditReturn 49 1 1 [], .fabricCreditReturn 1 49 1 [],
     .fabricCreditReturn 1 1 3 [], .fabricCreditReturn 1 1 1 [3], .cclkWrite ⟨.P 16, 1, 0⟩ 1 1 1,
     .cclkWrite ⟨.O, 5, 0⟩ 1 1 1, .cclkWrite callerO 1 16 1, .clockHold 16, .clockHoldEnd 16,
     .bundleIssue 1280 none 1 [] [], .bundleIssue 1 none 5 [] [], .bundleIssue 1 none 1 [⟨32768, 0, false⟩] [],
     .bundleIssue 1 none 1 [⟨0, 16, false⟩] [], .bundleIssue 1 none 1 [] [⟨16, 0, none, false⟩],
     .bundleIssue 1 none 1 [] [⟨0, 2097152, none, false⟩], .bundleIssue 1 none 1 [] [⟨0, 0, some (0, [1]), false⟩],
     .issueResume 1280 1, .nop 1280, .semWait 1280 1, .semWait 1 256, .semSignal 1280 1 1, .semSignal 1 256 1,
     .semSignal 1 1 257, .semSignal 1 1 0, .fence 1280, .fencePredicate 1280 1, .fencePredicate 1 256,
     .setcnt 1280 1 1, .setcnt 1 4 1, .setcnt 1 1 1048576, .loop 1280 1 1, .loop 1 4 1, .loop 1 1 4096,
     .amaxflush 1280, .done 1280, .mload 1280 1 1, .mload 1 16 1, .mload 1 1 4, .mloadComplete 1280].any Instr.wellFormed = false := by
  decide +kernel

theorem test_illformed_1 :
    [(.mswap 1280 : Instr), .mmac 1280 1 1 1 1, .mmac 1 16 1 1 1, .mmac 1 1 4 1 1, .mmac 1 1 1 64 1, .mmac 1 1 1 1 4,
     .mmacz 1280 1 1 1 1, .mmacz 1 16 1 1 1, .mmacz 1 1 4 1 1, .mmacz 1 1 1 64 1, .mmacz 1 1 1 1 4,
     .vadd 1280 1 1 1 1 1, .vadd 1 64 1 1 1 1, .vadd 1 1 64 1 1 1, .vadd 1 1 1 64 1 1, .vadd 1 1 1 1 8 1,
     .vadd 1 1 1 1 1 8, .vsub 1280 1 1 1 1 1, .vsub 1 64 1 1 1 1, .vsub 1 1 64 1 1 1, .vsub 1 1 1 64 1 1,
     .vsub 1 1 1 1 8 1, .vsub 1 1 1 1 1 8, .vmul 1280 1 1 1 1 1, .vmul 1 64 1 1 1 1, .vmul 1 1 64 1 1 1,
     .vmul 1 1 1 64 1 1, .vmul 1 1 1 1 8 1, .vmul 1 1 1 1 1 8, .vfma 1280 1 1 1 1 1 1, .vfma 1 64 1 1 1 1 1,
     .vfma 1 1 64 1 1 1 1, .vfma 1 1 1 64 1 1 1, .vfma 1 1 1 1 64 1 1, .vfma 1 1 1 1 1 8 1, .vfma 1 1 1 1 1 1 8,
     .vmax 1280 1 1 1 1 1, .vmax 1 64 1 1 1 1, .vmax 1 1 64 1 1 1, .vmax 1 1 1 64 1 1].any Instr.wellFormed = false := by
  decide +kernel

theorem test_illformed_2 :
    [(.vmax 1 1 1 1 8 1 : Instr), .vmax 1 1 1 1 1 8, .vmin 1280 1 1 1 1 1, .vmin 1 64 1 1 1 1, .vmin 1 1 64 1 1 1,
     .vmin 1 1 1 64 1 1, .vmin 1 1 1 1 8 1, .vmin 1 1 1 1 1 8, .viadd 1280 1 1 1 1, .viadd 1 64 1 1 1,
     .viadd 1 1 64 1 1, .viadd 1 1 1 64 1, .viadd 1 1 1 1 8, .visub 1280 1 1 1 1, .visub 1 64 1 1 1,
     .visub 1 1 64 1 1, .visub 1 1 1 64 1, .visub 1 1 1 1 8, .vimul 1280 1 1 1 1, .vimul 1 64 1 1 1,
     .vimul 1 1 64 1 1, .vimul 1 1 1 64 1, .vimul 1 1 1 1 8, .vand 1280 1 1 1 1, .vand 1 64 1 1 1, .vand 1 1 64 1 1,
     .vand 1 1 1 64 1, .vand 1 1 1 1 8, .vor 1280 1 1 1 1, .vor 1 64 1 1 1, .vor 1 1 64 1 1, .vor 1 1 1 64 1,
     .vor 1 1 1 1 8, .vxor 1280 1 1 1 1, .vxor 1 64 1 1 1, .vxor 1 1 64 1 1, .vxor 1 1 1 64 1, .vxor 1 1 1 1 8,
     .vshl 1280 1 1 1 1, .vshl 1 64 1 1 1].any Instr.wellFormed = false := by
  decide +kernel

theorem test_illformed_3 :
    [(.vshl 1 1 64 1 1 : Instr), .vshl 1 1 1 64 1, .vshl 1 1 1 1 8, .vshr 1280 1 1 1 1, .vshr 1 64 1 1 1,
     .vshr 1 1 64 1 1, .vshr 1 1 1 64 1, .vshr 1 1 1 1 8, .vbcast 1280 1 1 1, .vbcast 1 64 1 1, .vbcast 1 1 4096 1,
     .vbcast 1 1 1 8, .vcmplt 1280 1 1 1 1 1, .vcmplt 1 8 1 1 1 1, .vcmplt 1 1 64 1 1 1, .vcmplt 1 1 1 64 1 1,
     .vcmplt 1 1 1 1 8 1, .vcmplt 1 1 1 1 1 8, .vcmpeq 1280 1 1 1 1 1, .vcmpeq 1 8 1 1 1 1, .vcmpeq 1 1 64 1 1 1,
     .vcmpeq 1 1 1 64 1 1, .vcmpeq 1 1 1 1 8 1, .vcmpeq 1 1 1 1 1 8, .vsel 1280 1 1 1 1 1, .vsel 1 64 1 1 1 1,
     .vsel 1 1 64 1 1 1, .vsel 1 1 1 64 1 1, .vsel 1 1 1 1 8 1, .vsel 1 1 1 1 1 8, .vrsum 1280 1 1 1 1,
     .vrsum 1 64 1 1 1, .vrsum 1 1 64 1 1, .vrsum 1 1 1 8 1, .vrsum 1 1 1 1 8, .vrmax 1280 1 1 1 1,
     .vrmax 1 64 1 1 1, .vrmax 1 1 64 1 1, .vrmax 1 1 1 8 1, .vrmax 1 1 1 1 8].any Instr.wellFormed = false := by
  decide +kernel

theorem test_illformed_4 :
    [(.vexp2 1280 1 1 1 1 : Instr), .vexp2 1 64 1 1 1, .vexp2 1 1 64 1 1, .vexp2 1 1 1 8 1, .vexp2 1 1 1 1 8,
     .vlog2 1280 1 1 1 1, .vlog2 1 64 1 1 1, .vlog2 1 1 64 1 1, .vlog2 1 1 1 8 1, .vlog2 1 1 1 1 8,
     .vrsqrt 1280 1 1 1 1, .vrsqrt 1 64 1 1 1, .vrsqrt 1 1 64 1 1, .vrsqrt 1 1 1 8 1, .vrsqrt 1 1 1 1 8,
     .vrcp 1280 1 1 1 1, .vrcp 1 64 1 1 1, .vrcp 1 1 64 1 1, .vrcp 1 1 1 8 1, .vrcp 1 1 1 1 8, .vsin 1280 1 1 1 1,
     .vsin 1 64 1 1 1, .vsin 1 1 64 1 1, .vsin 1 1 1 8 1, .vsin 1 1 1 1 8, .vcos 1280 1 1 1 1, .vcos 1 64 1 1 1,
     .vcos 1 1 64 1 1, .vcos 1 1 1 8 1, .vcos 1 1 1 1 8, .vcvt 1280 1 1 1 1 1 1 1, .vcvt 1 64 1 1 1 1 1 1,
     .vcvt 1 1 64 1 1 1 1 1, .vcvt 1 1 1 8 1 1 1 1, .vcvt 1 1 1 1 8 1 1 1, .vcvt 1 1 1 1 1 4 1 1,
     .vcvt 1 1 1 1 1 1 4096 1, .vcvt 1 1 1 1 1 1 1 16, .vcvtmx 1280 1 1 1 1 1 1 1, .vcvtmx 1 64 1 1 1 1 1 1].any Instr.wellFormed = false := by
  decide +kernel

theorem test_illformed_5 :
    [(.vcvtmx 1 1 64 1 1 1 1 1 : Instr), .vcvtmx 1 1 1 8 1 1 1 1, .vcvtmx 1 1 1 1 8 1 1 1, .vcvtmx 1 1 1 1 1 4 1 1,
     .vcvtmx 1 1 1 1 1 1 4096 1, .vcvtmx 1 1 1 1 1 1 1 16, .amaxCountMerge 1280 1, .amaxCountMerge 1 4096,
     .vrand 1280 1 1, .vrand 1 64 1, .vrand 1 1 8, .vrandu 1280 1 1, .vrandu 1 64 1, .vrandu 1 1 8, .vld 1280 1 1 1,
     .vld 1 64 1 1, .vld 1 1 4096 1, .vld 1 1 1 8, .vst 1280 1 1 1, .vst 1 64 1 1, .vst 1 1 4096 1, .vst 1 1 1 8,
     .sstartIn 1280 1 1 1 1, .sstartIn 1 4 1 1 1, .sstartIn 1 1 32768 1 1, .sstartIn 1 1 1 2 1,
     .sstartIn 1 1 1 1 32768, .sstopIn 1280 1, .sstopIn 1 4, .sstartOut 1280 1 1 1 1, .sstartOut 1 2 1 1 1,
     .sstartOut 1 1 32768 1 1, .sstartOut 1 1 1 4 1, .sstartOut 1 1 1 1 32768, .sstopOut 1280 1, .sstopOut 1 2,
     .streamEnd 1280 false 1, .streamEnd 1 false 4, .farRequestIssue 1280 1, .farRequestIssue 1 4].any Instr.wellFormed = false := by
  decide +kernel

theorem test_illformed_6 :
    [(.unitArrival 1280 1 : Instr), .unitArrival 1 4, .contractDeposit 1280 1, .contractDeposit 1 4,
     .uncontractedDeposit (.unit 1280 0), .uncontractedDeposit (.unit 0 4),
     .uncontractedDeposit (.write none 1280 0 [] false), .uncontractedDeposit (.write none 0 2097151 [1, 2] false),
     .pacingWindow 16, .reservedWindow 4, .semIncrementRelease 16 1, .semIncrementRelease 1 256, .semGrant 16 1,
     .semGrant 1 256, .semTimeout 1280, .fenceComplete 1280 1, .predicateResolve 1280, .shadowOpen 1280 1 1 1,
     .shadowOpen 1 2 1 1, .shadowOpen 1 1 65536 1, .shadowOpen 1 1 1 256, .frameFreed 1280 1 1, .frameFreed 1 2 1,
     .frameFreed 1 1 65536, .shadowDrained 1280 1 1, .shadowDrained 1 2 1, .shadowDrained 1 1 65536,
     .dieTreeOutput 16, .partitionDone 16, .bcastUnitIssue 16 1, .bcastUnitIssue 1 16, .tileBcastTimeout 16 1,
     .tileBcastTimeout 1 16, .walkStart 16 1 [], .walkStart 1 16 [], .walkEntryFetch 16 1 1, .walkEntryFetch 1 128 1,
     .walkEntryFetch 1 1 65, .walkSlotFill 16 1, .walkSlotFill 1 128].any Instr.wellFormed = false := by
  decide +kernel

theorem test_illformed_7 :
    [(.bankRetry 1280 : Instr), .scratchScrub 1280 1 [], .scratchScrub 1 16 [],
     .scratchScrub 1 1 [⟨32768, 0, false⟩], .scratchScrub 1 1 [⟨0, 16, false⟩], .stratusRetry 16 1 [],
     .stratusRetry 1 4294967296 [], .stratusRetry 1 1 [⟨8388608, 0, false⟩], .stratusRetry 1 1 [⟨0, 8, false⟩],
     .unscheduledStratusGrant 16 1 1 [], .unscheduledStratusGrant 1 4294967296 1 [],
     .unscheduledStratusGrant 1 1 64 [], .unscheduledStratusGrant 1 1 1 [⟨536870912, none⟩],
     .unscheduledStratusGrant 1 1 1 [⟨63, some ([1, 2], false)⟩], .stratusScrub 16 1 [], .stratusScrub 1 64 [],
     .stratusScrub 1 1 [⟨8388608, 0, false⟩], .stratusScrub 1 1 [⟨0, 8, false⟩], .dieClear 16, .dieClearDone 16,
     .lineRead 16 1 1 1 false [] none, .lineRead 1 144115188075855872 1 1 false [] none,
     .lineRead 1 1 65536 1 false [] none, .lineRead 1 1 1 5 false [] none,
     .lineRead 1 1 1 1 false [⟨257, 0, 0⟩] none, .lineRead 1 1 1 1 false [⟨0, 136, 0⟩] none,
     .lineRead 1 1 1 1 false [] (some 16), .lineWrite 16 1 1 .control [] false,
     .lineWrite 1 144115188075855872 1 .control [] false, .lineWrite 1 1 5 .control [] false, .streamWriteMerge 16 1,
     .streamWriteMerge 1 144115188075855872, .mscCleanRange 16 1 1, .mscDiscardRange 16 1 1,
     .mscCleanDiscardRange 16 1 1, .mscDiscardWays 16, .mscCleanWays 16, .mscMaintDone 4 1, .mscMaintDone 1 16,
     .drizzleRead 16 1 []].any Instr.wellFormed = false := by
  decide +kernel

theorem test_illformed_8 :
    [(.drizzleRead 1 144115188075855872 [] : Instr), .drizzleRead 1 1 [⟨257, 0, 0⟩], .drizzleRead 1 1 [⟨0, 136, 0⟩],
     .drizzleWrite 16 1 [] false, .drizzleWrite 1 144115188075855872 [] false, .refresh 16 1,
     .memRequestTimeout 16 1, .memRequestTimeout 1 24, .hostRead 16 1 1 1, .hostRead 1 64 1 1, .hostRead 1 1 1 65536,
     .hostWrite 16 1 1 [], .hostWrite 1 64 1 [], .move 16 1 1 1 1, .move 1 4294967296 1 1 1, .move 1 1 4 1 1,
     .move 1 1 1 144115188075855872 1, .move 1 1 1 1 256, .moveComplete 16 1, .moveComplete 1 4294967296,
     .moveAbort 16 1, .moveAbort 1 4294967296, .moveRelease 16 1, .moveRelease 1 4294967296, .prefetchRecord 16,
     .prefetchRetry 16, .scaleAdvance 16 1, .scaleAdvance 1 256, .scaleAdvanceDone 16, .decode ⟨16, 0, 0⟩ [],
     .decode ⟨0, 64, 0⟩ [], .decode ⟨0, 0, 65536⟩ [], .flush ⟨16, 0, 0⟩ [], .flush ⟨0, 64, 0⟩ [],
     .flush ⟨0, 0, 65536⟩ [], .reset ⟨16, 0, 0⟩ [], .reset ⟨0, 64, 0⟩ [], .reset ⟨0, 0, 65536⟩ [],
     .release ⟨16, 0, 0⟩ [], .release ⟨0, 64, 0⟩ []].any Instr.wellFormed = false := by
  decide +kernel

theorem test_illformed_9 :
    [(.release ⟨0, 0, 65536⟩ [] : Instr), .encode ⟨16, 0, 0⟩ [], .encode ⟨0, 64, 0⟩ [], .encode ⟨0, 0, 65536⟩ [],
     .analyse ⟨16, 0, 0⟩ [], .analyse ⟨0, 64, 0⟩ [], .analyse ⟨0, 0, 65536⟩ [], .key ⟨16, 0, 0⟩ [],
     .key ⟨0, 64, 0⟩ [], .key ⟨0, 0, 65536⟩ [], .pictureStart 18 aPicStart, .bufferUnpark 16 1, .bufferUnpark 1 4,
     .pictureEnd 18 aPicEnd, .outputUnpark 16 1, .outputUnpark 1 1048576, .decodeBudgetAbort 18 1, .drainEnd 16 1,
     .drainEnd 1 1048576, .encodeSlice 18 [] [] [] 1 1, .encodeSlice 1 [] [] [] 256 1, .sample ⟨16, 0, 0⟩ [],
     .sample ⟨0, 64, 0⟩ [], .sample ⟨0, 0, 65536⟩ [], .lookup ⟨16, 0, 0⟩ [], .lookup ⟨0, 64, 0⟩ [],
     .lookup ⟨0, 0, 65536⟩ [], .sampleRecordTake 16 1, .sampleRecordTake 1 1048576,
     .writerFrameDone 16 1 ⟨none, none⟩ 1, .writerFrameDone 1 1048576 ⟨none, none⟩ 1, .ethFrameReceive 32 aFrame,
     .ocIcmpReply 32 ⟨true, true⟩, .nctPut ⟨16, 0, 0⟩ [], .nctPut ⟨0, 64, 0⟩ [], .nctPut ⟨0, 0, 65536⟩ [],
     .nctGet ⟨16, 0, 0⟩ [], .nctGet ⟨0, 64, 0⟩ [], .nctGet ⟨0, 0, 65536⟩ [], .nctSignal ⟨16, 0, 0⟩ []].any Instr.wellFormed = false := by
  decide +kernel

theorem test_illformed_10 :
    [(.nctSignal ⟨0, 64, 0⟩ [] : Instr), .nctSignal ⟨0, 0, 65536⟩ [], .nctFence ⟨16, 0, 0⟩ [],
     .nctFence ⟨0, 64, 0⟩ [], .nctFence ⟨0, 0, 65536⟩ [], .nctOpen ⟨16, 0, 0⟩ [], .nctOpen ⟨0, 64, 0⟩ [],
     .nctOpen ⟨0, 0, 65536⟩ [], .nctClose ⟨16, 0, 0⟩ [], .nctClose ⟨0, 64, 0⟩ [], .nctClose ⟨0, 0, 65536⟩ [],
     .nctClearError ⟨16, 0, 0⟩ [], .nctClearError ⟨0, 64, 0⟩ [], .nctClearError ⟨0, 0, 65536⟩ [],
     .nctFenceComplete 65536, .packetTransmit 65536 1 false false, .netCreditAvailable 2 1, .ackTimer 65536,
     .retransmitTimeout 65536 1, .helloTimeout 65536, .sessionFail 65536, .closeTimeout 65536, .oldKeyExpiry 65536,
     .rekeyStart 65536, .rnrResend 65536 1, .allReduce ⟨16, 0, 0⟩ [], .allReduce ⟨0, 64, 0⟩ [],
     .allReduce ⟨0, 0, 65536⟩ [], .reduceScatter ⟨16, 0, 0⟩ [], .reduceScatter ⟨0, 64, 0⟩ [],
     .reduceScatter ⟨0, 0, 65536⟩ [], .allGather ⟨16, 0, 0⟩ [], .allGather ⟨0, 64, 0⟩ [],
     .allGather ⟨0, 0, 65536⟩ [], .allToAll ⟨16, 0, 0⟩ [], .allToAll ⟨0, 64, 0⟩ [], .allToAll ⟨0, 0, 65536⟩ [],
     .permute ⟨16, 0, 0⟩ [], .permute ⟨0, 64, 0⟩ [], .permute ⟨0, 0, 65536⟩ []].any Instr.wellFormed = false := by
  decide +kernel

theorem test_illformed_11 :
    [(.broadcast ⟨16, 0, 0⟩ [] : Instr), .broadcast ⟨0, 64, 0⟩ [], .broadcast ⟨0, 0, 65536⟩ [], .collCallStart 16 1,
     .collCallStart 1 65536, .permuteStart 16, .collCallComplete 16 1 1, .collCallComplete 1 65536 1,
     .collCallComplete 1 1 4294967296, .form ⟨.P 16, 1, 0⟩ 1 1, .form ⟨.O, 5, 0⟩ 1 1, .form callerO 1 16,
     .teardown ⟨.P 16, 1, 0⟩ 1 1, .teardown ⟨.O, 5, 0⟩ 1 1, .teardown callerO 1 16, .replaceDie ⟨.P 16, 1, 0⟩ 1 1,
     .replaceDie ⟨.O, 5, 0⟩ 1 1, .replaceDie callerO 1 16, .scrubDone 16 1, .scrubDone 1 10,
     .queueEnable ⟨.P 16, 1, 0⟩ 1 1 1 1, .queueEnable ⟨.O, 5, 0⟩ 1 1 1 1, .queueEnable callerO 1 16 1 1,
     .doorbell 16 1 1, .doorbell 1 64 1, .doorbell 1 1 4294967296, .entryIssue 16 1 1, .entryIssue 1 64 1,
     .jobStart 16 1 1, .jobStart 1 64 1, .completionRingSpace 16, .preempt 16 1, .preempt 1 64, .switchQuiesced 16,
     .switchSaved 16, .jobResume 16, .pageSemSignal 16 1 1 1, .pageSemSignal 1 4294967296 1 1,
     .pageSemSignal 1 1 65536 1, .pageSemSignal 1 1 1 256].any Instr.wellFormed = false := by
  decide +kernel

theorem test_illformed_12 :
    [(.blockClockStop ⟨.P 16, 1, 0⟩ 1 1 : Instr), .blockClockStop ⟨.O, 5, 0⟩ 1 1, .blockClockStop callerO 65536 1,
     .blockPowerOff ⟨.P 16, 1, 0⟩ 1 1, .blockPowerOff ⟨.O, 5, 0⟩ 1 1, .blockPowerOff callerO 65536 1,
     .secBlockOwnerWrite ⟨.P 16, 1, 0⟩ 1 1, .secBlockOwnerWrite ⟨.O, 5, 0⟩ 1 1, .secBlockOwnerWrite callerO 65536 1,
     .loadTargetWrite ⟨.P 16, 1, 0⟩ 1 1 1, .loadTargetWrite ⟨.O, 5, 0⟩ 1 1 1, .loadTargetWrite callerO 1 16 1,
     .loadWrite 16 1 [], .attestNonce ⟨.P 16, 1, 0⟩ 1 none [], .attestNonce ⟨.O, 5, 0⟩ 1 none [],
     .attestNonce callerO 65536 none [], .attestNonce callerO 1 (some 16) [], .attestReportSigned .O (some 16),
     .getCertificate 8 1 1, .getCertificate 1 1 65536, .getMeasurements 256 false,
     .fwImageWrite ⟨.P 16, 1, 0⟩ [] anImage, .fwImageWrite ⟨.O, 5, 0⟩ [] anImage, .fwActivateOc ⟨.P 16, 1, 0⟩ 1,
     .fwActivateOc ⟨.O, 5, 0⟩ 1, .fwActivateOc callerO 65536, .fwActivateAtReset ⟨.P 16, 1, 0⟩ 1,
     .fwActivateAtReset ⟨.O, 5, 0⟩ 1, .fwActivateAtReset callerO 65536, .fwRaiseSvn ⟨.P 16, 1, 0⟩ 1,
     .fwRaiseSvn ⟨.O, 5, 0⟩ 1, .fwRaiseSvn callerO 65536, .debugToken ⟨.P 16, 1, 0⟩ 1 [] false,
     .debugToken ⟨.O, 5, 0⟩ 1 [] false, .debugToken callerO 65536 [] false, .read ⟨.P 16, 1, 0⟩ [],
     .read ⟨.O, 5, 0⟩ [], .readSegment ⟨.P 16, 1, 0⟩ [], .readSegment ⟨.O, 5, 0⟩ [], .abort ⟨.P 16, 1, 0⟩ []].any Instr.wellFormed = false := by
  decide +kernel

theorem test_illformed_13 :
    [(.abort ⟨.O, 5, 0⟩ [] : Instr), .domWriteSegment ⟨.P 16, 1, 0⟩ [], .domWriteSegment ⟨.O, 5, 0⟩ [],
     .registerWrite ⟨.P 16, 1, 0⟩ [], .registerWrite ⟨.O, 5, 0⟩ [], .snapshotExpiry ⟨.P 16, 1, 0⟩ 1 1 1,
     .snapshotExpiry ⟨.O, 5, 0⟩ 1 1 1, .snapshotExpiry callerO 65536 1 1, .snapshotExpiry callerO 1 256 1,
     .snapshotExpiry callerO 1 1 65536, .writeTransferExpiry ⟨.P 16, 1, 0⟩ 1 1 1,
     .writeTransferExpiry ⟨.O, 5, 0⟩ 1 1 1, .writeTransferExpiry callerO 65536 1 1,
     .writeTransferExpiry callerO 1 256 1, .writeTransferExpiry callerO 1 1 65536, .mailboxDoorbell 17 [] 1,
     .mailboxDoorbell 1 [] 4294967296, .keptResponseExpiry 1 65536 1, .keptResponseExpiry 1 1 65536,
     .anemSelectWrite ⟨.P 16, 1, 0⟩ 1 1 1, .anemSelectWrite ⟨.O, 5, 0⟩ 1 1 1, .commRestoreDefaults ⟨.P 16, 1, 0⟩ 1 1,
     .commRestoreDefaults ⟨.O, 5, 0⟩ 1 1, .commRestoreDefaults callerO 65536 1, .containment 16, .partitionReset 16,
     .spareSwap 16 1, .spareSwap 1 84, .groupRetire 16, .engineReset false 26, .dieReset 4, .moduleReset aBoot 7,
     .errPartReset ⟨.P 16, 1, 0⟩ 1 1, .errPartReset ⟨.O, 5, 0⟩ 1 1, .errPartReset callerO 65536 1,
     .errSpareSwap ⟨.P 16, 1, 0⟩ 1 1, .errSpareSwap ⟨.O, 5, 0⟩ 1 1, .errSpareSwap callerO 65536 1,
     .errGroupRetire ⟨.P 16, 1, 0⟩ 1 1, .errGroupRetire ⟨.O, 5, 0⟩ 1 1].any Instr.wellFormed = false := by
  decide +kernel

theorem test_illformed_14 :
    [(.errGroupRetire callerO 65536 1 : Instr), .almanacCommit 65, .almanacWindowRead ⟨.P 16, 1, 0⟩ 1,
     .almanacWindowRead ⟨.O, 5, 0⟩ 1, .almanacWindowRead callerO 65536, .almClear ⟨.P 16, 1, 0⟩ 1 1,
     .almClear ⟨.O, 5, 0⟩ 1 1, .almClear callerO 65536 1, .retrainTrigger 16, .retrainDrift 16,
     .memGroupRetrain ⟨.P 16, 1, 0⟩ 1 1, .memGroupRetrain ⟨.O, 5, 0⟩ 1 1, .memGroupRetrain callerO 65536 1,
     .retrainDone 16 false, .ethLinkUp 32, .ethLinkDown 32, .portRestart 8, .marginEdges ⟨.P 16, 1, 0⟩ 1 1,
     .marginEdges ⟨.O, 5, 0⟩ 1 1, .marginMap ⟨.P 16, 1, 0⟩ 1 1, .marginMap ⟨.O, 5, 0⟩ 1 1,
     .marginPcieLane ⟨.P 16, 1, 0⟩ 1 1, .marginPcieLane ⟨.O, 5, 0⟩ 1 1, .eyeRefresh 64 1,
     .pinFunctionWrite ⟨.P 16, 1, 0⟩ 1 1 1, .pinFunctionWrite ⟨.O, 5, 0⟩ 1 1 1, .pinSwitchComplete 32,
     .eidAssignment 2 false 1, .eidAssignment 1 false 256, .laneMarginingRequest 16 1 1 1,
     .laneMarginingRequest 1 1 64 1, .laneMarginingRequest 1 1 1 64].any Instr.wellFormed = false := by
  decide +kernel

/-! ## States that meet the statements' hypotheses -/

/-- A partition of die 0 and group 0 with a job, whose cell 0 issues. -/
def live : State :=
  { State.reset with
    parts := [(0, { dies := [0], groups := [0], usable := [0], job := some {} })],
    cells := [(0, { seq := { status := .running } })] }

/-- `live` with its cell as given. -/
def withCell (c : Cell) : State := { live with cells := [(0, c)] }

/-- `live` with its partition as given. -/
def withPart (q : Part) : State := { live with parts := [(0, q)] }

/-- A running sequencer. -/
def goes : Seq := { status := .running }

theorem wit_StepRunsFront : ({ live with pending := [.getVersion] } : State).pending = [.getVersion] ∧ live.pending = [] := by
  decide +kernel

theorem wit_StepKeepsMemoryCanonical :
    let s := { live with far := [(3, 1)], host := [(0, 2), (9, 1)], pending := [.setcnt 0 3 7] }
    Memory.wf s.far = true ∧ Memory.wf s.host = true ∧ ∃ t, step s = .next t := by
  refine ⟨by decide +kernel, by decide +kernel, _, rfl⟩

theorem wit_FencedStaysFenced :
    ∃ t, exec .drbgReseed { live with nv := { live.nv with fenced := [3], retired := [2] } } = .next t := ⟨_, rfl⟩

theorem wit_NonvolatileCountersRise : ∃ t, exec .drbgReseed live = .next t := ⟨_, rfl⟩

/-- A bundle whose fields all have their largest values. -/
def fullBundle : Bundle := Bundle.ofWord (BitVec.allOnes 256)

theorem wit_BundleWordReadBack : fullBundle.fits = true := by decide +kernel

/-- Some bundles can issue in a state, with no write stream draining beside them. -/
def allClear (s : State) (bs : List Bundle) : Bool := bs.all fun b => slotClear s 0 0 b

/-- A vector slot with the largest operand fields but for its operation, mask and data type. -/
def wide (op mask dt : Nat) : Bundle := vecOnly ⟨op, 63, 63, 63, 0, mask, dt, 0, 0, 0⟩

theorem wit_FloatLaneOps : allClear live ([1, 2, 3, 4, 5, 6].flatMap fun op => [wide op 7 1, wide op 0 0]) = true := by decide +kernel

theorem wit_IntegerAndOtherLaneOps :
    allClear live (([8, 9, 10, 11, 12, 13, 14, 15, 18, 24, 25, 56, 57].map fun op => wide op 7 0) ++
      [vecOnly ⟨19, 63, 0, 0, 0, 7, 0, 0, 0, 4095⟩, wide 24 7 1]) = true := by decide +kernel

theorem wit_SpecialFunctions : allClear live ([32, 33, 34, 35, 36, 37].map fun op => wide op 7 1) = true := by decide +kernel

theorem wit_Compares :
    allClear live ([16, 17].flatMap fun op => [vecOnly ⟨op, 7, 63, 63, 0, 7, 2, 0, 0, 0⟩, vecOnly ⟨op, 0, 63, 63, 0, 7, 2, 0, 0, 0⟩]) = true := by
  decide +kernel

theorem wit_LaneFrame : slotClear live 0 0 (vecOnly ⟨13, 0, 63, 1, 0, 7, 0, 0, 0, 0⟩) = true ∧ ∃ t, exec (.vxor 0 0 63 1 7) live = .next t :=
  ⟨by decide +kernel, _, rfl⟩

theorem wit_IllegalDt : cellOwner live 0 = some 0 ∧ canIssue live 0 = true ∧ 2 ≤ 7 ∧ 7 < 8 := by decide +kernel

theorem wit_RneNearest : 0 < 2 ∧ 2 * 3 = 2 * 2 * rne 3 2 - 2 ∧ rne 3 2 = 2 := by decide +kernel

/-- A cell with `n` amax entries. -/
def amaxCell (n : Nat) : Cell := { seq := goes, amax := (List.range n).map fun k => { slot := k, sat := 65534 } }

theorem wit_Conversions_entry :
    allClear (withCell (amaxCell 64)) [vecOnly ⟨48, 63, 1, 0, 0, 7, 2, 1, 63, 8⟩, vecOnly ⟨49, 63, 1, 0, 0, 7, 2, 1, 63, 7⟩] = true ∧
      (amaxCell 64).amax.any (fun e => decide (e.slot = 63)) = true ∧ (8 : Nat) ∈ [0, 1, 2, 8] ∧ 3 ≤ 7 ∧ 7 ≤ 7 := by decide +kernel

theorem wit_Conversions_new :
    allClear (withCell (amaxCell 63)) [vecOnly ⟨48, 63, 1, 0, 0, 7, 2, 1, 4095, 0⟩] = true ∧ (amaxCell 63).amax.length < 64 := by
  decide +kernel

theorem wit_VectorLoad :
    slotClear live 0 0 (vecOnly ⟨64, 63, 0, 0, 0, 7, 0, 0, 0, 4095⟩) = true ∧ (cellOf live 0).scratch.asked = [] ∧
      (partOf live 0).moves = [] ∧ scratchWithheld (cellOf live 0) (4095 * 512 / 8192) = false ∧ (cellOf live 0).scratch.poison = [] ∧
      (cellOf live 0).scratch.upsets = [] ∧ (cellOf live 0).scratch.vld = none := by decide +kernel

theorem wit_VectorStore :
    slotClear live 0 0 (vecOnly ⟨65, 0, 63, 0, 0, 7, 0, 0, 0, 0⟩) = true ∧ (cellOf live 0).scratch.asked = [] ∧
      (partOf live 0).moves = [] ∧ scratchWithheld (cellOf live 0) 0 = false ∧ (cellOf live 0).scratch.poison = [] ∧
      (cellOf live 0).scratch.upsets = [] ∧ (cellOf live 0).scratch.vld = none ∧ (cellOf live 0).shadows = [] := by decide +kernel

theorem wit_SyncOps :
    allClear live [syncOnly ⟨0, 0⟩, syncOnly ⟨4, 3 * 2 ^ 24 + 0xFFFFF⟩, syncOnly ⟨5, 3 * 2 ^ 24 + 4095 * 2 ^ 12⟩,
      syncOnly ⟨2, 255 * 2 ^ 18 + 255 * 2 ^ 10⟩, syncOnly ⟨6, 0⟩, syncOnly ⟨7, 0⟩] = true := by decide +kernel

/-- A job whose semaphore 255 counts `n`. -/
def semJob (n : Nat) : State :=
  withPart { dies := [0], groups := [0], usable := [0], job := some { sems := [(255, n)] } }

theorem wit_WaitsAndFences_take :
    slotClear (semJob 1) 0 0 (syncOnly ⟨1, 255 * 2 ^ 18⟩) = true ∧ cellOwner (semJob 1) 0 = some 0 ∧ canIssue (semJob 1) 0 = true ∧
      (cellOf (semJob 1) 0).seq.granted = false ∧ 1 ≤ semCount (semJob 1) 0 255 ∧
      ((partOf (semJob 1) 0).job.any fun j => j.waiters.any fun w => w.1 == 255) = false := by decide +kernel

theorem wit_WaitsAndFences_wait :
    cellOwner live 0 = some 0 ∧ canIssue live 0 = true ∧ (cellOf live 0).seq.granted = false ∧ semCount live 0 0 = 0 := by decide +kernel

/-- A cell whose read stream 3 delivers the rows of a tile to the matrix array. -/
def matCell (role : Nat) (w : Option (Nat × Nat)) (fmt : Option Nat) (vr : Nat) : Cell :=
  let x : InStream :=
    { running := true, matrix := true, total := 64, deposited := 2,
      tile := some { trow := 2, tcol := 64, rowExt := vr, colExt := 64, role := role, ewidth := 2 },
      fifo := [⟨0, [1, 2], false, 0⟩, ⟨1, [3], false, 0⟩] }
  { seq := goes, wload := w, ins := [(3, x)], wbuf0 := { fmt := fmt, vr := 2, vc := 64, rows := [[1], [2]] } }

theorem wit_WeightLoad_start :
    slotClear (withCell (matCell 0 none none 2)) 0 0 (matOnly ⟨1, 8, 0, 0, false, 3⟩) = true ∧
      matFault (matCell 0 none none 2) ⟨1, 8, 0, 0, false, 3⟩ = none ∧
      slotClear (withCell (matCell 0 none none 2)) 0 0 (matOnly ⟨2, 0, 0, 0, false, 0⟩) = true := by decide +kernel

theorem wit_WeightLoad_complete :
    (matCell 0 (some (8, 3)) none 2).wload = some (8, 3) ∧
      ((tget (matCell 0 (some (8, 3)) none 2).ins 3).any fun x =>
        (x.tile.any fun t => decide (t.trow ≤ x.fifo.length)) && ((x.fifo.take 2).any (·.poison)) = false) = true := by
  decide +kernel

/-- What MatrixMultiply asks of a row for an operation with format `fmt`. -/
def rowReady (c : Cell) (op fmt bank row : Nat) : Bool :=
  slotClear (withCell c) 0 0 (matOnly ⟨op, fmt, bank, row, false, 3⟩) && decide (matFault c ⟨op, fmt, bank, row, false, 3⟩ = none) &&
    !((activeBuf c).fmt.any fun w => !paired fmt w) && (tget c.ins 3).any fun x => x.tile.isSome && (x.fifo.head?.any fun u => !u.poison)

theorem wit_MatrixMultiply :
    rowReady (matCell 1 none (some 8) 2) 3 8 3 63 = true ∧ rowReady (matCell 1 none (some 8) 2) 4 8 0 0 = true := by decide +kernel

/-- A row beyond the tile's valid rows, counted as padding. -/
theorem wit_MatrixMultiply_padding :
    rowReady (matCell 1 none none 0) 3 1 0 0 = true ∧ ((tget (matCell 1 none none 0).ins 3).bind (·.tile)).map TileDesc.vr = some 0 := by
  decide +kernel

theorem wit_MatrixOperands_specials :
    Val.nan ∈ [Val.nan] ∧ Val.inf true ∈ [Val.inf true, Val.inf false] ∧ Val.nan ∉ [Val.inf true] ∧ Val.inf false ∉ [Val.inf true] ∧
      elemVal 2 0 = .fin false 0 (-16) ∧ elemVal 2 0x7C = .inf false := by decide +kernel

theorem wit_MatrixOperands_column :
    ({ fmt := some 8, vr := 1, vc := 64, rows := [[1]] } : WBuf).fmt = some 8 ∧ 63 < 64 ∧ 0 < min (min (rowK 8) 1) 1 ∧
      64 % 32 = 0 ∧ 63 < 64 := by decide +kernel

/-- The descriptor of a stream of one 64 B unit at byte 0 of the scratchpad, which it is itself. -/
def descBytes : Mem := [(8, 64), (12, 1), (16, 1), (20, 1), (24, 1)]

def streamCell (ins : Tbl InStream) (outs : Tbl OutStream) : Cell :=
  { seq := goes, scratch := { mem := descBytes }, ins := ins, outs := outs }

/-- What StreamStartStop asks of a start with bundle `b`. -/
def mayStart (s : State) (b : Bundle) (near : Bool) (out : Bool) (desc addr : Nat) : Bool :=
  let c := cellOf s 0
  let r := startReads c desc near
  let u := startChecked (issued s 0 b) 0 desc near
  slotReady s 0 0 b && decide (r.2.2.2 = none) && decide (startFault u 0 0 desc r.1 r.2.1 r.2.2.1 out (addr * 64) 0 = none)

theorem wit_StreamStartStop_read :
    let s := withCell (streamCell [] [])
    let b := sinOnly ⟨1, 3, 0, 0, 128⟩
    let u := startChecked (issued s 0 b) 0 0 false
    mayStart s b false false 0 128 = true ∧ slotClear s 0 0 b = true ∧ (startReads (streamCell [] []) 0 false).2.1 = none ∧
      (startReads (streamCell [] []) 0 false).1.xform ≠ 11 ∧ alive u 0 = true ∧ quietOuts (cellOf u 0) = true := by decide +kernel

/-- A Stratus tile of 16 by 64 elements, of broadcast group 15 with two members, described at 0 and 64. -/
def bcastCell : Cell :=
  let desc := leBytes 8 (2 ^ 48 + 4096) ++ leBytes 4 1 ++ leBytes 4 1 ++ leBytes 4 1 ++ leBytes 4 1 ++ leBytes 4 1 ++ leBytes 36 0
  let tile := leBytes 4 16 ++ leBytes 4 64 ++ leBytes 8 0 ++ leBytes 2 16 ++ leBytes 2 64 ++ leBytes 4 16 ++ leBytes 4 64 ++
    leBytes 4 128 ++ leBytes 4 2 ++ [0, 1, 15, 2]
  { seq := goes, scratch := { mem := mwrite (mwrite [] 0 desc) 64 tile } }

theorem wit_StreamStartStop_broadcast :
    let s := withCell bcastCell
    let b := sinOnly ⟨1, 3, 0, 1, 128⟩
    let r := startReads bcastCell 0 true
    let u := startChecked (issued s 0 b) 0 0 true
    mayStart s b true false 0 128 = true ∧ slotClear s 0 0 b = true ∧ r.1.xform ≠ 11 ∧ alive u 0 = true ∧ quietOuts (cellOf u 0) = true ∧
      r.2.1.any (fun y => decide (y.bcast ≠ 0) && (joinGroup u 0 3 y {}).isSome) = true := by decide +kernel

theorem wit_StreamStartStop_stop :
    let c := streamCell [(3, { running := true })] [(1, { running := true })]
    slotReady (withCell c) 0 0 (soutOnly ⟨2, 1, 0, 0, 0⟩) = true ∧ (tget c.ins 3).any (·.running) = true ∧
      slotClear (withCell (streamCell [(3, { running := true })] [])) 0 0 (sinOnly ⟨2, 3, 0, 0, 0⟩) = true ∧
      (tget c.outs 1).any (·.running) = true ∧ quietOuts { c with outs := tset c.outs 1 { running := false } } = true := by
  decide +kernel

theorem wit_StreamStartStop_write :
    let c := streamCell [] []
    mayStart (withCell c) (soutOnly ⟨1, 1, 0, 0, 128⟩) false true 0 128 = true := by decide +kernel

/-- A cell whose bundle 0 holds `w`. -/
def issueCell (q : Seq) (w : BitVec 256) : Cell := { seq := q, imem := [(0, w)] }

theorem wit_BundleIssue :
    let s := withCell (issueCell goes 0)
    cellOwner s 0 = some 0 ∧ (cellOf s 0).seq.held = none ∧ canIssue s 0 = true ∧ (cellOf s 0).seq.pc < 4096 ∧
      slotClear s 0 0 (syncOnly ⟨0, 0⟩) = true ∧ fetchWord (cellOf s 0) = 0 ∧
      bundleIllegal (cellOf s 0) (Bundle.ofWord (fetchWord (cellOf s 0))) = false ∧
      matFault (cellOf s 0) (Bundle.ofWord (fetchWord (cellOf s 0))).mat = none ∧
      (Bundle.ofWord (fetchWord (cellOf s 0))).sync.op = 0 := by decide +kernel

theorem wit_BundleIssue_resume :
    let s := withCell (issueCell { status := .stalled .operand } 0)
    cellOwner s 0 = some 0 ∧ (cellOf s 0).seq.held = none ∧ (cellOf s 0).seq.status = .stalled .operand ∧
      (dieOf s (0 / 80)).hold = false ∧ blockedBy (missCycles s 0 0) 0 0 (Bundle.ofWord (fetchWord (cellOf s 0))) = none := by
  decide +kernel

/-! ### Streams, semaphores, shadows, walks -/

/-- A stream of two 64 B units in one run of 128 bytes, from a space. -/
def desc128 (space : Nat) : StreamDesc := { space := space, base := 0, ext := [128, 1, 1, 1, 1], str := [0, 0, 0, 0] }

def farStream (space : Nat) : InStream := { running := true, desc := desc128 space, total := 2, reqTotal := 2 }

/-- A cell with one read stream, 3, and a budget for it. -/
def readCell (x : InStream) (budget : Nat) : Cell := { seq := { status := .running, budgets := [0, 0, 0, budget] }, ins := [(3, x)] }

/-- What StreamData asks for the request of stream 3 of cell 0, and whether the fabric takes it. -/
def mayRequest (s : State) : Bool × Bool :=
  match tget (cellOf s 0).ins 3 with
  | some x0 =>
    let c := cellOf s 0
    let x := skipNever x0.total x0
    let paced := decide (c.seq.budgets.getD 3 0 ≠ 0) && x.contract
    (x.running && decide (x.desc.space = 2) && decide (x.group = none) && decide (x.requested < x.reqTotal) && landingRoom c x 1 &&
      !(s.fabric.held.any fun k => k.req == some (0, 3)) && (!paced || decide (pacedOf c 3 < c.seq.budgets.getD 3 0)),
     fabricFree s.fabric 0 (16 + keyMd (farKey s 0 (nextAddr x))) (if paced then Traffic.reservedRead.cls else Traffic.data.cls) 64)
  | none => (false, false)

theorem wit_StreamData_request :
    let s := withCell (readCell (farStream 2) 1)
    cellOwner s 0 = some 0 ∧ mayRequest s = (true, true) ∧ mayRequest (withCell (readCell (farStream 2) 0)) = (true, true) ∧
      mayRequest { s with fabric := { held := [⟨0, 16, Traffic.reservedRead.cls, 64, none⟩] } } = (true, false) := by decide +kernel

theorem wit_StreamData_arrival :
    let x := farStream 0
    let s := withCell (readCell x 0)
    cellOwner s 0 = some 0 ∧ contracted s 0 0 3 x = true ∧ x.group = none ∧ x.deposited + x.landing.length < x.total ∧
      unitNever x 0 = false ∧ byRequest s 0 0 x = false ∧ unitClear s 0 0 x 0 = true := by decide +kernel

theorem wit_StreamData_arrival_far :
    let x := { farStream 2 with requested := 2 }
    let s := withCell (readCell x 1)
    contracted s 0 0 3 x = true ∧ unitNever x 0 = false ∧ byRequest s 0 0 x = true ∧ needReqs x 1 ≤ x.requested ∧
      unitClear s 0 0 x 0 = true := by decide +kernel

theorem wit_StreamData_deposit :
    let x := { farStream 0 with landing := [⟨0, List.replicate 64 7, false, 0⟩] }
    let y := { x with contract := false }
    cellOwner (withCell (readCell x 0)) 0 = some 0 ∧ x.deposited < x.total ∧ contracted (withCell (readCell x 0)) 0 0 3 x = true ∧
      contracted (withCell (readCell y 0)) 0 0 3 y = false ∧ { x with matrix := true }.desc.xform = 0 := by decide +kernel

/-- `live` with its die's scratchpads cleared at power-up. -/
def cleared : State := { live with od := [(Ad.cdClearDone, 1)] }

theorem wit_StreamData_write :
    cellOwner cleared 0 = some 0 ∧ dieCleared cleared (0 / 80) = true ∧ 2097151 + [(1 : Byte)].length ≤ 2097152 ∧
      rangeClear cleared 0 0 (moveAddr cleared 0 0 0 2097151) 1 = true ∧ 79 / 80 = 0 / 80 ∧
      ((scratchWords (cellOf cleared 0) false 2097151 1).any fun w => !portFree (cellOf cleared 0) w) = false := by decide +kernel

/-- `live` with its job as given. -/
def withJob (j : Job) : State := withPart { dies := [0], groups := [0], usable := [0], job := some j }

theorem wit_Semaphores_release :
    let i : Inc := ⟨none, 0, 255, 256, false, []⟩
    let j : Job := { incs := [i], sems := [(255, 65279)] }
    takeFirst (fun i => i.sem == 255 && writesVisible (withJob j) 0 i) j.incs = some (i, []) ∧
      semCount (withJob j) 0 255 + 256 ≤ 65535 ∧ incPort (withJob j) 0 i = none := by decide +kernel

/-- A signal of a cell of die 1, after its write stream 1 has drained, to a semaphore at home on die 0. -/
def signalled : State :=
  { withPart { dies := [0, 1], groups := [0], usable := [0], job := some { incs := [⟨some 80, 0, 254, 1, false, [(1, 7)]⟩] } } with
    cells := [(80, { seq := goes, outs := [(1, { start := 7 })] })] }

theorem wit_Semaphores_release_across :
    let i : Inc := ⟨some 80, 0, 254, 1, false, [(1, 7)]⟩
    takeFirst (fun i => i.sem == 254 && writesVisible signalled 0 i) [i] = some (i, []) ∧
      (incPort signalled 0 i).any (fun e => e.1 == 1 && fabricFree signalled.fabric e.1 e.2 Traffic.semaphore.cls 64) = true ∧
      semCount signalled 0 254 + 1 ≤ 65535 := by decide +kernel

theorem wit_Semaphores_grant :
    let j : Job := { waiters := [(255, 0)], sems := [(255, 1)] }
    takeFirst (fun w => w.1 == 255) j.waiters = some ((255, 0), []) ∧ 1 ≤ semCount (withJob j) 0 255 := by decide +kernel

/-- `withJob` with the semaphore time-out latched at 10 µs, and its cell as given. -/
def timed (q : Seq) (x : Tbl BGroup) : State :=
  { withJob {} with
    parts := [(0, { dies := [0], groups := [0], usable := [0], job := some {}, latched := [(Ad.partSemTimeoutUs 0, 10)] })],
    cells := [(0, { seq := q })], dies := [(0, { groups := x })] }

theorem wit_Semaphores_timeout :
    let s := timed { status := .waitSem 255 } []
    cellOwner s 0 = some 0 ∧ latched s 0 (Ad.partSemTimeoutUs 0) ≠ 0 ∧ (cellOf s 0).seq.status = .waitSem 255 := by decide +kernel

theorem wit_Semaphores_page : (partOf (withJob { seq := 65535 }) 0).job = some { seq := 65535 } ∧ 65535 = 131071 % 65536 := by
  decide +kernel

theorem wit_Semaphores_merge :
    let e : Amax := { slot := 4095, sat := 65535, more := 1 }
    (cellOf (withCell { amax := [e] }) 0).amax.find? (fun e => e.slot = 4095) = some e ∧ e.full = true := by decide +kernel

theorem wit_FencesEnd_fence :
    let s := withCell { seq := { status := .waitFence } }
    cellOwner s 0 = some 0 ∧ (cellOf s 0).seq.status = .waitFence ∧ fenceMet s 0 0 = true ∧
      (cellOf (drainOut s 0) 0).seq.status = .waitFence ∧ writeHeld (drainOut s 0) 0 0 = false ∧ outsDone (drainOut s 0) 0 = true := by
  decide +kernel

/-- A cell at a predicate fence on semaphore 9, which counts `n`, with a shadow open. -/
def predState (n : Nat) : State :=
  { withJob { sems := [(9, n)] } with
    cells := [(0, { seq := { status := .waitPred 9 }, shadows := [(0, { state := 1, space := 0, pred := 9, frame := 255, page := 3 })] })] }

theorem wit_FencesEnd_commit :
    cellOwner (predState 1) 0 = some 0 ∧ (cellOf (predState 1) 0).seq.status = .waitPred 9 ∧ semCount (predState 1) 0 9 = 1 ∧
      (tagged (cellOf (predState 1) 0) 9).length = 1 ∧
      ((tagged (cellOf (predState 1) 0) 9).all fun e => !boundFor (cellOf (predState 1) 0) e.2.page false) = true ∧
      (cellOf (predState 1) 0).outs = [] := by decide +kernel

theorem wit_FencesEnd_squash : cellOwner (predState 2) 0 = some 0 ∧ semCount (predState 2) 0 9 = 2 := by decide +kernel

theorem wit_FencesEnd_error : cellOwner (predState 3) 0 = some 0 ∧ 3 ≤ semCount (predState 3) 0 9 := by decide +kernel

theorem wit_Shadows_open :
    let s := withCell { seq := goes, freeFrames := [(1, 60416), (0, 255)] }
    let t := withCell { seq := goes, freeFrames := [(0, 255)] }
    cellOwner s 0 = some 0 ∧ shadowBusy s 0 1 65535 = false ∧ shadowBusy t 0 0 3 = false ∧ shadowBusy t 0 1 3 = true ∧
      (takeFirst (fun f => f.1 == 0) (cellOf s 0).freeFrames).any (fun e => e.1.2 == 255) = true := by decide +kernel

theorem wit_Shadows_free : (0, 255) ∈ (cellOf (withCell { busyFrames := [(0, 255)] }) 0).busyFrames := by decide +kernel

theorem wit_Shadows_drained :
    let x : Shadow := { state := 2, space := 0, frame := 255, pred := 9, page := 3 }
    let c : Cell := { shadows := [(0, x)] }
    (cellOf (withCell c) 0).shadows.find? (fun e => e.2.state = 2 && e.2.space = 0 && e.2.frame = 255) = some (0, x) ∧
      boundFor (cellOf (withCell c) 0) 3 true = false := by decide +kernel

/-- Two cells of die 0 with a read stream of broadcast group 15 each, the stream of a space and with a budget. -/
def bcastState (space budget : Nat) : State :=
  let x := { farStream space with group := some 15 }
  { live with
    cells := [(0, readCell x budget), (1, readCell x budget)],
    dies := [(0, { groups := [(15, { bcount := 2, members := [(0, 3), (1, 3)], starts := [x, x] })] })] }

/-- What BroadcastAndDone asks of group 15 for its next unit, with the requests it may still make. -/
def mayBroadcast (s : State) : Bool × Nat × Nat :=
  match tget (dieOf s 0).groups 15 with
  | some x =>
    match groupLead x with
    | some (g, stream, l) =>
      let need := needReqs l (x.issued + 1)
      (decide (dieOwner s 0 = some 0) && decide (x.bcount ≤ x.members.length) && decide (x.issued < l.total) && unitClear s 0 g l x.issued &&
        x.members.all fun m => !groupMember s 15 m ||
          decide (landingUsed (cellOf s m.1) + 64 * (need - needReqs l x.issued) ≤ 65536),
       need, x.requested + min (need - x.requested) ((cellOf s g).seq.budgets.getD stream 0 - pacedOf (cellOf s g) stream))
    | none => (false, 0, 0)
  | none => (false, 0, 0)

/-- Far-tier data without a budget, with one that lasts, and with one spent by the leader's cell. -/
theorem wit_BroadcastAndDone_far :
    let spent := { bcastState 2 1 with cells := [(0, { readCell (farStream 2) 1 with paced := [(3, 1)] })] }
    mayBroadcast (bcastState 2 0) = (true, 1, 0) ∧ mayBroadcast (bcastState 2 1) = (true, 1, 1) ∧ mayBroadcast spent = (true, 1, 0) := by
  decide +kernel

theorem wit_BroadcastAndDone_stratus :
    let s := bcastState 1 0
    (mayBroadcast s).1 = true ∧ ownStratus s 0 0 (farStream 1) = true ∧ ((dieOf s 0).ungranted.any fun u => u.cell == 0 % 80) = false ∧
      grantable (dieOf s 0) (stratusChannel (stratusPhys s 0 (some 0) 0)) = true ∧ (mayBroadcast (bcastState 0 0)).1 = true ∧
      ownStratus s 0 0 (farStream 0) = false := by decide +kernel

theorem wit_BroadcastAndDone_deliver :
    let s := bcastState 1 0
    [(0, 3), (1, 3)].Nodup ∧ groupMember s 15 (1, 3) = true ∧
      (tget (cellOf (readChecks (readEffects s 0 (farStream 1) 0 false) 0 0 (farStream 1) 0) 1).ins 3).isSome = true := by decide +kernel

theorem wit_BroadcastAndDone_timeout :
    let s := timed goes [(15, { bcount := 2, members := [(0, 3)] })]
    dieOwner s 0 = some 0 ∧ latched s 0 (Ad.partSemTimeoutUs 0) ≠ 0 ∧
      (tget (dieOf s 0).groups 15).any (fun x => decide (x.issued = 0 ∧ x.members.length < x.bcount)) = true := by decide +kernel

theorem wit_BroadcastAndDone_tree :
    let s := { live with cells := (List.range 80).map fun c => (c, { seq := { doneInput := true } }) }
    ((List.range 80).all fun c => (cellOf s (80 * 0 + c)).seq.doneInput) = true := by decide +kernel

/-- A page-walk descriptor: one far-tier page, padded to `npad` slots, of 64 dimensions. -/
def walkBytes (npad : Nat) : List Byte :=
  leBytes 8 (2 ^ 20) ++ leBytes 4 1 ++ leBytes 4 npad ++ leBytes 8 (2 ^ 21) ++ leBytes 2 64 ++ leBytes 2 0 ++
    [0, 1, 1, 2, 0, 0]

/-- A partition whose control core of the last of `n` dies runs walk `w`, where `w` is given. -/
def walkPart (n : Nat) (j : Job) (w : Option Walk) : State :=
  withPart { dies := List.range n, groups := [0], usable := [0], job := some j, walks := (w.map fun x => (8 * (n - 1), x)).toList }

theorem wit_Walks_start :
    let s := walkPart 16 {} none
    ((partOf s 0).job.isSome = true) ∧ freeWalk (partOf s 0) 15 = some 120 ∧ 15 < (partOf s 0).dies.length ∧
      walkInvalid s 0 (Walk.ofBytes 15 (walkBytes 1)) (walkBytes 1) = false ∧
        walkInvalid s 0 (Walk.ofBytes 15 (walkBytes 0)) (walkBytes 0) = true := by
  decide +kernel

theorem wit_Walks_fetch :
    let x := { Walk.ofBytes 15 (walkBytes 1) with count := 64 }
    let s := walkPart 16 {} (some x)
    let a := spaceAddr 2 x.table + 16 * (x.next + x.fetched.length)
    tget (partOf s 0).walks 120 = some x ∧ walkFetch x 64 = 64 ∧ rangeClear s 0 2 a (16 * 64) = true ∧ maintRuns s 0 a (16 * 64) = false := by
  decide +kernel

/-- A page-table entry in use: 64 tokens of a far-tier page, in FP8. -/
def entryBytes : List Byte := leBytes 16 (2 ^ 127 + 64 * 2 ^ 112 + 2 ^ 22)

/-- A walk with its one entry fetched. -/
def walking (next : Nat) : Walk := { Walk.ofBytes 15 (walkBytes 2) with fetched := [(entryBytes, false)], next := next }

theorem wit_Walks_fill :
    let x := walking 0
    let s := walkPart 16 {} (some x)
    tget (partOf s 0).walks 120 = some x ∧ rangeClear s 0 0 (moveAddr s 0 (walkCell s 0 x) 0 (slotAddr x)) 2048 = true ∧
      ¬ x.nslot ≤ x.next ∧ x.next < x.count ∧ pageInvalid s 0 x.d (PageEnt.ofBytes entryBytes) = false := by decide +kernel

/-- Past the count, where the FREE semaphore counts. -/
theorem wit_Walks_fill_null :
    let x := { walking 1 with nslot := 1 }
    let s := walkPart 16 { sems := [(x.free, 1)] } (some x)
    tget (partOf s 0).walks 120 = some x ∧ rangeClear s 0 0 (moveAddr s 0 (walkCell s 0 x) 0 (slotAddr x)) 2048 = true ∧
      x.nslot ≤ x.next ∧ 1 ≤ semCount s 0 x.free ∧ x.count ≤ x.next := by decide +kernel

theorem wit_BanksAndClears_retry :
    cellOwner live 0 = some 0 ∧ (dieOf live (0 / 80)).hold = false ∧
      (cellOf (withCell { scratch := { losers := [⟨0, 0, none, false⟩] } }) 0).scratch.losers ≠ [] := by decide +kernel

theorem wit_BanksAndClears_scrub :
    let s := upsetScratch live 0 [⟨16, 15, true⟩]
    (dieOf live (0 / 80)).hold = false ∧ ((takenPorts (cellOf s 0)).any fun x => x.1 == 15) = false ∧
      ((cellOf s 0).scratch.losers.any fun r => r.addr / 64 % 16 == 15) = false := by decide +kernel

theorem wit_BanksAndClears_stratusScrub :
    let s := { live with dies := [(0, { cyc := 7 })] }
    (dieOf (upsetStratus s 0 [⟨0, 7, false⟩]) 0).hold = false ∧ (dieOf (upsetStratus s 0 [⟨0, 7, false⟩]) 0).waiting = [] ∧
      spareGrant (dieOf (upsetStratus s 0 [⟨0, 7, false⟩]) 0) 63 = true := by decide +kernel

theorem wit_BanksAndClears_clear :
    let s := { live with dies := [(0, { railsUp := true }), (15, { clearing := true })] }
    (dieOf s 0).railsUp = true ∧ dieCleared s 0 = false ∧ (dieOf s 15).clearing = true ∧ (dieOf s 15).clearWaits = [] ∧
      (s.parts.all fun q => decide (q.2.unitWaits = [])) = true := by decide +kernel

/-- An access that arrives, granted at the fifth CCLK after the clock started. -/
theorem wit_BanksAndClears_grant :
    let s1 := modDie live 0 fun d => { atCycle d (d.cyc + 5) with waiting := d.waiting ++ [(⟨0, none, 64 * 63, none⟩ : StratusWait)] }
    dieOwner live 0 = some 0 ∧ (dieOf live 0).hold = false ∧
      (dieOf s1 0).waiting.find? (fun w => stratusChannel (64 * waitUnit s1 0 w) == 63) = some ⟨0, none, 64 * 63, none⟩ ∧
      spareGrant (dieOf s1 0) 63 = true := by decide +kernel

/-- A packet of class 2 held at port 3, behind one of class 1 in the FIFO of die 4. -/
theorem wit_FabricAndClocks_credit :
    let s := { live with fabric := { fifo := [⟨3, 4, 1, 64, none⟩], held := [⟨3, 4, 2, 64, none⟩] } }
    s.fabric.fifo = ⟨3, 4, 1, 64, none⟩ :: [] ∧ s.fabric.held = [⟨3, 4, 2, 64, none⟩] ∧ 2 ∈ [2] ∧ 2 ∉ [1] ∧
      64 ≤ fifoFree { s.fabric with fifo := [] } 4 := by decide +kernel

theorem wit_FabricAndClocks_hold :
    let s := { live with dies := [(0, { cclkPending := true }), (15, { hold := true })] }
    (dieOf s 0).cclkPending = true ∧ (dieOf s 0).hold = false ∧ (dieOf { live with dies := [(0, { hold := true })] } 0).hold = true ∧
      dieOwner live 0 = some 0 := by decide +kernel

theorem wit_FabricAndClocks_end :
    let x := { farStream 0 with deposited := 2, consumed := 2, matrix := true }
    (tget (cellOf (withCell (readCell x 0)) 0).ins 3).any (·.running) = true ∧ x.total ≤ x.deposited ∧ x.total ≤ x.consumed ∧
      (tget (cellOf (withCell { outs := [(1, { total := 1 })] }) 0).outs 1).isSome = true := by decide +kernel

/-! ### The far tier, the host tier, moves and scales -/

/-- A state with bytes at a far-tier address below 4 KiB of partition 0. -/
def putFar (s : State) (a : Nat) (bs : List Byte) : State := { s with far := mwrite s.far (farKey s 0 a) bs }

/-- `live` with a maintenance operation on the first 256 bytes of partition 0 at its memory die. -/
def maintained : State := { live with mds := [(keyMd (farKey live 0 0), { maint := [⟨0, 0, 256⟩] })] }

theorem wit_FarTier :
    farFail live 0 (farSize live 0 - 64) 2 64 none = none ∧ farWaits live 0 (farSize live 0 - 64) 64 = false ∧
      farFail live 0 0 0 64 (some 0) = none ∧ writerCell .network = none ∧ farFail live 0 31 3 1 none = none ∧
      farWaits live 0 31 1 = false ∧ farFail maintained 0 0 2 64 none = none ∧ farWaits maintained 0 0 64 = true := by decide +kernel

theorem wit_FarTierStops :
    3 ≤ 3 ∧ 2 ^ 41 ≤ 2 ^ 41 ∧ 2 < 3 ∧ 2 ^ 41 - 1 < 2 ^ 41 ∧ farSize live 0 < farSize live 0 - 63 + 64 := by decide +kernel

theorem wit_CalmEncoding : (List.replicate 256 (0x80 : Byte)).length = 256 := by decide +kernel

theorem wit_CacheMaintenance : 400 ≤ 400 ∧ ¬ 401 ≤ 400 := by decide +kernel

/-- `live` with host window 63 at 1,024, of 4 KiB. -/
def windowed : State :=
  { live with od := [(Ad.partHostWindowBase 0 63, 1024), (Ad.partHostWindowSize 0 63, 4096)] }

theorem wit_HostAccesses_write :
    (partOf windowed 0).moves = [] ∧ memKey windowed 0 = 0 ∧ 63 * 2 ^ 36 + 3584 < 2 ^ 42 ∧
      hostAddr windowed 0 63 3584 512 = some 4608 ∧ ((wordsOf 4608 512).all fun u => decide (tget windowed.hostKeys u = none)) = true := by
  decide +kernel

theorem wit_HostAccesses_read :
    hostStop windowed 0 63 0 4096 = none ∧ 0 < 4096 ∧ windowed.hostReads.length < 1024 := by decide +kernel

theorem wit_HostAccesses_complete :
    let s := { windowed with hostReads := [⟨7, 0, 63, 0, 64⟩, ⟨8, 0, 63, 64, 64⟩] }
    s.hostReads = ⟨7, 0, 63, 0, 64⟩ :: [⟨8, 0, 63, 64, 64⟩] ∧ (∀ x ∈ ([⟨8, 0, 63, 64, 64⟩] : List HostRd), x.id ≠ 7) ∧
      hostAddr s 0 63 0 64 = some 1024 ∧ ((wordsOf 1024 64).all fun u => decide (tget s.hostKeys u = none)) = true := by decide +kernel

/-- A partition with an object table of two objects: object 1 is at home in the far tier, 256 bytes at 4,096. -/
def objects (ms : List MoveRec) : State :=
  let q : Part :=
    { dies := [0], groups := [0], usable := [0], job := some {}, moves := ms,
      latched := [(Ad.partObjTableCount 0, 2), (Ad.partObjTableBase 0, 0)] }
  let e : List Byte := [0x09, 0, 0, 0, 0, 0, 0, 0] ++ leBytes 8 4096 ++ leBytes 8 256 ++ leBytes 8 0
  putFar (withPart q) 32 e

theorem wit_MovesAndPrefetch_move :
    let s1 := farRead (objects []) 0 (objAddr (objects []) 0 1) 32 3
    (partOf (objects []) 0).job = some {} ∧ coreStop (objects []) 0 0 (objAddr (objects []) 0 1) 32 = none ∧
      (objRead (objects []) 0 1).2 = false ∧ moveRefusal s1 0 1 1 8192 (objRead (objects []) 0 1).1 = none ∧
      moveRefusal s1 0 1 1 8193 (objRead (objects []) 0 1).1 = some 3 := by decide +kernel

/-- A move of that object to Stratus, its bytes copied. -/
def moving (vacated : Bool) : MoveRec :=
  { obj := 1, srcTier := 1, src := 0, dstTier := 1, dst := 8192, size := 256, sem := 4, release := true, vacated := vacated }

theorem wit_MovesAndPrefetch_complete :
    movingRec (objects [moving false]) 0 1 = some (moving false) ∧ (moving false).obj = 1 ∧ (partOf (objects [moving false]) 0).job = some {} := by
  decide +kernel

theorem wit_MovesAndPrefetch_release :
    takeFirst (fun r => r.obj == 1 && r.vacated) (partOf (objects [moving true]) 0).moves = some (moving true, []) := by decide +kernel

/-- A job at its prefetch record 0, which waits on semaphore 5; `n` records have had their semaphore. -/
def prefetching (busy : Bool) (n : Nat) : State :=
  let q : Part :=
    { dies := [0], groups := [0], usable := [0], job := some { sems := [(5, 1)], prefetch := 0, prefetchWaited := n }, prefetchPos := some 0,
      prefetchBusy := busy }
  putFar { withPart q with od := [(Ad.partState 0, 4)] } 0 (leBytes 8 4096 ++ leBytes 2 1 ++ [5, 6])

theorem wit_MovesAndPrefetch_record :
    let s := prefetching false 0
    (partOf s 0).prefetchPos = some 0 ∧ (partOf s 0).prefetchBusy = false ∧ inState s 0 .running = true ∧
      ((prefetchRec s 0 0).any fun x => decide (x.2 = false) && !x.1.bad &&
        decide (1 ≤ semCount (farRead s 0 (prefetchAddr s 0 0) 32 3) 0 x.1.wait)) = true ∧ coreStop s 0 0 (prefetchAddr s 0 0) 32 = none ∧
      ((partOf s 0).job.any fun j => decide (j.prefetchWaited ≤ 0) && j.waiters.isEmpty) = true ∧
      ((partOf (prefetching false 1) 0).job.any fun j => decide (0 < j.prefetchWaited)) = true := by decide +kernel

theorem wit_MovesAndPrefetch_retry :
    (partOf (prefetching true 0) 0).prefetchPos = some 0 ∧ (partOf (prefetching true 0) 0).prefetchBusy = true ∧
      (prefetchRec (prefetching true 0) 0 0).isSome = true := by decide +kernel

theorem wit_ScaleAdvance :
    (partOf live 0).job = some {} ∧ (partOf live 0).advance = none ∧
      (partOf (withPart { advance := some 255 }) 0).advance = some 255 := by decide +kernel

theorem wit_ScaleAdvance_slot :
    let r : ScaleRec := { mode := 1, hlen := 1, amaxStep := 0x7F7FFFFF }
    r.mode ≠ 0 ∧ r.hlen = 1 ∧ amaxMag r.amaxStep ≠ 0 ∧ amaxMag r.amaxStep < 0x7F800000 ∧ ({} : ScaleRec).mode = 0 ∧
      amaxMag ({ r with amaxStep := 0x7F800000 } : ScaleRec).amaxStep = 0x7F800000 := by decide +kernel

/-! ### Media and samples -/

/-- The first 108 bytes of a stream context's record: KIND, state, codec; pictures up to 1,920 × 1,088, 16 output records. -/
def ctxRec (kind state codec : Nat) (head : Nat) : List Byte :=
  leBytes 1 (16 * kind + state) ++ leBytes 1 codec ++ [0, 0, 0, 0, 0, 0] ++ leBytes 2 1920 ++ leBytes 2 1088 ++ [8, 4] ++
    leBytes 2 60 ++ leBytes 4 (2 ^ 20) ++ leBytes 4 0 ++ leBytes 8 0 ++ leBytes 8 0 ++ leBytes 8 2048 ++ leBytes 4 16 ++
    leBytes 4 head ++ leBytes 4 0 ++ leBytes 4 0 ++ leBytes 2 64 ++ leBytes 2 32 ++ leBytes 2 1 ++ [0, 0, 0, 20] ++
    leBytes 10 0 ++ leBytes 8 0 ++ leBytes 4 4096

/-- A partition with one context and a pool of two buffers, given the rest of its state. -/
def mediaPart (q : Part) : Part :=
  { q with
    dies := [0], groups := [0], usable := [0], job := some {},
    formed := [(Ad.partDecShare 0 0, 1), (Ad.partEncShare 0 0, 1)],
    latched := [(Ad.partMediaCtxCount 0, 1), (Ad.partMediaCtxBase 0, 0), (Ad.partPoolBufCount 0 0, 2),
      (Ad.partPoolBufSize 0 0, 2 ^ 22)] }

def mediaState (r : List Byte) (q : Part) : State := putFar (withPart (mediaPart q)) 0 r

/-- A request's entry: 1,024 bytes of input at 0 for context 0. -/
def mediaRaw (op : Nat) : List Byte :=
  leBytes 4 op ++ leBytes 4 0 ++ leBytes 8 0 ++ leBytes 4 1024 ++ leBytes 4 0 ++ leBytes 4 0xFFFFFFFF ++ leBytes 100 0

def checked (kind codec op : Nat) (q : Part) : Option Nat :=
  let s := mediaState (ctxRec kind 1 codec 0) q
  mediaCheck (modPart s 0 fun q => { q with mediaSerial := 1 }) ref0 op (mediaRaw op) (MediaReq.ofBytes ref0 op 0 (mediaRaw op))

theorem wit_MediaRequests :
    checked 0 0 1 {} = none ∧ checked 0 0 2 {} = none ∧ checked 0 0 3 {} = none ∧ checked 0 0 4 { marks := [(0, { output := true })] } = none ∧
      checked 1 1 7 {} = none ∧ checked 1 1 1 {} = some 1 ∧ checked 0 0 5 {} = some 1 := by decide +kernel

theorem wit_MediaRequests_source : checked 2 0 6 {} = none ∧ checked 1 1 5 {} = none := by decide +kernel

theorem wit_MediaRequests_turn :
    let y := MediaReq.ofBytes ref0 4 0 (mediaRaw 4)
    let t := modPart (mediaState (ctxRec 0 1 0 0) {}) 0 fun q => { q with mediaWait := [(0, y)] }
    (partOf (mediaState (ctxRec 0 1 0 0) {}) 0).mediaWait = [] ∧ Machine.mayStart t 0 y = true := by decide +kernel

/-- Context 0 with a request of `op` waiting. -/
def asked (kind codec op : Nat) : State :=
  mediaState (ctxRec kind 1 codec 0) { ctxs := [(0, { reqs := [{ ref := ref0, op := op, length := 1024 }] })] }

/-- What MediaEngines asks for engine `e` to serve that request. -/
def mayServe (kind codec op e : Nat) : Bool :=
  let s := asked kind codec op
  !engineBusy s e && servesNext s e 0 && !blockCut s (engineBlock e) && (ctxReady s 0 0 e).any (fun q => decide (q.op = op)) &&
    !(farView s 0 (ctxAddr s 0 0) 2048).2 && !(farView s 0 (ctxField s 0 0 32 8 % 2 ^ 41) (ctxSt s 0 0).psetLen).2

theorem wit_MediaEngines_start :
    mayServe 0 0 1 0 = true ∧ mayServe 0 0 2 0 = true ∧ mayServe 0 0 3 0 = true ∧ mayServe 1 1 5 16 = true ∧ mayServe 2 0 6 16 = true := by
  decide +kernel

/-- An engine at work on context 0 of partition 0. -/
def engaged (e : Nat) (kind : Nat) : State :=
  { mediaState (ctxRec kind 2 1 0) {} with engines := [(e, { on := some (0, 0), busy := some (0, 0) })] }

theorem wit_MediaEngines_end :
    (engineOf (engaged 15 0) 15).busy = some (0, 0) ∧ 15 < 16 ∧ (engineOf (engaged 15 0) 15).budget = none ∧
      (engineOf (engaged 17 2) 17).busy = some (0, 0) ∧ 16 ≤ 17 ∧ ctxKind (engaged 17 2) 0 0 = 2 ∧
      (engineOf (engaged 16 1) 16).busy = some (0, 0) ∧ 16 ≤ 16 ∧ ctxKind (engaged 16 1) 0 0 = 1 ∧
      0 + 1 < frameSlices (engaged 16 1) 0 0 ∧ frameSlices (engaged 16 1) 0 0 ≤ 1 + 1 := by decide +kernel

theorem wit_MediaEngines_unpark :
    let s := mediaState (ctxRec 0 3 0 0) { parkedBuf := [(0, 0)], marks := [(0, { output := true })] }
    takeFirst (fun x => x.1 == 0) (partOf s 0).parkedBuf = some ((0, 0), []) ∧ bufferFor s 0 0 = some 1 ∧ idleEngine s 0 0 = some 0 := by
  decide +kernel

theorem wit_MediaEngines_output :
    let s := putFar (mediaState (ctxRec 0 3 0 15) {}) 4 [2]
    ctxState s 0 0 = 3 ∧ ctxField s 0 0 4 1 = 2 ∧ ringFull s 0 0 = false ∧ (ctxSt s 0 0).held = [] ∧ (ctxSt s 0 0).need ≤ bsFree s 0 0 ∧
      idleEngine s 0 0 = some 0 := by decide +kernel

theorem wit_MediaEngines_drain :
    let s := fun k => mediaState (ctxRec 0 4 0 0) { ctxs := [(0, { drainKind := k })] }
    ctxState (s 1) 0 0 = 4 ∧ (ctxSt (s 1) 0 0).held = [] ∧ (ctxSt (s 1) 0 0).drainKind = 1 ∧ (ctxSt (s 2) 0 0).drainKind = 2 ∧
      ctxState (s 3) 0 0 = 4 ∧ (ctxSt (s 3) 0 0).drainKind = 3 := by decide +kernel

/-- A sample's entry: frames from 4 in steps of 3, two of them, in two slots, by the operation list at 1,024. -/
def sampleRaw : List Byte :=
  leBytes 8 0x10 ++ leBytes 4 4 ++ leBytes 2 2 ++ leBytes 2 3 ++ leBytes 2 2 ++ [0, 2] ++ leBytes 4 0 ++ leBytes 8 1024 ++
    leBytes 16 0 ++ leBytes 8 4096 ++ leBytes 72 0

/-- An operation list of one phase: 16 × 16 outputs in patches of one pixel. -/
def opList : List Byte :=
  leBytes 64 1 ++ leBytes 8 0 ++ leBytes 2 16 ++ leBytes 2 16 ++ [1, 1, 1, 0] ++ leBytes 112 0

/-- Context 0 with an output record of frame `f` waiting. -/
def sampling (f : Nat) (q : Part) : State := putFar (putFar (mediaState (ctxRec 0 2 0 1) q) 1024 opList) 2052 (leBytes 4 f)

def aSample : Sample := { ref := ref0, raw := sampleRaw, ctx := 0, jobSeq := 0 }

theorem wit_Samples_sample :
    (partOf (sampling 4 {}) 0).job = some {} ∧ activeSample (sampling 4 {}) 0 0 = none ∧ hasWriter (sampling 4 {}) 0 = true ∧
      sampleCheck (sampling 4 {}) 0 aSample = .inr 0 ∧ aSample.ctx < latched (sampling 4 {}) 0 (Ad.partMediaCtxCount 0) ∧
      ctxKind (sampling 4 {}) 0 0 = 0 ∧ ctxState (sampling 4 {}) 0 0 ∈ [1, 2, 3] := by decide +kernel

theorem wit_Samples_lookup :
    sampleCheck (sampling 4 {}) 0 aSample = .inr 0 ∧ (partOf (sampling 4 {}) 0).cache = [] ∧ (cacheEnt live 0 7).state ≠ 2 := by
  decide +kernel

/-- What the writer finds at the record of frame `f`. -/
def taking (f : Nat) : Bool :=
  let s := sampling f { samples := [aSample] }
  let r := (farView s 0 (ctxField s 0 0 40 8 % 2 ^ 41 + 32 * (ctxField s 0 0 56 4 % max (ctxField s 0 0 48 4) 1)) 32).1
  activeSample s 0 0 = some aSample && decide (ctxState s 0 0 ≠ 5) && aSample.forming.isNone && aSample.lastIndex.isNone &&
    decide (ctxField s 0 0 52 4 ≠ ctxField s 0 0 56 4) && decide (fieldLE r 4 4 = f) && decide (f < aSample.last)

theorem wit_Samples_take : taking 3 = true ∧ 3 < aSample.first ∧ taking 5 = true ∧ (5 - aSample.first) % aSample.step ≠ 0 ∧ taking 7 = true ∧
    (7 - aSample.first) % aSample.step = 0 ∧ aSample.first ≤ 7 ∧ aSample.slots < aSample.nslots ∧
    writerFor (sampling 7 { samples := [aSample] }) 0 = some 18 := by decide +kernel

theorem wit_Samples_done :
    let y : SampleSlot := { slot := 0, record := [], phase := 0 }
    let x := { aSample with forming := some y }
    activeSample (sampling 4 { samples := [x] }) 0 0 = some x ∧ x.forming = some y ∧ frameWaits (sampling 4 { samples := [x] }) 0 x y = false := by
  decide +kernel

/-! ### The transport -/

/-- A partition with port 0 (up) and one reserved packet credit, whose network is as given. -/
def netState (w : Net) (credits : Nat) : State :=
  let q : Part :=
    { dies := [0], groups := [0], usable := [0], job := some {},
      formed := [(Ad.partNctPortMask 0, 1), (Ad.partNetCreditMin 0, credits), (Ad.partNctSessionQuota 0, 4)],
      latched := [(Ad.partNctRegionCount 0, 1), (Ad.partNctRegionBase 0, 0)] }
  { withPart q with od := [(Ad.netPortState 0, 2), (Ad.partNctAccept 0, 1)], net := w }

/-- An open session of partition 0. -/
def opened : Sess := { state := .opened, window := 1, windowMax := 16, peer := 7 }

def oneSess (x : Sess) : Net := { sessions := [(0, x)] }

/-- A network whose die 0 has no packet memory left. -/
def fullNet (w : Net) : State := netState { w with inPkts := List.replicate 16384 ⟨0, 0, 0, 1, true⟩ } 0

theorem wit_Frames_pause : ({ aFrame with pause := true } : EthFrame).pause = true := by decide +kernel

theorem wit_Frames_packet :
    let s := netState (oneSess opened) 1
    let f := { aFrame with udpPort := some (atReset s Ad.netNctUdpPort) }
    f.pause = false ∧ f.bytes ≤ 4226 ∧ f.vlan = false ∧ f.macOk = true ∧ f.dstPart = some 0 ∧ f.icmp = false ∧
      f.udpPort = some (atReset s Ad.netNctUdpPort) ∧ f.checksumOk = true ∧ unauthentic s f 0 = false ∧
      creditFor s 0 (portDie 0) = some false ∧ (framePkt f).type = 1 ∧ (framePkt (frameOf { aPkt with type := 4 })).type = 4 ∧
      unauthentic s (frameOf { aPkt with type := 11 }) 0 = true := by decide +kernel

theorem wit_Frames_no_credit :
    unauthentic (fullNet (oneSess opened)) aFrame 0 = false ∧ creditFor (fullNet (oneSess opened)) 0 (portDie 0) = none := by decide +kernel

theorem wit_Frames_icmp :
    let s := netState { icmp := [(31, 1)], ocSent := [] } 1
    tget s.net.icmp 31 = some (0 + 1) ∧ (⟨true, true⟩ : OcFrame).srcMacOk = true ∧ (⟨true, true⟩ : OcFrame).srcPrefixOk = true ∧
      ((tget s.net.ocSent 31).filter fun x => x.1 = nowNs s / 10 ^ 9).elim 0 Prod.snd < 10000 := by decide +kernel

/-- A region of 4 KiB of the far tier that peers may write: key 0. -/
def regionState : State := putFar (netState (oneSess opened) 1) 0 ([0xE8, 0, 0, 0, 0, 0, 0, 0] ++ leBytes 8 0 ++ leBytes 8 4096)

theorem wit_ReceivedPackets_data :
    let k := { aPkt with offset := 4095, payload := [1] }
    k.response = false ∧ k.rkey / 65536 ≠ 0xFFFF ∧ (sessOf regionState k.dst).state = .opened ∧
      sessRuns regionState (sessOf regionState k.dst) = true ∧ (rxFilter regionState k.dst k).isNone = true ∧
      regionAccess regionState (sessOf regionState k.dst).part k.rkey k.offset k.payload.length true = .inr (2 * 2 ^ 48, 4095) ∧
      netHolds regionState 0 (2 * 2 ^ 48) 4095 1 = false := by decide +kernel

/-- Packet 5 of message 0 of session 0 sent and not acknowledged, the message one of three packets. -/
def sentState : State :=
  netState { (oneSess { opened with unacked := [⟨{ aPkt with psn := 5 }, 0⟩] }) with msgs := [(0, { sess := 0, msn := 0, op := 0x20, count := 3 })] } 1

theorem wit_ReceivedPackets_ack :
    let k := { aPkt with type := 4, payload := leBytes 24 6 }
    (sessOf sentState k.dst).state = .opened ∧ staleMsg sentState k.msg = false ∧
      (sessOf sentState k.dst).unacked = [⟨{ aPkt with psn := 5 }, 0⟩] ∧
      ackCovers (fieldLE k.payload 0 8) (fieldLE k.payload 8 8) 5 = true ∧ aPkt.retrans = false ∧ aPkt.response = false ∧ aPkt.type = 1 ∧
      (tget sentState.net.msgs (aPkt.msg / 4096)).any (fun m => decide ((addTo m.acked 0).length < m.count)) = true := by decide +kernel

theorem wit_ReceivedPackets_nak :
    let k := { aPkt with type := 5, payload := leBytes 8 0 ++ [2] }
    (sessOf sentState k.dst).state = .opened ∧ fieldLE k.payload 8 1 ≠ 1 ∧
      staleMsg (modSess (noteRx sentState k.dst k) k.dst fun y => { y with backoff := 0 }) (fieldLE k.payload 0 4) = false := by
  decide +kernel

theorem wit_ReceivedPackets_close :
    (sessOf sentState aPkt.dst).state = .opened ∧ (sessOf (netState (oneSess { opened with state := .rekeying }) 1) aPkt.dst).state = .rekeying := by
  decide +kernel

/-- A handshake message from a trusted peer, with a refusal's code. -/
def shake (code : Nat) : Shake := ⟨0, 7, 3, 0, leBytes 2 65535 ++ leBytes 102 0 ++ leBytes 2 1 ++ leBytes 1 code, true, true, 0, 0⟩

theorem wit_Handshakes_hello :
    let s := netState {} 1
    let again := netState (oneSess { opened with peerSess := 3, peerPub := shakePub (shake 0) }) 1
    keysMade s = true ∧ repeatOf s (shake 0) = none ∧ helloRefusal s (shake 0) = none ∧ freeSess s = some 0 ∧ repeatOf again (shake 0) = some 0 ∧
      repeatOf (netState {} 0) { shake 0 with chainOk := false } = none ∧
      helloRefusal (netState {} 0) { shake 0 with chainOk := false } = some 0x27 := by decide +kernel

theorem wit_Handshakes_reply :
    let s := netState (oneSess { state := .opening, eph := some 5, ref := some ref0 }) 1
    (sessOf s (shake 0).dst).state = .opening ∧ (sessOf s (shake 0).dst).eph = some 5 ∧ shakeCode (shake 0) = 0 ∧
      s.nv.level - 1 ≤ shakeLevel (shake 0) ∧ identityOk s (sessOf s (shake 0).dst).part (shake 0) = true ∧
      (sessOf s (shake 0).dst).ref = some ref0 := by decide +kernel

theorem wit_Handshakes_rekey :
    let s := netState (oneSess { opened with keyPkts := 2 ^ 47 }) 1
    let t := netState (oneSess { opened with state := .rekeying, eph := some 5 }) 1
    (sessOf s 0).state = .opened ∧ keysMade s = true ∧ 2 ^ 47 ≤ (sessOf s 0).keyPkts ∧ (sessOf s 0).eph = none ∧ (sessOf s 0).newKeys = none ∧
      (sessOf t 0).state = .rekeying ∧ (sessOf t 0).eph = some 5 := by decide +kernel

theorem wit_Handshakes_store :
    let h : Handshake := ⟨0, 7, 3, true, 0, 0⟩
    let fresh := netState { (oneSess { state := .opening, peer := 7 }) with handshakes := [h] } 1
    let made := netState { (oneSess { state := .opening, peer := 7, ephPub := some [] }) with handshakes := [h, { h with code := 0x27 }] } 1
    fresh.net.handshakes = [h] ∧ shakeDue fresh h = true ∧ (sessOf fresh 0).ephPub = none ∧ keysMade fresh = true ∧
      shakeDue made h = true ∧ (sessOf made 0).ephPub.isSome = true ∧ ({ h with code := 0x27 } : Handshake).code ≠ 0 := by decide +kernel

theorem wit_Handshakes_timers :
    let xs : Tbl Sess := [(0, { state := .opening, hellos := 5 }), (65535, { state := .closing })]
    let s := netState { sessions := xs } 1
    (sessOf s 0).state = .opening ∧ (sessOf s 65535).state = .closing ∧ (sessOf s 0).ref = none ∧
      tget s.net.sessions 0 = some { state := .opening, hellos := 5 } := by decide +kernel

/-- A request of Table 12.5 for session 0: 4,097 bytes from the far tier at 0 to region 0. -/
def nctRaw (op : Nat) : List Byte :=
  leBytes 2 op ++ leBytes 2 0 ++ leBytes 4 4097 ++ leBytes 8 (2 * 2 ^ 48) ++ leBytes 112 0

theorem wit_TransportRequests :
    let s := netState (oneSess opened) 1
    (partOf s 0).job = some {} ∧ freeId s = some 0 ∧ reqReserved (leBytes 1 0x20 ++ (nctRaw 0x20).drop 1) = false ∧
      sessInvalid s 0 (fieldLE (nctRaw 0x20) 2 2) = false ∧ placeBad s 0 (fieldLE (nctRaw 0x20) 8 8) 4097 = false ∧
      fieldLE (nctRaw 0x20) 4 4 = 4097 ∧ fieldLE (nctRaw 0x20) 18 2 ≠ 0xFFFF := by decide +kernel

theorem wit_TransportRequests_open :
    let s := netState {} 1
    reqReserved (leBytes 128 0x24) = false ∧ sessCount s 0 < formed s 0 (Ad.partNctSessionQuota 0) ∧ freeSess s = some 0 ∧
      keysMade s = true := by decide +kernel

theorem wit_TransportRequests_fence :
    let s := netState { (oneSess opened) with fences := [⟨ref0, 0, 0, 0, 0⟩] } 1
    s.net.fences = [⟨ref0, 0, 0, 0, 0⟩] ∧ sessMsgs s 0 = [] := by decide +kernel

/-- A session with one message to send. -/
def sending (m : Msg) (wait : List Nat) : Net := { (oneSess opened) with msgs := [(0, m)], waitCredit := wait }

theorem wit_Transmission_send :
    let s := netState (sending { sess := 0, msn := 0, op := 0x22 } [0]) 1
    (sessOf s 0).mayTransmit = true ∧ nextTx s 0 ≠ .nothing ∧ nextPort s (sessOf s 0) = some 0 ∧
      creditFor s (sessOf s 0).part (portDie 0) = some false ∧ portServes s 0 0 = true ∧ txSource s 0 = none ∧ s.net.waitCredit = [0] := by
  decide +kernel

/-- A PUT's first packet, of 512 bytes of the far tier at 4,096. -/
theorem wit_Transmission_source :
    let s := netState (sending { sess := 0, msn := 0, op := 0x20, source := 2 * 2 ^ 48 + 4096, length := 512 } []) 1
    nextTx s 0 ≠ .nothing ∧ portServes s 0 0 = true ∧ txSource s 0 = some (2 * 2 ^ 48 + 4096, 512) ∧
      (netStop s 0 (2 * 2 ^ 48 + 4096) 512).isNone = true := by decide +kernel

theorem wit_Transmission_wait :
    let s := fullNet (sending { sess := 0, msn := 0, op := 0x22 } [])
    (sessOf s 0).mayTransmit = true ∧ nextTx s 0 ≠ .nothing ∧ nextPort s (sessOf s 0) = some 0 ∧
      creditFor s (sessOf s 0).part (portDie 0) = none := by decide +kernel

theorem wit_Transmission_timers :
    let s := netState { (oneSess { opened with rxPend := 1, unacked := [⟨aPkt, 0⟩] }) with
      msgs := [(0, { sess := 0, msn := 0, op := 0x20, rnr := true })] } 1
    (sessOf s 0).sends = true ∧ 0 < (sessOf s 0).rxPend ∧ (sessOf s 0).unacked ≠ [] ∧ (sessOf s 0).state = .opened ∧
      (sessOf s 0).resps = [] ∧ (tget s.net.msgs 0).any (·.rnr) = true := by decide +kernel

theorem wit_Transmission_window : 1 ≤ opened.windowMax ∧ 1 ≤ opened.window := by decide +kernel

/-! ### Collectives -/

/-- A partition with one communicator, READY, of one member, and the calls given; its records lie from `base`. -/
def collStateAt (base : Nat) (calls : List Call) (held : List HeldPkt) : State :=
  let q : Part :=
    { dies := [0], groups := [0], usable := [0], job := some {}, calls := calls, heldPkts := held,
      formed := [(Ad.partCollCommCount 0, 1)], latched := [(Ad.partCollCommBase 0, base)] }
  let rec_ : List Byte := [0x40, 0, 8, 0] ++ leBytes 4 1 ++ leBytes 16 0 ++ leBytes 8 1024 ++ leBytes 4 5
  { putFar (withPart q) 0 rec_ with net := oneSess opened }

def collState : List Call → List HeldPkt → State := collStateAt 0

/-- A call of 64 FP32 elements on it, by algorithm DIRECT (RING for BROADCAST). -/
def collRaw (op alg : Nat) (epoch : Nat) : List Byte :=
  leBytes 1 op ++ leBytes 1 (16 * alg) ++ leBytes 4 0 ++ leBytes 2 epoch ++ leBytes 8 (2 * 2 ^ 48 + 4096) ++
    leBytes 8 (2 * 2 ^ 48 + 8192) ++ leBytes 8 64 ++ leBytes 96 0

def collCheck (op alg epoch : Nat) : Option Nat :=
  let c : Call := { ref := ref0, raw := collRaw op alg epoch, comm := 0, jobSeq := 0, epoch := epoch, seq := 0, alg := 0 }
  c.check (collState [] []) 0 alg

theorem wit_CollectiveCalls_issue :
    (partOf (collState [] []) 0).job = some {} ∧ collCheck 0x30 3 0 = none ∧ collCheck 0x31 3 0 = none ∧ collCheck 0x32 3 0 = none ∧
      collCheck 0x33 3 0 = none ∧ collCheck 0x35 1 0 = none ∧ collCheck 0x30 3 7 = some 1 ∧
      0 < formed (collState [] []) 0 (Ad.partCollCommCount 0) ∧
      addrFault (collState [] []) 0 2 (latched (collState [] []) 0 (Ad.partCollCommBase 0)) (64 * 0 + 64) = none ∧
      addrFault (collStateAt (2 ^ 45) [] []) 0 2 (2 ^ 45) 64 = some .addressFormatInvalid := by decide +kernel

def aCall (op : Nat) (started : Bool) : Call :=
  { ref := ref0, raw := collRaw op 3 0, comm := 0, jobSeq := 0, epoch := 0, seq := 0, alg := 3, started := started }

theorem wit_CollectiveCalls_permute_issue :
    let c : Call := { aCall 0x34 false with raw := leBytes 6 0x34 ++ leBytes 122 1, epoch := 1, alg := 0 }
    c.check (collState [] []) 0 3 = none := by decide +kernel

theorem wit_CollectiveCalls_start :
    let s := collState [aCall 0x30 false] []
    callRuns s 0 (aCall 0x30 false) = true ∧ (partOf s 0).calls.find? (fun c => c.comm = 0 && !c.started) = some (aCall 0x30 false) ∧
      (aCall 0x30 false).op ≠ 0x34 ∧ slotFree s 0 (aCall 0x30 false) = true := by decide +kernel

theorem wit_CollectiveCalls_permute :
    let s := collState [aCall 0x34 false] []
    callRuns s 0 (aCall 0x34 false) = true ∧ (partOf s 0).calls.find? (fun c => c.op = 0x34) = some (aCall 0x34 false) ∧
      slotFree s 0 (aCall 0x34 false) = true ∧ ((partOf s 0).calls.find? fun x => x.comm = 0 && !x.started).map (·.ref) = some ref0 := by
  decide +kernel

/-- A PERMUTE of no entries of its own and no places due is complete once started. -/
theorem wit_CollectiveCalls_complete :
    let c : Call := { aCall 0x34 true with raw := leBytes 1 0x34 ++ leBytes 127 0 }
    let s1 := collAdvanceAll (collState [c] []) 0
    (partOf s1 0).calls.find? (fun d => d.comm = 0 && d.seq = 0 && d.complete s1 0) = some c := by decide +kernel

/-- A packet of a collective's slot 0, epoch 0, SEQ 0: data at STEP 0, or a control message of a KIND. -/
def collPkt (kind : Nat) : Pkt :=
  if kind = 0 then { aPkt with rkey := 0xFFFF0000 }
  else { aPkt with rkey := 0xFFFF0000, offset := 0x3FFFF * 2 ^ 10, payload := leBytes 32 kind }

theorem wit_CollectivePackets_given :
    let s := collState [aCall 0x30 true] []
    (collPkt 0).rkey / 65536 = 0xFFFF ∧ (rxStop s (collPkt 0)).isNone = true ∧ epochIs s 0 (collId (collPkt 0)).1 ≠ .closed ∧
      callFor s 0 (collPkt 0) = some (aCall 0x30 true) ∧ collKind (collPkt 1) = 1 ∧ collKind (collPkt 5) = 5 ∧
      callFor s 0 (collPkt 5) = some (aCall 0x30 true) := by decide +kernel

theorem wit_CollectivePackets_held :
    let s := collState [] []
    (rxStop s (collPkt 0)).isNone = true ∧ epochIs s 0 (collId (collPkt 0)).1 ≠ .closed ∧ callFor s 0 (collPkt 0) = none ∧
      (holdPkt s 0 0 (collPkt 0)).isSome = true := by decide +kernel

theorem wit_CollectivePackets_control :
    let s := collState [aCall 0x30 true] []
    (rxStop s (collPkt 2)).isNone = true ∧ collKind (collPkt 2) = 2 ∧ collKind (collPkt 3) = 3 ∧ collKind (collPkt 4) = 4 ∧
      (callFor (rxPlaced (noteRx s 0 (collPkt 2)) 0 (collPkt 2)) 0 (collPkt 2)).isSome = true ∧
      (callFor (rxPlaced (noteRx s 0 (collPkt 3)) 0 (collPkt 3)) 0 (collPkt 3)).isSome = true := by decide +kernel

/-! ### Jobs -/

/-- A partition in a state of Table 14.2 with an enabled queue in the far tier and an entry of `op` at its head. -/
def queued (state op : Nat) (q : Part) : State :=
  let x : Queue := { enabled := true, base := 2 ^ 63 + 4096, tail := 1 }
  let r : Part := { q with dies := [0], groups := [0], usable := [0], queues := [(0, x)] }
  let far : Mem := [(farKey (withPart r) 0 4160, BitVec.ofNat 8 op)]
  let od : Tbl Nat := [(Ad.partState 0, state), (Ad.cdClearDone, 1)]
  { withPart r with od := od, far := far, server := { ready := true }, dies := [(0, { treeDone := true })] }

theorem wit_QueuesAndJobs_doorbell :
    (queueOf (queued 4 0x20 {}) 0 0).enabled = true ∧ (0 + 2 ^ 32 - (queueOf (queued 4 0x20 {}) 0 0).head) % 2 ^ 32 ≤ 2 ^ 0 ∧
      (queueOf (queued 4 0x20 {}) 0 0).log2 = 0 ∧ 2 ^ 0 < (2 + 2 ^ 32 - (queueOf (queued 4 0x20 {}) 0 0).head) % 2 ^ 32 := by
  decide +kernel

theorem wit_QueuesAndJobs_entry :
    let s := queued 4 0x20 { job := some {} }
    headPending s 0 0 = true ∧ headFault s 0 0 = none ∧ (headEntry s 0 0).2 = false ∧ unitOfOp (fieldLE (headEntry s 0 0).1 0 1) = some 2 ∧
      afterQueue (lowestClass s 0 (readyFor s 0 2)) ((tget (partOf s 0).lastQueue 2).getD 63) = some 0 := by decide +kernel

theorem wit_QueuesAndJobs_start :
    let s := queued 2 0x40 {}
    jobHead s 0 0 = true ∧ takesNow s 0 (.fresh 0) = true ∧ (headEntry s 0 0).2 = false ∧ changesTenant s 0 0 = false ∧
      (jobOf s 0 0 (headEntry s 0 0).1).tenant = 0 ∧ (partOf s 0).confidential = false := by decide +kernel

theorem wit_QueuesAndJobs_done :
    inState (queued 4 0x20 { job := some {} }) 0 .running = true ∧ treesUp (queued 4 0x20 { job := some {} }) 0 = true := by
  decide +kernel

theorem wit_QueuesAndJobs_ring :
    let h : HeldRec := ⟨List.replicate 64 0, 0, 0, 0⟩
    let s := queued 2 0x40 { heldRecs := [h], latched := [(Ad.partCompletionSlots 0, 16)] }
    (partOf s 0).heldRecs = [h] ∧ compFull s 0 = false := by decide +kernel

/-- A running job on a die whose tree is not up. -/
def busy (j : Job) (q : Part) : State := { queued 4 0x40 { q with job := some j } with dies := [] }

theorem wit_Switching_preempt :
    preemptCode (busy { save := 4096 } {}) 0 0 = 0 ∧ (partOf (busy { save := 4096 } {}) 0).job = some { save := 4096 } ∧
      preemptCode (queued 2 0x40 {}) 0 0 = 1 ∧ 1 < preemptCode (busy {} {}) 0 0 := by decide +kernel

/-- A switch under way, at a step, from a job of tenant `t`. -/
def switching (step t : Nat) (scrubs : List Nat) : State :=
  queued 5 0x40 { job := some { tenant := t }, switch := some { step := step, incoming := .fresh 0 }, scrubs := scrubs }

theorem wit_Switching_steps :
    inState (switching 0 0 []) 0 .switching = true ∧ (partOf (switching 0 0 []) 0).switch = some { step := 0, incoming := .fresh 0 } ∧
      incomingTenant (switching 1 0 []) 0 (.fresh 0) = 0 ∧ incomingTenant (switching 1 7 []) 0 (.fresh 0) ≠ 7 ∧
      (partOf (switching 1 7 []) 0).job = some { tenant := 7 } := by decide +kernel

/-- What is left to scrub after an item, and the partition's state. -/
def afterScrub (s : State) (item : Nat) : List Nat × Nat :=
  let s1 := modPart (scrubItem s 0 item) 0 fun q => { q with scrubs := q.scrubs.filter (· ≠ item) }
  ((partOf s1 0).scrubs, odGet s1 (Ad.partState 0))

theorem wit_Switching_scrubs :
    (partOf (switching 2 7 [3, 4]) 0).scrubs.contains 3 = true ∧ afterScrub (switching 2 7 [3, 4]) 3 = ([4], 5) ∧
      afterScrub (switching 2 7 [4]) 4 = ([], 5) ∧ afterScrub (queued 1 0x40 { scrubs := [2] }) 2 = ([], 1) ∧
      afterScrub (queued 7 0x40 { scrubs := [9] }) 9 = ([], 7) := by decide +kernel

theorem wit_Switching_resume :
    let j : Job := { seq := 3, saved := some {}, sems := [(255, 65534)], pendingIncs := [(255, 1)] }
    (partOf (queued 2 0x20 { parked := [j] }) 0).parked.find? (fun k => takesNow (queued 2 0x20 { parked := [j] }) 0 (.parked k.seq)) = some j ∧
      j.saved = some {} ∧ ∀ e ∈ (addPending j).sems, e.2 ≤ 65535 := by decide +kernel

/-! ### The dictionary -/

/-- The module up, its firmware running, its server ready; partition 0 formed, partition 15 idle. -/
def upState : State :=
  let b : Boot := { railsUp := true, scUp := true, perstN := true }
  let od : Tbl Nat := [(Ad.partState 0, 2), (Ad.partLoadLength 0, 64), (Ad.partState 15, 2), (Ad.memGroupState 15, 0)]
  { live with boot := b, server := { ready := true }, od := od }

def callerS : Caller := ⟨.S, 0, 0⟩

/-- A WRITE that meets the hypotheses of RegisterWrites: the value is bad or good as said. -/
def writable (c : Caller) (f : List Byte) (bad : Bool) : Bool :=
  accepted upState c f && decide (frameOp f = 2) && (findRow (frameAddr f)).any fun r =>
    decide (r.ty ≠ .dom) && decide (r.id ≠ .fwImageWrite) && decide (r.id ≠ .secDebugToken) && decide (r.access c.cls ≠ some .w1c) &&
      decide (valueBad upState (frameAddr f) r (leNat (frameData f)) = bad)

/-- WRITE frames with values the owning chapter takes. -/
def frames : List (List Byte) :=
  [writeFrame Ad.blockClockStop 4 2 7, writeFrame Ad.blockPowerOff 4 2 7, writeFrame Ad.secBlockOwner 4 0 7,
    writeFrame Ad.commRestoreDefaults 1 1 7, writeFrame Ad.errPartReset 1 0 7, writeFrame Ad.errSpareSwap 2 (15 * 256 + 1) 7,
    writeFrame Ad.errGroupRetire 1 15 7, writeFrame Ad.almClear 1 1 7, writeFrame Ad.memGroupRetrain 1 15 7,
    writeFrame Ad.marginRequest 8 (marginValue 1 0 0) 7, writeFrame Ad.marginRequest 8 (marginValue 1 0 1) 7,
    writeFrame Ad.marginRequest 8 (marginValue 2 0 0) 7, writeFrame (Ad.cdCclkMhz 15) 2 600 7,
    writeFrame (Ad.partLoadTarget 0) 8 0 7, writeFrame (Ad.anemSelect 0) 4 1 7, writeFrame (Ad.pinFunction 0) 1 0 7,
    writeFrame (Ad.partQueueConfig 0 63) 4 (4 * 2 ^ 16) 7]

def commandFrames : List (List Byte) :=
  [writeFrame (Ad.partCommand 15) 1 1 7, writeFrame (Ad.partCommand 15) 1 2 7,
    writeFrame (Ad.partCommand 15) 1 3 7, writeFrame Ad.fwActivate 1 1 7, writeFrame Ad.fwActivate 1 2 7, writeFrame Ad.fwActivate 1 3 7]

/-- WRITE frames with values the owning chapter rejects. -/
def badFrames : List (List Byte) :=
  [writeFrame Ad.commRestoreDefaults 1 0 7, writeFrame Ad.errPartReset 1 16 7, writeFrame Ad.errSpareSwap 2 0xFFFF 7,
    writeFrame Ad.errGroupRetire 1 16 7, writeFrame Ad.memGroupRetrain 1 16 7, writeFrame (Ad.cdCclkMhz 0) 2 599 7,
    writeFrame (Ad.cdCclkMhz 15) 2 1601 7, writeFrame (Ad.cdCclkMhz 15) 2 1575 7, writeFrame (Ad.partLoadTarget 0) 8 1 7,
    writeFrame (Ad.anemSelect 0) 4 0 7, writeFrame (Ad.pinFunction 0) 1 255 7, writeFrame (Ad.partQueueConfig 0 63) 4 0 7]

theorem wit_RegisterWrites_good : frames.all (fun f => writable callerS f false) = true := by decide +kernel

theorem wit_RegisterWrites_commands : commandFrames.all (fun f => writable callerO f false) = true := by decide +kernel

theorem wit_RegisterWrites_bad : badFrames.all (fun f => writable callerO f true) = true := by decide +kernel

theorem wit_RegisterWrites_frame : 0xFFFFFF < 2 ^ 24 ∧ 0xFFFF < 2 ^ 16 ∧ 8 ≤ 8 ∧ 2 ^ 64 - 1 < 256 ^ 8 := by decide

theorem wit_CclkValues :
    [599, 600, 1600, 1601, 1575].all (fun v =>
      accepted upState callerO (writeFrame (0x2100 * 256 + 16) 2 v 7) &&
        (findRow (frameAddr (writeFrame (0x2100 * 256 + 16) 2 v 7))).isSome) = true ∧
      15 < 16 ∧ (tget upState.nv.ceiling 15).getD Config.cclkCeilingMHz = 1600 := by decide +kernel

/-! ### Operations of the dictionary -/

/-- A frame: opcode, address, tag and data. -/
def aRequest (op a : Nat) (bs : List Byte) : List Byte := requestFrame op a 7 bs

/-- A transfer of the frame's caller, address and tag. -/
def transferOf (c : Caller) (f : List Byte) (total : Nat) : Transfer :=
  { caller := c, addr := frameAddr f, tag := frameTag f, total := total, data := List.replicate total 0 }

/-- `upState` with snapshots open. -/
def withSnaps (l : List Transfer) : State := { upState with server := { ready := true, snaps := l } }

theorem wit_DictionaryOperations_read :
    let f := aRequest 1 Ad.modPowerCapW []
    accepted upState callerO f = true ∧ frameOp f = 1 ∧ (findRow (frameAddr f)).any (fun r =>
      decide (r.ty ≠ .dom) && decide (r.ty ≠ .vis) && !openEntry r && decide (r.id ≠ .fwImageWrite) &&
        decide (r.id ≠ .secDebugToken) && decide (r.access callerO.cls ≠ some .rc)) = true := by decide +kernel

theorem wit_DictionaryOperations_window :
    let f := aRequest 1 Ad.almWindow []
    accepted upState callerO f = true ∧ (findRow (frameAddr f)).any (fun r => decide (r.ty = .dom) && decide (r.id = .almWindow)) = true := by
  decide +kernel

theorem wit_DictionaryOperations_segment :
    let f := aRequest 3 Ad.almWindow (leBytes 4 99 ++ leBytes 4 4)
    let x := transferOf callerO f 100
    let s := withSnaps [x]
    accepted s callerO f = true ∧ frameOp f = 3 ∧
      s.server.snaps.find? (fun x => Transfer.isFor x callerO (frameAddr f) (frameTag f)) = some x ∧
      fieldLE (frameData f) 0 4 < x.total ∧ callerO.transport = 0 ∧
      ((findRow (frameAddr f)).any fun r => r.id = .fwImageWrite ∨ r.id = .secDebugToken) = false := by decide +kernel

theorem wit_DictionaryOperations_abort :
    let f := aRequest 4 Ad.almWindow []
    accepted (withSnaps [transferOf callerO f 100]) callerO f = true ∧ frameOp f = 4 ∧
      ((findRow (frameAddr f)).any fun r => r.id = .fwImageWrite ∨ r.id = .secDebugToken) = false := by decide +kernel

theorem wit_DictionaryOperations_nonce :
    [Ad.attestNonce, Ad.partAttestNonce 15].all (fun a =>
      let f := domFrame a 7 (List.replicate 32 5)
      accepted upState callerO f && decide (frameOp f = 2) && (findRow (frameAddr f)).any fun r =>
        decide (r.ty = .dom) && decide (r.id ≠ .fwImageWrite) && decide (r.id ≠ .secDebugToken) &&
          decide (fieldLE (frameData f) 0 4 = 0) && decide (fieldLE (frameData f) 4 4 = ((frameData f).drop 8).length) &&
          !domBad r ((frameData f).drop 8)) = true := by decide +kernel

theorem wit_DictionaryOperations_image :
    let s := { upState with nv := { upState.nv with svn := some 0 } }
    let f := domFrame Ad.fwImageWrite 7 [1, 2, 3]
    accepted s callerO f = true ∧ frameOp f = 2 ∧ frameAddr f = Ad.fwImageWrite ∧
      (findRow (frameAddr f)).any (fun r => decide (r.ty = .dom) && decide (r.id = .fwImageWrite)) = true ∧
      fieldLE (frameData f) 0 4 = 0 ∧ fieldLE (frameData f) 4 4 = ((frameData f).drop 8).length ∧ imageOk s anImage = true := by
  decide +kernel

/-- A debug token of this device and challenge 0, level `l`. -/
def aToken (l : Byte) : List Byte :=
  leBytes 48 deviceId ++ leBytes 32 (Config.freeValue 0) ++ [l] ++ List.replicate 99 0

theorem wit_DictionaryOperations_token (l : Byte) (h : l = 1 ∨ l = 2) :
    let f := domFrame Ad.secDebugToken 7 (aToken l)
    accepted upState callerS f = true ∧ frameOp f = 2 ∧
      (findRow (frameAddr f)).any (fun r => decide (r.ty = .dom) && decide (r.id = .secDebugToken)) = true ∧
      fieldLE (frameData f) 0 4 = 0 ∧ fieldLE (frameData f) 4 4 = ((frameData f).drop 8).length ∧ (frameData f).drop 8 = aToken l ∧
      (aToken l).length = 180 ∧ slice (aToken l) 0 48 = leBytes 48 deviceId ∧
      slice (aToken l) 48 32 = leBytes 32 (Config.freeValue upState.sec.challenge) ∧
      (fieldLE (aToken l) 80 1 = 1 ∨ fieldLE (aToken l) 80 1 = 2) := by
  rcases h with rfl | rfl
  · exact ⟨by decide +kernel, by decide +kernel, by decide +kernel, by decide +kernel, by decide +kernel, rfl, by decide +kernel, rfl,
      rfl, .inl (by decide +kernel)⟩
  · exact ⟨by decide +kernel, by decide +kernel, by decide +kernel, by decide +kernel, by decide +kernel, rfl, by decide +kernel, rfl,
      rfl, .inr (by decide +kernel)⟩

/-! ### Transports, security, recovery -/

theorem wit_Transports_store :
    let f := writeFrame Ad.commEthIpv4Addr 4 0x01020304 7
    let x : StoreReq := ⟨callerO, f, Ad.commEthIpv4Addr, 0x01020304⟩
    ({ upState with server := { ready := true, store := [x, x] } } : State).server.store = [x, x] ∧ (findRow x.addr).isSome = true := by
  decide +kernel

/-- `upState` with mailbox `n` in a state. -/
def withPage (n k : Nat) : State := { upState with server := { ready := true, pages := [(n, { state := k })] } }

theorem wit_Transports_mailbox :
    transportUp (withPage 0 0) ⟨pageCls 0, 1, 0⟩ = true ∧ transportUp (withPage 16 2) ⟨pageCls 16, 1, 16⟩ = true ∧
      (pageOf (withPage 0 0) 0).state = 0 ∧ (pageOf (withPage 16 2) 16).state = 2 ∧ (pageOf (withPage 16 1) 16).state = 1 ∧
      (withPage 16 2).server.ready = true := by decide +kernel

theorem wit_Transports_mctp :
    [({ anMctp with sc := false } : Mctp), { anMctp with sc := true, transport := 3, eid := 255 }].all (fun m =>
      let c : Caller := { cls := if m.sc then .S else .O, transport := m.transport, ident := m.eid }
      transportUp upState c && decide (m.transport = 2 ∨ m.transport = 3) && !m.integrity && m.subTypeOk && m.ianaOk &&
        upState.server.ready && decide ((upState.server.outstanding.filter fun x => x.1.cls = c.cls && x.1.transport = c.transport).length = 0))
      = true := by decide +kernel

/-- `upState` with the management port open to one address. -/
def ethUp : State :=
  { upState with
    od := [(Ad.commEthClass, 1), (Ad.commEthAllowMask, 0xFFFFFFFF), (Ad.commEthAllowAddr, 0x0A000001)],
    latched := [(Ad.commEthIpv4Addr, 0x0A000002), (Ad.commEthUdpPort, 5000)] }

theorem wit_Transports_datagram :
    let d : Datagram := ⟨0x0A000001, 65535, 5000, aRequest 1 Ad.modPowerCapW []⟩
    transportUp ethUp ⟨.O, 4, d.addr * 65536 + d.port⟩ = true ∧ d.dstPort = atReset ethUp Ad.commEthUdpPort ∧
      d.frame.length = 8 + frameLen d.frame ∧
      d.addr &&& odGet ethUp Ad.commEthAllowMask = odGet ethUp Ad.commEthAllowAddr &&& odGet ethUp Ad.commEthAllowMask ∧
      atReset ethUp Ad.commEthIpv4Addr ≠ 0 ∧ ethUp.server.ready = true ∧ ethUp.server.kept = [] ∧ ethUp.server.outstanding = [] := by
  decide +kernel

theorem wit_Security_drbg : 65536 ≤ ({ live with sec := { live.sec with drbg := 65536 } } : State).sec.drbg := by decide +kernel

theorem wit_Security_load :
    let l : Load := { target := 0, length := 1024, tenant := 0 }
    let s := { withPart { dies := [0], groups := [0], usable := [0], load := some l } with boot := { railsUp := true, pcieUp := true } }
    (partOf s 0).load = some l ∧ s.boot.pcieUp = true ∧ (List.replicate 512 (1 : Byte)) ≠ [] ∧
      (List.replicate 512 (1 : Byte)).length ≤ 512 ∧ 512 % 4 = 0 ∧ l.next + 512 < l.length ∧ farWaits s 0 (l.target + l.next) 512 = false ∧
      1 ≠ l.next % 2 ^ 24 := by decide +kernel

theorem wit_Security_report :
    let n : List Byte := List.replicate 32 5
    let s := { upState with sec := { upState.sec with meas := { nonces := [(.O, n)] } } }
    s.boot.scUp = true ∧ classGet (measOf s none).nonces .O = some n ∧ classGet (measOf s none).reports .O = none := by decide +kernel

theorem wit_Security_spdm :
    scAnswers upState = true ∧ 0 < (spdmChain upState).length ∧ spdmAsked upState 0 = some [] ∧ (spdmAsked upState 255).isSome = true ∧
      255 ∉ [0x81, 0x82, 0x84, 0xE0, 0xE1, 0xE3] :=
  ⟨by decide +kernel, by simp [spdmChain, leBytes], rfl, rfl, by decide⟩

theorem wit_Security_activation :
    let s := { upState with boot := { upState.boot with ocPending := true, ocRestart := true } }
    s.boot.ocPending = true ∧ s.server.ready = true ∧ idlePoint s = true ∧ s.boot.ocRestart = true ∧
      slotGood { s with boot := { s.boot with ocPending := false } } true (!s.nv.oc.active) = true := by decide +kernel

/-- `upState` with a recovery action running. -/
def acting (a : Action) : State := { upState with recovery := { running := some a } }

theorem wit_Recovery_actions :
    (∀ k ∈ [1, 2, 3, 4, 5, 6, 7], (acting { kind := k }).recovery.running = some { kind := k }) ∧
      resettable (acting { kind := 1, parts := [0] }) 0 = true ∧ (4 * 80 + 79 = 80 * 4 + 79 ∧ 79 < 80) ∧
      groupOwner (acting { kind := 4, target := 15 }) 15 = none ∧ (0 : Nat) ≠ Code.groupRetired.value ∧
      (acting { kind := 7 }).boot.railsUp = true ∧ engineNo false 17 ≠ engineNo true 1 ∧ heldReset (acting { kind := 7 }) = false := by decide +kernel

theorem wit_Recovery_done :
    let a : Action := { kind := 1, performed := true }
    (acting a).recovery.running = some a ∧ a.performed = true ∧ a.swap = none ∧ a.kind ≠ 7 := by decide +kernel

theorem wit_Recovery_almanac :
    let r : AlmRec := ⟨0, 0, 0, 0, 0, 0, 0, 0, 0, 0, 0, 0, 0⟩
    let s := fun e => ({ live with nv := { live.nv with alm := { stage := [r, r], erasing := e } } } : State)
    (s false).nv.alm.erasing = false ∧ (s false).nv.alm.stopped = false ∧ (s true).nv.alm.erasing = true ∧
      (s false).nv.alm.stage = [r] ++ [r] := by decide +kernel

/-! ### Bring-up, links and power -/

/-- `live` with a boot state. -/
def withBoot (b : Boot) : State := { live with boot := b }

theorem wit_BringUp_rails :
    (withBoot {}).boot.modEn = false ∧ (withBoot {}).boot.inputOk = true ∧ (withBoot {}).boot.railsUp = false ∧
      (withBoot { modEn := true }).boot.modEn = true ∧ (withBoot { inputOk := false }).boot.inputOk = false ∧
      (withBoot { armed := true }).boot.armed = true ∧ refOn (withBoot { armed := true }) .ref25 = true ∧
      refOn (withBoot { armed := true, refs := [] }) .ref25 = false := by decide +kernel

theorem wit_BringUp_resets :
    (∀ k ∈ [0, 2], heldReset (withBoot { railsUp := true, perstN := true, straps := k }) = false) ∧ bit 2 1 = true ∧ bit 0 1 = false ∧
      (withBoot { modResetN := false }).boot.modResetN = false ∧
      (withBoot { perstN := false, straps := 2 }).boot.modResetN = true := by decide +kernel

/-- Firmware being started. -/
def starting : State := { withBoot { railsUp := true, scUp := true } with od := [(Ad.bootStage, 2)] }

theorem wit_BringUp_boot :
    booting starting = true ∧ odGet starting Ad.bootStage ≠ 3 ∧ slotGood starting false starting.nv.sc.active = true ∧
      slotGood (passOver starting false) false (!starting.nv.sc.active) = true ∧
      slotGood { starting with nv := { starting.nv with level := 9 } } true starting.nv.oc.active = true ∧
      (withBoot { ocRestart := true }).boot.ocRestart = true := by decide +kernel

theorem wit_BringUp_training :
    (withBoot { training := true, round := 2 }).boot.round < 3 ∧ 3 ≤ (withBoot { training := true, round := 3 }).boot.round ∧
      (withBoot { training := true, round := 3 }).boot.training = true ∧ bit (withBoot { training := true }).boot.straps 2 = false ∧
      atReset (withBoot { training := true }) Ad.bootMarginAtStart ≠ 1 := by decide +kernel

theorem slice_replicate (x : Byte) (n off k : Nat) (h : off + k ≤ n) : slice (List.replicate n x) off k = List.replicate k x := by
  unfold slice
  apply List.ext_getElem
  · simp
  · intro i h1 h2
    simp only [List.length_map, List.length_range] at h1
    simp [List.getD_eq_getElem?_getD, List.getElem?_replicate, show off + i < n by omega]

theorem wit_BringUp_startMargin : ∀ g, g < 16 → groupFails (List.replicate 98304 127) g = false := by
  intro g hg
  simp only [groupFails, List.any_eq_false, List.mem_range]
  intro i hi
  rw [slice_replicate _ _ _ _ (by omega)]
  decide +kernel

theorem wit_BringUp_margin :
    (withBoot { startMargin := true }).boot.startMargin = true ∧
      (withBoot { margin := some (marginValue 1 0 0) }).boot.margin = some (marginValue 1 0 0) ∧
      (withBoot { margin := some 0 }).boot.startMargin = false ∧ bits (marginValue 1 0 0) 63 56 ≠ 2 := by decide +kernel

theorem wit_LinksAndPower_ports :
    let s := { upState with od := [(Ad.netPortState 31, 1), (Ad.bootStage, 4)] }
    odGet s (Ad.netPortState 31) = 1 ∧ refOn s (netRef (31 / 16)) = true ∧ blockCut s (22 + 31 / 16) = false ∧
      odGet s (Ad.netPortState 31) ≠ 3 ∧ portsRun { s with od := [(Ad.bootStage, 6), (Ad.netPortState 31, 0)] } = true ∧
      odGet { s with od := [(Ad.netPortState 31, 0)] } (Ad.netPortState (4 * 7 + 3)) = 0 ∧ refOn s (netRef (7 / 4)) = true ∧
      blockCut s (22 + 7 / 4) = false := by decide +kernel

theorem wit_LinksAndPower_pcie :
    upState.boot.railsUp = true ∧ upState.boot.tripLatched = false ∧ heldReset upState = false ∧ upState.boot.perstN = true ∧
      refOn upState .ref100 = true ∧ upState.boot.pcieUp = false ∧ (withBoot { pcieUp := true }).boot.pcieUp = true ∧
      32 ≤ (if 1 < 2 then 32 else 64) ∧ 64 ≤ (if 2 < 2 then 32 else 64) := by decide +kernel

theorem wit_LinksAndPower_groups :
    let s := { upState with od := [(Ad.memGroupState 15, 0), (Ad.bootStage, 4)] }
    odGet s (Ad.memGroupState 15) = 0 ∧ s.boot.railsUp = true ∧ 4 ≤ odGet s Ad.bootStage ∧ (grpOf s 15).firstRetrain = false ∧
      (grpOf { s with grps := [(15, { retraining := true })] } 15).retraining = true := by decide +kernel

theorem wit_LinksAndPower_pins :
    let s := fun (h : Option Nat) => ({ upState with pins := [(3, { next := some 1, held := h })] } : State)
    (pinOf (s none) 3).next = some 1 ∧ (pinOf (s none) 3).held = none ∧ (pinOf (s (some 2)) 3).held = some 2 := by decide +kernel

theorem wit_LinksAndPower_average :
    let cap := odGet (countMs upState 0 0 0) Ad.modPowerCapW
    let s1 := fun w => countMs upState w 0 0
    upState.boot.railsUp = true ∧ upState.boot.stepped = false ∧ odGet (s1 (cap + 1)) Ad.modPowerCapW < cap + 1 ∧
      cap ≤ odGet (s1 cap) Ad.modPowerCapW ∧ 95 * odGet (s1 cap) Ad.modPowerCapW ≤ 100 * cap := by decide +kernel

theorem wit_LinksAndPower_limit :
    Config.powerLimitW < Config.powerLimitW + 1 ∧ running upState = true ∧ (withBoot { overLimit := true }).boot.overLimit = true := by
  decide +kernel

theorem wit_LinksAndPower_trip :
    let s := { upState with od := [(Ad.bootStage, 6)] }
    s.boot.tripLatched = false ∧ s.boot.railsUp = true ∧ 4 < odGet s Ad.bootStage ∧ odGet s Ad.bootStage ≠ 8 ∧
      refOn (withBoot { refs := [] }) .ref25 = false := by decide +kernel

/-! ## Words and values of the spec -/

/-- A bundle with one slot, its 32-, 64- or 48-bit field placed by Table 2.2. -/
def slotAt (low field : Nat) : Bundle := Bundle.ofWord (BitVec.ofNat 256 (field * 2 ^ low))

/-- Table 2.3: SEM_SIGNAL of semaphore 0xA5, 0x3C + 1 times; SETCNT of counter 2 to 0x12345; LOOP on counter 1 to 0xABC. -/
theorem test_words_sync :
    (slotAt 224 0b000010_10100101_00111100_0000000000).sync.op = 2 ∧
      (slotAt 224 0b000010_10100101_00111100_0000000000).sync.sem = 0xA5 ∧
      (slotAt 224 0b000010_10100101_00111100_0000000000).sync.count = 0x3D ∧
      (slotAt 224 0b000100_10_0000_00010010001101000101).sync.ctr = 2 ∧
      (slotAt 224 0b000100_10_0000_00010010001101000101).sync.cnt = 0x12345 ∧
      (slotAt 224 0b000101_01_101010111100_000000000000).sync.target = 0xABC ∧
      (slotAt 224 0b000011_01_11000011_0000000000000000).sync.pred = 0xC3 := by decide +kernel

/-- Table 2.6: VFMA (0x04) of r33, r18, r10 into r5 under m3, DT BF16; VCVT (0x30) to E4M3, stochastic, of scale slot 0x9A5. -/
theorem test_words_vector :
    (slotAt 160 0b00000100_000101_100001_010010_001010_011_001_00_000000000000_000000000000).vec =
        ⟨4, 5, 33, 18, 10, 3, 1, 0, 0, 0⟩ ∧
      (slotAt 160 0b00110000_111111_000001_000000_000000_111_000_01_100110100101_000000000001).vec =
        ⟨0x30, 63, 1, 0, 0, 7, 0, 1, 0x9A5, 1⟩ := by decide +kernel

/-- Table 2.5: MMACZ of a BF16-format row from read stream 3 into row 0x2A of bank 2, ROWINC. -/
theorem test_words_matrix :
    (slotAt 112 0b0100_0000_10_101010_1_11_00000000000000000000000000000).mat = ⟨4, 0, 2, 0x2A, true, 3⟩ := by decide +kernel

/-- Table 2.9: a stream-in SSTART to the matrix array and a stream-out SSTOP from the accumulator. -/
theorem test_words_streams :
    (slotAt 64 0b0001_10_100000000000001_1_010000000000010_00000000000).sin = ⟨1, 2, 0x4001, 1, 0x2002⟩ ∧
      (slotAt 16 0b0010_1_0_000000000000011_01_110000000000001_0000000000).sout = ⟨2, 1, 3, 1, 0x6001⟩ ∧
      (slotAt 8 0xFE).rep = 0xFE := by decide +kernel

/-- R55's example: FP32 0.3 to E4M3. -/
theorem test_convert_example :
    (convertVal e4m3 false false .nearest (decodeVal fp32 0x3E99999A)).1 = 0x2A ∧
      (convertVal e4m3 false false (.stochastic 26215) (decodeVal fp32 0x3E99999A)).1 = 0x2A ∧
      (convertVal e4m3 false false (.stochastic 26214) (decodeVal fp32 0x3E99999A)).1 = 0x29 := by decide +kernel

/-- R57's example: a block to MXFP4 that holds 20.0, 2.6 and −0.7. -/
theorem test_block_example :
    (fun r : Nat × List Nat × Nat => (r.1, r.2.1)) (convertBlock e2m1 2 ([0x41A00000, 0x40266666, 0xBF333333].map fun c => (decodeVal fp32 c, true, Rounding.nearest)))
      = (0x81, [0b0110, 0b0001, 0b1000]) := by decide +kernel

/-- R215's example: BF16 20.0, 7.0 and −3.0 in a HAZE4 sub-block, and what they decode to: 16.0, 8.0 and −0. -/
theorem test_haze_example :
    let blk : List Byte := leBytes 2 0x41A0 ++ leBytes 2 0x40E0 ++ leBytes 2 0xC040 ++ List.replicate 250 (0 : Byte)
    ((hazeRow 4 0).map fun r =>
      let bs := hazeSub r blk 0
      (bs.take 3, fieldLE (hazeSubValues r bs 0) 0 2, fieldLE (hazeSubValues r bs 0) 2 2, fieldLE (hazeSubValues r bs 0) 4 2)) =
      some ([0x83, 0b00_001_010, 0b1], 0x4180, 0x4100, 0x8000) := by decide +kernel

/-- R212's example: non-zero groups 0–13 only. -/
theorem test_calm_example :
    let blk : List Byte := (List.replicate 14 (leBytes 8 0x3F80)).flatten ++ List.replicate 144 (0 : Byte)
    (calmBytes blk).take 4 = [0xFF, 0x3F, 0, 0] ∧ (calmBytes blk).length = 116 ∧ (encodeBlock 1 0 blk).info.format = 2 ∧ (encodeBlock 1 0 blk).info.sectors = 4 ∧ Meta.word ⟨2, 0, 4, 0⟩ = 0x20400000 ∧
      (encodeBlock 1 0 blk).bytes.length = 128 := by decide +kernel

/-- R187's example: 0x1234567 over groups 1, 5, 9 and 13 with inline ECC. -/
theorem test_place_example :
    placeOf [1, 5, 9, 13] 0x1234567 = ⟨1, 13, 197991⟩ ∧ physOffset true 197991 = 211047 ∧ checkOffset 197991 = 212864 := by
  decide +kernel

/-- The example of R242: amax history 3.1, 2.6, 2.9, 1.7, then a step of 8.0. -/
theorem test_scale_example :
    let r : ScaleRec := ScaleRec.ofBytes (leBytes 4 (2 ^ 31 + 2 ^ 26 + 3 * 2 ^ 22 + 2 ^ 18) ++ leBytes 4 (4 * 2 ^ 18) ++ leBytes 4 0x41000000 ++
      leBytes 20 0 ++ leBytes 4 0x40466666 ++ leBytes 4 0x40266666 ++ leBytes 4 0x4039999A ++ leBytes 4 0x3FD9999A ++ leBytes 48 0)
    scaleExp 1 1 0x40466666 = 6 ∧ (advanceSlot r).1.mexp = 4 ∧
      ((advanceSlot r).1.hist.take 4).map BitVec.toNat = [0x41000000, 0x40466666, 0x40266666, 0x4039999A] := by decide +kernel

/-- The example after Table 10.7: a 1080p buffer at 8-bit depth with motion export. -/
theorem test_layout_example :
    let x := layoutOf 1920 1080 8 1 false false true
    x.pitch = 2048 ∧ x.h16 = 1088 ∧ x.chromaAt = 2228224 ∧ x.motionRow = 1920 ∧ x.motionRows = 135 ∧ x.size = 3735552 := by
  decide +kernel

/-- The example of chapter 16: the request's bytes, and the responses to 1,200 and to 1,225 MHz. -/
theorem test_frame_example :
    writeFrame (Ad.cdCclkMhz 3) 2 1200 7 = [0x02, 0x04, 0x00, 0x21, 0x02, 0x00, 0x07, 0x00, 0xB0, 0x04] ∧
      (match exec (.cclkWrite callerO 7 3 1200) upState with
        | .next t => some (t.out.getLast?, odGet t (Ad.cdCclkMhz 3))
        | _ => none) = some (some (.response callerO [0x82, 0x04, 0x00, 0x21, 0x00, 0x00, 0x07, 0x00]), 1200) ∧
      (match exec (.cclkWrite callerO 7 3 1225) upState with
        | .next t => some (t.out.getLast?, odGet t (Ad.cdCclkMhz 3))
        | _ => none) =
          some (some (.response callerO [0xC2, 0x04, 0x00, 0x21, 0x04, 0x00, 0x07, 0x00, 0x08, 0, 0, 0]), 1600) := by
  decide +kernel

/-- A tenant may only read that entry: ACCESS_DENIED. -/
theorem test_frame_denied : frameCode upState ⟨.P 0, 1, 1⟩ (writeFrame (Ad.cdCclkMhz 3) 2 1200 7) = some 5 := by decide +kernel

/-- IEEE 754 values 1.5 × 2.0 = 3.0, 1/3 rounded, √2 rounded. -/
theorem test_float_values :
    mul32 0x3FC00000 0x40000000 = 0x40400000 ∧ div32 0x3F800000 0x40400000 = 0x3EAAAAAB ∧ sqrt32 0x40000000 = 0x3FB504F3 ∧
      rcpCode fp32 (decodeVal fp32 0x80000000) = 0xFF800000 ∧ log2Code fp32 (decodeVal fp32 0) = 0xFF800000 := by decide +kernel

end Sys2Proof.Tests
end

/-! # Proofs: a step of the machine -/

namespace Sys2Proof.Machine

/-- The queue's order: first in, first out, the front command with the queue's rest left to it. -/
theorem step_of_pending_cons {s : State} {c : Instr} {rest : List Instr} (h : s.pending = c :: rest) :
    step s = exec c { s with pending := rest } := by
  simp only [step, h]

/-- The part has no event of its own (log 9): what happens at a time comes as a command. -/
theorem step_of_pending_nil {s : State} (h : s.pending = []) : step s = .next s := by
  simp only [step, h]

/-- Settles O1: one case for each shape of the queue. -/
theorem stepRunsFront : Obligations.StepRunsFront := by
  unfold Obligations.StepRunsFront
  constructor
  case left =>
    intro c rest s hfront
    exact step_of_pending_cons hfront
  case right =>
    intro s hempty
    exact step_of_pending_nil hempty

end Sys2Proof.Machine

/-! # Proofs: what no command undoes -/

namespace Sys2Proof.Machine

/-- Every command keeps what nothing undoes: one arm per row of the table, each by the lemma about the row's own meaning. -/
theorem exec_keeps {s0 s : State} (hk : Keeps s0 s) (c : Instr) : ResKeeps s0 (exec c s) :=
  match c with
  | .fabricCrcFail src xfer => execFabricCrcFail_keeps hk src xfer
  | .fabricCreditReturn src dst cls capped => execFabricCreditReturn_keeps hk src dst cls capped
  | .cclkWrite c tag die mhz => execCclkWrite_keeps hk c tag die mhz
  | .clockHold die => execClockHold_keeps hk die
  | .clockHoldEnd die => execClockHoldEnd_keeps hk die
  | .bundleIssue g hold ecc upsets others => execBundleIssue_keeps hk g hold ecc upsets others
  | .issueResume g cycles => execIssueResume_keeps hk g cycles
  | .nop g => execNop_keeps hk g
  | .semWait g sem => execSemWait_keeps hk g sem
  | .semSignal g sem cnt => execSemSignal_keeps hk g sem cnt
  | .fence g => execFence_keeps hk g
  | .fencePredicate g sem => execFencePredicate_keeps hk g sem
  | .setcnt g ctr cnt => execSetcnt_keeps hk g ctr cnt
  | .loop g ctr target => execLoop_keeps hk g ctr target
  | .amaxflush g => execAmaxflush_keeps hk g
  | .done g => execDone_keeps hk g
  | .mload g fmt rs => execMload_keeps hk g fmt rs
  | .mloadComplete g => execMloadComplete_keeps hk g
  | .mswap g => execMswap_keeps hk g
  | .mmac g fmt bank row rs => execMmac_keeps hk g fmt bank row rs
  | .mmacz g fmt bank row rs => execMmacz_keeps hk g fmt bank row rs
  | .vadd g dst sa sb mask dt => execVadd_keeps hk g dst sa sb mask dt
  | .vsub g dst sa sb mask dt => execVsub_keeps hk g dst sa sb mask dt
  | .vmul g dst sa sb mask dt => execVmul_keeps hk g dst sa sb mask dt
  | .vfma g dst sa sb sc mask dt => execVfma_keeps hk g dst sa sb sc mask dt
  | .vmax g dst sa sb mask dt => execVmax_keeps hk g dst sa sb mask dt
  | .vmin g dst sa sb mask dt => execVmin_keeps hk g dst sa sb mask dt
  | .viadd g dst sa sb mask => execViadd_keeps hk g dst sa sb mask
  | .visub g dst sa sb mask => execVisub_keeps hk g dst sa sb mask
  | .vimul g dst sa sb mask => execVimul_keeps hk g dst sa sb mask
  | .vand g dst sa sb mask => execVand_keeps hk g dst sa sb mask
  | .vor g dst sa sb mask => execVor_keeps hk g dst sa sb mask
  | .vxor g dst sa sb mask => execVxor_keeps hk g dst sa sb mask
  | .vshl g dst sa sb mask => execVshl_keeps hk g dst sa sb mask
  | .vshr g dst sa sb mask => execVshr_keeps hk g dst sa sb mask
  | .vbcast g dst imm mask => execVbcast_keeps hk g dst imm mask
  | .vcmplt g dst sa sb mask dt => execVcmplt_keeps hk g dst sa sb mask dt
  | .vcmpeq g dst sa sb mask dt => execVcmpeq_keeps hk g dst sa sb mask dt
  | .vsel g dst sa sb sel mask => execVsel_keeps hk g dst sa sb sel mask
  | .vrsum g dst sa mask dt => execVrsum_keeps hk g dst sa mask dt
  | .vrmax g dst sa mask dt => execVrmax_keeps hk g dst sa mask dt
  | .vexp2 g dst sa mask dt => execVexp2_keeps hk g dst sa mask dt
  | .vlog2 g dst sa mask dt => execVlog2_keeps hk g dst sa mask dt
  | .vrsqrt g dst sa mask dt => execVrsqrt_keeps hk g dst sa mask dt
  | .vrcp g dst sa mask dt => execVrcp_keeps hk g dst sa mask dt
  | .vsin g dst sa mask dt => execVsin_keeps hk g dst sa mask dt
  | .vcos g dst sa mask dt => execVcos_keeps hk g dst sa mask dt
  | .vcvt g dst sa mask dt rnd slot target => execVcvt_keeps hk g dst sa mask dt rnd slot target
  | .vcvtmx g dst sa mask dt rnd slot target => execVcvtmx_keeps hk g dst sa mask dt rnd slot target
  | .amaxCountMerge g slot => execAmaxCountMerge_keeps hk g slot
  | .vrand g dst mask => execVrand_keeps hk g dst mask
  | .vrandu g dst mask => execVrandu_keeps hk g dst mask
  | .vld g dst imm mask => execVld_keeps hk g dst imm mask
  | .vst g sa imm mask => execVst_keeps hk g sa imm mask
  | .sstartIn g stream desc near addr => execSstartIn_keeps hk g stream desc near addr
  | .sstopIn g stream => execSstopIn_keeps hk g stream
  | .sstartOut g stream desc near addr => execSstartOut_keeps hk g stream desc near addr
  | .sstopOut g stream => execSstopOut_keeps hk g stream
  | .streamEnd g out stream => execStreamEnd_keeps hk g out stream
  | .farRequestIssue g stream => execFarRequestIssue_keeps hk g stream
  | .unitArrival g stream => execUnitArrival_keeps hk g stream
  | .contractDeposit g stream => execContractDeposit_keeps hk g stream
  | .uncontractedDeposit d => execUncontractedDeposit_keeps hk d
  | .pacingWindow die => execPacingWindow_keeps hk die
  | .reservedWindow md => execReservedWindow_keeps hk md
  | .semIncrementRelease p sem => execSemIncrementRelease_keeps hk p sem
  | .semGrant p sem => execSemGrant_keeps hk p sem
  | .semTimeout g => execSemTimeout_keeps hk g
  | .fenceComplete g cycles => execFenceComplete_keeps hk g cycles
  | .predicateResolve g => execPredicateResolve_keeps hk g
  | .shadowOpen g space page pred => execShadowOpen_keeps hk g space page pred
  | .frameFreed g space frame => execFrameFreed_keeps hk g space frame
  | .shadowDrained g space frame => execShadowDrained_keeps hk g space frame
  | .dieTreeOutput die => execDieTreeOutput_keeps hk die
  | .partitionDone p => execPartitionDone_keeps hk p
  | .bcastUnitIssue die grp => execBcastUnitIssue_keeps hk die grp
  | .tileBcastTimeout die grp => execTileBcastTimeout_keeps hk die grp
  | .walkStart p k desc => execWalkStart_keeps hk p k desc
  | .walkEntryFetch p w n => execWalkEntryFetch_keeps hk p w n
  | .walkSlotFill p w => execWalkSlotFill_keeps hk p w
  | .bankRetry g => execBankRetry_keeps hk g
  | .scratchScrub g bank upsets => execScratchScrub_keeps hk g bank upsets
  | .stratusRetry die idle upsets => execStratusRetry_keeps hk die idle upsets
  | .unscheduledStratusGrant die idle chan arrived => execUnscheduledStratusGrant_keeps hk die idle chan arrived
  | .stratusScrub die chan upsets => execStratusScrub_keeps hk die chan upsets
  | .dieClear die => execDieClear_keeps hk die
  | .dieClearDone die => execDieClearDone_keeps hk die
  | .lineRead p addr len hint reserved errs tagFail => execLineRead_keeps hk p addr len hint reserved errs tagFail
  | .lineWrite p addr hint src data poison => execLineWrite_keeps hk p addr hint src data poison
  | .streamWriteMerge p addr => execStreamWriteMerge_keeps hk p addr
  | .mscCleanRange p base size => execMscCleanRange_keeps hk p base size
  | .mscDiscardRange p base size => execMscDiscardRange_keeps hk p base size
  | .mscCleanDiscardRange p base size => execMscCleanDiscardRange_keeps hk p base size
  | .mscDiscardWays p => execMscDiscardWays_keeps hk p
  | .mscCleanWays p => execMscCleanWays_keeps hk p
  | .mscMaintDone md p => execMscMaintDone_keeps hk md p
  | .drizzleRead p addr errs => execDrizzleRead_keeps hk p addr errs
  | .drizzleWrite p addr data poison => execDrizzleWrite_keeps hk p addr data poison
  | .refresh group ratePct => execRefresh_keeps hk group ratePct
  | .memRequestTimeout group channel => execMemRequestTimeout_keeps hk group channel
  | .hostRead p window offset len => execHostRead_keeps hk p window offset len
  | .hostReadComplete id ok data => execHostReadComplete_keeps hk id ok data
  | .hostWrite p window offset data => execHostWrite_keeps hk p window offset data
  | .move p obj tier addr sem => execMove_keeps hk p obj tier addr sem
  | .moveComplete p obj => execMoveComplete_keeps hk p obj
  | .moveAbort p obj => execMoveAbort_keeps hk p obj
  | .moveRelease p obj => execMoveRelease_keeps hk p obj
  | .prefetchRecord p => execPrefetchRecord_keeps hk p
  | .prefetchRetry p => execPrefetchRetry_keeps hk p
  | .scaleAdvance p sem => execScaleAdvance_keeps hk p sem
  | .scaleAdvanceDone p => execScaleAdvanceDone_keeps hk p
  | .decode r raw => execDecode_keeps hk r raw
  | .flush r raw => execFlush_keeps hk r raw
  | .reset r raw => execReset_keeps hk r raw
  | .release r raw => execRelease_keeps hk r raw
  | .encode r raw => execEncode_keeps hk r raw
  | .analyse r raw => execAnalyse_keeps hk r raw
  | .key r raw => execKey_keeps hk r raw
  | .pictureStart e pic => execPictureStart_keeps hk e pic
  | .bufferUnpark p pool => execBufferUnpark_keeps hk p pool
  | .pictureEnd e fin => execPictureEnd_keeps hk e fin
  | .outputUnpark p ctx => execOutputUnpark_keeps hk p ctx
  | .decodeBudgetAbort e rebuilt => execDecodeBudgetAbort_keeps hk e rebuilt
  | .drainEnd p ctx => execDrainEnd_keeps hk p ctx
  | .encodeSlice e data luma chroma qp cycles => execEncodeSlice_keeps hk e data luma chroma qp cycles
  | .sample r raw => execSample_keeps hk r raw
  | .lookup r raw => execLookup_keeps hk r raw
  | .sampleRecordTake p ctx => execSampleRecordTake_keeps hk p ctx
  | .writerFrameDone p ctx sig cycles => execWriterFrameDone_keeps hk p ctx sig cycles
  | .ethFrameReceive port f => execEthFrameReceive_keeps hk port f
  | .ocIcmpReply port f => execOcIcmpReply_keeps hk port f
  | .data k => execData_keeps hk k
  | .getReq k => execGetReq_keeps hk k
  | .signal k => execSignal_keeps hk k
  | .ack k now => execAck_keeps hk k now
  | .nak k => execNak_keeps hk k
  | .hello h => execHello_keeps hk h
  | .reply h => execReply_keeps hk h
  | .rekey k => execRekey_keeps hk k
  | .rekeyReply k => execRekeyReply_keeps hk k
  | .close k => execClose_keeps hk k
  | .nctPut r raw => execNctPut_keeps hk r raw
  | .nctGet r raw => execNctGet_keeps hk r raw
  | .nctSignal r raw => execNctSignal_keeps hk r raw
  | .nctFence r raw => execNctFence_keeps hk r raw
  | .nctOpen r raw => execNctOpen_keeps hk r raw
  | .nctClose r raw => execNctClose_keeps hk r raw
  | .nctClearError r raw => execNctClearError_keeps hk r raw
  | .nctFenceComplete sess => execNctFenceComplete_keeps hk sess
  | .packetTransmit sess now srcOk poison => execPacketTransmit_keeps hk sess now srcOk poison
  | .netCreditAvailable nd now => execNetCreditAvailable_keeps hk nd now
  | .ackTimer sess => execAckTimer_keeps hk sess
  | .retransmitTimeout sess now => execRetransmitTimeout_keeps hk sess now
  | .helloTimeout sess => execHelloTimeout_keeps hk sess
  | .sessionFail sess => execSessionFail_keeps hk sess
  | .closeTimeout sess => execCloseTimeout_keeps hk sess
  | .oldKeyExpiry sess => execOldKeyExpiry_keeps hk sess
  | .rekeyStart sess => execRekeyStart_keeps hk sess
  | .rnrResend sess msg => execRnrResend_keeps hk sess msg
  | .allReduce r raw => execAllReduce_keeps hk r raw
  | .reduceScatter r raw => execReduceScatter_keeps hk r raw
  | .allGather r raw => execAllGather_keeps hk r raw
  | .allToAll r raw => execAllToAll_keeps hk r raw
  | .permute r raw => execPermute_keeps hk r raw
  | .broadcast r raw => execBroadcast_keeps hk r raw
  | .collCallStart p comm => execCollCallStart_keeps hk p comm
  | .permuteStart p => execPermuteStart_keeps hk p
  | .collPacket k => execCollPacket_keeps hk k
  | .announce k => execAnnounce_keeps hk k
  | .epochClosed k => execEpochClosed_keeps hk k
  | .mismatch k => execMismatch_keeps hk k
  | .collAbort k => execCollAbort_keeps hk k
  | .place k => execPlace_keeps hk k
  | .collCallComplete p comm seq => execCollCallComplete_keeps hk p comm seq
  | .form c tag p => execForm_keeps hk c tag p
  | .teardown c tag p => execTeardown_keeps hk c tag p
  | .replaceDie c tag p => execReplaceDie_keeps hk c tag p
  | .scrubDone p item => execScrubDone_keeps hk p item
  | .queueEnable c tag p q cfg => execQueueEnable_keeps hk c tag p q cfg
  | .doorbell p q tail => execDoorbell_keeps hk p q tail
  | .entryIssue p q waitNs => execEntryIssue_keeps hk p q waitNs
  | .jobStart p q waitNs => execJobStart_keeps hk p q waitNs
  | .completionRingSpace p => execCompletionRingSpace_keeps hk p
  | .preempt p q => execPreempt_keeps hk p q
  | .switchQuiesced p => execSwitchQuiesced_keeps hk p
  | .switchSaved p => execSwitchSaved_keeps hk p
  | .jobResume p => execJobResume_keeps hk p
  | .pageSemSignal p seq cnt sem => execPageSemSignal_keeps hk p seq cnt sem
  | .blockClockStop c tag value => execBlockClockStop_keeps hk c tag value
  | .blockPowerOff c tag value => execBlockPowerOff_keeps hk c tag value
  | .secBlockOwnerWrite c tag value => execSecBlockOwnerWrite_keeps hk c tag value
  | .entropyHealthFail => execEntropyHealthFail_keeps hk
  | .drbgReseed => execDrbgReseed_keeps hk
  | .loadTargetWrite c tag p value => execLoadTargetWrite_keeps hk c tag p value
  | .loadWrite p offset data => execLoadWrite_keeps hk p offset data
  | .attestNonce c tag p nonce => execAttestNonce_keeps hk c tag p nonce
  | .attestReportSigned cls p => execAttestReportSigned_keeps hk cls p
  | .getVersion => execGetVersion_keeps hk
  | .getCapabilities => execGetCapabilities_keeps hk
  | .negotiateAlgorithms => execNegotiateAlgorithms_keeps hk
  | .getDigests => execGetDigests_keeps hk
  | .getCertificate slot offset len => execGetCertificate_keeps hk slot offset len
  | .getMeasurements index signIt => execGetMeasurements_keeps hk index signIt
  | .spdmUnsupported code => execSpdmUnsupported_keeps hk code
  | .fwImageWrite c frame img => execFwImageWrite_keeps hk c frame img
  | .fwActivateOc c tag => execFwActivateOc_keeps hk c tag
  | .fwActivateAtReset c tag => execFwActivateAtReset_keeps hk c tag
  | .fwRaiseSvn c tag => execFwRaiseSvn_keeps hk c tag
  | .ocActivation => execOcActivation_keeps hk
  | .ocRestartTimeout => execOcRestartTimeout_keeps hk
  | .debugToken c tag token sigOk => execDebugToken_keeps hk c tag token sigOk
  | .read c frame => execRead_keeps hk c frame
  | .readSegment c frame => execReadSegment_keeps hk c frame
  | .abort c frame => execAbort_keeps hk c frame
  | .domWriteSegment c frame => execDomWriteSegment_keeps hk c frame
  | .registerWrite c frame => execRegisterWrite_keeps hk c frame
  | .storeCommit ok => execStoreCommit_keeps hk ok
  | .snapshotExpiry c index sub tag => execSnapshotExpiry_keeps hk c index sub tag
  | .writeTransferExpiry c index sub tag => execWriteTransferExpiry_keeps hk c index sub tag
  | .mailboxDoorbell page frame vector => execMailboxDoorbell_keeps hk page frame vector
  | .mctpMessage m => execMctpMessage_keeps hk m
  | .mgmtDatagram d => execMgmtDatagram_keeps hk d
  | .keptResponseExpiry addr port tag => execKeptResponseExpiry_keeps hk addr port tag
  | .mgmtArpIcmp arp target => execMgmtArpIcmp_keeps hk arp target
  | .anemSelectWrite c tag k value => execAnemSelectWrite_keeps hk c tag k value
  | .commRestoreDefaults c tag value => execCommRestoreDefaults_keeps hk c tag value
  | .containment p => execContainment_keeps hk p
  | .partitionReset p => execPartitionReset_keeps hk p
  | .spareSwap die cell => execSpareSwap_keeps hk die cell
  | .groupRetire group => execGroupRetire_keeps hk group
  | .engineReset coll e => execEngineReset_keeps hk coll e
  | .dieReset unit => execDieReset_keeps hk unit
  | .moduleReset boot fatal => execModuleReset_keeps hk boot fatal
  | .recoveryDone => execRecoveryDone_keeps hk
  | .recoveryTimeout => execRecoveryTimeout_keeps hk
  | .errPartReset c tag value => execErrPartReset_keeps hk c tag value
  | .errSpareSwap c tag value => execErrSpareSwap_keeps hk c tag value
  | .errGroupRetire c tag value => execErrGroupRetire_keeps hk c tag value
  | .almanacCommit n => execAlmanacCommit_keeps hk n
  | .almanacWindowRead c tag => execAlmanacWindowRead_keeps hk c tag
  | .almClear c tag value => execAlmClear_keeps hk c tag value
  | .almanacEraseDone => execAlmanacEraseDone_keeps hk
  | .modEnRise lowMs => execModEnRise_keeps hk lowMs
  | .modEnFall => execModEnFall_keeps hk
  | .inputOutOfRange => execInputOutOfRange_keeps hk
  | .modResetAssert => execModResetAssert_keeps hk
  | .modResetRelease straps boot => execModResetRelease_keeps hk straps boot
  | .perstAssert => execPerstAssert_keeps hk
  | .perstRelease straps boot => execPerstRelease_keeps hk straps boot
  | .railsGood straps holdupUf boot => execRailsGood_keeps hk straps holdupUf boot
  | .slotStartTimeout oc => execSlotStartTimeout_keeps hk oc
  | .bootStepTimeout cause => execBootStepTimeout_keeps hk cause
  | .ocReady level => execOcReady_keeps hk level
  | .trainingRoundDone failed absent trainMs nowMs => execTrainingRoundDone_keeps hk failed absent trainMs nowMs
  | .retrainTrigger group => execRetrainTrigger_keeps hk group
  | .retrainDrift group => execRetrainDrift_keeps hk group
  | .memGroupRetrain c tag value => execMemGroupRetrain_keeps hk c tag value
  | .retrainDone group ok => execRetrainDone_keeps hk group ok
  | .ethLinkUp port => execEthLinkUp_keeps hk port
  | .ethLinkDown port => execEthLinkDown_keeps hk port
  | .portRestart port => execPortRestart_keeps hk port
  | .pcieLinkUp width rate flit => execPcieLinkUp_keeps hk width rate flit
  | .pcieLinkDown => execPcieLinkDown_keeps hk
  | .marginEdges c tag inst => execMarginEdges_keeps hk c tag inst
  | .marginMap c tag inst => execMarginMap_keeps hk c tag inst
  | .marginPcieLane c tag inst => execMarginPcieLane_keeps hk c tag inst
  | .marginDone result nowMs => execMarginDone_keeps hk result nowMs
  | .eyeRefresh lane eye => execEyeRefresh_keeps hk lane eye
  | .pinFunctionWrite c tag pin fn => execPinFunctionWrite_keeps hk c tag pin fn
  | .pinSwitchComplete pin => execPinSwitchComplete_keeps hk pin
  | .powerAverageTick watts mv ma => execPowerAverageTick_keeps hk watts mv ma
  | .dieTempSample temps plate => execDieTempSample_keeps hk temps plate
  | .powerLimitFence watts => execPowerLimitFence_keeps hk watts
  | .powerLimitShutdown watts => execPowerLimitShutdown_keeps hk watts
  | .thermalTrip => execThermalTrip_keeps hk
  | .refclkLoss ref => execRefclkLoss_keeps hk ref
  | .refclkReturn ref => execRefclkReturn_keeps hk ref
  | .inputInRange removed => execInputInRange_keeps hk removed
  | .keyStoreHandshake => execKeyStoreHandshake_keeps hk
  | .eidAssignment binding sc eid => execEidAssignment_keeps hk binding sc eid
  | .configurationRequest req => execConfigurationRequest_keeps hk req
  | .laneMarginingRequest lane dir steps errors => execLaneMarginingRequest_keeps hk lane dir steps errors

/-- A command's next state keeps what the state before it held. -/
theorem Keeps.of_exec {c : Instr} {s t : State} (h : exec c s = .next t) : Keeps s t :=
  (exec_keeps (Keeps.refl s) c).out t h

/-- Settles O5: the fenced cells and the retired dies are among what `Keeps` says no command undoes. -/
theorem fencedStaysFenced : Obligations.FencedStaysFenced := by
  unfold Obligations.FencedStaysFenced
  intro c s t hexec
  have hkeeps : Keeps s t := Keeps.of_exec hexec
  exact ⟨hkeeps.fenced, hkeeps.retired⟩

end Sys2Proof.Machine

/-! # Proofs: the fabric, clock holds and stream ends -/

namespace Sys2Proof.Machine

/-! ## Credits and the packets held for them (R22 to R24, R30) -/

/-- With nothing held at any source there is nothing for a credit to release. -/
theorem foldl_releaseClass_of_held_nil {s : State} (hnil : s.fabric.held = []) (src : Nat) (classes : List Nat) :
    classes.foldl (fun t c => releaseClass t src c t.fabric.held) s = s := by
  induction classes with
  | nil => rfl
  | cons c classes ih => rw [List.foldl_cons, hnil, releaseClass, ih]

/-- A packet that is the only one held stays when its own class is not served. -/
theorem releaseClass_singleton_of_cls_ne {k : FabPkt} {cls : Nat} (hcls : k.cls ≠ cls) (s : State) (src : Nat) :
    releaseClass s src cls [k] = s := by
  simp [releaseClass, hcls]

/-- It stays when it does not fit. -/
theorem releaseClass_singleton_of_full {s : State} {k : FabPkt} (hfull : fifoFree s.fabric k.dst < k.bytes) (src cls : Nat) :
    releaseClass s src cls [k] = s := by
  simp [releaseClass, Nat.not_le.mpr hfull]

/-- It goes on when it fits and its class is served. -/
theorem releaseClass_singleton_of_fits {s : State} {k : FabPkt} {src : Nat} (hsrc : k.src = src)
    (hfits : k.bytes ≤ fifoFree s.fabric k.dst) : releaseClass s src k.cls [k] = releaseOne s k := by
  simp [releaseClass, hsrc, hfits]

/-- The packet that leaves its source was the only one held there. -/
theorem releaseOne_held {s : State} {k : FabPkt} (hheld : s.fabric.held = [k]) : (releaseOne s k).fabric.held = [] := by
  unfold releaseOne
  split <;> simp [fabricPut, hheld]

/-- The only packet held waits through every class served, where none is its own or it does not fit (R24). -/
theorem foldl_releaseClass_of_waits {s : State} {k : FabPkt} {classes : List Nat} (hheld : s.fabric.held = [k])
    (hwait : k.cls ∉ classes ∨ fifoFree s.fabric k.dst < k.bytes) (src : Nat) :
    classes.foldl (fun t c => releaseClass t src c t.fabric.held) s = s := by
  induction classes with
  | nil => rfl
  | cons c classes ih =>
    have hstay : releaseClass s src c [k] = s := by
      rcases hwait with hcls | hfull
      · exact releaseClass_singleton_of_cls_ne (List.ne_of_not_mem_cons hcls) s src
      · exact releaseClass_singleton_of_full hfull src c
    rw [List.foldl_cons, hheld, hstay]
    exact ih (hwait.imp_left List.not_mem_of_not_mem_cons)

/-- The only packet held leaves once its class is served, and nothing is then left for the classes after it. -/
theorem foldl_releaseClass_of_goes {s : State} {k : FabPkt} {src : Nat} {classes : List Nat}
    (hheld : s.fabric.held = [k]) (hsrc : k.src = src) (hserved : k.cls ∈ classes)
    (hfits : k.bytes ≤ fifoFree s.fabric k.dst) :
    classes.foldl (fun t c => releaseClass t src c t.fabric.held) s = releaseOne s k := by
  induction classes with
  | nil => exact absurd hserved List.not_mem_nil
  | cons c classes ih =>
    rw [List.foldl_cons, hheld]
    by_cases hcls : k.cls = c
    · rw [← hcls, releaseClass_singleton_of_fits hsrc hfits, foldl_releaseClass_of_held_nil (releaseOne_held hheld)]
    · rw [releaseClass_singleton_of_cls_ne hcls]
      exact ih ((List.mem_cons.mp hserved).resolve_left hcls)

/-- The classes a returned credit serves: those of R22 that are not at their cap. -/
theorem mem_classes_served {cls : Nat} {capped : List Nat} :
    cls ∈ (List.range 3).filter (fun c => !capped.contains c) ↔ cls < 3 ∧ cls ∉ capped := by
  simp

/-- A returned credit takes the packet at the FIFO's front, its source's of the class, and then serves what the source
holds. -/
theorem execFabricCreditReturn_front {s : State} {k : FabPkt} {rest : List FabPkt} (hfifo : s.fabric.fifo = k :: rest)
    (capped : List Nat) :
    execFabricCreditReturn k.src k.dst k.cls capped s =
      .next (((List.range 3).filter fun c => !capped.contains c).foldl (fun t c => releaseClass t k.src c t.fabric.held)
        { s with fabric := { s.fabric with fifo := rest } }) := by
  simp [execFabricCreditReturn, hfifo]

/-! ## Failed transfers (R25) -/

/-- Up to eight failures of a transfer in a row are replayed and counted; the ninth is fatal. -/
theorem execFabricCrcFail_eq (s : State) (src xfer : Nat) :
    let n := ((s.fabric.fails.find? fun e => e.1 = (src, xfer)).map (·.2)).getD 0
    let rest := s.fabric.fails.filter fun e => e.1 ≠ (src, xfer)
    execFabricCrcFail src xfer s =
      if n < 8 then .next (odInc { s with fabric := { s.fabric with fails := rest ++ [((src, xfer), n + 1)] } } Ad.fabricReplayCount)
      else .next (fatalErr { s with fabric := { s.fabric with fails := rest } } .fabricReplayFail (src * 256)) := by
  intro n rest
  by_cases hn : n < 8
  · have hfew : ¬ 9 ≤ n + 1 := by omega
    rw [if_pos hn]
    exact if_neg hfew
  · have hmany : 9 ≤ n + 1 := by omega
    rw [if_neg hn]
    exact if_pos hmany

/-! ## Clock holds (R32) -/

/-- While a die's clock is held, none of its cells issues. -/
theorem canIssue_of_hold {s : State} {g : Nat} (hhold : (dieOf s (g / 80)).hold = true) : canIssue s g = false := by
  simp [canIssue, hhold]

/-- A table changed value by value, each by its key. -/
theorem tget_map {α : Type} (t : Tbl α) (f : Nat → α → α) (n : Nat) :
    tget (t.map fun e => (e.1, f e.1 e.2)) n = (tget t n).map (f n) := by
  induction t with
  | nil => rfl
  | cons e t ih =>
    obtain ⟨k, v⟩ := e
    rw [List.map_cons, tget, tget]
    split
    · next hk => rw [hk, Option.map_some]
    · exact ih

/-- A due change of CCLK: the die's clock is held, and its new value is in effect. -/
theorem execClockHold_due {s : State} {die : Nat} (hdue : (dieOf s die).cclkPending = true) (hrun : (dieOf s die).hold = false) :
    execClockHold die s = .next (odInc (odSet (modDie s die fun d => { d with hold := true, cclkPending := false })
      (Ad.cdCclkActualMhz die) (cclkTarget s die)) Ad.clockHoldCount) := by
  simp [execClockHold, hdue, hrun]

/-- The cells of a table as a die's cells have idled `n` CCLK. -/
def idleCells (die n : Nat) (cells : Tbl Cell) : Tbl Cell :=
  cells.map fun e => if e.1 / 80 = die then (e.1, e.2.after n) else e

/-- Only the die's cells have idled. -/
theorem tget_idleCells (die n g : Nat) (cells : Tbl Cell) :
    tget (idleCells die n cells) g = (tget cells g).map fun c => if g / 80 = die then c.after n else c := by
  rw [← tget_map cells (fun k c => if k / 80 = die then c.after n else c)]
  unfold idleCells
  congr 1
  refine List.map_congr_left fun e _ => ?_
  split <;> rfl

/-- The end of a hold of an owned die: the cycles of the hold, whatever they were, are the partition's and the cells'. -/
theorem execClockHoldEnd_owned {s : State} {die p : Nat} (hhold : (dieOf s die).hold = true) (howner : dieOwner s die = some p) :
    ∃ n ≤ 32000, execClockHoldEnd die s =
      .next { odAdd (fresh (modDie s die fun d => { d with hold := false })).2 (Ad.partWaitCycles p) n with
        cells := idleCells die n s.cells } := by
  refine ⟨Config.freeValue s.fresh % 32001, by omega, ?_⟩
  simp only [execClockHoldEnd, hhold, if_true, howner]
  rfl

/-! ## Ends of streams (R60) -/

/-- A read stream whose units are all deposited, and for the matrix array consumed, ends. -/
theorem execStreamEnd_in {s : State} {g stream : Nat} {x : InStream} (hx : tget (cellOf s g).ins stream = some x)
    (hrun : x.running = true) (hdeposited : x.total ≤ x.deposited) (hconsumed : x.matrix = true → x.total ≤ x.consumed) :
    execStreamEnd g false stream s = .next (endIn s g stream) := by
  have hdone : (!x.matrix || decide (x.total ≤ x.consumed)) = true := by
    cases hm : x.matrix with
    | false => rfl
    | true => simpa using hconsumed hm
  simp [execStreamEnd, hx, hrun, hdeposited, hdone]

/-- A write stream drains what remains of it. -/
theorem execStreamEnd_out {s : State} {g stream : Nat} {x : OutStream} (hx : tget (cellOf s g).outs stream = some x) :
    execStreamEnd g true stream s = .next (drainRest x.total s g stream (drawsOf (cellOf s g))) := by
  simp [execStreamEnd, hx]

/-- Settles O33, one rule above per row: failed transfers, credits, the two ends of a clock hold, ends of streams. -/
theorem fabricAndClocks : Obligations.FabricAndClocks := by
  unfold Obligations.FabricAndClocks
  refine ⟨fun s src xfer => execFabricCrcFail_eq s src xfer, ?credit, ?hold, ?holdEnd,
    fun s g stream x hx => execStreamEnd_out hx,
    fun s g stream x hx hrun hdeposited hconsumed => execStreamEnd_in hx hrun hdeposited hconsumed⟩
  case credit =>
    intro s src dst cls capped k rest hfifo hsrc hdst hcls s1
    subst hsrc hdst hcls
    have hexec := execFabricCreditReturn_front hfifo capped
    refine ⟨fun hnil => ?_, fun h hheld hsrc hlt => ⟨fun hwait => ?_, fun hfree hfits => ?_⟩⟩
    · exact hexec.trans (congrArg _ (foldl_releaseClass_of_held_nil (s := s1) hnil _ _))
    · have hstays : h.cls ∉ (List.range 3).filter (fun c => !capped.contains c) ∨ fifoFree s1.fabric h.dst < h.bytes :=
        hwait.imp_left fun hcapped hserved => (mem_classes_served.mp hserved).2 hcapped
      exact hexec.trans (congrArg _ (foldl_releaseClass_of_waits (s := s1) hheld hstays _))
    · have hserved := mem_classes_served.mpr ⟨hlt, hfree⟩
      exact hexec.trans (congrArg _ (foldl_releaseClass_of_goes (s := s1) hheld hsrc hserved hfits))
  case hold =>
    intro s die hdie hdue hrun
    refine ⟨_, execClockHold_due hdue hrun, by simp, ?_, fun g hg => canIssue_of_hold (by simp [hg])⟩
    have hne : Ad.cdCclkActualMhz die ≠ Ad.clockHoldCount := by simp only [Ad.cdCclkActualMhz, Ad.clockHoldCount]; omega
    rw [odGet_odInc_ne _ hne, odGet_odSet_self]
  case holdEnd =>
    intro s die p hhold howner
    obtain ⟨n, hn, hexec⟩ := execClockHoldEnd_owned hhold howner
    refine ⟨_, n, hexec, ?_, hn, ?_, fun g c hc => ?_⟩
    · exact congrArg Die.hold (dieOf_modDie_self s die fun d => { d with hold := false })
    · exact odGet_odAdd_self (fresh (modDie s die fun d => { d with hold := false })).2 (Ad.partWaitCycles p) n
    · simp only [cellOf, tget_idleCells, hc, Option.map_some, Option.getD_some]

end Sys2Proof.Machine

/-! # Proofs: writes of CD_CCLK_MHZ -/

namespace Sys2Proof

/-! ## Byte strings read back (R10) -/

@[simp] theorem length_leBytes (n v : Nat) : (leBytes n v).length = n := by
  induction n generalizing v with
  | zero => rfl
  | succ n ih => rw [leBytes, List.length_cons, ih]

theorem leNat_leBytes (n v : Nat) : leNat (leBytes n v) = v % 256 ^ n := by
  induction n generalizing v with
  | zero => rw [pow_zero, Nat.mod_one]; rfl
  | succ n ih => rw [leBytes, leNat, ih, BitVec.toNat_ofNat, pow_succ' 256, Nat.mod_mul]

/-- A part of a byte string is read at its place. -/
theorem slice_append_append (pre bs post : List Byte) : slice (pre ++ (bs ++ post)) pre.length bs.length = bs := by
  refine List.ext_getElem (by simp [slice]) fun i _ hi => ?_
  simp [slice, List.getElem?_append_right, List.getElem?_append_left, hi]

/-- A number's bytes in a byte string read as its low bytes. -/
theorem fieldLE_leBytes (pre post : List Byte) (n v : Nat) :
    fieldLE (pre ++ (leBytes n v ++ post)) pre.length n = v % 256 ^ n := by
  have hslice := slice_append_append pre (leBytes n v) post
  rw [length_leBytes] at hslice
  rw [fieldLE, hslice, leNat_leBytes]

end Sys2Proof

namespace Sys2Proof.Machine

/-! ## Request frames (Table 16.6) -/

theorem frameOp_requestFrame (op a tag : Nat) (data : List Byte) : frameOp (requestFrame op a tag data) = op % 16 := by
  have hop : fieldLE (requestFrame op a tag data) 0 1 = op % 256 := by
    simpa [requestFrame] using fieldLE_leBytes [] _ 1 op
  rw [frameOp, hop, bits]
  omega

theorem frameAddr_requestFrame {a : Nat} (ha : a < 2 ^ 24) (op tag : Nat) (data : List Byte) :
    frameAddr (requestFrame op a tag data) = a := by
  have hsub : fieldLE (requestFrame op a tag data) 1 1 = a % 256 := by
    simpa [requestFrame] using fieldLE_leBytes (leBytes 1 op) _ 1 (a % 256)
  have hindex : fieldLE (requestFrame op a tag data) 2 2 = a / 256 % 65536 := by
    simpa [requestFrame] using fieldLE_leBytes (leBytes 1 op ++ leBytes 1 (a % 256)) _ 2 (a / 256)
  rw [frameAddr, hsub, hindex]
  omega

theorem frameData_requestFrame (op a tag : Nat) (data : List Byte) : frameData (requestFrame op a tag data) = data := rfl

/-! ## Requests performed (R416, R419) -/

/-- A request that passes the checks before its entry's own is answered, and its answer sent. -/
theorem performWith_of_accepted {s : State} {c : Caller} {f : List Byte} (h : accepted s c f = true) (v : Verdict) :
    performWith s c f v = respond (answer s c f v).1 c f (answer s c f v).2 true := by
  simp only [accepted, Bool.and_eq_true] at h
  obtain ⟨⟨⟨⟨hup, hready⟩, -⟩, -⟩, -⟩ := h
  have hserved : (needsOc c && !s.server.ready) = false := by
    simpa [imp_iff_not_or] using hready
  simp [performWith, hup, hserved]

/-- An accepted WRITE of an entry of a fixed size is a WRITE of its value. -/
theorem answer_of_accepted_write {s : State} {c : Caller} {f : List Byte} {r : Row} (h : accepted s c f = true)
    (hop : frameOp f = 2) (hrow : findRow (frameAddr f) = some r) (hty : r.ty ≠ .dom) (v : Verdict) :
    answer s c f v = writeValue s c f r := by
  simp only [accepted, Bool.and_eq_true, Option.isNone_iff_eq_none, Bool.not_eq_true'] at h
  obtain ⟨⟨⟨-, hcode⟩, hcut⟩, htype⟩ := h
  simp [answer, hcode, hcut, htype, hop, hrow, hty]

/-! ## The entry CD_CCLK_MHZ (R31) -/

/-- The catalogue's row of CD_CCLK_MHZ. -/
def cclkRow : Row :=
  ⟨.cdCclkMhz, 0x2100, 0x2100, 1, 16, .u16, some .rw, some .rw, some .ro, some .ro, 1600, .volatile, .bundle, .perDie⟩

/-- Each compute die has an entry of its own. -/
theorem findRow_cdCclkMhz {d : Nat} (hd : d < 16) : findRow (Ad.cdCclkMhz d) = some cclkRow := by
  have hindex : Ad.cdCclkMhz d / 256 = 0x2100 := by simp only [Ad.cdCclkMhz]; omega
  have hsub : Ad.cdCclkMhz d % 256 = d + 1 := by simp only [Ad.cdCclkMhz]; omega
  rw [findRow, hindex, hsub]
  exact if_pos ⟨Nat.le_refl 0x2100, Nat.le_refl 0x2100, Nat.le_add_left 1 d, hd⟩

theorem cclkRow_k_cdCclkMhz {d : Nat} (hd : d < 16) : cclkRow.k (Ad.cdCclkMhz d) = d := by
  simp only [Row.k, cclkRow, Ad.cdCclkMhz]
  omega

/-- A WRITE of the entry names its address. -/
theorem frameAddr_cclkFrame {d : Nat} (hd : d < 16) (v tag : Nat) :
    frameAddr (writeFrame (Ad.cdCclkMhz d) 2 v tag) = Ad.cdCclkMhz d :=
  frameAddr_requestFrame (by simp only [Ad.cdCclkMhz]; omega) ..

/-- No class clears bits of the entry by writing them. -/
theorem cclkRow_access_ne_w1c (cls : Cls) : cclkRow.access cls ≠ some .w1c := by
  cases cls <;> simp [Row.access, cclkRow]

/-- A WRITE of the entry that passed the checks before its own: rejected where R31 says so, else performed at once. -/
theorem writeValue_cclkRow {d v tag : Nat} (hd : d < 16) (hv : v < 65536) (s : State) (c : Caller) :
    writeValue s c (writeFrame (Ad.cdCclkMhz d) 2 v tag) cclkRow =
      if cclkBad s d v then (s, .err 8) else (writeCclk s d v, .ok []) := by
  have hvalue : leNat (frameData (writeFrame (Ad.cdCclkMhz d) 2 v tag)) = v := by
    rw [writeFrame, frameData_requestFrame, leNat_leBytes]
    exact Nat.mod_eq_of_lt hv
  simp only [writeValue, frameAddr_cclkFrame hd, hvalue, cclkRow_access_ne_w1c, if_false]
  simp only [valueBad, applyWrite, cclkRow_k_cdCclkMhz hd]
  rfl

/-- CCLK_WRITE as the server performs it: an error where R31 rejects the value, else the value set. -/
theorem execCclkWrite_of_accepted {s : State} {c : Caller} {tag d v : Nat} (hd : d < 16) (hv : v < 65536)
    (h : accepted s c (writeFrame (Ad.cdCclkMhz d) 2 v tag) = true) :
    execCclkWrite c tag d v s = .next
      (if cclkBad s d v then respond s c (writeFrame (Ad.cdCclkMhz d) 2 v tag) (.err 8) true
      else respond (writeCclk s d v) c (writeFrame (Ad.cdCclkMhz d) 2 v tag) (.ok []) true) := by
  have hop : frameOp (writeFrame (Ad.cdCclkMhz d) 2 v tag) = 2 := frameOp_requestFrame ..
  have hrow : findRow (frameAddr (writeFrame (Ad.cdCclkMhz d) 2 v tag)) = some cclkRow := by
    rw [frameAddr_cclkFrame hd, findRow_cdCclkMhz hd]
  have hperform : perform s c (writeFrame (Ad.cdCclkMhz d) 2 v tag) =
      performWith s c (writeFrame (Ad.cdCclkMhz d) 2 v tag) (freeVerdict s) := by
    rw [perform, hrow]
    rfl
  rw [execCclkWrite, hperform, performWith_of_accepted h, answer_of_accepted_write h hop hrow (by decide),
    writeValue_cclkRow hd hv]
  split <;> rfl

/-- The rejections of R31, in words of numbers. -/
theorem cclkBad_iff (s : State) (d v : Nat) :
    cclkBad s d v = true ↔
      v < 600 ∨ 1600 < v ∨ v % 50 ≠ 0 ∨ ∃ x ∈ cclkDies s d, (tget s.nv.ceiling x).getD Config.cclkCeilingMHz < v := by
  simp [cclkBad, or_assoc]

/-- A change of CCLK that awaits a hold shows in no die's CD_CCLK_MHZ but by the change itself. -/
theorem odGet_awaitHold_cdCclkMhz {x : Nat} (hx : x < 16) (s : State) (d : Nat) (change : State → State) :
    odGet (awaitHold s d change) (Ad.cdCclkMhz x) = odGet (change s) (Ad.cdCclkMhz x) := by
  have hne : Ad.cdCclkMhz x ≠ Ad.cdCclkActualMhz d := by simp only [Ad.cdCclkMhz, Ad.cdCclkActualMhz]; omega
  unfold awaitHold
  dsimp only
  split
  · rfl
  · rw [odGet_odSet_ne _ _ hne, odGet_modDie]

/-- A CCLK set for dies in turn stands in each of them, whichever come after it. -/
theorem odGet_foldl_awaitHold {x v : Nat} (hx : x < 16) (dies : List Nat) {s : State}
    (h : x ∈ dies ∨ odGet s (Ad.cdCclkMhz x) = v) :
    odGet (dies.foldl (fun t y => awaitHold t y fun u => odSet u (Ad.cdCclkMhz y) v) s) (Ad.cdCclkMhz x) = v := by
  induction dies generalizing s with
  | nil => exact h.resolve_left List.not_mem_nil
  | cons y dies ih =>
    rw [List.foldl_cons]
    apply ih
    rw [odGet_awaitHold_cdCclkMhz hx]
    by_cases hxy : x = y
    · exact .inr (hxy ▸ odGet_odSet_self _ _ _)
    · have hne : Ad.cdCclkMhz x ≠ Ad.cdCclkMhz y := by simp only [Ad.cdCclkMhz]; omega
      rw [odGet_odSet_ne _ _ hne]
      exact h.imp_left fun hmem => (List.mem_cons.mp hmem).resolve_left hxy

/-- Every die a write sets reads the value. -/
theorem odGet_writeCclk {s : State} {d v x : Nat} (hmem : x ∈ cclkDies s d) (hx : x < 16) :
    odGet (writeCclk s d v) (Ad.cdCclkMhz x) = v :=
  odGet_foldl_awaitHold hx _ (.inl hmem)

/-- The address of the entry as its index and subindex. -/
theorem cdCclkMhz_eq (k : Nat) : 0x2100 * 256 + (k + 1) = Ad.cdCclkMhz k := by
  simp only [Ad.cdCclkMhz]
  omega

/-- Settles O54: the server's own rule for the entry, by whether R31 rejects the value. -/
theorem cclkValues : Obligations.CclkValues := by
  unfold Obligations.CclkValues
  intro s c tag d v r hd hv f hacc _ sets bad
  have hf : f = writeFrame (Ad.cdCclkMhz d) 2 v tag := congrArg (writeFrame · 2 v tag) (cdCclkMhz_eq d)
  have hbad : cclkBad s d v = true ↔ bad := cclkBad_iff s d v
  rw [hf] at hacc ⊢
  have hexec : exec (.cclkWrite c tag d v) s = _ := execCclkWrite_of_accepted hd hv hacc
  refine ⟨fun h => ?rejected, fun h => ⟨writeCclk s d v, ?done, fun x hmem hx => ?reads⟩⟩
  case rejected => rw [hexec, if_pos (hbad.mpr h)]
  case done => rw [hexec, if_neg (mt hbad.mp h)]
  case reads => exact (congrArg _ (cdCclkMhz_eq x)).trans (odGet_writeCclk hmem hx)

end Sys2Proof.Machine

/-! # Proofs: bundles and their words -/

namespace Sys2Proof.Machine

/-- A sync slot's fields lie in their bits (Table 2.3). -/
def SyncSlot.Fits (x : SyncSlot) : Prop := x.op < 64 ∧ x.arg < 2 ^ 26

/-- A vector slot's fields lie in their bits (Table 2.6). -/
def VecSlot.Fits (x : VecSlot) : Prop :=
  x.op < 256 ∧ x.dst < 64 ∧ x.sa < 64 ∧ x.sb < 64 ∧ x.sc < 64 ∧ x.mask < 8 ∧ x.dt < 8 ∧ x.rnd < 4 ∧ x.slot < 4096 ∧ x.imm < 4096

/-- A matrix slot's fields lie in their bits (Table 2.5). -/
def MatSlot.Fits (x : MatSlot) : Prop := x.op < 16 ∧ x.fmt < 16 ∧ x.bank < 4 ∧ x.row < 64 ∧ x.rs < 4

/-- A stream-in slot's fields lie in their bits (Table 2.9). -/
def StreamSlot.FitsIn (x : StreamSlot) : Prop := x.op < 16 ∧ x.stream < 4 ∧ x.desc < 2 ^ 15 ∧ x.near < 2 ∧ x.addr < 2 ^ 15

/-- A stream-out slot's fields lie in their bits (Table 2.9). -/
def StreamSlot.FitsOut (x : StreamSlot) : Prop := x.op < 16 ∧ x.stream < 2 ∧ x.desc < 2 ^ 15 ∧ x.near < 4 ∧ x.addr < 2 ^ 15

theorem fits_iff (b : Bundle) :
    b.fits = true ↔ b.sync.Fits ∧ b.vec.Fits ∧ b.mat.Fits ∧ b.sin.FitsIn ∧ b.sout.FitsOut ∧ b.rep < 256 := by
  simp only [Bundle.fits, SyncSlot.Fits, VecSlot.Fits, MatSlot.Fits, StreamSlot.FitsIn, StreamSlot.FitsOut, Bool.and_eq_true,
    decide_eq_true_eq, and_assoc]

theorem syncBits_lt {x : SyncSlot} (h : x.Fits) : syncBits x < 2 ^ 32 := by
  simp only [SyncSlot.Fits] at h
  simp only [syncBits]; omega

theorem vecBits_lt {x : VecSlot} (h : x.Fits) : vecBits x < 2 ^ 64 := by
  simp only [VecSlot.Fits] at h
  simp only [vecBits]; omega

theorem matBits_lt {x : MatSlot} (h : x.Fits) : matBits x < 2 ^ 48 := by
  simp only [MatSlot.Fits] at h
  simp only [matBits]; split <;> omega

theorem sinBits_lt {x : StreamSlot} (h : x.FitsIn) : sinBits x < 2 ^ 48 := by
  simp only [StreamSlot.FitsIn] at h
  simp only [sinBits]; omega

theorem soutBits_lt {x : StreamSlot} (h : x.FitsOut) : soutBits x < 2 ^ 48 := by
  simp only [StreamSlot.FitsOut] at h
  simp only [soutBits]; omega

theorem syncSlot_of_syncBits {x : SyncSlot} (h : x.Fits) : (⟨bits (syncBits x) 31 26, bits (syncBits x) 25 0⟩ : SyncSlot) = x := by
  obtain ⟨op, arg⟩ := x
  simp only [SyncSlot.Fits] at h
  simp only [syncBits, bits, SyncSlot.mk.injEq]; omega

theorem vecSlot_of_vecBits {x : VecSlot} (h : x.Fits) :
    (⟨bits (vecBits x) 63 56, bits (vecBits x) 55 50, bits (vecBits x) 49 44, bits (vecBits x) 43 38, bits (vecBits x) 37 32,
      bits (vecBits x) 31 29, bits (vecBits x) 28 26, bits (vecBits x) 25 24, bits (vecBits x) 23 12,
      bits (vecBits x) 11 0⟩ : VecSlot) = x := by
  obtain ⟨op, dst, sa, sb, sc, mask, dt, rnd, slot, imm⟩ := x
  simp only [VecSlot.Fits] at h
  simp only [vecBits, bits, VecSlot.mk.injEq]; omega

theorem matSlot_of_matBits {x : MatSlot} (h : x.Fits) :
    (⟨bits (matBits x) 47 44, bits (matBits x) 43 40, bits (matBits x) 39 38, bits (matBits x) 37 32, bit (matBits x) 31,
      bits (matBits x) 30 29⟩ : MatSlot) = x := by
  obtain ⟨op, fmt, bank, row, rowinc, rs⟩ := x
  simp only [MatSlot.Fits] at h
  cases rowinc <;>
    simp only [matBits, bits, bit, Nat.testBit_eq_decide_div_mod_eq, MatSlot.mk.injEq, decide_eq_true_eq,
      decide_eq_false_iff_not, if_true, Bool.false_eq_true, if_false] <;> omega

theorem streamSlot_of_sinBits {x : StreamSlot} (h : x.FitsIn) :
    (⟨bits (sinBits x) 47 44, bits (sinBits x) 43 42, bits (sinBits x) 41 27, bits (sinBits x) 26 26,
      bits (sinBits x) 25 11⟩ : StreamSlot) = x := by
  obtain ⟨op, stream, desc, near, addr⟩ := x
  simp only [StreamSlot.FitsIn] at h
  simp only [sinBits, bits, StreamSlot.mk.injEq]; omega

theorem streamSlot_of_soutBits {x : StreamSlot} (h : x.FitsOut) :
    (⟨bits (soutBits x) 47 44, bits (soutBits x) 43 43, bits (soutBits x) 41 27, bits (soutBits x) 26 25,
      bits (soutBits x) 24 10⟩ : StreamSlot) = x := by
  obtain ⟨op, stream, desc, near, addr⟩ := x
  simp only [StreamSlot.FitsOut] at h
  simp only [soutBits, bits, StreamSlot.mk.injEq]; omega

/-- The slots of a bundle lie in the bits of its word that Table 2.2 names. -/
theorem bits_word {b : Bundle} (h : b.fits = true) :
    bits b.word.toNat 255 224 = syncBits b.sync ∧ bits b.word.toNat 223 160 = vecBits b.vec ∧
      bits b.word.toNat 159 112 = matBits b.mat ∧ bits b.word.toNat 111 64 = sinBits b.sin ∧
      bits b.word.toNat 63 16 = soutBits b.sout ∧ bits b.word.toNat 15 8 = b.rep := by
  obtain ⟨hsync, hvec, hmat, hsin, hsout, hrep⟩ := (fits_iff b).mp h
  replace hsync := syncBits_lt hsync
  replace hvec := vecBits_lt hvec
  replace hmat := matBits_lt hmat
  replace hsin := sinBits_lt hsin
  replace hsout := soutBits_lt hsout
  simp only [Bundle.word, BitVec.toNat_ofNat, bits]
  omega

/-- A bundle whose fields fit its slots is read back from its word: its slots by the word's bits, their fields by theirs. -/
theorem ofWord_word {b : Bundle} (h : b.fits = true) : Bundle.ofWord b.word = b := by
  obtain ⟨hsync, hvec, hmat, hsin, hsout, -⟩ := (fits_iff b).mp h
  obtain ⟨wsync, wvec, wmat, wsin, wsout, wrep⟩ := bits_word h
  simp only [Bundle.ofWord, wsync, wvec, wmat, wsin, wsout, wrep, syncSlot_of_syncBits hsync, vecSlot_of_vecBits hvec,
    matSlot_of_matBits hmat, streamSlot_of_sinBits hsin, streamSlot_of_soutBits hsout]

/-- Settles O8: each slot's bits in the word, then each field's bits in its slot. -/
theorem bundleWordReadBack : Obligations.BundleWordReadBack := by
  unfold Obligations.BundleWordReadBack
  intro b h
  exact ofWord_word h

end Sys2Proof.Machine

/-! # Proofs: issue of a slot operation -/

namespace Sys2Proof.Machine

/-! ## Words of the single slot operations -/

theorem syncSlot_zero_fits : (⟨0, 0⟩ : SyncSlot).Fits := by simp [SyncSlot.Fits]
theorem vecSlot_zero_fits : (⟨0, 0, 0, 0, 0, 0, 0, 0, 0, 0⟩ : VecSlot).Fits := by simp [VecSlot.Fits]
theorem matSlot_zero_fits : (⟨0, 0, 0, 0, false, 0⟩ : MatSlot).Fits := by simp [MatSlot.Fits]
theorem streamSlot_zero_fitsIn : (⟨0, 0, 0, 0, 0⟩ : StreamSlot).FitsIn := by simp [StreamSlot.FitsIn]
theorem streamSlot_zero_fitsOut : (⟨0, 0, 0, 0, 0⟩ : StreamSlot).FitsOut := by simp [StreamSlot.FitsOut]

theorem ofWord_syncWord {op arg : Nat} (h : (⟨op, arg⟩ : SyncSlot).Fits) :
    Bundle.ofWord (syncWord op arg) = syncOnly ⟨op, arg⟩ := by
  have hfits : (syncOnly ⟨op, arg⟩).fits = true :=
    (fits_iff _).mpr ⟨h, vecSlot_zero_fits, matSlot_zero_fits, streamSlot_zero_fitsIn, streamSlot_zero_fitsOut, Nat.zero_lt_succ _⟩
  simpa [Bundle.word, syncOnly, vecBits, matBits, sinBits, soutBits, syncWord] using ofWord_word hfits

theorem ofWord_vecWord {v : VecSlot} (h : v.Fits) : Bundle.ofWord (vecWord v) = vecOnly v := by
  have hfits : (vecOnly v).fits = true :=
    (fits_iff _).mpr ⟨syncSlot_zero_fits, h, matSlot_zero_fits, streamSlot_zero_fitsIn, streamSlot_zero_fitsOut,
      Nat.zero_lt_succ _⟩
  simpa [Bundle.word, vecOnly, syncBits, matBits, sinBits, soutBits, vecWord] using ofWord_word hfits

theorem ofWord_matWord {op fmt bank row rs : Nat} (h : (⟨op, fmt, bank, row, false, rs⟩ : MatSlot).Fits) :
    Bundle.ofWord (matWord op fmt bank row rs) = matOnly ⟨op, fmt, bank, row, false, rs⟩ := by
  have hfits : (matOnly ⟨op, fmt, bank, row, false, rs⟩).fits = true :=
    (fits_iff _).mpr ⟨syncSlot_zero_fits, vecSlot_zero_fits, h, streamSlot_zero_fitsIn, streamSlot_zero_fitsOut,
      Nat.zero_lt_succ _⟩
  simpa [Bundle.word, matOnly, syncBits, vecBits, sinBits, soutBits, matWord] using ofWord_word hfits

theorem ofWord_sinWord {op stream desc near addr : Nat} (h : (⟨op, stream, desc, near, addr⟩ : StreamSlot).FitsIn) :
    Bundle.ofWord (sinWord op stream desc near addr) = sinOnly ⟨op, stream, desc, near, addr⟩ := by
  have hfits : (sinOnly ⟨op, stream, desc, near, addr⟩).fits = true :=
    (fits_iff _).mpr ⟨syncSlot_zero_fits, vecSlot_zero_fits, matSlot_zero_fits, h, streamSlot_zero_fitsOut, Nat.zero_lt_succ _⟩
  simpa [Bundle.word, sinOnly, syncBits, vecBits, matBits, soutBits, sinWord] using ofWord_word hfits

theorem ofWord_soutWord {op stream desc near addr : Nat} (h : (⟨op, stream, desc, near, addr⟩ : StreamSlot).FitsOut) :
    Bundle.ofWord (soutWord op stream desc near addr) = soutOnly ⟨op, stream, desc, near, addr⟩ := by
  have hfits : (soutOnly ⟨op, stream, desc, near, addr⟩).fits = true :=
    (fits_iff _).mpr ⟨syncSlot_zero_fits, vecSlot_zero_fits, matSlot_zero_fits, streamSlot_zero_fitsIn, h, Nat.zero_lt_succ _⟩
  simpa [Bundle.word, soutOnly, syncBits, vecBits, matBits, sinBits, soutWord] using ofWord_word hfits

/-! ## Cells that can issue -/

theorem slotReady_iff {s : State} {p g : Nat} {b : Bundle} :
    slotReady s p g b = true ↔
      cellOwner s g = some p ∧ canIssue s g = true ∧ (cellOf s g).scratch.losers = [] ∧ blockedBy s p g b = none := by
  simp only [slotReady, Bool.and_eq_true, decide_eq_true_eq, Option.isNone_iff_eq_none, and_assoc]

theorem slotClear_iff {s : State} {p g : Nat} {b : Bundle} :
    slotClear s p g b = true ↔ slotReady s p g b = true ∧ quietOuts (cellOf s g) = true := by
  simp only [slotClear, Bool.and_eq_true]

theorem running_of_canIssue {s : State} {g : Nat} (h : canIssue s g = true) : (cellOf s g).seq.status = .running := by
  simp only [canIssue, Bool.and_eq_true, beq_iff_eq] at h
  exact h.1.1.1

theorem alive_iff {s : State} {g : Nat} : alive s g = true ↔ (cellOf s g).seq.status ≠ .halted := by
  unfold alive
  split <;> simp_all

/-- A bundle without repetitions is attempted once. -/
theorem issueSlot_of_rep_zero {s : State} {p g : Nat} {w : BitVec 256} (howner : cellOwner s g = some p)
    (hissue : canIssue s g = true) (hrep : (Bundle.ofWord w).rep = 0) : issueSlot s g w = tryIssue s p g w true none [] := by
  simp only [issueSlot, howner, hissue, if_true, issueAll, hrep, issueRest]

/-- An illegal bundle without repetitions is counted and halts its cell (R41). -/
theorem issueSlot_illegal {s : State} {p g : Nat} {w : BitVec 256} {b : Bundle} (howner : cellOwner s g = some p)
    (hissue : canIssue s g = true) (hw : Bundle.ofWord w = b) (hrep : b.rep = 0) (hbad : bundleIllegal (cellOf s g) b = true) :
    issueSlot s g w = cellErr (odInc s Ad.cellIllegalBundleCount) g .illegalBundle 0 false := by
  rw [issueSlot_of_rep_zero howner hissue (hw ▸ hrep)]
  simp only [tryIssue, hw, hbad, if_true]

/-- A bundle whose sync slot is no wait does not wait. -/
theorem syncWait_of_ne {s : State} {p g : Nat} {y : SyncSlot} (h1 : y.op ≠ 1) (h3 : y.op ≠ 3) (held : Option (BitVec 256)) :
    syncWait s p g y held = none := by
  unfold syncWait
  split
  · rfl
  · split <;> simp_all

/-- A legal bundle that nothing holds issues. -/
theorem tryIssue_of_ready {s : State} {p g : Nat} {w : BitVec 256} {b : Bundle} (hready : slotReady s p g b = true)
    (hw : Bundle.ofWord w = b) (hlegal : bundleIllegal (cellOf s g) b = false) (hfault : matFault (cellOf s g) b.mat = none)
    (h1 : b.sync.op ≠ 1) (h3 : b.sync.op ≠ 3) (slot : Bool) : tryIssue s p g w slot none [] = issueOnce s p g b slot [] := by
  obtain ⟨-, -, -, hfree⟩ := slotReady_iff.mp hready
  simp [tryIssue, hw, hlegal, hfault, syncWait_of_ne h1 h3, hfree, h1]

/-- A legal slot operation that nothing holds issues. -/
theorem issueSlot_of_ready {s : State} {p g : Nat} {w : BitVec 256} {b : Bundle} (hready : slotReady s p g b = true)
    (hw : Bundle.ofWord w = b) (hrep : b.rep = 0) (hlegal : bundleIllegal (cellOf s g) b = false)
    (hfault : matFault (cellOf s g) b.mat = none) (h1 : b.sync.op ≠ 1) (h3 : b.sync.op ≠ 3) :
    issueSlot s g w = issueOnce s p g b true [] := by
  obtain ⟨howner, hissue, -, -⟩ := slotReady_iff.mp hready
  rw [issueSlot_of_rep_zero howner hissue (hw ▸ hrep), tryIssue_of_ready hready hw hlegal hfault h1 h3]

/-! ## The end of an issue -/

/-- What the end of an issue does to its cell: the CCLK passes, the generators advance, and a cell that still runs moves on. -/
def endIssue (b : Bundle) (slot : Bool) (c : Cell) : Cell :=
  let d := advanceGens (c.after 1)
  match d.seq.status with
  | .halted => d
  | _ => advance d b slot

theorem endIssue_of_alive {c : Cell} (h : c.seq.status ≠ .halted) (b : Bundle) (slot : Bool) :
    endIssue b slot c = advance (advanceGens (c.after 1)) b slot := by
  have hstatus : (advanceGens (c.after 1)).seq.status ≠ .halted := h
  unfold endIssue
  dsimp only
  split
  · contradiction
  · rfl

/-- A slot operation other than LOOP keeps the bundle address (log 15). -/
theorem advance_slot {b : Bundle} (hrep : b.rep = 0) (hloop : b.sync.op ≠ 5) (c : Cell) :
    advance c b true = { c with seq := { c.seq with granted := false, held := none, rep := 0 } } := by
  simp [advance, hrep, hloop]

/-- The end of the issue of a slot operation other than LOOP. -/
theorem modCell_endIssue {s : State} {g : Nat} {b : Bundle} (halive : alive s g = true) (hrep : b.rep = 0)
    (hloop : b.sync.op ≠ 5) : modCell s g (endIssue b true) = slotAfter s g := by
  simp only [modCell, slotAfter, endIssue_of_alive (alive_iff.mp halive), advance_slot hrep hloop]

/-- A cell set to itself is no change to what is set after it. -/
theorem modCell_setCell_self (s : State) (g : Nat) (f : Cell → Cell) :
    modCell (setCell s g (cellOf s g)) g f = modCell s g f := by
  simp only [modCell, cellOf_setCell_self, setCell_setCell]

theorem modCell_modCell (s : State) (g : Nat) (f f' : Cell → Cell) :
    modCell (modCell s g f) g f' = modCell s g (f' ∘ f) := by
  simp only [modCell, cellOf_setCell_self, setCell_setCell, Function.comp]

/-- A cell just changed, set to itself. -/
theorem setCell_self_modCell (s : State) (g : Nat) (f : Cell → Cell) :
    setCell (modCell s g f) g (cellOf (modCell s g f) g) = modCell s g f := by
  simp only [modCell, cellOf_setCell_self, setCell_setCell]

theorem setCell_self {s : State} {g : Nat} (h : tset s.cells g (cellOf s g) = s.cells) : setCell s g (cellOf s g) = s := by
  rw [setCell, h]

theorem cells_anem (s : State) (u e n : Nat) : (anem s u e n).cells = s.cells := by
  rw [anem_eq]

/-- The cell that issues is listed, so setting it to itself changes nothing. -/
theorem setCell_self_issued (s : State) (g : Nat) (b : Bundle) :
    setCell (issued s g b) g (cellOf (issued s g b) g) = issued s g b := by
  refine setCell_self ?_
  rw [issued, cellOf_anem, cells_anem]
  exact congrArg State.cells (setCell_self_modCell s g _)

theorem setCell_self_anem {s : State} {g : Nat} (h : setCell s g (cellOf s g) = s) (u e n : Nat) :
    setCell (anem s u e n) g (cellOf (anem s u e n) g) = anem s u e n := by
  refine setCell_self ?_
  rw [cellOf_anem, cells_anem]
  exact congrArg State.cells h

/-! ## The state in which a bundle's slots act -/

@[simp] theorem cellOwner_issued (s : State) (g : Nat) (b : Bundle) (h : Nat) : cellOwner (issued s g b) h = cellOwner s h := by
  rw [issued, cellOwner_anem]
  rfl

@[simp] theorem partOf_issued (s : State) (g : Nat) (b : Bundle) (p : Nat) : partOf (issued s g b) p = partOf s p := by
  rw [issued, partOf_anem]
  rfl

@[simp] theorem noteIssue_scratch (c : Cell) (b : Bundle) : (noteIssue c b).scratch = c.scratch := rfl
@[simp] theorem noteIssue_outs (c : Cell) (b : Bundle) : (noteIssue c b).outs = c.outs := rfl
@[simp] theorem noteIssue_ins (c : Cell) (b : Bundle) : (noteIssue c b).ins = c.ins := rfl
@[simp] theorem noteIssue_lcs (c : Cell) (b : Bundle) : (noteIssue c b).lcs = c.lcs := rfl
@[simp] theorem noteIssue_acc (c : Cell) (b : Bundle) : (noteIssue c b).acc = c.acc := rfl
@[simp] theorem noteIssue_status (c : Cell) (b : Bundle) : (noteIssue c b).seq.status = c.seq.status := rfl

theorem quietOuts_congr {c d : Cell} (h : c.outs = d.outs) : quietOuts c = quietOuts d := by
  rw [quietOuts, quietOuts, h]

theorem alive_of_running {s : State} {g : Nat} (h : (cellOf s g).seq.status = .running) : alive s g = true := by
  rw [alive_iff, h]
  simp

theorem alive_issued {s : State} {g : Nat} (h : canIssue s g = true) (b : Bundle) : alive (issued s g b) g = true := by
  refine alive_of_running ?_
  rw [cellOf_issued]
  exact running_of_canIssue h

/-! ## Slots that hold no operation -/

theorem streamExec_none (s : State) (g : Nat) {b : Bundle} (hin : b.sin.op = 0) (hout : b.sout.op = 0) : streamExec s g b = s := by
  simp only [streamExec, hin, hout]

theorem matExec_none (s : State) (p g rep : Nat) {m : MatSlot} (h : m.op = 0) : matExec s p g m rep = s := by
  simp only [matExec, h]

theorem syncExec_none (s : State) (p g : Nat) {y : SyncSlot} (h : y.op = 0) : syncExec s p g y = s := by
  simp only [syncExec, h]

theorem vecBefore_none {s : State} {p g : Nat} {v : VecSlot} (h : v.op = 0) (hlost : (cellOf s g).scratch.losers = [])
    (draws : List (BitVec 32)) : vecBefore s p g v draws [] = setCell s g (cellOf s g) := by
  simp [vecBefore, h, hlost]

theorem vstGrant_none (s : State) (p g : Nat) {v : VecSlot} (h : v.op ≠ 0x41) (data : List Lane) (others : List BankReq) :
    vstGrant s p g v data others = none := by
  simp [vstGrant, h]

theorem vecStore_none (s : State) (p g : Nat) {v : VecSlot} (h : v.op ≠ 0x41) (data : List Lane)
    (x : Option (List BankReq × List BankReq)) : vecStore s p g v data x = s := by
  simp [vecStore, h]

/-- Drains of a cell none of whose write streams runs, set to itself. -/
theorem drainAll_setCell_self {s : State} {g : Nat} (h : quietOuts (cellOf s g) = true) (d : List (BitVec 32)) :
    drainAll (setCell s g (cellOf s g)) g d = setCell s g (cellOf s g) :=
  drainAll_quiet (by rwa [cellOf_setCell_self]) d

theorem alive_setCell_self (s : State) (g : Nat) : alive (setCell s g (cellOf s g)) g = alive s g := by
  simp only [alive, cellOf_setCell_self]

/-- The state in which the stream slots of a bundle act. -/
def streamStart (s : State) (g : Nat) (b : Bundle) : State :=
  if b.mat.op = 3 ∨ b.mat.op = 4 then anem (issued s g b) (g / 80) 3 1 else issued s g b

/-- A bundle without a vector operation, whose write streams drain nothing: its stream, matrix and sync slots in turn. -/
theorem issueOnce_of_quiet {s s1 : State} {p g : Nat} {b : Bundle} (hvec : b.vec.op = 0)
    (hs1 : streamExec (streamStart s g b) g b = s1) (halive : alive s1 g = true)
    (hlost : (cellOf s1 g).scratch.losers = []) (hquiet : quietOuts (cellOf s1 g) = true)
    (hself : setCell s1 g (cellOf s1 g) = s1) (slot : Bool) :
    issueOnce s p g b slot [] =
      modCell (if alive (matExec s1 p g b.mat (cellOf s g).seq.rep) g
        then syncExec (matExec s1 p g b.mat (cellOf s g).seq.rep) p g b.sync
        else matExec s1 p g b.mat (cellOf s g).seq.rep) g (endIssue b slot) := by
  have hstore : b.vec.op ≠ 0x41 := by omega
  have hbefore : ∀ d, vecBefore s1 p g b.vec d [] = s1 := fun d => (vecBefore_none hvec hlost d).trans hself
  unfold issueOnce
  unfold streamStart issued at hs1
  simp only [hs1, halive, if_true, ite_self, hbefore, vstGrant_none _ _ _ hstore, drainAll_quiet hquiet,
    vecStore_none _ _ _ hstore]
  rfl

/-- A bundle of stream operations alone, after which no write stream runs. -/
theorem issueOnce_of_streams {s s1 : State} {p g : Nat} {b : Bundle} (hvec : b.vec.op = 0) (hmat : b.mat.op = 0)
    (hsync : b.sync.op = 0) (hrep : b.rep = 0) (hs1 : streamExec (issued s g b) g b = s1) (halive : alive s1 g = true)
    (hlost : (cellOf s1 g).scratch.losers = []) (hquiet : quietOuts (cellOf s1 g) = true) :
    issueOnce s p g b true [] = slotAfter s1 g := by
  have hstore : b.vec.op ≠ 0x41 := by omega
  have hmac : ¬(b.mat.op = 3 ∨ b.mat.op = 4) := by omega
  unfold issued at hs1
  have hend : issueOnce s p g b true [] = modCell (setCell s1 g (cellOf s1 g)) g (endIssue b true) := by
    unfold issueOnce
    simp only [hmac, if_false, hs1, halive, if_true, vecBefore_none hvec hlost, ite_self, vstGrant_none _ _ _ hstore,
      drainAll_setCell_self hquiet, matExec_none _ _ _ _ hmat, vecStore_none _ _ _ hstore, syncExec_none _ _ _ hsync]
    rfl
  rw [hend, modCell_setCell_self]
  exact modCell_endIssue halive hrep (by omega)

end Sys2Proof.Machine

/-! # Proofs: the lane operations -/

namespace Sys2Proof.Machine

/-! # The lane operations -/

/-- The vector operations that put a value into each unmasked lane of their destination and do nothing else (R486). -/
def laneOps : List Nat :=
  [1, 2, 3, 4, 5, 6, 8, 9, 10, 11, 12, 13, 14, 15, 0x12, 0x13, 0x18, 0x19, 0x20, 0x21, 0x22, 0x23, 0x24, 0x25, 0x38, 0x39]

/-- The value such an operation puts into lane `i`, with the CCLK's draws. -/
def laneValue (c : Cell) (draws : List (BitVec 32)) (v : VecSlot) (i : Nat) : Lane :=
  let m := maskReg c v.mask
  let a := reg c v.sa
  let b := reg c v.sb
  match v.op with
  | 0x12 => if (maskReg c (v.sc % 8)).getLsbD i then a.getD i 0 else b.getD i 0
  | 0x13 => BitVec.ofInt 32 (signed 12 v.imm)
  | 0x18 => reduceOp true v.dt m a
  | 0x19 => reduceOp false v.dt m a
  | 0x38 => draws.getD i 0
  | 0x39 => uniformOf (draws.getD i 0)
  | op =>
    if op ≤ 6 then fpOp op v.dt (a.getD i 0) (b.getD i 0) ((reg c v.sc).getD i 0)
    else if op ≤ 15 then intOp op (a.getD i 0) (b.getD i 0)
    else sfuOp op v.dt (a.getD i 0)

/-- The draw of each lane is its generator's (R62). -/
theorem getD_drawsOf (c : Cell) {i : Nat} (h : i < lanes) : (drawsOf c).getD i 0 = ((tget c.gens i).getD {}).output := by
  simp [drawsOf, h]

/-- Lanes set alike below the lane count are set alike. -/
theorem laneSet_congr (c : Cell) (dst mask : Nat) {f f' : Nat → Lane} (h : ∀ i < lanes, f i = f' i) :
    laneSet c dst mask f = laneSet c dst mask f' := by
  unfold laneSet
  congr 1
  refine List.map_congr_left fun i hi => ?_
  rw [h i (List.mem_range.mp hi)]

/-- A register that takes a list of lanes under a mask takes them lane by lane. -/
theorem setReg_merged (c : Cell) (dst mask : Nat) (f : Nat → Lane) :
    setReg c dst (merged (maskReg c mask) (reg c dst) ((List.range lanes).map f)) = laneSet c dst mask f := by
  have hget : ∀ i ∈ List.range lanes, ((List.range lanes).map f).getD i 0 = f i := fun i hi => by
    simp [List.mem_range.mp hi]
  rw [merged, laneSet]
  exact congrArg (setReg c dst) (List.map_congr_left fun i hi => by rw [hget i hi])

/-- A lane operation leaves its cell with the lanes set, and folds nothing. -/
theorem vecExec_lane (s : State) (p g : Nat) {v : VecSlot} (hv : v.op ∈ laneOps) (draws : List (BitVec 32)) :
    vecExec s p g v draws = (laneSet (cellOf s g) v.dst v.mask (laneValue (cellOf s g) draws v), none) := by
  rw [← setReg_merged]
  obtain ⟨op, dst, sa, sb, sc, mask, dt, rnd, slot, imm⟩ := v
  simp only [laneOps, List.mem_cons, List.not_mem_nil, or_false] at hv
  rcases hv with rfl | rfl | rfl | rfl | rfl | rfl | rfl | rfl | rfl | rfl | rfl | rfl | rfl | rfl | rfl | rfl | rfl | rfl | rfl |
    rfl | rfl | rfl | rfl | rfl | rfl | rfl <;> rfl

/-- A legal slot of a lane operation whose fields fit. -/
structure LaneSlot (v : VecSlot) : Prop where
  op : v.op ∈ laneOps
  fits : v.Fits
  dt : v.dt < 2
  rnd : v.rnd = 0

theorem LaneSlot.legal {v : VecSlot} (h : LaneSlot v) : vecIllegal v = false := by
  obtain ⟨hop, -, hdt, hrnd⟩ := h
  obtain ⟨op, dst, sa, sb, sc, mask, dt, rnd, slot, imm⟩ := v
  simp only [laneOps, List.mem_cons, List.not_mem_nil, or_false] at hop hdt hrnd
  simp only [vecIllegal, vecOps, hrnd, show ¬ 2 < dt by omega, show dt ≠ 2 by omega]
  rcases hop with rfl | rfl | rfl | rfl | rfl | rfl | rfl | rfl | rfl | rfl | rfl | rfl | rfl | rfl | rfl | rfl | rfl | rfl | rfl |
    rfl | rfl | rfl | rfl | rfl | rfl | rfl <;> simp

/-- A lane operation where the cell can issue it. -/
theorem issueSlot_lane {s : State} {p g : Nat} {v : VecSlot} (hv : LaneSlot v) (h : slotClear s p g (vecOnly v) = true) :
    issueSlot s g (vecWord v) =
      slotDone s g (vecOnly v) fun c => laneSet c v.dst v.mask (laneValue (cellOf s g) (drawsOf (cellOf s g)) v) := by
  have hop : v.op ≠ 0 ∧ v.op ≠ 0x40 ∧ v.op ≠ 0x41 := by
    have := hv.op
    refine ⟨?_, ?_, ?_⟩ <;> intro h0 <;> rw [h0] at this <;> revert this <;> decide
  obtain ⟨h0, h1, h2⟩ := hop
  have hx := vecExec_lane (issued s g (vecOnly v)) p g hv.op (drawsOf (cellOf s g))
  rw [cellOf_issued] at hx
  refine issueSlot_vec h (ofWord_vecWord hv.fits) hv.legal h0 h1 h2 (hx.trans ?_) ?_ ?_ ?_ <;> rw [cellOf_issued] <;> rfl

/-- A row whose meaning is the issue of a lane operation, where the cell can issue it. -/
theorem exec_lane {s : State} {p g : Nat} {x : Instr} {w : BitVec 256} {v : VecSlot} {f : Nat → Lane}
    (h : slotClear s p g (vecOnly v) = true) (hx : exec x s = .next (issueSlot s g w)) (hw : w = vecWord v) (hv : LaneSlot v)
    (hf : ∀ i < lanes, laneValue (cellOf s g) (drawsOf (cellOf s g)) v i = f i) :
    exec x s = .next (slotDone s g (vecOnly v) fun c => laneSet c v.dst v.mask f) := by
  simp only [hx, hw, issueSlot_lane hv h, laneSet_congr _ _ _ hf]

theorem lt_of_mem_laneOps {op : Nat} (h : op ∈ laneOps) : op < 256 := by
  have hall : ∀ x ∈ laneOps, x < 256 := by decide
  exact hall op h

/-- The slot of a lane operation with fields in their ranges is legal and fits. -/
theorem laneSlot {op dst sa sb sc mask dt imm : Nat} (hop : op ∈ laneOps) (hdst : dst < 64) (hsa : sa < 64) (hsb : sb < 64)
    (hsc : sc < 64) (hmask : mask < 8) (hdt : dt < 2) (himm : imm < 4096) :
    LaneSlot ⟨op, dst, sa, sb, sc, mask, dt, 0, 0, imm⟩ where
  op := hop
  fits := by
    have hop256 := lt_of_mem_laneOps hop
    simp only [VecSlot.Fits]
    omega
  dt := hdt
  rnd := rfl

/-- Settles O9: the value of each operation is its own in `fpOp`. -/
theorem floatLaneOps : Obligations.FloatLaneOps := by
  unfold Obligations.FloatLaneOps
  intro s p g dst sa sb sc mask dt hdst hsa hsb hsc hmask hdt
  have hdt8 : dt < 8 := by omega
  refine ⟨fun h => ?_, fun h => ?_, fun h => ?_, fun h => ?_, fun h => ?_, fun h => ?_⟩
  all_goals
    refine exec_lane h rfl ?_ (laneSlot (by decide) hdst hsa hsb (by omega) hmask hdt (by decide)) fun i _ => rfl
    simp only [Nat.mod_eq_of_lt, hdst, hsa, hsb, hsc, hmask, hdt8]

/-- Settles O10: the value of each operation is its own in `intOp`, `reduceOp` or the draws. -/
theorem integerAndOtherLaneOps : Obligations.IntegerAndOtherLaneOps := by
  unfold Obligations.IntegerAndOtherLaneOps
  intro s p g dst sa sb sel mask imm dt hdst hsa hsb hsel hmask himm hdt
  have hdt8 : dt < 8 := by omega
  refine ⟨fun h => ?_, fun h => ?_, fun h => ?_, fun h => ?_, fun h => ?_, fun h => ?_, fun h => ?_, fun h => ?_, fun h => ?_,
    fun h => ?sel, fun h => ?_, fun h => ?_, fun h => ?rand, fun h => ?randu⟩
  case sel =>
    refine exec_lane h rfl ?_ (laneSlot (by decide) hdst hsa hsb (by omega) hmask (by decide) (by decide)) fun i _ => ?_
    · simp only [Nat.mod_eq_of_lt, hdst, hsa, hsb, hsel, hmask]
    · simp only [laneValue, Nat.mod_eq_of_lt hsel]
  case rand =>
    refine exec_lane h rfl ?_ (laneSlot (by decide) (by omega) (by omega) (by omega) (by omega) (by omega) (by omega) (by omega))
      fun i hi => getD_drawsOf (cellOf s g) hi
    simp only [Nat.mod_eq_of_lt, hdst, hmask]
  case randu =>
    refine exec_lane h rfl ?_ (laneSlot (by decide) (by omega) (by omega) (by omega) (by omega) (by omega) (by omega) (by omega))
      fun i hi => congrArg uniformOf (getD_drawsOf (cellOf s g) hi)
    simp only [Nat.mod_eq_of_lt, hdst, hmask]
  all_goals
    refine exec_lane h rfl ?_ (laneSlot (by decide) (by omega) (by omega) (by omega) (by omega) (by omega) (by omega) (by omega))
      fun i _ => rfl
    simp only [Nat.mod_eq_of_lt, hdst, hsa, hsb, hmask, himm, hdt8]

/-- Settles O11: the value of each operation is its own in `sfuOp`. -/
theorem specialFunctions : Obligations.SpecialFunctions := by
  unfold Obligations.SpecialFunctions
  intro s p g dst sa mask dt hdst hsa hmask hdt
  have hdt8 : dt < 8 := by omega
  refine ⟨fun h => ?_, fun h => ?_, fun h => ?_, fun h => ?_, fun h => ?_, fun h => ?_⟩
  all_goals
    refine exec_lane h rfl ?_ (laneSlot (by decide) hdst hsa (by decide) (by decide) hmask hdt (by decide)) fun i _ => rfl
    simp only [Nat.mod_eq_of_lt, hdst, hsa, hmask, hdt8]

/-! ## What a lane operation leaves unchanged -/

/-- The Anemometer counts in its counters alone. -/
theorem odGet_anem (s : State) (u e n : Nat) {a : Nat} (h : ∀ k, k < 32 → a ≠ Ad.anemCount k) :
    odGet (anem s u e n) a = odGet s a := by
  unfold anem
  have hfold : ∀ (l : List Nat) (t : State), (∀ k ∈ l, k < 32) → odGet (l.foldl (fun t k =>
      if bit (odGet t Ad.anemEnable) k ∧ odGet t (Ad.anemSelect k) = u * 65536 + e then odAdd t (Ad.anemCount k) n
        else t) t) a = odGet t a := by
    intro l
    induction l with
    | nil => intro t _; rfl
    | cons k l ih =>
      intro t hl
      rw [List.foldl_cons, ih _ fun j hj => hl j (List.mem_cons_of_mem _ hj)]
      split
      · exact odGet_odAdd_ne _ _ (h k (hl k List.mem_cons_self))
      · rfl
  exact hfold _ s fun k hk => List.mem_range.mp hk

/-- The part after the issue of a bundle, as the part before with its cell and its dictionary changed. -/
theorem slotDone_eq (s : State) (g : Nat) (b : Bundle) (f : Cell → Cell) :
    slotDone s g b f = { s with od := (issued s g b).od, cells := (slotDone s g b f).cells } := by
  unfold slotDone slotAfter issued
  rw [anem_eq]
  rfl

/-- The cell after the issue of a bundle. -/
theorem cellOf_slotDone_self (s : State) (g : Nat) (b : Bundle) (f : Cell → Cell) :
    cellOf (slotDone s g b f) g =
      let d := advanceGens ((f (noteIssue (cellOf s g) b)).after 1)
      { d with seq := { d.seq with granted := false, held := none, rep := 0 } } := by
  rw [slotDone, slotAfter, modCell_modCell, cellOf_modCell_self, cellOf_issued]
  rfl

/-- Every other cell after the issue of a bundle. -/
theorem cellOf_slotDone_ne (s : State) {g h : Nat} (hne : h ≠ g) (b : Bundle) (f : Cell → Cell) :
    cellOf (slotDone s g b f) h = cellOf s h := by
  rw [slotDone, slotAfter, cellOf_modCell_ne _ _ hne, cellOf_modCell_ne _ _ hne, issued, cellOf_anem, cellOf_modCell_ne _ _ hne]

theorem reg_laneSet_ne (c : Cell) {dst r : Nat} (h : r ≠ dst) (mask : Nat) (f : Nat → Lane) :
    reg (laneSet c dst mask f) r = reg c r := by
  simp only [reg, laneSet, setReg, tget_tset_ne _ _ h]

/-- What a lane operation leaves unchanged: the part but for its cell and the Anemometer's counts, and of the cell all but the
destination, the generators, the sequencer's record of the issue and the ports taken in the CCLK. -/
theorem slotDone_laneSet_frame {s t : State} {g dst mask : Nat} {b : Bundle} {f : Nat → Lane}
    (ht : t = slotDone s g b fun c => laneSet c dst mask f) :
    t = { s with od := t.od, cells := t.cells } ∧ (∀ h, h ≠ g → cellOf t h = cellOf s h) ∧
      (∀ a, (∀ k, k < 32 → a ≠ Ad.anemCount k) → odGet t a = odGet s a) ∧
      (∀ r, r ≠ dst → reg (cellOf t g) r = reg (cellOf s g) r) ∧
      cellOf t g = { cellOf s g with vregs := (cellOf t g).vregs, gens := (cellOf t g).gens, seq := (cellOf t g).seq,
                                     scratch := { (cellOf s g).scratch with asked := [] } } ∧
      (cellOf t g).seq = { (cellOf s g).seq with cclk := (cellOf s g).seq.cclk + 1, granted := false, held := none, rep := 0,
                                                 ready := (cellOf t g).seq.ready } := by
  subst ht
  refine ⟨slotDone_eq s g b _, fun h hne => cellOf_slotDone_ne s hne b _, fun a ha => ?_, fun r hr => ?_, ?_, ?_⟩
  · exact (congrArg (fun o => (tget o a).getD (odDefault a)) (congrArg State.od (slotDone_eq s g b _))).trans
      (odGet_anem (modCell s g fun c => noteIssue c b) (g / 80) 1 1 ha)
  · rw [cellOf_slotDone_self]
    exact reg_laneSet_ne (noteIssue (cellOf s g) b) hr mask f
  · rw [cellOf_slotDone_self]
    rfl
  · rw [cellOf_slotDone_self]
    rfl

/-- Settles O13: each of them is a lane operation. -/
theorem laneFrame : Obligations.LaneFrame := by
  unfold Obligations.LaneFrame
  intro s t p g dst sa sb sc sel mask imm dt hdst hsa hsb hsc hsel hmask himm hdt v x hx h ht
  have hdt8 : dt < 8 := by omega
  suffices hexec : ∃ w, exec x.1 s = .next (issueSlot s g w) ∧ w = vecWord x.2 ∧ LaneSlot x.2 ∧ x.2.dst = dst by
    obtain ⟨w, hnext, hw, hv, hd⟩ := hexec
    have hdone := ht.symm.trans (exec_lane h hnext hw hv fun i _ => rfl)
    rw [hd] at hdone
    exact slotDone_laneSet_frame (Host.Outcome.next.inj hdone)
  simp only [List.mem_cons, List.not_mem_nil, or_false] at hx
  rcases hx with rfl | rfl | rfl | rfl | rfl | rfl | rfl | rfl | rfl | rfl | rfl | rfl | rfl | rfl | rfl | rfl | rfl | rfl | rfl |
    rfl | rfl | rfl | rfl | rfl | rfl | rfl
  all_goals
    refine ⟨_, rfl, ?_, laneSlot (by decide) ?_ ?_ ?_ ?_ ?_ ?_ ?_, rfl⟩
    · simp only [Nat.mod_eq_of_lt, hdst, hsa, hsb, hsc, hsel, hmask, himm, hdt8, v]
    all_goals omega

/-! ## Compares (R486) -/

/-- A mask built bit by bit holds its bits. -/
theorem getLsbD_foldl_twoPow (f : Nat → Bool) (n i : Nat) (hn : n ≤ 128) :
    ((List.range n).foldl (fun (acc : BitVec 128) k => if f k then acc ||| BitVec.twoPow 128 k else acc) 0).getLsbD i =
      (decide (i < n) && f i) := by
  induction n with
  | zero => simp
  | succ n ih =>
    rw [List.range_succ, List.foldl_append, List.foldl_cons, List.foldl_nil]
    have hlow : (decide (i < n + 1) && f i) = ((decide (i < n) && f i) || (decide (n = i) && f n)) := by
      by_cases hi : n = i
      · simp [hi]
      · have : i < n + 1 ↔ i < n := by omega
        simp [hi, this]
    rw [hlow, ← ih (by omega)]
    split
    · next hf => simp [hf, show n < 128 by omega]
    · next hf => simp [hf]

/-- The bit a compare gives its destination mask in lane `i`: the comparison where the lane is unmasked, else its own. -/
def compareBit (c : Cell) (lt : Bool) (v : VecSlot) (i : Nat) : Bool :=
  if (maskReg c v.mask).getLsbD i then cmpOp lt v.dt ((reg c v.sa).getD i 0) ((reg c v.sb).getD i 0)
  else (maskReg c (v.dst % 8)).getLsbD i

/-- The mask of a compare. -/
def compareMask (c : Cell) (lt : Bool) (v : VecSlot) : BitVec 128 :=
  (List.range lanes).foldl (fun acc i => if compareBit c lt v i then acc ||| BitVec.twoPow 128 i else acc) 0

theorem getLsbD_compareMask (c : Cell) (lt : Bool) (v : VecSlot) {i : Nat} (hi : i < 128) :
    (compareMask c lt v).getLsbD i = compareBit c lt v i := by
  rw [compareMask, getLsbD_foldl_twoPow _ _ _ (by decide), lanes]
  simp [hi]

/-- VCMPLT and VCMPEQ, by opcode. -/
def IsCompare (op : Nat) (lt : Bool) : Prop := op = 0x10 ∧ lt = true ∨ op = 0x11 ∧ lt = false

/-- A compare leaves its cell with the mask set, and folds nothing. -/
theorem vecExec_compare (s : State) (p g : Nat) {v : VecSlot} {lt : Bool} (h : IsCompare v.op lt) (draws : List (BitVec 32)) :
    vecExec s p g v draws =
      ({ cellOf s g with masks := tset (cellOf s g).masks (v.dst % 8) (compareMask (cellOf s g) lt v) }, none) := by
  obtain ⟨op, dst, sa, sb, sc, mask, dt, rnd, slot, imm⟩ := v
  obtain ⟨rfl, rfl⟩ | ⟨rfl, rfl⟩ := h <;> rfl

/-- A compare is legal unless it names mask 0. -/
theorem vecIllegal_compare {op dst sa sb mask dt : Nat} {lt : Bool} (h : IsCompare op lt) (hdst : dst < 8) (hdt : dt < 3) :
    vecIllegal ⟨op, dst, sa, sb, 0, mask, dt, 0, 0, 0⟩ = decide (dst = 0) := by
  have hdt2 : ¬ 2 < dt := by omega
  obtain ⟨rfl, -⟩ | ⟨rfl, -⟩ := h <;> simp [vecIllegal, vecOps, fpVecOp, hdt2, Nat.mod_eq_of_lt hdst]

theorem bundleIllegal_vecOnly (c : Cell) (v : VecSlot) : bundleIllegal c (vecOnly v) = vecIllegal v := by
  simp [bundleIllegal, matIllegal]

/-- A compare of mask 0, where the cell can issue. -/
theorem issueSlot_compare_zero {s : State} {p g op sa sb mask dt : Nat} {lt : Bool} (hop : IsCompare op lt) (hdt : dt < 3)
    (hfits : (⟨op, 0, sa, sb, 0, mask, dt, 0, 0, 0⟩ : VecSlot).Fits)
    (h : slotClear s p g (vecOnly ⟨op, 0, sa, sb, 0, mask, dt, 0, 0, 0⟩) = true) :
    issueSlot s g (vecWord ⟨op, 0, sa, sb, 0, mask, dt, 0, 0, 0⟩) =
      cellErr (odInc s Ad.cellIllegalBundleCount) g .illegalBundle 0 false := by
  obtain ⟨hready, -⟩ := slotClear_iff.mp h
  obtain ⟨howner, hissue, -⟩ := slotReady_iff.mp hready
  refine issueSlot_illegal howner hissue (ofWord_vecWord hfits) rfl ?_
  rw [bundleIllegal_vecOnly, vecIllegal_compare hop (by decide) hdt]
  rfl

/-- A compare of another mask, where the cell can issue it. -/
theorem issueSlot_compare {s : State} {p g op dst sa sb mask dt : Nat} {lt : Bool} (hop : IsCompare op lt) (hdst : dst < 8)
    (hne : dst ≠ 0) (hdt : dt < 3) (hfits : (⟨op, dst, sa, sb, 0, mask, dt, 0, 0, 0⟩ : VecSlot).Fits)
    (h : slotClear s p g (vecOnly ⟨op, dst, sa, sb, 0, mask, dt, 0, 0, 0⟩) = true) :
    issueSlot s g (vecWord ⟨op, dst, sa, sb, 0, mask, dt, 0, 0, 0⟩) =
      slotDone s g (vecOnly ⟨op, dst, sa, sb, 0, mask, dt, 0, 0, 0⟩) fun c =>
        { c with masks := tset c.masks dst (compareMask (cellOf s g) lt ⟨op, dst, sa, sb, 0, mask, dt, 0, 0, 0⟩) } := by
  have hops : op ≠ 0 ∧ op ≠ 0x40 ∧ op ≠ 0x41 := by rcases hop with ⟨rfl, -⟩ | ⟨rfl, -⟩ <;> decide
  obtain ⟨h0, h1, h2⟩ := hops
  have hlegal : vecIllegal ⟨op, dst, sa, sb, 0, mask, dt, 0, 0, 0⟩ = false := by
    rw [vecIllegal_compare hop hdst hdt, decide_eq_false hne]
  refine issueSlot_vec h (ofWord_vecWord hfits) hlegal h0 h1 h2 ((vecExec_compare _ p g hop _).trans ?_) ?_ ?_ ?_ <;>
    rw [cellOf_issued]
  · dsimp only
    rw [Nat.mod_eq_of_lt hdst]
    rfl
  all_goals rfl

/-- Settles O12, by whether the destination is mask 0. -/
theorem compares : Obligations.Compares := by
  unfold Obligations.Compares
  intro s p g dst sa sb mask dt hdst hsa hsb hmask hdt c bits ends
  have hends : ∀ x op lt, IsCompare op lt →
      exec x s = .next (issueSlot s g (vecWord ⟨op, dst % 64, sa % 64, sb % 64, 0, mask % 8, dt % 8, 0, 0, 0⟩)) →
        ends x op lt := by
    intro x op lt hop hx h
    have hfits : (⟨op, dst, sa, sb, 0, mask, dt, 0, 0, 0⟩ : VecSlot).Fits := by
      have hop256 : op < 256 := by rcases hop with ⟨rfl, -⟩ | ⟨rfl, -⟩ <;> decide
      simp only [VecSlot.Fits]
      omega
    have hdst64 : dst < 64 := by omega
    have hdt8 : dt < 8 := by omega
    simp only [Nat.mod_eq_of_lt, hdst64, hsa, hsb, hmask, hdt8] at hx
    rw [hx]
    split
    · next hzero =>
      subst hzero
      rw [issueSlot_compare_zero hop hdt hfits h]
    · next hne =>
      refine ⟨_, fun i hi => ?_, congrArg _ (issueSlot_compare hop hdst hne hdt hfits h)⟩
      rw [getLsbD_compareMask _ _ _ hi]
      simp only [compareBit, Nat.mod_eq_of_lt hdst]
      rfl
  exact ⟨hends _ _ _ (.inl ⟨rfl, rfl⟩) rfl, hends _ _ _ (.inr ⟨rfl, rfl⟩) rfl⟩

/-! ## Illegal DT (R41, R486) -/

/-- A floating-point operation whose DT is INT32 or reserved is illegal. -/
theorem vecIllegal_of_dt {v : VecSlot} (hop : fpVecOp v.op = true) (hdt : 2 ≤ v.dt) : vecIllegal v = true := by
  have hne : v ≠ ⟨0, 0, 0, 0, 0, 0, 0, 0, 0, 0⟩ := by
    rintro rfl
    exact absurd hdt (by decide)
  have hbad : 2 < v.dt ∨ v.dt = 2 := by omega
  rcases hbad with hbad | hbad <;> simp [vecIllegal, hne, hop, hbad]

/-- A row whose meaning is the issue of such an operation. -/
theorem exec_of_illegal_dt {s : State} {p g : Nat} {x : Instr} {v : VecSlot} (howner : cellOwner s g = some p)
    (hissue : canIssue s g = true) (hx : exec x s = .next (issueSlot s g (vecWord v))) (hfits : v.Fits)
    (hop : fpVecOp v.op = true) (hdt : 2 ≤ v.dt) :
    exec x s = .next (cellErr (odInc s Ad.cellIllegalBundleCount) g .illegalBundle 0 false) := by
  rw [hx, issueSlot_illegal howner hissue (ofWord_vecWord hfits) rfl]
  rw [bundleIllegal_vecOnly, vecIllegal_of_dt hop hdt]

/-- Settles O14: each of them is one of `fpVecOp`. -/
theorem illegalDt : Obligations.IllegalDt := by
  unfold Obligations.IllegalDt
  intro s p g dst sa sb sc mask dt howner hissue hdst hsa hsb hsc hmask hdt hdt8 bad
  refine ⟨?_, ?_, ?_, ?_, ?_, ?_, ?_, ?_, ?_, ?_, ?_, ?_, ?_, ?_⟩
  all_goals
    refine exec_of_illegal_dt howner hissue rfl ?_ rfl ?_ <;> simp only [VecSlot.Fits] <;> omega

end Sys2Proof.Machine

/-! # Proofs: rounding to nearest, and far-tier requests that fail -/

namespace Sys2Proof.Machine

/-! # Rounding to nearest even (R54) -/

/-- Settles O15: by whether the remainder rounds the quotient up. -/
theorem rneNearest : Obligations.RneNearest := by
  unfold Obligations.RneNearest
  intro n d hd
  have hn : n = d * (n / d) + n % d := (Nat.div_add_mod n d).symm
  have hr : n % d < d := Nat.mod_lt n hd
  unfold rne
  generalize n / d = q at *
  generalize n % d = r at *
  subst hn
  split
  · next hup =>
    have hmul : 2 * d * (q + 1) = 2 * (d * q) + 2 * d := by ring
    rw [hmul]
    omega
  · next hdown =>
    have hmul : 2 * d * q = 2 * (d * q) := by ring
    rw [hmul]
    omega

/-! # Far-tier requests that fail (R59, R186) -/

/-- The error of a far-tier request: the cell's where one made it, else the control core's. -/
def farErr (s : State) (p addr : Nat) (c : Code) : Option Nat → State
  | some g => cellErr s g c addr false
  | none => coreErr s p c addr

theorem farFail_of_format {s : State} {p addr hint n : Nat} (h : 4 ≤ hint ∨ 2 ^ 41 ≤ addr) (cell : Option Nat) :
    farFail s p addr hint n cell = some (farErr s p addr .addressFormatInvalid cell) := by
  cases cell <;> simp only [farFail, h, if_true, farErr]

theorem farFail_of_bounds {s : State} {p addr hint n : Nat} (hhint : hint < 4) (haddr : addr < 2 ^ 41)
    (h : farSize s p < addr + n) (cell : Option Nat) :
    farFail s p addr hint n cell = some (farErr s p addr .streamBounds cell) := by
  have hformat : ¬ (4 ≤ hint ∨ 2 ^ 41 ≤ addr) := by omega
  cases cell <;> simp only [farFail, hformat, if_false, h, if_true, farErr]

/-- A line's hint 3 is reserved, so it fails as a hint above 3 does. -/
theorem lineHint_format {hint addr : Nat} (h : 3 ≤ hint ∨ 2 ^ 41 ≤ addr) : 4 ≤ (if hint = 3 then 4 else hint) ∨ 2 ^ 41 ≤ addr := by
  split <;> omega

/-- A read of a line whose request fails. -/
theorem execLineRead_of_fail {s t : State} {p addr len hint : Nat}
    (h : farFail s p addr (if hint = 3 then 4 else hint) len none = some t) (reserved : Bool) (errs : List SymErr)
    (tagFail : Option Nat) : execLineRead p addr len hint reserved errs tagFail s = .next t := by
  rw [execLineRead]
  rw [apply_ite (fun k => farFail s p addr k len none)] at h
  rw [h]

/-- A write of a line whose request fails. -/
theorem execLineWrite_of_fail {s t : State} {p addr hint : Nat} {src : Writer} {data : List Byte}
    (h : farFail s p addr (if hint = 3 then 4 else hint) data.length (writerCell src) = some t) (poison : Bool) :
    execLineWrite p addr hint src data poison s = .next t := by
  rw [execLineWrite, farRequest, h]

/-- Settles O35: the first two checks of a far-tier request. -/
theorem farTierStops : Obligations.FarTierStops := by
  unfold Obligations.FarTierStops
  intro s p addr hint len reserved errs tagFail data poison hlen
  subst hlen
  refine ⟨fun hformat => ?_, fun hhint haddr hsize => ?_⟩
  · have hfail := fun n cell => farFail_of_format (s := s) (p := p) (n := n) (lineHint_format hformat) cell
    exact ⟨execLineRead_of_fail (hfail _ none) reserved errs tagFail, execLineWrite_of_fail (hfail _ none) poison,
      fun g => execLineWrite_of_fail (hfail _ (some g)) poison⟩
  · have hhint4 : (if hint = 3 then 4 else hint) < 4 := by split <;> omega
    have hfail := fun cell => farFail_of_bounds hhint4 haddr hsize cell
    exact ⟨execLineRead_of_fail (hfail none) reserved errs tagFail, execLineWrite_of_fail (hfail none) poison,
      fun g => execLineWrite_of_fail (hfail (some g)) poison⟩

end Sys2Proof.Machine

/-! # Proofs: the sync and matrix slots -/

namespace Sys2Proof.Machine

/-! ## Bundles of one slot are legal by that slot -/

theorem bundleIllegal_syncOnly (c : Cell) {y : SyncSlot} (h : y.op ≤ 7) (h3 : y.op ≠ 3) :
    bundleIllegal c (syncOnly y) = false := by
  simp [bundleIllegal, syncOnly, vecIllegal, matIllegal, Nat.not_lt.mpr h, h3]

theorem bundleIllegal_matOnly (c : Cell) (m : MatSlot) : bundleIllegal c (matOnly m) = matIllegal c m := by
  simp [bundleIllegal, matOnly, vecIllegal]

theorem matFault_syncOnly (c : Cell) (y : SyncSlot) : matFault c (syncOnly y).mat = none := rfl

/-! ## The state in which the sync and matrix slots act -/

theorem canIssue_of_clear {s : State} {p g : Nat} {b : Bundle} (h : slotClear s p g b = true) : canIssue s g = true :=
  (slotReady_iff.mp (slotClear_iff.mp h).1).2.1

theorem streamStart_of_ne {s : State} {g : Nat} {b : Bundle} (h : ¬(b.mat.op = 3 ∨ b.mat.op = 4)) :
    streamStart s g b = issued s g b := if_neg h

theorem cellOf_streamStart (s : State) (g : Nat) (b : Bundle) : cellOf (streamStart s g b) g = noteIssue (cellOf s g) b := by
  unfold streamStart
  split
  · rw [cellOf_anem, cellOf_issued]
  · rw [cellOf_issued]

theorem setCell_self_streamStart (s : State) (g : Nat) (b : Bundle) :
    setCell (streamStart s g b) g (cellOf (streamStart s g b) g) = streamStart s g b := by
  unfold streamStart
  split
  · exact setCell_self_anem (setCell_self_issued s g b) _ _ _
  · exact setCell_self_issued s g b

/-- A bundle of a matrix and a sync operation alone, where the cell can issue it: the two in turn, then the issue's end. -/
theorem issueOnce_of_clear {s t : State} {p g : Nat} {b : Bundle} (h : slotClear s p g b = true) (hvec : b.vec.op = 0)
    (hin : b.sin.op = 0) (hout : b.sout.op = 0) (ht : matExec (streamStart s g b) p g b.mat (cellOf s g).seq.rep = t)
    (halive : alive t g = true) (slot : Bool) :
    issueOnce s p g b slot [] = modCell (syncExec t p g b.sync) g (endIssue b slot) := by
  obtain ⟨hready, hquiet⟩ := slotClear_iff.mp h
  obtain ⟨-, hissue, hlost, -⟩ := slotReady_iff.mp hready
  have hcell := cellOf_streamStart s g b
  rw [issueOnce_of_quiet hvec (streamExec_none _ _ hin hout) (alive_of_running ?running) ?lost ?quiet
    (setCell_self_streamStart s g b), ht, if_pos halive]
  case running => rw [hcell]; exact running_of_canIssue hissue
  case lost => rw [hcell]; exact hlost
  case quiet => rw [hcell]; exact hquiet

/-! ## Sync operations -/

/-- The matrix slot of a bundle of a sync operation does nothing. -/
theorem matExec_syncOnly (s : State) (p g rep : Nat) (y : SyncSlot) :
    matExec (streamStart s g (syncOnly y)) p g (syncOnly y).mat rep = issued s g (syncOnly y) :=
  (matExec_none _ _ _ rep rfl).trans (streamStart_of_ne (by simp [syncOnly]))

/-- A sync operation that is no wait: its effect, then the end of its issue. -/
theorem issueSlot_sync {s : State} {p g op arg : Nat} (h : slotClear s p g (syncOnly ⟨op, arg⟩) = true) (hop : op ≤ 7)
    (h1 : op ≠ 1) (h3 : op ≠ 3) (harg : arg < 2 ^ 26) :
    issueSlot s g (syncWord op arg) =
      modCell (syncExec (issued s g (syncOnly ⟨op, arg⟩)) p g ⟨op, arg⟩) g (endIssue (syncOnly ⟨op, arg⟩) true) := by
  have hfits : (⟨op, arg⟩ : SyncSlot).Fits := ⟨Nat.lt_of_le_of_lt hop (by decide), harg⟩
  rw [issueSlot_of_ready (slotClear_iff.mp h).1 (ofWord_syncWord hfits) rfl (bundleIllegal_syncOnly _ hop h3)
    (matFault_syncOnly _ _) h1 h3]
  exact issueOnce_of_clear h rfl rfl rfl (matExec_syncOnly _ _ _ _ _) (alive_issued (canIssue_of_clear h) _) true

/-- A sync operation that is no wait and no LOOP, after which the cell has not halted. -/
theorem issueSlot_sync_slotAfter {s t : State} {p g op arg : Nat} (h : slotClear s p g (syncOnly ⟨op, arg⟩) = true) (hop : op ≤ 7)
    (h1 : op ≠ 1) (h3 : op ≠ 3) (h5 : op ≠ 5) (harg : arg < 2 ^ 26)
    (ht : syncExec (issued s g (syncOnly ⟨op, arg⟩)) p g ⟨op, arg⟩ = t) (halive : alive t g = true) :
    issueSlot s g (syncWord op arg) = slotAfter t g := by
  rw [issueSlot_sync h hop h1 h3 harg, ht]
  exact modCell_endIssue halive rfl h5

/-- LOOP branches where its counter is not zero (R42). -/
theorem issueSlot_loop {s : State} {p g arg : Nat} (h : slotClear s p g (syncOnly ⟨5, arg⟩) = true) (harg : arg < 2 ^ 26) :
    issueSlot s g (syncWord 5 arg) = slotDone s g (syncOnly ⟨5, arg⟩) fun c =>
      if (tget c.lcs (bits arg 25 24)).getD 0 = 0 then c
      else { c with lcs := tset c.lcs (bits arg 25 24) ((tget c.lcs (bits arg 25 24)).getD 0 - 1),
                    seq := { c.seq with pc := bits arg 23 12 } } := by
  rw [issueSlot_sync h (by decide) (by decide) (by decide) harg, slotDone, slotAfter, modCell_modCell]
  have halive := alive_iff.mp (alive_issued (canIssue_of_clear h) (syncOnly ⟨5, arg⟩))
  have hcell : endIssue (syncOnly ⟨5, arg⟩) true (cellOf (issued s g (syncOnly ⟨5, arg⟩)) g) = _ := endIssue_of_alive halive _ _
  show modCell (issued s g (syncOnly ⟨5, arg⟩)) g _ = _
  unfold modCell
  rw [hcell]
  congr 1
  generalize cellOf (issued s g (syncOnly ⟨5, arg⟩)) g = c
  by_cases hzero : (tget c.lcs (bits arg 25 24)).getD 0 = 0
  · simp [advance, syncOnly, hzero, SyncSlot.ctr, advanceGens, Cell.after]
  · simp [advance, syncOnly, hzero, SyncSlot.ctr, SyncSlot.target, loopStep, advanceGens, Cell.after]

/-- Merging a cell's amax entries changes the cell by its entries alone. -/
theorem cellOf_amaxFlush (s : State) (g : Nat) : cellOf (amaxFlush s g) g = { cellOf s g with amax := [] } := by
  have hfold : ∀ (l : List Amax) (t : State), cellOf (l.foldl (fun t e => mergeEntry t g e) t) g = cellOf t g := by
    intro l
    induction l with
    | nil => exact fun _ => rfl
    | cons e l ih =>
      intro t
      rw [List.foldl_cons, ih]
      unfold mergeEntry
      split <;> rfl
  unfold amaxFlush
  rw [cellOf_modCell_self, hfold]

/-- The fields of the operands of SETCNT, LOOP and SEM_SIGNAL (Table 2.3). -/
theorem bits_setcnt {ctr cnt : Nat} (hctr : ctr < 4) (hcnt : cnt < 2 ^ 20) :
    bits (ctr * 2 ^ 24 + cnt) 25 24 = ctr ∧ bits (ctr * 2 ^ 24 + cnt) 19 0 = cnt := by
  simp only [bits]
  omega

theorem bits_loop {ctr target : Nat} (hctr : ctr < 4) (htarget : target < 4096) :
    bits (ctr * 2 ^ 24 + target * 2 ^ 12) 25 24 = ctr ∧ bits (ctr * 2 ^ 24 + target * 2 ^ 12) 23 12 = target := by
  simp only [bits]
  omega

theorem bits_signal {sem n : Nat} (hsem : sem < 256) (hn : n < 256) :
    bits (sem * 2 ^ 18 + n * 2 ^ 10) 25 18 = sem ∧ bits (sem * 2 ^ 18 + n * 2 ^ 10) 17 10 = n := by
  simp only [bits]
  omega

/-- Settles O19: each operation's effect in `syncExec`, LOOP's at the end of its issue. -/
theorem syncOps : Obligations.SyncOps := by
  unfold Obligations.SyncOps
  intro s p g c
  refine ⟨fun h => ?nop, fun ctr cnt hctr hcnt h => ?setcnt, fun ctr target hctr htarget h => ?loop,
    fun sem cnt hsem hcnt hcnt' h => ?signal, fun h => ?flush, fun h => ?done⟩
  case nop =>
    have hdone : slotDone s g (syncOnly ⟨0, 0⟩) id = slotAfter (issued s g (syncOnly ⟨0, 0⟩)) g :=
      congrArg (slotAfter · g) (setCell_self_issued s g (syncOnly ⟨0, 0⟩))
    rw [hdone]
    exact congrArg _ (issueSlot_sync_slotAfter h (by decide) (by decide) (by decide) (by decide) (by decide) rfl
      (alive_issued (canIssue_of_clear h) _))
  case setcnt =>
    obtain ⟨hfctr, hfcnt⟩ := bits_setcnt hctr hcnt
    have hexec : exec (.setcnt g ctr cnt) s = .next (issueSlot s g (syncWord 4 (ctr % 4 * 2 ^ 24 + cnt % 2 ^ 20))) := rfl
    rw [hexec, Nat.mod_eq_of_lt hctr, Nat.mod_eq_of_lt hcnt]
    refine congrArg _ (issueSlot_sync_slotAfter h (by decide) (by decide) (by decide) (by decide) (by omega) ?_ ?_)
    · simp only [syncExec, SyncSlot.ctr, SyncSlot.cnt, hfctr, hfcnt]
    · have halive := alive_issued (canIssue_of_clear h) (syncOnly ⟨4, ctr * 2 ^ 24 + cnt⟩)
      rw [alive_iff] at halive ⊢
      rwa [cellOf_modCell_self]
  case loop =>
    obtain ⟨hfctr, hftarget⟩ := bits_loop hctr htarget
    have hexec : exec (.loop g ctr target) s =
      .next (issueSlot s g (syncWord 5 (ctr % 4 * 2 ^ 24 + target % 4096 * 2 ^ 12))) := rfl
    rw [hexec, Nat.mod_eq_of_lt hctr, Nat.mod_eq_of_lt htarget, issueSlot_loop h (by omega), hfctr, hftarget]
  case signal =>
    obtain ⟨hfsem, hfcnt⟩ := bits_signal (n := cnt - 1) hsem (by omega)
    have hexec : exec (.semSignal g sem cnt) s =
      .next (issueSlot s g (syncWord 2 (sem % 256 * 2 ^ 18 + (cnt - 1) % 256 * 2 ^ 10))) := rfl
    rw [hexec, Nat.mod_eq_of_lt hsem, Nat.mod_eq_of_lt (show cnt - 1 < 256 by omega)]
    refine congrArg _ (issueSlot_sync_slotAfter h (by decide) (by decide) (by decide) (by decide) (by omega) ?_ ?_)
    · simp only [syncExec, SyncSlot.sem, SyncSlot.count, hfsem, hfcnt, Nat.sub_add_cancel hcnt, cellOf_issued]
      rfl
    · exact alive_issued (canIssue_of_clear h) _
  case flush =>
    refine congrArg _ (issueSlot_sync_slotAfter (t := amaxFlush (issued s g (syncOnly ⟨6, 0⟩)) g) h (by decide) (by decide)
      (by decide) (by decide) (by decide) rfl ?_)
    have halive := alive_issued (canIssue_of_clear h) (syncOnly ⟨6, 0⟩)
    rw [alive_iff] at halive ⊢
    rwa [cellOf_amaxFlush]
  case done =>
    refine congrArg _ (issueSlot_sync_slotAfter (t := modSeq (amaxFlush (issued s g (syncOnly ⟨7, 0⟩)) g) g fun q =>
      { q with status := .done, doneInput := true }) h (by decide) (by decide) (by decide) (by decide) (by decide) rfl ?_)
    rw [alive_iff, modSeq, cellOf_modCell_self]
    exact CellStatus.noConfusion

/-! ## Matrix operations -/

/-- A matrix operation whose format and operand stream pass their checks: its effect, then the end of its issue. -/
theorem issueSlot_mat {s t : State} {p g : Nat} {m : MatSlot} (h : slotClear s p g (matOnly m) = true)
    (hfits : m.Fits) (hinc : m.rowinc = false) (hlegal : matIllegal (cellOf s g) m = false)
    (hfault : matFault (cellOf s g) m = none)
    (ht : matExec (streamStart s g (matOnly m)) p g m (cellOf s g).seq.rep = t) (halive : alive t g = true) :
    issueSlot s g (matWord m.op m.fmt m.bank m.row m.rs) = slotAfter t g := by
  obtain ⟨op, fmt, bank, row, rowinc, rs⟩ := m
  subst hinc
  rw [issueSlot_of_ready (slotClear_iff.mp h).1 (ofWord_matWord hfits) rfl ((bundleIllegal_matOnly _ _).trans hlegal) hfault
    (by simp [matOnly]) (by simp [matOnly]), issueOnce_of_clear h rfl rfl rfl ht halive, syncExec_none _ _ _ rfl]
  exact modCell_endIssue halive rfl (by simp [matOnly])

/-- A change of the issuing cell that leaves its status leaves it running. -/
theorem alive_modCell_issued {s : State} {g : Nat} (h : canIssue s g = true) (b : Bundle) {f : Cell → Cell}
    (hf : ∀ c, (f c).seq.status = c.seq.status) : alive (modCell (issued s g b) g f) g = true := by
  refine alive_of_running ?_
  rw [cellOf_modCell_self, hf, cellOf_issued]
  exact running_of_canIssue h

/-- MLOAD and MSWAP name no format that the active buffer could refuse. -/
theorem matIllegal_of_load (c : Cell) {op fmt bank row rs : Nat} (hop : op < 3) (hfmt : fmt < 9) :
    matIllegal c ⟨op, fmt, bank, row, false, rs⟩ = false := by
  have h3 : op ≠ 3 := by omega
  have h4 : op ≠ 4 := by omega
  simp [matIllegal, h3, h4]
  omega

/-- The weight load complete: its rows fill the inactive buffer (R46, R110). -/
theorem loadWeights_of_landed {s : State} {g fmt rs : Nat} {x : InStream} {t : TileDesc}
    (hload : (cellOf s g).wload = some (fmt, rs)) (hx : tget (cellOf s g).ins rs = some x) (ht : x.tile = some t)
    (hrows : t.trow ≤ x.fifo.length) (hclean : (x.fifo.take t.trow).any (·.poison) = false) :
    loadWeights s g =
      let b : WBuf := { fmt := some fmt, vr := t.vr, vc := t.vc, rows := (x.fifo.take t.trow).map (·.bytes) }
      let y := { x with fifo := x.fifo.drop t.trow, consumed := x.consumed + t.trow }
      setCell s g { cellOf s g with wload := none, ins := tset (cellOf s g).ins rs y,
                                    wbuf0 := if (cellOf s g).wactive then b else (cellOf s g).wbuf0,
                                    wbuf1 := if (cellOf s g).wactive then (cellOf s g).wbuf1 else b } := by
  have hfind : (x.fifo.take t.trow).find? (·.poison) = none := by
    simpa [List.find?_eq_none] using hclean
  simp only [loadWeights, hload, hx, ht, Nat.not_lt.mpr hrows, if_false, hfind]

/-- MLOAD where the cell can issue it: the weight port is its stream's (R46). -/
theorem issueSlot_mload {s : State} {p g fmt rs : Nat} (hfmt : fmt < 9) (hrs : rs < 4)
    (h : slotClear s p g (matOnly ⟨1, fmt, 0, 0, false, rs⟩) = true)
    (hfault : matFault (cellOf s g) ⟨1, fmt, 0, 0, false, rs⟩ = none) :
    issueSlot s g (matWord 1 fmt 0 0 rs) =
      slotDone s g (matOnly ⟨1, fmt, 0, 0, false, rs⟩) fun c => { c with wload := some (fmt, rs) } := by
  have hfits : (⟨1, fmt, 0, 0, false, rs⟩ : MatSlot).Fits := by
    simp only [MatSlot.Fits]
    omega
  refine issueSlot_mat (m := ⟨1, fmt, 0, 0, false, rs⟩) h hfits rfl (matIllegal_of_load _ (by decide) hfmt) hfault ?_
    (alive_modCell_issued (canIssue_of_clear h) _ fun _ => rfl)
  rw [streamStart_of_ne (by simp [matOnly])]
  simp only [matExec, modCell]

/-- MSWAP where the cell can issue it: the other buffer is active (R46). -/
theorem issueSlot_mswap {s : State} {p g : Nat} (h : slotClear s p g (matOnly ⟨2, 0, 0, 0, false, 0⟩) = true) :
    issueSlot s g (matWord 2 0 0 0 0) =
      slotDone s g (matOnly ⟨2, 0, 0, 0, false, 0⟩) fun c => { c with wactive := !c.wactive } := by
  have hfits : (⟨2, 0, 0, 0, false, 0⟩ : MatSlot).Fits := by
    simp only [MatSlot.Fits]
    omega
  have hfault : matFault (cellOf s g) ⟨2, 0, 0, 0, false, 0⟩ = none := by simp [matFault]
  refine issueSlot_mat (m := ⟨2, 0, 0, 0, false, 0⟩) h hfits rfl (matIllegal_of_load _ (by decide) (by decide)) hfault ?_
    (alive_modCell_issued (canIssue_of_clear h) _ fun _ => rfl)
  rw [streamStart_of_ne (by simp [matOnly])]
  simp only [matExec, modCell]

/-- Settles O21, one rule above per row. -/
theorem weightLoad : Obligations.WeightLoad := by
  unfold Obligations.WeightLoad
  intro s p g c
  refine ⟨fun fmt rs hfmt hrs h hfault => ?load,
    fun fmt rs x t hload hx ht hrows hclean => congrArg _ (loadWeights_of_landed hload hx ht hrows hclean),
    fun h => congrArg _ (issueSlot_mswap h)⟩
  case load =>
    have hexec : exec (.mload g fmt rs) s = .next (issueSlot s g (matWord 1 (fmt % 16) 0 0 (rs % 4))) := rfl
    rw [hexec, Nat.mod_eq_of_lt hrs, Nat.mod_eq_of_lt (show fmt < 16 by omega), issueSlot_mload hfmt hrs h hfault]

/-- MMAC and MMACZ, by opcode. -/
def IsMac (op : Nat) : Prop := op = 3 ∨ op = 4

/-- What an accumulator row holds that a multiply adds to: nothing where the multiply is MMACZ (R47). -/
def oldRow (c : Cell) (op base : Nat) : List (Option (BitVec 32)) :=
  (List.range 64).map fun n => if op = 4 then none else some ((tget c.acc (base + n)).getD 0)

/-- A cell whose multiply of a unit has written its accumulator row and consumed the unit (R47, R110). -/
def macCell (fmt base rs : Nat) (u : Unit_) (rest : List Unit_) (x : InStream) (t : TileDesc) (w : WBuf)
    (old : List (Option (BitVec 32))) (c : Cell) : Cell :=
  { c with
    acc := (List.range 64).foldl (fun a n => tset a (base + n)
      ((macRow fmt u.bytes (if u.index < t.vr then t.vc else 0) w old).getD n 0)) c.acc
    ins := tset c.ins rs { x with fifo := rest, consumed := x.consumed + 1 } }

/-- A multiply of a unit that has landed: the cell after it, and its row counted (R118). -/
theorem matExec_mac {s : State} {p g op fmt bank row rs : Nat} {x : InStream} {t : TileDesc} {u : Unit_} {rest : List Unit_}
    (hop : IsMac op) (hx : tget (cellOf s g).ins rs = some x) (ht : x.tile = some t) (hu : x.fifo = u :: rest)
    (hclean : u.poison = false) (rep : Nat) :
    matExec s p g ⟨op, fmt, bank, row, false, rs⟩ rep =
      odInc (modCell s g (macCell fmt (bank * 4096 + row * 64) rs u rest x t (activeBuf (cellOf s g))
        (oldRow (cellOf s g) op (bank * 4096 + row * 64))))
        (if u.index < t.vr then Ad.partValidRows p else Ad.partPadRows p) := by
  rcases hop with rfl | rfl <;>
    simp only [matExec, hx, ht, hu, hclean, macRowOf, Bool.false_eq_true, if_false, modCell, macCell, oldRow]

/-- A multiply pairs with the active buffer where it holds no format that does not. -/
theorem matIllegal_of_paired {c : Cell} {op fmt bank row rs : Nat} (hop : IsMac op) (hfmt : fmt < 9)
    (hpair : ((activeBuf c).fmt.any fun w => !paired fmt w) = false) : matIllegal c ⟨op, fmt, bank, row, false, rs⟩ = false := by
  have hfmt8 : ¬ 8 < fmt := by omega
  rcases hop with rfl | rfl <;> simp [matIllegal, hfmt8, hpair]

/-- A multiply where the cell can issue it. -/
theorem issueSlot_mac {s : State} {p g op fmt bank row rs : Nat} {x : InStream} {t : TileDesc} {u : Unit_} {rest : List Unit_}
    (hop : IsMac op) (hfmt : fmt < 9) (hbank : bank < 4) (hrow : row < 64) (hrs : rs < 4)
    (hx : tget (cellOf s g).ins rs = some x) (ht : x.tile = some t) (hu : x.fifo = u :: rest) (hclean : u.poison = false)
    (hpair : ((activeBuf (cellOf s g)).fmt.any fun w => !paired fmt w) = false)
    (h : slotClear s p g (matOnly ⟨op, fmt, bank, row, false, rs⟩) = true)
    (hfault : matFault (cellOf s g) ⟨op, fmt, bank, row, false, rs⟩ = none) :
    issueSlot s g (matWord op fmt bank row rs) = slotAfter (odInc
      (modCell (anem (issued s g (matOnly ⟨op, fmt, bank, row, false, rs⟩)) (g / 80) 3 1) g
        (macCell fmt (bank * 4096 + row * 64) rs u rest x t (activeBuf (cellOf s g))
          (oldRow (cellOf s g) op (bank * 4096 + row * 64))))
      (if u.index < t.vr then Ad.partValidRows p else Ad.partPadRows p)) g := by
  have hfits : (⟨op, fmt, bank, row, false, rs⟩ : MatSlot).Fits := by
    simp only [MatSlot.Fits, IsMac] at hop ⊢
    omega
  have hstart : streamStart s g (matOnly ⟨op, fmt, bank, row, false, rs⟩) =
      anem (issued s g (matOnly ⟨op, fmt, bank, row, false, rs⟩)) (g / 80) 3 1 := if_pos hop
  have hcell := cellOf_streamStart s g (matOnly ⟨op, fmt, bank, row, false, rs⟩)
  have hmac := matExec_mac (s := streamStart s g (matOnly ⟨op, fmt, bank, row, false, rs⟩)) (p := p) (fmt := fmt) (bank := bank)
    (row := row) hop (by rw [hcell]; exact hx) ht hu hclean (cellOf s g).seq.rep
  rw [hcell, hstart] at hmac
  refine issueSlot_mat (m := ⟨op, fmt, bank, row, false, rs⟩) h hfits rfl (matIllegal_of_paired hop hfmt hpair) hfault
    (hstart ▸ hmac) (alive_of_running ?_)
  rw [hstart] at hcell
  rw [cellOf_odInc, cellOf_modCell_self, hcell]
  exact running_of_canIssue (canIssue_of_clear h)

/-- Settles O22: the two multiplies differ in what the accumulator row held. -/
theorem matrixMultiply : Obligations.MatrixMultiply := by
  unfold Obligations.MatrixMultiply
  intro s p g fmt bank row rs x t u rest hfmt hbank hrow hrs c hx ht hu hclean hpair base ends
  have hends : ∀ k op, IsMac op → exec k s = .next (issueSlot s g (matWord op (fmt % 16) (bank % 4) (row % 64) (rs % 4))) →
      ends k op (oldRow c op base) := by
    intro k op hop hk h hfault
    have hfmt16 : fmt < 16 := by omega
    simp only [Nat.mod_eq_of_lt, hfmt16, hbank, hrow, hrs] at hk
    rw [hk, issueSlot_mac hop hfmt hbank hrow hrs hx ht hu hclean hpair h hfault]
    rfl
  exact ⟨hends (.mmac g fmt bank row rs) 3 (.inl rfl) rfl, hends (.mmacz g fmt bank row rs) 4 (.inr rfl) rfl⟩

end Sys2Proof.Machine

/-! # Proofs: matrix operands -/

namespace Sys2Proof.Machine

theorem testBit_leNat (bs : List Byte) (k : Nat) : (leNat bs).testBit k = (bs.getD (k / 8) 0).getLsbD (k % 8) := by
  induction bs generalizing k with
  | nil => simp [leNat]
  | cons b bs ih =>
    have h : leNat (b :: bs) = 2 ^ 8 * leNat bs + b.toNat := by rw [leNat]; omega
    rw [h, Nat.testBit_two_pow_mul_add _ b.isLt]
    split
    · next hk =>
      rw [Nat.div_eq_of_lt hk, Nat.mod_eq_of_lt hk]
      rfl
    · next hk =>
      obtain ⟨j, rfl⟩ : ∃ j, k = j + 8 := ⟨k - 8, by omega⟩
      rw [Nat.add_sub_cancel, ih, Nat.add_div_right _ (by decide), Nat.add_mod_right]
      rfl

theorem testBit_unpackBits (w v i j : Nat) : (unpackBits w v i).testBit j = (decide (j < w) && v.testBit (w * i + j)) := by
  rw [unpackBits, Nat.testBit_mod_two_pow, Nat.testBit_div_two_pow, Nat.add_comm]

theorem macSum_nan {ts : List Val} (h : Val.nan ∈ ts ∨ Val.inf true ∈ ts ∧ Val.inf false ∈ ts) : macSum ts = 0x7FC00000 := by
  have hbad : (ts.contains .nan || (ts.contains (.inf true) && ts.contains (.inf false))) = true := by
    simpa using h
  rw [macSum, if_pos hbad]
  rfl

theorem macSum_inf {ts : List Val} {neg : Bool} (hnan : Val.nan ∉ ts) (hin : Val.inf neg ∈ ts) (hother : Val.inf (!neg) ∉ ts) :
    macSum ts = if neg then 0xFF800000 else 0x7F800000 := by
  cases neg
  · simp only [Bool.not_false] at hother
    simp [macSum, hnan, hin, hother]
    rfl
  · simp only [Bool.not_true] at hother
    simp [macSum, hnan, hin, hother]
    rfl

theorem macTerm_of_scale {fa fw ra xa rw xw : Nat} (h : xa = 255 ∨ xw = 255) : macTerm fa fw ra xa rw xw = .nan := by
  have hs : (xa = 255 || xw = 255) = true := by simpa using h
  rw [macTerm, if_pos hs]

theorem macTerm_of_mul_nan {fa fw ra xa rw xw : Nat} (h : (elemVal fa ra).mul (elemVal fw rw) = .nan) :
    macTerm fa fw ra xa rw xw = .nan := by
  simp [macTerm, h, Val.shift, Val.unsignedZero]

/-- The terms of a column of the weight tile: the products of the input row's elements with the column's (R47, R110). -/
def columnTerms (fmt valid fw n : Nat) (row : List Byte) (b : WBuf) : List Val :=
  (List.range (min (min (rowK fmt) valid) b.vr)).map fun k =>
    let a := rowElem fmt (rowK fmt) row (leNat row) k
    let w := rowElem fw 64 (b.rows.getD k []) (leNat (b.rows.getD k [])) n
    macTerm fmt fw a.1 a.2 w.1 w.2

/-- A weight row with its number, an absent one empty. -/
theorem getD_map_leNat (rows : List (List Byte)) (k : Nat) :
    (rows.map fun r => (r, leNat r)).getD k ([], 0) = (rows.getD k [], leNat (rows.getD k [])) := by
  simp only [List.getD_eq_getElem?_getD, List.getElem?_map]
  cases rows[k]? <;> rfl

/-- Column `n` of the accumulator row is the sum of its terms, with the value it held where it starts from one. -/
theorem getD_macRow {fmt valid fw n : Nat} {row : List Byte} {b : WBuf} (old : List (Option (BitVec 32))) (hfw : b.fmt = some fw)
    (hn : n < 64) (hvc : n < b.vc) (hk : 0 < min (min (rowK fmt) valid) b.vr) :
    (macRow fmt row valid b old).getD n 0 =
      BitVec.ofNat 32 (macSum (match old.getD n none with
        | none => columnTerms fmt valid fw n row b
        | some o => decodeVal fp32 o.toNat :: columnTerms fmt valid fw n row b)) := by
  have hterms : columnTerms fmt valid fw n row b ≠ [] := by
    simp [columnTerms]
    omega
  simp only [macRow, hfw, Option.getD_some, Option.isNone_some, Bool.false_eq_true, if_false, List.map_map]
  rw [List.getD_eq_getElem _ _ (by simpa using hn), List.getElem_map, List.getElem_range, if_pos hvc]
  have hprods : (List.range (min (min (rowK fmt) valid) b.vr)).map ((fun x : (Nat × Nat) × (List Byte × Nat) =>
      macTerm fmt fw x.1.1 x.1.2 (rowElem fw 64 x.2.1 x.2.2 n).1 (rowElem fw 64 x.2.1 x.2.2 n).2) ∘ fun i =>
        (rowElem fmt (rowK fmt) row (leNat row) i, (b.rows.map fun r => (r, leNat r)).getD i ([], 0))) =
      columnTerms fmt valid fw n row b := by
    refine List.map_congr_left fun k _ => ?_
    simp only [Function.comp, getD_map_leNat]
  rw [hprods]
  cases old.getD n none with
  | none => rfl
  | some o =>
    cases hc : columnTerms fmt valid fw n row b with
    | nil => exact absurd hc hterms
    | cons a l => rfl

/-- Settles O23: elements by the bits of their rows, sums by the kinds of their terms, columns by their terms. -/
theorem matrixOperands : Obligations.MatrixOperands := by
  unfold Obligations.MatrixOperands
  refine ⟨fun fmt n i row h3 h7 hn hi => ?elem, fun ts h => macSum_nan h, fun ts neg hnan hin hother => macSum_inf hnan hin hother,
    fun fa fw ra xa rw xw h => macTerm_of_scale h, fun fa fw ra xa rw xw n m e h => macTerm_of_mul_nan ?mul,
    fun fmt valid fw n row b old hfw hn hvc hk => getD_macRow old hfw hn hvc hk⟩
  case elem =>
    have hw : elemBits fmt = if fmt = 7 then 4 else if fmt = 5 ∨ fmt = 6 then 6 else 8 := by
      interval_cases fmt <;> rfl
    have hmx : isMx fmt = true := by simp [isMx, h3, h7]
    intro w e
    refine ⟨fun j => ?_, ?_⟩
    · have he : e.1 = unpackBits w (leNat row) i := congrArg (unpackBits · (leNat row) i) hw
      rw [he, testBit_unpackBits, testBit_leNat]
      by_cases hj : j < w <;> simp [hj]
    · simp only [e, rowElem, hmx, if_true, hw]
      rfl
  case mul =>
    obtain ⟨ha, hb⟩ | ⟨ha, hb⟩ := h <;> simp [ha, hb, Val.mul]

end Sys2Proof.Machine

/-! # Proofs: conversions -/

namespace Sys2Proof.Machine

/-! ## Vector operations other than VST -/

/-- A vector operation other than VST, where the cell can issue it, does to its cell what the vector slot does. -/
theorem issueSlot_vecBefore {s : State} {p g : Nat} {v : VecSlot} {f : Cell → Cell}
    (h : slotClear s p g (vecOnly v) = true) (hfits : v.Fits) (hlegal : vecIllegal v = false) (hstore : v.op ≠ 0x41)
    (hx : vecBefore (issued s g (vecOnly v)) p g v (drawsOf (cellOf s g)) [] = modCell (issued s g (vecOnly v)) g f)
    (hstatus : ∀ c, (f c).seq.status = c.seq.status) (houts : ∀ c, (f c).outs = c.outs) :
    issueSlot s g (vecWord v) = slotDone s g (vecOnly v) f := by
  have hissue := canIssue_of_clear h
  obtain ⟨hready, hquiet⟩ := slotClear_iff.mp h
  have halive := alive_modCell_issued hissue (vecOnly v) hstatus
  have hdrain : ∀ d, drainAll (modCell (issued s g (vecOnly v)) g f) g d = modCell (issued s g (vecOnly v)) g f := by
    refine drainAll_quiet ?_
    rw [cellOf_modCell_self, quietOuts_congr (houts _), cellOf_issued]
    exact hquiet
  have hstart : streamExec (issued s g (vecOnly v)) g (vecOnly v) = issued s g (vecOnly v) := streamExec_none _ _ rfl rfl
  have hone : issueOnce s p g (vecOnly v) true [] =
    modCell (modCell (issued s g (vecOnly v)) g f) g (endIssue (vecOnly v) true) := by
    have h0 : anem (modCell s g fun c => noteIssue c (vecOnly v)) (g / 80) 1 1 = issued s g (vecOnly v) := rfl
    have hmac : ¬((0 : Nat) = 3 ∨ (0 : Nat) = 4) := by omega
    unfold issueOnce
    simp only [vecOnly_mat, vecOnly_vec, vecOnly_sync, hmac, if_false, h0, hstart, alive_issued hissue, if_true, hstore,
      decide_false, Bool.false_eq_true, hx,
      vstGrant_none _ _ _ hstore, hdrain, halive, matExec_none _ _ _ _, vecStore_none _ _ _ hstore, syncExec_none _ _ _]
    rfl
  rw [issueSlot_of_ready hready (ofWord_vecWord hfits) rfl ((bundleIllegal_vecOnly _ _).trans hlegal) (by simp [matFault])
    (by simp) (by simp), hone]
  exact modCell_endIssue halive rfl (by simp)

/-! ## Conversions (R54 to R57, R66) -/

/-- A cell's amax entries with one for a slot, made where there is none. -/
def amaxWith (c : Cell) (slot : Nat) : List Amax :=
  if c.amax.any (fun e => e.slot = slot) then c.amax else c.amax ++ [{ slot := slot }]

/-- A fold where the slot has an entry or the unit has room for one evicts nothing. -/
theorem amaxFold_of_room {s : State} {g : Nat} {e : Amax}
    (h : (∃ x ∈ (cellOf s g).amax, x.slot = e.slot) ∨ (cellOf s g).amax.length < 64) (stall : Bool) :
    amaxFold s g e stall = modCell s g fun c =>
      { c with amax := (amaxWith c e.slot).map fun x => if x.slot = e.slot then x.fold e else x } := by
  by_cases hany : (cellOf s g).amax.any (fun x => x.slot = e.slot) = true
  · simp only [amaxFold, amaxRoom, hany, if_true, Bool.false_eq_true, if_false, modCell, amaxWith]
  · have hroom : (cellOf s g).amax.length < 64 := h.resolve_left fun ⟨x, hx, hslot⟩ =>
      hany (List.any_eq_true.mpr ⟨x, hx, decide_eq_true hslot⟩)
    simp only [amaxFold, amaxRoom, hany, if_false, hroom, if_true, Bool.false_eq_true, modCell, cellOf_setCell_self,
      setCell_setCell, amaxWith]

/-- What a conversion writes and folds (R57). -/
def convert (s : State) (p : Nat) (c : Cell) (v : VecSlot) : List Lane × Amax :=
  let src := cvtSource v.dt (maskReg c v.mask) (v.rnd == 1 && srAllowed s p) (drawsOf c) (reg c v.sa)
  if v.op = 0x30 then vcvt (v.imm % 16) v.slot (scaleOf s p v.slot).1 (scaleOf s p v.slot).2 src
  else vcvtmx (v.imm % 16) v.slot (scaleOf s p v.slot).1 src

/-- VCVT and VCVTMX, by opcode. -/
def IsConvert (op : Nat) : Prop := op = 0x30 ∨ op = 0x31

theorem slot_convert (s : State) (p : Nat) (c : Cell) (v : VecSlot) : (convert s p c v).2.slot = v.slot := by
  unfold convert
  dsimp only
  split <;> rfl

/-- The conversion of the cell that issues rests on what the part held before. -/
theorem convert_issued (s : State) (p g : Nat) (b : Bundle) (v : VecSlot) :
    convert (issued s g b) p (noteIssue (cellOf s g) b) v = convert s p (cellOf s g) v := by
  simp only [convert, scaleOf, srAllowed, latched, partOf_issued]
  rfl

theorem vecExec_convert (s : State) (p g : Nat) {v : VecSlot} (h : IsConvert v.op) :
    vecExec s p g v (drawsOf (cellOf s g)) =
      (setReg (cellOf s g) v.dst (convert s p (cellOf s g) v).1, some (convert s p (cellOf s g) v).2) := by
  obtain ⟨op, dst, sa, sb, sc, mask, dt, rnd, slot, imm⟩ := v
  rcases h with rfl | rfl <;> rfl

/-- A conversion's register and amax entry (R57, R66). -/
def convertCell (c : Cell) (dst slot : Nat) (r : List Lane × Amax) (l : List Amax) : Cell :=
  { setReg c dst r.1 with amax := l.map fun e => if e.slot = slot then e.fold r.2 else e }

/-- A conversion before the write streams drain, where its slot has an amax entry or the unit has room. -/
theorem vecBefore_convert {s : State} {p g : Nat} {v : VecSlot} (hop : IsConvert v.op)
    (hroom : (∃ x ∈ (cellOf s g).amax, x.slot = v.slot) ∨ (cellOf s g).amax.length < 64)
    (hlost : (cellOf s g).scratch.losers = []) :
    vecBefore s p g v (drawsOf (cellOf s g)) [] =
      setCell s g (convertCell (cellOf s g) v.dst v.slot (convert s p (cellOf s g) v) (amaxWith (cellOf s g) v.slot)) := by
  have hops : v.op ≠ 0 ∧ v.op ≠ 0x40 ∧ v.op ≠ 0x41 := by
    rcases hop with hop | hop <;> rw [hop] <;> decide
  obtain ⟨h0, h40, h41⟩ := hops
  have hslot := slot_convert s p (cellOf s g) v
  have hfold : amaxFold (setCell s g (setReg (cellOf s g) v.dst (convert s p (cellOf s g) v).1)) g
    (convert s p (cellOf s g) v).2 true =
      setCell s g (convertCell (cellOf s g) v.dst v.slot (convert s p (cellOf s g) v) (amaxWith (cellOf s g) v.slot)) := by
    rw [amaxFold_of_room (by rwa [cellOf_setCell_self, hslot]), hslot, modCell, cellOf_setCell_self, setCell_setCell]
    rfl
  simp only [vecBefore, h0, h40, h41, if_false, vecExec_convert s p g hop, hfold, cellOf_setCell_self, true_and]
  exact if_pos hlost

/-- The targets of the two conversions (Table 2.10). -/
theorem vecIllegal_convert {op dst sa mask dt rnd slot target : Nat} (hdt : dt < 3) (hrnd : rnd < 2) (htarget : target < 16)
    (h : op = 0x30 ∧ target ∈ [0, 1, 2, 8] ∨ op = 0x31 ∧ 3 ≤ target ∧ target ≤ 7) :
    vecIllegal ⟨op, dst, sa, 0, 0, mask, dt, rnd, slot, target⟩ = false := by
  have hdt2 : ¬ 2 < dt := by omega
  have hrnd1 : ¬ 1 < rnd := by omega
  obtain ⟨rfl, hin⟩ | ⟨rfl, h3, h7⟩ := h
  · simp only [List.mem_cons, List.not_mem_nil, or_false] at hin
    simp [vecIllegal, vecOps, fpVecOp, hdt2, hrnd1, Nat.mod_eq_of_lt htarget, hin]
  · have hin : target = 3 ∨ target = 4 ∨ target = 5 ∨ target = 6 ∨ target = 7 := by omega
    simp [vecIllegal, vecOps, fpVecOp, hdt2, hrnd1, Nat.mod_eq_of_lt htarget, hin]

/-- A conversion where the cell can issue it. -/
theorem issueSlot_convert {s : State} {p g : Nat} {v : VecSlot} (hop : IsConvert v.op) (hfits : v.Fits)
    (hlegal : vecIllegal v = false)
    (hroom : (∃ x ∈ (cellOf s g).amax, x.slot = v.slot) ∨ (cellOf s g).amax.length < 64)
    (h : slotClear s p g (vecOnly v) = true) :
    issueSlot s g (vecWord v) = slotDone s g (vecOnly v) fun c =>
      convertCell c v.dst v.slot (convert s p (cellOf s g) v) (amaxWith (cellOf s g) v.slot) := by
  obtain ⟨-, -, hlost, -⟩ := slotReady_iff.mp (slotClear_iff.mp h).1
  have hcell := cellOf_issued s g (vecOnly v)
  have hbefore := vecBefore_convert (s := issued s g (vecOnly v)) (p := p) (g := g) hop (by rwa [hcell]) (by rwa [hcell])
  rw [hcell, convert_issued] at hbefore
  have hstore : v.op ≠ 0x41 := by rcases hop with hop | hop <;> rw [hop] <;> decide
  refine issueSlot_vecBefore h hfits hlegal hstore (hbefore.trans ?_) (fun _ => rfl) fun _ => rfl
  rw [modCell, hcell]
  rfl

/-- Settles O16: the two conversions by their targets. -/
theorem conversions : Obligations.Conversions := by
  unfold Obligations.Conversions
  intro s p g dst sa mask dt rnd slot target hdst hsa hmask hdt hrnd hslot htarget c hroom l src ends
  have hends : ∀ x op, op = 0x30 ∧ target ∈ [0, 1, 2, 8] ∨ op = 0x31 ∧ 3 ≤ target ∧ target ≤ 7 →
      exec x s = .next (issueSlot s g (vecWord
        ⟨op, dst % 64, sa % 64, 0, 0, mask % 8, dt % 8, rnd % 4, slot % 4096, target % 16⟩)) →
      ends x op (convert s p c ⟨op, dst, sa, 0, 0, mask, dt, rnd, slot, target⟩) := by
    intro x op htargets hx h
    have hop : IsConvert op := htargets.imp And.left And.left
    have hfits : (⟨op, dst, sa, 0, 0, mask, dt, rnd, slot, target⟩ : VecSlot).Fits := by
      simp only [VecSlot.Fits, IsConvert] at hop ⊢
      omega
    have hdt8 : dt < 8 := by omega
    have hrnd4 : rnd < 4 := by omega
    simp only [Nat.mod_eq_of_lt, hdst, hsa, hmask, hdt8, hrnd4, hslot, htarget] at hx
    rw [hx, issueSlot_convert hop hfits (vecIllegal_convert hdt hrnd htarget htargets) hroom h]
    rfl
  refine ⟨fun hin => ?_, fun h3 h7 => ?_⟩
  · have h := hends (.vcvt g dst sa mask dt rnd slot target) 0x30 (.inl ⟨rfl, hin⟩) rfl
    simpa only [convert, if_true, Nat.mod_eq_of_lt htarget] using h
  · have h := hends (.vcvtmx g dst sa mask dt rnd slot target) 0x31 (.inr ⟨rfl, h3, h7⟩) rfl
    simpa [convert, Nat.mod_eq_of_lt htarget] using h

end Sys2Proof.Machine

/-! # Proofs: vector loads -/

namespace Sys2Proof.Machine

/-! ## Arbitration of requests of distinct banks (R157) -/

/-- The bank of a request. -/
def bankOf (r : BankReq) : Nat := r.addr / 64 % 16

/-- Requests of distinct banks, at none of which a port is taken, are all granted. -/
theorem arbitrate_of_distinct (rs : List BankReq) (taken : List (Nat × Nat)) (hfree : ∀ r ∈ rs, ∀ x ∈ taken, x.1 ≠ bankOf r)
    (hrs : rs.Pairwise fun a b => bankOf a ≠ bankOf b) : arbitrate taken rs = (rs, []) := by
  induction rs generalizing taken with
  | nil => rfl
  | cons r rs ih =>
    obtain ⟨hr, hrs⟩ := List.pairwise_cons.mp hrs
    have hports : (taken.filter fun x => x.1 == r.addr / 64 % 16 && (decide (x.2 < 4) || decide (4 ≤ r.master))) = [] := by
      refine List.filter_eq_nil_iff.mpr fun x hx => ?_
      have hne : x.1 ≠ r.addr / 64 % 16 := hfree r List.mem_cons_self x hx
      simp [hne]
    have hrest : arbitrate (taken ++ [(r.addr / 64 % 16, r.master)]) rs = (rs, []) := by
      refine ih _ (fun r' hr' x hx => ?_) hrs
      rcases List.mem_append.mp hx with hx | hx
      · exact hfree r' (List.mem_cons_of_mem _ hr') x hx
      · rw [List.mem_singleton.mp hx]
        exact hr r' hr'
    simp only [arbitrate, hports, List.length_nil, Nat.zero_lt_succ, if_true, hrest]

/-- The eight requests of a VLD or VST are all granted where no port is taken and no request waits. -/
theorem bankGrant_vecReqs {c : Cell} {phys : Nat} (hasked : c.scratch.asked = []) (hlost : c.scratch.losers = [])
    (data : Option (BitVec 128 × List Lane)) : bankGrant c (vecReqs phys data ++ []) = (vecReqs phys data, []) := by
  have htaken : takenPorts c = [] := by
    unfold takenPorts
    split
    · exact hasked
    · rfl
  have hord : bankOrder (vecReqs phys data ++ [] ++ []) = vecReqs phys data := by
    rw [List.append_nil, List.append_nil]
    refine List.mergeSort_of_pairwise (List.pairwise_map.mpr (List.pairwise_lt_range.imp fun {i j} hij => ?_))
    have hle : phys + 64 * i ≤ phys + 64 * j := by omega
    simp [hle]
  have hbanks : (vecReqs phys data).Pairwise fun a b => bankOf a ≠ bankOf b := by
    refine List.pairwise_map.mpr ?_
    have hlt : (List.range 8).Pairwise fun i j => i < j ∧ j < 8 :=
      List.pairwise_lt_range.imp_of_mem fun _ hj hij => ⟨hij, List.mem_range.mp hj⟩
    refine hlt.imp fun {i j} hij => ?_
    simp only [bankOf]
    omega
  rw [bankGrant, htaken, hlost, hord]
  exact arbitrate_of_distinct _ [] (fun _ _ _ hx => absurd hx List.not_mem_nil) hbanks

/-! ## Granted requests of the vector slot -/

/-- The effect of one granted request on the part, after the reads (Table 6.3). -/
def grantWrite (g : Nat) (t : State) (r : BankReq) : State :=
  let t1 := modCell (bankMerge t g r) g fun c => bankWrite c r
  match if r.master = 2 ∨ r.write.isNone then none else shadowedPage (cellOf t1 g) r.addr with
  | some page => noteForeign t1 g page
  | none => t1

theorem bankEffects_eq (s : State) (g : Nat) (gs : List BankReq) :
    bankEffects s g gs = gs.reverse.foldl (grantWrite g)
      (modCell (scratchCheck s g ((gs.filter (·.write.isNone)).map (·.addr / 64))) g fun c =>
        (gs.filter fun r => r.master == 2 && r.write.isNone).foldl vldWord c) := rfl

theorem bankWrite_upsets (c : Cell) (r : BankReq) : (bankWrite c r).scratch.upsets = c.scratch.upsets := by
  unfold bankWrite
  split <;> rfl

/-- A request of the vector slot where no bit has flipped does to its cell what its write does. -/
theorem grantWrite_vec {g : Nat} {r : BankReq} (s : State) {c : Cell} (hmaster : r.master = 2) (hupsets : c.scratch.upsets = []) :
    grantWrite g (setCell s g c) r = setCell s g (bankWrite c r) := by
  have hmerge : bankMerge (setCell s g c) g r = setCell s g c := by
    unfold bankMerge
    split
    · rfl
    · simp [hupsets]
  simp only [grantWrite, hmerge, hmaster, true_or, if_true, modCell, cellOf_setCell_self, setCell_setCell]

theorem foldl_grantWrite {g : Nat} {rs : List BankReq} (s : State) {c : Cell} (hmaster : ∀ r ∈ rs, r.master = 2)
    (hupsets : c.scratch.upsets = []) : rs.foldl (grantWrite g) (setCell s g c) = setCell s g (rs.foldl bankWrite c) := by
  induction rs generalizing c with
  | nil => rfl
  | cons r rs ih =>
    rw [List.foldl_cons, List.foldl_cons, grantWrite_vec s (hmaster r List.mem_cons_self) hupsets]
    exact ih (fun r' hr' => hmaster r' (List.mem_cons_of_mem _ hr')) (by rw [bankWrite_upsets]; exact hupsets)

theorem scratchCheck_of_clean {s : State} {g : Nat} (h : (cellOf s g).scratch.upsets = []) (words : List Nat) :
    scratchCheck s g words = s := by
  simp [scratchCheck, h]

theorem vldWord_upsets (c : Cell) (r : BankReq) : (vldWord c r).scratch = c.scratch := by
  unfold vldWord
  split <;> rfl

theorem foldl_vldWord_scratch (rs : List BankReq) (c : Cell) : (rs.foldl vldWord c).scratch = c.scratch := by
  induction rs generalizing c with
  | nil => rfl
  | cons r rs ih => rw [List.foldl_cons, ih, vldWord_upsets]

theorem master_of_mem_vecReqs {phys : Nat} {data : Option (BitVec 128 × List Lane)} {r : BankReq} (h : r ∈ vecReqs phys data) :
    r.master = 2 := by
  obtain ⟨i, -, rfl⟩ := List.mem_map.mp h
  rfl

/-- The granted requests of a VLD or VST where no bit has flipped: words loaded, or words written. -/
theorem bankEffects_vecReqs {g phys : Nat} {data : Option (BitVec 128 × List Lane)} (s : State) {c : Cell}
    (hupsets : c.scratch.upsets = []) :
    bankEffects (setCell s g c) g (vecReqs phys data) = setCell s g ((vecReqs phys data).reverse.foldl bankWrite
      (((vecReqs phys data).filter fun r => r.master == 2 && r.write.isNone).foldl vldWord c)) := by
  rw [bankEffects_eq, scratchCheck_of_clean (by rwa [cellOf_setCell_self]), modCell, cellOf_setCell_self, setCell_setCell]
  refine foldl_grantWrite s (fun r hr => master_of_mem_vecReqs (List.mem_reverse.mp hr)) ?_
  rw [foldl_vldWord_scratch]
  exact hupsets

/-- A cell all of whose requests have been granted. -/
def settledCell (c : Cell) : Cell := { c with scratch := { c.scratch with losers := [], vld := none } }

/-- Requests that are all granted, where no word is bad: their effects, and no request waits. -/
theorem bankSettle_granted {g p : Nat} {gs : List BankReq} {s : State} {c c1 : Cell} (hrun : c.seq.status = .running)
    (hpoison : c.scratch.poison = []) (hupsets : c.scratch.upsets = [])
    (heffects : bankEffects (setCell s g c) g gs = setCell s g c1) (first : Bool) :
    bankSettle (setCell s g c) p g (gs, []) first =
      setCell s g (settledCell c1) := by
  have hgood : ∀ w, c.scratchBad w = false := fun w => by simp [Cell.scratchBad, hpoison, hupsets]
  have hbad : (gs.find? fun r => r.master == 2 && r.write.isNone && c.scratch.vld.isSome && c.scratchBad (r.addr / 64)) =
    none := by
    simp [List.find?_eq_none, hgood]
  simp [bankSettle, hbad, heffects, hrun, modCell, setCell_setCell, settledCell]
/-! ## VLD (R486) -/

/-- A byte of a read of a memory. -/
theorem getD_mread (m : Mem) {a n i : Nat} (h : i < n) : (mread m a n).getD i 0 = mget m (a + i) := by
  have hkeep : ∀ b, (fun e : Host.Cell => decide (a ≤ e.1) && decide (e.1 < a + n)) (a + i, b) = true := by
    intro b
    simp only [Bool.and_eq_true, decide_eq_true_eq]
    omega
  rw [mread, List.getD_eq_getElem _ _ (by simpa using h), List.getElem_map, List.getElem_range, mget_filter _ _ _ hkeep]

/-- A field of a read of a memory is the field of its bytes, wherever the read began. -/
theorem fieldLE_mread (m : Mem) {a n off k : Nat} (h : off + k ≤ n) :
    fieldLE (mread m a n) off k = leNat ((List.range k).map fun j => mget m (a + off + j)) := by
  rw [fieldLE, slice]
  congr 1
  refine List.map_congr_left fun j hj => ?_
  have hlt : j < k := List.mem_range.mp hj
  rw [getD_mread m (by omega), Nat.add_assoc]

/-- The lanes a word of a VLD leaves in its register: its own sixteen under the mask, the others kept. -/
def vldLanes (mem : Mem) (m : BitVec 128) (base : Nat) (old : List Lane) (r : BankReq) : List Lane :=
  let first := (r.addr - base) / 4
  merged m old ((List.range lanes).map fun i =>
    if first ≤ i ∧ i < first + 16 then BitVec.ofNat 32 (fieldLE (mread mem (r.addr / 64 * 64) 64) (4 * (i - first)) 4)
      else old.getD i 0)

theorem vldWord_eq {c : Cell} {dst mask base : Nat} (h : c.scratch.vld = some (dst, mask, base)) (r : BankReq) :
    vldWord c r = setReg c dst (vldLanes c.scratch.mem (maskReg c mask) base (reg c dst) r) := by
  simp only [vldWord, h, vldLanes]

theorem setReg_setReg (c : Cell) (n : Nat) (x y : List Lane) : setReg (setReg c n x) n y = setReg c n y := by
  simp only [setReg, tset_tset]

theorem reg_setReg (c : Cell) (n : Nat) (x : List Lane) : reg (setReg c n x) n = x := by
  simp only [reg, setReg, tget_tset_self, Option.getD_some]

/-- The words of a VLD taken one after another. -/
theorem foldl_vldWord {c : Cell} {dst mask base : Nat} (h : c.scratch.vld = some (dst, mask, base)) (rs : List BankReq)
    (x : List Lane) :
    rs.foldl vldWord (setReg c dst x) = setReg c dst (rs.foldl (vldLanes c.scratch.mem (maskReg c mask) base) x) := by
  induction rs generalizing x with
  | nil => rfl
  | cons r rs ih =>
    have hvld : (setReg c dst x).scratch.vld = some (dst, mask, base) := h
    rw [List.foldl_cons, List.foldl_cons, vldWord_eq hvld, reg_setReg, setReg_setReg]
    exact ih _

theorem getD_merged (m : BitVec 128) (old new : List Lane) {i : Nat} (h : i < lanes) :
    (merged m old new).getD i 0 = if m.getLsbD i then new.getD i 0 else old.getD i 0 := by
  rw [merged, List.getD_eq_getElem _ _ (by simpa using h), List.getElem_map, List.getElem_range]

/-- A lane after one word of a VLD from a word-aligned address. -/
theorem getD_vldLanes {mem : Mem} {m : BitVec 128} {base k i : Nat} {old : List Lane} (hbase : base % 64 = 0) (hi : i < lanes)
    (w : Option (BitVec 64 × List Byte)) (poison : Bool) :
    (vldLanes mem m base old ⟨2, base + 64 * k, w, poison⟩).getD i 0 =
      if m.getLsbD i ∧ 16 * k ≤ i ∧ i < 16 * k + 16
        then BitVec.ofNat 32 (leNat ((List.range 4).map fun j => mget mem (base + 4 * i + j)))
      else old.getD i 0 := by
  have hfirst : (base + 64 * k - base) / 4 = 16 * k := by omega
  have hword : (base + 64 * k) / 64 * 64 = base + 64 * k := by omega
  rw [vldLanes, getD_merged _ _ _ hi, List.getD_eq_getElem _ _ (by simpa using hi), List.getElem_map, List.getElem_range]
  simp only [hfirst, hword]
  by_cases hm : m.getLsbD i = true
  · by_cases hin : 16 * k ≤ i ∧ i < 16 * k + 16
    · have hplace : base + 64 * k + 4 * (i - 16 * k) = base + 4 * i := by omega
      rw [if_pos hm, if_pos hin, if_pos ⟨hm, hin⟩, fieldLE_mread mem (by omega), hplace]
    · rw [if_pos hm, if_neg hin, if_neg fun h => hin h.2]
  · rw [if_neg hm, if_neg fun h => hm h.1]

/-- A lane after the first `k` words of a VLD. -/
theorem getD_foldl_vldLanes {mem : Mem} {m : BitVec 128} {base i : Nat} (old : List Lane) (hbase : base % 64 = 0)
    (hi : i < lanes) (k : Nat) :
    (((List.range k).map fun j => (⟨2, base + 64 * j, none, false⟩ : BankReq)).foldl (vldLanes mem m base) old).getD i 0 =
      if m.getLsbD i ∧ i < 16 * k then BitVec.ofNat 32 (leNat ((List.range 4).map fun j => mget mem (base + 4 * i + j)))
        else old.getD i 0 := by
  induction k with
  | zero => simp
  | succ k ih =>
    rw [List.range_succ, List.map_append, List.foldl_append, List.map_singleton, List.foldl_cons, List.foldl_nil,
      getD_vldLanes hbase hi, ih]
    by_cases hword : 16 * k ≤ i ∧ i < 16 * k + 16
    · have hlast : i < 16 * (k + 1) := by omega
      have hnot : ¬ i < 16 * k := by omega
      simp only [hword, hlast, hnot, and_true, and_false, if_false]
    · have hlast : i < 16 * (k + 1) ↔ i < 16 * k := by omega
      simp only [hword, hlast, and_false, if_false]

theorem length_vldLanes (mem : Mem) (m : BitVec 128) (base : Nat) (old : List Lane) (r : BankReq) :
    (vldLanes mem m base old r).length = lanes := by
  simp [vldLanes, merged]

/-- A list of all lanes is its own lanes. -/
theorem map_getD_range {x : List Lane} (h : x.length = lanes) : ((List.range lanes).map fun i => x.getD i 0) = x := by
  refine List.ext_getElem (by simp [h]) fun i _ hi => ?_
  simp [hi]

/-- The register after all words of a VLD: four bytes of the 512 a lane, where the lane is unmasked. -/
theorem foldl_vldWord_vecReqs {c : Cell} {dst mask phys : Nat} (h : c.scratch.vld = some (dst, mask, phys))
    (hphys : phys % 64 = 0) :
    (vecReqs phys none).foldl vldWord c =
      laneSet c dst mask fun i => BitVec.ofNat 32 (fieldLE (mread c.scratch.mem phys 512) (4 * i) 4) := by
  have hreqs : vecReqs phys none = (List.range 8).map fun j => (⟨2, phys + 64 * j, none, false⟩ : BankReq) := rfl
  let f := vldLanes c.scratch.mem (maskReg c mask) phys
  have hall : (vecReqs phys none).foldl vldWord c = setReg c dst ((vecReqs phys none).foldl f (reg c dst)) := by
    have hcons : ∃ r rs, vecReqs phys none = r :: rs := ⟨_, _, rfl⟩
    obtain ⟨r, rs, hr⟩ := hcons
    rw [hr, List.foldl_cons, List.foldl_cons, vldWord_eq h, foldl_vldWord h]
  have hlen : ((vecReqs phys none).foldl f (reg c dst)).length = lanes := by
    rw [hreqs, List.range_succ, List.map_append, List.foldl_append, List.map_singleton, List.foldl_cons, List.foldl_nil]
    exact length_vldLanes ..
  rw [hall, laneSet, ← map_getD_range hlen]
  refine congrArg (setReg c dst) (List.map_congr_left fun i hi => ?_)
  have hlt : i < lanes := List.mem_range.mp hi
  have hlast : i < 16 * 8 := hlt
  rw [hreqs, getD_foldl_vldLanes _ hphys hlt, fieldLE_mread _ (by omega)]
  simp only [hlast, and_true]

/-! ## The vector slot at a clean range of the scratchpad -/

/-- A cell whose scratchpad no vector access finds a fault in: no port of it is taken, no request waits, nothing is poisoned or
flipped, and no VLD is under way. -/
structure CleanScratch (c : Cell) : Prop where
  asked : c.scratch.asked = []
  losers : c.scratch.losers = []
  poison : c.scratch.poison = []
  upsets : c.scratch.upsets = []
  vld : c.scratch.vld = none

/-- A cell whose requests have taken their ports. -/
def askedCell (gs : List BankReq) (c : Cell) : Cell :=
  { c with scratch := { c.scratch with asked := gs.map fun r => (bankOf r, r.master) } }

/-- The ports taken in a CCLK are free again after it. -/
theorem settledCell_askedCell_after {c : Cell} (gs : List BankReq) (hlost : c.scratch.losers = []) (hvld : c.scratch.vld = none) :
    (settledCell (askedCell gs c)).after 1 = c.after 1 := by
  obtain ⟨seq, imem, vregs, masks, lcs, acc, wbuf0, wbuf1, wactive, wload, ins, paced, outs, gens, amax, spec, scratch, rest⟩ := c
  obtain ⟨mem, poison, poisonedAt, map, losers, vld, asked, upsets⟩ := scratch
  simp only at hlost hvld
  subst hlost hvld
  rfl

/-- The issue's end sees a cell only after its CCLK. -/
theorem slotDone_congr {s : State} {g : Nat} {b : Bundle} {f f' : Cell → Cell}
    (h : (f (noteIssue (cellOf s g) b)).after 1 = (f' (noteIssue (cellOf s g) b)).after 1) :
    slotDone s g b f = slotDone s g b f' := by
  rw [← cellOf_issued] at h
  simp only [slotDone, slotAfter, modCell, cellOf_setCell_self, setCell_setCell, h]

theorem moveOver_of_no_moves {s : State} {p : Nat} (h : (partOf s p).moves = []) (tier a n : Nat) :
    moveOver s p tier a n = none := by
  simp [moveOver, h]

theorem vecAddrFault_of_clear {s : State} {p g imm : Nat} (hmoves : (partOf s p).moves = [])
    (hheld : scratchWithheld (cellOf s g) (imm * 512 / 8192) = false) : vecAddrFault s p g imm = none := by
  simp only [vecAddrFault, hheld, Bool.false_eq_true, if_false, staleAt, moveOver_of_no_moves hmoves]

/-- Scratchpad frames begin at word boundaries. -/
theorem scratchPhys_mod (c : Cell) (imm : Nat) : scratchPhys c true (imm * 512) % 64 = 0 := by
  simp only [scratchPhys, if_true]
  omega

theorem takePorts_setCell {s : State} {g : Nat} {c : Cell} (gs : List BankReq) (hasked : c.scratch.asked = []) :
    takePorts (setCell s g c) g gs =
      setCell s g (askedCell gs c) := by
  have htaken : takenPorts c = [] := by
    unfold takenPorts
    split
    · exact hasked
    · rfl
  simp only [takePorts, modCell, cellOf_setCell_self, setCell_setCell, htaken, List.nil_append]
  rfl

/-- The requests of a VLD and the writes of its words: its requests hold no write. -/
theorem foldl_bankWrite_vecReqs_none (phys : Nat) (c : Cell) : (vecReqs phys none).reverse.foldl bankWrite c = c := by
  have hnone : ∀ r ∈ (vecReqs phys none).reverse, r.write = none := fun r hr => by
    obtain ⟨i, -, rfl⟩ := List.mem_map.mp (List.mem_reverse.mp hr)
    rfl
  generalize (vecReqs phys none).reverse = rs at hnone
  induction rs with
  | nil => rfl
  | cons r rs ih =>
    have hr : bankWrite c r = c := by simp only [bankWrite, hnone r List.mem_cons_self]
    rw [List.foldl_cons, hr, ih fun r' hr' => hnone r' (List.mem_cons_of_mem _ hr')]

/-- One CCLK's requests of a VLD at a clean scratchpad: its register has taken its words. -/
theorem bankRound_vld {s : State} {p g dst mask phys : Nat} {c : Cell} (hrun : c.seq.status = .running)
    (hasked : c.scratch.asked = [])
    (hlost : c.scratch.losers = []) (hpoison : c.scratch.poison = []) (hupsets : c.scratch.upsets = [])
    (hvld : c.scratch.vld = some (dst, mask, phys)) (hphys : phys % 64 = 0) :
    bankRound (setCell s g c) p g (vecReqs phys none ++ []) true =
      setCell s g (settledCell (askedCell (vecReqs phys none) (laneSet c dst mask fun i =>
        BitVec.ofNat 32 (fieldLE (mread c.scratch.mem phys 512) (4 * i) 4)))) := by
  have hreads : (vecReqs phys none).filter (fun r => r.master == 2 && r.write.isNone) = vecReqs phys none := rfl
  have hload := foldl_vldWord_vecReqs (c := askedCell (vecReqs phys none) c) hvld hphys
  rw [bankRound, cellOf_setCell_self, bankGrant_vecReqs hasked hlost, takePorts_setCell _ hasked]
  refine (bankSettle_granted (c := askedCell (vecReqs phys none) c) hrun hpoison hupsets
    (bankEffects_vecReqs s hupsets) true).trans ?_
  rw [hreads, foldl_bankWrite_vecReqs_none, hload]
  rfl

/-- A cell whose VLD is under way. -/
def vldCell (c : Cell) (dst mask phys : Nat) : Cell := { c with scratch := { c.scratch with vld := some (dst, mask, phys) } }

/-- The register a VLD loads, four bytes of its 512 a lane (R486). -/
def vldSet (c : Cell) (dst mask phys : Nat) : Cell :=
  laneSet c dst mask fun i => BitVec.ofNat 32 (fieldLE (mread c.scratch.mem phys 512) (4 * i) 4)

theorem settledCell_vldCell (gs : List BankReq) (c : Cell) (dst mask phys : Nat) :
    settledCell (askedCell gs (vldSet (vldCell c dst mask phys) dst mask phys)) =
      settledCell (askedCell gs (vldSet c dst mask phys)) := rfl

/-- A VLD before the write streams drain. -/
theorem vecBefore_vld {s : State} {p g phys : Nat} {v : VecSlot} (hop : v.op = 0x40) (hrun : (cellOf s g).seq.status = .running)
    (hclean : CleanScratch (cellOf s g)) (hmoves : (partOf s p).moves = [])
    (hheld : scratchWithheld (cellOf s g) (v.imm * 512 / 8192) = false)
    (hphys : scratchPhys (cellOf s g) true (v.imm * 512) = phys) (draws : List (BitVec 32)) :
    vecBefore s p g v draws [] =
      setCell s g (settledCell (askedCell (vecReqs phys none) (vldSet (cellOf s g) v.dst v.mask phys))) := by
  have hround := bankRound_vld (s := s) (p := p) (g := g)
    (c := vldCell (cellOf s g) v.dst v.mask phys) hrun hclean.asked hclean.losers
    hclean.poison hclean.upsets rfl (hphys ▸ scratchPhys_mod (cellOf s g) v.imm)
  rw [← settledCell_vldCell]
  simp only [vecBefore, hop, if_true, vecAddrFault_of_clear hmoves hheld, modCell, hphys]
  exact hround

/-- A VLD where the cell can issue it and its scratchpad is clean. -/
theorem issueSlot_vld {s : State} {p g : Nat} {v : VecSlot} (hop : v.op = 0x40) (hfits : v.Fits) (hlegal : vecIllegal v = false)
    (h : slotClear s p g (vecOnly v) = true) (hclean : CleanScratch (cellOf s g)) (hmoves : (partOf s p).moves = [])
    (hheld : scratchWithheld (cellOf s g) (v.imm * 512 / 8192) = false) :
    issueSlot s g (vecWord v) =
      slotDone s g (vecOnly v) fun c => vldSet c v.dst v.mask (scratchPhys (cellOf s g) true (v.imm * 512)) := by
  have hcell := cellOf_issued s g (vecOnly v)
  have hphys : scratchPhys (cellOf (issued s g (vecOnly v)) g) true (v.imm * 512) =
    scratchPhys (cellOf s g) true (v.imm * 512) := by
    rw [hcell]
    rfl
  generalize scratchPhys (cellOf s g) true (v.imm * 512) = phys at hphys ⊢
  obtain ⟨hasked, hlost, hpoison, hupsets, hvld⟩ := hclean
  have hclean' : CleanScratch (cellOf (issued s g (vecOnly v)) g) := by
    rw [hcell]
    exact ⟨hasked, hlost, hpoison, hupsets, hvld⟩
  have hbefore := vecBefore_vld hop (by rw [hcell]; exact running_of_canIssue (canIssue_of_clear h)) hclean'
    (by rw [partOf_issued]; exact hmoves) (by rw [hcell]; exact hheld) hphys (drawsOf (cellOf s g))
  refine (issueSlot_vecBefore
    (f := fun c => settledCell (askedCell (vecReqs phys none) (vldSet c v.dst v.mask phys))) h hfits hlegal
    (by rw [hop]; decide) hbefore (fun _ => rfl) fun _ => rfl).trans ?_
  exact slotDone_congr (settledCell_askedCell_after (c := vldSet _ v.dst v.mask phys) _ hlost hvld)

/-- Settles O17: the eight requests are granted, and the lanes take the bytes they read. -/
theorem vectorLoad : Obligations.VectorLoad := by
  unfold Obligations.VectorLoad
  intro s p g dst imm mask hdst himm hmask c phys v h hasked hmoves hheld hpoison hupsets hvld
  obtain ⟨-, -, hlost, -⟩ := slotReady_iff.mp (slotClear_iff.mp h).1
  have hfits : (⟨0x40, dst, 0, 0, 0, mask, 0, 0, 0, imm⟩ : VecSlot).Fits := by
    simp only [VecSlot.Fits]
    omega
  have hlegal : vecIllegal ⟨0x40, dst, 0, 0, 0, mask, 0, 0, 0, imm⟩ = false := by simp [vecIllegal, vecOps, fpVecOp]
  have hexec : exec (.vld g dst imm mask) s =
    .next (issueSlot s g (vecWord ⟨0x40, dst % 64, 0, 0, 0, mask % 8, 0, 0, 0, imm % 4096⟩)) := rfl
  rw [hexec, Nat.mod_eq_of_lt hdst, Nat.mod_eq_of_lt hmask, Nat.mod_eq_of_lt himm]
  exact congrArg _ (issueSlot_vld rfl hfits hlegal h ⟨hasked, hlost, hpoison, hupsets, hvld⟩ hmoves hheld)

end Sys2Proof.Machine

/-! # Proofs: vector stores -/

namespace Sys2Proof.Machine

/-! ## The bytes a VST writes -/

/-- The byte enables of a word of a VST: four for each unmasked lane of its sixteen. -/
theorem getLsbD_enables (m : BitVec 128) (i j n : Nat) (hn : n ≤ 16) :
    ((List.range n).foldl (fun (be : BitVec 64) l =>
      if m.getLsbD (16 * i + l) then be ||| BitVec.ofNat 64 (15 * 2 ^ (4 * l)) else be) 0).getLsbD j =
      (decide (j < 4 * n) && m.getLsbD (16 * i + j / 4)) := by
  induction n with
  | zero => simp
  | succ n ih =>
    have hnibble : (BitVec.ofNat 64 (15 * 2 ^ (4 * n))).getLsbD j = decide (4 * n ≤ j ∧ j < 4 * n + 4) := by
      have h15 : (15 : Nat) = 2 ^ 4 - 1 := rfl
      rw [BitVec.getLsbD_ofNat, Nat.testBit_mul_two_pow, h15, Nat.testBit_two_pow_sub_one, ← Bool.decide_and, ← Bool.decide_and,
        decide_eq_decide]
      omega
    rw [List.range_succ, List.foldl_append, List.foldl_cons, List.foldl_nil]
    by_cases hj : 4 * n ≤ j ∧ j < 4 * n + 4
    · have hlane : j / 4 = n := by omega
      have hlast : j < 4 * (n + 1) := by omega
      have hnot : ¬ j < 4 * n := by omega
      split
      · next hm => simp [hnibble, hj, hlane, hlast, hm]
      · next hm =>
        rw [ih (by omega)]
        simp [hlane, hnot, hm]
    · have hlast : j < 4 * (n + 1) ↔ j < 4 * n := by omega
      split
      · rw [BitVec.getLsbD_or, hnibble, ih (by omega)]
        simp [hj, hlast]
      · rw [ih (by omega)]
        simp [hlast]

/-- The bytes of lanes laid one after another. -/
theorem getD_flatMap_leBytes (x : Nat → Nat) (j n : Nat) (hj : j < 4 * n) :
    ((List.range n).flatMap fun l => leBytes 4 (x l)).getD j 0 = (leBytes 4 (x (j / 4))).getD (j % 4) 0 := by
  have hlen : ∀ n, ((List.range n).flatMap fun l => leBytes 4 (x l)).length = 4 * n := by
    intro n
    simp [List.length_flatMap, Nat.mul_comm]
  induction n with
  | zero => omega
  | succ n ih =>
    rw [List.range_succ, List.flatMap_append, List.flatMap_singleton]
    by_cases hlast : j < 4 * n
    · rw [List.getD_append _ _ _ _ (by rw [hlen]; exact hlast), ih hlast]
    · have hlane : j / 4 = n := by omega
      have hbyte : j - 4 * n = j % 4 := by omega
      rw [List.getD_append_right _ _ _ _ (by rw [hlen]; omega), hlen, hlane, hbyte]

theorem mget_mset (m : Mem) (n : Nat) (b : Byte) (a : Nat) : mget (mset m n b) a = if a = n then b else mget m a := by
  split
  · next h =>
    subst h
    rw [mset, mget_mwrite_in _ _ _ _ (Nat.le_refl a) (by simp), Nat.sub_self]
    rfl
  · next h => exact mget_mwrite_out _ _ _ _ (by simp; omega)

/-- Bytes written one by one where their enables are set. -/
theorem mget_foldl_mset (m : Mem) (A n : Nat) (be : Nat → Bool) (x : Nat → Byte) (a : Nat) :
    mget ((List.range n).foldl (fun m i => if be i then mset m (A + i) (x i) else m) m) a =
      if (A ≤ a ∧ a < A + n) ∧ be (a - A) = true then x (a - A) else mget m a := by
  induction n with
  | zero =>
    have hnot : ¬ (A ≤ a ∧ a < A + 0) := by omega
    simp only [hnot, false_and, if_false]
    rfl
  | succ n ih =>
    rw [List.range_succ, List.foldl_append, List.foldl_cons, List.foldl_nil]
    by_cases ha : a = A + n
    · have hsub : a - A = n := by omega
      have hin : A ≤ a ∧ a < A + (n + 1) := by omega
      have hnot : ¬ (A ≤ a ∧ a < A + n) := by omega
      split
      · next hbe => rw [mget_mset, if_pos ha, hsub, if_pos ⟨hin, hbe⟩]
      · next hbe => rw [ih, hsub, if_neg fun h => hnot h.1, if_neg fun h => hbe h.2]
    · have hin : A ≤ a ∧ a < A + (n + 1) ↔ A ≤ a ∧ a < A + n := by omega
      simp only [hin]
      rw [← ih]
      split
      · rw [mget_mset, if_neg ha]
      · rfl

/-- The memory after a word's write. -/
def wordWritten (m : Mem) (r : BankReq) : Mem :=
  match r.write with
  | none => m
  | some (be, data) =>
    (List.range 64).foldl (fun m i => if be.getLsbD i then mset m (r.addr / 64 * 64 + i) (data.getD i 0) else m) m

/-- A scrub's corrections without the one of a word written. -/
def scrubKept (l : Tbl Nat) (r : BankReq) : Tbl Nat := l.filter fun e => e.2 != r.addr / 64

/-- A cell with a memory and a scrub's corrections changed. -/
def storedCell (c : Cell) (m : Mem) (back : Tbl Nat) : Cell := { c with scratch := { c.scratch with mem := m, scrubBack := back } }

/-- A write without poison at a clean scratchpad writes its bytes and cancels its word's correction. -/
theorem bankWrite_clean {c : Cell} {r : BankReq} (hwrite : r.write.isSome = true) (hclean : r.poison = false)
    (hpoison : c.scratch.poison = []) :
    bankWrite c r = storedCell c (wordWritten c.scratch.mem r) (scrubKept c.scratch.scrubBack r) := by
  obtain ⟨⟨be, data⟩, hw⟩ := Option.isSome_iff_exists.mp hwrite
  simp [bankWrite, hw, hclean, hpoison, storedCell, wordWritten, scrubKept]

theorem foldl_bankWrite_clean {c : Cell} {rs : List BankReq} (hwrite : ∀ r ∈ rs, r.write.isSome = true ∧ r.poison = false)
    (hpoison : c.scratch.poison = []) :
    rs.foldl bankWrite c = storedCell c (rs.foldl wordWritten c.scratch.mem) (rs.foldl scrubKept c.scratch.scrubBack) := by
  induction rs generalizing c with
  | nil => rfl
  | cons r rs ih =>
    obtain ⟨hr, hclean⟩ := hwrite r List.mem_cons_self
    rw [List.foldl_cons, bankWrite_clean hr hclean hpoison]
    exact ih (fun r' hr' => hwrite r' (List.mem_cons_of_mem _ hr')) hpoison

/-- The byte a VST has for a place among its 512. -/
def vstByte (data : List Lane) (k : Nat) : Byte := (leBytes 4 (data.getD (k / 4) 0).toNat).getD (k % 4) 0

/-- Request `i` of a VST. -/
def vstReq (phys : Nat) (m : BitVec 128) (data : List Lane) (i : Nat) : BankReq :=
  ⟨2, phys + 64 * i, some ((List.range 16).foldl (fun (be : BitVec 64) l =>
      if m.getLsbD (16 * i + l) then be ||| BitVec.ofNat 64 (15 * 2 ^ (4 * l)) else be) 0,
    (List.range 16).flatMap fun l => leBytes 4 (data.getD (16 * i + l) 0).toNat), false⟩

theorem vecReqs_vst (phys : Nat) (m : BitVec 128) (data : List Lane) :
    vecReqs phys (some (m, data)) = (List.range 8).map (vstReq phys m data) := rfl

/-- A byte after one word of a VST at a word-aligned address. -/
theorem mget_wordWritten_vst {phys : Nat} (hphys : phys % 64 = 0) (mem : Mem) (m : BitVec 128) (data : List Lane) (i a : Nat) :
    mget (wordWritten mem (vstReq phys m data i)) a =
      if (phys + 64 * i ≤ a ∧ a < phys + 64 * i + 64) ∧ m.getLsbD ((a - phys) / 4) = true then vstByte data (a - phys)
        else mget mem a := by
  have hword : (phys + 64 * i) / 64 * 64 = phys + 64 * i := by omega
  simp only [wordWritten, vstReq, hword]
  rw [mget_foldl_mset]
  by_cases hin : phys + 64 * i ≤ a ∧ a < phys + 64 * i + 64
  · have hj : a - (phys + 64 * i) < 4 * 16 := by omega
    have hlane : 16 * i + (a - (phys + 64 * i)) / 4 = (a - phys) / 4 := by omega
    have hbyte : (a - (phys + 64 * i)) % 4 = (a - phys) % 4 := by omega
    rw [getLsbD_enables _ _ _ _ (Nat.le_refl 16), getD_flatMap_leBytes (fun l => (data.getD (16 * i + l) 0).toNat) _ _ hj,
      hlane, hbyte, decide_eq_true hj, Bool.true_and, vstByte]
  · rw [if_neg fun h => hin h.1, if_neg fun h => hin h.1]

/-- A byte after the first `k` words of a VST. -/
theorem mget_foldr_wordWritten_vst {phys : Nat} (hphys : phys % 64 = 0) (mem : Mem) (m : BitVec 128) (data : List Lane)
    (k a : Nat) :
    mget (((List.range k).map (vstReq phys m data)).foldr (fun r m => wordWritten m r) mem) a =
      if (phys ≤ a ∧ a < phys + 64 * k) ∧ m.getLsbD ((a - phys) / 4) = true then vstByte data (a - phys) else mget mem a := by
  induction k generalizing mem with
  | zero =>
    have hnot : ¬ (phys ≤ a ∧ a < phys + 64 * 0) := by omega
    rw [if_neg fun h => hnot h.1]
    rfl
  | succ k ih =>
    rw [List.range_succ, List.map_append, List.foldr_append, ih, List.map_singleton, List.foldr_cons, List.foldr_nil,
      mget_wordWritten_vst hphys]
    by_cases hlast : phys + 64 * k ≤ a ∧ a < phys + 64 * k + 64
    · have hin : phys ≤ a ∧ a < phys + 64 * (k + 1) := by omega
      have hnot : ¬ a < phys + 64 * k := by omega
      simp only [hlast, hin, hnot, true_and, and_false, false_and, if_false, and_self]
    · have hin : phys ≤ a ∧ a < phys + 64 * (k + 1) ↔ phys ≤ a ∧ a < phys + 64 * k := by omega
      simp only [hlast, hin, false_and, if_false]

/-- A scrub's corrections after the first `k` words of a VST. -/
theorem foldr_scrubKept_vst {phys : Nat} (hphys : phys % 64 = 0) (l : Tbl Nat) (m : BitVec 128) (data : List Lane) (k : Nat) :
    ((List.range k).map (vstReq phys m data)).foldr (fun r l => scrubKept l r) l =
      l.filter fun e => decide (e.2 < phys / 64) || decide (phys / 64 + k ≤ e.2) := by
  induction k generalizing l with
  | zero =>
    refine (List.filter_eq_self.mpr fun e _ => ?_).symm
    simp only [Bool.or_eq_true, decide_eq_true_eq]
    omega
  | succ k ih =>
    rw [List.range_succ, List.map_append, List.foldr_append, ih, List.map_singleton, List.foldr_cons, List.foldr_nil, scrubKept,
      List.filter_filter]
    refine List.filter_congr fun e _ => ?_
    have hword : (vstReq phys m data k).addr / 64 = phys / 64 + k := by
      simp only [vstReq]
      omega
    rw [hword, Bool.eq_iff_iff]
    simp only [Bool.and_eq_true, Bool.or_eq_true, decide_eq_true_eq, bne_iff_ne]
    omega

/-! ## VST (R486) -/

/-- The memory after a VST. -/
def vstMem (mem : Mem) (phys : Nat) (m : BitVec 128) (data : List Lane) : Mem :=
  (vecReqs phys (some (m, data))).reverse.foldl wordWritten mem

/-- A scrub's corrections after a VST: those of its words are cancelled (R163). -/
def vstBack (l : Tbl Nat) (phys : Nat) : Tbl Nat := l.filter fun e => decide (e.2 < phys / 64) || decide (phys / 64 + 8 ≤ e.2)

theorem mget_vstMem {phys : Nat} (hphys : phys % 64 = 0) (mem : Mem) (m : BitVec 128) (data : List Lane) (a : Nat) :
    mget (vstMem mem phys m data) a =
      if (phys ≤ a ∧ a < phys + 512) ∧ m.getLsbD ((a - phys) / 4) = true then vstByte data (a - phys) else mget mem a := by
  rw [vstMem, List.foldl_reverse, vecReqs_vst, mget_foldr_wordWritten_vst hphys]

/-- The granted requests of a VST write its bytes. -/
theorem foldl_bankWrite_vst {c : Cell} {phys : Nat} (hphys : phys % 64 = 0) (hpoison : c.scratch.poison = []) (m : BitVec 128)
    (data : List Lane) :
    (vecReqs phys (some (m, data))).reverse.foldl bankWrite c =
      storedCell c (vstMem c.scratch.mem phys m data) (vstBack c.scratch.scrubBack phys) := by
  have hwrite : ∀ r ∈ (vecReqs phys (some (m, data))).reverse, r.write.isSome = true ∧ r.poison = false := fun r hr => by
    obtain ⟨i, -, rfl⟩ := List.mem_map.mp (List.mem_reverse.mp hr)
    exact ⟨rfl, rfl⟩
  have hback := foldr_scrubKept_vst hphys c.scratch.scrubBack m data 8
  rw [foldl_bankWrite_clean hwrite hpoison, vstMem, vstBack, ← hback, ← vecReqs_vst, ← List.foldl_reverse]

/-- The requests of a VST that are granted, after the write streams have drained. -/
theorem bankSettle_vst {s : State} {p g phys : Nat} {c : Cell} (hrun : c.seq.status = .running) (hpoison : c.scratch.poison = [])
    (hupsets : c.scratch.upsets = []) (hphys : phys % 64 = 0) (m : BitVec 128) (data : List Lane) :
    bankSettle (setCell s g c) p g (vecReqs phys (some (m, data)), []) true =
      setCell s g (settledCell (storedCell c (vstMem c.scratch.mem phys m data) (vstBack c.scratch.scrubBack phys))) := by
  have hreads : (vecReqs phys (some (m, data))).filter (fun r => r.master == 2 && r.write.isNone) = [] := rfl
  have heffects := bankEffects_vecReqs (g := g) (phys := phys) (data := some (m, data)) s hupsets
  rw [hreads, List.foldl_nil, foldl_bankWrite_vst hphys hpoison] at heffects
  exact bankSettle_granted hrun hpoison hupsets heffects true

/-- A VST's requests at a clean scratchpad are all granted. -/
theorem vstGrant_of_clear {s : State} {p g phys : Nat} {v : VecSlot} (hop : v.op = 0x41) (hclean : CleanScratch (cellOf s g))
    (hmoves : (partOf s p).moves = []) (hheld : scratchWithheld (cellOf s g) (v.imm * 512 / 8192) = false)
    (hphys : scratchPhys (cellOf s g) true (v.imm * 512) = phys) (data : List Lane) :
    vstGrant s p g v data [] = some (vecReqs phys (some (maskReg (cellOf s g) v.mask, data)), []) := by
  simp only [vstGrant, hop, vecAddrFault_of_clear hmoves hheld, moveOver_of_no_moves hmoves, hphys, Option.isSome_none, ne_eq,
    not_true_eq_false, Bool.false_eq_true, or_self, if_false, bankGrant_vecReqs hclean.asked hclean.losers]

theorem noteShadow_of_no_shadows {c : Cell} (h : c.shadows = []) (space page n : Nat) : noteShadow c space page n = c := by
  simp [noteShadow, openShadow, h]

/-- A VST after the write streams have drained. -/
theorem vecStore_of_clear {s : State} {p g phys : Nat} {c : Cell} {v : VecSlot} (hop : v.op = 0x41)
    (hrun : c.seq.status = .running)
    (hpoison : c.scratch.poison = []) (hupsets : c.scratch.upsets = []) (hshadows : c.shadows = [])
    (hmoves : (partOf s p).moves = [])
    (hheld : scratchWithheld c (v.imm * 512 / 8192) = false) (hphys : phys % 64 = 0) (m : BitVec 128) (data data' : List Lane) :
    vecStore (setCell s g c) p g v data' (some (vecReqs phys (some (m, data)), [])) =
      setCell s g (settledCell (storedCell c (vstMem c.scratch.mem phys m data) (vstBack c.scratch.scrubBack phys))) := by
  have hfault : vecAddrFault (setCell s g c) p g v.imm = none :=
    vecAddrFault_of_clear hmoves (by rwa [cellOf_setCell_self])
  simp only [vecStore, hop, ne_eq, not_true_eq_false, if_false, hfault, modCell, cellOf_setCell_self,
    noteShadow_of_no_shadows hshadows, setCell_setCell]
  exact bankSettle_vst hrun hpoison hupsets hphys m data

/-- The issue of a VST whose requests are granted: its ports are taken while the write streams drain, then it is stored. -/
theorem issueOnce_vst {s t : State} {p g : Nat} {v : VecSlot} {x : List BankReq × List BankReq} (hop : v.op = 0x41)
    (hissue : canIssue s g = true) (hgrant : vstGrant (issued s g (vecOnly v)) p g v (reg (cellOf s g) v.sa) [] = some x)
    (hquiet : quietOuts (cellOf (takePorts (issued s g (vecOnly v)) g x.1) g) = true)
    (halive : alive (takePorts (issued s g (vecOnly v)) g x.1) g = true)
    (hstore : vecStore (takePorts (issued s g (vecOnly v)) g x.1) p g v (reg (cellOf s g) v.sa) (some x) = t)
    (halive' : alive t g = true) : issueOnce s p g (vecOnly v) true [] = slotAfter t g := by
  have h0 : anem (modCell s g fun c => noteIssue c (vecOnly v)) (g / 80) 1 1 = issued s g (vecOnly v) := rfl
  have hmac : ¬((0 : Nat) = 3 ∨ (0 : Nat) = 4) := by omega
  have hstart : streamExec (issued s g (vecOnly v)) g (vecOnly v) = issued s g (vecOnly v) := streamExec_none _ _ rfl rfl
  have hbefore : ∀ d, vecBefore (issued s g (vecOnly v)) p g v d [] = issued s g (vecOnly v) := fun d => by simp [vecBefore, hop]
  refine Eq.trans ?_ (modCell_endIssue (b := vecOnly v) halive' rfl (by simp))
  unfold issueOnce
  simp only [vecOnly_mat, vecOnly_vec, vecOnly_sync, hmac, if_false, h0, hstart, alive_issued hissue, if_true, hop, decide_true,
    hbefore, hgrant, drainAll_quiet hquiet, halive, matExec_none _ _ _ _, hstore, halive', syncExec_none _ _ _]
  rfl

/-- The part as the ports of a VST's requests are taken. -/
theorem takePorts_issued {s : State} {g : Nat} {b : Bundle} (hasked : (cellOf s g).scratch.asked = []) (gs : List BankReq) :
    takePorts (issued s g b) g gs = setCell (issued s g b) g (askedCell gs (noteIssue (cellOf s g) b)) := by
  have htake := takePorts_setCell (s := issued s g b) (g := g) (c := noteIssue (cellOf s g) b) gs hasked
  rwa [← cellOf_issued, setCell_self_issued, cellOf_issued] at htake

/-- A VST where the cell can issue it and its scratchpad is clean. -/
theorem issueSlot_vst {s : State} {p g phys : Nat} {v : VecSlot} (hop : v.op = 0x41) (hfits : v.Fits)
    (hlegal : vecIllegal v = false)
    (h : slotClear s p g (vecOnly v) = true) (hclean : CleanScratch (cellOf s g)) (hshadows : (cellOf s g).shadows = [])
    (hmoves : (partOf s p).moves = []) (hheld : scratchWithheld (cellOf s g) (v.imm * 512 / 8192) = false)
    (hphys : scratchPhys (cellOf s g) true (v.imm * 512) = phys) :
    issueSlot s g (vecWord v) = slotDone s g (vecOnly v) fun c =>
      storedCell c (vstMem (cellOf s g).scratch.mem phys (maskReg (cellOf s g) v.mask) (reg (cellOf s g) v.sa))
        (vstBack (cellOf s g).scratch.scrubBack phys) := by
  obtain ⟨hready, hquiet⟩ := slotClear_iff.mp h
  have hissue := canIssue_of_clear h
  have hrun := running_of_canIssue hissue
  have hcell := cellOf_issued s g (vecOnly v)
  obtain ⟨hasked, hlost, hpoison, hupsets, hvld⟩ := hclean
  let data := reg (cellOf s g) v.sa
  let gs := vecReqs phys (some (maskReg (cellOf s g) v.mask, data))
  let mem := vstMem (cellOf s g).scratch.mem phys (maskReg (cellOf s g) v.mask) data
  let back := vstBack (cellOf s g).scratch.scrubBack phys
  let c := askedCell gs (noteIssue (cellOf s g) (vecOnly v))
  have hgrant : vstGrant (issued s g (vecOnly v)) p g v data [] = some (gs, []) := by
    have hclean' : CleanScratch (cellOf (issued s g (vecOnly v)) g) := by
      rw [hcell]
      exact ⟨hasked, hlost, hpoison, hupsets, hvld⟩
    rw [vstGrant_of_clear (phys := phys) hop hclean' (by rwa [partOf_issued]) (by rw [hcell]; exact hheld)
      (by rw [hcell]; exact hphys) data, hcell]
    rfl
  have htake : takePorts (issued s g (vecOnly v)) g gs = setCell (issued s g (vecOnly v)) g c := takePorts_issued hasked gs
  have hstore : vecStore (takePorts (issued s g (vecOnly v)) g gs) p g v data (some (gs, [])) =
      setCell (issued s g (vecOnly v)) g (settledCell (storedCell c mem back)) := by
    have hmod : phys % 64 = 0 := hphys ▸ scratchPhys_mod (cellOf s g) v.imm
    rw [htake]
    exact vecStore_of_clear (c := c) hop hrun hpoison hupsets hshadows (by rwa [partOf_issued]) hheld hmod _ data data
  have hone := issueOnce_vst hop hissue hgrant (by rw [htake, cellOf_setCell_self]; exact hquiet)
    (alive_of_running (by rw [htake, cellOf_setCell_self]; exact hrun)) hstore
    (alive_of_running (by rw [cellOf_setCell_self]; exact hrun))
  rw [issueSlot_of_ready hready (ofWord_vecWord hfits) rfl ((bundleIllegal_vecOnly _ _).trans hlegal) (by simp [matFault])
    (by simp) (by simp), hone]
  refine Eq.trans ?_ (slotDone_congr (f := fun c => settledCell (askedCell gs (storedCell c mem back)))
    (settledCell_askedCell_after (c := storedCell _ mem back) gs hlost hvld))
  rw [slotDone, modCell, hcell]
  rfl

/-- Settles O18: the eight requests are granted, and a byte after their words is the lane's or as before. -/
theorem vectorStore : Obligations.VectorStore := by
  unfold Obligations.VectorStore
  intro s p g sa imm mask hsa himm hmask c phys v h hasked hmoves hheld hpoison hupsets hvld hshadows back
  obtain ⟨-, -, hlost, -⟩ := slotReady_iff.mp (slotClear_iff.mp h).1
  have hfits : (⟨0x41, 0, sa, 0, 0, mask, 0, 0, 0, imm⟩ : VecSlot).Fits := by
    simp only [VecSlot.Fits]
    omega
  have hlegal : vecIllegal ⟨0x41, 0, sa, 0, 0, mask, 0, 0, 0, imm⟩ = false := by simp [vecIllegal, vecOps, fpVecOp]
  have hexec : exec (.vst g sa imm mask) s =
    .next (issueSlot s g (vecWord ⟨0x41, 0, sa % 64, 0, 0, mask % 8, 0, 0, 0, imm % 4096⟩)) := rfl
  have hphys : phys % 64 = 0 := scratchPhys_mod c imm
  rw [hexec, Nat.mod_eq_of_lt hsa, Nat.mod_eq_of_lt hmask, Nat.mod_eq_of_lt himm]
  refine ⟨_, congrArg _ (issueSlot_vst rfl hfits hlegal h ⟨hasked, hlost, hpoison, hupsets, hvld⟩ hshadows hmoves hheld rfl),
    fun k hk hm => ?_, fun a ha => ?_⟩
  · have hin : phys ≤ phys + k ∧ phys + k < phys + 512 := by omega
    rw [mget_vstMem hphys, Nat.add_sub_cancel_left, if_pos ⟨hin, hm⟩]
    rfl
  · rw [mget_vstMem hphys, if_neg]
    rintro ⟨hin, hm⟩
    rcases ha with ha | ha | ha
    · omega
    · omega
    · exact Bool.false_ne_true (ha.symm.trans hm)

end Sys2Proof.Machine

/-! # Proofs: issue of a bundle -/

namespace Sys2Proof.Machine

/-! ## A bundle at the cell's address (R38, R40) -/

theorem execBundleIssue_of_fetched {s : State} {p g : Nat} (howner : cellOwner s g = some p) (hheld : (cellOf s g).seq.held = none)
    (hissue : canIssue s g = true) (hpc : (cellOf s g).seq.pc < 4096) (hold : Option MissCause) :
    execBundleIssue g hold 0 [] [] s = .next (issueAll s p g (fetchWord (cellOf s g)) false hold []) := by
  have hup : upsetScratch s g [] = s := rfl
  simp [execBundleIssue, hup, howner, hissue, Nat.not_le.mpr hpc, hheld]

/-- A held cell does not repeat its bundle. -/
theorem issueRest_of_held {s : State} {g : Nat} (h : canIssue s g = false) (n p : Nat) (w : BitVec 256) (slot : Bool) :
    issueRest n s p g w slot = s := by
  cases n with
  | zero => rfl
  | succ n => simp [issueRest, h]

theorem canIssue_stall (s : State) (g : Nat) (m : MissCause) (held : Option (BitVec 256)) :
    canIssue (stall s g m held) g = false := by
  simp [canIssue, stall, modSeq]

/-- A legal bundle that a stall holds waits. -/
theorem issueAll_of_hold {s : State} {p g : Nat} {w : BitVec 256} {m : MissCause}
    (hlegal : bundleIllegal (cellOf s g) (Bundle.ofWord w) = false) (hfault : matFault (cellOf s g) (Bundle.ofWord w).mat = none)
    (hsync : (Bundle.ofWord w).sync.op = 0) : issueAll s p g w false (some m) [] = stall s g m none := by
  have hwait : ∀ held, syncWait s p g (Bundle.ofWord w).sync held = none := syncWait_of_ne (by omega) (by omega)
  have htry : tryIssue s p g w false (some m) [] = stall s g m none := by
    simp [tryIssue, hlegal, hfault, hwait, heldWord]
  rw [issueAll, htry]
  exact issueRest_of_held (canIssue_stall s g m none) _ _ _ _

/-- A bundle with no operation moves the cell on by one bundle. -/
theorem issueAll_zero {s : State} {p g : Nat} (h : slotClear s p g (syncOnly ⟨0, 0⟩) = true) :
    issueAll s p g 0 false none [] =
      slotDone s g (syncOnly ⟨0, 0⟩) fun c => { c with seq := { c.seq with pc := c.seq.pc + 1 } } := by
  have hw : Bundle.ofWord 0 = syncOnly ⟨0, 0⟩ := ofWord_syncWord syncSlot_zero_fits
  have halive := alive_issued (canIssue_of_clear h) (syncOnly ⟨0, 0⟩)
  have honce : issueAll s p g 0 false none [] = tryIssue s p g 0 false none [] := by
    rw [issueAll, hw]
    rfl
  rw [honce, tryIssue_of_ready (slotClear_iff.mp h).1 hw (bundleIllegal_syncOnly _ (by decide) (by decide)) (matFault_syncOnly _ _)
    (by decide) (by decide), issueOnce_of_clear h rfl rfl rfl (matExec_syncOnly _ _ _ _ _) halive, syncExec_none _ _ _ rfl]
  simp only [slotDone, slotAfter, modCell, cellOf_setCell_self, setCell_setCell, endIssue_of_alive (alive_iff.mp halive)]
  simp [advance, syncOnly, advanceGens, Cell.after]

/-- The end of a stall, where nothing else holds the bundle. -/
theorem execIssueResume_of_free {s : State} {p g cycles : Nat} {m : MissCause} (howner : cellOwner s g = some p)
    (hheld : (cellOf s g).seq.held = none) (hstatus : (cellOf s g).seq.status = .stalled m)
    (hhold : (dieOf s (g / 80)).hold = false)
    (hfree : let c := cellOf s g
      let b := Bundle.ofWord (fetchWord c)
      blockedBy (missCycles s g (max cycles (max (unitAt c b) (operandAt c b) - c.seq.cclk))) p g b = none) :
    execIssueResume g cycles s =
      let c := cellOf s g
      let b := Bundle.ofWord (fetchWord c)
      .next (reissue (modSeq (missCycles s g (max cycles (max (unitAt c b) (operandAt c b) - c.seq.cclk))) g fun q =>
        { q with status := .running }) g) := by
  dsimp only at hfree
  simp [execIssueResume, hstatus, howner, hheld, hhold, hfree]

/-- Settles O25: a fetched bundle goes to `issueAll`, which issues it or holds it; a stall's end issues it again. -/
theorem bundleIssue : Obligations.BundleIssue := by
  unfold Obligations.BundleIssue
  intro s p g howner hheld c b
  refine ⟨fun hissue hpc => ?_, fun m cycles hstatus hhold hfree => execIssueResume_of_free howner hheld hstatus hhold hfree⟩
  have hexec := execBundleIssue_of_fetched howner hheld hissue hpc
  refine ⟨hexec none, fun h hzero => ?_, fun m hlegal hfault hsync => ?_⟩
  · have hnop := (hexec none).trans (congrArg (fun w => Host.Outcome.next (issueAll s p g w false none [])) hzero)
    exact hnop.trans (congrArg _ (issueAll_zero h))
  · exact (hexec (some m)).trans (congrArg _ (issueAll_of_hold hlegal hfault hsync))

end Sys2Proof.Machine

/-! # Proofs: scratchpad checks keep the sequencer -/

namespace Sys2Proof.Machine

/-! ## Reports and recovery actions keep every cell -/

/-- Repeated steps that each keep every cell. -/
theorem foldl_cells {α : Type} {f : State → α → State} (h : ∀ t x, (f t x).cells = t.cells) (l : List α) (s : State) :
    (l.foldl f s).cells = s.cells := by
  induction l generalizing s with
  | nil => rfl
  | cons x l ih => rw [List.foldl_cons, ih, h]

@[simp] theorem cells_countTotal (s : State) (cls n : Nat) : (countTotal s cls n).cells = s.cells := by
  unfold countTotal
  split <;> rfl

@[simp] theorem cells_stageRec (s : State) (r : AlmRec) : (stageRec s r).cells = s.cells := by
  unfold stageRec
  dsimp only
  split
  · rfl
  · split <;> rfl

@[simp] theorem cells_notify (s : State) : (notify s).cells = s.cells := by
  unfold notify
  dsimp only
  split <;> rfl

@[simp] theorem cells_record (s : State) (e : Rep) : (record s e).cells = s.cells := by
  unfold record
  cases e.part <;> simp [apply_ite State.cells]

@[simp] theorem cells_report (s : State) (e : Rep) : (report s e).cells = s.cells := by
  simp [report, apply_ite State.cells]

@[simp] theorem cells_corrected (s : State) (part : Option Nat) (unit addr : Nat) :
    (corrected s part unit addr).cells = s.cells := by
  unfold corrected
  cases part <;> dsimp only [fresh] <;> split_ifs <;> simp

@[simp] theorem cells_deferred (s : State) (p : Option Nat) (c : Code) (unit addr : Nat) :
    (deferred s p c unit addr).cells = s.cells := cells_report _ _

@[simp] theorem cells_actionRec (s : State) (a : Action) (phase : Nat) : (actionRec s a phase).cells = s.cells := by
  simp [actionRec]

@[simp] theorem cells_showRecovery (s : State) : (showRecovery s).cells = s.cells := rfl

@[simp] theorem cells_startAction (s : State) (a : Action) : (startAction s a).cells = s.cells := by
  have hreset : ∀ (l : List Nat) (t : State), (l.foldl (fun t p => setState t p .resetting) t).cells = t.cells :=
    foldl_cells fun _ _ => rfl
  simp [startAction, apply_ite State.cells, hreset]

@[simp] theorem cells_queueAction (s : State) (a : Action) (head : Bool) : (queueAction s a head).cells = s.cells := by
  simp [queueAction]

@[simp] theorem cells_escalated (s : State) (ps : List Nat) : (escalated s ps).cells = s.cells :=
  foldl_cells (f := fun t p => odOr t (Ad.errPartStatus p) 16) (fun _ _ => rfl) ps _

@[simp] theorem cells_widen (s : State) (r : Action) : (widen s r).cells = s.cells := by
  simp [widen]

@[simp] theorem cells_demand (s : State) (a : Action) : (demand s a).cells = s.cells := by
  unfold demand
  cases s.recovery.running with
  | none => simp [apply_ite State.cells]
  | some r => simp [apply_ite State.cells]

@[simp] theorem cells_cellFaulty (s : State) (g : Nat) (c : Code) (seq : Nat) : (cellFaulty s g c seq).cells = s.cells := by
  unfold cellFaulty
  split <;> exact cells_demand _ _

/-! ## Checks and writes of a scratchpad keep its cell's sequencer and losing requests -/

/-- What a check or a write of a cell's scratchpad leaves of the cell: its sequencer and the requests that lost their banks. -/
def SameSeq (g : Nat) (s t : State) : Prop :=
  (cellOf t g).seq = (cellOf s g).seq ∧ (cellOf t g).scratch.losers = (cellOf s g).scratch.losers

theorem SameSeq.refl (g : Nat) (s : State) : SameSeq g s s := ⟨rfl, rfl⟩

theorem SameSeq.trans {g : Nat} {s t u : State} (h : SameSeq g s t) (h' : SameSeq g t u) : SameSeq g s u :=
  ⟨h'.1.trans h.1, h'.2.trans h.2⟩

theorem SameSeq.of_cells {g : Nat} {s t : State} (h : t.cells = s.cells) : SameSeq g s t := by
  have hcell : cellOf t g = cellOf s g := by rw [cellOf, cellOf, h]
  exact ⟨by rw [hcell], by rw [hcell]⟩

theorem SameSeq.modCell {g : Nat} {s : State} {f : Cell → Cell} (hseq : ∀ c, (f c).seq = c.seq)
    (hlost : ∀ c, (f c).scratch.losers = c.scratch.losers) : SameSeq g s (modCell s g f) := by
  unfold SameSeq
  rw [cellOf_modCell_self]
  exact ⟨hseq _, hlost _⟩

theorem SameSeq.foldl {α : Type} {g : Nat} {f : State → α → State} (h : ∀ t x, SameSeq g t (f t x)) (l : List α) (s : State) :
    SameSeq g s (l.foldl f s) := by
  induction l generalizing s with
  | nil => exact .refl g s
  | cons x l ih => exact (h s x).trans (ih _)

theorem scratchPoisoned_sameSeq (s : State) (g word : Nat) : SameSeq g s (scratchPoisoned s g word) := by
  have hpoison : SameSeq g s (modCell s g fun c => { c with scratch := { c.scratch with
      poison := addTo c.scratch.poison word,
      poisonedAt := tset (c.scratch.poisonedAt.filter fun e => s.nv.opMs < e.2 + 86400000) word s.nv.opMs } }) :=
    .modCell (fun _ => rfl) fun _ => rfl
  refine hpoison.trans (.of_cells ?_)
  unfold scratchPoisoned
  dsimp only
  split <;> simp [modCell]

theorem scratchFound_sameSeq (s : State) (g : Nat) (u : Upset) : SameSeq g s (scratchFound s g u) := by
  unfold scratchFound
  split
  · exact scratchPoisoned_sameSeq s g u.word
  · exact .of_cells (by simp)

theorem keepUpsets_sameSeq (s : State) (g : Nat) (f : Upset → Bool) : SameSeq g s (keepUpsets s g f) :=
  .modCell (fun _ => rfl) fun _ => rfl

theorem scratchCheck_sameSeq (s : State) (g : Nat) (words : List Nat) : SameSeq g s (scratchCheck s g words) := by
  unfold scratchCheck
  dsimp only
  split
  · exact .refl g s
  · exact (SameSeq.foldl (fun t u => scratchFound_sameSeq t g u) _ s).trans (keepUpsets_sameSeq _ _ _)

theorem startChecked_sameSeq (s : State) (g desc : Nat) (tiled : Bool) : SameSeq g s (startChecked s g desc tiled) :=
  scratchCheck_sameSeq _ _ _

theorem scratchMerge_sameSeq (s : State) (g a n : Nat) : SameSeq g s (scratchMerge s g a n) := by
  unfold scratchMerge
  dsimp only
  split
  · exact .refl g s
  · exact (SameSeq.foldl (fun t u => scratchFound_sameSeq t g u) _ s).trans (keepUpsets_sameSeq _ _ _)

theorem scratchPut_sameSeq (s : State) (g phys : Nat) (bs : List Byte) (poison : Bool) :
    SameSeq g s (scratchPut s g phys bs poison) :=
  (scratchMerge_sameSeq _ _ _ _).trans (.modCell (fun _ => rfl) fun _ => rfl)

theorem noteShadow_kept (c : Cell) (space page n : Nat) :
    (noteShadow c space page n).seq = c.seq ∧ (noteShadow c space page n).scratch = c.scratch := by
  unfold noteShadow
  split <;> exact ⟨rfl, rfl⟩

theorem scratchWrite_sameSeq (s : State) (g a : Nat) (bs : List Byte) (poison : Bool) :
    SameSeq g s (scratchWrite s g a bs poison) :=
  .foldl (fun _ _ => (scratchPut_sameSeq _ _ _ _ _).trans
    (.modCell (fun c => (noteShadow_kept c _ _ _).1) fun c => congrArg _ (noteShadow_kept c _ _ _).2)) _ s

theorem writeBoxes_sameSeq (s : State) (p g : Nat) (d : StreamDesc) (bs : List Byte) : SameSeq g s (writeBoxes s p g d bs) := by
  refine .foldl (fun t b => (scratchWrite_sameSeq t g ((Resample.of d).boxes * 64 + 32 * b + 16)
    (leBytes 4 (boxStatus (Resample.of d) bs b)) false).trans ?_) _ s
  dsimp only
  split
  · exact .of_cells rfl
  · split
    · exact .of_cells rfl
    · exact .refl _ _

end Sys2Proof.Machine

/-! # Proofs: starts and stops of streams -/

namespace Sys2Proof.Machine

/-! ## Bundles of one stream operation -/

theorem bundleIllegal_sinOnly (c : Cell) {x : StreamSlot} (h : x.op ≤ 2) : bundleIllegal c (sinOnly x) = false := by
  simp [bundleIllegal, sinOnly, vecIllegal, matIllegal, Nat.not_lt.mpr h]

theorem bundleIllegal_soutOnly (c : Cell) {x : StreamSlot} (h : x.op ≤ 2) (hnear : x.near ≤ 1) :
    bundleIllegal c (soutOnly x) = false := by
  simp [bundleIllegal, soutOnly, vecIllegal, matIllegal, Nat.not_lt.mpr h, Nat.not_lt.mpr hnear]

/-- A read stream's slot operation that the cell can issue. -/
theorem issueSlot_sin {s : State} {p g op stream desc near addr : Nat}
    (hready : slotReady s p g (sinOnly ⟨op, stream, desc, near, addr⟩) = true) (hop : op ≤ 2)
    (hfits : (⟨op, stream, desc, near, addr⟩ : StreamSlot).FitsIn) :
    issueSlot s g (sinWord op stream desc near addr) = issueOnce s p g (sinOnly ⟨op, stream, desc, near, addr⟩) true [] :=
  issueSlot_of_ready hready (ofWord_sinWord hfits) rfl (bundleIllegal_sinOnly _ hop) rfl
    (by simp [sinOnly]) (by simp [sinOnly])

/-- A write stream's slot operation that the cell can issue. -/
theorem issueSlot_sout {s : State} {p g op stream desc near addr : Nat}
    (hready : slotReady s p g (soutOnly ⟨op, stream, desc, near, addr⟩) = true) (hop : op ≤ 2) (hnear : near < 2)
    (hfits : (⟨op, stream, desc, near, addr⟩ : StreamSlot).FitsOut) :
    issueSlot s g (soutWord op stream desc near addr) = issueOnce s p g (soutOnly ⟨op, stream, desc, near, addr⟩) true [] :=
  issueSlot_of_ready hready (ofWord_soutWord hfits) rfl (bundleIllegal_soutOnly _ hop (Nat.le_of_lt_succ hnear)) rfl
    (by simp [soutOnly]) (by simp [soutOnly])

/-- A bundle of stream operations alone, whose write streams drain a group in its CCLK. -/
theorem issueOnce_of_drains {s s1 t : State} {p g : Nat} {b : Bundle} (hvec : b.vec.op = 0) (hmat : b.mat.op = 0)
    (hsync : b.sync.op = 0) (hrep : b.rep = 0) (hs1 : streamExec (issued s g b) g b = s1)
    (hlost : (cellOf s1 g).scratch.losers = []) (hself : setCell s1 g (cellOf s1 g) = s1)
    (ht : drainAll s1 g (drawsOf (cellOf s g)) = t) (halive : alive t g = true) :
    issueOnce s p g b true [] = slotAfter t g := by
  have hstore : b.vec.op ≠ 0x41 := by omega
  have hmac : ¬(b.mat.op = 3 ∨ b.mat.op = 4) := by omega
  unfold issued at hs1
  have hend : issueOnce s p g b true [] = modCell t g (endIssue b true) := by
    unfold issueOnce
    simp only [hmac, if_false, hs1, vecBefore_none hvec hlost, hself, ite_self, vstGrant_none _ _ _ hstore, ht,
      matExec_none _ _ _ _ hmat, vecStore_none _ _ _ hstore, syncExec_none _ _ _ hsync]
    rfl
  rw [hend]
  exact modCell_endIssue halive hrep (by omega)

/-! ## What a start reads -/

/-- A start reads the scratchpad as the issue found it. -/
theorem startReads_issued (s : State) (g : Nat) (b : Bundle) (desc : Nat) (tiled : Bool) :
    startReads (cellOf (issued s g b) g) desc tiled = startReads (cellOf s g) desc tiled := by
  rw [cellOf_issued]
  rfl

theorem budgets_startChecked (s : State) (g : Nat) (b : Bundle) (desc : Nat) (tiled : Bool) :
    (cellOf (startChecked (issued s g b) g desc tiled) g).seq.budgets = (cellOf s g).seq.budgets := by
  rw [(startChecked_sameSeq _ _ _ _).1, cellOf_issued]
  rfl

theorem losers_startChecked (s : State) (g : Nat) (b : Bundle) (desc : Nat) (tiled : Bool) :
    (cellOf (startChecked (issued s g b) g desc tiled) g).scratch.losers = (cellOf s g).scratch.losers := by
  rw [(startChecked_sameSeq _ _ _ _).2, cellOf_issued, noteIssue_scratch]

/-! ## Starts and ends of read streams -/

/-- The read stream that an SSTART begins, from its first unit (R59, R104). -/
def startedIn (r : StreamDesc × Option TileDesc × List Byte × Option Nat) (near addr : Nat) : InStream :=
  { running := true, desc := r.1, tile := r.2.1, matrix := decide (near = 1), addr := addr * 64,
    total := unitCount r.1 r.2.1 r.2.2.1, reqTotal := requestCount r.1 r.2.1, aux := r.2.2.1,
    group := (r.2.1.filter fun y => decide (y.bcast ≠ 0)).map TileDesc.bcast }

/-- The state in which a read stream has started, before it joins a broadcast group. -/
def withStarted (u : State) (p g stream : Nat) (r : StreamDesc × Option TileDesc × List Byte × Option Nat)
    (x : InStream) : State :=
  let v := modCell u g fun c => { c with ins := tset c.ins stream x }
  if r.1.xform = 11 then writeBoxes v p g r.1 r.2.2.1 else v

theorem losers_withStarted (u : State) (p g stream : Nat) (r : StreamDesc × Option TileDesc × List Byte × Option Nat)
    (x : InStream) : (cellOf (withStarted u p g stream r x) g).scratch.losers = (cellOf u g).scratch.losers := by
  have hset : SameSeq g u (modCell u g fun c => { c with ins := tset c.ins stream x }) := .modCell (fun _ => rfl) fun _ => rfl
  unfold withStarted
  dsimp only
  split
  · exact (hset.trans (writeBoxes_sameSeq _ _ _ _ _)).2
  · exact hset.2

/-- SSTART of a read stream whose descriptors pass the checks: it joins its broadcast group, if it names one. -/
theorem startIn_of_passed {s0 u t : State} {p g stream desc near addr : Nat}
    {r : StreamDesc × Option TileDesc × List Byte × Option Nat} (howner : cellOwner s0 g = some p)
    (hr : startReads (cellOf s0 g) desc (decide (near = 1)) = r) (hu : startChecked s0 g desc (decide (near = 1)) = u)
    (hclean : r.2.2.2 = none)
    (hpass : startFault u p g desc r.1 r.2.1 r.2.2.1 false (addr * 64)
      (if r.1.space = 2 then (cellOf u g).seq.budgets.getD stream 0 else 0) = none)
    (ht : (r.2.1.filter fun y => decide (y.bcast ≠ 0)) = none ∧ t = withStarted u p g stream r (startedIn r near addr) ∨
      ∃ y, (r.2.1.filter fun y => decide (y.bcast ≠ 0)) = some y ∧
        joinGroup (withStarted u p g stream r (startedIn r near addr)) g stream y (startedIn r near addr) = some t) :
    startIn s0 g stream desc near addr = t := by
  unfold startIn
  simp only [howner, hr, hu, hclean, hpass]
  obtain ⟨hgroup, rfl⟩ | ⟨y, hgroup, hjoin⟩ := ht
  · unfold withStarted startedIn modCell
    simp only [hgroup]
  · unfold withStarted startedIn modCell at hjoin
    simp only [hgroup] at hjoin ⊢
    rw [hjoin, Option.getD_some]

/-- SSTOP ends a running read stream. -/
theorem streamExec_stopIn {s : State} {g stream : Nat} {x : InStream} (hx : tget (cellOf s g).ins stream = some x)
    (hrun : x.running = true) : streamExec s g (sinOnly ⟨2, stream, 0, 0, 0⟩) = endIn s g stream := by
  simp [streamExec, sinOnly, hx, hrun]

/-- SSTOP ends a write stream. -/
theorem streamExec_stopOut {s : State} {g stream : Nat} {x : OutStream} (hx : tget (cellOf s g).outs stream = some x) :
    streamExec s g (soutOnly ⟨2, stream, 0, 0, 0⟩) =
      modCell s g fun c => { c with outs := tset c.outs stream { x with running := false } } := by
  simp [streamExec, soutOnly, modCell, hx]

/-- The end of a read stream changes its cell by the stream alone. -/
theorem cellOf_endIn {s : State} {g stream : Nat} {x : InStream} (hx : tget (cellOf s g).ins stream = some x) :
    cellOf (endIn s g stream) g =
      { cellOf s g with
        ins := tset (cellOf s g).ins stream { x with running := false, landing := [], total := x.deposited } } := by
  unfold endIn
  simp only [hx]
  split
  · rw [leaveGroup, cellOf_modDie, cellOf_modCell_self]
  · rw [cellOf_modCell_self]

/-- A joined broadcast group is no change to the cell. -/
theorem cellOf_joinGroup {w t : State} {g stream : Nat} {y : TileDesc} {x : InStream} (h : joinGroup w g stream y x = some t)
    (k : Nat) : cellOf t k = cellOf w k := by
  unfold joinGroup at h
  dsimp only at h
  split at h
  · contradiction
  · cases h
    rfl

/-! ## Starts of write streams -/

/-- The write stream that an SSTART begins: from its first group, and from the accumulator with its rows as they stand
(R67, log 139). -/
def startedOut (c : Cell) (r : StreamDesc × Option TileDesc × List Byte × Option Nat) (stream near addr : Nat) : OutStream :=
  { running := true, desc := r.1, tile := r.2.1, acc := decide (near = 1), addr := addr,
    total := match r.2.1 with
      | some t => (t.trow + 1) / 2
      | none => if r.1.xform = 8 then 1 else (nearSpan r.1 true [] + 511) / 512,
    start := c.seq.cclk,
    rows := match r.2.1 with
      | some t => (List.range t.vr).map (accRow c addr)
      | none => [],
    port := ((tget c.outs stream).map OutStream.port).getD [] }

/-- SSTART of a write stream whose descriptors pass the checks. -/
theorem startOut_of_passed {s0 u : State} {p g stream desc near addr : Nat}
    {r : StreamDesc × Option TileDesc × List Byte × Option Nat} (howner : cellOwner s0 g = some p)
    (hr : startReads (cellOf s0 g) desc (decide (near = 1)) = r) (hu : startChecked s0 g desc (decide (near = 1)) = u)
    (hclean : r.2.2.2 = none) (hpass : startFault u p g desc r.1 r.2.1 r.2.2.1 true (addr * 64) 0 = none) :
    startOut s0 g stream desc near addr =
      modCell u g fun c => { c with outs := tset c.outs stream (startedOut (cellOf u g) r stream near addr) } := by
  unfold startOut
  simp only [howner, hr, hu, hclean, hpass]
  rfl

/-! ## The four operations -/

/-- SSTART of a read stream, by the state its stream operation leaves. -/
theorem exec_sstartIn {s t : State} {p g stream desc near addr : Nat} (hstream : stream < 4) (hdesc : desc < 2 ^ 15)
    (hnear : near < 2) (haddr : addr < 2 ^ 15) (hready : slotReady s p g (sinOnly ⟨1, stream, desc, near, addr⟩) = true)
    (ht : startIn (issued s g (sinOnly ⟨1, stream, desc, near, addr⟩)) g stream desc near addr = t) (halive : alive t g = true)
    (hlost : (cellOf t g).scratch.losers = []) (hquiet : quietOuts (cellOf t g) = true) :
    exec (.sstartIn g stream desc near addr) s = .next (slotAfter t g) := by
  have hexec : exec (.sstartIn g stream desc near addr) s =
    .next (issueSlot s g (sinWord 1 (stream % 4) (desc % 2 ^ 15) (near % 2) (addr % 2 ^ 15))) := rfl
  rw [hexec, Nat.mod_eq_of_lt hstream, Nat.mod_eq_of_lt hdesc, Nat.mod_eq_of_lt hnear, Nat.mod_eq_of_lt haddr,
    issueSlot_sin hready (by decide) ⟨by simp, hstream, hdesc, hnear, haddr⟩]
  exact congrArg _ (issueOnce_of_streams rfl rfl rfl rfl ht halive hlost hquiet)

/-- Settles O24: each operation's effect on its stream, then the end of its issue. The checks of a start and its box list
leave the cell's budgets and its losing requests as they were. -/
theorem streamStartStop : Obligations.StreamStartStop := by
  unfold Obligations.StreamStartStop
  intro s p g c
  refine ⟨?startIn, ?stopIn, ?stopOut, ?startOut⟩
  case startIn =>
    intro stream desc near addr hstream hdesc hnear haddr b r u x v w hclear hclean hpass halive hquiet
    obtain ⟨hready, -⟩ := slotClear_iff.mp hclear
    obtain ⟨howner, -, hlost, -⟩ := slotReady_iff.mp hready
    have hbudgets : (cellOf u g).seq.budgets = c.seq.budgets := budgets_startChecked s g b desc _
    have hw : (cellOf w g).scratch.losers = [] :=
      (losers_withStarted u p g stream r x).trans ((losers_startChecked s g b desc _).trans hlost)
    have hstart := fun t => startIn_of_passed (t := t) (stream := stream) (near := near) (addr := addr) (u := u)
      ((cellOwner_issued s g b g).trans howner) (startReads_issued s g b desc _) rfl hclean (by rw [hbudgets]; exact hpass)
    refine ⟨fun hnone => ?_, fun y t hy hbcast hjoin => ?_⟩
    · have hgroup : (r.2.1.filter fun y => decide (y.bcast ≠ 0)) = none := by
        revert hnone
        cases r.2.1 <;> simp
      exact exec_sstartIn hstream hdesc hnear haddr hready (hstart w (.inl ⟨hgroup, rfl⟩)) halive hw hquiet
    · have hgroup : (r.2.1.filter fun y => decide (y.bcast ≠ 0)) = some y := by simp [hy, hbcast]
      have hcell := cellOf_joinGroup hjoin g
      refine exec_sstartIn hstream hdesc hnear haddr hready (hstart t (.inr ⟨y, hgroup, hjoin⟩)) ?_ ?_ ?_
      · rwa [alive, hcell]
      · rwa [hcell]
      · rwa [hcell]
  case stopIn =>
    intro stream x hstream hx hrun b hclear
    obtain ⟨hready, hquiet⟩ := slotClear_iff.mp hclear
    obtain ⟨-, hissue, hlost, -⟩ := slotReady_iff.mp hready
    have hins : tget (cellOf (issued s g b) g).ins stream = some x := by rw [cellOf_issued]; exact hx
    have hcell := cellOf_endIn hins
    have hexec : exec (.sstopIn g stream) s = .next (issueSlot s g (sinWord 2 (stream % 4) 0 0 0)) := rfl
    rw [hexec, Nat.mod_eq_of_lt hstream, issueSlot_sin hready (by decide)
      ⟨by simp, hstream, by simp, by simp, by simp⟩]
    refine congrArg _ (issueOnce_of_streams rfl rfl rfl rfl (streamExec_stopIn hins hrun) ?_ ?_ ?_)
    · rw [alive_iff, hcell]
      exact alive_iff.mp (alive_issued hissue b)
    · rw [hcell, cellOf_issued]
      exact hlost
    · rw [hcell, cellOf_issued]
      exact hquiet
  case stopOut =>
    intro stream x hstream hx hquiet b hready
    obtain ⟨-, hissue, hlost, -⟩ := slotReady_iff.mp hready
    have hexec : exec (.sstopOut g stream) s = .next (issueSlot s g (soutWord 2 (stream % 2) 0 0 0)) := rfl
    rw [hexec, Nat.mod_eq_of_lt hstream,
      issueSlot_sout hready (by decide) (by decide) ⟨by simp, hstream, by simp, by simp, by simp⟩]
    refine congrArg _ (issueOnce_of_streams rfl rfl rfl rfl (streamExec_stopOut ?_) ?_ ?_ ?_)
    · rw [cellOf_issued]
      exact hx
    · rw [alive_iff, cellOf_modCell_self]
      exact alive_iff.mp (alive_issued hissue b)
    · rw [cellOf_modCell_self, cellOf_issued]
      exact hlost
    · rw [cellOf_modCell_self, cellOf_issued]
      exact hquiet
  case startOut =>
    intro stream desc near addr hstream hdesc hnear haddr b r u hready hclean hpass
    obtain ⟨howner, -, hlost, -⟩ := slotReady_iff.mp hready
    have hstart := startOut_of_passed (stream := stream) (u := u) ((cellOwner_issued s g b g).trans howner)
      (startReads_issued s g b desc _) rfl hclean hpass
    have hexec : exec (.sstartOut g stream desc near addr) s =
      .next (issueSlot s g (soutWord 1 (stream % 2) (desc % 2 ^ 15) (near % 4) (addr % 2 ^ 15))) := rfl
    refine ⟨startedOut (cellOf u g) r stream near addr, rfl, rfl, rfl, rfl, rfl, rfl, fun halive => ?_⟩
    rw [hexec, Nat.mod_eq_of_lt hstream, Nat.mod_eq_of_lt hdesc, Nat.mod_eq_of_lt (by omega), Nat.mod_eq_of_lt haddr,
      issueSlot_sout hready (by decide) hnear ⟨by simp, hstream, hdesc, by simp; omega, haddr⟩]
    refine congrArg _ (issueOnce_of_drains rfl rfl rfl rfl hstart ?_ (setCell_self_modCell u g _) rfl halive)
    rw [cellOf_modCell_self]
    exact (losers_startChecked s g b desc _).trans hlost

end Sys2Proof.Machine

/-! # Proofs: waits and fences at their issue -/

namespace Sys2Proof.Machine

/-! ## Operands of the waits (Table 2.3) -/

/-- The sync slot of a SEM_WAIT. -/
def waitSlot (sem : Nat) : SyncSlot := ⟨1, sem * 2 ^ 18⟩

/-- The sync slot of a predicate fence. -/
def predSlot (sem : Nat) : SyncSlot := ⟨3, 2 ^ 24 + sem * 2 ^ 16⟩

theorem waitSlot_fits {sem : Nat} (hsem : sem < 256) : (waitSlot sem).Fits := by
  simp only [SyncSlot.Fits, waitSlot]
  omega

theorem waitSlot_sem {sem : Nat} (hsem : sem < 256) : (waitSlot sem).sem = sem := by
  simp only [SyncSlot.sem, waitSlot, bits]
  omega

theorem waitSlot_legal (c : Cell) (sem : Nat) : bundleIllegal c (syncOnly (waitSlot sem)) = false :=
  bundleIllegal_syncOnly c (by simp [waitSlot]) (by simp [waitSlot])

theorem predSlot_fits {sem : Nat} (hsem : sem < 256) : (predSlot sem).Fits := by
  simp only [SyncSlot.Fits, predSlot]
  omega

theorem predSlot_mode {sem : Nat} (hsem : sem < 256) : (predSlot sem).mode = 1 := by
  simp only [SyncSlot.mode, predSlot, bits]
  omega

theorem predSlot_pred {sem : Nat} (hsem : sem < 256) : (predSlot sem).pred = sem := by
  simp only [SyncSlot.pred, predSlot, bits]
  omega

/-- A FENCE is legal in its two modes (Table 2.3). -/
theorem bundleIllegal_fence (c : Cell) {y : SyncSlot} (hop : y.op = 3) (hmode : y.mode ≤ 1) :
    bundleIllegal c (syncOnly y) = false := by
  simp [bundleIllegal, syncOnly, vecIllegal, matIllegal, hop, Nat.not_lt.mpr hmode]

/-! ## Waits that hold issue (R87, R89, R95) -/

/-- A sync operation whose wait is not over holds the issue of its bundle, whatever else could hold it. -/
theorem issueSlot_of_wait {s t : State} {p g : Nat} {y : SyncSlot} (howner : cellOwner s g = some p) (hissue : canIssue s g = true)
    (hfits : y.Fits) (hlegal : bundleIllegal (cellOf s g) (syncOnly y) = false)
    (ht : syncWait s p g y (some (syncWord y.op y.arg)) = some t) : issueSlot s g (syncWord y.op y.arg) = t := by
  have hw : Bundle.ofWord (syncWord y.op y.arg) = syncOnly y := ofWord_syncWord hfits
  have hwait : syncWait s p g (syncOnly y).sync (heldWord true (syncWord y.op y.arg)) = some t := ht
  rw [issueSlot_of_rep_zero howner hissue (by rw [hw]; rfl)]
  simp only [tryIssue, hw, hlegal, Bool.false_eq_true, if_false, matFault_syncOnly, hwait]

/-- A cell waits on a semaphore before another: one of the waits queued at the home names it (R87). -/
def queued (s : State) (p sem : Nat) : Bool := (partOf s p).job.any fun j => j.waiters.any fun w => w.1 == sem

/-- A SEM_WAIT that its semaphore's count and queue let through does not hold issue. -/
theorem syncWait_waitSlot_of_free {s : State} {p sem : Nat} (hsem : sem < 256) (hcount : 1 ≤ semCount s p sem)
    (hqueue : queued s p sem = false) (g : Nat) (held : Option (BitVec 256)) : syncWait s p g (waitSlot sem) held = none := by
  have hfree : (decide (1 ≤ semCount s p sem) && !queued s p sem) = true := by simp [hcount, hqueue]
  unfold queued at hfree
  simp only [syncWait, waitSlot_sem hsem]
  simp only [waitSlot, hfree, if_true, ite_self]

/-- A SEM_WAIT on a count of 0, or behind another, waits in the queue of its semaphore's home. -/
theorem syncWait_waitSlot_of_busy {s : State} {p g sem : Nat} (hsem : sem < 256) (hgranted : (cellOf s g).seq.granted = false)
    (h : semCount s p sem = 0 ∨ queued s p sem = true) (held : Option (BitVec 256)) :
    syncWait s p g (waitSlot sem) held = some (modJob (modSeq s g fun q => { q with status := .waitSem sem, held := held }) p
      fun j => { j with waiters := j.waiters ++ [(sem, g)] }) := by
  have hbusy : (decide (1 ≤ semCount s p sem) && !queued s p sem) = false := by
    rcases h with h | h <;> simp [h]
  unfold queued at hbusy
  simp only [syncWait, waitSlot_sem hsem]
  simp only [waitSlot, hgranted, hbusy, Bool.false_eq_true, if_false]

/-- A FENCE waits by its mode: for the cell's own accesses, or for a predicate. -/
theorem syncWait_fence {s : State} {g : Nat} {y : SyncSlot} (hgranted : (cellOf s g).seq.granted = false) (hop : y.op = 3) (p : Nat)
    (held : Option (BitVec 256)) : syncWait s p g y held = some (modSeq s g fun q =>
      { q with status := if y.mode = 0 then .waitFence else .waitPred y.pred, held := held }) := by
  simp only [syncWait, hgranted, Bool.false_eq_true, if_false, hop]

/-! ## A SEM_WAIT that issues (R87) -/

/-- The cost of a SEM_WAIT is CCLK of its cell. -/
theorem cellOf_waitCost (s : State) (p g sem : Nat) : ∃ n, cellOf (waitCost s p g sem) g = (cellOf s g).after n := by
  unfold waitCost
  split
  · exact ⟨4, cellOf_modCell_self _ _ _⟩
  · exact ⟨_, cellOf_modCell_self _ _ _⟩

/-- A bundle of a sync operation of a running cell that lost no bank and drains nothing: its effect, then the issue's end. -/
theorem issueOnce_syncOnly {s : State} {p g : Nat} {y : SyncSlot} (hrun : (cellOf s g).seq.status = .running)
    (hlost : (cellOf s g).scratch.losers = []) (hquiet : quietOuts (cellOf s g) = true) (slot : Bool) :
    issueOnce s p g (syncOnly y) slot [] =
      modCell (syncExec (issued s g (syncOnly y)) p g y) g (endIssue (syncOnly y) slot) := by
  have hcell : cellOf (streamStart s g (syncOnly y)) g = noteIssue (cellOf s g) (syncOnly y) := cellOf_streamStart s g _
  have hmat := matExec_syncOnly s p g (cellOf s g).seq.rep y
  have halive : alive (issued s g (syncOnly y)) g = true := alive_of_running (by rw [cellOf_issued]; exact hrun)
  rw [issueOnce_of_quiet rfl (streamExec_none _ _ rfl rfl) (alive_of_running (by rw [hcell]; exact hrun))
    (by rw [hcell]; exact hlost) (by rw [hcell]; exact hquiet) (setCell_self_streamStart s g _), hmat, if_pos halive]
  rfl

/-- SEM_WAIT where its count is there and the cell can issue it: the count is taken, its cost passes, and its bundle issues. -/
theorem issueSlot_waitSlot {s : State} {p g sem : Nat} (hsem : sem < 256) (hgranted : (cellOf s g).seq.granted = false)
    (hcount : 1 ≤ semCount s p sem) (hqueue : queued s p sem = false)
    (h : slotClear s p g (syncOnly (waitSlot sem)) = true) :
    issueSlot s g (syncWord 1 (sem * 2 ^ 18)) =
      slotDone (waitCost (semTake s p sem) p g sem) g (syncOnly (waitSlot sem)) id := by
  obtain ⟨hready, hquiet⟩ := slotClear_iff.mp h
  obtain ⟨howner, hissue, hlost, hblocked⟩ := slotReady_iff.mp hready
  have hw : Bundle.ofWord (syncWord 1 (sem * 2 ^ 18)) = syncOnly (waitSlot sem) := ofWord_syncWord (waitSlot_fits hsem)
  have htry : tryIssue s p g (syncWord 1 (sem * 2 ^ 18)) true none [] =
      issueOnce (waitCost (semTake s p sem) p g sem) p g (syncOnly (waitSlot sem)) true [] := by
    have hwait : ∀ held, syncWait s p g (syncOnly (waitSlot sem)).sync held = none :=
      syncWait_waitSlot_of_free hsem hcount hqueue g
    have htaken : (syncOnly (waitSlot sem)).sync.op = 1 ∧ (!(cellOf s g).seq.granted) = true := ⟨rfl, by rw [hgranted]; rfl⟩
    have hname : (syncOnly (waitSlot sem)).sync.sem = sem := waitSlot_sem hsem
    simp only [tryIssue, hw, waitSlot_legal, Bool.false_eq_true, if_false, matFault_syncOnly, hwait, Option.orElse_none, hblocked,
      if_pos htaken, hname]
  rw [issueSlot_of_rep_zero howner hissue (by rw [hw]; rfl), htry]
  obtain ⟨n, hcell⟩ := cellOf_waitCost (semTake s p sem) p g sem
  generalize waitCost (semTake s p sem) p g sem = u at hcell ⊢
  have hrun : (cellOf u g).seq.status = .running := by
    rw [hcell]
    exact running_of_canIssue hissue
  have hself : modCell (issued u g (syncOnly (waitSlot sem))) g id = issued u g (syncOnly (waitSlot sem)) :=
    setCell_self_issued u g _
  rw [issueOnce_syncOnly hrun (by rw [hcell]; exact hlost) (by rw [hcell]; exact hquiet), slotDone, hself]
  exact modCell_endIssue (s := issued u g (syncOnly (waitSlot sem))) (alive_of_running (by rw [cellOf_issued]; exact hrun)) rfl
    (by simp [syncOnly, waitSlot])

/-- Settles O20: by what `syncWait` answers for each of the three. -/
theorem waitsAndFences : Obligations.WaitsAndFences := by
  unfold Obligations.WaitsAndFences
  intro s p g howner hissue hgranted
  refine ⟨fun sem hsem => ?wait, ?fence, fun sem hsem => ?predicate⟩
  case wait =>
    have hexec : exec (.semWait g sem) s = .next (issueSlot s g (syncWord 1 (sem % 256 * 2 ^ 18))) := rfl
    rw [hexec, Nat.mod_eq_of_lt hsem]
    refine ⟨fun hcount hqueue hclear => congrArg _ (issueSlot_waitSlot hsem hgranted hcount hqueue hclear), fun hbusy => ?_⟩
    exact congrArg _ (issueSlot_of_wait (y := waitSlot sem) howner hissue (waitSlot_fits hsem) (waitSlot_legal _ sem)
      (syncWait_waitSlot_of_busy hsem hgranted hbusy _))
  case fence =>
    have hfits : (⟨3, 0⟩ : SyncSlot).Fits := by simp [SyncSlot.Fits]
    exact congrArg _ (issueSlot_of_wait howner hissue hfits (bundleIllegal_fence _ rfl (by decide))
      (syncWait_fence hgranted rfl p _))
  case predicate =>
    have hexec : exec (.fencePredicate g sem) s = .next (issueSlot s g (syncWord 3 (2 ^ 24 + sem % 256 * 2 ^ 16))) := rfl
    have hwait := syncWait_fence (y := predSlot sem) hgranted rfl p (some (syncWord 3 (2 ^ 24 + sem * 2 ^ 16)))
    rw [predSlot_mode hsem, predSlot_pred hsem] at hwait
    rw [hexec, Nat.mod_eq_of_lt hsem]
    exact congrArg _ (issueSlot_of_wait (y := predSlot sem) howner hissue (predSlot_fits hsem)
      (bundleIllegal_fence _ rfl (predSlot_mode hsem).le) hwait)

end Sys2Proof.Machine

/-! # Proofs: requests, arrivals and deposits of streams -/

namespace Sys2Proof.Machine

/-! ## Accesses that nothing holds back -/

theorem unitClear_iff {s : State} {p g k : Nat} {x : InStream} :
    unitClear s p g x k = true ↔
      ((unitRuns x k).findSome? fun r => staleAt s p g x.desc.space r.1 r.2) = none ∧
        ((unitRuns x k).any fun r => movingInto s p g x.desc.space r.1 r.2) = false := by
  simp only [unitClear, Bool.and_eq_true, Option.isNone_iff_eq_none, Bool.not_eq_true']

theorem rangeClear_iff {s : State} {p tier a n : Nat} :
    rangeClear s p tier a n = true ↔ moveOver s p tier a n = none ∧ moveInto s p tier a n = false := by
  simp only [rangeClear, Bool.and_eq_true, Option.isNone_iff_eq_none, Bool.not_eq_true']

/-! ## Far-tier requests (R22, R24, R72, R77) -/

/-- A stream's requests draw on its cell's budget of the pacing window (R77). -/
def drawsBudget (c : Cell) (stream : Nat) (x : InStream) : Bool := decide (c.seq.budgets.getD stream 0 ≠ 0) && x.contract

/-- The fabric packet of a stream's next far-tier request. -/
def farPacket (s : State) (p g stream : Nat) (x : InStream) : FabPkt :=
  { src := g / 80, dst := 16 + keyMd (farKey s p (nextAddr x)),
    cls := if drawsBudget (cellOf s g) stream x then Traffic.reservedRead.cls else Traffic.data.cls, req := some (g, stream) }

/-- The cell whose stream has drawn one request on its budget, where it has one. -/
def drawnCell (c : Cell) (stream : Nat) (x : InStream) : Cell :=
  if drawsBudget c stream x then { c with paced := tset c.paced stream (pacedOf c stream + 1) } else c

/-- A read stream's next far-tier request may be made: it has one due, none of it is held, the landing buffer has room and
the window's budget lasts (R72, R77). -/
structure FarDue (s : State) (g stream : Nat) (x : InStream) : Prop where
  running : x.running = true
  space : x.desc.space = 2
  group : x.group = none
  left : x.requested < x.reqTotal
  room : landingRoom (cellOf s g) x 1 = true
  unheld : (s.fabric.held.any fun k => k.req == some (g, stream)) = false
  budget : drawsBudget (cellOf s g) stream x = true → pacedOf (cellOf s g) stream < (cellOf s g).seq.budgets.getD stream 0

/-- A request that may be made goes into the fabric where it has credit, and is held at its source where it has none. -/
theorem execFarRequestIssue_of_due {s : State} {p g stream : Nat} {x0 x : InStream} (howner : cellOwner s g = some p)
    (hx0 : tget (cellOf s g).ins stream = some x0) (hx : skipNever x0.total x0 = x) (hdue : FarDue s g stream x) :
    let k := farPacket s p g stream x
    let d := drawnCell (cellOf s g) stream x
    execFarRequestIssue g stream s =
      if fabricFree s.fabric k.src k.dst k.cls k.bytes then
        .next (fabricPut (setCell s g { d with ins := tset (cellOf s g).ins stream { x with requested := x.requested + 1 } }) k)
      else
        .next (setCell { s with fabric := { s.fabric with held := s.fabric.held ++ [k] } } g
          { d with ins := tset (cellOf s g).ins stream x }) := by
  intro k d
  obtain ⟨hrun, hspace, hgroup, hleft, hroom, hheld, hbudget⟩ := hdue
  have hpace : (!drawsBudget (cellOf s g) stream x ||
      decide (pacedOf (cellOf s g) stream < (cellOf s g).seq.budgets.getD stream 0)) = true := by
    simpa [imp_iff_not_or] using hbudget
  have hcond : (x.running && decide (x.desc.space = 2) && x.group.isNone && decide (x.requested < x.reqTotal) &&
      !(s.fabric.held.any fun k => k.req == some (g, stream)) && landingRoom (cellOf s g) x 1 &&
      (!drawsBudget (cellOf s g) stream x ||
        decide (pacedOf (cellOf s g) stream < (cellOf s g).seq.budgets.getD stream 0))) = true := by
    rw [hpace, hrun, hspace, hgroup, hroom, hheld, decide_eq_true hleft]
    rfl
  unfold execFarRequestIssue
  simp only [hx0, howner, hx]
  exact if_pos hcond

/-! ## Arrivals (R71) -/

/-- A unit due of a stream with contract times, that no move holds back, joins its landing buffer. -/
theorem execUnitArrival_of_due {s : State} {p g stream k : Nat} {x : InStream} (howner : cellOwner s g = some p)
    (hx : tget (cellOf s g).ins stream = some x) (hk : x.deposited + x.landing.length = k) (hrun : x.running = true)
    (hcontract : contracted s p g stream x = true) (hgroup : x.group = none) (hleft : k < x.total) (hkept : unitNever x k = false)
    (hmade : byRequest s p g x = true → needReqs x (k + 1) ≤ x.requested) (hclear : unitClear s p g x k = true) :
    execUnitArrival g stream s = .next (modCell (readChecks (readEffects s p x k true) p g x k) g fun c =>
      { c with ins := tset c.ins stream { x with landing := x.landing ++ [unitOf s p g x k] } }) := by
  obtain ⟨hstale, hmoving⟩ := unitClear_iff.mp hclear
  have hready : (byRequest s p g x && decide (x.requested < needReqs x (k + 1))) = false := by
    simpa using hmade
  have hdue : (!x.running || !contracted s p g stream x || x.group.isSome || decide (x.total ≤ k) || unitNever x k ||
      (byRequest s p g x && decide (x.requested < needReqs x (k + 1)))) = false := by
    rw [hrun, hcontract, hgroup, hkept, hready, decide_eq_false (Nat.not_le.mpr hleft)]
    rfl
  simp only [execUnitArrival, howner, hx, hk, hdue, Bool.false_eq_true, if_false, hstale, hmoving]

/-! ## Deposits (R71, R73, R175) -/

/-- The first unit that waits in the landing buffer is deposited, with or without contract time as its stream has it. -/
theorem depositNext_of_landed {s : State} {p g stream : Nat} {x : InStream} {u : Unit_} {rest : List Unit_} {free : Bool}
    (howner : cellOwner s g = some p) (hx : tget (cellOf s g).ins stream = some x) (hrun : x.running = true)
    (hleft : x.deposited < x.total) (hland : x.landing = u :: rest) (hcontract : contracted s p g stream x = !free) :
    depositNext s g stream free = putUnit s p g stream x u free := by
  have hdue : (!x.running || decide (x.total ≤ x.deposited)) = false := by
    rw [hrun, decide_eq_false (Nat.not_le.mpr hleft)]
    rfl
  have hkind : ¬ contracted s p g stream x = free := by
    rw [hcontract]
    exact Bool.not_ne_self free
  simp only [depositNext, howner, hx, hdue, Bool.false_eq_true, if_false, hkind, hland]

/-- A unit for the matrix array joins the rows its array reads (R71). -/
theorem putUnit_of_matrix {x : InStream} {u : Unit_} {rest : List Unit_} (hmatrix : x.matrix = true)
    (hland : x.landing = u :: rest) (hclean : u.poison = true → x.desc.xform = 0) (s : State) (p g stream : Nat) (free : Bool) :
    putUnit s p g stream x u free = modCell s g fun c =>
      { c with ins := tset c.ins stream { x with deposited := x.deposited + 1, landing := rest, fifo := x.fifo ++ [u] } } := by
  have hpass : ¬(u.poison = true ∧ x.desc.xform ≠ 0) := fun h => h.2 (hclean h.1)
  simp only [putUnit, hpass, if_false, hmatrix, if_true, hland, List.drop_one, List.tail_cons]

/-- A write by a cell of the die asks its bank ports and reaches the scratchpad. -/
theorem depositWrite_of_near {s : State} {p g w addr : Nat} {data : List Byte} (howner : cellOwner s g = some p)
    (hcleared : dieCleared s (g / 80) = true) (hfits : addr + data.length ≤ 2097152)
    (hclear : rangeClear s p 0 (moveAddr s p g 0 addr) data.length = true) (hnear : w / 80 = g / 80) (poison : Bool) :
    depositWrite s (some w) g addr data poison =
      scratchForeign (bankAsk s p g 3 (scratchWords (cellOf s g) false addr data.length)) g addr data poison := by
  obtain ⟨hover, hinto⟩ := rangeClear_iff.mp hclear
  simp [depositWrite, howner, Nat.not_lt.mpr hfits, hnear, hcleared, hinto, hover]

/-- A write by no cell reaches the scratchpad where its banks have a port left. -/
theorem depositWrite_of_none {s : State} {p g addr : Nat} {data : List Byte} (howner : cellOwner s g = some p)
    (hcleared : dieCleared s (g / 80) = true) (hfits : addr + data.length ≤ 2097152)
    (hclear : rangeClear s p 0 (moveAddr s p g 0 addr) data.length = true)
    (hports : ((scratchWords (cellOf s g) false addr data.length).any fun w => !portFree (cellOf s g) w) = false) (poison : Bool) :
    depositWrite s none g addr data poison = scratchForeign s g addr data poison := by
  obtain ⟨hover, hinto⟩ := rangeClear_iff.mp hclear
  simp only [depositWrite, howner, Option.any_none, Option.isSome_none, Bool.false_and, Bool.or_false, Nat.not_lt.mpr hfits,
    decide_false, Bool.false_eq_true, if_false, hcleared, Bool.not_true, hinto, Bool.not_false, Bool.true_and, hports, hover]

/-! ## Windows (R77, R79) -/

/-- A table of cells with the cells of a die changed. -/
theorem tget_map_die (cells : Tbl Cell) (die g : Nat) (f : Cell → Cell) :
    tget (cells.map fun e => if e.1 / 80 = die then (e.1, f e.2) else e) g =
      (tget cells g).map fun c => if g / 80 = die then f c else c := by
  rw [← tget_map cells (fun k c => if k / 80 = die then f c else c)]
  congr 1
  refine List.map_congr_left fun e _ => ?_
  split <;> rfl

/-- The part as a die's cells start the counts of their requests again. -/
def windowStarted (s : State) (die : Nat) : State :=
  { s with cells := s.cells.map fun e => if e.1 / 80 = die then (e.1, { e.2 with paced := [] }) else e }

theorem execPacingWindow_eq (s : State) (die : Nat) : execPacingWindow die s = .next (windowStarted s die) := rfl

/-- Only the cells of the window's die count their requests anew. -/
theorem pacedOf_windowStarted (s : State) (die g stream : Nat) :
    pacedOf (cellOf (windowStarted s die) g) stream = if g / 80 = die then 0 else pacedOf (cellOf s g) stream := by
  have hcell := tget_map_die s.cells die g fun c => { c with paced := [] }
  simp only [cellOf, windowStarted, hcell]
  cases tget s.cells g with
  | none => split <;> rfl
  | some c =>
    simp only [Option.map_some, Option.getD_some]
    split <;> rfl

/-- Settles O26, one rule above per clause. -/
theorem streamData : Obligations.StreamData := by
  unfold Obligations.StreamData
  refine ⟨?request, ?arrival, ?deposit, ?write,
    fun s die => ⟨_, execPacingWindow_eq s die, pacedOf_windowStarted s die⟩, fun s md => rfl⟩
  case request =>
    intro s p g stream x0 howner hx0 c x paced hrun hspace hgroup hleft hroom hheld hbudget k d
    have hexec := execFarRequestIssue_of_due howner hx0 rfl ⟨hrun, hspace, hgroup, hleft, hroom, hheld, hbudget⟩
    refine ⟨fun hfree => hexec.trans (if_pos hfree), fun hfull => hexec.trans (if_neg ?_)⟩
    exact Bool.eq_false_iff.mp hfull
  case arrival =>
    intro s p g stream x howner hx k hrun hcontract hgroup hleft hkept hmade hclear
    exact execUnitArrival_of_due howner hx rfl hrun hcontract hgroup hleft hkept hmade hclear
  case deposit =>
    intro s p g stream x u rest howner hx hrun hleft hland
    exact ⟨fun hc => congrArg _ (depositNext_of_landed (free := false) howner hx hrun hleft hland hc),
      fun hc => congrArg _ (depositNext_of_landed (free := true) howner hx hrun hleft hland hc),
      fun hmatrix hclean free => putUnit_of_matrix hmatrix hland hclean s p g stream free⟩
  case write =>
    intro s p g addr data poison howner hcleared hfits hclear ws
    exact ⟨fun w hnear => congrArg _ (depositWrite_of_near howner hcleared hfits hclear hnear poison),
      fun hports => congrArg _ (depositWrite_of_none howner hcleared hfits hclear hports poison)⟩

end Sys2Proof.Machine

/-! # Proofs: semaphores -/

namespace Sys2Proof.Machine

/-! ## Jobs and their semaphores (R85) -/

theorem job_modJob (s : State) (p : Nat) (f : Job → Job) : (partOf (modJob s p f) p).job = (partOf s p).job.map f := by
  rw [modJob, partOf_modPart_self]

/-- A change of the job that leaves its semaphores leaves their counts. -/
theorem semCount_modJob {f : Job → Job} (hf : ∀ j, (f j).sems = j.sems) (s : State) (p sem : Nat) :
    semCount (modJob s p f) p sem = semCount s p sem := by
  simp only [semCount, job_modJob, Option.bind_map, Function.comp_def, hf]

/-! ## Increments (R86) -/

/-- An increment that keeps the count within 16 bits is added at the home. -/
theorem addSem_of_fits {s : State} {p sem count : Nat} (h : semCount s p sem + count ≤ 65535) (cell : Option Nat) :
    addSem s p sem count cell = modJob s p fun j => { j with sems := tset j.sems sem (semCount s p sem + count) } := by
  simp only [addSem, Nat.not_lt.mpr h, if_false]

/-- The part after an increment has left its way: across the fabric, where it has a port to cross. -/
def crossed (s : State) : Option (Nat × Nat) → State
  | some e => fabricPut s { src := e.1, dst := e.2, cls := Traffic.semaphore.cls }
  | none => s

/-- A packet in the fabric is nothing to the partitions. -/
theorem partOf_crossed (s : State) (port : Option (Nat × Nat)) (p : Nat) : partOf (crossed s port) p = partOf s p := by
  cases port <;> rfl

/-- The first increment whose signaller's writes are visible is added at its home, where the fabric has credit for it. -/
theorem execSemIncrementRelease_of_visible {s : State} {p sem : Nat} {j : Job} {i : Inc} {rest : List Inc}
    (hjob : (partOf s p).job = some j) (hfirst : takeFirst (fun i => i.sem == sem && writesVisible s p i) j.incs = some (i, rest))
    (hdone : i.done = false) (hfits : semCount s p sem + i.count ≤ 65535)
    (hcredit : ∀ e, incPort s p i = some e → fabricFree s.fabric e.1 e.2 Traffic.semaphore.cls 64 = true) :
    execSemIncrementRelease p sem s =
      .next (modJob (modJob (crossed s (incPort s p i)) p fun j => { j with incs := rest }) p fun j =>
        { j with sems := tset j.sems sem (semCount s p sem + i.count) }) := by
  have hgoes : ((incPort s p i).any fun e => !fabricFree s.fabric e.1 e.2 Traffic.semaphore.cls 64) = false := by
    cases hport : incPort s p i with
    | none => rfl
    | some e => rw [Option.any_some, hcredit e hport]; rfl
  have hcount : semCount (modJob (crossed s (incPort s p i)) p fun j => { j with incs := rest }) p sem = semCount s p sem := by
    rw [semCount_modJob ?sems, semCount, partOf_crossed, semCount]
    exact fun _ => rfl
  have hadd := addSem_of_fits (s := modJob (crossed s (incPort s p i)) p fun j => { j with incs := rest }) (p := p) (sem := sem)
    (count := i.count) (by rw [hcount]; exact hfits) i.cell
  rw [hcount] at hadd
  simp only [execSemIncrementRelease, hjob, hfirst, hgoes, Bool.false_eq_true, if_false, hdone, Bool.false_and]
  exact congrArg _ hadd

/-- A signal of a unit of the part for the running job is on its way. -/
theorem signalSem_of_running {s : State} {p seq : Nat} {j : Job} (hjob : (partOf s p).job = some j) (hseq : j.seq = seq)
    (sem count : Nat) (done : Bool) : signalSem s p seq sem count done = modJob s p fun j =>
      { j with incs := j.incs ++ [⟨none, seq, sem, count, done, []⟩] } := by
  simp only [signalSem, hjob, Option.any_some, hseq, decide_true, if_true]

/-! ## Grants and time-outs (R87, R90) -/

/-- The first wait queued at a semaphore that counts ends, after a free number of CCLK. -/
theorem execSemGrant_of_first {s : State} {p sem : Nat} {j : Job} {w : Nat × Nat} {rest : List (Nat × Nat)}
    (hjob : (partOf s p).job = some j) (hfirst : takeFirst (fun w => w.1 == sem) j.waiters = some (w, rest))
    (hcount : 1 ≤ semCount s p sem) :
    execSemGrant p sem s =
      .next (endWait { (modJob (semTake s p sem) p fun j => { j with waiters := rest }) with fresh := s.fresh + 1 } w.2
        (Config.freeValue s.fresh) 4) := by
  have hzero : semCount s p sem ≠ 0 := Nat.ne_of_gt hcount
  simp only [execSemGrant, hjob, hfirst, hzero, if_false]
  rfl

/-- A wait held too long ends the job, and names its semaphore. -/
theorem execSemTimeout_of_wait {s : State} {p g sem : Nat} (howner : cellOwner s g = some p)
    (hon : latched s p (Ad.partSemTimeoutUs p) ≠ 0)
    (hwait : (cellOf s g).seq.status = .waitSem sem ∨ (cellOf s g).seq.status = .waitPred sem) :
    execSemTimeout g s = .next (cellErr s g .semTimeout sem false) := by
  rcases hwait with hwait | hwait <;> simp only [execSemTimeout, howner, hon, if_false, hwait]

/-! ## Forced merges (R66) -/

/-- An entry whose count is full is merged into its slot and leaves the cell. -/
theorem execAmaxCountMerge_of_full {s : State} {g slot : Nat} {e : Amax}
    (hfind : (cellOf s g).amax.find? (fun e => e.slot = slot) = some e) (hfull : e.full = true) :
    execAmaxCountMerge g slot s =
      .next (modCell (mergeEntry s g e) g fun x => { x with amax := x.amax.filter fun y => y.slot != slot }) := by
  simp only [execAmaxCountMerge, hfind, hfull, if_true]

/-- Settles O27, one rule above per row. -/
theorem semaphores : Obligations.Semaphores := by
  unfold Obligations.Semaphores
  refine ⟨?increment, fun s p sem g j rest hjob hfirst hcount => execSemGrant_of_first (w := (sem, g)) hjob hfirst hcount,
    fun s p g sem howner hon hwait => execSemTimeout_of_wait howner hon hwait,
    fun s p seq cnt sem j hjob hseq => congrArg _ (signalSem_of_running hjob hseq (sem % 256) (cnt % 256 + 1) false),
    fun s g slot e hfind hfull => execAmaxCountMerge_of_full hfind hfull⟩
  case increment =>
    intro s p sem j i rest hjob hfirst hdone hfits added
    have hexec := execSemIncrementRelease_of_visible hjob hfirst hdone hfits
    refine ⟨fun hport => ?home, fun src dst hport hfree => ?far⟩
    case home =>
      rw [hport] at hexec
      exact hexec nofun
    case far =>
      rw [hport] at hexec
      exact hexec fun e he => Option.some.inj he ▸ hfree

end Sys2Proof.Machine

/-! # Proofs: the ends of fences, and shadows -/

namespace Sys2Proof.Machine

/-! ## FENCE (R89) -/

/-- A fence whose read streams have deposited, whose writes are made and whose write streams have drained ends. -/
theorem execFenceComplete_of_met {s : State} {p g : Nat} (howner : cellOwner s g = some p)
    (hwait : (cellOf s g).seq.status = .waitFence) (hmet : fenceMet s p g = true)
    (hstill : (cellOf (drainOut s g) g).seq.status = .waitFence) (hmade : writeHeld (drainOut s g) p g = false)
    (hdrained : outsDone (drainOut s g) g = true) (cycles : Nat) :
    execFenceComplete g cycles s = .next (endWait (drainOut s g) g cycles 2) := by
  have hover : (cellOf (drainOut s g) g).seq.status = .waitFence ∧ (!writeHeld (drainOut s g) p g) = true ∧
    outsDone (drainOut s g) g = true := ⟨hstill, by rw [hmade]; rfl, hdrained⟩
  simp only [execFenceComplete, howner]
  rw [if_pos ⟨hwait, hmet⟩, if_pos hover]

/-! ## The predicate fence, by the count of its semaphore (R95) -/

section
variable {s : State} {p g sem : Nat} (howner : cellOwner s g = some p) (hwait : (cellOf s g).seq.status = .waitPred sem)
include howner hwait

/-- On a count of 1 the shadows of the predicate are committed, once no unit or write is still bound for them. -/
theorem execPredicateResolve_of_one (hcount : semCount s p sem = 1)
    (hfree : ∀ e ∈ tagged (cellOf s g) sem, (e.2.space = 0 → boundFor (cellOf s g) e.2.page false = false) ∧
      ∀ x ∈ (cellOf s g).outs, writesTo x.2 e.2.space e.2.page = false) :
    let t := commitAmax ((tagged (cellOf s g) sem).foldl (fun t e => commitOne t p g e) s) g sem
    execPredicateResolve g s = .next (endWait { t with fresh := t.fresh + 1 } g (Config.freeValue t.fresh) 6) := by
  have hbound : ((tagged (cellOf s g) sem).any fun e => (decide (e.2.space = 0) && boundFor (cellOf s g) e.2.page false) ||
      (cellOf s g).outs.any fun x => writesTo x.2 e.2.space e.2.page) = false := by
    refine List.any_eq_false.mpr fun e he => ?_
    obtain ⟨hunits, hwrites⟩ := hfree e he
    simpa using ⟨hunits, fun n x hx => hwrites (n, x) hx⟩
  simp only [execPredicateResolve, howner, hwait, hcount, hbound, Bool.false_eq_true, if_false]
  rfl

/-- On a count of 2 they are squashed. -/
theorem execPredicateResolve_of_two (hcount : semCount s p sem = 2) :
    let t := modCell ((tagged (cellOf s g) sem).foldl (fun t e => squashOne t p g e) s) g fun c =>
      { c with spec := c.spec.filter fun x => x.pred ≠ sem }
    execPredicateResolve g s = .next (endWait { t with fresh := t.fresh + 1 } g (Config.freeValue t.fresh) 4) := by
  simp only [execPredicateResolve, howner, hwait, hcount]
  rfl

/-- A count above 2 is an error. -/
theorem execPredicateResolve_of_more (hcount : 3 ≤ semCount s p sem) :
    execPredicateResolve g s = .next (cellErr s g .predicateInvalid sem false) := by
  obtain ⟨n, hn⟩ := Nat.exists_eq_add_of_le' hcount
  simp only [execPredicateResolve, howner, hwait, hn]

end

/-- Settles O28: the fence, and the predicate fence by its semaphore's count. -/
theorem fencesEnd : Obligations.FencesEnd := by
  unfold Obligations.FencesEnd
  refine ⟨fun s p g cycles howner hwait hmet hstill hmade hdrained =>
    execFenceComplete_of_met howner hwait hmet hstill hmade hdrained cycles, fun s p g sem howner hwait => ?_⟩
  exact ⟨fun hcount hfree => execPredicateResolve_of_one howner hwait hcount hfree,
    fun hcount => execPredicateResolve_of_two howner hwait hcount,
    fun hcount => execPredicateResolve_of_more howner hwait hcount⟩

/-! ## Shadows and their frames (R92, R95) -/

/-- A shadow opens on the frame longest free of its space (log 20). -/
theorem execShadowOpen_of_free {s : State} {p g space page : Nat} {f : Nat × Nat} {rest : List (Nat × Nat)}
    (howner : cellOwner s g = some p) (hfree : shadowBusy s g space page = false)
    (hfirst : takeFirst (fun f => f.1 == space) (cellOf s g).freeFrames = some (f, rest)) (pred : Nat) :
    let x : Shadow := { state := 1, space := space, pred := pred, frame := f.2, page := page }
    execShadowOpen g space page pred s = .next (setCell s g
      { cellOf s g with freeFrames := rest, shadows := tset (cellOf s g).shadows (freeEntry (cellOf s g)) x }) := by
  simp only [execShadowOpen, howner, hfree, Bool.false_eq_true, if_false, hfirst]

/-- The open is refused where shadowing is busy. -/
theorem execShadowOpen_of_busy {s : State} {p g space page : Nat} (howner : cellOwner s g = some p)
    (hbusy : shadowBusy s g space page = true) (pred : Nat) :
    execShadowOpen g space page pred s = .next (emit s (.shadowBusy g)) := by
  simp only [execShadowOpen, howner, hbusy, if_true]

/-- A frame that waited for its reads is free. -/
theorem execFrameFreed_of_busy {s : State} {g space frame : Nat} (hbusy : (space, frame) ∈ (cellOf s g).busyFrames) :
    execFrameFreed g space frame s = .next (setCell s g
      { cellOf s g with busyFrames := (cellOf s g).busyFrames.filter (· != (space, frame)),
                        freeFrames := (cellOf s g).freeFrames ++ [(space, frame)] }) := by
  simp only [execFrameFreed, List.contains_iff_mem.mpr hbusy, if_true]

/-- A draining frame that no unit in flight is bound for is free. -/
theorem execShadowDrained_of_unbound {s : State} {g space frame : Nat} {e : Nat × Shadow}
    (hfind : (cellOf s g).shadows.find? (fun e => e.2.state = 2 && e.2.space = space && e.2.frame = frame) = some e)
    (hunbound : space = 0 → boundFor (cellOf s g) e.2.page true = false) :
    execShadowDrained g space frame s = .next (setCell s g
      { cellOf s g with shadows := tdel (cellOf s g).shadows e.1,
                        freeFrames := (cellOf s g).freeFrames ++ [(space, frame)] }) := by
  have hdrained : ¬(space = 0 ∧ boundFor (cellOf s g) e.2.page true = true) := fun h =>
    Bool.false_ne_true ((hunbound h.1).symm.trans h.2)
  simp only [execShadowDrained, hfind, hdrained, if_false]

/-- Settles O29, one rule above per clause. -/
theorem shadows : Obligations.Shadows := by
  unfold Obligations.Shadows
  exact ⟨fun s p g space page pred f rest howner hfree hfirst => execShadowOpen_of_free howner hfree hfirst pred,
    fun s p g space page pred howner hbusy => execShadowOpen_of_busy howner hbusy pred,
    fun s g space frame hbusy => execFrameFreed_of_busy hbusy,
    fun s g space frame e hfind hunbound => execShadowDrained_of_unbound hfind hunbound⟩

end Sys2Proof.Machine

/-! # Proofs: broadcast groups and the completion tree -/

namespace Sys2Proof.Machine

/-! ## A group's next unit issues (R114, R115) -/

/-- A broadcast group whose next unit can be issued: its members have started and have landing space for the unit, and no move
holds the unit of its leader's stream back. -/
structure GroupReady (s : State) (p die grp : Nat) (x : BGroup) (g stream : Nat) (l : InStream) : Prop where
  owner : dieOwner s die = some p
  group : tget (dieOf s die).groups grp = some x
  lead : groupLead x = some (g, stream, l)
  started : x.bcount ≤ x.members.length
  left : x.issued < l.total
  clear : unitClear s p g l x.issued = true
  room : ∀ m ∈ x.members, groupMember s grp m = true →
    landingUsed (cellOf s m.1) + 64 * (needReqs l (x.issued + 1) - needReqs l x.issued) ≤ 65536

/-- The requests of a group's next unit that its leader's budget of the window still allows (R77). -/
def requestsLeft (s : State) (g stream : Nat) (x : BGroup) (l : InStream) : Nat :=
  min (needReqs l (x.issued + 1) - x.requested) ((cellOf s g).seq.budgets.getD stream 0 - pacedOf (cellOf s g) stream)

/-- The part as a stream has drawn `n` requests on its budget. -/
def drawn (s : State) (g stream n : Nat) : State :=
  setCell s g { cellOf s g with paced := tset (cellOf s g).paced stream (pacedOf (cellOf s g) stream + n) }

/-- The Stratus channel of a group's next unit. -/
def groupChannel (s : State) (die g : Nat) (x : BGroup) (l : InStream) : Nat :=
  stratusChannel (stratusPhys s die (some g) (nextAddr (groupStream x l) % 2 ^ 29))

section
variable {s : State} {p die grp g stream : Nat} {x : BGroup} {l : InStream}

/-- A unit that can be issued: far-tier data by its leader's budget, its own die's Stratus by a grant, all else at once. -/
theorem execBcastUnitIssue_of_ready (h : GroupReady s p die grp x g stream l) :
    let budget := (cellOf s g).seq.budgets.getD stream 0
    let need := needReqs l (x.issued + 1)
    let n := if budget = 0 then need - x.requested else requestsLeft s g stream x l
    let s1 := if budget = 0 then s else drawn s g stream n
    execBcastUnitIssue die grp s =
      if l.desc.space = 2 then
        if need ≤ x.requested + n then .next (bcastDeliver s1 p die grp x (g, stream, l))
        else .next (modDie s1 die fun d => { d with groups := tset d.groups grp { x with requested := x.requested + n } })
      else if !ownStratus s p g l then .next (bcastDeliver s p die grp x (g, stream, l))
      else if (dieOf s die).ungranted.any fun u => u.cell == g % 80 then .next s
      else if grantable (dieOf s die) (groupChannel s die g x l) then
        .next (bcastDeliver (modDie s die fun d => grantOne d (groupChannel s die g x l)) p die grp x (g, stream, l))
      else .next (modDie s die fun d =>
        { d with ungranted := d.ungranted ++ [⟨g % 80, false, true, grp, groupChannel s die g x l⟩] }) := by
  obtain ⟨howner, hgroup, hlead, hstarted, hleft, hclear, hroom⟩ := h
  obtain ⟨hstale, hmoving⟩ := unitClear_iff.mp hclear
  have hspace : ((x.members.filter (groupMember s grp)).all fun m => decide
      (landingUsed (cellOf s m.1) + 64 * (needReqs l (x.issued + 1) - needReqs l x.issued) ≤ 65536)) = true := by
    refine List.all_eq_true.mpr fun m hm => decide_eq_true ?_
    obtain ⟨hmem, hruns⟩ := List.mem_filter.mp hm
    exact hroom m hmem hruns
  have hpass : ¬(x.members.length < x.bcount ∨ l.total ≤ x.issued ∨ (!true) = true) := by
    simp only [Bool.not_true, Bool.false_eq_true, or_false]
    omega
  intro budget need n s1
  simp only [execBcastUnitIssue, hgroup, howner, hlead, hspace, hpass, if_false, hstale, hmoving, Bool.false_eq_true]
  rfl

/-- Far-tier data without a budget goes at once. -/
theorem execBcastUnitIssue_of_far (h : GroupReady s p die grp x g stream l) (hfar : l.desc.space = 2)
    (hbudget : (cellOf s g).seq.budgets.getD stream 0 = 0) :
    execBcastUnitIssue die grp s = .next (bcastDeliver s p die grp x (g, stream, l)) := by
  have hall : needReqs l (x.issued + 1) ≤ x.requested + (needReqs l (x.issued + 1) - x.requested) := by omega
  have hexec := execBcastUnitIssue_of_ready h
  simp only [hfar, hbudget, if_true, hall] at hexec
  exact hexec

/-- With a budget the unit goes once all its requests are made, and else the requests that the window allows are. -/
theorem execBcastUnitIssue_of_budget (h : GroupReady s p die grp x g stream l) (hfar : l.desc.space = 2)
    (hbudget : (cellOf s g).seq.budgets.getD stream 0 ≠ 0) :
    let n := requestsLeft s g stream x l
    let s1 := drawn s g stream n
    execBcastUnitIssue die grp s =
      if needReqs l (x.issued + 1) ≤ x.requested + n then .next (bcastDeliver s1 p die grp x (g, stream, l))
      else .next (modDie s1 die fun d => { d with groups := tset d.groups grp { x with requested := x.requested + n } }) := by
  have hexec := execBcastUnitIssue_of_ready h
  simp only [hfar, hbudget, if_true, if_false] at hexec
  exact hexec

/-- Data of a space other than the far tier and the die's own Stratus goes at once. -/
theorem execBcastUnitIssue_of_other (h : GroupReady s p die grp x g stream l) (hfar : l.desc.space ≠ 2)
    (hother : ownStratus s p g l = false) :
    execBcastUnitIssue die grp s = .next (bcastDeliver s p die grp x (g, stream, l)) := by
  have hexec := execBcastUnitIssue_of_ready h
  simp only [hfar, if_false, hother, Bool.not_false, if_true] at hexec
  exact hexec

/-- Data of the die's own Stratus takes a grant of the die. -/
theorem execBcastUnitIssue_of_stratus (h : GroupReady s p die grp x g stream l) (hfar : l.desc.space ≠ 2)
    (hown : ownStratus s p g l = true) (hwait : ((dieOf s die).ungranted.any fun u => u.cell == g % 80) = false)
    (hgrant : grantable (dieOf s die) (groupChannel s die g x l) = true) :
    execBcastUnitIssue die grp s =
      .next (bcastDeliver (modDie s die fun d => grantOne d (groupChannel s die g x l)) p die grp x (g, stream, l)) := by
  have hexec := execBcastUnitIssue_of_ready h
  simp only [hfar, if_false, hown, Bool.not_true, Bool.false_eq_true, hwait, hgrant, if_true] at hexec
  exact hexec

end

/-! ## The unit at its members (R115) -/

/-- A member's cell takes a unit of its leader's stream, with the leader's tile and the unit's `n` requests (log 152). -/
def takeUnit (l : InStream) (n : Nat) (u : Unit_) (stream : Nat) (c : Cell) : Cell :=
  match tget c.ins stream with
  | some y =>
    { c with
      ins := tset c.ins stream
        { y with tile := l.tile, requested := y.requested + n, landing := y.landing ++ [u] } }
  | none => c

/-- The part as members in turn have taken a unit. -/
def takeUnits (l : InStream) (n : Nat) (u : Unit_) (ms : List (Nat × Nat)) (s : State) : State :=
  ms.foldl (fun t m => modCell t m.1 (takeUnit l n u m.2)) s

/-- The stream that takes the unit has it at the end of its landing buffer. -/
theorem landing_takeUnit {c : Cell} {stream : Nat} {y : InStream} (hy : tget c.ins stream = some y) (l : InStream) (n : Nat)
    (u : Unit_) : (tget (takeUnit l n u stream c).ins stream).map InStream.landing = some (y.landing ++ [u]) := by
  simp only [takeUnit, hy, tget_tset_self, Option.map_some]

/-- Another member's unit leaves a member's stream as it was. -/
theorem tget_ins_modCell_takeUnit {m m' : Nat × Nat} (hne : m ≠ m') (s : State) (l : InStream) (n : Nat) (u : Unit_) :
    tget (cellOf (modCell s m'.1 (takeUnit l n u m'.2)) m.1).ins m.2 = tget (cellOf s m.1).ins m.2 := by
  by_cases hcell : m.1 = m'.1
  · have hstream : m.2 ≠ m'.2 := fun h => hne (Prod.ext hcell h)
    rw [hcell, cellOf_modCell_self, takeUnit]
    split
    · exact tget_tset_ne _ _ hstream
    · rfl
  · rw [cellOf_modCell_ne _ _ hcell]

theorem tget_ins_takeUnits_of_not_mem {m : Nat × Nat} {ms : List (Nat × Nat)} (hm : m ∉ ms) (s : State) (l : InStream) (n : Nat)
    (u : Unit_) : tget (cellOf (takeUnits l n u ms s) m.1).ins m.2 = tget (cellOf s m.1).ins m.2 := by
  induction ms generalizing s with
  | nil => rfl
  | cons m' ms ih =>
    have hother := tget_ins_modCell_takeUnit (List.ne_of_not_mem_cons hm) s l n u
    exact (ih (List.not_mem_of_not_mem_cons hm) _).trans hother

/-- Every member that is named once has the unit at the end of its landing buffer. -/
theorem landing_takeUnits {m : Nat × Nat} {ms : List (Nat × Nat)} {s : State} {y : InStream} (hms : ms.Nodup) (hm : m ∈ ms)
    (hy : tget (cellOf s m.1).ins m.2 = some y) (l : InStream) (n : Nat) (u : Unit_) :
    (tget (cellOf (takeUnits l n u ms s) m.1).ins m.2).map InStream.landing = some (y.landing ++ [u]) := by
  induction ms generalizing s with
  | nil => exact absurd hm List.not_mem_nil
  | cons m' ms ih =>
    obtain ⟨hfirst, hrest⟩ := List.nodup_cons.mp hms
    rcases List.mem_cons.mp hm with rfl | hlater
    · have hcell := tget_ins_takeUnits_of_not_mem hfirst (modCell s m.1 (takeUnit l n u m.2)) l n u
      rw [takeUnits, List.foldl_cons, ← takeUnits, hcell, cellOf_modCell_self]
      exact landing_takeUnit hy l n u
    · have hne : m ≠ m' := fun h => hfirst (h ▸ hlater)
      exact ih hrest hlater ((tget_ins_modCell_takeUnit hne s l n u).trans hy)

/-- What the delivery of a unit leaves in the cells: the checks of its reads, and the unit at the members that run. -/
theorem cellOf_bcastDeliver (s : State) (p die grp : Nat) (x : BGroup) (g stream : Nat) (l : InStream) (k : Nat) :
    let s1 := readChecks (readEffects s p l x.issued (decide ((cellOf s g).seq.budgets.getD stream 0 ≠ 0))) p g l x.issued
    cellOf (bcastDeliver s p die grp x (g, stream, l)) k =
      cellOf (takeUnits l (needReqs l (x.issued + 1) - needReqs l x.issued) (unitOf s p g l x.issued)
        (x.members.filter (groupMember s grp)) s1) k := rfl

/-! ## Time-outs and the completion tree (R98, R116) -/

/-- A group whose first unit lacks a member past the time-out ends the job. -/
theorem execTileBcastTimeout_of_lacking {s : State} {p die grp : Nat} {x : BGroup} (howner : dieOwner s die = some p)
    (hgroup : tget (dieOf s die).groups grp = some x) (hon : latched s p (Ad.partSemTimeoutUs p) ≠ 0) (hfirst : x.issued = 0)
    (hlacks : x.members.length < x.bcount) :
    execTileBcastTimeout die grp s = .next (cellErr s (x.members.headD (80 * die, 0)).1 .tileBcastTimeout grp false) := by
  simp only [execTileBcastTimeout, hgroup, howner]
  exact if_pos ⟨hon, hfirst, hlacks⟩

/-- A die whose cells have all raised their done inputs gives its tree's output. -/
theorem execDieTreeOutput_of_done {s : State} {die : Nat}
    (hdone : ∀ c, c < 80 → (cellOf s (80 * die + c)).seq.doneInput = true) :
    execDieTreeOutput die s = .next (modDie s die fun d => { d with treeDone := true }) :=
  if_pos (List.all_eq_true.mpr fun c hc => hdone c (List.mem_range.mp hc))

/-- Settles O30: the next unit by its space and budget, its delivery member by member, the time-out and the tree. -/
theorem broadcastAndDone : Obligations.BroadcastAndDone := by
  unfold Obligations.BroadcastAndDone
  refine ⟨?issue, ?deliver, fun s p die grp x howner hgroup hon hfirst hlacks =>
    execTileBcastTimeout_of_lacking howner hgroup hon hfirst hlacks, fun s die hdone => execDieTreeOutput_of_done hdone⟩
  case issue =>
    intro s p die grp g stream x l howner hgroup hlead hstarted hleft hclear need hroom gives budget used
    have hready : GroupReady s p die grp x g stream l := ⟨howner, hgroup, hlead, hstarted, hleft, hclear, hroom⟩
    refine ⟨fun hfar hzero => execBcastUnitIssue_of_far hready hfar hzero, fun hfar hbudget => ?budgeted,
      fun hfar hother => execBcastUnitIssue_of_other hready hfar hother,
      fun hfar hown hwait hgrant => execBcastUnitIssue_of_stratus hready hfar hown hwait hgrant⟩
    have hexec := execBcastUnitIssue_of_budget hready hfar hbudget
    exact ⟨fun hall => hexec.trans (if_pos hall), fun hsome => hexec.trans (if_neg (Nat.not_le.mpr hsome))⟩
  case deliver =>
    intro s p die grp g stream x l y m hnodup hm s1 hruns hy
    rw [cellOf_bcastDeliver]
    exact landing_takeUnits (hnodup.filter _) (List.mem_filter.mpr ⟨hm, hruns⟩) hy l _ _

end Sys2Proof.Machine

/-! # Proofs: page walks of the control core -/

namespace Sys2Proof.Machine

/-! ## Starts of walks (R145, R149) -/

/-- A free walk of a control core takes a descriptor that is valid, and one that is not ends the job. -/
theorem execWalkStart_of_free {s : State} {p k i : Nat} {j : Job} (hjob : (partOf s p).job = some j)
    (hfree : freeWalk (partOf s p) k = some i) (hdie : k < (partOf s p).dies.length) (desc : List Byte) :
    execWalkStart p k desc s =
      if walkInvalid s p (Walk.ofBytes k desc) desc then .next (coreErrAt s p k .kvPageInvalid (Walk.ofBytes k desc).table)
      else .next (modPart s p fun q => { q with walks := tset q.walks i (Walk.ofBytes k desc) }) := by
  simp only [execWalkStart, hjob, hfree, Nat.not_le.mpr hdie, if_false]

/-! ## Entries fetched ahead (R144, R148) -/

/-- The address of the first entry of a walk's table that is not yet fetched. -/
def nextEntry (x : Walk) : Nat := spaceAddr 2 x.table + 16 * (x.next + x.fetched.length)

/-- The 32 B reads that hold the next `m` entries of a walk's table. -/
def entryReads (x : Walk) (m : Nat) : List Nat :=
  (List.range ((nextEntry x + 16 * m - 1) / 32 - nextEntry x / 32 + 1)).map (nextEntry x / 32 + ·)

/-- Entries that nothing holds back are read in pairs and kept with the walk. -/
theorem execWalkEntryFetch_of_clear {s : State} {p w n : Nat} {x : Walk} (hwalk : tget (partOf s p).walks w = some x)
    (hclear : rangeClear s p 2 (nextEntry x) (16 * walkFetch x n) = true)
    (hmaint : maintRuns s p (nextEntry x) (16 * walkFetch x n) = false) (hsome : 0 < walkFetch x n) :
    execWalkEntryFetch p w n s =
      .next (modPart ((entryReads x (walkFetch x n)).foldl (fun t u => farRead t p (32 * u) 32 3) s) p fun q =>
        { q with walks := tset q.walks w { x with
            fetched := x.fetched ++ (List.range (walkFetch x n)).map fun i => farView s p (nextEntry x + 16 * i) 16 } }) := by
  obtain ⟨hover, hinto⟩ := rangeClear_iff.mp hclear
  rw [nextEntry] at hover hinto hmaint
  simp only [execWalkEntryFetch, hwalk, hover, Option.filter_none, hinto, hmaint, Bool.or_self, Bool.false_eq_true, if_false,
    Nat.ne_of_gt hsome]
  rfl

/-! ## Slots filled (R145 to R149) -/

/-- A walk whose next slot can be filled: no move holds the slot's range, and FREE counts where the ring has come round. -/
structure SlotReady (s : State) (p w : Nat) (x : Walk) : Prop where
  walk : tget (partOf s p).walks w = some x
  clear : rangeClear s p 0 (moveAddr s p (walkCell s p x) 0 (slotAddr x)) 2048 = true
  free : x.nslot ≤ x.next → 1 ≤ semCount s p x.free

/-- The part once a slot's FREE is taken, where the ring has come round. -/
def slotTaken (s : State) (p : Nat) (x : Walk) : State := if x.nslot ≤ x.next then semTake s p x.free else s

/-- The key marks of a page table entry: its segment for its tokens, and past them the mark of no key. -/
def entryMarks (e : PageEnt) : List Nat := (List.range 64).map fun t => if t < e.count then e.seg else 0x00010000

/-- The key orders of a page table entry. -/
def entryOrders (e : PageEnt) : List Nat := (List.range 64).map fun t => if e.step then (e.first + t) % 2 ^ 32 else e.first

/-- The entry that stands for a walk's null page: one far-tier token of format 2. -/
def nullEntry (x : Walk) : PageEnt := ⟨true, 2, 2, false, 1, 0, 0, x.nullPage % 2 ^ 48⟩

/-- The order vector of a null page is a free value. -/
def nullOrders (s : State) : List Nat := (List.range 64).map fun t => Config.freeValue s.fresh / 2 ^ (32 * t) % 2 ^ 32

section
variable {s : State} {p w : Nat} {x : Walk}

/-- FREE does not hold a ready slot back. -/
theorem SlotReady.not_waiting (h : SlotReady s p w x) : ¬(x.nslot ≤ x.next ∧ semCount s p x.free = 0) :=
  fun ⟨hagain, hzero⟩ => Nat.ne_of_gt (h.free hagain) hzero

/-- A ready slot within the count is filled from the first entry fetched. -/
theorem execWalkSlotFill_of_entry (h : SlotReady s p w x) {bs : List Byte} {rest : List (List Byte × Bool)}
    (hleft : x.next < x.count) (hfetched : x.fetched = (bs, false) :: rest)
    (hvalid : pageInvalid s p x.d (PageEnt.ofBytes bs) = false) :
    let e := PageEnt.ofBytes bs
    execWalkSlotFill p w s = .next (emitSlot (slotTaken s p x) p w x e (entryMarks e) (entryOrders e) false) := by
  obtain ⟨hover, hinto⟩ := rangeClear_iff.mp h.clear
  simp only [execWalkSlotFill, h.walk, decide_eq_true_eq, h.not_waiting, hover, hinto, Option.any_none, Option.isSome_none,
    Bool.false_eq_true, or_self, if_false, Nat.not_le.mpr hleft, hfetched, hvalid]
  rfl

/-- A ready slot past the count is filled with the null page. -/
theorem execWalkSlotFill_of_null (h : SlotReady s p w x) (hpast : x.count ≤ x.next) :
    execWalkSlotFill p w s =
      .next (emitSlot (slotTaken { s with fresh := s.fresh + 1 } p x) p w x (nullEntry x) (List.replicate 64 0x00010000)
        (nullOrders s) true) := by
  obtain ⟨hover, hinto⟩ := rangeClear_iff.mp h.clear
  simp only [execWalkSlotFill, h.walk, decide_eq_true_eq, h.not_waiting, hover, hinto, Option.any_none, Option.isSome_none,
    Bool.false_eq_true, or_self, if_false, hpast, if_true]
  rfl

end

/-- Settles O31: the start by the descriptor's check, the fetch, and the slot within the count and past it. -/
theorem walks : Obligations.Walks := by
  unfold Obligations.Walks
  refine ⟨?start, fun s p w n x hwalk => execWalkEntryFetch_of_clear hwalk, ?fill⟩
  case start =>
    intro s p k i desc j hjob hfree hdie w
    have hexec := execWalkStart_of_free hjob hfree hdie desc
    exact ⟨fun hvalid => hexec.trans (if_neg (Bool.eq_false_iff.mp hvalid)), fun hbad => hexec.trans (if_pos hbad)⟩
  case fill =>
    intro s p w x hwalk hclear hfree take
    have hready : SlotReady s p w x := ⟨hwalk, hclear, hfree⟩
    exact ⟨fun bs rest hleft hfetched hvalid => execWalkSlotFill_of_entry hready hleft hfetched hvalid,
      fun hpast => execWalkSlotFill_of_null hready hpast⟩

end Sys2Proof.Machine

/-! # Proofs: banks, Stratus grants and die clears -/

namespace Sys2Proof.Machine

/-! ## Scratchpad banks (R158, R163) -/

/-- A cell of a running die makes the bank requests it lost again. -/
theorem execBankRetry_of_losers {s : State} {p g : Nat} (howner : cellOwner s g = some p)
    (hrun : (dieOf s (g / 80)).hold = false) (hlosers : (cellOf s g).scratch.losers ≠ []) :
    execBankRetry g s = .next (bankRound s p g [] false) := by
  simp only [execBankRetry, howner, hrun, Bool.false_eq_true, hlosers, or_self, if_false]

/-- A bank whose port nothing has taken and no lost request waits for is scrubbed. -/
theorem execScratchScrub_of_free {s : State} {g bank : Nat} {upsets : List Upset} (hrun : (dieOf s (g / 80)).hold = false)
    (hports : ((takenPorts (cellOf (upsetScratch s g upsets) g)).any fun x => x.1 == bank) = false)
    (hlosers : ((cellOf (upsetScratch s g upsets) g).scratch.losers.any fun r => r.addr / 64 % 16 == bank) = false) :
    execScratchScrub g bank upsets s =
      .next (scrubVisit (scrubWriteBack (upsetScratch s g upsets) g bank) g bank) := by
  simp only [execScratchScrub, hports, hlosers, hrun, Bool.or_self, Bool.false_eq_true, or_self, if_false]

/-! ## Stratus (R165 to R172) -/

/-- A channel with a grant to spare is scrubbed where no access waits. -/
theorem execStratusScrub_of_free {s : State} {die chan : Nat} {upsets : List Upset}
    (hrun : (dieOf (upsetStratus s die upsets) die).hold = false)
    (hwaiting : (dieOf (upsetStratus s die upsets) die).waiting = [])
    (hspare : spareGrant (dieOf (upsetStratus s die upsets) die) chan = true) :
    execStratusScrub die chan upsets s =
      .next (stratusVisit (stratusWriteBack (upsetStratus s die upsets) die chan) die chan) := by
  simp only [execStratusScrub, hrun, hwaiting, hspare, List.any_nil, Bool.or_self, Bool.not_true, Bool.false_eq_true, if_false]

/-- A running die's accesses, those kept and those its ports now issue, go through its grants in the order of R168. -/
theorem execStratusRetry_of_owned {s : State} {p die : Nat} (howner : dieOwner s die = some p)
    (hrun : (dieOf s die).hold = false) (idle : Nat) (upsets : List Upset) :
    let s0 := upsetStratus s die upsets
    let old := (dieOf s0 die).ungranted
    let new := (List.range 80).filterMap fun c => if old.any fun u => u.cell == c then none else portRequest s0 p (80 * die + c)
    execStratusRetry die idle upsets s =
      .next (grantAll (modDie s0 die fun d => { atCycle d (d.cyc + 1 + idle) with ungranted := [] }) p die
        (stratusOrder (old ++ new))) := by
  simp only [execStratusRetry, howner, hrun, Bool.false_eq_true, if_false]

@[simp] theorem hold_atCycle (d : Die) (cyc : Nat) : (atCycle d cyc).hold = d.hold := by
  unfold atCycle
  split <;> split <;> rfl

/-- A running die `idle` CCLK on, with the accesses that arrive in its queue. -/
def stratusQueued (s : State) (p die idle : Nat) (arrived : List StratusAccess) : State :=
  modDie s die fun d => { atCycle d (d.cyc + idle) with
    waiting := d.waiting ++ arrived.map fun x => (⟨p, none, x.offset, x.write⟩ : StratusWait) }

/-- The first access that waits for a channel with a grant to spare leaves the queue and takes effect. -/
theorem execUnscheduledStratusGrant_of_spare {s : State} {p die idle chan : Nat} {arrived : List StratusAccess} {w : StratusWait}
    (howner : dieOwner s die = some p) (hrun : (dieOf s die).hold = false)
    (hfirst : (dieOf (stratusQueued s p die idle arrived) die).waiting.find?
      (fun w => stratusChannel (64 * waitUnit (stratusQueued s p die idle arrived) die w) == chan) = some w)
    (hspare : spareGrant (dieOf (stratusQueued s p die idle arrived) die) chan = true) :
    execUnscheduledStratusGrant die idle chan arrived s =
      .next (anem (grantWait (modDie (stratusQueued s p die idle arrived) die fun d =>
        { grantOne d chan with waiting := d.waiting.erase w }) die w) die 4 1) := by
  have hqueued : (modDie s die fun d => { (if d.hold then d else atCycle d (d.cyc + idle)) with
      waiting := d.waiting ++ arrived.map fun x => (⟨p, none, x.offset, x.write⟩ : StratusWait) }) =
      stratusQueued s p die idle arrived := by
    simp only [stratusQueued, modDie, hrun, Bool.false_eq_true, if_false]
  have hstill : (dieOf (stratusQueued s p die idle arrived) die).hold = false := by simp [stratusQueued, hrun]
  simp only [execUnscheduledStratusGrant, howner, hqueued, hstill, Bool.false_eq_true, if_false, hfirst, hspare, if_true]

/-! ## Die clears (R174, R175) -/

/-- A die whose rails are up and whose clear has not been made starts clearing. -/
theorem execDieClear_of_due {s : State} {die : Nat} (hrails : (dieOf s die).railsUp = true) (hdue : dieCleared s die = false) :
    execDieClear die s = .next (modDie s die fun d => { d with clearing := true }) := by
  simp only [execDieClear, hrails, hdue, Bool.not_false, Bool.and_self, if_true]

/-- The scratchpad of a cell of a cleared die lists no byte and no poison; a cell not listed at all is the blank one. -/
theorem scratch_cellOf_clearDie {s : State} {die g : Nat} (hg : g / 80 = die) :
    (cellOf (clearDie s die) g).scratch.mem = [] ∧ (cellOf (clearDie s die) g).scratch.poison = [] := by
  simp only [clearDie, cellOf_modDie]
  rw [cellOf, tget_map_die s.cells die g fun c => { c with scratch := { c.scratch with
    mem := [], poison := [], losers := [], vld := none, asked := [], upsets := [], scrubBack := [] } }]
  cases tget s.cells g with
  | none => exact ⟨rfl, rfl⟩
  | some c => simp [hg]

/-- The part once a die's clear is done, before any access that waited for it is made. -/
def dieZeroed (s : State) (die : Nat) : State :=
  odOr (modDie (clearDie s die) die fun d => { d with clearing := false, clearWaits := [] }) Ad.cdClearDone (2 ^ die)

theorem dieOf_dieZeroed (s : State) (die : Nat) :
    dieOf (dieZeroed s die) die = { dieOf s die with
      stratus := [], stratusPoison := [], upsets := [], scrubBack := [], clearing := false, clearWaits := [] } := by
  rw [dieZeroed, dieOf_odOr, dieOf_modDie_self, clearDie, dieOf_modDie_self]
  rfl

theorem odGet_dieZeroed (s : State) (die : Nat) :
    odGet (dieZeroed s die) Ad.cdClearDone = odGet s Ad.cdClearDone ||| 2 ^ die :=
  odGet_odOr_self _ _ _

/-- Waking units of which none waits changes nothing but the table of partitions. -/
theorem foldl_wakeUnits_of_none (xs : Tbl Part) {s : State} (hnone : ∀ p, (partOf s p).unitWaits = []) :
    ∃ ps, xs.foldl (fun t x => wakeUnits t x.1) s = { s with parts := ps } := by
  induction xs generalizing s with
  | nil => exact ⟨s.parts, rfl⟩
  | cons x xs ih =>
    have hwake : wakeUnits s x.1 = modPart s x.1 fun q => { q with unitWaits := [] } := by
      rw [wakeUnits, hnone x.1, List.foldl_nil]
    have hstill : ∀ p, (partOf (wakeUnits s x.1) p).unitWaits = [] := by
      intro p
      rw [hwake]
      by_cases hp : p = x.1
      · rw [hp, partOf_modPart_self]
      · rw [partOf_modPart_ne s _ hp, hnone p]
    obtain ⟨ps, hps⟩ := ih hstill
    exact ⟨ps, by rw [List.foldl_cons, hps, hwake]; rfl⟩

/-- A clear for which no access waits ends with the die zeroed; beyond that only the table of partitions is written again. -/
theorem execDieClearDone_of_quiet {s : State} {die : Nat} (hclearing : (dieOf s die).clearing = true)
    (hwaits : (dieOf s die).clearWaits = []) (hnone : ∀ p, (partOf s p).unitWaits = []) :
    ∃ ps, execDieClearDone die s = .next { dieZeroed s die with parts := ps } := by
  obtain ⟨ps, hps⟩ := foldl_wakeUnits_of_none (dieZeroed s die).parts (s := dieZeroed s die) hnone
  refine ⟨ps, ?_⟩
  simp only [execDieClearDone, hclearing, if_true, hwaits, List.foldl_nil]
  exact congrArg _ hps

/-- Settles O32, one rule above per row: banks, Stratus scrubs and grants, the start and the end of a die's clear. -/
theorem banksAndClears : Obligations.BanksAndClears := by
  unfold Obligations.BanksAndClears
  refine ⟨fun s p g howner hrun hlosers => execBankRetry_of_losers howner hrun hlosers,
    fun s g bank upsets hrun hports hlosers => execScratchScrub_of_free hrun hports hlosers,
    fun s die chan upsets hrun hwaiting hspare => execStratusScrub_of_free hrun hwaiting hspare,
    fun s die hrails hdue => execDieClear_of_due hrails hdue, ?done,
    fun s p die idle upsets howner hrun => execStratusRetry_of_owned howner hrun idle upsets,
    fun s p die idle chan arrived w howner hrun hfirst hspare =>
      execUnscheduledStratusGrant_of_spare howner hrun hfirst hspare⟩
  case done =>
    intro s die hclearing hwaits hnone
    obtain ⟨ps, hexec⟩ := execDieClearDone_of_quiet hclearing hwaits hnone
    have hdie := dieOf_dieZeroed s die
    exact ⟨_, hexec, fun g hg => scratch_cellOf_clearDie hg, congrArg Die.stratus hdie, congrArg Die.clearing hdie,
      odGet_dieZeroed s die⟩

end Sys2Proof.Machine

/-! # Proofs: accesses of the host tier -/

namespace Sys2Proof.Machine

/-! ## Byte strings and what a write of them leaves (R10) -/

@[simp] theorem length_slice (bs : List Byte) (off n : Nat) : (slice bs off n).length = n := by
  rw [slice, List.length_map, List.length_range]

theorem slice_self (bs : List Byte) : slice bs 0 bs.length = bs := by
  have h := slice_append_append [] bs []
  rwa [List.nil_append, List.append_nil] at h

theorem getD_slice (bs : List Byte) {off n k : Nat} (h : k < n) : (slice bs off n).getD k 0 = bs.getD (off + k) 0 := by
  simp [slice, h]

/-- A byte string written reads back at its place. -/
theorem mget_mwrite_add (m : Mem) (a : Nat) {bs : List Byte} {k : Nat} (h : k < bs.length) :
    mget (mwrite m a bs) (a + k) = bs.getD k 0 := by
  rw [mget_mwrite_in m a (a + k) bs (Nat.le_add_right a k) (Nat.add_lt_add_left h a), Nat.add_sub_cancel_left]

/-! ## Addresses, and what stops a request (R202) -/

/-- A host address gives back the window and the offset it was made of. -/
theorem hostPlace_window (s : State) (p : Nat) {window off : Nat} (hwindow : window < 64) (hoff : off < 2 ^ 36) (n : Nat) :
    hostPlace s p (window * 2 ^ 36 + off) n = hostAddr s p window off n := by
  have hbits : bits (window * 2 ^ 36 + off) 41 36 = window := by
    simp only [bits]
    omega
  have hmod : (window * 2 ^ 36 + off) % 2 ^ 36 = off := by omega
  rw [hostPlace, hbits, hmod]

theorem moveInto_of_no_moves {s : State} {p : Nat} (h : (partOf s p).moves = []) (tier a n : Nat) :
    moveInto s p tier a n = false := by
  rw [moveInto, h, List.any_nil]

/-- Inside its window, and without moves, nothing stops a host request. -/
theorem hostStop_of_no_moves {s : State} {p window off n a : Nat} (hmoves : (partOf s p).moves = [])
    (haddr : hostAddr s p window off n = some a) : hostStop s p window off n = none := by
  simp [hostStop, haddr, moveOver_of_no_moves hmoves, moveInto_of_no_moves hmoves]

/-! ## Bytes stored without memory encryption (R203, R390) -/

/-- A unit written under the key it is to have is not written again. -/
theorem rekeyHost_of_eq {s : State} {key u : Nat} (h : (tget s.hostKeys u).getD 0 = key) : rekeyHost s key u = s :=
  if_pos h

/-- Bytes written under no key, over units under no key, change host memory alone. -/
theorem hostBytes_of_plain {s : State} {x : Nat} {bs : List Byte} {key : Nat → Nat} (hkey : ∀ u, key u = 0)
    (hplain : ∀ u ∈ wordsOf x bs.length, tget s.hostKeys u = none) :
    hostBytes s x key bs = { s with host := mwrite s.host x bs } := by
  have hrekey : (wordsOf x bs.length).foldl (fun t u => rekeyHost t (key u) u) s = s :=
    List.foldlRecOn (motive := (· = s)) _ _ rfl fun t ht u hu => by
      rw [ht]
      exact rekeyHost_of_eq (by rw [hplain u hu, hkey u, Option.getD_none])
  rw [hostBytes, hrekey]

/-- The part after `bs` were stored at `x` of host memory for a partition without memory encryption. -/
def hostStored (s : State) (p x : Nat) (bs : List Byte) (poison : Bool) : State :=
  { odAdd s (Ad.partHostBytes p) bs.length with
    host := mwrite s.host x bs, hostBad := poisonAfter s.hostBad x bs.length poison }

theorem hostStore_of_plain {s : State} {p a x : Nat} {bs : List Byte} (hkey : memKey s p = 0)
    (hplace : hostPlace s p a bs.length = some x) (hplain : ∀ u ∈ wordsOf x bs.length, tget s.hostKeys u = none)
    (poison : Bool) : hostStore s p a bs poison = hostStored s p x bs poison := by
  have hzero : ∀ u, hostKey s p (a + 64 * (u - x / 64)) = 0 := fun u => if_pos hkey
  have hbytes := hostBytes_of_plain (s := odAdd s (Ad.partHostBytes p) bs.length) hzero hplain
  simp only [hostStore, hplace, hbytes]
  rfl

/-! ## Writes (R203) -/

/-- A write of a partition without moves is one piece. -/
theorem movePieces_nil (tier a : Nat) {n : Nat} (h : 0 < n) : movePieces tier [] a n = [(a, n, none)] :=
  if_neg (Nat.ne_of_gt h)

/-- A host write that nothing stops or holds is stored whole. -/
theorem execHostWrite_of_plain {s : State} {p window offset a : Nat} {data : List Byte} (hmoves : (partOf s p).moves = [])
    (hkey : memKey s p = 0) (hwindow : window < 64) (hoffset : offset < 2 ^ 36) (hsome : 0 < data.length)
    (hfits : data.length ≤ 512) (haddr : hostAddr s p window offset data.length = some a)
    (hplain : ∀ u ∈ wordsOf a data.length, tget s.hostKeys u = none) :
    execHostWrite p window offset data s = .next (hostStored s p a data false) := by
  have hplace : hostPlace s p (window * 2 ^ 36 + offset) data.length = some a :=
    (hostPlace_window s p hwindow hoffset _).trans haddr
  simp only [execHostWrite, hostStop_of_no_moves hmoves haddr, Nat.not_lt.mpr hfits, if_false, hmoves,
    movePieces_nil 3 _ hsome, List.foldl_cons, List.foldl_nil, Nat.sub_self, Nat.add_zero, slice_self,
    hostStore_of_plain hkey hplace hplain]

/-! ## Reads (R203, R204) -/

/-- A read that nothing stops joins those outstanding while there is room for it. -/
theorem execHostRead_of_room {s : State} {p window offset len : Nat} (hstop : hostStop s p window offset len = none)
    (hsome : 0 < len) (hlen : len ≤ 4096) (hroom : s.hostReads.length < 1024) :
    execHostRead p window offset len s =
      .next { s with hostReads := s.hostReads ++ [⟨s.hostNext, p, window, offset, len⟩], hostNext := s.hostNext + 1 } := by
  have hissued : ¬ (4096 < len ∨ len = 0 ∨ 1024 ≤ s.hostReads.length) := by omega
  simp only [execHostRead, hstop, hissued, if_false]

/-- The part as its first host read leaves those outstanding, its bytes counted. -/
def hostReadTaken (s : State) (h : HostRd) (rest : List HostRd) : State :=
  odAdd { s with hostReads := rest } (Ad.partHostBytes h.p) h.len

section
variable {s : State} {h : HostRd} {rest : List HostRd}

theorem find_hostReads_head (hreads : s.hostReads = h :: rest) : s.hostReads.find? (fun x => x.id = h.id) = some h := by
  rw [hreads]
  exact List.find?_cons_of_pos (decide_eq_true rfl)

theorem filter_hostReads_head (hreads : s.hostReads = h :: rest) (hids : ∀ x ∈ rest, x.id ≠ h.id) :
    s.hostReads.filter (fun x => x.id ≠ h.id) = rest := by
  rw [hreads, List.filter_cons_of_neg (by simp), List.filter_eq_self]
  exact fun x hx => decide_eq_true (hids x hx)

/-- The data of a read that completes are stored, and its units read without failure. -/
theorem execHostReadComplete_ok {a : Nat} {data : List Byte} (hreads : s.hostReads = h :: rest)
    (hids : ∀ x ∈ rest, x.id ≠ h.id) (haddr : hostAddr s h.p h.window h.offset h.len = some a)
    (hplain : ∀ u ∈ wordsOf a h.len, tget s.hostKeys u = none) :
    execHostReadComplete h.id true data s = .next { hostReadTaken s h rest with
      host := mwrite s.host a (slice data 0 h.len)
      hostBad := s.hostBad.filter fun u => !(hostUnits a h.len).contains u } := by
  have hwhere : hostAddr { s with hostReads := rest } h.p h.window h.offset h.len = some a := haddr
  have hbytes : hostBytes (hostReadTaken s h rest) a (fun _ => 0) (slice data 0 h.len) =
      { hostReadTaken s h rest with host := mwrite s.host a (slice data 0 h.len) } :=
    hostBytes_of_plain (fun _ => rfl) (by rw [length_slice]; exact hplain)
  simp only [execHostReadComplete, find_hostReads_head hreads, filter_hostReads_head hreads hids, hwhere, Option.getD_some,
    if_true]
  rw [← hostReadTaken, hbytes]
  rfl

/-- A read that fails stores nothing: its units are marked failed, and the error is deferred. -/
theorem execHostReadComplete_failed (hreads : s.hostReads = h :: rest) (hids : ∀ x ∈ rest, x.id ≠ h.id) (data : List Byte) :
    ∃ bad, execHostReadComplete h.id false data s =
      .next (deferred { hostReadTaken s h rest with hostBad := bad } (some h.p) .hostAccessFailed 0x1900
        (h.window * 2 ^ 36 + h.offset)) := by
  simp only [execHostReadComplete, find_hostReads_head hreads, filter_hostReads_head hreads hids, Bool.false_eq_true,
    if_false]
  exact ⟨_, rfl⟩

end

/-- Settles O38: a write and the data of a read reach host memory by one `mwrite`; a failed read by none. -/
theorem hostAccesses : Obligations.HostAccesses := by
  unfold Obligations.HostAccesses
  refine ⟨?write, fun s p window offset len hstop hsome hlen hroom => execHostRead_of_room hstop hsome hlen hroom,
    ?complete, ?failed⟩
  case write =>
    intro s p window offset a data hmoves hkey hwindow hoffset hsome hfits haddr hplain
    exact ⟨_, execHostWrite_of_plain hmoves hkey hwindow hoffset hsome hfits haddr hplain,
      fun k hk => mget_mwrite_add s.host a hk, fun b hb => mget_mwrite_out s.host a b data hb,
      odGet_odAdd_self s (Ad.partHostBytes p) data.length, rfl, rfl, rfl⟩
  case complete =>
    intro s h rest a data hreads hids haddr hlen hplain
    refine ⟨_, execHostReadComplete_ok hreads hids haddr hplain, rfl, fun k hk => ?inside, fun b hb => ?outside, rfl, rfl⟩
    case inside =>
      rw [mget_mwrite_add _ _ (by rwa [length_slice]), getD_slice data hk, Nat.zero_add]
    case outside =>
      exact mget_mwrite_out _ _ _ _ (by rwa [length_slice])
  case failed =>
    intro s h rest data hreads hids
    obtain ⟨bad, hexec⟩ := execHostReadComplete_failed hreads hids data
    exact ⟨_, hexec, rfl, rfl⟩

end Sys2Proof.Machine

/-! # Proofs: requests of the far tier that no check stops -/

namespace Sys2Proof.Machine

/-! ## A request made or waiting (R186, R194, R232) -/

section
variable {s : State} {p a hint n : Nat} {cell : Option Nat}

/-- A request that no check stops and nothing holds back is made. -/
theorem farRequest_of_clear (hpass : farFail s p a hint n cell = none) (hclear : farWaits s p a n = false) (r : FarReq) :
    farRequest s p a hint n cell r = farDo s r := by
  simp only [farRequest, hpass, hclear, Bool.false_eq_true, if_false]

/-- A request that no check stops and a move or a maintenance operation holds joins its memory die's queue. -/
theorem farRequest_of_held (hpass : farFail s p a hint n cell = none) (hheld : farWaits s p a n = true) (r : FarReq) :
    farRequest s p a hint n cell r = joinWaits s r := by
  simp only [farRequest, hpass, hheld, if_true]

end

/-- A request of a unit that is no cell is that unit's write. -/
theorem farDo_write_unit {src : Writer} (h : writerCell src = none) (s : State) (p a hint : Nat) (data : List Byte)
    (poison : Bool) : farDo s (.write p a hint src data poison) = unitWrite s p a hint src data poison := by
  simp only [farDo, h]

/-! ## The rows of the line and Drizzle paths (R182, R183, R196) -/

theorem injectErrs_nil (s : State) (p a : Nat) : injectErrs s p a [] = s := rfl

/-- A line read that no check stops takes the errors of its symbols and becomes a request. -/
theorem execLineRead_of_pass {s : State} {p addr len hint : Nat} (hhint : hint < 3)
    (hpass : farFail s p addr hint len none = none) (reserved : Bool) (errs : List SymErr) :
    execLineRead p addr len hint reserved errs none s =
      .next (farRequest (injectErrs s p addr errs) p addr hint len none (.read p addr len hint reserved)) := by
  simp only [execLineRead, Nat.ne_of_lt hhint, if_false, hpass]

/-- A line write with a hint of Table 7.3 is a request under that hint. -/
theorem execLineWrite_of_hint {hint : Nat} (hhint : hint < 3) (p addr : Nat) (src : Writer) (data : List Byte) (poison : Bool)
    (s : State) : execLineWrite p addr hint src data poison s =
      .next (farRequest s p addr hint data.length (writerCell src) (.write p addr hint src data poison)) := by
  rw [execLineWrite, if_neg (Nat.ne_of_lt hhint)]

/-- A Drizzle read that no check stops takes the errors of its symbols and becomes a request for one sector. -/
theorem execDrizzleRead_of_pass {s : State} {p addr : Nat} (hpass : farFail s p addr 3 1 none = none) (errs : List SymErr) :
    execDrizzleRead p addr errs s = .next (farRequest (injectErrs s p addr errs) p addr 3 1 none (.read p addr 1 3 false)) := by
  simp only [execDrizzleRead, hpass]

/-- Settles O34: each row is a far-tier request, which is made where nothing holds it and waits where something does. -/
theorem farTier : Obligations.FarTier := by
  unfold Obligations.FarTier
  refine fun s p addr => ⟨?read, ?write, rfl, ?drizzleRead, ?drizzleWrite⟩
  case read =>
    intro len hint hhint hpass
    have hexec := execLineRead_of_pass hhint hpass
    have hquiet : ∀ reserved, execLineRead p addr len hint reserved [] none s =
        .next (farRequest s p addr hint len none (.read p addr len hint reserved)) := fun reserved => hexec reserved []
    refine ⟨fun hclear => ?clear, fun hheld reserved => ?held, hexec⟩
    case clear =>
      have hmade := farRequest_of_clear hpass hclear
      exact ⟨(hquiet false).trans (congrArg _ (hmade _)), (hquiet true).trans (congrArg _ (hmade _))⟩
    case held => exact (hquiet reserved).trans (congrArg _ (farRequest_of_held hpass hheld _))
  case write =>
    intro hint src data poison hhint hpass hclear
    have hexec := (execLineWrite_of_hint hhint p addr src data poison s).trans
      (congrArg _ (farRequest_of_clear hpass hclear _))
    refine ⟨fun hunit => hexec.trans (congrArg _ (farDo_write_unit hunit s p addr hint data poison)), fun g hcell => ?_⟩
    subst hcell
    exact hexec
  case drizzleRead =>
    intro hpass hclear
    exact (execDrizzleRead_of_pass hpass []).trans (congrArg _ (farRequest_of_clear hpass hclear _))
  case drizzleWrite =>
    intro data poison hpass hclear
    exact congrArg _ (farRequest_of_clear hpass hclear _)

end Sys2Proof.Machine

/-! # Proofs: cache maintenance, and retirements of the far tier -/

namespace Sys2Proof.Machine

/-- A refresh up to four times the base rate does nothing; a faster one is recorded and retires its group (R188). -/
theorem execRefresh_eq (group ratePct : Nat) (s : State) : execRefresh group ratePct s =
    if ratePct ≤ 400 then .next s
    else .next (retireErr (recordOnly s .groupRetired 0 (groupOwner s group) (unitGroup group) ratePct) group
      Code.groupRetired.value 0 s.nv.alm.nextSeq) := by
  unfold execRefresh
  split
  case isTrue hfast => exact (if_neg (Nat.not_le.mpr hfast)).symm
  case isFalse hslow => exact (if_pos (Nat.not_lt.mp hslow)).symm

/-- Settles O37: a maintenance row is its effect on the lines followed by `startMaint`, its end is `wakeMd`, and the time-out
retires the group by `retireErr`, each as the row's meaning has it; only the refresh depends on a rate. -/
theorem cacheMaintenance : Obligations.CacheMaintenance := by
  unfold Obligations.CacheMaintenance
  intro s p base size
  exact ⟨rfl, rfl, rfl, rfl, rfl, fun _ => rfl, fun group ratePct => execRefresh_eq group ratePct s, fun _ _ => rfl⟩

end Sys2Proof.Machine

/-! # Proofs: the canonical form of the shared memories -/

namespace Sys2Proof.Machine

/-- What `Keeps` holds of the two byte memories is the invariant itself. -/
theorem Keeps.memoryOk {s t : State} (hkeeps : Keeps s t) (hok : MemoryOk s) : MemoryOk t := by
  obtain ⟨hfar, hhost⟩ := hok
  exact ⟨hkeeps.far hfar, hkeeps.host hhost⟩

/-- The queue is no part of either memory. -/
@[simp] theorem memoryOk_pending (s : State) (rest : List Instr) : MemoryOk { s with pending := rest } ↔ MemoryOk s :=
  Iff.rfl

/-- Settles O2: an empty queue changes nothing, and the command at the front of any other keeps both memories as `Keeps`
says of every command. -/
theorem stepKeepsMemoryCanonical : Obligations.StepKeepsMemoryCanonical := by
  unfold Obligations.StepKeepsMemoryCanonical
  intro s t hok hstep
  cases hqueue : s.pending with
  | nil =>
    rw [step_of_pending_nil hqueue] at hstep
    cases hstep
    exact hok
  | cons c rest =>
    rw [step_of_pending_cons hqueue] at hstep
    exact (Keeps.of_exec hstep).memoryOk ((memoryOk_pending s rest).2 hok)

end Sys2Proof.Machine

/-! # Proofs: the Calm encoding -/

namespace Sys2Proof.Machine

/-! ## Byte strings cut into groups -/

/-- Adjoining slices are one slice. -/
theorem slice_append_slice (bs : List Byte) (off m n : Nat) :
    slice bs off m ++ slice bs (off + m) n = slice bs off (m + n) := by
  simp only [slice, List.range_add, List.map_append, List.map_map, Function.comp_def, Nat.add_assoc]

/-- A group without a byte other than zero is eight zeros. -/
theorem calmGroup_of_zero {blk : List Byte} {i : Nat} (h : (calmGroup blk i).any (· != 0) = false) :
    calmGroup blk i = List.replicate 8 0 := by
  have hzero : ∀ b ∈ calmGroup blk i, b = 0 := by simpa using h
  exact List.eq_replicate_iff.2 ⟨length_slice blk (8 * i) 8, hzero⟩

/-- Groups are eight bytes each. -/
theorem length_flatMap_calmGroup (blk : List Byte) (l : List Nat) : (l.flatMap (calmGroup blk)).length = 8 * l.length := by
  simp [calmGroup, List.length_flatMap, Nat.mul_comm]

/-! ## The groups that are stored -/

/-- The non-zero groups among the first `n` of a block; those of all 32 are `calmGroups`. -/
def calmGroupsBelow (blk : List Byte) (n : Nat) : List Nat :=
  (List.range n).filter fun i => (calmGroup blk i).any (· != 0)

theorem calmGroupsBelow_all (blk : List Byte) : calmGroupsBelow blk 32 = calmGroups blk := rfl

theorem calmGroupsBelow_succ_of_full {blk : List Byte} {n : Nat} (h : (calmGroup blk n).any (· != 0) = true) :
    calmGroupsBelow blk (n + 1) = calmGroupsBelow blk n ++ [n] := by
  rw [calmGroupsBelow, List.range_succ, List.filter_append, List.filter_singleton, h, calmGroupsBelow]
  rfl

theorem calmGroupsBelow_succ_of_zero {blk : List Byte} {n : Nat} (h : (calmGroup blk n).any (· != 0) = false) :
    calmGroupsBelow blk (n + 1) = calmGroupsBelow blk n := by
  rw [calmGroupsBelow, List.range_succ, List.filter_append, List.filter_singleton, h, calmGroupsBelow]
  exact List.append_nil _

/-- The groups below a non-zero one come before it, and the rest after it. -/
theorem calmGroups_split {blk : List Byte} {i : Nat} (hi : i < 32) (h : (calmGroup blk i).any (· != 0) = true) :
    ∃ rest, calmGroups blk = calmGroupsBelow blk i ++ i :: rest := by
  obtain ⟨k, hk⟩ := Nat.exists_eq_add_of_lt hi
  rw [← calmGroupsBelow_all, hk, calmGroupsBelow, Nat.add_right_comm, List.range_add, List.filter_append, ← calmGroupsBelow,
    calmGroupsBelow_succ_of_full h, List.append_assoc]
  exact ⟨_, rfl⟩

/-! ## The mask -/

/-- The mask built over the first `n` groups stays below `2 ^ n`. -/
theorem calmMask_lt (blk : List Byte) (n : Nat) : (calmGroupsBelow blk n).foldl (fun m i => m + 2 ^ i) 0 < 2 ^ n := by
  induction n with
  | zero => exact Nat.one_pos
  | succ n ih =>
    cases h : (calmGroup blk n).any (· != 0) with
    | false => rw [calmGroupsBelow_succ_of_zero h]; omega
    | true => rw [calmGroupsBelow_succ_of_full h, List.foldl_append, List.foldl_cons, List.foldl_nil]; omega

/-- Its bits below `n` tell which groups are non-zero. -/
theorem testBit_calmMask (blk : List Byte) {n i : Nat} (hi : i < n) :
    ((calmGroupsBelow blk n).foldl (fun m i => m + 2 ^ i) 0).testBit i = (calmGroup blk i).any (· != 0) := by
  induction n with
  | zero => omega
  | succ n ih =>
    have hlt := calmMask_lt blk n
    rcases Nat.lt_succ_iff_lt_or_eq.1 hi with hin | rfl
    · cases h : (calmGroup blk n).any (· != 0) with
      | false => rw [calmGroupsBelow_succ_of_zero h, ih hin]
      | true =>
        rw [calmGroupsBelow_succ_of_full h, List.foldl_append, List.foldl_cons, List.foldl_nil, Nat.add_comm,
          Nat.testBit_two_pow_add_gt hin, ih hin]
    · cases h : (calmGroup blk i).any (· != 0) with
      | false => rw [calmGroupsBelow_succ_of_zero h, Nat.testBit_lt_two_pow hlt]
      | true =>
        rw [calmGroupsBelow_succ_of_full h, List.foldl_append, List.foldl_cons, List.foldl_nil, Nat.add_comm,
          Nat.testBit_two_pow_add_eq, Nat.testBit_lt_two_pow hlt, Bool.not_false]

/-- Bytes 0 to 3 of the encoding are the mask (R212). -/
theorem fieldLE_calmBytes (blk : List Byte) :
    fieldLE (calmBytes blk) 0 4 = (calmGroupsBelow blk 32).foldl (fun m i => m + 2 ^ i) 0 := by
  have hfield := fieldLE_leBytes [] ((calmGroups blk).flatMap (calmGroup blk)) 4
    ((calmGroups blk).foldl (fun m i => m + 2 ^ i) 0)
  exact hfield.trans (Nat.mod_eq_of_lt (calmMask_lt blk 32))

theorem testBit_fieldLE_calmBytes (blk : List Byte) {i : Nat} (hi : i < 32) :
    (fieldLE (calmBytes blk) 0 4).testBit i = (calmGroup blk i).any (· != 0) := by
  rw [fieldLE_calmBytes, testBit_calmMask blk hi]

/-! ## The groups behind the mask -/

theorem length_calmBytes (blk : List Byte) : (calmBytes blk).length = 4 + 8 * (calmGroups blk).length := by
  rw [calmBytes, List.length_append, length_leBytes, length_flatMap_calmGroup]

/-- The encoding is four bytes of mask and the non-zero groups. -/
theorem calmBytes_eq_append (blk : List Byte) :
    ∃ mask : List Byte, mask.length = 4 ∧ calmBytes blk = mask ++ (calmGroups blk).flatMap (calmGroup blk) :=
  ⟨_, length_leBytes 4 _, rfl⟩

/-- A non-zero group stands behind the mask and the non-zero groups below it. -/
theorem slice_calmBytes {blk : List Byte} {i : Nat} (hi : i < 32) (h : (calmGroup blk i).any (· != 0) = true) :
    slice (calmBytes blk) (4 + 8 * (calmGroupsBelow blk i).length) 8 = calmGroup blk i := by
  obtain ⟨mask, hmask, hbytes⟩ := calmBytes_eq_append blk
  obtain ⟨rest, hsplit⟩ := calmGroups_split hi h
  have hplace := slice_append_append (mask ++ (calmGroupsBelow blk i).flatMap (calmGroup blk)) (calmGroup blk i)
    (rest.flatMap (calmGroup blk))
  rw [List.length_append, hmask, length_flatMap_calmGroup, calmGroup, length_slice] at hplace
  rw [hbytes, hsplit, List.flatMap_append, List.flatMap_cons, ← List.append_assoc]
  exact hplace

/-! ## The block had back -/

/-- The groups of a block, one after the other, are the block. -/
theorem flatMap_calmGroup_range (blk : List Byte) (n : Nat) : (List.range n).flatMap (calmGroup blk) = slice blk 0 (8 * n) := by
  induction n with
  | zero => rfl
  | succ n ih =>
    have hjoin := slice_append_slice blk 0 (8 * n) 8
    rw [Nat.zero_add] at hjoin
    rw [List.range_succ, List.flatMap_append, List.flatMap_singleton, ih, calmGroup, hjoin, Nat.mul_succ]

/-- One group taken back from an encoding: the bytes at its place where the mask has its bit, zeros where not. -/
def calmExpandGroup (mask : Nat) (bs : List Byte) (a : List Byte × Nat) (i : Nat) : List Byte × Nat :=
  if mask.testBit i then (a.1 ++ slice bs a.2 8, a.2 + 8) else (a.1 ++ List.replicate 8 0, a.2)

theorem calmExpand_eq_foldl (mask : Nat) (bs : List Byte) :
    calmExpand mask bs = ((List.range 32).foldl (calmExpandGroup mask bs) ([], 4)).1 := rfl

/-- After `n` groups, their bytes are had back and the place is that of the next non-zero group. -/
theorem foldl_calmExpandGroup (blk : List Byte) {n : Nat} (hn : n ≤ 32) :
    (List.range n).foldl (calmExpandGroup (fieldLE (calmBytes blk) 0 4) (calmBytes blk)) ([], 4) =
      ((List.range n).flatMap (calmGroup blk), 4 + 8 * (calmGroupsBelow blk n).length) := by
  induction n with
  | zero => rfl
  | succ n ih =>
    rw [List.range_succ, List.foldl_append, ih (Nat.le_of_succ_le hn), List.foldl_cons, List.foldl_nil, calmExpandGroup,
      testBit_fieldLE_calmBytes blk hn, List.flatMap_append, List.flatMap_singleton]
    cases h : (calmGroup blk n).any (· != 0) with
    | false => rw [if_neg Bool.false_ne_true, calmGroupsBelow_succ_of_zero h, calmGroup_of_zero h]
    | true =>
      rw [if_pos rfl, slice_calmBytes hn h, calmGroupsBelow_succ_of_full h, List.length_append, List.length_singleton,
        Nat.mul_succ, Nat.add_assoc]

/-- A Calm block is had back bit for bit (R212). -/
theorem calmExpand_calmBytes {blk : List Byte} (hlen : blk.length = 256) :
    calmExpand (fieldLE (calmBytes blk) 0 4) (calmBytes blk) = blk := by
  rw [calmExpand_eq_foldl, foldl_calmExpandGroup blk (Nat.le_refl 32), flatMap_calmGroup_range]
  exact (congrArg (slice blk 0) hlen.symm).trans (slice_self blk)

/-! ## A block in a CALM region (R213, Table 8.3) -/

/-- The metadata of a block in a CALM region: ZERO without a non-zero group, RAW from 28 of them, CALM between. -/
theorem encodeBlock_calm (dtype : Nat) (blk : List Byte) :
    (encodeBlock 1 dtype blk).info =
      if (calmGroups blk).length = 0 then ⟨1, 0, 0, 0⟩
      else if (calmGroups blk).length < 28 then ⟨2, 0, (calmGroups blk).length / 4 + 1, crc16 blk⟩
      else ⟨0, 0, 8, 0⟩ := by
  have hsectors : (4 + 8 * (calmGroups blk).length + 31) / 32 = (calmGroups blk).length / 4 + 1 := by omega
  rw [encodeBlock, if_pos rfl]
  by_cases hzero : (calmGroups blk).length = 0
  · simp only [hzero, if_true]
  · by_cases hraw : 28 ≤ (calmGroups blk).length
    · simp only [hzero, hraw, Nat.not_lt.2 hraw, if_true, if_false, storeRaw]
    · simp only [hzero, hraw, Nat.not_le.1 hraw, hsectors, if_true, if_false]

/-- Settles O36: the mask's bits, the groups at their places and the block had back by induction on the groups, the sectors
and the format by the rows of Table 8.3. -/
theorem calmEncoding : Obligations.CalmEncoding := by
  unfold Obligations.CalmEncoding
  intro blk hlen full below
  refine ⟨length_calmBytes blk, fun i hi => testBit_fieldLE_calmBytes blk hi, fun i hi hfull => slice_calmBytes hi hfull,
    calmExpand_calmBytes hlen, fun dtype => ?_⟩
  rw [encodeBlock_calm, show below 32 = (calmGroups blk).length from rfl]
  constructor <;> split_ifs <;> rfl

end Sys2Proof.Machine

/-! # Proofs: the scale advance -/

namespace Sys2Proof.Machine

/-! ## Closing the step in one slot (R242) -/

/-- The history a slot has once its step is closed: the step's amax before the amaxes of earlier steps. -/
def advancedHist (r : ScaleRec) : List (BitVec 32) := r.amaxStep :: r.hist.take (r.hlen - 1) ++ r.hist.drop r.hlen

/-- The largest magnitude of that history, over as many steps as it holds. -/
def largestAmax (r : ScaleRec) : Nat := (((advancedHist r).take (min (r.fill + 1) r.hlen)).map amaxMag).foldl max 0

/-- The exponent a slot has once its step is closed: its own where it is fixed, the one before where the largest magnitude is
0 or infinite, else the one that magnitude gives. -/
def advancedExp (r : ScaleRec) : Int :=
  if r.mode = 0 then r.mexp0
  else if largestAmax r = 0 ∨ largestAmax r = 0x7F800000 then r.mexp
  else scaleExp r.fmt r.margin (largestAmax r)

/-- Closing the step changes the history, the step's own fields and the exponent. -/
theorem advanceSlot_fst (r : ScaleRec) : (advanceSlot r).1 =
    { r with hist := advancedHist r, fill := min (r.fill + 1) r.hlen, amaxStep := 0, satStep := 0, mexp := advancedExp r } := by
  by_cases hfixed : r.mode = 0
  · rw [advanceSlot, if_pos hfixed, advancedExp, if_pos hfixed]
    rfl
  · rw [advanceSlot, if_neg hfixed, advancedExp, if_neg hfixed]
    by_cases hkept : largestAmax r = 0 ∨ largestAmax r = 0x7F800000
    · rw [if_pos hkept]
      exact congrArg Prod.fst (if_pos hkept)
    · rw [if_neg hkept]
      exact congrArg Prod.fst (if_neg hkept)

/-- With one step of history the largest magnitude is that of the step that closes. -/
theorem largestAmax_of_one_step {r : ScaleRec} (hlen : r.hlen = 1) : largestAmax r = amaxMag r.amaxStep := by
  have hfill : min (r.fill + 1) 1 = 1 := Nat.min_eq_right (Nat.le_add_left 1 r.fill)
  rw [largestAmax, advancedHist, hlen, hfill, List.cons_append, List.take_succ_cons, List.take_zero, List.map_singleton,
    List.foldl_cons, List.foldl_nil, Nat.zero_max]

/-- A slot of one step that computes its exponent keeps it where the amax is 0 or infinite. -/
theorem advancedExp_of_kept {r : ScaleRec} (hmode : r.mode ≠ 0) (hlen : r.hlen = 1)
    (hkept : amaxMag r.amaxStep = 0 ∨ amaxMag r.amaxStep = 0x7F800000) : advancedExp r = r.mexp := by
  rw [advancedExp, if_neg hmode, largestAmax_of_one_step hlen, if_pos hkept]

/-- Where the amax is finite and not 0, it takes the one the amax gives. -/
theorem advancedExp_of_finite {r : ScaleRec} (hmode : r.mode ≠ 0) (hlen : r.hlen = 1) (hpos : amaxMag r.amaxStep ≠ 0)
    (hfin : amaxMag r.amaxStep < 0x7F800000) : advancedExp r = scaleExp r.fmt r.margin (amaxMag r.amaxStep) := by
  rw [advancedExp, if_neg hmode, largestAmax_of_one_step hlen, if_neg (not_or.2 ⟨hpos, Nat.ne_of_lt hfin⟩)]

/-! ## The advance, and its arrival at every die (R242, R244) -/

/-- The state in which every slot of a partition has closed its step and the advance is under way. -/
def advanced (s : State) (p sem : Nat) : State :=
  modPart s p fun q => { q with scale := q.scale.map fun e => (e.1, (advanceSlot e.2).1), advance := some sem }

/-- The advance is counted, and so are the slots that kept their multiplier. -/
theorem execScaleAdvance_of_idle {s : State} {p : Nat} {j : Job} (hjob : (partOf s p).job = some j)
    (hidle : (partOf s p).advance = none) (sem : Nat) :
    execScaleAdvance p sem s =
      .next (odAdd (odInc (advanced s p sem) (Ad.partScaleAdvances p)) (Ad.partScaleHolds p)
        ((partOf s p).scale.filter fun e => (advanceSlot e.2).2).length) := by
  simp only [execScaleAdvance, hjob, hidle, List.map_map, List.filter_map, List.length_map, Function.comp_def, advanced, modPart]

theorem execScaleAdvanceDone_of_under_way {s : State} {p sem : Nat} (hadv : (partOf s p).advance = some sem) :
    let t := modPart (publishScale s p) p fun q => { q with advance := none }
    execScaleAdvanceDone p s = .next (signalSem t p (((partOf t p).job.map Job.seq).getD 0) sem 1 false) := by
  simp only [execScaleAdvanceDone, hadv]

/-- The two counters of an advance are different entries. -/
theorem partScaleAdvances_ne_partScaleHolds (p : Nat) : Ad.partScaleAdvances p ≠ Ad.partScaleHolds p := by
  simp only [Ad.partScaleAdvances, Ad.partScaleHolds]
  omega

/-- Settles O40: the advance is `advanced` and its counters, a slot's exponent goes by its mode and the amax that closes, and
the arrival publishes the table. -/
theorem scaleAdvance : Obligations.ScaleAdvance := by
  unfold Obligations.ScaleAdvance
  refine ⟨?advance, fun r => ?slot, fun s p sem hadv => execScaleAdvanceDone_of_under_way hadv⟩
  case advance =>
    intro s p sem j hjob hidle
    refine ⟨_, execScaleAdvance_of_idle hjob hidle sem, ?underWay, ?counted, fun i => ?slots⟩
    case underWay => simp [advanced]
    case counted => simp [advanced, odGet_odAdd_ne _ _ (partScaleAdvances_ne_partScaleHolds p)]
    case slots =>
      simp only [partOf_odAdd, partOf_odInc, advanced, partOf_modPart_self]
      exact tget_map (partOf s p).scale (fun _ r => (advanceSlot r).1) i
  case slot =>
    rw [advanceSlot_fst]
    exact ⟨rfl, rfl, rfl, fun hfixed => if_pos hfixed, advancedExp_of_finite, advancedExp_of_kept⟩

end Sys2Proof.Machine

/-! # Proofs: moves and the prefetch schedule -/

namespace Sys2Proof.Machine

/-! ## A move requested (R231, R232) -/

section
variable {s : State} {p obj tier addr : Nat} (hpass : coreStop s p 0 (objAddr s p obj) 32 = none)
  (hclean : (objRead s p obj).2 = false)
include hpass hclean

/-- A request that R231 refuses is counted, and answers its refusal. -/
theorem requestMove_of_refused {c : Nat}
    (hrefused : moveRefusal (farRead s p (objAddr s p obj) 32 3) p obj tier addr (objRead s p obj).1 = some c)
    (sem : Nat) (release : Bool) (pf : Option Nat) :
    requestMove s p obj tier addr sem release pf =
      (odInc (farRead s p (objAddr s p obj) 32 3) (Ad.partObjRefused p), some c) := by
  simp only [requestMove, hpass, hclean, hrefused, Bool.false_eq_true, if_false]

/-- One that it does not refuse makes the entry MOVING and adds the object's record. -/
theorem requestMove_of_accepted
    (haccepted : moveRefusal (farRead s p (objAddr s p obj) 32 3) p obj tier addr (objRead s p obj).1 = none)
    (sem : Nat) (release : Bool) (pf : Option Nat) :
    let e := (objRead s p obj).1
    requestMove s p obj tier addr sem release pf =
      (modPart (objWrite (farRead s p (objAddr s p obj) 32 3) p obj { e with state := 2, dest := tier * 2 ^ 48 + addr }) p fun q =>
        { q with moves := q.moves ++ [{ obj := obj, srcTier := e.tier, src := e.addr, dstTier := tier, dst := addr, size := e.size,
                                        sem := sem, hint := e.hint, prefetch := pf, release := release }] }, none) := by
  simp only [requestMove, hpass, hclean, haccepted, Bool.false_eq_true, if_false]

end

/-- A MOVE whose request is refused answers the refusal. -/
theorem execMove_of_refused {s t : State} {p obj tier addr sem c : Nat} {j : Job} (hjob : (partOf s p).job = some j)
    (hrequest : requestMove s p obj tier addr sem false none = (t, some c)) :
    execMove p obj tier addr sem s = .next (emit t (.moveRefused p c)) := by
  simp only [execMove, hjob, hrequest]

/-- A MOVE whose request is not refused is the request. -/
theorem execMove_of_accepted {s t : State} {p obj tier addr sem : Nat} {j : Job} (hjob : (partOf s p).job = some j)
    (hrequest : requestMove s p obj tier addr sem false none = (t, none)) :
    execMove p obj tier addr sem s = .next t := by
  simp only [execMove, hjob, hrequest]

/-! ## A move's end (R233 to R236) -/

/-- The completion of a MOVING record: the copy, the entry HOME at the destination, the record freed or VACATED, the source's
lines discarded, the held writes, the semaphore, and the two counters. -/
theorem execMoveComplete_of_moving {s : State} {p obj : Nat} {r : MoveRec} (hmoving : movingRec s p obj = some r) :
    let s1 := objWrite (copyMove s p r) p obj (r.entry r.dstTier r.dst)
    let s2 := modPart s1 p fun q =>
      { q with moves := if r.release then q.moves.filter fun x => !(x.obj = obj && !x.vacated)
                        else q.moves.map fun x => if x.obj = obj && !x.vacated then { x with vacated := true, held := [] } else x }
    let s3 := if r.srcTier = 2 then maintain s2 p r.src r.size false true else s2
    let s4 := r.held.foldl (fun t h => heldWrite t p r.dstTier r.dst h) s3
    let s5 := signalSem s4 p (((partOf s4 p).job.map Job.seq).getD 0) r.sem 1 r.prefetch.isSome
    execMoveComplete p obj s = .next (wakeMds (odAdd (odInc s5 (Ad.partObjMoves p)) (Ad.partObjMoveBytes p) r.size)) := by
  simp only [execMoveComplete, hmoving]

theorem execMoveAbort_of_moving {s : State} {p obj : Nat} {r : MoveRec} (hmoving : movingRec s p obj = some r) :
    execMoveAbort p obj s = .next (abortMove s p r) := by
  simp only [execMoveAbort, hmoving]

/-- The release of an object with a VACATED record takes off the oldest. -/
theorem execMoveRelease_of_vacated {s : State} {p obj : Nat} {r : MoveRec} {rest : List MoveRec}
    (holdest : takeFirst (fun r => r.obj == obj && r.vacated) (partOf s p).moves = some (r, rest)) :
    execMoveRelease p obj s = .next (modPart s p fun q => { q with moves := rest }) := by
  simp only [execMoveRelease, modPart, holdest, Option.map_some, Option.getD_some]

/-! ## The prefetch schedule (R238) -/

section
variable {s : State} {p pos : Nat} {j : Job} {x : Prefetch} (hpos : (partOf s p).prefetchPos = some pos)
  (hjob : (partOf s p).job = some j) (hfree : (partOf s p).prefetchBusy = false) (hrun : inState s p .running = true)
  (hrec : prefetchRec s p pos = some (x, false)) (hgood : x.bad = false)
  (hpass : coreStop s p 0 (prefetchAddr s p pos) 32 = none)
include hpos hjob hfree hrun hrec hgood hpass

/-- A record that has had its semaphore asks for its move (log 23). -/
theorem execPrefetchRecord_of_waited (hwaited : pos < j.prefetchWaited) :
    execPrefetchRecord p s = .next (prefetchMove (farRead s p (prefetchAddr s p pos) 32 3) p pos x) := by
  simp only [execPrefetchRecord, hpos, hjob, hfree, hrun, hrec, hgood, hpass, hwaited, Bool.not_true, Bool.or_false,
    Bool.false_eq_true, if_false, if_true]

/-- One whose semaphore counts, with no cell that waits for it before, takes one from it and asks for its move. -/
theorem execPrefetchRecord_of_count (hnew : j.prefetchWaited ≤ pos)
    (hcount : 1 ≤ semCount (farRead s p (prefetchAddr s p pos) 32 3) p x.wait) (hfirst : ∀ w ∈ j.waiters, w.1 ≠ x.wait) :
    execPrefetchRecord p s =
      .next (prefetchMove (modJob (semTake (farRead s p (prefetchAddr s p pos) 32 3) p x.wait) p
        fun j => { j with prefetchWaited := pos + 1 }) p pos x) := by
  have hnone : (j.waiters.any fun w => w.1 == x.wait) = false :=
    List.any_eq_false.2 fun w hw => by simpa using hfirst w hw
  simp only [execPrefetchRecord, hpos, hjob, hfree, hrun, hrec, hgood, hpass, Nat.not_lt.2 hnew, Nat.ne_of_gt hcount, hnone,
    Bool.not_true, Bool.or_false, Bool.false_eq_true, or_false, if_false]

end

/-- A record left to the retry asks for its move again. -/
theorem execPrefetchRetry_of_busy {s : State} {p pos : Nat} {x : Prefetch} {poison : Bool}
    (hpos : (partOf s p).prefetchPos = some pos) (hbusy : (partOf s p).prefetchBusy = true)
    (hrec : prefetchRec s p pos = some (x, poison)) : execPrefetchRetry p s = .next (prefetchMove s p pos x) := by
  simp only [execPrefetchRetry, hpos, hbusy, hrec]

/-- Settles O39, one rule above per clause. -/
theorem movesAndPrefetch : Obligations.MovesAndPrefetch := by
  unfold Obligations.MovesAndPrefetch
  refine ⟨⟨?move, ?complete, ?abort, fun s p obj r rest holdest => execMoveRelease_of_vacated holdest⟩, ?record, ?retry⟩
  case move =>
    intro s p obj tier addr sem j hjob hpass hclean
    exact ⟨fun haccepted => execMove_of_accepted hjob (requestMove_of_accepted hpass hclean haccepted sem false none),
      fun c hrefused => execMove_of_refused hjob (requestMove_of_refused hpass hclean hrefused sem false none)⟩
  case complete =>
    intro s p obj r j hmoving hjob
    exact execMoveComplete_of_moving hmoving
  case abort =>
    intro s p obj r hmoving hobj
    subst hobj
    exact execMoveAbort_of_moving hmoving
  case record =>
    intro s p pos j x hpos hjob hfree hrun hrec hgood hpass
    exact ⟨execPrefetchRecord_of_count hpos hjob hfree hrun hrec hgood hpass,
      execPrefetchRecord_of_waited hpos hjob hfree hrun hrec hgood hpass⟩
  case retry =>
    intro s p pos x poison hpos hbusy hrec
    exact execPrefetchRetry_of_busy hpos hbusy hrec

end Sys2Proof.Machine

/-! # Proofs: media requests -/

namespace Sys2Proof.Machine

/-! ## A request as it issues (R265, R267, R275, R277) -/

/-- The depth of the source an ENCODE or ANALYSE names (log 119); 8 for a request that names none. -/
def issueDepth (s : State) (p op b : Nat) : Nat × State := if op = 5 ∨ op = 6 then sourceDepth s p b else (8, s)

/-- A request's fields, with the depth of its source and its number in its partition. -/
def issuedReq (s : State) (r : ReqRef) (op : Nat) (raw : List Byte) (j : Job) (depth : Nat) : MediaReq :=
  { MediaReq.ofBytes r op j.seq raw with depth := depth, serial := (partOf s r.p).mediaSerial }

/-- The partition's next number is taken. -/
def countRequest (s : State) (p : Nat) : State := modPart s p fun q => { q with mediaSerial := q.mediaSerial + 1 }

/-- A RELEASE or KEY waits for its turn behind those that wait already. -/
def joinTurns (t : State) (p ctx : Nat) (y : MediaReq) : State :=
  modPart t p fun q => { q with mediaWait := q.mediaWait ++ [(ctx, y)] }

/-- A request that passed its checks: a RELEASE or KEY waits for its turn, any other joins its context, an ENCODE with its
wish for a key picture. -/
def acceptReq (t : State) (r : ReqRef) (op : Nat) (raw : List Byte) (y : MediaReq) : State :=
  let ctx := fieldLE raw 4 4 % 2 ^ 20
  if op = 4 ∨ op = 7 then afterStart (joinTurns t r.p ctx y) r.p
  else modCtx t r.p ctx fun c =>
    { c with reqs := c.reqs ++ [y], keyAsked := c.keyAsked || (decide (op = 5) && bit (fieldLE raw 33 1) 0) }

theorem acceptReq_of_turn {op : Nat} (hop : op = 4 ∨ op = 7) (t : State) (r : ReqRef) (raw : List Byte) (y : MediaReq) :
    acceptReq t r op raw y = afterStart (joinTurns t r.p (fieldLE raw 4 4 % 2 ^ 20) y) r.p :=
  if_pos hop

theorem acceptReq_encode (t : State) (r : ReqRef) (raw : List Byte) (y : MediaReq) :
    acceptReq t r 5 raw y = modCtx t r.p (fieldLE raw 4 4 % 2 ^ 20) fun c =>
      { c with reqs := c.reqs ++ [y], keyAsked := c.keyAsked || bit (fieldLE raw 33 1) 0 } := rfl

/-- No request but an ENCODE asks its context for a key picture as it joins. -/
theorem acceptReq_of_join {op : Nat} (hturn : ¬(op = 4 ∨ op = 7)) (hkey : op ≠ 5) (t : State) (r : ReqRef) (raw : List Byte)
    (y : MediaReq) :
    acceptReq t r op raw y = modCtx t r.p (fieldLE raw 4 4 % 2 ^ 20) fun c => { c with reqs := c.reqs ++ [y] } := by
  simp only [acceptReq, hturn, hkey, decide_false, Bool.false_and, Bool.or_false, if_false]

/-- A request that failed a check completes with the check's code; a poisoned record, code 6, rejects its context. -/
def refuseReq (t : State) (r : ReqRef) (raw : List Byte) (y : MediaReq) (code : Nat) : State :=
  let ctx := fieldLE raw 4 4 % 2 ^ 20
  mediaDone (if code = 6 then endSample (modCtx (setCtxState t r.p ctx 5) r.p ctx fun c => { c with copy := [] }) r.p ctx 6 else t)
    y code

theorem refuseReq_of_ne {code : Nat} (hcode : code ≠ 6) (t : State) (r : ReqRef) (raw : List Byte) (y : MediaReq) :
    refuseReq t r raw y code = mediaDone t y code := by
  simp only [refuseReq, hcode, if_false]

/-- An issue takes the request's number, then accepts or refuses it by the codes of Table 10.10 (R283). -/
theorem mediaIssue_of_job {s : State} {r : ReqRef} {j : Job} (hjob : (partOf s r.p).job = some j) (op : Nat) (raw : List Byte) :
    let d := issueDepth s r.p op (fieldLE raw 20 4)
    let y := issuedReq s r op raw j d.1
    let t := countRequest d.2 r.p
    mediaIssue s r op raw = (mediaCheck t r op raw y).elim (acceptReq t r op raw y) (refuseReq t r raw y) := by
  intro d y t
  unfold mediaIssue
  rw [hjob]
  dsimp only
  split
  next code hfail => rw [show mediaCheck t r op raw y = some code from hfail]; rfl
  next hpass => rw [show mediaCheck t r op raw y = none from hpass]; rfl

/-- What a row that issues a request answers: `hrow` names the request's OP (Table 10.6), `hdepth` what gives its depth
and `haccept` what accepts it. -/
theorem exec_of_mediaIssue {s : State} {r : ReqRef} {raw : List Byte} {j : Job} (hjob : (partOf s r.p).job = some j)
    {x : Instr} {op : Nat} {d : Nat × State} {f : State → MediaReq → State}
    (hrow : exec x s = .next (mediaIssue s r op raw)) (hdepth : issueDepth s r.p op (fieldLE raw 20 4) = d)
    (haccept : ∀ t y, acceptReq t r op raw y = f t y) :
    let y := issuedReq s r op raw j d.1
    let t := countRequest d.2 r.p
    (mediaCheck t r op raw y = none → exec x s = .next (f t y)) ∧
      ∀ code, code ≠ 6 → mediaCheck t r op raw y = some code → exec x s = .next (mediaDone t y code) := by
  subst hdepth
  intro y t
  rw [hrow, mediaIssue_of_job hjob]
  refine ⟨fun hpass => ?accepted, fun code hcode hfail => ?refused⟩
  case accepted => rw [hpass, Option.elim_none, haccept]
  case refused => rw [hfail, Option.elim_some, refuseReq_of_ne hcode]

/-! ## Turns (R265, R267, R277) -/

/-- A RELEASE or KEY whose turn has come as it joins, with none waiting before it, is performed at once. -/
theorem afterStart_of_first {t : State} {p ctx : Nat} {y : MediaReq} (hempty : (partOf t p).mediaWait = [])
    (hturn : mayStart (joinTurns t p ctx y) p y = true) :
    afterStart (joinTurns t p ctx y) p =
      instantReq (modPart (joinTurns t p ctx y) p fun q => { q with mediaWait := [] }) p ctx y := by
  have hwait : (partOf (joinTurns t p ctx y) p).mediaWait = [(ctx, y)] := by
    simp only [joinTurns, partOf_modPart_self, hempty, List.nil_append]
  simp only [afterStart, hwait, List.length_singleton, runInstant, takeFirst, hturn, if_true]

/-- Settles O41: each row issues its request, and a RELEASE or KEY that is first is performed as it joins. -/
theorem mediaRequests : Obligations.MediaRequests := by
  unfold Obligations.MediaRequests
  intro s r raw j hjob ctx issues joins keyed waits src
  have hissues (x : Instr) (op : Nat) {d : Nat × State} {f : State → MediaReq → State}
      (hrow : exec x s = .next (mediaIssue s r op raw)) (hdepth : issueDepth s r.p op (fieldLE raw 20 4) = d)
      (haccept : ∀ t y, acceptReq t r op raw y = f t y) : issues x op d f := exec_of_mediaIssue hjob hrow hdepth haccept
  have hjoins (op : Nat) (hop : ¬(op = 4 ∨ op = 7)) (hkey : op ≠ 5) (t : State) (y : MediaReq) :
      acceptReq t r op raw y = joins t y := acceptReq_of_join hop hkey t r raw y
  have hwaits (op : Nat) (hop : op = 4 ∨ op = 7) (t : State) (y : MediaReq) :
      acceptReq t r op raw y = afterStart (waits t y) r.p := acceptReq_of_turn hop t r raw y
  refine ⟨?decode, ?flush, ?reset, ?analyse, ?encode, ?release, ?key, fun t y => afterStart_of_first⟩
  case decode => exact hissues (.decode r raw) 1 rfl rfl (hjoins 1 (by decide) (by decide))
  case flush => exact hissues (.flush r raw) 2 rfl rfl (hjoins 2 (by decide) (by decide))
  case reset => exact hissues (.reset r raw) 3 rfl rfl (hjoins 3 (by decide) (by decide))
  case analyse => exact hissues (.analyse r raw) 6 rfl rfl (hjoins 6 (by decide) (by decide))
  case encode => exact hissues (.encode r raw) 5 rfl rfl fun t y => acceptReq_encode t r raw y
  case release => exact hissues (.release r raw) 4 rfl rfl (hwaits 4 (by decide))
  case key => exact hissues (.key r raw) 7 rfl rfl (hwaits 7 (by decide))

end Sys2Proof.Machine

/-! # Proofs: pictures, buffers, slices and drains of the media engines -/

namespace Sys2Proof.Machine

/-! ## The start of a picture (R263, R264, R280) -/

/-- What an engine does for the request at the head of the context it has gone on: a picture, or for a FLUSH or RESET its
drain. -/
def serveHead (t : State) (e : Nat) (pic : PicStart) (q : MediaReq) : State :=
  if q.op = 1 then startDecode t e pic.p pic.ctx pic q
  else if q.op = 5 then startEncode t e pic.p pic.ctx pic q
  else if q.op = 6 then startAnalyse t e pic.p pic.ctx q
  else startDrain t pic.p pic.ctx (q.op - 1) false

section
variable {q : MediaReq} (t : State) (e : Nat) (pic : PicStart)

theorem serveHead_of_decode (hop : q.op = 1) : serveHead t e pic q = startDecode t e pic.p pic.ctx pic q := if_pos hop

theorem serveHead_of_encode (hop : q.op = 5) : serveHead t e pic q = startEncode t e pic.p pic.ctx pic q := by
  rw [serveHead, if_neg (by omega), if_pos hop]

theorem serveHead_of_analyse (hop : q.op = 6) : serveHead t e pic q = startAnalyse t e pic.p pic.ctx q := by
  rw [serveHead, if_neg (by omega), if_neg (by omega), if_pos hop]

/-- The drains of FLUSH, request 2, and RESET, request 3, are of kinds 1 and 2. -/
theorem serveHead_of_drain {kind : Nat} (hkind : kind = 1 ∨ kind = 2) (hop : q.op = kind + 1) :
    serveHead t e pic q = startDrain t pic.p pic.ctx kind false := by
  rw [serveHead, if_neg (by omega), if_neg (by omega), if_neg (by omega), hop, Nat.add_sub_cancel]

end

/-- An idle engine that serves the partition next goes on the context, whose record and parameter sets read without poison,
and serves its head. -/
theorem execPictureStart_of_ready {s : State} {e : Nat} {pic : PicStart} {q : MediaReq} (hidle : engineBusy s e = false)
    (hserves : servesNext s e pic.p = true) (hcut : blockCut s (engineBlock e) = false)
    (hready : ctxReady s pic.p pic.ctx e = some q) (hrecord : (farView s pic.p (ctxAddr s pic.p pic.ctx) 2048).2 = false)
    (hpsets : (farView s pic.p (ctxField s pic.p pic.ctx 32 8 % 2 ^ 41) (ctxSt s pic.p pic.ctx).psetLen).2 = false) :
    execPictureStart e pic s = .next (serveHead (startHead (takeOn s e pic.p pic.ctx) pic.p pic.ctx) e pic q) := by
  simp only [execPictureStart, hidle, hserves, hcut, hready, hrecord, hpsets, Bool.not_true, Bool.or_false, Bool.false_eq_true,
    or_false, if_false]
  split
  next hop => rw [serveHead_of_decode _ e pic hop]
  next hop => rw [serveHead_of_encode _ e pic hop]
  next hop => rw [serveHead_of_analyse _ e pic hop]
  next hdecode hencode hanalyse => rw [serveHead, if_neg hdecode, if_neg hencode, if_neg hanalyse]

/-! ## The end of a picture, and of its budget (R259, R271, R281) -/

section
variable {s : State} {e p ctx : Nat} (hbusy : (engineOf s e).busy = some (p, ctx))
include hbusy

theorem execPictureEnd_of_decode (he : e < 16) (fin : PicEnd) :
    execPictureEnd e fin s = .next (endDecode s e p ctx fin) := by
  simp only [execPictureEnd, hbusy, he, if_true]

theorem execPictureEnd_of_analyse (he : 16 ≤ e) (hkind : ctxKind s p ctx = 2) (fin : PicEnd) :
    execPictureEnd e fin s = .next (endAnalyse s e p ctx fin) := by
  simp only [execPictureEnd, hbusy, Nat.not_lt.2 he, hkind, if_true, if_false]

/-- A decode engine's first budget end in a picture is noted with the blocks rebuilt, and counted. -/
theorem execDecodeBudgetAbort_of_first (he : e < 16) (hbudget : (engineOf s e).budget = none) (rebuilt : Nat) :
    execDecodeBudgetAbort e rebuilt s =
      .next (odInc (modEngine s e fun x => { x with budget := some rebuilt }) (Ad.partDecBudgetAborts p)) := by
  simp only [execDecodeBudgetAbort, hbusy, he, hbudget, and_self, if_true]

/-! ## Slices of an encoded frame (R276, R277) -/

section
variable (he : 16 ≤ e) (hkind : ctxKind s p ctx = 1)
include he hkind

/-- A slice before the frame's last is written with its record; it takes no more than the frame's VCLK. -/
theorem execEncodeSlice_of_more (hmore : (engineOf s e).slices + 1 < frameSlices s p ctx) (data : List Byte)
    (luma chroma : List Nat) (qp cycles : Nat) :
    let took := encodeCycles (engineOf s e) 600 (blocks16 (ctxField s p ctx 64 2) (ctxField s p ctx 66 2)) cycles
    let d := sliceCoded (writeSlice s p ctx (engineOf s e) luma chroma) e p ctx data false qp (min cycles took)
    execEncodeSlice e data luma chroma qp cycles s = .next (pushRec d.1 p ctx d.2) := by
  have hlast : decide (frameSlices s p ctx ≤ (engineOf s e).slices + 1) = false := decide_eq_false (Nat.not_le.2 hmore)
  simp only [execEncodeSlice, hbusy, Nat.not_lt.2 he, hkind, hlast, ne_eq, not_true, or_self, Bool.false_eq_true, if_false]

/-- The last slice codes the frame, and its context settles. -/
theorem execEncodeSlice_of_last (hend : frameSlices s p ctx ≤ (engineOf s e).slices + 1) (data : List Byte)
    (luma chroma : List Nat) (qp cycles : Nat) :
    let took := encodeCycles (engineOf s e) 600 (blocks16 (ctxField s p ctx 64 2) (ctxField s p ctx 66 2)) cycles
    let d := sliceCoded (writeSlice s p ctx (engineOf s e) luma chroma) e p ctx data true qp took
    execEncodeSlice e data luma chroma qp cycles s =
      .next (settleCtx (pushRec (frameCoded d.1 e p ctx (ctxField s p ctx 24 4) took (ctxSt s p ctx).encRef) p ctx d.2) p ctx) := by
  have hlast : decide (frameSlices s p ctx ≤ (engineOf s e).slices + 1) = true := decide_eq_true hend
  simp only [execEncodeSlice, hbusy, Nat.not_lt.2 he, hkind, hlast, ne_eq, not_true, or_self, if_false, if_true]

end

end

/-! ## Parked contexts go on (R260, R264, R269) -/

/-- The first context parked for a pool with a free buffer goes on the engine that is idle for it. -/
theorem execBufferUnpark_of_free {s : State} {p pool ctx b e : Nat} {rest : List (Nat × Nat)}
    (hparked : takeFirst (fun x => x.1 == pool) (partOf s p).parkedBuf = some ((pool, ctx), rest))
    (hbuffer : bufferFor s p ctx = some b) (hengine : idleEngine s p ctx = some e) :
    let t := modCtx (modPart (takeOn s e p ctx) p fun q => { q with parkedBuf := rest }) p ctx fun c => { c with resumed := true }
    execBufferUnpark p pool s = .next (ctxPut (setCtxState t p ctx 2) p ctx 4 1 0) := by
  simp only [execBufferUnpark, hparked, hbuffer, hengine]

/-- A context parked for its output, whose ring has space again and, where it holds no record, room for its frame, goes on
the engine that is idle for it and writes the records it held. -/
theorem execOutputUnpark_of_space {s : State} {p ctx e : Nat} (hstate : ctxState s p ctx = 3) (hreason : ctxField s p ctx 4 1 = 2)
    (hring : ringFull s p ctx = false) (hroom : (ctxSt s p ctx).held = [] → (ctxSt s p ctx).need ≤ bsFree s p ctx)
    (hengine : idleEngine s p ctx = some e) :
    let c := ctxSt s p ctx
    let t := modCtx (takeOn s e p ctx) p ctx fun c => { c with held := [], need := 0 }
    execOutputUnpark p ctx s = .next (settleCtx (c.held.foldl (fun t r => pushRec t p ctx r)
      (ctxPut (setCtxState t p ctx (if c.drainKind = 0 then 2 else 4)) p ctx 4 1 0)) p ctx) := by
  have hfits : ¬((ctxSt s p ctx).held = [] ∧ bsFree s p ctx < (ctxSt s p ctx).need) :=
    fun ⟨hheld, hshort⟩ => Nat.not_lt.2 (hroom hheld) hshort
  simp only [execOutputUnpark, hstate, hreason, hring, hfits, hengine, ne_eq, not_true, Bool.false_eq_true, or_self, if_false]

/-! ## Ends of drains (R264, R289) -/

/-- A drain whose records are all written leads to what began it. -/
theorem execDrainEnd_of_written {s : State} {p ctx : Nat} (hstate : ctxState s p ctx = 4) (hwritten : (ctxSt s p ctx).held = []) :
    execDrainEnd p ctx s = .next (drainEnd s p ctx) := by
  simp only [execDrainEnd, hstate, hwritten, ne_eq, not_true, or_self, if_false]

/-- A FLUSH clears the reference marks, and its request completes with the context READY. -/
theorem drainEnd_of_flush {s : State} {p ctx : Nat} (hkind : (ctxSt s p ctx).drainKind = 1) :
    let t := modCtx (clearRefs s p ctx) p ctx fun y => { y with encRef := none, lastRef := none }
    drainEnd s p ctx = endSample (finishReq t p ctx 0 1) p ctx 7 := by
  simp only [drainEnd, hkind]

/-- A RESET clears the marks and the sequence state too, and sets FRAME_INDEX. -/
theorem drainEnd_of_reset {s : State} {p ctx : Nat} (hkind : (ctxSt s p ctx).drainKind = 2) :
    let start := ((ctxSt s p ctx).reqs.map MediaReq.start).headD 0
    let t := modCtx (ctxPut (clearRefs s p ctx) p ctx 24 4 start) p ctx fun y =>
      { y with sequenced := false, pics := [], concealedRefs := [], coded := false, sinceKey := 0, encRef := none, lastRef := none,
               prevSource := none }
    drainEnd s p ctx = endSample (finishReq t p ctx 0 1) p ctx 7 := by
  simp only [drainEnd, hkind]

/-- A rejection gives its reason, is counted, and completes every request of the context, which is REJECTED. -/
theorem drainEnd_of_rejection {s : State} {p ctx : Nat} (hkind : (ctxSt s p ctx).drainKind = 3) :
    let t := odInc (ctxPut s p ctx 5 1 (ctxSt s p ctx).rejectTo) (Ad.partMediaRejects p)
    drainEnd s p ctx = endSample (failReqs t p ctx 4 5) p ctx 6 := by
  simp only [drainEnd, hkind]

/-- Settles O42, the rules above by row: the start by what the head of the context asks for, the slice by whether it is the
frame's last, the drain's end by what began it. -/
theorem mediaEngines : Obligations.MediaEngines := by
  unfold Obligations.MediaEngines
  refine ⟨?start, ?pictureEnd,
    fun s p pool ctx b e rest hparked hbuffer hengine => execBufferUnpark_of_free hparked hbuffer hengine,
    fun s p ctx e hstate hreason hring hroom hengine => execOutputUnpark_of_space hstate hreason hring hroom hengine,
    fun s e p ctx rebuilt he hbusy hbudget => execDecodeBudgetAbort_of_first hbusy he hbudget rebuilt, ?slice, ?drain⟩
  case start =>
    intro s e pic q hidle hserves hcut hready hrecord hpsets t gives
    have hstart : exec (.pictureStart e pic) s = .next (serveHead t e pic q) :=
      execPictureStart_of_ready hidle hserves hcut hready hrecord hpsets
    exact ⟨fun hop => hstart.trans (congrArg _ (serveHead_of_decode t e pic hop)),
      fun hop => hstart.trans (congrArg _ (serveHead_of_encode t e pic hop)),
      fun hop => hstart.trans (congrArg _ (serveHead_of_analyse t e pic hop)),
      fun hop => hstart.trans (congrArg _ (serveHead_of_drain t e pic (.inl rfl) hop)),
      fun hop => hstart.trans (congrArg _ (serveHead_of_drain t e pic (.inr rfl) hop))⟩
  case pictureEnd =>
    intro s e p ctx fin hbusy
    exact ⟨fun he => execPictureEnd_of_decode hbusy he fin, fun he hkind => execPictureEnd_of_analyse hbusy he hkind fin⟩
  case slice =>
    intro s e p ctx qp cycles data luma chroma he hbusy hkind
    exact ⟨fun hmore => execEncodeSlice_of_more hbusy he hkind hmore data luma chroma qp cycles,
      fun hend => execEncodeSlice_of_last hbusy he hkind hend data luma chroma qp cycles⟩
  case drain =>
    intro s p ctx hstate hwritten
    have hend : exec (.drainEnd p ctx) s = .next (drainEnd s p ctx) := execDrainEnd_of_written hstate hwritten
    exact ⟨fun hkind => hend.trans (congrArg _ (drainEnd_of_flush hkind)),
      fun hkind => hend.trans (congrArg _ (drainEnd_of_reset hkind)),
      fun hkind => hend.trans (congrArg _ (drainEnd_of_rejection hkind))⟩

end Sys2Proof.Machine

/-! # Proofs: the sample pipeline -/

namespace Sys2Proof.Machine

/-! ## A SAMPLE served (R287, R288) -/

/-- The first frame's phase gives the shape, and the boxes of every phase in BOXMODE 2 are drawn as the request issues. -/
theorem sampleIssue_of_checked {s : State} {r : ReqRef} {raw : List Byte} {j : Job} {i : Nat} (hjob : (partOf s r.p).job = some j) :
    let x : Sample := { ref := r, raw := raw, ctx := fieldLE raw 4 4 % 2 ^ 20, jobSeq := j.seq }
    activeSample s r.p x.ctx = none → hasWriter s r.p = true → sampleCheck s r.p x = .inr i →
    x.ctx < latched s r.p (Ad.partMediaCtxCount r.p) → ctxKind s r.p x.ctx = 0 → ctxState s r.p x.ctx ∈ [1, 2, 3] →
    let n := listCount s r.p x.list
    let lists := (List.range n).filterMap fun k =>
      if (phaseAt s r.p x.list k).boxmode = 2 then some (k, drawBoxes s r.p 0 0 0 (phaseAt s r.p x.list k)) else none
    let y := { x with phase := i, shape := (phaseAt s r.p x.list i).shape, listCount := n, opHash := opHash s r.p x.list, boxes := lists }
    let c := claimCache (readList s r.p x) r.p y (phaseAt s r.p x.list i)
    sampleIssue s r raw = modPart c.1 r.p fun q => { q with samples := q.samples ++ [c.2] } := by
  intro x hidle hwriter hcheck hctx hkind hstate
  have hserved : (decide (latched s r.p (Ad.partMediaCtxCount r.p) ≤ x.ctx) || decide (ctxKind s r.p x.ctx ≠ 0) ||
      !([1, 2, 3].contains (ctxState s r.p x.ctx))) = false := by
    simp only [Nat.not_le.2 hctx, hkind, List.contains_iff_mem.2 hstate, ne_eq, not_true, decide_false, Bool.not_true, Bool.or_self]
  simp only [x] at hidle hcheck hserved
  simp only [sampleIssue, hjob, hidle, hwriter, hcheck, hserved, Option.isSome_none, Bool.not_true, Bool.false_eq_true, or_self,
    if_false, x]

/-! ## A LOOKUP that misses (R306) -/

/-- No entry of the set is VALID under the request's key: a miss is counted, and the request completes with code 1. -/
theorem lookupIssue_of_miss {s : State} {r : ReqRef} {raw : List Byte} {j : Job} {i : Nat} (hjob : (partOf s r.p).job = some j) :
    let x0 : Sample := { ref := r, raw := raw, ctx := 0, jobSeq := j.seq }
    sampleCheck s r.p x0 = .inr i →
    let x := { x0 with opHash := opHash s r.p x0.list, phase := i }
    (∀ w, w < 8 → (cacheEnt s r.p (8 * cacheSet s r.p x + w)).state = 2 → (cacheEnt s r.p (8 * cacheSet s r.p x + w)).key ≠ x.key) →
    lookupIssue s r raw = sampleDone (odInc s (Ad.partSampleCacheMisses r.p)) x 1 0 0 0 := by
  intro x0 hcheck x hother
  have hmiss : (((List.range 8).map (8 * cacheSet s r.p x + ·)).find? fun w =>
      (cacheEnt s r.p w).state = 2 && (cacheEnt s r.p w).key = x.key) = none := by
    simpa only [List.find?_eq_none, List.forall_mem_map, List.mem_range, Bool.and_eq_true, decide_eq_true_eq, not_and] using hother
  simp only [x0] at hcheck
  simp only [x, x0] at hmiss
  simp only [lookupIssue, hjob, hcheck, hmiss, x, x0]

/-! ## The record at OUT_TAIL (R286, R288, R289) -/

/-- The record at OUT_TAIL of a context's output ring. -/
def tailRecord (s : State) (p ctx : Nat) : List Byte :=
  (farView s p (ctxField s p ctx 40 8 % 2 ^ 41 + 32 * (ctxField s p ctx 56 4 % max (ctxField s p ctx 48 4) 1)) 32).1

section
variable {s : State} {p ctx : Nat} {x : Sample} (hactive : activeSample s p ctx = some x) (hstate : ctxState s p ctx ≠ 5)
  (hforming : x.forming = none) (hfirst : x.lastIndex = none) (hring : ctxField s p ctx 52 4 ≠ ctxField s p ctx 56 4)
  (hlast : fieldLE (tailRecord s p ctx) 4 4 < x.last)
include hactive hstate hforming hfirst hring hlast

/-- A record before FIRST or off STEP is passed over. -/
theorem execSampleRecordTake_of_unwanted
    (hskip : fieldLE (tailRecord s p ctx) 4 4 < x.first ∨ (fieldLE (tailRecord s p ctx) 4 4 - x.first) % x.step ≠ 0) :
    let c := consumeRec s p x (tailRecord s p ctx)
    execSampleRecordTake p ctx s = .next (setSample c.1 p c.2) := by
  simp only [tailRecord] at hlast hskip
  simp only [execSampleRecordTake, tailRecord, hactive, hstate, hforming, hfirst, hring, Nat.not_le.2 hlast, hskip, Option.isSome_none,
    Option.any_none, Bool.false_eq_true, or_self, if_false, if_true]

/-- A record at FIRST plus a multiple of STEP, with a slot left and a writer free, is formed. -/
theorem execSampleRecordTake_of_wanted {e : Nat} (hfrom : x.first ≤ fieldLE (tailRecord s p ctx) 4 4)
    (hstep : (fieldLE (tailRecord s p ctx) 4 4 - x.first) % x.step = 0) (hslot : x.slots < x.nslots) (hwriter : writerFor s p = some e) :
    let r := tailRecord s p ctx
    execSampleRecordTake p ctx s = .next (formFrame s p e x (fieldLE r 4 4) r (Frame.of s p ctx r).w (Frame.of s p ctx r).h) := by
  simp only [tailRecord] at hlast hfrom hstep
  simp only [execSampleRecordTake, tailRecord, hactive, hstate, hforming, hfirst, hring, Nat.not_le.2 hlast, Nat.not_lt.2 hfrom, hstep,
    Nat.not_le.2 hslot, hwriter, Option.isSome_none, Option.any_none, ne_eq, not_true, Bool.false_eq_true, or_self, if_false]

end

/-! ## A frame formed (R289, R293 to R299) -/

/-- The frame formed ends the sample where it is the last wanted one. -/
theorem execWriterFrameDone_of_formed {s : State} {p ctx : Nat} {x : Sample} {y : SampleSlot} (hactive : activeSample s p ctx = some x)
    (hforming : x.forming = some y) (hready : frameWaits s p x y = false) (sig : ColourSignal) (cycles : Nat) :
    let t := freeWriter (readFrame s p (Frame.of s p ctx y.record) (fieldLE y.record 0 4)) p ctx cycles
    let c := frameFormed t p ctx x y sig
    execWriterFrameDone p ctx sig cycles s =
      if lastWanted x y.record x.lastIndex then .next (endSampleWith c.1 p c.2 0 true) else .next (setSample c.1 p c.2) := by
  simp only [execWriterFrameDone, hactive, hforming, hready, Bool.false_eq_true, if_false]

/-- Settles O43, the rules above by row: the lookup finds no VALID entry at all, so none under its key; the record taken is
unwanted or wanted. -/
theorem samples : Obligations.Samples := by
  unfold Obligations.Samples
  refine ⟨?sample, ?lookup, ?take,
    fun s p ctx cycles sig x y hactive hforming hready => execWriterFrameDone_of_formed hactive hforming hready sig cycles⟩
  case sample =>
    intro s r raw j i hjob x hidle hwriter hcheck hctx hkind hstate
    exact congrArg Host.Outcome.next (sampleIssue_of_checked hjob hidle hwriter hcheck hctx hkind hstate)
  case lookup =>
    intro s r raw j i hjob x0 hcheck x hempty
    exact congrArg Host.Outcome.next (lookupIssue_of_miss hjob hcheck fun w hw hvalid => absurd hvalid (hempty w hw))
  case take =>
    intro s p ctx x hactive hstate hforming hfirst hring r f hlast
    exact ⟨fun hskip => execSampleRecordTake_of_unwanted hactive hstate hforming hfirst hring hlast hskip,
      fun e hfrom hstep hslot hwriter =>
        execSampleRecordTake_of_wanted hactive hstate hforming hfirst hring hlast hfrom hstep hslot hwriter⟩

end Sys2Proof.Machine

/-! # Proofs: transmission -/

namespace Sys2Proof.Machine

theorem sessOf_of_tget {s : State} {n : Nat} {x : Sess} (h : tget s.net.sessions n = some x) : sessOf s n = x := by
  rw [sessOf, h, Option.getD_some]

/-- A session changed twice. -/
theorem modSess_modSess (s : State) (n : Nat) (f g : Sess → Sess) : modSess (modSess s n f) n g = modSess s n (g ∘ f) := by
  rw [modSess, sessOf_modSess_self]
  simp only [modSess, tset_tset, Function.comp]

/-- What a change of a session makes depends on the session alone. -/
theorem modSess_congr {s : State} {n : Nat} {f g : Sess → Sess} (h : f (sessOf s n) = g (sessOf s n)) :
    modSess s n f = modSess s n g := by
  rw [modSess, modSess, h]

/-! ## A packet sent (R317, R332, R333) -/

section
variable {s : State} {n port : Nat} (hmay : (sessOf s n).mayTransmit = true) (hnext : nextTx s n ≠ .nothing)
  (hport : nextPort s (sessOf s n) = some port)
include hmay hnext hport

/-- Without a credit the session waits for one. -/
theorem transmitNext_of_no_credit (hcredit : creditFor s (sessOf s n).part (portDie port) = none) (now : Nat) (srcOk poison : Bool) :
    transmitNext s n now srcOk poison = modNet s fun w => { w with waitCredit := addTo w.waitCredit n } := by
  simp only [transmitNext, hmay, hnext, hport, hcredit, Option.isNone_none, Bool.not_true, decide_false, Bool.or_self,
    Bool.false_eq_true, if_false, if_true]

/-- A session that waits no longer, its packet charged on the port. -/
def charged (s : State) (n port : Nat) : State :=
  chargePort (modNet s fun w => { w with waitCredit := w.waitCredit.filter (· ≠ n) }) port (sessOf s n).part

/-- With a credit and the port's turn the packet leaves from what its source holds. -/
theorem transmitNext_of_credit (hcredit : (creditFor s (sessOf s n).part (portDie port)).isSome = true)
    (hturn : portServes s port (sessOf s n).part = true) (now : Nat) (srcOk poison : Bool) :
    transmitNext s n now srcOk poison = match txSource s n with
      | none => transmitOn (charged s n port) n port now srcOk poison
      | some a => match netStop s (sessOf s n).part a.1 a.2 with
        | some t => t
        | none => transmitOn (netSeen (charged s n port) (sessOf s n).part a.1 a.2) n port now srcOk poison := by
  have hheld : (creditFor s (sessOf s n).part (portDie port)).isNone = false := by
    rw [← Option.not_isSome, hcredit, Bool.not_true]
  simp only [transmitNext, hmay, hnext, hport, hheld, hturn, Bool.not_true, decide_false, Bool.or_self, Bool.false_eq_true,
    if_false] <;> rfl

end

/-- The session first in the line for a credit sends when its port's die has one. -/
theorem execNetCreditAvailable_of_first {s : State} {n port : Nat} {rest : List Nat} (hwait : s.net.waitCredit = n :: rest)
    (hport : nextPort s (sessOf s n) = some port) (now : Nat) :
    execNetCreditAvailable (portDie port) now s = .next (transmitNext s n now true false) := by
  have hfirst : ((nextPort s (sessOf s n)).any fun q => portDie q = portDie port) = true := by
    simp only [hport, Option.any_some, decide_true]
  simp only [execNetCreditAvailable, hwait, List.find?_cons, hfirst]

/-! ## Acknowledging, and sending again (R326, R328, R334) -/

theorem execAckTimer_of_pending {s : State} {n : Nat} (hsends : (sessOf s n).sends = true) (hpend : 0 < (sessOf s n).rxPend) :
    execAckTimer n s = .next (sendAck s n) := by
  simp only [execAckTimer, hsends, hpend, decide_true, Bool.and_self, if_true]

/-- A time-out sends every packet outstanding again, and halves the window. -/
theorem execRetransmitTimeout_of_unacked {s : State} {n : Nat} {x : Sess} (hx : tget s.net.sessions n = some x)
    (hsends : x.sends = true) (hunacked : x.unacked ≠ []) (now : Nat) :
    execRetransmitTimeout n now s = .next (modSess s n fun _ =>
      { x with unacked := [], outq := x.outq ++ x.unacked.map (fun t => { t.pkt with retrans := true }),
               window := max 1 (x.window / 2), tCut := now, backoff := x.backoff + 1 }) := by
  have hsess : sessOf s n = x := sessOf_of_tget hx
  simp only [execRetransmitTimeout, hsess, hsends, hunacked, resend, modSess_modSess, Bool.true_and, ne_eq, not_false_eq_true,
    decide_true, if_true, Host.Outcome.next.injEq]
  refine modSess_congr ?_
  simp only [Function.comp, hsess, Sess.onTimeout, Bool.not_true, List.filter_false, List.filter_true]

theorem execSessionFail_of_unacked {s : State} {n : Nat} (hstate : (sessOf s n).state = .opened) (hunacked : (sessOf s n).unacked ≠ []) :
    execSessionFail n s = .next (failSess s n 0x10) :=
  if_pos ⟨.inl hstate, .inl hunacked⟩

/-- The packets of a message that RNR made wait go again, and the next wait doubles up to 5 ms. -/
theorem execRnrResend_of_message {s : State} {n id : Nat} {m : Msg} (hresps : (sessOf s n).resps = [])
    (hmsg : tget s.net.msgs id = some m) (hsess : m.sess = n) (hrnr : m.rnr = true) :
    execRnrResend n id s = .next (modSess (resend (modMsg s id fun y => { y with rnr := false }) n
      fun k => k.msg / 4096 = id && !k.response && decide (k.type ≤ 3)) n fun x => { x with rnrUs := min 5000 (2 * x.rnrUs) }) := by
  simp only [execRnrResend, hresps, List.find?_nil, hmsg, hsess, hrnr, and_self, if_true]

/-! ## The window (R329) -/

/-- An acknowledgement cuts a window to no less than one packet, and adds to it within its maximum. -/
theorem one_le_window_onAck {x : Sess} (hmax : 1 ≤ x.windowMax) (hwindow : 1 ≤ x.window) (acked ce now : Nat) :
    1 ≤ (x.onAck acked ce now).window := by
  have hmax' : (1 : Rat) ≤ (x.windowMax : Rat) := Nat.one_le_cast.2 hmax
  have hcut : 1 ≤ if decide (0 < ce) && decide (x.srtt ≤ ((now - x.tCut : Nat) : Rat)) then max 1 (x.window * (1 - x.alpha / 2))
      else x.window := by
    split
    · exact le_max_left _ _
    · exact hwindow
  rw [Sess.onAck]
  generalize (if decide (0 < ce) && decide (x.srtt ≤ ((now - x.tCut : Nat) : Rat)) then max 1 (x.window * (1 - x.alpha / 2))
      else x.window) = w at hcut
  split
  · dsimp only
    split
    · exact le_min hmax' (le_add_of_le_of_nonneg hcut zero_le_one)
    · exact hcut
  · exact hcut

theorem one_le_window_onTimeout (x : Sess) (now : Nat) : 1 ≤ (x.onTimeout now).window :=
  le_max_left _ _

/-- Settles O48, the rules above by row: a packet by its credit and its source, the timers, the bounds of the window. -/
theorem transmission : Obligations.Transmission := by
  unfold Obligations.Transmission
  refine ⟨?send, fun s n hsends hpend => execAckTimer_of_pending hsends hpend,
    fun s n now x hx hsends hunacked => execRetransmitTimeout_of_unacked hx hsends hunacked now,
    fun s n hstate hunacked => execSessionFail_of_unacked hstate hunacked,
    fun s n id m hresps hmsg hsess hrnr => execRnrResend_of_message hresps hmsg hsess hrnr,
    fun x acked ce now hmax hwindow => ⟨one_le_window_onAck hmax hwindow acked ce now, one_le_window_onTimeout x now⟩⟩
  case send =>
    intro s n now port hmay hnext hport p
    refine ⟨fun hcredit srcOk poison => congrArg _ (transmitNext_of_no_credit hmay hnext hport hcredit now srcOk poison), ?_⟩
    intro hcredit hturn s1 sends
    have hsends : ∀ t : State, (∀ srcOk poison, transmitNext s n now srcOk poison = transmitOn t n port now srcOk poison) → sends t :=
      fun t ht => ⟨fun srcOk poison => congrArg _ (ht srcOk poison),
        fun rest hwait => (execNetCreditAvailable_of_first hwait hport now).trans (congrArg _ (ht true false))⟩
    have hgoes := transmitNext_of_credit hmay hnext hport hcredit hturn now
    constructor
    · intro hsource
      refine hsends _ fun srcOk poison => ?_
      rw [hgoes, hsource]
      rfl
    · intro a hsource hstop
      refine hsends _ fun srcOk poison => ?_
      rw [hgoes, hsource]
      simp only [p] at hstop
      simp only [hstop]
      rfl

end Sys2Proof.Machine

/-! # Proofs: frames -/

namespace Sys2Proof.Machine

/-! ## Frames received (R312, R314 to R316, R332) -/

theorem execEthFrameReceive_of_pause {f : EthFrame} (hpause : f.pause = true) (s : State) (port : Nat) :
    execEthFrameReceive port f s = .next (odInc (odAdd s (Ad.netPortRxBytes port) f.bytes) Ad.netPauseIgnored) :=
  if_pos hpause

/-- A frame sorted as NCT: of a length, an address, a port and a checksum that the part takes (R312). -/
structure NctFrame (s : State) (p : Nat) (f : EthFrame) : Prop where
  pause : f.pause = false
  bytes : f.bytes ≤ 4226
  vlan : f.vlan = false
  mac : f.macOk = true
  part : f.dstPart = some p
  icmp : f.icmp = false
  udp : f.udpPort = some (atReset s Ad.netNctUdpPort)
  checksum : f.checksumOk = true

/-- An NCT packet is counted where it is not authentic, dropped without a credit, and else sorted by its type. -/
theorem execEthFrameReceive_of_nct {s : State} {p : Nat} {f : EthFrame} (h : NctFrame s p f) (port : Nat) :
    execEthFrameReceive port f s =
      let s1 := odAdd s (Ad.netPortRxBytes port) f.bytes
      if unauthentic s f p then .next (odInc s1 Ad.netRxAuthFail)
      else match creditFor s p (portDie port) with
        | none => .next (dropFrame s1 port)
        | some shared =>
          if [1, 2, 3].contains (framePkt f).type then
            .next (modNet s1 fun w => { w with inPkts := w.inPkts ++ [⟨(framePkt f).dst, (framePkt f).psn, portDie port, p, shared⟩] })
          else .next s1 := by
  obtain ⟨hpause, hbytes, hvlan, hmac, hpart, hicmp, hudp, hchecksum⟩ := h
  simp only [execEthFrameReceive, hpause, Nat.not_lt.2 hbytes, hvlan, hmac, hpart, hicmp, hudp, hchecksum, ne_eq, not_true,
    Bool.not_true, Bool.false_eq_true, or_self, if_false] <;> rfl

theorem contains_placed_iff (t : Nat) : [1, 2, 3].contains t = true ↔ t = 1 ∨ t = 2 ∨ t = 3 := by
  simp only [List.contains_iff_mem, List.mem_cons, List.not_mem_nil, or_false]

/-! ## The OC's answers (R313, R314) -/

/-- An answer to a request handed to the OC leaves while the port has sent fewer than 10,000 in the second. -/
theorem execOcIcmpReply_of_left {s : State} {port left : Nat} {f : OcFrame} (hleft : tget s.net.icmp port = some (left + 1))
    (hmac : f.srcMacOk = true) (hnet : f.srcPrefixOk = true) :
    let sec := nowNs s / 10 ^ 9
    let sent := ((tget s.net.ocSent port).filter fun x => x.1 = sec).elim 0 Prod.snd
    sent < 10000 →
    execOcIcmpReply port f s = .next (emit (modNet (modNet s fun w => { w with icmp := tset w.icmp port left }) fun w =>
      { w with ocSent := tset w.ocSent port (sec, sent + 1) }) (.ocFrame port)) := by
  intro sec sent hsent
  simp only [sent, sec] at hsent
  simp only [execOcIcmpReply, hleft, hmac, hnet, Nat.not_le.2 hsent, Option.getD_some, Nat.add_one_ne_zero, Nat.add_sub_cancel,
    Bool.not_true, Bool.false_eq_true, or_self, if_false, sent, sec]

/-- Settles O44: a frame is paused or sorted as NCT, and an NCT packet goes by its authenticity, its credit and its type. -/
theorem frames : Obligations.Frames := by
  unfold Obligations.Frames
  refine ⟨fun s port f hpause => execEthFrameReceive_of_pause hpause s port, ?nct,
    fun s port left f hleft hmac hnet => execOcIcmpReply_of_left hleft hmac hnet⟩
  case nct =>
    intro s port p f hpause hbytes hvlan hmac hpart hicmp hudp hchecksum s1 k
    have hframe := execEthFrameReceive_of_nct ⟨hpause, hbytes, hvlan, hmac, hpart, hicmp, hudp, hchecksum⟩ port
    refine ⟨fun hfalse => hframe.trans (if_pos hfalse), fun htrue => ?_⟩
    simp only [htrue, Bool.false_eq_true, if_false] at hframe
    refine ⟨fun shared hcredit => ?_, fun hcredit => ?_⟩
    · simp only [hcredit] at hframe
      refine ⟨fun htype => hframe.trans (if_pos ((contains_placed_iff _).2 htype)), fun htype => hframe.trans (if_neg ?_)⟩
      rw [contains_placed_iff]
      simp only [k] at htype
      omega
    · simp only [hcredit] at hframe
      exact hframe

end Sys2Proof.Machine

/-! # Proofs: packets received -/

namespace Sys2Proof.Machine

/-! ## Sessions that take packets (R316, R334) -/

theorem live_of_opened {x : Sess} (h : x.state = .opened) : x.live = true := by
  rw [Sess.live, h]

theorem live_of_rekeying {x : Sess} (h : x.state = .rekeying) : x.live = true := by
  rw [Sess.live, h]

/-- On an open session whose job runs, a packet that repeats nothing is acted on. -/
theorem rxStop_of_opened {s : State} {k : Pkt} (hstate : (sessOf s k.dst).state = .opened)
    (hruns : sessRuns s (sessOf s k.dst) = true) (hfilter : rxFilter s k.dst k = none) : rxStop s k = none := by
  simp only [rxStop, live_of_opened hstate, hstate, hruns, hfilter, reduceCtorEq, Bool.not_true, Bool.false_eq_true, or_self,
    if_false, Option.map_none]

/-! ## DATA, GET_REQ and SIGNAL (R323, R324, R327) -/

/-- A packet of a put is placed where its region says. -/
theorem execData_of_region {s : State} {k : Pkt} {place off : Nat} (hput : k.response = false) (hregion : k.rkey / 65536 ≠ 0xFFFF)
    (hstop : rxStop s k = none)
    (haccess : regionAccess s (sessOf s k.dst).part k.rkey k.offset k.payload.length true = .inr (place, off))
    (hfree : netHolds s (sessOf s k.dst).part place off k.payload.length = false) :
    execData k s = .next (settleRx (rxPlaced (netWrite (regionSeen (noteRx s k.dst k) (sessOf s k.dst).part k.rkey)
      (sessOf s k.dst).part place off k.payload false) k.dst k) k.dst) := by
  simp only [execData, hput, hregion, hstop, haccess, hfree, Bool.false_eq_true, if_false]

/-- A SIGNAL or GET_REQ acted on is held with those of its session, and those due act. -/
theorem takeOrdered_of_taken {s : State} {k : Pkt} (hstop : rxStop s k = none) :
    takeOrdered k s = settleRx (modSess (noteRx s k.dst k) k.dst fun x =>
      { x with rxGot := x.rxGot ++ [(k.msn, k.index)], rxHeld := x.rxHeld ++ [k] }) k.dst := by
  simp only [takeOrdered, hstop]

/-! ## ACK (R321, R326, R328, R329) -/

@[simp] theorem measure_state (x : Sess) (rtt : Nat) : (x.measure rtt).state = x.state := by
  simp only [Sess.measure]; split <;> rfl
@[simp] theorem measure_unacked (x : Sess) (rtt : Nat) : (x.measure rtt).unacked = x.unacked := by
  simp only [Sess.measure]; split <;> rfl
@[simp] theorem onAck_state (x : Sess) (acked ce now : Nat) : (x.onAck acked ce now).state = x.state := by
  exact (apply_ite _ _ _ _).trans (ite_self _)
@[simp] theorem onAck_unacked (x : Sess) (acked ce now : Nat) : (x.onAck acked ce now).unacked = x.unacked := by
  exact (apply_ite _ _ _ _).trans (ite_self _)

theorem modMsg_of_tget {s : State} {id : Nat} {m : Msg} (h : tget s.net.msgs id = some m) (f : Msg → Msg) :
    modMsg s id f = modNet s fun w => { w with msgs := tset w.msgs id (f m) } := by
  simp only [modMsg, h]

@[simp] theorem sessOf_modMsg (s : State) (id : Nat) (f : Msg → Msg) (n : Nat) : sessOf (modMsg s id f) n = sessOf s n := by
  simp only [modMsg]; split <;> rfl

/-- Messages and sessions are apart. -/
theorem modSess_modMsg (s : State) (id n : Nat) (f : Msg → Msg) (g : Sess → Sess) :
    modSess (modMsg s id f) n g = modMsg (modSess s n g) id f := by
  cases h : tget s.net.msgs id with
  | none => simp only [modMsg, modSess, h]
  | some m => simp only [modMsg, modSess, modNet, sessOf, h]

/-- With nothing outstanding there is nothing to send again. -/
theorem resend_of_unacked_nil {s : State} {n : Nat} (hnil : (sessOf s n).unacked = []) (lost : Pkt → Bool) :
    resend s n lost = modSess s n id := by
  refine modSess_congr ?_
  simp only [hnil, List.filter_nil, List.map_nil, List.append_nil, id_eq]
  rw [← hnil]

/-- With nothing outstanding and no CLOSE under way, an ACK has no more to do. -/
theorem settled_of_unacked_nil {z : Sess} (hnil : z.unacked = []) (hstate : z.state ≠ .closing) (s : State) (n id : Nat)
    (f : Msg → Msg) {lost : Pkt → Bool} {acked : List Pkt} :
    closeAcked (resend (modMsg (modSess s n fun _ => z) id f) n lost) n acked = modMsg (modSess s n fun _ => z) id f := by
  have hsess : sessOf (modMsg (modSess s n fun _ => z) id f) n = z := by rw [sessOf_modMsg, sessOf_modSess_self]
  have hresend : resend (modMsg (modSess s n fun _ => z) id f) n lost = modMsg (modSess s n fun _ => z) id f := by
    rw [resend_of_unacked_nil (by rw [hsess, hnil]), modSess_modMsg, modSess_modSess]
    rfl
  rw [hresend, closeAcked, hsess, if_neg fun h => hstate h.1]

/-- A packet of a message acknowledged while others are not: its message lives on. -/
theorem ackedPkt_of_more {s : State} {k : Pkt} {m : Msg} (hresponse : k.response = false) (htype : k.type = 1)
    (hmsg : tget s.net.msgs (k.msg / 4096) = some m) (hmore : (addTo m.acked k.index).length < m.count) (n : Nat) :
    ackedPkt s n k = modMsg s (k.msg / 4096) fun m => { m with acked := addTo m.acked k.index } := by
  simp only [ackedPkt, hresponse, htype, modMsg_of_tget hmsg, releaseIfDone, modNet, tget_tset_self, Nat.ne_of_lt hmore,
    Bool.false_eq_true, Nat.reduceEqDiff, true_or, false_and, if_false, if_true]

/-- An ACK that covers the one packet outstanding. -/
theorem execAck_of_only {s : State} {k : Pkt} {now : Nat} {h : Tx} {m : Msg} (hstate : (sessOf s k.dst).state = .opened)
    (hgen : staleMsg s k.msg = false) (honly : (sessOf s k.dst).unacked = [h])
    (hcovers : ackCovers (fieldLE k.payload 0 8) (fieldLE k.payload 8 8) h.pkt.psn = true) (hfirst : h.pkt.retrans = false)
    (hresponse : h.pkt.response = false) (htype : h.pkt.type = 1) (hmsg : tget s.net.msgs (h.pkt.msg / 4096) = some m)
    (hmore : (addTo m.acked h.pkt.index).length < m.count) :
    let x := { sessOf s k.dst with unacked := [], peerMark := fieldLE k.payload 20 4 }
    let y := (x.measure (now - h.sentAt)).onAck 1 (fieldLE k.payload 16 4) now
    execAck k now s = .next (modMsg (modSess s k.dst fun _ => { y with backoff := 0 }) (h.pkt.msg / 4096) fun m =>
      { m with acked := addTo m.acked h.pkt.index }) := by
  intro x y
  have hacked : ∀ z : Sess, ackedPkt (modSess s k.dst fun _ => z) k.dst h.pkt = modMsg (modSess s k.dst fun _ => z)
      (h.pkt.msg / 4096) fun m => { m with acked := addTo m.acked h.pkt.index } :=
    fun z => ackedPkt_of_more hresponse htype (show tget (modSess s k.dst fun _ => z).net.msgs _ = _ from hmsg) hmore k.dst
  simp only [execAck, live_of_opened hstate, hstate, hgen, honly, hcovers, hfirst, List.filter_cons, List.filter_nil,
    Bool.not_true, Bool.not_false, Bool.false_eq_true, reduceCtorEq, false_and, if_false, if_true, List.getLast?_singleton,
    List.length_singleton, List.foldl_cons, List.foldl_nil, hacked, x, y]
  rw [settled_of_unacked_nil]
  · simp only [onAck_unacked, measure_unacked]
  · simp only [onAck_state, measure_state, ne_eq, reduceCtorEq, not_false_eq_true]

/-- A NAK other than RNR ends its message. -/
theorem execNak_of_refused {s : State} {k : Pkt} (hstate : (sessOf s k.dst).state = .opened) (hcode : fieldLE k.payload 8 1 ≠ 1) :
    let s1 := modSess (noteRx s k.dst k) k.dst fun y => { y with backoff := 0 }
    staleMsg s1 (fieldLE k.payload 0 4) = false →
    execNak k s = .next (endMsg s1 (fieldLE k.payload 0 4 / 4096) (fieldLE k.payload 8 1) (fieldLE k.payload 16 8)) := by
  intro s1 hgen
  simp only [s1] at hgen
  simp only [execNak, live_of_opened hstate, hstate, hcode, hgen, Bool.not_true, Bool.false_eq_true, reduceCtorEq, false_and,
    if_false, s1]

/-- A CLOSE is acknowledged, and fails the session. -/
theorem execClose_of_open {s : State} {k : Pkt} (hopen : (sessOf s k.dst).state = .opened ∨ (sessOf s k.dst).state = .rekeying) :
    execClose k s = .next (failSess (sendAck (noteRx s k.dst k) k.dst) k.dst 0x11) := by
  have hlive : (sessOf s k.dst).live = true := hopen.elim live_of_opened live_of_rekeying
  have hparked : (sessOf s k.dst).state ≠ .parked := by
    rcases hopen with h | h <;> rw [h] <;> decide
  simp only [execClose, hlive, hparked, hopen, Bool.not_true, Bool.false_eq_true, if_false, if_true]

/-- Settles O45, the rules above by row; the filter of R327 does not look at a packet's type. -/
theorem receivedPackets : Obligations.ReceivedPackets := by
  unfold Obligations.ReceivedPackets
  refine ⟨?data, ?ordered, ?ack, fun s k hstate hcode => execNak_of_refused hstate hcode, fun s k hopen => execClose_of_open hopen⟩
  case data =>
    intro s k place off hput hregion hstate hruns hfilter p haccess hfree
    exact execData_of_region hput hregion (rxStop_of_opened hstate hruns hfilter) haccess hfree
  case ordered =>
    intro s k hstate hruns hfilter takes
    have hstop : ∀ type, rxStop s { k with type := type } = none :=
      fun type => rxStop_of_opened (k := { k with type := type }) hstate hruns hfilter
    exact ⟨congrArg _ (takeOrdered_of_taken (hstop 2)), congrArg _ (takeOrdered_of_taken (hstop 3))⟩
  case ack =>
    intro s k now h m hstate hgen honly hcovers hfirst hresponse htype hmsg hmore
    exact execAck_of_only hstate hgen honly hcovers hfirst hresponse htype hmsg hmore

end Sys2Proof.Machine

/-! # Proofs: handshakes -/

namespace Sys2Proof.Machine

theorem sends_of_opened {x : Sess} (h : x.state = .opened) : x.sends = true := by
  rw [Sess.sends, live_of_opened h, h]; rfl

theorem sends_of_rekeying {x : Sess} (h : x.state = .rekeying) : x.sends = true := by
  rw [Sess.sends, live_of_rekeying h, h]; rfl

/-! ## HELLO and REPLY (R318, R388, R394) -/

theorem execHello_of_repeat {s : State} {h : Shake} {n : Nat} (hkeys : keysMade s = true) (hrepeat : repeatOf s h = some n) :
    execHello h s = .next (queueShake s ⟨n, h.peer, h.src, false, 0, h.p⟩) := by
  simp only [execHello, hkeys, hrepeat, Bool.not_true, Bool.false_eq_true, if_false]

theorem execHello_of_refused {s : State} {h : Shake} {c : Nat} (hkeys : keysMade s = true) (hnew : repeatOf s h = none)
    (hrefused : helloRefusal s h = some c) :
    execHello h s = .next (queueShake s ⟨0xFFFF, h.peer, h.src, false, c, h.p⟩) := by
  simp only [execHello, hkeys, hnew, hrefused, Bool.not_true, Bool.false_eq_true, if_false]

/-- A HELLO that nothing refuses opens the lowest free session. -/
theorem execHello_of_accepted {s : State} {h : Shake} {n : Nat} (hkeys : keysMade s = true) (hnew : repeatOf s h = none)
    (haccepted : helloRefusal s h = none) (hfree : freeSess s = some n) :
    let x : Sess := { part := h.p, jobSeq := jobSeq s h.p, peer := h.peer, peerSess := h.src, peerPub := shakePub h,
                      level := min (shakeLevel h) s.nv.level }
    execHello h s = .next (queueShake (modSess s n fun _ => x.open s) ⟨n, h.peer, h.src, false, 0, h.p⟩) := by
  simp only [execHello, hkeys, hnew, haccepted, hfree, Bool.not_true, Bool.false_eq_true, if_false]

/-- A REPLY that accepts, of a level and an identity this part takes, installs the keys and completes the OPEN. -/
theorem execReply_of_accepted {s : State} {h : Shake} {r : ReqRef} {scalar : Nat} (hstate : (sessOf s h.dst).state = .opening)
    (heph : (sessOf s h.dst).eph = some scalar) (hcode : shakeCode h = 0) (hlevel : s.nv.level - 1 ≤ shakeLevel h)
    (hidentity : identityOk s (sessOf s h.dst).part h = true) (href : (sessOf s h.dst).ref = some r) :
    let x := sessOf s h.dst
    let y := { x with peerSess := h.src, peerPub := shakePub h, level := min (shakeLevel h) s.nv.level, eph := none }
    let z := { y with keys := some (initiatorKeys y h.dst scalar (shakePub h) x.keyPhase), ref := none }
    execReply h s = .next (netStatus (modSess s h.dst fun _ => z.open s) r x.jobSeq x.sem 0) := by
  simp only [execReply, hstate, heph, hcode, Nat.not_lt.2 hlevel, hidentity, href, ne_eq, not_true, Bool.not_true, Bool.false_eq_true,
    if_false]

/-! ## Rekeying (R318, R393) -/

/-- A REKEY is answered with a fresh point under the current keys, and the new keys wait for the answer to leave. -/
theorem execRekey_of_opened {s : State} {k : Pkt} (hstate : (sessOf s k.dst).state = .opened) (hkeys : keysMade s = true) :
    let r := freshScalar (noteRx s k.dst k)
    let t := modSess r.2 k.dst fun y =>
      { y with newKeys := some (responderKeys y k.dst r.1 (slice k.payload 0 96) (!y.keyPhase)) }
    execRekey k s = .next (sendCtl t k.dst { (sessOf t k.dst).pkt k.dst 9 with payload := rekeyPayload r.1 }) := by
  simp only [execRekey, sends_of_opened hstate, hkeys, Bool.not_true, Bool.false_eq_true, if_false]

theorem execRekeyReply_of_rekeying {s : State} {k : Pkt} {scalar : Nat} (hstate : (sessOf s k.dst).state = .rekeying)
    (heph : (sessOf s k.dst).eph = some scalar) :
    let x := sessOf s k.dst
    execRekeyReply k s =
      .next (modSess (switchKeys (noteRx s k.dst k) k.dst (initiatorKeys x k.dst scalar (slice k.payload 0 96) (!x.keyPhase))) k.dst
        fun y => { y with state := .opened }) := by
  simp only [execRekeyReply, sends_of_rekeying hstate, heph, Bool.not_true, Bool.false_eq_true, if_false]

theorem execRekeyStart_of_due {s : State} {n : Nat} (hstate : (sessOf s n).state = .opened) (hdue : 2 ^ 47 ≤ (sessOf s n).keyPkts)
    (hkeys : keysMade s = true) (heph : (sessOf s n).eph = none) (hnew : (sessOf s n).newKeys = none) :
    let r := freshScalar s
    execRekeyStart n s = .next (sendCtl (modSess r.2 n fun y => { y with state := .rekeying, eph := some r.1 }) n
      { (sessOf s n).pkt n 8 with payload := rekeyPayload r.1 }) :=
  if_pos ⟨hstate, hdue, hkeys, heph, hnew⟩

/-! ## The key store's queue (R318, R388) -/

section
variable {s : State} {h : Handshake} {rest : List Handshake} (hqueue : s.net.handshakes = h :: rest)
include hqueue

/-- A refusal leaves as it is, and a handshake that is due with the session's key as it was made. -/
theorem execKeyStoreHandshake_of_made :
    let t := modNet s fun w => { w with handshakes := rest }
    h.code ≠ 0 ∨ (shakeDue t h = true ∧ (sessOf t h.sess).ephPub.isSome = true) →
    execKeyStoreHandshake s = .next (sendShake t h) := by
  intro t hready
  simp only [execKeyStoreHandshake, hqueue]
  split
  · rfl
  · next hcode =>
    obtain ⟨hdue, hmade⟩ := hready.resolve_left hcode
    simp only [t] at hdue hmade
    simp only [hdue, hmade, Bool.not_true, Bool.false_eq_true, if_false, if_true, t]

/-- The first handshake of a session is sent with a fresh key. -/
theorem execKeyStoreHandshake_of_first :
    let t := modNet s fun w => { w with handshakes := rest }
    h.code = 0 → shakeDue t h = true → (sessOf t h.sess).ephPub = none → keysMade t = true →
    execKeyStoreHandshake s = .next (sendShake (makeEph t h) h) := by
  intro t hcode hdue hfirst hkeys
  simp only [t] at hdue hfirst hkeys
  simp only [execKeyStoreHandshake, hqueue, hcode, hdue, hfirst, hkeys, ne_eq, not_true, Bool.not_true, Option.isSome_none,
    Bool.false_eq_true, if_false, t]

end

/-! ## The timers of a session (Table 12.4) -/

/-- An OPEN that goes unanswered asks again four times, and then ends. -/
theorem execHelloTimeout_of_opening {s : State} {n : Nat} (hstate : (sessOf s n).state = .opening) :
    execHelloTimeout n s = .next (if (sessOf s n).hellos < 5 then
      queueShake (modSess s n fun y => { y with hellos := y.hellos + 1 }) ⟨n, (sessOf s n).peer, 0, true, 0, (sessOf s n).part⟩
      else dropSess s n 0x23) := by
  simp only [execHelloTimeout, hstate, ne_eq, not_true, if_false]
  exact (apply_ite _ _ _ _).symm

theorem execCloseTimeout_of_closing {s : State} {n : Nat} (hstate : (sessOf s n).state = .closing) :
    execCloseTimeout n s = .next (dropSess s n 0) :=
  if_pos hstate

theorem execOldKeyExpiry_of_session {s : State} {n : Nat} {x : Sess} (hx : tget s.net.sessions n = some x) :
    execOldKeyExpiry n s = .next (modSess s n fun _ => { x with oldKeys := none }) := by
  simp only [execOldKeyExpiry, hx, Option.isSome_some, if_true]
  refine congrArg _ (modSess_congr ?_)
  rw [sessOf_of_tget hx]

/-- A key deleted reads nothing. -/
theorem tget_tdel_self {α : Type} (t : Tbl α) (n : Nat) : tget (tdel t n) n = none := by
  induction t with
  | nil => rfl
  | cons e t ih =>
    by_cases h : e.1 = n
    · simpa only [tdel, List.filter_cons, h, bne_self_eq_false, Bool.false_eq_true, if_false] using ih
    · simpa only [tdel, List.filter_cons, bne_iff_ne, ne_eq, h, not_false_eq_true, if_true, tget, if_false] using ih

/-- A session that no request waits for is gone. -/
theorem tget_dropSess_of_ref_none {s : State} {n : Nat} (href : (sessOf s n).ref = none) (code : Nat) :
    tget (dropSess s n code).net.sessions n = none := by
  simp only [dropSess, href]
  exact tget_tdel_self _ _

/-- Settles O46, the rules above by row. -/
theorem handshakes : Obligations.Handshakes := by
  unfold Obligations.Handshakes
  refine ⟨fun s h hkeys => ⟨fun n hrepeat => execHello_of_repeat hkeys hrepeat,
      fun c hnew hrefused => execHello_of_refused hkeys hnew hrefused,
      fun n hnew haccepted hfree => execHello_of_accepted hkeys hnew haccepted hfree⟩,
    fun s h r scalar hstate heph hcode hlevel hidentity href => execReply_of_accepted hstate heph hcode hlevel hidentity href,
    fun s k hstate hkeys => execRekey_of_opened hstate hkeys,
    fun s k scalar hstate heph => execRekeyReply_of_rekeying hstate heph,
    fun s n hstate hdue hkeys heph hnew => execRekeyStart_of_due hstate hdue hkeys heph hnew,
    fun s h rest hqueue => ⟨execKeyStoreHandshake_of_made hqueue, execKeyStoreHandshake_of_first hqueue⟩,
    fun s n hstate => execHelloTimeout_of_opening hstate, fun s n hstate => execCloseTimeout_of_closing hstate,
    fun s n code href => tget_dropSess_of_ref_none href code, fun s n x hx => execOldKeyExpiry_of_session hx⟩

end Sys2Proof.Machine

/-! # Proofs: requests of the transport -/

namespace Sys2Proof.Machine

theorem jobSeq_of_job {s : State} {p : Nat} {j : Job} (hjob : (partOf s p).job = some j) : jobSeq s p = j.seq := by
  rw [jobSeq, hjob, Option.map_some, Option.getD_some]

/-- A request's OP is its first byte. -/
theorem fieldLE_op {op : Nat} (hop : op < 256) (raw : List Byte) : fieldLE (leBytes 1 op ++ raw) 0 1 = op := by
  simpa only [List.nil_append, List.length_nil, pow_one, Nat.mod_eq_of_lt hop] using fieldLE_leBytes [] raw 1 op

theorem opened_of_sessInvalid {s : State} {p n : Nat} (h : sessInvalid s p n = false) : (sessOf s n).state = .opened := by
  simp only [sessInvalid, Bool.or_eq_false_iff, decide_eq_false_iff_not, ne_eq, Decidable.not_not] at h
  exact h.1.1

/-! ## PUT, GET and SIGNAL (R320 to R322) -/

/-- The message a PUT, GET or SIGNAL makes: a SIGNAL's names no region and moves no bytes. -/
def reqMsg (s : State) (r : ReqRef) (w : List Byte) : Msg :=
  let op := fieldLE w 0 1
  let m : Msg := { sess := fieldLE w 2 2, msn := (sessOf s (fieldLE w 2 2)).nextMsn, op := op, ref := some r, sem := fieldLE w 40 1,
                   jobSeq := jobSeq s r.p, source := fieldLE w 8 8, rkey := fieldLE w 16 4, roffset := fieldLE w 24 8,
                   length := fieldLE w 4 4, tag := fieldLE w 32 8, rsem := fieldLE w 41 1, rcount := fieldLE w 42 1,
                   count := if op = 0x20 then (fieldLE w 4 4 + 4095) / 4096 else 1 }
  if op ≠ 0x22 then m else { m with rkey := 0, roffset := 0, length := 0 }

/-- A request that names an open session of its job, and a place and a length that hold, takes the next message ID and the
session's next MSN. -/
theorem messageIssue_of_valid {s : State} {r : ReqRef} {w : List Byte} {j : Job} {id : Nat} (hjob : (partOf s r.p).job = some j)
    (hid : freeId s = some id) (hreserved : reqReserved w = false) (hsess : sessInvalid s r.p (fieldLE w 2 2) = false)
    (hdata : fieldLE w 0 1 ≠ 0x22 → 0 < fieldLE w 4 4 ∧ fieldLE w 4 4 ≤ 2 ^ 30 ∧
      placeBad s r.p (fieldLE w 8 8) (fieldLE w 4 4) = false ∧ fieldLE w 18 2 ≠ 0xFFFF) :
    messageIssue s r w =
      modNet (modSess s (fieldLE w 2 2) fun y => { y with nextMsn := (y.nextMsn + 1) % 2 ^ 32 }) fun v =>
        { v with msgs := tset v.msgs id (reqMsg s r w), nextId := (id + 1) % 2 ^ 20 } := by
  have hsess' : sessInvalid s r.p (reqSess w) = false := hsess
  by_cases hop : fieldLE w 0 1 = 0x22
  · simp only [messageIssue, hjob, hreserved, hsess', hop, newMsg, hid, reqMsg, Option.isNone_some, ne_eq, not_true,
      decide_false, Bool.false_and, Bool.or_self, Bool.false_eq_true, if_false, Option.map_some, Option.getD_some]
    rfl
  · obtain ⟨hpos, hlen, hplace, hregion⟩ := hdata hop
    simp only [messageIssue, hjob, hreserved, hsess', hop, newMsg, hid, reqMsg, Nat.ne_of_gt hpos, Nat.not_lt.2 hlen, hplace, hregion,
      Option.isNone_some, ne_eq, not_false_eq_true, decide_true, decide_false, Bool.and_false, Bool.or_self, Bool.false_eq_true,
      if_false, if_true, Option.map_some, Option.getD_some]
    rfl

/-! ## FENCE, OPEN, CLOSE and CLEAR_ERROR (R318, R320, R331, Table 12.4) -/

section
variable {s : State} {r : ReqRef} {raw : List Byte} {j : Job} (hjob : (partOf s r.p).job = some j) (hreserved : reqReserved raw = false)
include hjob hreserved

theorem fenceIssue_of_valid (hsess : sessInvalid s r.p (fieldLE raw 2 2) = false) :
    fenceIssue s r raw = modNet s fun x =>
      { x with fences := x.fences ++ [⟨r, fieldLE raw 2 2, (sessOf s (fieldLE raw 2 2)).nextMsn, fieldLE raw 40 1, j.seq⟩] } := by
  have hsess' : sessInvalid s r.p (reqSess raw) = false := hsess
  simp only [fenceIssue, hjob, hreserved, hsess', jobSeq_of_job hjob, Option.isNone_some, Bool.false_eq_true, if_false]
  rfl

/-- Within the partition's quota an OPEN takes the lowest free session, and has its HELLO queued. -/
theorem openIssue_of_free {n : Nat} (hquota : sessCount s r.p < formed s r.p (Ad.partNctSessionQuota r.p))
    (hfree : freeSess s = some n) (hkeys : keysMade s = true) :
    let x : Sess := { state := .opening, part := r.p, jobSeq := j.seq, peer := fieldLE raw 44 16, ref := some r,
                      sem := fieldLE raw 40 1, hellos := 1 }
    openIssue s r raw = queueShake (modSess (entryWrite s r 2 (leBytes 2 n)) n fun _ => x) ⟨n, x.peer, 0, true, 0, r.p⟩ := by
  simp only [openIssue, hjob, hreserved, Nat.not_le.2 hquota, hfree, hkeys, jobSeq_of_job hjob, Option.isNone_some, Bool.not_true,
    Bool.false_eq_true, if_false]

/-- A CLOSE of an OPEN session is sent once its messages are released. -/
theorem closeIssue_of_valid (hsess : sessInvalid s r.p (fieldLE raw 2 2) = false) :
    closeIssue s r raw = closeIfDone (modSess s (fieldLE raw 2 2) fun y =>
      { y with closeAsked := true, ref := some r, sem := fieldLE raw 40 1 }) (fieldLE raw 2 2) := by
  have hsess' : sessInvalid s r.p (reqSess raw) = false := hsess
  have hopen : (sessOf s (reqSess raw)).state = .opened := opened_of_sessInvalid hsess'
  simp only [closeIssue, hjob, hreserved, hsess', hopen, Option.isNone_some, Bool.false_eq_true, reduceCtorEq, false_and, if_false]
  rfl

theorem clearErrorIssue_of_valid (hsess : sessInvalid s r.p (fieldLE raw 2 2) = false) :
    clearErrorIssue s r raw =
      netStatus (modSess s (fieldLE raw 2 2) fun x => { x with errorBit := false }) r j.seq (fieldLE raw 40 1) 0 := by
  have hsess' : sessInvalid s r.p (reqSess raw) = false := hsess
  have hjob' : (partOf (modSess s (reqSess raw) fun x => { x with errorBit := false }) r.p).job = some j := hjob
  simp only [clearErrorIssue, hjob, hreserved, hsess', reqDone, jobSeq_of_job hjob', Option.isNone_some, Bool.false_eq_true, if_false]
  rfl

end

/-- A fence completes with its session's error bit when no earlier message of the session is left. -/
theorem completeFences_of_only {s : State} {n : Nat} {f : FenceReq} (honly : s.net.fences = [f]) (hsess : f.sess = n)
    (hmet : ∀ e ∈ sessMsgs s n, f.msn ≤ e.2.msn) :
    completeFences s n false =
      netStatus (modNet s fun w => { w with fences := [] }) f.ref f.jobSeq f.sem (if (sessOf s n).errorBit then 0x20 else 0) := by
  have hnone : (((sessMsgs s n).map (·.2.msn)).any fun m => decide (m < f.msn)) = false := by
    simpa only [List.any_eq_false, List.forall_mem_map, decide_eq_true_eq, not_lt] using hmet
  simp only [completeFences, modNet, honly, List.filter_cons, List.filter_nil, hsess, hnone, decide_true, Bool.not_false, Bool.or_true,
    Bool.and_self, Bool.not_true, Bool.false_eq_true, if_false, if_true, List.foldl_cons, List.foldl_nil]

/-- Settles O47: the message made is `reqMsg`, and the other requests go by the rules above. -/
theorem transportRequests : Obligations.TransportRequests := by
  unfold Obligations.TransportRequests
  refine ⟨?sends, fun s r raw j hjob => ⟨fun hreserved hsess => congrArg _ (fenceIssue_of_valid hjob hreserved hsess),
      fun n hreserved hquota hfree hkeys => congrArg _ (openIssue_of_free hjob hreserved hquota hfree hkeys),
      fun hreserved hsess => congrArg _ (closeIssue_of_valid hjob hreserved hsess),
      fun hreserved hsess => congrArg _ (clearErrorIssue_of_valid hjob hreserved hsess)⟩,
    fun s n f honly hsess hmet => congrArg _ (completeFences_of_only honly hsess hmet)⟩
  case sends =>
    intro s r raw j id hjob hid sends
    have hsends : ∀ op x, op < 256 →
        exec x s = .next (messageIssue s r (leBytes 1 op ++ raw.drop 1)) → sends op x := by
      intro op x hop hrow hreserved hsess hdata
      have hw : fieldLE (leBytes 1 op ++ raw.drop 1) 0 1 = op := fieldLE_op hop _
      generalize leBytes 1 op ++ raw.drop 1 = w at hrow hreserved hsess hdata hw ⊢
      subst hw
      have hissue := messageIssue_of_valid hjob hid hreserved hsess hdata
      refine ⟨reqMsg s r w, _, hrow.trans (congrArg _ hissue), tget_tset_self _ _ _, ?_⟩
      have hnext : (sessOf (modSess s (fieldLE w 2 2) fun y => { y with nextMsn := (y.nextMsn + 1) % 2 ^ 32 })
          (fieldLE w 2 2)).nextMsn = ((sessOf s (fieldLE w 2 2)).nextMsn + 1) % 2 ^ 32 :=
        congrArg Sess.nextMsn (sessOf_modSess_self s _ _)
      refine ⟨?_, ?_, ?_, ?_, ?_, ?_, ?_, ?_, ?_, ?_, hnext, rfl⟩
      all_goals by_cases hsignal : fieldLE w 0 1 = 0x22 <;> simp [reqMsg, hsignal]
    exact ⟨hsends _ _ (by decide) rfl, hsends _ _ (by decide) rfl, hsends _ _ (by decide) rfl⟩

end Sys2Proof.Machine

/-! # Proofs: collective calls -/

namespace Sys2Proof.Machine

/-! ## A call as it issues (R342, R346, R356) -/

/-- A call whose communicator's record cannot be accessed ends its job, one that passes its checks is numbered, counted and
given the packets held for it, and one that fails completes with its code. -/
theorem collIssue_of_job {s : State} {r : ReqRef} {j : Job} (hjob : (partOf s r.p).job = some j) (w : List Byte) :
    let op := fieldLE w 0 1
    let comm := fieldLE w 4 2 % 4096
    let k := commOf s r.p comm
    let c0 : Call := { ref := r, raw := w, comm := comm, jobSeq := j.seq, epoch := fieldLE w 6 2, seq := 0, alg := 0 }
    let named := bits (fieldLE w 1 1) 7 4
    let alg := if named = 0 then (if op = 0x33 ∨ op = 0x34 then 3 else c0.auto k) else named
    let seq := commField s r.p comm 32 4
    let base := latched s r.p (Ad.partCollCommBase r.p)
    let fault := if comm < formed s r.p (Ad.partCollCommCount r.p) then addrFault s r.p 2 base (64 * comm + 64) else none
    let c := { c0 with alg := alg, seq := if op = 0x34 then 0 else seq }
    let s1 := if op = 0x34 then s else commPut s r.p comm 32 4 ((seq + 1) % 2 ^ 32)
    let seen := (List.range (if op = 0x34 then c.cnt else 0)).foldl (fun t i => farRead t r.p (c.field 48 8 % 2 ^ 41 + 32 * i) 32 3)
      (commSeen s1 r.p k (k.r :: c.peers s r.p k.n k.r))
    (∀ code, fault = some code → collIssue s r w = coreErr s r.p code base) ∧
    (fault = none → c0.check s r.p alg = none →
      collIssue s r w = takeHeld (modPart (odInc seen (Ad.partCollCalls r.p)) r.p fun q => { q with calls := q.calls ++ [c] }) r.p r) ∧
    ∀ code, fault = none → c0.check s r.p alg = some code →
      collIssue s r w = collDone (commSeen s r.p k []) r.p { c0 with alg := alg } code := by
  intro op comm k c0 named alg seq base fault c s1 seen
  have hissue : collIssue s r w = (match fault, c0.check s r.p alg with
      | some code, _ => coreErr s r.p code base
      | none, some code => collDone (commSeen s r.p k []) r.p { c0 with alg := alg } code
      | none, none => takeHeld (modPart (odInc seen (Ad.partCollCalls r.p)) r.p fun q => { q with calls := q.calls ++ [c] }) r.p r) := by
    rw [collIssue, hjob, jobSeq_of_job hjob]
    rfl
  refine ⟨fun code hfault => ?_, fun hfault hcheck => ?_, fun code hfault hcheck => ?_⟩
  · rw [hissue, hfault]
  · rw [hissue, hfault, hcheck]
  · rw [hissue, hfault, hcheck]

/-! ## Start and completion (R343, R351, R352) -/

/-- The communicator's next waiting call starts when its job runs and a slot is free. -/
theorem execCollCallStart_of_free {s : State} {p comm : Nat} {c : Call} (hruns : callRuns s p c = true)
    (hnext : (partOf s p).calls.find? (fun c => c.comm = comm && !c.started) = some c) (hop : c.op ≠ 0x34) (hslot : slotFree s p c = true) :
    execCollCallStart p comm s =
      .next (collAdvance (setCall s p { c with started := true }) p { c with started := true }) := by
  simp only [execCollCallStart, hnext, hop, hslot, hruns, Bool.not_true, Bool.false_eq_true, or_self, if_false]

/-- The partition's next PERMUTE closes the old epoch and takes the first SEQ of the new one. -/
theorem execPermuteStart_of_free {s : State} {p : Nat} {c : Call} (hruns : callRuns s p c = true)
    (hnext : (partOf s p).calls.find? (fun c => c.op = 0x34) = some c) (hwaits : c.started = false) (hslot : slotFree s p c = true)
    (hfirst : ((partOf s p).calls.find? fun x => x.comm = c.comm && !x.started).map (·.ref) = some c.ref) :
    let s1 := commPut (closeEpoch s p) p c.comm 32 4 1
    let c1 := { c with started := true, seq := 0 }
    execPermuteStart p s = .next (takeHeld (collAdvance (setCall s1 p c1) p c1) p c.ref) := by
  simp only [execPermuteStart, hnext, hwaits, hslot, hruns, hfirst, ne_eq, not_true, Bool.not_true, Bool.false_eq_true, or_self,
    if_false]

theorem execCollCallComplete_of_complete {s : State} {p comm seq : Nat} {c : Call}
    (hcomplete : (partOf (collAdvanceAll s p) p).calls.find?
      (fun c => c.comm = comm && c.seq = seq && c.complete (collAdvanceAll s p) p) = some c) :
    execCollCallComplete p comm seq s =
      .next (collAdvanceAll (collDone (collAdvanceAll s p) p c (if c.poisoned then 9 else 0)) p) := by
  simp only [execCollCallComplete, hcomplete]

/-- Settles O49: the six operations issue by one rule, their OP the first byte of the call. -/
theorem collectiveCalls : Obligations.CollectiveCalls := by
  unfold Obligations.CollectiveCalls
  refine ⟨?issue, fun s p comm c hruns hnext hop hslot => execCollCallStart_of_free hruns hnext hop hslot,
    fun s p c hruns hnext hwaits hslot hfirst => execPermuteStart_of_free hruns hnext hwaits hslot hfirst,
    fun s p comm seq c hcomplete => execCollCallComplete_of_complete hcomplete⟩
  case issue =>
    intro s r raw j hjob issues
    have hissues : ∀ op x, op < 256 → exec x s = .next (collIssue s r (leBytes 1 op ++ raw.drop 1)) → issues op x := by
      intro op x hop hrow
      have hissue := collIssue_of_job hjob (leBytes 1 op ++ raw.drop 1)
      simp only [fieldLE_op hop] at hissue
      obtain ⟨hfault, hpass, hrefused⟩ := hissue
      exact ⟨fun code h => hrow.trans (congrArg _ (hfault code h)), fun h hc => hrow.trans (congrArg _ (hpass h hc)),
        fun code h hc => hrow.trans (congrArg _ (hrefused code h hc))⟩
    exact ⟨hissues _ _ (by decide) rfl, hissues _ _ (by decide) rfl, hissues _ _ (by decide) rfl, hissues _ _ (by decide) rfl,
      hissues _ _ (by decide) rfl, hissues _ _ (by decide) rfl⟩

end Sys2Proof.Machine

/-! # Proofs: packets of collectives -/

namespace Sys2Proof.Machine

/-! ## A packet given to its call or held (R345, R353) -/

section
variable {s : State} {k : Pkt} (hstop : rxStop s k = none)
include hstop

theorem collReceive_of_call {c : Call} (hepoch : epochIs s (sessOf s k.dst).part (collId k).1 ≠ .closed)
    (hcall : callFor s (sessOf s k.dst).part k = some c) :
    collReceive s k = giveCall (rxPlaced (noteRx s k.dst k) k.dst k) (sessOf s k.dst).part k.dst c k := by
  simp only [collReceive, hstop, hepoch, hcall, false_and, if_false]

theorem collReceive_of_held {t : State} (hepoch : epochIs s (sessOf s k.dst).part (collId k).1 ≠ .closed)
    (hcall : callFor s (sessOf s k.dst).part k = none) (hheld : holdPkt s (sessOf s k.dst).part k.dst k = some t) :
    collReceive s k = rxPlaced (noteHeld t k.dst k) k.dst k := by
  simp only [collReceive, hstop, hepoch, hcall, hheld, false_and, if_false]

/-- A notice is acknowledged, and acted on. -/
theorem noticeReceive_of_taken (act : State → Nat → State) :
    noticeReceive s k act = act (rxPlaced (noteRx s k.dst k) k.dst k) (sessOf s k.dst).part := by
  simp only [noticeReceive, hstop]

end

/-- Settles O50: the rows check the kind of their packet and hand it to one of the two receivers. -/
theorem collectivePackets : Obligations.CollectivePackets := by
  unfold Obligations.CollectivePackets
  refine ⟨?call, ?held, ?notice⟩
  case call =>
    intro s k c hcoll hstop p hepoch hcall t
    have hreceive : Host.Outcome.next (collReceive s k) = (.next t : Res) := congrArg _ (collReceive_of_call hstop hepoch hcall)
    exact ⟨(if_pos hcoll).trans hreceive, fun hkind => (if_pos ⟨hcoll, hkind⟩).trans hreceive,
      fun hkind => (if_pos ⟨hcoll, hkind⟩).trans hreceive⟩
  case held =>
    intro s t k hcoll hstop p hepoch hcall hheld
    exact (if_pos hcoll).trans (congrArg _ (collReceive_of_held hstop hepoch hcall hheld))
  case notice =>
    intro s k hcoll hstop p t
    refine ⟨fun c hkind hcall => (if_pos ⟨hcoll, hkind⟩).trans (congrArg _ ?_),
      fun c hkind hcall => (if_pos ⟨hcoll, hkind⟩).trans (congrArg _ ?_),
      fun hkind => (if_pos ⟨hcoll, hkind⟩).trans (congrArg _ (noticeReceive_of_taken hstop _))⟩
    · simp only [t, p] at hcall
      simp only [noticeReceive_of_taken hstop, hcall, t, p]
    · simp only [t, p] at hcall
      simp only [noticeReceive_of_taken hstop, hcall, mismatchCall, t, p]

end Sys2Proof.Machine

/-! # Proofs: queues and jobs -/

namespace Sys2Proof.Machine

/-! ## Doorbells and entries (R365 to R367) -/

section
variable {s : State} {p q : Nat} (henabled : (queueOf s p q).enabled = true)
include henabled

theorem execDoorbell_of_within {tail : Nat}
    (hwithin : (tail + 2 ^ 32 - (queueOf s p q).head) % 2 ^ 32 ≤ 2 ^ (queueOf s p q).log2) :
    execDoorbell p q tail s = .next (modQueue s p q fun y => { y with tail := tail % 2 ^ 32 }) := by
  simp only [execDoorbell, henabled, Nat.not_lt.2 hwithin, Bool.not_true, Bool.false_eq_true, if_false]

theorem execDoorbell_of_beyond {tail : Nat}
    (hbeyond : 2 ^ (queueOf s p q).log2 < (tail + 2 ^ 32 - (queueOf s p q).head) % 2 ^ 32) :
    execDoorbell p q tail s = .next (faultQueue s p q) := by
  simp only [execDoorbell, henabled, hbeyond, Bool.not_true, Bool.false_eq_true, if_false, if_true]

end

/-- The head of the queue that its unit chooses is handed to the unit. -/
theorem execEntryIssue_of_chosen {s : State} {p q u : Nat} (hpending : headPending s p q = true) (hfault : headFault s p q = none)
    (hclean : (headEntry s p q).2 = false) (hunit : unitOfOp (fieldLE (headEntry s p q).1 0 1) = some u)
    (hchosen : afterQueue (lowestClass s p (readyFor s p u)) ((tget (partOf s p).lastQueue u).getD 63) = some q) (ns : Nat) :
    execEntryIssue p q ns s =
      .next (issueTo (modPart (takeEntry s p q ns) p fun x => { x with lastQueue := tset x.lastQueue u q })
        ⟨p, q, (queueOf s p q).head⟩ (headEntry s p q).1) := by
  simp only [execEntryIssue, hpending, hfault, hclean, hunit, hchosen, ne_eq, not_true, Bool.not_true, Bool.false_eq_true, if_false]

/-! ## A job's start, its end and its record (R368, R370) -/

/-- The partition as a job of the tenant of before has been taken from its queue, its checks to come. -/
def jobTaken (s : State) (p q ns : Nat) : State :=
  let j := jobOf s p q (headEntry s p q).1
  let s1 := takeEntry (setState (becomeTenant s p j.tenant) p .starting) p q ns
  modPart s1 p fun x =>
    { x with job := some j, nextSeq := (x.nextSeq + 1) % 65536, lastJobQueue := q, nextQueue := none,
             latched := (0, 1) :: valuesOf s1 p .jobStart }

section
variable {s : State} {p q : Nat} (hhead : jobHead s p q = true) (htakes : takesNow s p (.fresh q) = true)
  (hclean : (headEntry s p q).2 = false) (htenant : changesTenant s p (jobOf s p q (headEntry s p q).1).tenant = false) {ns : Nat}
  (hkey : needsKey (jobTaken s p q ns) p (jobOf s p q (headEntry s p q).1).tenant = false)
include hhead htakes hclean htenant hkey

/-- A job whose checks pass is loaded and runs. -/
theorem execJobStart_of_passed
    (hcheck : startCheck (jobTaken s p q ns) p (jobOf s p q (headEntry s p q).1) (fieldLE (headEntry s p q).1 32 8)
      (fieldLE (headEntry s p q).1 40 4) = none) :
    execJobStart p q ns s = .next (launchJob (jobTaken s p q ns) p (jobOf s p q (headEntry s p q).1)
      (fieldLE (headEntry s p q).1 32 8) (fieldLE (headEntry s p q).1 40 4)) := by
  simp only [jobTaken] at hkey hcheck
  simp only [execJobStart, hhead, htakes, hclean, htenant, hkey, hcheck, Bool.and_self, Bool.not_true, Bool.false_eq_true, false_and,
    if_false, jobTaken]

/-- A job that fails a check does not start, and the regions of before stay in effect. -/
theorem execJobStart_of_failed {f : Code × Nat}
    (hcheck : startCheck (jobTaken s p q ns) p (jobOf s p q (headEntry s p q).1) (fieldLE (headEntry s p q).1 32 8)
      (fieldLE (headEntry s p q).1 40 4) = some f) :
    execJobStart p q ns s = .next (keepRegions (notStarted (jobTaken s p q ns) p f.1 f.2) p (partOf s p).latched) := by
  simp only [jobTaken] at hkey hcheck
  simp only [execJobStart, hhead, htakes, hclean, htenant, hkey, hcheck, Bool.and_self, Bool.not_true, Bool.false_eq_true, false_and,
    if_false, jobTaken]

end

theorem execPartitionDone_of_done {s : State} {p : Nat} (hstate : inState s p .running = true) (htrees : treesUp s p = true) :
    execPartitionDone p s = .next (setState (endJob s p 0 0 0 true) p .idle) := by
  simp only [execPartitionDone, hstate, htrees, Bool.and_self, if_true]

theorem releaseRecords_of_space {s : State} {p : Nat} {h : HeldRec} (hheld : (partOf s p).heldRecs = [h]) (hspace : compFull s p = false) :
    releaseRecords 1 s p = deliverRecord (modPart s p fun q => { q with heldRecs := [] }) p h := by
  simp only [releaseRecords, hheld, hspace, Bool.false_eq_true, if_false]

/-- Settles O51, the rules above by row. -/
theorem queuesAndJobs : Obligations.QueuesAndJobs := by
  unfold Obligations.QueuesAndJobs
  refine ⟨fun s p q tail henabled => ⟨execDoorbell_of_within henabled, execDoorbell_of_beyond henabled⟩,
    fun s p q ns u hpending hfault hclean hunit hchosen => execEntryIssue_of_chosen hpending hfault hclean hunit hchosen ns,
    ?start,
    fun s p hstate htrees => execPartitionDone_of_done hstate htrees, ?held⟩
  case start =>
    intro s p q ns hhead htakes hclean raw j htenant s1 s2 hkey
    cases hcheck : startCheck s2 p j (fieldLE raw 32 8) (fieldLE raw 40 4) with
    | none => exact execJobStart_of_passed hhead htakes hclean htenant hkey hcheck
    | some f => exact execJobStart_of_failed hhead htakes hclean htenant hkey hcheck
  case held =>
    intro s p h hheld hspace
    have hcount : (partOf s p).heldRecs.length = 1 := by rw [hheld]; rfl
    exact congrArg _ ((congrArg (releaseRecords · s p) hcount).trans (releaseRecords_of_space hheld hspace))

end Sys2Proof.Machine

/-! # Proofs: pre-emption, switching and resumption -/

namespace Sys2Proof.Machine

/-! ## PREEMPT (R373) -/

theorem execPreempt_of_accepted {s : State} {p q : Nat} {j : Job} (hjob : (partOf s p).job = some j) (hcode : preemptCode s p q = 0) :
    let s1 := odInc (odInc (modPart s p fun x => { x with preemptStatus := 0 }) (Ad.partPreemptions p)) (Ad.baroPreemptions p j.queue)
    let s2 := modJob (readTime s1).2 p fun y =>
      { y with preempts := y.preempts + 1, preemptNs := (readTime s1).1, runNs := y.runNs + ((readTime s1).1 - y.sinceNs) }
    execPreempt p q s =
      .next (setState (modPart s2 p fun x => { x with switch := some { step := 0, incoming := .fresh q } }) p .switching) := by
  simp only [execPreempt, hcode, hjob, zero_ne_one, if_false, if_true, Option.map_some, Option.getD_some]

/-- Nothing to pre-empt: the queue is the next one. -/
theorem execPreempt_of_idle {s : State} {p q : Nat} (hcode : preemptCode s p q = 1) :
    execPreempt p q s =
      .next (modPart (modPart s p fun x => { x with preemptStatus := 1 }) p fun x => { x with nextQueue := some q }) := by
  simp only [execPreempt, hcode, if_true]

theorem execPreempt_of_refused {s : State} {p q : Nat} (hcode : 1 < preemptCode s p q) :
    execPreempt p q s = .next (modPart s p fun x => { x with preemptStatus := preemptCode s p q }) := by
  simp only [execPreempt, Nat.ne_of_gt hcode, Nat.ne_of_gt (Nat.zero_lt_of_lt hcode), if_false]

/-! ## The outgoing job (R374, R378) -/

section
variable {s : State} {p : Nat} {j : Job} {w : Switch} (hjob : (partOf s p).job = some j) (hswitch : (partOf s p).switch = some w)
  (hstate : inState s p .switching = true)
include hjob hswitch hstate

/-- The work at rest, the context is taken and its save begins. -/
theorem execSwitchQuiesced_of_begun (hstep : w.step = 0) :
    ∃ t, execSwitchQuiesced p s = .next t ∧ (partOf t p).switch = some { w with step := 1 } := by
  simp only [execSwitchQuiesced, hjob, hswitch, hstate, hstep, ne_eq, not_true, decide_false, Bool.not_true, Bool.or_self,
    Bool.false_eq_true, if_false]
  exact ⟨_, rfl, congrArg Part.switch (partOf_modPart_self _ _ _)⟩

/-- Saved without a fault for the same tenant, the job is parked and the incoming one comes at once. -/
theorem execSwitchSaved_of_stays (hstep : w.step = 1) (hclean : w.outFailed = none)
    (htenant : incomingTenant s p w.incoming = j.tenant) :
    let out := { j with saved := j.saved.map fun x => { x with valid := true } }
    execSwitchSaved p s = .next (modPart (modPart (dropControl s p) p fun q => { q with parked := out :: q.parked }) p fun q =>
      { q with switch := some { w with step := 3 }, scrubs := [] }) := by
  simp only [execSwitchSaved, hjob, hswitch, hstate, hstep, hclean, htenant, ne_eq, not_true, decide_false, Bool.not_true, Bool.or_self,
    Bool.false_eq_true, if_false]

/-- For another tenant the scrubs follow. -/
theorem execSwitchSaved_of_changes (hstep : w.step = 1) (htenant : incomingTenant s p w.incoming ≠ j.tenant) :
    ∃ t, execSwitchSaved p s = .next t ∧ (partOf t p).scrubs = [1, 2, 3, 4] ∧ (partOf t p).switch = some { w with step := 2 } := by
  simp only [execSwitchSaved, hjob, hswitch, hstate, hstep, htenant, ne_eq, not_true, not_false_eq_true, decide_false, decide_true,
    Bool.not_true, Bool.or_self, Bool.false_eq_true, if_false, if_true]
  exact ⟨_, rfl, congrArg Part.scrubs (partOf_modPart_self _ _ _), congrArg Part.switch (partOf_modPart_self _ _ _)⟩

end

/-! ## The last scrub (R402) -/

/-- The partition after one of its scrubs. -/
def scrubbed (s : State) (p item : Nat) : State :=
  modPart (scrubItem s p item) p fun q => { q with scrubs := q.scrubs.filter (· ≠ item) }

/-- A partition is in one state at a time. -/
theorem not_inState_of_inState {s : State} {p : Nat} {x y : PState} (h : inState s p x = true) (hne : x.value ≠ y.value) :
    ¬inState s p y = true := by
  simp only [inState, beq_iff_eq] at h ⊢
  rwa [h]

section
variable {s : State} {p item : Nat} (hdue : (partOf s p).scrubs.contains item = true)
include hdue

theorem execScrubDone_of_more (hmore : (partOf (scrubbed s p item) p).scrubs ≠ []) :
    execScrubDone p item s = .next (scrubbed s p item) := by
  rw [execScrubDone, hdue]
  exact (if_neg Bool.false_ne_true).trans (if_pos hmore)

/-- What the last scrub leads to goes by the partition's state. -/
theorem execScrubDone_of_last (hlast : (partOf (scrubbed s p item) p).scrubs = []) :
    let s1 := scrubbed s p item
    execScrubDone p item s =
      if inState s1 p .forming then .next (setState s1 p .idle)
      else if inState s1 p .tearingDown then .next (freePart s1 p)
      else if inState s1 p .switching then
        .next (modPart s1 p fun q => { q with switch := q.switch.map fun w => { w with step := 3 } })
      else .next s1 := by
  rw [execScrubDone, hdue]
  exact (if_neg Bool.false_ne_true).trans (if_neg (not_not.2 hlast))

end

/-! ## A parked job resumes (R375, R376) -/

/-- The partition with a parked job taken up again from its context: its loads anew, its cells and dies as saved, the time it
lost counted and its sessions open. -/
def resumed (s : State) (p : Nat) (j0 : Job) (x : Saved) : State :=
  let s1 := becomeTenant s p j0.tenant
  let now := (readTime s1).1
  let lost := now - j0.preemptNs
  let s2 := modPart (readTime s1).2 p fun q =>
    { q with job := some { addPending j0 with saved := none, sinceNs := now }, parked := q.parked.filter (fun y => y.seq ≠ j0.seq),
             latched := j0.latched, walks := x.walks, moves := x.moves,
             prefetchPos := if x.prefetchNext = 0 then none else some (x.prefetchNext - 1), switch := none }
  let s3 := loadScale (restoreAll s2 p j0.image x) p
  let s4 := modPart s3 p fun q => { q with scaleCopy := q.scale.map fun e => (e.1, (e.2.mexp, e.2.ovf)) }
  let live := (x.cells.filter fun e => e.2.seq.status ≠ .done).length
  let s5 := countWait (odAdd s4 (Ad.baroPreemptLostNs p j0.queue) lost) (some p)
    (live * (lost * cclkActual s4 ((partOf s4 p).dies.headD 0) / 1000))
  setState (resumeSessions s5 p j0.seq) p .running

section
variable {s : State} {p : Nat} {j0 : Job} {x : Saved}
  (hnext : (partOf s p).parked.find? (fun j => takesNow s p (.parked j.seq)) = some j0) (hsaved : j0.saved = some x)
  (hsems : ∀ e ∈ (addPending j0).sems, e.2 ≤ 65535)
include hnext hsaved hsems

/-- With its semaphores within their range, a resumed job goes on unless its image or its scale table fails a check. -/
theorem execJobResume_of_within :
    (((loadCheck (resumed s p j0 x) p j0.image).orElse fun _ => scaleRecords s p) = none →
      execJobResume p s = .next (resumed s p j0 x)) ∧
    ∀ f, ((loadCheck (resumed s p j0 x) p j0.image).orElse fun _ => scaleRecords s p) = some f →
      execJobResume p s = .next (coreErr (resumed s p j0 x) p (if f.1 = .imageInvalid then .poisonConsumed else f.1) f.2) := by
  have hnone : (addPending j0).sems.find? (fun e => decide (65535 < e.2)) = none := by
    simpa only [List.find?_eq_none, decide_eq_true_eq, not_lt] using hsems
  constructor
  · intro hcheck
    simp only [resumed] at hcheck
    simp only [execJobResume, hnext, hsaved, hnone, hcheck, resumed]
  · intro f hcheck
    simp only [resumed] at hcheck
    simp only [execJobResume, hnext, hsaved, hnone, hcheck, resumed]

end

/-- Settles O52, the rules above by row. -/
theorem switching : Obligations.Switching := by
  unfold Obligations.Switching
  refine ⟨fun s p q j hjob hcode => execPreempt_of_accepted hjob hcode, ?idle, fun s p q hcode => execPreempt_of_refused hcode,
    fun s p j w hjob hswitch hstate hstep => execSwitchQuiesced_of_begun hjob hswitch hstate hstep,
    fun s p j w hjob hswitch hstate hstep => ⟨execSwitchSaved_of_stays hjob hswitch hstate hstep,
      execSwitchSaved_of_changes hjob hswitch hstate hstep⟩, ?scrub, ?resume⟩
  case idle =>
    intro s p q hcode
    refine ⟨_, execPreempt_of_idle hcode, ?_, congrArg Part.nextQueue (partOf_modPart_self _ _ _)⟩
    simp only [partOf_modPart_self]
  case scrub =>
    intro s p item hdue s1
    refine ⟨execScrubDone_of_more hdue, fun hlast => ?_⟩
    have hrow := execScrubDone_of_last hdue hlast
    refine ⟨fun hstate => hrow.trans (if_pos hstate), fun hstate => ?_, fun hstate => ?_⟩
    · have hforming := not_inState_of_inState (y := .forming) hstate (by decide)
      exact hrow.trans ((if_neg hforming).trans (if_pos hstate))
    · have hforming := not_inState_of_inState (y := .forming) hstate (by decide)
      have htearing := not_inState_of_inState (y := .tearingDown) hstate (by decide)
      exact hrow.trans ((if_neg hforming).trans ((if_neg htearing).trans (if_pos hstate)))
  case resume =>
    intro s p j0 x hnext hsaved hsems s1 now lost s2 s3 s4 live s5 s6
    obtain ⟨hgoes, hfails⟩ := execJobResume_of_within hnext hsaved hsems
    cases hcheck : (loadCheck s6 p j0.image).orElse fun _ => scaleRecords s p with
    | none => exact hgoes hcheck
    | some f => exact hfails f hcheck

end Sys2Proof.Machine

/-! # Proofs: counters that never fall, and the state after reset -/

namespace Sys2Proof.Machine

/-- Settles O6: the counters are among what `Keeps` says no command undoes. -/
theorem nonvolatileCountersRise : Obligations.NonvolatileCountersRise := by
  unfold Obligations.NonvolatileCountersRise
  refine ⟨fun c s t hexec => (Keeps.of_exec hexec).svn, fun c s t hexec => ?_⟩
  have hkeeps : Keeps s t := Keeps.of_exec hexec
  exact ⟨hkeeps.opMs, hkeeps.powerCycles, hkeeps.fresh⟩

/-- Settles O3: nothing is listed in either memory. -/
theorem resetMemoryCanonical : Obligations.ResetMemoryCanonical := by
  unfold Obligations.ResetMemoryCanonical
  exact ⟨rfl, rfl⟩

/-- Settles O7: every table of the reset state is empty, so each reads its default. -/
theorem resetState : Obligations.ResetState := by
  unfold Obligations.ResetState
  exact ⟨fun a => rfl, rfl, fun p => ⟨rfl, rfl⟩, fun a => ⟨rfl, rfl⟩, fun g => rfl, rfl, rfl⟩

end Sys2Proof.Machine

/-! # Proofs: every command completes

A row of the table that has no branch is its next state; one whose branches are guards is a chain of `ite`s of next
states (`Completes.ite`); one that matches on what the state or an operand holds has a lemma of its own, whose proof
splits the row's branches and finds a next state at the end of each. -/

namespace Sys2Proof.Machine

/-- An outcome that is a next state. -/
def Completes (r : Res) : Prop := ∃ t, r = .next t

theorem Completes.next (t : State) : Completes (.next t) := ⟨t, rfl⟩

theorem Completes.ite {a b : Res} {c : Prop} [Decidable c] (ha : Completes a) (hb : Completes b) :
    Completes (if c then a else b) := by
  split <;> assumption

/-! ## The rows that match -/

theorem execClockHoldEnd_completes (die : Nat) (s : State) : Completes (execClockHoldEnd die s) := by
  simp only [execClockHoldEnd]
  repeat' first | with_reducible exact .next _ | split

theorem execBundleIssue_completes (g : Nat) (hold : Option MissCause) (ecc : Nat) (upsets : List Upset)
    (others : List BankReq) (s : State) :
    Completes (execBundleIssue g hold ecc upsets others s) := by
  simp only [execBundleIssue]
  repeat' first | with_reducible exact .next _ | split

theorem execIssueResume_completes (g cycles : Nat) (s : State) : Completes (execIssueResume g cycles s) := by
  simp only [execIssueResume]
  repeat' first | with_reducible exact .next _ | split

theorem execAmaxCountMerge_completes (g slot : Nat) (s : State) : Completes (execAmaxCountMerge g slot s) := by
  simp only [execAmaxCountMerge]
  repeat' first | with_reducible exact .next _ | split

theorem execStreamEnd_completes (g : Nat) (out : Bool) (stream : Nat) (s : State) :
    Completes (execStreamEnd g out stream s) := by
  simp only [execStreamEnd]
  repeat' first | with_reducible exact .next _ | split

theorem execFarRequestIssue_completes (g stream : Nat) (s : State) : Completes (execFarRequestIssue g stream s) := by
  simp only [execFarRequestIssue]
  repeat' first | with_reducible exact .next _ | split

theorem execUnitArrival_completes (g stream : Nat) (s : State) : Completes (execUnitArrival g stream s) := by
  simp only [execUnitArrival]
  repeat' first | with_reducible exact .next _ | split

theorem execUncontractedDeposit_completes (d : Deposit) (s : State) : Completes (execUncontractedDeposit d s) := by
  simp only [execUncontractedDeposit]
  repeat' first | with_reducible exact .next _ | split

theorem execSemIncrementRelease_completes (p sem : Nat) (s : State) : Completes (execSemIncrementRelease p sem s) := by
  simp only [execSemIncrementRelease]
  repeat' first | with_reducible exact .next _ | split

theorem execSemGrant_completes (p sem : Nat) (s : State) : Completes (execSemGrant p sem s) := by
  simp only [execSemGrant]
  repeat' first | with_reducible exact .next _ | split

theorem execSemTimeout_completes (g : Nat) (s : State) : Completes (execSemTimeout g s) := by
  simp only [execSemTimeout]
  repeat' first | with_reducible exact .next _ | split

theorem execFenceComplete_completes (g cycles : Nat) (s : State) : Completes (execFenceComplete g cycles s) := by
  simp only [execFenceComplete]
  repeat' first | with_reducible exact .next _ | split

theorem execPredicateResolve_completes (g : Nat) (s : State) : Completes (execPredicateResolve g s) := by
  simp only [execPredicateResolve]
  repeat' first | with_reducible exact .next _ | split

theorem execShadowOpen_completes (g space page pred : Nat) (s : State) :
    Completes (execShadowOpen g space page pred s) := by
  simp only [execShadowOpen]
  repeat' first | with_reducible exact .next _ | split

theorem execShadowDrained_completes (g space frame : Nat) (s : State) :
    Completes (execShadowDrained g space frame s) := by
  simp only [execShadowDrained]
  repeat' first | with_reducible exact .next _ | split

theorem execBcastUnitIssue_completes (die grp : Nat) (s : State) : Completes (execBcastUnitIssue die grp s) := by
  simp only [execBcastUnitIssue]
  repeat' first | with_reducible exact .next _ | split

theorem execTileBcastTimeout_completes (die grp : Nat) (s : State) : Completes (execTileBcastTimeout die grp s) := by
  simp only [execTileBcastTimeout]
  repeat' first | with_reducible exact .next _ | split

theorem execWalkStart_completes (p k : Nat) (desc : List Byte) (s : State) : Completes (execWalkStart p k desc s) := by
  simp only [execWalkStart]
  repeat' first | with_reducible exact .next _ | split

theorem execWalkEntryFetch_completes (p w n : Nat) (s : State) : Completes (execWalkEntryFetch p w n s) := by
  simp only [execWalkEntryFetch]
  repeat' first | with_reducible exact .next _ | split

theorem execWalkSlotFill_completes (p w : Nat) (s : State) : Completes (execWalkSlotFill p w s) := by
  simp only [execWalkSlotFill]
  repeat' first | with_reducible exact .next _ | split

theorem execBankRetry_completes (g : Nat) (s : State) : Completes (execBankRetry g s) := by
  simp only [execBankRetry]
  repeat' first | with_reducible exact .next _ | split

theorem execStratusRetry_completes (die idle : Nat) (upsets : List Upset) (s : State) :
    Completes (execStratusRetry die idle upsets s) := by
  simp only [execStratusRetry]
  repeat' first | with_reducible exact .next _ | split

theorem execUnscheduledStratusGrant_completes (die idle chan : Nat) (arrived : List StratusAccess) (s : State) :
    Completes (execUnscheduledStratusGrant die idle chan arrived s) := by
  simp only [execUnscheduledStratusGrant]
  repeat' first | with_reducible exact .next _ | split

theorem execLineRead_completes (p addr len hint : Nat) (reserved : Bool) (errs : List SymErr) (tagFail : Option Nat)
    (s : State) :
    Completes (execLineRead p addr len hint reserved errs tagFail s) := by
  simp only [execLineRead]
  repeat' first | with_reducible exact .next _ | split

theorem execDrizzleRead_completes (p addr : Nat) (errs : List SymErr) (s : State) :
    Completes (execDrizzleRead p addr errs s) := by
  simp only [execDrizzleRead]
  repeat' first | with_reducible exact .next _ | split

theorem execHostRead_completes (p window offset len : Nat) (s : State) :
    Completes (execHostRead p window offset len s) := by
  simp only [execHostRead]
  repeat' first | with_reducible exact .next _ | split

theorem execHostReadComplete_completes (id : Nat) (ok : Bool) (data : List Byte) (s : State) :
    Completes (execHostReadComplete id ok data s) := by
  simp only [execHostReadComplete]
  repeat' first | with_reducible exact .next _ | split

theorem execHostWrite_completes (p window offset : Nat) (data : List Byte) (s : State) :
    Completes (execHostWrite p window offset data s) := by
  simp only [execHostWrite]
  repeat' first | with_reducible exact .next _ | split

theorem execMove_completes (p obj tier addr sem : Nat) (s : State) : Completes (execMove p obj tier addr sem s) := by
  simp only [execMove]
  repeat' first | with_reducible exact .next _ | split

theorem execMoveComplete_completes (p obj : Nat) (s : State) : Completes (execMoveComplete p obj s) := by
  simp only [execMoveComplete]
  repeat' first | with_reducible exact .next _ | split

theorem execMoveAbort_completes (p obj : Nat) (s : State) : Completes (execMoveAbort p obj s) := by
  simp only [execMoveAbort]
  repeat' first | with_reducible exact .next _ | split

theorem execPrefetchRecord_completes (p : Nat) (s : State) : Completes (execPrefetchRecord p s) := by
  simp only [execPrefetchRecord]
  repeat' first | with_reducible exact .next _ | split

theorem execPrefetchRetry_completes (p : Nat) (s : State) : Completes (execPrefetchRetry p s) := by
  simp only [execPrefetchRetry]
  repeat' first | with_reducible exact .next _ | split

theorem execScaleAdvance_completes (p sem : Nat) (s : State) : Completes (execScaleAdvance p sem s) := by
  simp only [execScaleAdvance]
  repeat' first | with_reducible exact .next _ | split

theorem execScaleAdvanceDone_completes (p : Nat) (s : State) : Completes (execScaleAdvanceDone p s) := by
  simp only [execScaleAdvanceDone]
  repeat' first | with_reducible exact .next _ | split

theorem execPictureStart_completes (e : Nat) (pic : PicStart) (s : State) : Completes (execPictureStart e pic s) := by
  simp only [execPictureStart]
  repeat' first | with_reducible exact .next _ | split

theorem execBufferUnpark_completes (p pool : Nat) (s : State) : Completes (execBufferUnpark p pool s) := by
  simp only [execBufferUnpark]
  repeat' first | with_reducible exact .next _ | split

theorem execPictureEnd_completes (e : Nat) (fin : PicEnd) (s : State) : Completes (execPictureEnd e fin s) := by
  simp only [execPictureEnd]
  repeat' first | with_reducible exact .next _ | split

theorem execOutputUnpark_completes (p ctx : Nat) (s : State) : Completes (execOutputUnpark p ctx s) := by
  simp only [execOutputUnpark]
  repeat' first | with_reducible exact .next _ | split

theorem execDecodeBudgetAbort_completes (e rebuilt : Nat) (s : State) :
    Completes (execDecodeBudgetAbort e rebuilt s) := by
  simp only [execDecodeBudgetAbort]
  repeat' first | with_reducible exact .next _ | split

theorem execEncodeSlice_completes (e : Nat) (data : List Byte) (luma chroma : List Nat) (qp cycles : Nat) (s : State)
    :
    Completes (execEncodeSlice e data luma chroma qp cycles s) := by
  simp only [execEncodeSlice]
  repeat' first | with_reducible exact .next _ | split

theorem execSampleRecordTake_completes (p ctx : Nat) (s : State) : Completes (execSampleRecordTake p ctx s) := by
  simp only [execSampleRecordTake]
  repeat' first | with_reducible exact .next _ | split

theorem execWriterFrameDone_completes (p ctx : Nat) (sig : ColourSignal) (cycles : Nat) (s : State) :
    Completes (execWriterFrameDone p ctx sig cycles s) := by
  simp only [execWriterFrameDone]
  repeat' first | with_reducible exact .next _ | split

theorem execEthFrameReceive_completes (port : Nat) (f : EthFrame) (s : State) :
    Completes (execEthFrameReceive port f s) := by
  simp only [execEthFrameReceive]
  repeat' first | with_reducible exact .next _ | split

theorem execData_completes (k : Pkt) (s : State) : Completes (execData k s) := by
  simp only [execData]
  repeat' first | with_reducible exact .next _ | split

theorem execAck_completes (k : Pkt) (now : Nat) (s : State) : Completes (execAck k now s) := by
  simp only [execAck]
  repeat' first | with_reducible exact .next _ | split

theorem execHello_completes (h : Shake) (s : State) : Completes (execHello h s) := by
  simp only [execHello]
  repeat' first | with_reducible exact .next _ | split

theorem execReply_completes (h : Shake) (s : State) : Completes (execReply h s) := by
  simp only [execReply]
  repeat' first | with_reducible exact .next _ | split

theorem execRekeyReply_completes (k : Pkt) (s : State) : Completes (execRekeyReply k s) := by
  simp only [execRekeyReply]
  repeat' first | with_reducible exact .next _ | split

theorem execNetCreditAvailable_completes (nd now : Nat) (s : State) : Completes (execNetCreditAvailable nd now s) := by
  simp only [execNetCreditAvailable]
  repeat' first | with_reducible exact .next _ | split

theorem execRnrResend_completes (sess msg : Nat) (s : State) : Completes (execRnrResend sess msg s) := by
  simp only [execRnrResend]
  repeat' first | with_reducible exact .next _ | split

theorem execCollCallStart_completes (p comm : Nat) (s : State) : Completes (execCollCallStart p comm s) := by
  simp only [execCollCallStart]
  repeat' first | with_reducible exact .next _ | split

theorem execPermuteStart_completes (p : Nat) (s : State) : Completes (execPermuteStart p s) := by
  simp only [execPermuteStart]
  repeat' first | with_reducible exact .next _ | split

theorem execEpochClosed_completes (k : Pkt) (s : State) : Completes (execEpochClosed k s) := by
  simp only [execEpochClosed]
  repeat' first | with_reducible exact .next _ | split

theorem execMismatch_completes (k : Pkt) (s : State) : Completes (execMismatch k s) := by
  simp only [execMismatch]
  repeat' first | with_reducible exact .next _ | split

theorem execCollCallComplete_completes (p comm seq : Nat) (s : State) :
    Completes (execCollCallComplete p comm seq s) := by
  simp only [execCollCallComplete]
  repeat' first | with_reducible exact .next _ | split

theorem execEntryIssue_completes (p q waitNs : Nat) (s : State) : Completes (execEntryIssue p q waitNs s) := by
  simp only [execEntryIssue]
  repeat' first | with_reducible exact .next _ | split

theorem execJobStart_completes (p q waitNs : Nat) (s : State) : Completes (execJobStart p q waitNs s) := by
  simp only [execJobStart]
  repeat' first | with_reducible exact .next _ | split

theorem execSwitchQuiesced_completes (p : Nat) (s : State) : Completes (execSwitchQuiesced p s) := by
  simp only [execSwitchQuiesced]
  repeat' first | with_reducible exact .next _ | split

theorem execSwitchSaved_completes (p : Nat) (s : State) : Completes (execSwitchSaved p s) := by
  simp only [execSwitchSaved]
  repeat' first | with_reducible exact .next _ | split

theorem execJobResume_completes (p : Nat) (s : State) : Completes (execJobResume p s) := by
  simp only [execJobResume]
  repeat' first | with_reducible exact .next _ | split

theorem execLoadWrite_completes (p offset : Nat) (data : List Byte) (s : State) :
    Completes (execLoadWrite p offset data s) := by
  simp only [execLoadWrite]
  repeat' first | with_reducible exact .next _ | split

theorem execAttestReportSigned_completes (cls : Cls) (p : Option Nat) (s : State) :
    Completes (execAttestReportSigned cls p s) := by
  simp only [execAttestReportSigned]
  repeat' first | with_reducible exact .next _ | split

theorem execGetMeasurements_completes (index : Nat) (signIt : Bool) (s : State) :
    Completes (execGetMeasurements index signIt s) := by
  simp only [execGetMeasurements]
  repeat' first | with_reducible exact .next _ | split

theorem execStoreCommit_completes (ok : Bool) (s : State) : Completes (execStoreCommit ok s) := by
  simp only [execStoreCommit]
  repeat' first | with_reducible exact .next _ | split

theorem execMgmtDatagram_completes (d : Datagram) (s : State) : Completes (execMgmtDatagram d s) := by
  simp only [execMgmtDatagram]
  repeat' first | with_reducible exact .next _ | split

theorem execContainment_completes (p : Nat) (s : State) : Completes (execContainment p s) := by
  simp only [execContainment]
  repeat' first | with_reducible exact .next _ | split

theorem execPartitionReset_completes (p : Nat) (s : State) : Completes (execPartitionReset p s) := by
  simp only [execPartitionReset]
  repeat' first | with_reducible exact .next _ | split

theorem execGroupRetire_completes (group : Nat) (s : State) : Completes (execGroupRetire group s) := by
  simp only [execGroupRetire]
  repeat' first | with_reducible exact .next _ | split

theorem execModuleReset_completes (boot : BootIn) (fatal : Nat) (s : State) :
    Completes (execModuleReset boot fatal s) := by
  simp only [execModuleReset]
  repeat' first | with_reducible exact .next _ | split

theorem execRecoveryDone_completes (s : State) : Completes (execRecoveryDone s) := by
  simp only [execRecoveryDone]
  repeat' first | with_reducible exact .next _ | split

theorem execOcReady_completes (level : Nat) (s : State) : Completes (execOcReady level s) := by
  simp only [execOcReady]
  repeat' first | with_reducible exact .next _ | split

theorem execMarginDone_completes (result : List Byte) (nowMs : Nat) (s : State) :
    Completes (execMarginDone result nowMs s) := by
  simp only [execMarginDone]
  repeat' first | with_reducible exact .next _ | split

theorem execPinSwitchComplete_completes (pin : Nat) (s : State) : Completes (execPinSwitchComplete pin s) := by
  simp only [execPinSwitchComplete]
  repeat' first | with_reducible exact .next _ | split

theorem execRefclkLoss_completes (ref : RefClk) (s : State) : Completes (execRefclkLoss ref s) := by
  simp only [execRefclkLoss]
  repeat' first | with_reducible exact .next _ | split

theorem execKeyStoreHandshake_completes (s : State) : Completes (execKeyStoreHandshake s) := by
  simp only [execKeyStoreHandshake]
  repeat' first | with_reducible exact .next _ | split

theorem execConfigurationRequest_completes (req : ConfigReq) (s : State) :
    Completes (execConfigurationRequest req s) := by
  simp only [execConfigurationRequest]
  repeat' first | with_reducible exact .next _ | split

/-! ## Every row -/

/-- No command faults and none is refused. -/
theorem exec_completes (c : Instr) (s : State) : Completes (exec c s) := by
  cases c with
  | fabricCrcFail | clockHold | frameFreed | dieTreeOutput | partitionDone | scratchScrub | stratusScrub | dieClear
  | dieClearDone | refresh | drainEnd | ackTimer | retransmitTimeout | sessionFail | oldKeyExpiry | rekeyStart
  | collPacket | announce | collAbort | place | drbgReseed | getCertificate | spdmUnsupported | fwImageWrite
  | ocRestartTimeout | read | readSegment | abort | domWriteSegment | registerWrite | mgmtArpIcmp | spareSwap
  | dieReset | recoveryTimeout | almanacCommit | almanacEraseDone | modEnRise | modEnFall | inputOutOfRange
  | modResetAssert | modResetRelease | perstRelease | ethLinkUp | portRestart | pcieLinkUp | powerLimitFence
  | powerLimitShutdown | refclkReturn | inputInRange | laneMarginingRequest =>
    exact .ite (.next _) (.next _)
  | rekey | helloTimeout | closeTimeout | doorbell | preempt | ocActivation | perstAssert | railsGood | retrainDone
  | dieTempSample | thermalTrip =>
    exact .ite (.next _) (.ite (.next _) (.next _))
  | ocIcmpReply | close | mctpMessage | slotStartTimeout | bootStepTimeout | trainingRoundDone | powerAverageTick =>
    exact .ite (.next _) (.ite (.next _) (.ite (.next _) (.next _)))
  | mailboxDoorbell =>
    exact .ite (.next _) (.ite (.next _) (.ite (.next _) (.ite (.next _) (.next _))))
  | nak | scrubDone =>
    exact .ite (.next _) (.ite (.next _) (.ite (.next _) (.ite (.next _) (.ite (.next _) (.next _)))))
  | clockHoldEnd die => exact execClockHoldEnd_completes die s
  | bundleIssue g hold ecc upsets others => exact execBundleIssue_completes g hold ecc upsets others s
  | issueResume g cycles => exact execIssueResume_completes g cycles s
  | amaxCountMerge g slot => exact execAmaxCountMerge_completes g slot s
  | streamEnd g out stream => exact execStreamEnd_completes g out stream s
  | farRequestIssue g stream => exact execFarRequestIssue_completes g stream s
  | unitArrival g stream => exact execUnitArrival_completes g stream s
  | uncontractedDeposit d => exact execUncontractedDeposit_completes d s
  | semIncrementRelease p sem => exact execSemIncrementRelease_completes p sem s
  | semGrant p sem => exact execSemGrant_completes p sem s
  | semTimeout g => exact execSemTimeout_completes g s
  | fenceComplete g cycles => exact execFenceComplete_completes g cycles s
  | predicateResolve g => exact execPredicateResolve_completes g s
  | shadowOpen g space page pred => exact execShadowOpen_completes g space page pred s
  | shadowDrained g space frame => exact execShadowDrained_completes g space frame s
  | bcastUnitIssue die grp => exact execBcastUnitIssue_completes die grp s
  | tileBcastTimeout die grp => exact execTileBcastTimeout_completes die grp s
  | walkStart p k desc => exact execWalkStart_completes p k desc s
  | walkEntryFetch p w n => exact execWalkEntryFetch_completes p w n s
  | walkSlotFill p w => exact execWalkSlotFill_completes p w s
  | bankRetry g => exact execBankRetry_completes g s
  | stratusRetry die idle upsets => exact execStratusRetry_completes die idle upsets s
  | unscheduledStratusGrant die idle chan arrived => exact execUnscheduledStratusGrant_completes die idle chan arrived s
  | lineRead p addr len hint reserved errs tagFail => exact execLineRead_completes p addr len hint reserved errs tagFail s
  | drizzleRead p addr errs => exact execDrizzleRead_completes p addr errs s
  | hostRead p window offset len => exact execHostRead_completes p window offset len s
  | hostReadComplete id ok data => exact execHostReadComplete_completes id ok data s
  | hostWrite p window offset data => exact execHostWrite_completes p window offset data s
  | move p obj tier addr sem => exact execMove_completes p obj tier addr sem s
  | moveComplete p obj => exact execMoveComplete_completes p obj s
  | moveAbort p obj => exact execMoveAbort_completes p obj s
  | prefetchRecord p => exact execPrefetchRecord_completes p s
  | prefetchRetry p => exact execPrefetchRetry_completes p s
  | scaleAdvance p sem => exact execScaleAdvance_completes p sem s
  | scaleAdvanceDone p => exact execScaleAdvanceDone_completes p s
  | pictureStart e pic => exact execPictureStart_completes e pic s
  | bufferUnpark p pool => exact execBufferUnpark_completes p pool s
  | pictureEnd e fin => exact execPictureEnd_completes e fin s
  | outputUnpark p ctx => exact execOutputUnpark_completes p ctx s
  | decodeBudgetAbort e rebuilt => exact execDecodeBudgetAbort_completes e rebuilt s
  | encodeSlice e data luma chroma qp cycles => exact execEncodeSlice_completes e data luma chroma qp cycles s
  | sampleRecordTake p ctx => exact execSampleRecordTake_completes p ctx s
  | writerFrameDone p ctx sig cycles => exact execWriterFrameDone_completes p ctx sig cycles s
  | ethFrameReceive port f => exact execEthFrameReceive_completes port f s
  | data k => exact execData_completes k s
  | ack k now => exact execAck_completes k now s
  | hello h => exact execHello_completes h s
  | reply h => exact execReply_completes h s
  | rekeyReply k => exact execRekeyReply_completes k s
  | netCreditAvailable nd now => exact execNetCreditAvailable_completes nd now s
  | rnrResend sess msg => exact execRnrResend_completes sess msg s
  | collCallStart p comm => exact execCollCallStart_completes p comm s
  | permuteStart p => exact execPermuteStart_completes p s
  | epochClosed k => exact execEpochClosed_completes k s
  | mismatch k => exact execMismatch_completes k s
  | collCallComplete p comm seq => exact execCollCallComplete_completes p comm seq s
  | entryIssue p q waitNs => exact execEntryIssue_completes p q waitNs s
  | jobStart p q waitNs => exact execJobStart_completes p q waitNs s
  | switchQuiesced p => exact execSwitchQuiesced_completes p s
  | switchSaved p => exact execSwitchSaved_completes p s
  | jobResume p => exact execJobResume_completes p s
  | loadWrite p offset data => exact execLoadWrite_completes p offset data s
  | attestReportSigned cls p => exact execAttestReportSigned_completes cls p s
  | getMeasurements index signIt => exact execGetMeasurements_completes index signIt s
  | storeCommit ok => exact execStoreCommit_completes ok s
  | mgmtDatagram d => exact execMgmtDatagram_completes d s
  | containment p => exact execContainment_completes p s
  | partitionReset p => exact execPartitionReset_completes p s
  | groupRetire group => exact execGroupRetire_completes group s
  | moduleReset boot fatal => exact execModuleReset_completes boot fatal s
  | recoveryDone => exact execRecoveryDone_completes s
  | ocReady level => exact execOcReady_completes level s
  | marginDone result nowMs => exact execMarginDone_completes result nowMs s
  | pinSwitchComplete pin => exact execPinSwitchComplete_completes pin s
  | refclkLoss ref => exact execRefclkLoss_completes ref s
  | keyStoreHandshake => exact execKeyStoreHandshake_completes s
  | configurationRequest req => exact execConfigurationRequest_completes req s
  | _ => exact .next _

/-- Settles O4: each row's outcome is a next state, and `Keeps` has the queue among what no command changes. -/
theorem everyCommandCompletes : Obligations.EveryCommandCompletes := by
  unfold Obligations.EveryCommandCompletes
  intro c s
  obtain ⟨t, hexec⟩ := exec_completes c s
  exact ⟨t, hexec, (Keeps.of_exec hexec).pending⟩

end Sys2Proof.Machine

/-! # Proofs: requests of the dictionary server -/

namespace Sys2Proof.Machine

/-! ## Request frames read back (Table 16.6) -/

theorem length_requestFrame (op a tag : Nat) (data : List Byte) : (requestFrame op a tag data).length = 8 + data.length := by
  simp [requestFrame]
  omega

theorem frameLen_requestFrame {data : List Byte} (hlen : data.length < 65536) (op a tag : Nat) :
    frameLen (requestFrame op a tag data) = data.length := by
  have hfield := fieldLE_leBytes (leBytes 1 op ++ leBytes 1 (a % 256) ++ leBytes 2 (a / 256)) (leBytes 2 tag ++ data) 2
    data.length
  rw [Nat.mod_eq_of_lt (show data.length < 256 ^ 2 from hlen)] at hfield
  simpa [frameLen, requestFrame] using hfield

theorem frameTag_requestFrame {tag : Nat} (htag : tag < 65536) (op a : Nat) (data : List Byte) :
    frameTag (requestFrame op a tag data) = tag := by
  have hfield := fieldLE_leBytes (leBytes 1 op ++ leBytes 1 (a % 256) ++ leBytes 2 (a / 256) ++ leBytes 2 data.length) data 2
    tag
  rw [Nat.mod_eq_of_lt (show tag < 256 ^ 2 from htag)] at hfield
  simpa [frameTag, requestFrame] using hfield

/-- A WRITE of a value carries its address, its tag and the value. -/
theorem writeFrame_fields {a n v tag : Nat} (ha : a < 2 ^ 24) (htag : tag < 2 ^ 16) (hn : n ≤ 8) (hv : v < 256 ^ n) :
    let f := writeFrame a n v tag
    f.length = 8 + frameLen f ∧ frameLen f = n ∧ frameOp f = 2 ∧ frameAddr f = a ∧ frameTag f = tag ∧ leNat (frameData f) = v := by
  have hlen : frameLen (writeFrame a n v tag) = n := by
    rw [writeFrame, frameLen_requestFrame (by rw [length_leBytes]; omega), length_leBytes]
  refine ⟨?length, hlen, frameOp_requestFrame .., frameAddr_requestFrame ha .., frameTag_requestFrame htag .., ?value⟩
  case length => rw [hlen, writeFrame, length_requestFrame, length_leBytes]
  case value => rw [writeFrame, frameData_requestFrame, leNat_leBytes, Nat.mod_eq_of_lt hv]

/-! ## Requests that need no verdict (R416) -/

/-- A request of an entry that takes no verdict. -/
theorem perform_of_plain {s : State} {c : Caller} {f : List Byte}
    (hplain : ((findRow (frameAddr f)).any fun r => r.id = .fwImageWrite ∨ r.id = .secDebugToken) = false) :
    perform s c f = performWith s c f (freeVerdict s) :=
  if_neg (Bool.not_eq_true _ ▸ hplain)

theorem plain_of_findRow {f : List Byte} {r : Row} (hrow : findRow (frameAddr f) = some r) (himage : r.id ≠ .fwImageWrite)
    (htoken : r.id ≠ .secDebugToken) :
    ((findRow (frameAddr f)).any fun r => r.id = .fwImageWrite ∨ r.id = .secDebugToken) = false := by
  simp [hrow, himage, htoken]

/-! ## Writes of a value (R409, R413) -/

theorem writeValue_of_bad {s : State} {f : List Byte} {r : Row} (c : Caller)
    (hbad : valueBad s (frameAddr f) r (leNat (frameData f)) = true) : writeValue s c f r = (s, .err 8) :=
  if_pos hbad

/-- A value that is good for an entry written as it is: to the store first where the entry is persistent. -/
theorem writeValue_of_good {s : State} {c : Caller} {f : List Byte} {r : Row}
    (hgood : valueBad s (frameAddr f) r (leNat (frameData f)) = false) (hkind : r.access c.cls ≠ some .w1c) :
    writeValue s c f r = if r.persist = .persistent then
        (modServer s fun w => { w with store := w.store ++ [⟨c, f, frameAddr f, leNat (frameData f)⟩] }, .wait)
      else (applyWrite s c (frameAddr f) r (leNat (frameData f)), .ok []) := by
  simp only [writeValue, hgood, hkind, Bool.false_eq_true, if_false]

/-- An accepted WRITE of a value, as the server performs it. -/
theorem perform_write {s : State} {c : Caller} {f : List Byte} {r : Row} (hacc : accepted s c f = true) (hop : frameOp f = 2)
    (hrow : findRow (frameAddr f) = some r) (hty : r.ty ≠ .dom) (himage : r.id ≠ .fwImageWrite) (htoken : r.id ≠ .secDebugToken) :
    perform s c f = respond (writeValue s c f r).1 c f (writeValue s c f r).2 true := by
  rw [perform_of_plain (plain_of_findRow hrow himage htoken), performWith_of_accepted hacc,
    answer_of_accepted_write hacc hop hrow hty]

/-- A value its chapter rejects is answered INVALID_VALUE. -/
theorem perform_write_of_bad {s : State} {c : Caller} {f : List Byte} {r : Row} (hacc : accepted s c f = true)
    (hop : frameOp f = 2) (hrow : findRow (frameAddr f) = some r) (hty : r.ty ≠ .dom) (himage : r.id ≠ .fwImageWrite)
    (htoken : r.id ≠ .secDebugToken) (hbad : valueBad s (frameAddr f) r (leNat (frameData f)) = true) :
    perform s c f = respond s c f (.err 8) true := by
  rw [perform_write hacc hop hrow hty himage htoken, writeValue_of_bad c hbad]

/-- Any other is applied and answered, or waits for its commit. -/
theorem perform_write_of_good {s : State} {c : Caller} {f : List Byte} {r : Row} (hacc : accepted s c f = true)
    (hop : frameOp f = 2) (hrow : findRow (frameAddr f) = some r) (hty : r.ty ≠ .dom) (himage : r.id ≠ .fwImageWrite)
    (htoken : r.id ≠ .secDebugToken) (hgood : valueBad s (frameAddr f) r (leNat (frameData f)) = false)
    (hkind : r.access c.cls ≠ some .w1c) :
    perform s c f = if r.persist = .persistent then
        modServer s fun w => { w with store := w.store ++ [⟨c, f, frameAddr f, leNat (frameData f)⟩] }
      else respond (applyWrite s c (frameAddr f) r (leNat (frameData f))) c f (.ok []) true := by
  rw [perform_write hacc hop hrow hty himage htoken, writeValue_of_good hgood hkind]
  split <;> rfl

/-- REGISTER_WRITE performs a WRITE of a value. -/
theorem execRegisterWrite_of_write {s : State} {c : Caller} {f : List Byte} {r : Row} (hop : frameOp f = 2)
    (hrow : findRow (frameAddr f) = some r) (hty : r.ty ≠ .dom) : execRegisterWrite c f s = .next (perform s c f) := by
  simp [execRegisterWrite, domWrite, hop, hrow, hty]

/-- Settles O53: each row's command performs the WRITE of its frame, and REGISTER_WRITE that of any. -/
theorem registerWrites : Obligations.RegisterWrites := by
  unfold Obligations.RegisterWrites
  refine ⟨fun s c tag => ?_, fun a n v tag ha htag hn hv => writeFrame_fields ha htag hn hv⟩
  intro writes
  have hwrites : ∀ (x : Instr) (f : List Byte), (∀ r, frameOp f = 2 → findRow (frameAddr f) = some r → r.ty ≠ .dom →
      exec x s = .next (perform s c f)) → writes x f := by
    intro x f hexec r hacc hop hrow hty himage htoken
    have hx := hexec r hop hrow hty
    refine ⟨fun hbad => hx.trans (congrArg _ ?bad), fun hgood hkind => hx.trans (congrArg _ ?good)⟩
    case bad => exact perform_write_of_bad hacc hop hrow hty himage htoken hbad
    case good => exact perform_write_of_good hacc hop hrow hty himage htoken hgood hkind
  have hrows : ∀ (x : Instr) (f : List Byte), exec x s = .next (perform s c f) → writes x f :=
    fun x f hexec => hwrites x f fun _ _ _ _ => hexec
  refine ⟨fun v => ⟨?_, ?_, ?_, ?_, ?_, ?_, ?_, ?_, ?_, ?_, ?_, ?_⟩, fun k v => ⟨?_, ?_, ?_, ?_, fun q => ?_⟩,
    fun k => ⟨?_, ?_, ?_⟩, ?_, ?_, ?_, fun f => ?registerWrite⟩
  case registerWrite => exact hwrites _ _ fun r hop hrow hty => execRegisterWrite_of_write hop hrow hty
  all_goals exact hrows _ _ rfl

end Sys2Proof.Machine

/-! # Proofs: reads, segments, aborts and DOM writes of the dictionary -/

namespace Sys2Proof.Machine

/-! ## An accepted request is the one of its operation (R416) -/

theorem accepted_checks {s : State} {c : Caller} {f : List Byte} (h : accepted s c f = true) :
    frameCode s c f = none ∧ cutRefused s c f = none ∧ typeBad (frameAddr f) f = false := by
  simp only [accepted, Bool.and_eq_true, Option.isNone_iff_eq_none, Bool.not_eq_true'] at h
  exact ⟨h.1.1.2, h.1.2, h.2⟩

theorem answer_of_accepted_read {s : State} {c : Caller} {f : List Byte} (h : accepted s c f = true) (hop : frameOp f = 1)
    (v : Verdict) : answer s c f v = readEntry s c f := by
  obtain ⟨hcode, hcut, htype⟩ := accepted_checks h
  simp [answer, hcode, hcut, htype, hop]

theorem answer_of_accepted_readSegment {s : State} {c : Caller} {f : List Byte} (h : accepted s c f = true)
    (hop : frameOp f = 3) (v : Verdict) : answer s c f v = readSeg s c f := by
  obtain ⟨hcode, hcut, htype⟩ := accepted_checks h
  simp [answer, hcode, hcut, htype, hop]

theorem answer_of_accepted_abort {s : State} {c : Caller} {f : List Byte} (h : accepted s c f = true)
    (hop : frameOp f = 4) (v : Verdict) : answer s c f v = abortTransfer s c f := by
  obtain ⟨hcode, hcut, htype⟩ := accepted_checks h
  simp [answer, hcode, hcut, htype, hop]

theorem answer_of_accepted_domWrite {s : State} {c : Caller} {f : List Byte} {r : Row} (h : accepted s c f = true)
    (hop : frameOp f = 2) (hrow : findRow (frameAddr f) = some r) (hty : r.ty = .dom) (v : Verdict) :
    answer s c f v = writeSegment s c f r v := by
  obtain ⟨hcode, hcut, htype⟩ := accepted_checks h
  simp [answer, hcode, hcut, htype, hop, hrow, hty]

/-! ## Reads (R416, R417) -/

/-- An entry whose READ neither clears it nor takes a free value reads its value. -/
theorem readEntry_of_value {s : State} {c : Caller} {f : List Byte} {r : Row} (hrow : findRow (frameAddr f) = some r)
    (hdom : r.ty ≠ .dom) (hvis : r.ty ≠ .vis) (hopen : openEntry r = false) (hkind : r.access c.cls ≠ some .rc) :
    readEntry s c f = (s, .ok (leBytes r.ty.bytes (entryValue s c.cls (frameAddr f) r))) := by
  rw [readEntry, hrow]
  dsimp only
  split
  · contradiction
  · contradiction
  · rw [hopen, if_neg Bool.false_ne_true, if_neg hkind]

/-- ALM_WINDOW is read as a snapshot of the window at its class's cursor. -/
theorem readEntry_of_almWindow {s : State} {c : Caller} {f : List Byte} {r : Row} (hrow : findRow (frameAddr f) = some r)
    (hty : r.ty = .dom) (hid : r.id = .almWindow) :
    let d := almWindow s c.cls
    let x : Transfer := { caller := c, addr := frameAddr f, tag := frameTag f, total := d.1.length, data := d.1 }
    readEntry s c f =
      (modServer d.2 fun v => { v with snaps := v.snaps.filter (fun y => !Transfer.isFor y c (frameAddr f) (frameTag f)) ++ [x] },
        .ok (leBytes 4 d.1.length)) := by
  have hdue : reportDue s c.cls (frameAddr f) r = false := by simp [reportDue, hid]
  have hvalue : domValue s c.cls (frameAddr f) r = almWindow s c.cls := by simp only [domValue, hid]
  simp only [readEntry, hrow, hty, hdue, hvalue, Bool.false_eq_true, if_false]

/-- A segment within a snapshot, for a caller whose transport has no limit. -/
theorem readSeg_of_snap {s : State} {c : Caller} {f : List Byte} {x : Transfer}
    (hsnap : s.server.snaps.find? (fun x => Transfer.isFor x c (frameAddr f) (frameTag f)) = some x)
    (hoff : fieldLE (frameData f) 0 4 < x.total) (htransport : c.transport = 0) :
    readSeg s c f =
      (s, .ok (slice x.data (fieldLE (frameData f) 0 4) (min (fieldLE (frameData f) 4 4) (x.total - fieldLE (frameData f) 0 4)))) := by
  have hmax : maxLen c = none := by simp only [maxLen, htransport]
  simp only [readSeg, hsnap, hmax, Nat.not_le.mpr hoff, if_false, Option.getD_none, Nat.min_self]

/-! ## DOM writes (R398, R400, R404, R418) -/

/-- A DOM value written whole by its first segment ends the other transfers of its entry. -/
theorem writeSegment_of_whole {s : State} {f : List Byte} {r : Row} (c : Caller) (v : Verdict)
    (hoff : fieldLE (frameData f) 0 4 = 0) (htotal : fieldLE (frameData f) 4 4 = ((frameData f).drop 8).length) :
    let others := modServer s fun w => { w with writes := w.writes.filter fun x => decide (x.addr ≠ frameAddr f) }
    writeSegment s c f r v =
      endDom (if r.id = .fwImageWrite then programSlot others v.img else others) c (frameAddr f) r ((frameData f).drop 8) v := by
  simp only [writeSegment, hoff, htotal, if_true, Nat.lt_irrefl, if_false]

theorem endDom_of_good {s : State} {r : Row} {bs : List Byte} (himage : r.id ≠ .fwImageWrite) (htoken : r.id ≠ .secDebugToken)
    (hgood : domBad r bs = false) (c : Caller) (a : Nat) (v : Verdict) :
    endDom s c a r bs v = (applyDom s c a r bs, .ok []) := by
  unfold endDom
  split
  · contradiction
  · contradiction
  · exact if_neg (Bool.eq_false_iff.mp hgood)

theorem endDom_of_image {r : Row} (himage : r.id = .fwImageWrite) (s : State) (c : Caller) (a : Nat) (bs : List Byte) (v : Verdict) :
    endDom s c a r bs v = endImage s v.img := by
  simp only [endDom, himage]

theorem endDom_of_token {r : Row} (htoken : r.id = .secDebugToken) (s : State) (c : Caller) (a : Nat) (bs : List Byte) (v : Verdict) :
    endDom s c a r bs v = endToken s c bs v.sigOk := by
  simp only [endDom, htoken]

/-- A slot's image set after its mark was. -/
theorem FwSlots.put_put (x : FwSlots) (b : Bool) (i j : Option FwImage) (m n : Bool) : (x.put b i m).put b j n = x.put b j n := by
  cases b <;> rfl

theorem FwSlots.put_active (x : FwSlots) (b : Bool) (i : Option FwImage) (m : Bool) : (x.put b i m).active = x.active := by
  cases b <;> rfl

theorem fwSlots_setSlots (s : State) (oc : Bool) (x : FwSlots) : fwSlots (setSlots s oc x) oc = x := by
  cases oc <;> rfl

theorem setSlots_setSlots (s : State) (oc : Bool) (x y : FwSlots) : setSlots (setSlots s oc x) oc y = setSlots s oc y := by
  cases oc <;> rfl

theorem imageOk_setSlots (s : State) (oc : Bool) (x : FwSlots) (i : FwImage) : imageOk (setSlots s oc x) i = imageOk s i := by
  cases oc <;> rfl

/-- An image the SC accepts stands in the inactive slot it was programmed into, its mark gone. -/
theorem endImage_programSlot {s : State} {i : FwImage} (hok : imageOk s i = true) :
    let x := fwSlots s i.oc
    endImage (programSlot s i) i = (setSlots s i.oc (x.put (!x.active) (some i) false), .ok []) := by
  simp only [endImage, programSlot, imageOk_setSlots, hok, if_true, fwSlots_setSlots, setSlots_setSlots, FwSlots.put_active,
    FwSlots.put_put]

/-- A debug token that verifies sets the level of the next reset. -/
theorem endToken_of_good {s : State} {bs : List Byte} (c : Caller) (hlen : bs.length = 180)
    (hdevice : slice bs 0 48 = leBytes 48 deviceId) (hchallenge : slice bs 48 32 = leBytes 32 (Config.freeValue s.sec.challenge))
    (hlevel : fieldLE bs 80 1 = 1 ∨ fieldLE bs 80 1 = 2) :
    endToken s c bs true = ({ s with nv := { s.nv with debugNext := fieldLE bs 80 1 } }, .ok []) := by
  simp only [endToken, hlen, hdevice, hchallenge]
  exact if_pos (by simpa using hlevel)

/-! ## The operations' commands -/

theorem domWrite_of_row {f : List Byte} {r : Row} (hop : frameOp f = 2) (hrow : findRow (frameAddr f) = some r)
    (hty : r.ty = .dom) : domWrite f = true := by
  simp [domWrite, hop, hrow, hty]

/-- An accepted DOM value of no verdict, written whole. -/
theorem perform_domWrite {s : State} {c : Caller} {f : List Byte} {r : Row} (hacc : accepted s c f = true)
    (hop : frameOp f = 2) (hrow : findRow (frameAddr f) = some r) (hty : r.ty = .dom) (himage : r.id ≠ .fwImageWrite)
    (htoken : r.id ≠ .secDebugToken) (hoff : fieldLE (frameData f) 0 4 = 0)
    (htotal : fieldLE (frameData f) 4 4 = ((frameData f).drop 8).length) (hgood : domBad r ((frameData f).drop 8) = false) :
    let others := modServer s fun w => { w with writes := w.writes.filter fun x => decide (x.addr ≠ frameAddr f) }
    perform s c f = respond (applyDom others c (frameAddr f) r ((frameData f).drop 8)) c f (.ok []) true := by
  intro others
  rw [perform_of_plain (plain_of_findRow hrow himage htoken), performWith_of_accepted hacc,
    answer_of_accepted_domWrite hacc hop hrow hty, writeSegment_of_whole c _ hoff htotal, if_neg himage,
    endDom_of_good himage htoken hgood]

/-- Settles O55: each operation as the server performs it on an accepted frame. -/
theorem dictionaryOperations : Obligations.DictionaryOperations := by
  unfold Obligations.DictionaryOperations
  intro s c f hacc
  refine ⟨?read, ?window, ?readSegment, ?abort, ?domWrite, ?image, ?token⟩
  case read =>
    intro r hop hrow hdom hvis hopen himage htoken hkind
    have hexec : exec (.read c f) s = .next (perform s c f) := if_neg (by omega)
    rw [hexec, perform_of_plain (plain_of_findRow hrow himage htoken), performWith_of_accepted hacc,
      answer_of_accepted_read hacc hop, readEntry_of_value hrow hdom hvis hopen hkind]
  case window =>
    intro r tag hf hrow hty hid
    have hexec : exec (.almanacWindowRead c tag) s = .next (perform s c f) := by rw [hf]; rfl
    have hop : frameOp f = 1 := by rw [hf, frameOp_requestFrame]
    rw [hexec, perform_of_plain (plain_of_findRow hrow (by simp [hid]) (by simp [hid])), performWith_of_accepted hacc,
      answer_of_accepted_read hacc hop, readEntry_of_almWindow hrow hty hid]
  case readSegment =>
    intro x hop hsnap hoff htransport hplain
    have hexec : exec (.readSegment c f) s = .next (perform s c f) := if_pos hop
    rw [hexec, perform_of_plain hplain, performWith_of_accepted hacc, answer_of_accepted_readSegment hacc hop,
      readSeg_of_snap hsnap hoff htransport]
  case abort =>
    intro hop hplain
    have hexec : exec (.abort c f) s = .next (perform s c f) := if_pos hop
    rw [hexec, perform_of_plain hplain, performWith_of_accepted hacc, answer_of_accepted_abort hacc hop, abortTransfer]
  case domWrite =>
    intro r hop hrow hty himage htoken hoff htotal hgood
    have hperform := perform_domWrite hacc hop hrow hty himage htoken hoff htotal hgood
    refine ⟨?_, fun tag p nonce hf => ?_⟩
    · exact (if_pos (domWrite_of_row hop hrow hty)).trans (congrArg _ hperform)
    · subst hf
      exact congrArg _ hperform
  case image =>
    intro r img hop haddr hrow hty himage hoff htotal hok
    have hexec : exec (.fwImageWrite c f img) s = .next (performWith s c f ⟨img, false⟩) :=
      if_pos ⟨domWrite_of_row hop hrow hty, haddr⟩
    have hend := endImage_programSlot
      (s := modServer s fun w => { w with writes := w.writes.filter fun x => decide (x.addr ≠ frameAddr f) }) hok
    rw [hexec, performWith_of_accepted hacc, answer_of_accepted_domWrite hacc hop hrow hty,
      writeSegment_of_whole c _ hoff htotal, if_pos himage, endDom_of_image himage, hend]
    rfl
  case token =>
    intro r tag token hf hop hrow hty htoken hoff htotal hdata hlen hdevice hchallenge hlevel
    have himage : r.id ≠ .fwImageWrite := by simp [htoken]
    have hexec : exec (.debugToken c tag token true) s = .next (performWith s c f ⟨(freeVerdict s).img, true⟩) := by rw [hf]; rfl
    rw [hexec, performWith_of_accepted hacc, answer_of_accepted_domWrite hacc hop hrow hty,
      writeSegment_of_whole c _ hoff htotal, if_neg himage, endDom_of_token htoken, hdata,
      endToken_of_good c hlen hdevice (by exact hchallenge) hlevel]

end Sys2Proof.Machine

/-! # Proofs: the store and the transports of the dictionary server -/

namespace Sys2Proof.Machine

/-! ## The store (R413) -/

/-- The oldest persistent write reaches the store and is answered. -/
theorem execStoreCommit_of_ok {s : State} {x : StoreReq} {rest : List StoreReq} {r : Row} (hstore : s.server.store = x :: rest)
    (hrow : findRow x.addr = some r) :
    execStoreCommit true s = .next (respond (applyWrite (modServer s fun v => { v with store := rest }) x.caller x.addr r x.value)
      x.caller x.frame (.ok []) true) := by
  simp only [execStoreCommit, hstore, hrow, if_true]

/-- Or the store fails, and the write is answered with an error. -/
theorem execStoreCommit_of_fail {s : State} {x : StoreReq} {rest : List StoreReq} (hstore : s.server.store = x :: rest) :
    execStoreCommit false s = .next (respond (recordOnly (modServer s fun v => { v with store := rest }) .dictStoreFailed 0 none
      0x1900 0) x.caller x.frame (.err 10) true) := by
  simp only [execStoreCommit, hstore, Bool.false_eq_true, if_false]

/-! ## Mailboxes (R420, R421) -/

@[simp] theorem modServer_server (s : State) (f : Server → Server) : (modServer s f).server = f s.server := rfl

theorem pageOf_modPage_self (s : State) (page : Nat) (f : Page → Page) : pageOf (modPage s page f) page = f (pageOf s page) := by
  simp only [pageOf, modPage, modServer_server, tget_tset_self, Option.getD_some]

theorem modPage_ready (s : State) (page : Nat) (f : Page → Page) : (modPage s page f).server.ready = s.server.ready := rfl

/-- A mailbox rung with no request of its own outstanding hands its frame on. -/
theorem execMailboxDoorbell_of_idle {s0 : State} {page : Nat} (f : List Byte) (vector : Nat) :
    let c : Caller := { cls := pageCls page, transport := 1, ident := page }
    let s := modPage s0 page fun y => { y with vector := bits vector 15 15 * 2 ^ 15 + bits vector 10 0 }
    transportUp s0 c = true → (pageOf s0 page).state = 0 ∨ (pageOf s0 page).state = 2 → s0.server.ready = true →
    execMailboxDoorbell page f vector s0 = .next (submit (modPage s page fun y => { y with state := 1, request := f }) c f 0) := by
  intro c s hup hstate hready
  have hworking : (pageOf s0 page).state ≠ 1 := by omega
  have hwaiting : (pageOf s0 page).state ≠ 3 := by omega
  simp only [execMailboxDoorbell, hup, pageOf_modPage_self, hworking, hwaiting, modPage_ready, hready, Bool.not_true,
    Bool.false_eq_true, if_false, if_true, c, s]

/-- One rung while its request is at work counts an overrun. -/
theorem execMailboxDoorbell_of_working {s0 : State} {page : Nat} (f : List Byte) (vector : Nat) :
    let s := modPage s0 page fun y => { y with vector := bits vector 15 15 * 2 ^ 15 + bits vector 10 0 }
    transportUp s0 { cls := pageCls page, transport := 1, ident := page } = true → (pageOf s0 page).state = 1 →
    execMailboxDoorbell page f vector s0 = .next (modPage s page fun y => { y with overrun := (y.overrun + 1) % 2 ^ 32 }) := by
  intro s hup hstate
  simp only [execMailboxDoorbell, hup, pageOf_modPage_self, hstate, Bool.not_true, Bool.false_eq_true, if_false, if_true, s]

/-! ## MCTP and the management port (R422 to R424) -/

/-- An MCTP message within its limits hands its frame on. -/
theorem execMctpMessage_of_accepted {s : State} {m : Mctp} :
    let c : Caller := { cls := if m.sc then .S else .O, transport := m.transport, ident := m.eid }
    let here := s.server.outstanding.filter fun x => x.1.cls = c.cls && x.1.transport = c.transport
    transportUp s c = true → m.transport = 2 ∨ m.transport = 3 → m.integrity = false → m.subTypeOk = true → m.ianaOk = true →
    (needsOc c = true → s.server.ready = true) → (here.filter fun x => x.1.ident = m.eid).length < 8 → here.length < 32 →
    execMctpMessage m s = .next (submit s c m.frame m.msgTag) := by
  intro c here hup htransport hintegrity hsub hiana hready hmine hall
  have htaken : ¬(!transportUp s c ∨ (m.transport ≠ 2 ∧ m.transport ≠ 3)) := by
    simp only [hup, Bool.not_true, Bool.false_eq_true, false_or]
    omega
  have hserved : (needsOc c && !s.server.ready) = false := by
    cases hneeds : needsOc c
    · rfl
    · rw [hready hneeds, Bool.not_true, Bool.and_false]
  have hfree : ¬((needsOc c && !s.server.ready) || decide (8 ≤ (here.filter fun x => x.1.ident = m.eid).length) ||
      decide (32 ≤ here.length)) = true := by
    rw [hserved, decide_eq_false (Nat.not_le.mpr hmine), decide_eq_false (Nat.not_le.mpr hall)]
    exact Bool.false_ne_true
  have hwhole : ¬(m.integrity || !m.subTypeOk || !m.ianaOk) = true := by simp [hintegrity, hsub, hiana]
  exact (if_neg htaken).trans ((if_neg hwhole).trans (if_neg hfree))

/-- A datagram from an address the port allows, new to it and within its limits, hands its frame on. -/
theorem execMgmtDatagram_of_accepted {s : State} {d : Datagram} :
    let c : Caller := { cls := if odGet s Ad.commEthClass = 1 then .O else .D, transport := 4, ident := d.addr * 65536 + d.port }
    let here := s.server.outstanding.filter fun x => x.1.transport = 4
    transportUp s c = true → d.dstPort = atReset s Ad.commEthUdpPort → d.frame.length = 8 + frameLen d.frame →
    d.addr &&& odGet s Ad.commEthAllowMask = odGet s Ad.commEthAllowAddr &&& odGet s Ad.commEthAllowMask →
    atReset s Ad.commEthIpv4Addr ≠ 0 → s.server.ready = true →
    s.server.kept.find? (fun k => k.addr = d.addr && k.port = d.port && k.tag = frameTag d.frame && k.request = d.frame) = none →
    (here.filter fun x => x.1.ident / 65536 = d.addr).length < 16 → here.length < 64 →
    execMgmtDatagram d s = .next (submit s c d.frame 0) := by
  intro c here hup hport hlen hallowed haddr hready hnew hmine hall
  have htaken : ¬(!transportUp s c ∨ d.dstPort ≠ atReset s Ad.commEthUdpPort) := by simp [hup, hport]
  have hwhole : ¬(d.frame.length ≠ 8 + frameLen d.frame ∨
      d.addr &&& odGet s Ad.commEthAllowMask ≠ odGet s Ad.commEthAllowAddr &&& odGet s Ad.commEthAllowMask ∨
      atReset s Ad.commEthIpv4Addr = 0) := by simp [hlen, hallowed, haddr]
  have hfree : ¬(16 ≤ (here.filter fun x => x.1.ident / 65536 = d.addr).length ∨ 64 ≤ here.length) := by omega
  have hserver : ¬(!s.server.ready) = true := by simp [hready]
  unfold execMgmtDatagram
  dsimp only
  rw [if_neg htaken, if_neg hwhole, if_neg hserver]
  split
  next k hfound => exact absurd (hnew.symm.trans hfound) (by simp)
  next => exact if_neg hfree

/-- The port answers for its address. -/
theorem execMgmtArpIcmp_of_own {s : State} (arp : Bool) (hready : s.server.ready = true)
    (haddr : atReset s Ad.commEthIpv4Addr ≠ 0) :
    execMgmtArpIcmp arp (atReset s Ad.commEthIpv4Addr) s = .next (emit s (.mgmt arp)) :=
  if_pos ⟨hready, haddr, rfl⟩

/-- Settles O56: each transport's own lemma; the expiries and the assignment are their rows. -/
theorem transports : Obligations.Transports := by
  unfold Obligations.Transports
  refine ⟨?store, ?expiry, ?mailbox, ?mctp, ?datagram, ?kept, ?arp, ?eid⟩
  case store => exact fun s x rest r hstore hrow => ⟨execStoreCommit_of_ok hstore hrow, execStoreCommit_of_fail hstore⟩
  case expiry => exact fun s c index sub tag => ⟨rfl, rfl⟩
  case mailbox =>
    intro s0 page vector f c s hup
    exact ⟨execMailboxDoorbell_of_idle f vector hup, execMailboxDoorbell_of_working f vector hup⟩
  case mctp => exact fun s m => execMctpMessage_of_accepted
  case datagram => exact fun s d => execMgmtDatagram_of_accepted
  case kept => exact fun s addr port tag => rfl
  case arp => exact fun s arp hready haddr => execMgmtArpIcmp_of_own arp hready haddr
  case eid => exact fun s binding eid sc => rfl

end Sys2Proof.Machine

/-! # Proofs: loads, reports, SPDM and the OC's activation -/

namespace Sys2Proof.Machine

/-! ## The load window (R395) -/

/-- Bytes that do not end a load are stored and hashed. -/
theorem loadBytes_of_more {s : State} {p : Nat} {l : Load} {data : List Byte} (hmore : l.next + data.length < l.length) :
    loadBytes s p l data = modPart (forTenant s p l.tenant fun t =>
        farRequest t p (l.target + l.next) 0 data.length none (.write p (l.target + l.next) 0 .load data false)) p fun q =>
      { q with load := some { l with next := l.next + data.length, hashed := l.hashed ++ data } } := by
  have htake : data.take (l.length - l.next) = data := List.take_of_length_le (by omega)
  simp only [loadBytes, htake]
  exact if_pos hmore

/-- A write that the window takes, at the load's next offset or at another. -/
theorem execLoadWrite_of_load {s : State} {p : Nat} {l : Load} {data : List Byte} (hload : (partOf s p).load = some l)
    (hup : s.boot.pcieUp = true) (hsome : data ≠ []) (hmax : data.length ≤ 512) (hwords : data.length % 4 = 0) (offset : Nat) :
    execLoadWrite p offset data s =
      if offset ≠ l.next % 2 ^ 24 then .next (odOr (endLoad s p) (Ad.partMeasReason p) 1)
      else if farWaits s p (l.target + l.next) data.length then .next s
      else .next (loadBytes s p l data) := by
  simp only [execLoadWrite, hload]
  exact if_neg (by simp [hup, hsome, hwords]; omega)

theorem execLoadWrite_of_next {s : State} {p : Nat} {l : Load} {data : List Byte} (hload : (partOf s p).load = some l)
    (hup : s.boot.pcieUp = true) (hsome : data ≠ []) (hmax : data.length ≤ 512) (hwords : data.length % 4 = 0)
    (hmore : l.next + data.length < l.length) (hclear : farWaits s p (l.target + l.next) data.length = false) :
    execLoadWrite p (l.next % 2 ^ 24) data s = .next (modPart (forTenant s p l.tenant fun t =>
        farRequest t p (l.target + l.next) 0 data.length none (.write p (l.target + l.next) 0 .load data false)) p fun q =>
      { q with load := some { l with next := l.next + data.length, hashed := l.hashed ++ data } }) := by
  rw [execLoadWrite_of_load hload hup hsome hmax hwords, if_neg (not_not_intro rfl), hclear, if_neg Bool.false_ne_true,
    loadBytes_of_more hmore]

theorem execLoadWrite_of_other {s : State} {p : Nat} {l : Load} {data : List Byte} (hload : (partOf s p).load = some l)
    (hup : s.boot.pcieUp = true) (hsome : data ≠ []) (hmax : data.length ≤ 512) (hwords : data.length % 4 = 0) {offset : Nat}
    (hother : offset ≠ l.next % 2 ^ 24) :
    execLoadWrite p offset data s = .next (odOr (endLoad s p) (Ad.partMeasReason p) 1) := by
  rw [execLoadWrite_of_load hload hup hsome hmax hwords, if_pos hother]

/-! ## Reports (R398) -/

theorem execAttestReportSigned_of_due {s : State} {cls : Cls} {p : Option Nat} {n : List Byte} (hup : s.boot.scUp = true)
    (hnonce : classGet (measOf s p).nonces cls = some n) (hdue : classGet (measOf s p).reports cls = none) :
    execAttestReportSigned cls p s = .next
      (answerWaiting (modMeas s p fun x => { x with reports := classSet x.reports cls (signedReport s p n) }) cls p) := by
  simp only [execAttestReportSigned, hnonce, hdue, hup, if_true]

/-! ## SPDM (R399) -/

theorem spdmReply_of_answers {s : State} (h : scAnswers s = true) (code : Nat) (body : List Byte) :
    spdmReply s code body = emit s (.spdm code body) :=
  if_pos h

/-- The SC answers as well with a free value drawn. -/
theorem scAnswers_fresh (s : State) (n : Nat) : scAnswers { s with fresh := n } = scAnswers s := rfl

/-- A slice of the chain of slot 0. -/
theorem execGetCertificate_of_offered {s : State} (h : scAnswers s = true) {offset : Nat} (len : Nat)
    (hoff : offset < (spdmChain s).length) :
    let chain := spdmChain s
    let n := min len (chain.length - offset)
    execGetCertificate 0 offset len s = .next (emit s (.spdm 0x02
      (leBytes 2 0 ++ leBytes 2 n ++ leBytes 2 (chain.length - offset - n) ++ slice chain offset n))) :=
  (if_pos ⟨rfl, hoff⟩).trans (congrArg _ (spdmReply_of_answers h _ _))

/-- No other slot has one. -/
theorem execGetCertificate_of_other {s : State} (h : scAnswers s = true) {slot : Nat} (offset len : Nat) (hslot : slot ≠ 0) :
    execGetCertificate slot offset len s = .next (emit s (.spdm 0x7F [0x07, 0x82])) :=
  (if_neg fun hoffered => hslot hoffered.1).trans (congrArg _ (spdmReply_of_answers h _ _))

/-- Measurements asked for, signed or not. -/
theorem execGetMeasurements_of_asked {s : State} (h : scAnswers s = true) {index : Nat} {xs : List Nat}
    (hasked : spdmAsked s index = some xs) (signIt : Bool) :
    let b := spdmBody s index xs (Config.freeValue s.fresh)
    execGetMeasurements index signIt s = .next (emit { s with fresh := s.fresh + 1 }
      (.spdm 0x60 (if signIt then b ++ padTo 96 (Config.ecdsa (akKey s) b) else b))) := by
  simp only [execGetMeasurements, hasked]
  exact congrArg _ (spdmReply_of_answers ((scAnswers_fresh s _).trans h) _ _)

theorem execSpdmUnsupported_of_other {s : State} (h : scAnswers s = true) {code : Nat}
    (hcode : code ∉ [0x81, 0x82, 0x84, 0xE0, 0xE1, 0xE3]) :
    execSpdmUnsupported code s = .next (emit s (.spdm 0x7F [0x07, BitVec.ofNat 8 code])) :=
  (if_neg fun hmem => hcode (List.contains_iff_mem.mp hmem)).trans (congrArg _ (spdmReply_of_answers h _ _))

/-! ## The OC on a new image (R400, R458) -/

/-- At the idle point an activation is taken up: where the other slot is good the OC restarts on it. -/
theorem execOcActivation_of_idle {s : State} (hpending : s.boot.ocPending = true) (hready : s.server.ready = true)
    (hidle : idlePoint s = true) :
    ∃ t, execOcActivation s = .next t ∧ t.boot.ocPending = false ∧ (slotGood s true (!s.nv.oc.active) = true →
      t.nv.oc.active = !s.nv.oc.active ∧ t.server.ready = false ∧ t.boot.ocRestart = true) := by
  have htaken : ¬(!(s.boot.ocPending && s.server.ready && idlePoint s)) = true := by simp [hpending, hready, hidle]
  by_cases hgood : slotGood s true (!s.nv.oc.active) = true
  · refine ⟨_, (if_neg htaken).trans (if_neg ?_), rfl, fun _ => ⟨rfl, rfl, rfl⟩⟩
    rw [hgood]
    exact Bool.false_ne_true
  · refine ⟨_, (if_neg htaken).trans (if_pos ?_), rfl, fun h => absurd h hgood⟩
    rw [Bool.eq_false_iff.mpr hgood]
    rfl

/-- An OC that does not come up goes back to the slot before, and the new one is marked. -/
theorem execOcRestartTimeout_of_restart {s : State} (hrestart : s.boot.ocRestart = true) :
    execOcRestartTimeout s = .next (setSlots s true { s.nv.oc.spoil s.nv.oc.active with active := !s.nv.oc.active }) := by
  rw [execOcRestartTimeout, hrestart]
  rfl

theorem FwSlots.spoil_invalid (x : FwSlots) :
    (if x.active then (x.spoil x.active).invalidB else (x.spoil x.active).invalidA) = true := by
  cases h : x.active <;> simp [FwSlots.spoil, FwSlots.put]

/-- Settles O57: the key store's rows, and a lemma for each command that has a choice. -/
theorem security : Obligations.Security := by
  unfold Obligations.Security
  refine ⟨fun s => rfl, fun s hdue => if_pos hdue, ?load, ?report, ?spdm, ?activation, ?restart⟩
  case load =>
    intro s p l data hload hup hsome hmax hwords a
    exact ⟨execLoadWrite_of_next hload hup hsome hmax hwords, fun offset => execLoadWrite_of_other hload hup hsome hmax hwords⟩
  case report => exact fun s cls p n => execAttestReportSigned_of_due
  case spdm =>
    intro s h gives chain v drawn
    have hreply : ∀ code body, (.next (spdmReply s code body) : Res) = .next (emit s (.spdm code body)) :=
      fun code body => congrArg _ (spdmReply_of_answers h code body)
    have hdrawn : ∀ code body, (.next (spdmReply drawn code body) : Res) = .next (emit drawn (.spdm code body)) :=
      fun code body => congrArg _ (spdmReply_of_answers ((scAnswers_fresh s _).trans h) code body)
    exact ⟨hreply _ _, hdrawn _ _, hreply _ _, hreply _ _, fun offset len => execGetCertificate_of_offered h len,
      fun slot offset len => execGetCertificate_of_other h offset len,
      fun index xs hasked => ⟨execGetMeasurements_of_asked h hasked false, execGetMeasurements_of_asked h hasked true⟩,
      fun code => execSpdmUnsupported_of_other h⟩
  case activation => exact fun s => execOcActivation_of_idle
  case restart => exact fun s hrestart => ⟨_, execOcRestartTimeout_of_restart hrestart, rfl, s.nv.oc.spoil_invalid⟩

end Sys2Proof.Machine

/-! # Proofs: recovery actions and the Almanac's commits -/

namespace Sys2Proof.Machine

/-! ## The running action (R438) -/

/-- The running action is to be carried out as one of its kind. -/
theorem toPerform_of_running {s : State} {a : Action} (hrun : s.recovery.running = some a) (htodo : a.performed = false) {kind : Nat}
    (hkind : a.kind = kind) : toPerform s kind = some a := by
  simp [toPerform, hrun, htodo, hkind]

section
variable {s : State} {a : Action} (hrun : s.recovery.running = some a) (htodo : a.performed = false)
include hrun htodo

theorem execContainment_of_running {p : Nat} (hkind : a.kind = 1) (hpart : p ∈ a.parts) (hreset : resettable s p = true) :
    execContainment p s = .next (donePerforming (notify (stopPart s p 1 (containCode s a) a.wher))) := by
  simp only [execContainment, toPerform_of_running hrun htodo hkind, List.contains_iff_mem.mpr hpart, hreset, Bool.not_true,
    Bool.false_eq_true, if_false, if_true]

/-- A reset that no error started notifies nobody. -/
theorem execPartitionReset_of_running {p : Nat} (hkind : a.kind = 2) (hpart : p ∈ a.parts) (hreset : resettable s p = true)
    (hcode : a.code = 0) :
    execPartitionReset p s = .next (donePerforming (resetPart s p (containCode s a) a.wher)) := by
  simp only [execPartitionReset, toPerform_of_running hrun htodo hkind, List.contains_iff_mem.mpr hpart, hreset, hcode,
    Bool.not_true, Bool.false_eq_true, if_false, if_true]

theorem execSpareSwap_of_running {die cell : Nat} (hkind : a.kind = 3) (hcell : cell < 80) (htarget : a.target = 80 * die + cell) :
    execSpareSwap die cell s = .next (modRunning (swapIn s (80 * die + cell)) fun x =>
      { x with performed := true, swap := if x.swap = some (80 * die + cell) then none else x.swap }) :=
  if_pos ⟨hcell, by simp [swapDue, hrun, htodo, hkind, htarget]⟩

/-- A group of no partition is retired, its record written when the action was raised. -/
theorem execGroupRetire_of_running (hkind : a.kind = 4) (hcode : a.code ≠ Code.groupRetired.value)
    (howner : groupOwner s a.target = none) :
    execGroupRetire a.target s = .next (donePerforming (notify (groupOut (failRequests s a.target none) a.target))) := by
  simp only [execGroupRetire, toPerform_of_running hrun htodo hkind, hcode, howner, ne_eq, not_true_eq_false, if_false]

theorem execEngineReset_of_running {coll : Bool} {e : Nat} (hkind : a.kind = 5) (htarget : a.target = engineNo coll e) :
    execEngineReset coll e s = .next (donePerforming (if coll then resetColl s e else resetMedia s e)) := by
  simp only [execEngineReset, performEngine, toPerform_of_running hrun htodo hkind, htarget, Option.any_some, decide_true, if_true]

theorem execDieReset_of_running (hkind : a.kind = 6) (hparts : a.parts = []) :
    execDieReset a.target s = .next (donePerforming (resetDie s a.target)) := by
  simp [execDieReset, performDie, toPerform_of_running hrun htodo hkind, hparts]

theorem execModuleReset_of_running (boot : BootIn) (fatal : Nat) (hkind : a.kind = 7) (hrails : s.boot.railsUp = true)
    (hheld : heldReset s = false) : execModuleReset boot fatal s = .next (performReset s a boot) := by
  simp only [execModuleReset, toPerform_of_running hrun htodo hkind, Option.isSome_some, if_true, hrails, hheld, Bool.not_false,
    and_self]

end

/-- An action whose steps are carried out completes. -/
theorem execRecoveryDone_of_performed {s : State} {a : Action} (hrun : s.recovery.running = some a) (hdone : a.performed = true)
    (hswap : a.swap = none) (hkind : a.kind ≠ 7) : execRecoveryDone s = .next (finishAction s a) := by
  simp only [execRecoveryDone, hrun]
  exact if_pos (by simp [hdone, hswap, hkind])

/-! ## The Almanac (R448, R451) -/

/-- A record put into the ring leaves the staged records. -/
theorem commitRec_stage (s : State) (r : AlmRec) : (commitRec s r).nv.alm.stage = s.nv.alm.stage := by
  unfold commitRec
  dsimp only
  split
  · rfl
  · split <;> rfl

/-- It starts no erase. -/
theorem commitRec_erasing (s : State) (r : AlmRec) : (commitRec s r).nv.alm.erasing = s.nv.alm.erasing := by
  unfold commitRec
  dsimp only
  split
  · rfl
  · split <;> rfl

theorem commitDrops_stage (s : State) : (commitDrops s).nv.alm.stage = s.nv.alm.stage := by
  unfold commitDrops
  dsimp only
  split
  · rfl
  · exact commitRec_stage _ _

/-- The oldest staged record is the one committed. -/
theorem commitStaged_one_stage {s : State} {r : AlmRec} {rest : List AlmRec} (hstage : s.nv.alm.stage = rest ++ [r]) :
    (commitStaged 1 s).nv.alm.stage = rest := by
  have hlast : s.nv.alm.stage.getLast? = some r := by rw [hstage, List.getLast?_concat]
  simp only [commitStaged, hlast, commitRec_stage]
  exact (congrArg List.dropLast ((commitDrops_stage s).trans hstage)).trans List.dropLast_concat

theorem endErase_erasing (s : State) : (endErase s).nv.alm.erasing = false := by
  unfold endErase
  dsimp only
  split
  · exact commitRec_erasing _ _
  · rfl

theorem execAlmanacCommit_of_open {s : State} (n : Nat) (herase : s.nv.alm.erasing = false) (hstop : s.nv.alm.stopped = false) :
    execAlmanacCommit n s = .next (commitStaged n s) :=
  if_neg (by simp [herase, hstop])

/-- Settles O58: each action's step by the running action that is of its kind; the commits by what a record put into the ring
leaves. -/
theorem recovery : Obligations.Recovery := by
  unfold Obligations.Recovery
  refine ⟨?actions, ?done, ?timeout, ?commit, ?erase, ?oldest⟩
  case actions =>
    intro s a hrun htodo
    exact ⟨fun p => execContainment_of_running hrun htodo, fun p => execPartitionReset_of_running hrun htodo,
      fun die cell => execSpareSwap_of_running hrun htodo, execGroupRetire_of_running hrun htodo,
      fun e hkind => ⟨execEngineReset_of_running hrun htodo hkind, execEngineReset_of_running hrun htodo hkind⟩,
      execDieReset_of_running hrun htodo, fun boot fatal => execModuleReset_of_running hrun htodo boot fatal⟩
  case done => exact fun s a => execRecoveryDone_of_performed
  case timeout => exact fun s a hrun => if_pos (by rw [hrun]; rfl)
  case commit => exact fun s n => execAlmanacCommit_of_open n
  case erase => exact fun s herase => ⟨_, if_pos herase, endErase_erasing s⟩
  case oldest =>
    exact fun s r rest hstage herase hstop => ⟨_, execAlmanacCommit_of_open 1 herase hstop, commitStaged_one_stage hstage⟩

end Sys2Proof.Machine

/-! # Proofs: power-up, resets, boot steps, training and margining -/

namespace Sys2Proof.Machine

/-! ## Power (R453, R457) -/

/-- Power-up starts where nothing holds it off. -/
theorem arm_of_clear {s : State} (hmod : s.boot.modEn = true) (hin : s.boot.inputOk = true) (hlow : s.boot.lowNeeded = false)
    (htrip : s.boot.tripLatched = false) (hrails : s.boot.railsUp = false) :
    arm s = modBoot { s with od := s.nv.store } fun x => { x with armed := true, stopped := false, resetCause := 0 } := by
  simp only [arm, hmod, hin, hlow, htrip, hrails, Bool.not_false, Bool.and_self, if_true]

/-- MOD_EN rises after a second or more: no failure or trip of before holds power-up off. -/
theorem execModEnRise_of_long {s : State} {lowMs : Nat} (hmod : s.boot.modEn = false) (hlong : 1000 ≤ lowMs)
    (hin : s.boot.inputOk = true) (hrails : s.boot.railsUp = false) :
    ∃ t, execModEnRise lowMs s = .next t ∧ t.boot.armed = true ∧ t.boot.modEn = true ∧ t.boot.tripLatched = false := by
  have hshort : decide (lowMs < 1000) = false := decide_eq_false (Nat.not_lt.mpr hlong)
  refine ⟨_, if_neg (Bool.eq_false_iff.mp hmod), ?_⟩
  rw [arm_of_clear]
  case hmod => rfl
  case hin => exact hin
  case hrails => exact hrails
  case hlow => simp [modBoot, hshort]
  case htrip => simp [modBoot, hshort]
  exact ⟨rfl, rfl, by simp [modBoot, hshort]⟩

/-- The rails are good: the hold-up bank decides between step 2 and RAIL. -/
theorem execRailsGood_of_armed {s : State} (straps uf : Nat) (boot : BootIn) (harmed : s.boot.armed = true)
    (href : refOn s .ref25 = true) (hrails : s.boot.railsUp = false) :
    execRailsGood straps uf boot s = if uf < 960 then .next (failRails s 1) else .next (railsUp s straps uf boot) :=
  if_neg (by simp [harmed, href, hrails])

/-! ## Resets (R455, R456) -/

section
variable {s : State} (hrails : s.boot.railsUp = true) (htrip : s.boot.tripLatched = false) (hheld : heldReset s = false)
include hrails htrip hheld

theorem execModResetAssert_of_running :
    execModResetAssert s = .next (hostReset (modBoot s fun b => { b with modResetN := false })) :=
  if_pos (by simp [hrails, htrip, hheld])

/-- PERST_MODE says how far a PERST# of a module that runs reaches. -/
theorem execPerstAssert_of_running (hperst : s.boot.perstN = true) :
    execPerstAssert s =
      if bit s.boot.straps 1 then .next (hostReset (modBoot s fun b => { b with perstN := false }))
      else .next (resetPcie (modBoot s fun b => { b with perstN := false })) :=
  if_neg (by simp [hperst, hrails, htrip, hheld])

end

/-- With PERST_MODE high the end of PERST# is the end of a module reset. -/
theorem execPerstRelease_of_held {s : State} (straps : Nat) (boot : BootIn) (hperst : s.boot.perstN = false)
    (hreset : s.boot.modResetN = true) (hmode : bit s.boot.straps 1 = true) :
    execPerstRelease straps boot s = .next (endReset (modBoot s fun b => { b with perstN := true }) straps boot) :=
  if_pos (by simp [heldReset, modBoot, hperst, hreset, hmode])

/-! ## Slots and time-outs (R457, R458) -/

theorem chooseSlot_of_good {s : State} {oc : Bool} (hgood : slotGood s oc (fwSlots s oc).active = true) :
    chooseSlot s oc = (s, true) :=
  if_pos hgood

/-- A slot passed over leaves its image on the other. -/
theorem fwSlots_passOver_active (s : State) (oc : Bool) : (fwSlots (passOver s oc) oc).active = !(fwSlots s oc).active := by
  cases oc <;> rfl

/-- The SC's slot that has not run is passed over for the other, which is good. -/
theorem execSlotStartTimeout_of_sc {s : State} (hboot : booting s = true) (hstage : odGet s Ad.bootStage ≠ 3)
    (hgood : slotGood s false s.nv.sc.active = true) (hother : slotGood (passOver s false) false (!s.nv.sc.active) = true) :
    execSlotStartTimeout false s = .next (passOver s false) := by
  have hchoice : chooseSlot s false = (s, true) := chooseSlot_of_good hgood
  have hother' : slotGood (passOver s false) false (fwSlots (passOver s false) false).active = true := by
    rw [fwSlots_passOver_active]
    exact hother
  simp only [execSlotStartTimeout, hboot, hstage, hchoice, hother', Bool.not_true, Bool.false_eq_true, and_false, or_self, if_false,
    if_true]

theorem execBootStepTimeout_of_oc {s : State} (hboot : booting s = true) : execBootStepTimeout 5 s = .next (stopBoot s 5) := by
  simp [execBootStepTimeout, hboot]

theorem execBootStepTimeout_of_sc {s : State} (hboot : booting s = true) (hstage : odGet s Ad.bootStage ≠ 3) :
    execBootStepTimeout 4 s = .next (modBoot (stopBoot s 4) fun b => { b with scUp := false }) := by
  simp [execBootStepTimeout, hboot, hstage]

theorem execBootStepTimeout_of_rails {s : State} (harmed : s.boot.armed = true) (hrails : s.boot.railsUp = false) :
    execBootStepTimeout 1 s = .next (failRails s 1) :=
  if_pos (.inl ⟨rfl, by simp [harmed, hrails]⟩)

theorem execBootStepTimeout_of_reference {s : State} (harmed : s.boot.armed = true) (hrails : s.boot.railsUp = false)
    (href : refOn s .ref25 = false) : execBootStepTimeout 2 s = .next (failRails s 2) :=
  if_pos (.inr ⟨rfl, by simp [harmed, hrails, href]⟩)

/-- The OC is ready at power-up, on the image that is active. -/
theorem execOcReady_of_booting {s : State} {level : Nat} (hboot : booting s = true)
    (hgood : slotGood { s with nv := { s.nv with level := level } } true s.nv.oc.active = true) :
    execOcReady level s = .next (ocUp { s with nv := { s.nv with level := level } }) := by
  have hrestart : s.boot.ocRestart = false := by
    simp only [booting, Bool.and_eq_true, Bool.not_eq_true'] at hboot
    exact hboot.2
  have hchoice : chooseSlot { s with nv := { s.nv with level := level } } true = ({ s with nv := { s.nv with level := level } }, true) :=
    chooseSlot_of_good hgood
  simp only [execOcReady, hrestart, hboot, hchoice, Bool.false_eq_true, if_false, if_true]

/-- And after a restart on another image. -/
theorem execOcReady_of_restart {s : State} (level : Nat) (hrestart : s.boot.ocRestart = true) :
    ∃ t, execOcReady level s = .next t ∧ t.server.ready = true ∧ t.boot.ocRestart = false ∧ t.nv.level = level :=
  ⟨_, if_pos hrestart, rfl, rfl, rfl⟩

/-! ## Training and margining (R460, R464 to R467) -/

/-- A round's four groups trained, the next round starts, or training is over. -/
theorem execTrainingRoundDone_of_training {s : State} (failed : List (Nat × Nat)) (absent : List Nat) (trainMs nowMs : Nat)
    (htraining : s.boot.training = true) :
    let k := s.boot.round
    let s1 := [k, 4 + k, 8 + k, 12 + k].foldl (fun t g => endTraining t failed absent trainMs g) s
    (k < 3 → execTrainingRoundDone failed absent trainMs nowMs s = .next (modBoot s1 fun b => { b with round := k + 1 })) ∧
      (3 ≤ k → bit s.boot.straps 2 = false → atReset s Ad.bootMarginAtStart ≠ 1 →
        execTrainingRoundDone failed absent trainMs nowMs s =
          .next (becomeReady (modBoot s1 fun b => { b with training := false, round := 0 }) nowMs)) := by
  have htaken : ¬(!s.boot.training) = true := by simp [htraining]
  refine ⟨fun hk => (if_neg htaken).trans (if_pos hk), fun hk hstrap hset => (if_neg htaken).trans ((if_neg ?_).trans (if_neg ?_))⟩
  · exact Nat.not_lt.mpr hk
  · simp [hstrap, hset]

/-- Step 5 ends with no group that fails. -/
theorem execMarginDone_of_start {s : State} {result : List Byte} (nowMs : Nat) (hstart : s.boot.startMargin = true)
    (hgood : ∀ g, g < 16 → groupFails result g = false) :
    execMarginDone result nowMs s =
      .next (becomeReady (modBoot (setDom s Ad.marginStartResult result) fun b => { b with startMargin := false }) nowMs) := by
  have hnone : ((List.range 16).filter fun g => decide (odGet s (Ad.memGroupState g) = 0) && groupFails result g) = [] := by
    rw [List.filter_eq_nil_iff]
    intro g hg
    rw [hgood g (List.mem_range.mp hg), Bool.and_false]
    exact Bool.false_ne_true
  simp only [execMarginDone, hstart, hnone, if_true, List.foldl_nil]

/-- A measurement asked for ends. -/
theorem execMarginDone_of_request {s : State} {v : Nat} (result : List Byte) (nowMs : Nat) (hstart : s.boot.startMargin = false)
    (hmargin : s.boot.margin = some v) (htarget : bits v 63 56 ≠ 2) :
    execMarginDone result nowMs s =
      .next (modBoot (setDom (odSet s Ad.marginState 2) Ad.marginResult result) fun b => { b with margin := none }) := by
  simp only [execMarginDone, hstart, hmargin, htarget, Bool.false_eq_true, if_false]

/-- Settles O59: a lemma for each command where what it does depends on how the part stands. -/
theorem bringUp : Obligations.BringUp := by
  unfold Obligations.BringUp
  refine ⟨?modEnRise, ?modEnFall, ?inputOut, ?inputIn, ?rails, ?assert, ?release, ?boot, ?step1, ?restart, ?training, ?margin⟩
  case modEnRise => exact fun s lowMs => execModEnRise_of_long
  case modEnFall => exact fun s hmod => if_pos hmod
  case inputOut => exact fun s hin => if_pos hin
  case inputIn => exact fun s removed hin => if_neg (Bool.eq_false_iff.mp hin)
  case rails =>
    intro s straps uf boot harmed href hrails
    have hexec := execRailsGood_of_armed straps uf boot harmed href hrails
    exact ⟨fun hgood => hexec.trans (if_neg (Nat.not_lt.mpr hgood)), fun hweak => hexec.trans (if_pos hweak)⟩
  case assert =>
    intro s hrails htrip hheld
    have hperst := execPerstAssert_of_running hrails htrip hheld
    exact ⟨execModResetAssert_of_running hrails htrip hheld, fun hn hmode => (hperst hn).trans (if_pos hmode),
      fun hn hmode => (hperst hn).trans (if_neg (Bool.eq_false_iff.mp hmode))⟩
  case release =>
    exact fun s straps boot => ⟨fun hreset => if_neg (Bool.eq_false_iff.mp hreset), execPerstRelease_of_held straps boot⟩
  case boot =>
    exact fun s hboot => ⟨execSlotStartTimeout_of_sc hboot, execBootStepTimeout_of_oc hboot, execBootStepTimeout_of_sc hboot,
      fun level => execOcReady_of_booting hboot⟩
  case step1 =>
    exact fun s harmed hrails =>
      ⟨execBootStepTimeout_of_rails harmed hrails, execBootStepTimeout_of_reference harmed hrails⟩
  case restart => exact fun s level => execOcReady_of_restart level
  case training => exact fun s failed absent trainMs nowMs => execTrainingRoundDone_of_training failed absent trainMs nowMs
  case margin =>
    exact fun s result nowMs => ⟨execMarginDone_of_start nowMs, fun v => execMarginDone_of_request result nowMs⟩

end Sys2Proof.Machine

/-! # Proofs: links, retrains, pins, throttling and the references -/

namespace Sys2Proof.Machine

/-! ## Links (R462, R463) -/

theorem execEthLinkUp_of_training {s : State} {port : Nat} (hstate : odGet s (Ad.netPortState port) = 1)
    (href : refOn s (netRef (port / 16)) = true) (hcut : blockCut s (22 + port / 16) = false) :
    execEthLinkUp port s = .next (odSet s (Ad.netPortState port) 2) :=
  if_pos ⟨hstate, href, by simp [hcut]⟩

/-- Entries written in turn leave an entry that is none of them. -/
theorem odGet_foldl_odSet_ne {a : Nat} (addr : Nat → Nat) (v : Nat) (is : List Nat) (hne : ∀ i, a ≠ addr i) (s : State) :
    odGet (is.foldl (fun t i => odSet t (addr i) v) s) a = odGet s a := by
  induction is generalizing s with
  | nil => rfl
  | cons i is ih => rw [List.foldl_cons, ih, odGet_odSet_ne _ _ (hne i)]

/-- A port that goes down reads DOWN. -/
theorem odGet_linkDown_self {s : State} {port : Nat} (hport : port < 32) (hstate : odGet s (Ad.netPortState port) ≠ 3) :
    odGet (linkDown s port) (Ad.netPortState port) = 0 := by
  rw [linkDown, if_neg hstate]
  refine (odGet_foldl_odSet_ne _ 0 _ (fun i => ?_) _).trans (odGet_odSet_self _ _ _)
  simp only [Ad.netPortState, Ad.ethLaneEye]
  omega

theorem execPortRestart_of_down {s : State} {port i : Nat} (hrun : portsRun s = true) (hi : i < 4)
    (hdown : odGet s (Ad.netPortState (4 * port + i)) = 0) (href : refOn s (netRef (port / 4)) = true)
    (hcut : blockCut s (22 + port / 4) = false) :
    execPortRestart port s = .next (restartPort (odInc s (Ad.netPortRestarts port)) port) :=
  if_pos ⟨hrun, List.any_eq_true.mpr ⟨i, List.mem_range.mpr hi, decide_eq_true hdown⟩, href, by simp [hcut]⟩

theorem execPcieLinkUp_of_released {s : State} (width rate : Nat) (flit : Bool) (hrails : s.boot.railsUp = true)
    (htrip : s.boot.tripLatched = false) (hheld : heldReset s = false) (hperst : s.boot.perstN = true)
    (href : refOn s .ref100 = true) (hdown : s.boot.pcieUp = false) :
    execPcieLinkUp width rate flit s =
      .next (modBoot (odSet s Ad.pcieLinkStatus (1 + (if flit then 2 else 0) + width % 16 * 16 + rate % 16 * 256)) fun b =>
        { b with pcieUp := true }) :=
  if_pos (by simp [hrails, htrip, hheld, hperst, href, hdown])

section
variable {s : State} (hup : s.boot.pcieUp = true)
include hup

theorem execPcieLinkDown_of_up : execPcieLinkDown s =
    .next (modBoot (odInc (odSet s Ad.pcieLinkStatus 0) Ad.pcieLinkRetrains) fun b => { b with pcieUp := false }) :=
  congrArg _ (if_pos hup)

theorem execConfigurationRequest_of_write {req : ConfigReq} {v : Nat} (hwrite : req.write = some v) :
    execConfigurationRequest req s = .next (emit s (.configReply req.register v)) := by
  simp only [execConfigurationRequest, hup, hwrite, Bool.not_true, Bool.false_eq_true, if_false]

theorem execConfigurationRequest_of_read {req : ConfigReq} (hread : req.write = none) :
    execConfigurationRequest req s =
      .next (emit { s with fresh := s.fresh + 1 } (.configReply req.register (Config.freeValue s.fresh))) := by
  simp only [execConfigurationRequest, hup, hread, Bool.not_true, Bool.false_eq_true, if_false]
  rfl

end

/-! ## Retrains (R461) -/

/-- A group ONLINE retrains when one is due. -/
theorem retrainIf_of_due {s : State} {g : Nat} {due : Bool} (hdue : due = true) (honline : odGet s (Ad.memGroupState g) = 0)
    (hrails : s.boot.railsUp = true) (hstage : 4 ≤ odGet s Ad.bootStage) : retrainIf s g due = startRetrain s g :=
  if_pos ⟨hdue, honline, hrails, hstage⟩

section
variable {s : State} {g : Nat} (hretrain : (grpOf s g).retraining = true)
include hretrain

theorem execRetrainDone_of_ok : execRetrainDone g true s =
    .next (odSet (modGrp s g fun x => { x with retraining := false, firstRetrain := true }) (Ad.memGroupState g) 0) := by
  simp only [execRetrainDone, hretrain, Bool.not_true, Bool.false_eq_true, if_false, if_true, Bool.or_true]

theorem execRetrainDone_of_fail : execRetrainDone g false s =
    .next (retireErr (modGrp s g fun x => { x with retraining := false }) g Code.groupRetired.value 0 noLink) := by
  simp only [execRetrainDone, hretrain, Bool.not_true, Bool.false_eq_true, if_false, Bool.or_false]

end

/-! ## Pins (R471) -/

theorem execPinSwitchComplete_of_last {s : State} {pin fn : Nat} (hnext : (pinOf s pin).next = some fn)
    (hheld : (pinOf s pin).held = none) : execPinSwitchComplete pin s = .next (modPin s pin fun _ => { fn := fn }) := by
  simp only [execPinSwitchComplete, hnext, hheld]

theorem execPinSwitchComplete_of_held {s : State} {pin fn h : Nat} (hnext : (pinOf s pin).next = some fn)
    (hheld : (pinOf s pin).held = some h) :
    execPinSwitchComplete pin s = .next (switchPin (modPin s pin fun _ => { fn := fn }) pin h) := by
  simp only [execPinSwitchComplete, hnext, hheld]

/-! ## Power and temperature (R403, R478, R483) -/

/-- The millisecond's readings leave the cap. -/
theorem odGet_countMs_modPowerCapW (s : State) (watts mv ma : Nat) :
    odGet (countMs s watts mv ma) Ad.modPowerCapW = odGet s Ad.modPowerCapW := by
  have hodGet : odGet (countMs s watts mv ma) Ad.modPowerCapW = odGet (odSet (odSet (odSet s Ad.modInputPowerW (watts % 65536))
    Ad.modInputMv (mv % 2 ^ 32)) Ad.modInputMa (ma % 2 ^ 32)) Ad.modPowerCapW := rfl
  rw [hodGet, odGet_odSet_ne _ _ (by decide), odGet_odSet_ne _ _ (by decide), odGet_odSet_ne _ _ (by decide)]

/-- A millisecond that is not a quiet one: CCLK goes down where its power is above the cap. -/
theorem execPowerAverageTick_of_loud {s : State} {watts : Nat} (mv ma : Nat) (hrails : s.boot.railsUp = true)
    (hloud : 95 * odGet (countMs s watts mv ma) Ad.modPowerCapW ≤ 100 * watts) :
    let s2 := modBoot (countMs s watts mv ma) fun b => { b with stepped := false, quietMs := 0 }
    execPowerAverageTick watts mv ma s =
      if odGet (countMs s watts mv ma) Ad.modPowerCapW < watts ∧ s.boot.stepped = false then .next (throttleDown s2) else .next s2 := by
  have hquiet : ¬100 * watts < 95 * odGet s Ad.modPowerCapW := by
    rw [odGet_countMs_modPowerCapW] at hloud
    exact Nat.not_lt.mpr hloud
  simp [execPowerAverageTick, hrails, hquiet, odGet_countMs_modPowerCapW]

theorem execDieTempSample_of_unstepped {s : State} (temps : List Int) (plate : Int) (hrails : s.boot.railsUp = true)
    (hstepped : s.boot.stepped = false) :
    let code := fun (t : Int) => (BitVec.ofInt 32 t).toNat
    let s1 := (List.range 40).foldl (fun t k => odSet t (Ad.dieTemp k) (code (temps.getD k 0))) (odSet s Ad.coldPlateTemp (code plate))
    execDieTempSample temps plate s =
      .next (if anyAbove s1 95 then modBoot (throttleDown s1) fun b => { b with stepped := true } else s1) := by
  simp only [execDieTempSample, hrails, hstepped, Bool.not_true, Bool.not_false, Bool.false_eq_true, and_true, if_false]
  split <;> rfl

/-- A trip after step 4 removes the rails and leaves its record. -/
theorem execThermalTrip_of_late {s : State} (htrip : s.boot.tripLatched = false) (hrails : s.boot.railsUp = true)
    (hlate : 4 < odGet s Ad.bootStage) (hrecovery : odGet s Ad.bootStage ≠ 8) :
    execThermalTrip s = .next (recordOnly (shedRails s) .powerLoss 0 none 0x1900 1) := by
  have hearly : (decide (odGet s Ad.bootStage ≤ 4) || decide (odGet s Ad.bootStage = 8)) = false := by
    simp [hrecovery, hlate]
  simp only [execThermalTrip, htrip, hrails, hearly, Bool.true_or, Bool.not_true, Bool.or_self, Bool.false_eq_true, if_false,
    if_true]

/-- Settles O60: a lemma for each command of links, retrains, pins and power that has a choice. -/
theorem linksAndPower : Obligations.LinksAndPower := by
  unfold Obligations.LinksAndPower
  refine ⟨?linkUp, ?linkDown, ?restart, ?pcieUp, ?pcie, ?retrain, ?retrainDone, ?eye, ?pins, ?tick, ?temp, ?limit, ?trip, ?refs⟩
  case linkUp => exact fun s port => execEthLinkUp_of_training
  case linkDown => exact fun s port hport hstate => ⟨_, rfl, odGet_linkDown_self hport hstate⟩
  case restart => exact fun s port i => execPortRestart_of_down
  case pcieUp => exact fun s width rate flit => execPcieLinkUp_of_released width rate flit
  case pcie =>
    exact fun s hup => ⟨execPcieLinkDown_of_up hup, fun req v => execConfigurationRequest_of_write hup,
      fun req => execConfigurationRequest_of_read hup, fun lane dir steps errors hsteps => if_pos ⟨hup, hsteps⟩⟩
  case retrain =>
    exact fun s g honline hrails hstage =>
      ⟨fun hfirst => congrArg _ (retrainIf_of_due (by rw [hfirst]; rfl) honline hrails hstage),
        congrArg _ (retrainIf_of_due rfl honline hrails hstage)⟩
  case retrainDone => exact fun s g hretrain => ⟨execRetrainDone_of_ok hretrain, execRetrainDone_of_fail hretrain⟩
  case eye => exact fun s lane eye => rfl
  case pins =>
    exact fun s pin fn hnext => ⟨execPinSwitchComplete_of_last hnext, fun h => execPinSwitchComplete_of_held hnext⟩
  case tick =>
    intro s watts mv ma hrails s1
    refine ⟨fun habove hstepped => ?_, fun hbelow hloud => ?_⟩
    · have hover : odGet (countMs s watts mv ma) Ad.modPowerCapW < watts := habove
      exact (execPowerAverageTick_of_loud mv ma hrails (by omega)).trans (if_pos ⟨habove, hstepped⟩)
    · exact (execPowerAverageTick_of_loud mv ma hrails hloud).trans (if_neg fun h => Nat.not_lt.mpr hbelow h.1)
  case temp => exact fun s temps plate hrails => execDieTempSample_of_unstepped temps plate hrails
  case limit => exact fun s watts hover => ⟨fun hrun => if_pos ⟨hrun, hover⟩, fun hlimit => if_pos ⟨hlimit, hover⟩⟩
  case trip => exact fun s => execThermalTrip_of_late
  case refs =>
    exact fun s => ⟨rfl, rfl, rfl, fun hrails => congrArg _ (if_pos hrails), fun ref hoff => if_neg (Bool.eq_false_iff.mp hoff)⟩

end Sys2Proof.Machine
